-- ==== Sys2Proof/Word.lean ====
section
/-! DEFINITION. The word types of the Vorham V8 (R8, R14): bytes, 32-bit and 64-bit words. -/

namespace Sys2Proof

/-- One byte of memory, of a tile, of an accumulator row. -/
abbrev Byte := BitVec 8

/-- A vector register, a status register, an immediate (R35, R49). -/
abbrev Word := BitVec 32

/-- A uniform register, an address, a reel (R35, R161, R348). -/
abbrev DWord := BitVec 64

end Sys2Proof
end

