-- ==== Sys2Proof/Syntax.lean ====
section
/-! DEFINITION. The syntax of the part's steps: the canonical word (R49, R52), the types (R84), the
trap causes (R370), and one constructor for each row of the table of operations and events. -/

namespace Sys2Proof

/-- The types of R84; `untyped` is code 0x00. -/
inductive Ty where
  | untyped | b8 | b16 | b32 | b64 | b128 | i4 | i8 | i16 | i32 | i64 | n4 | n8 | n16 | n32 | n64
  | f16 | bf16 | f32 | f64 | f16x2 | bf16x2 | e2m1 | e2m3 | e3m2 | e4m3 | e5m2
  | e2m1x8 | e2m3x8 | e3m2x8 | e4m3x8 | e5m2x8 | i8x8
  deriving DecidableEq, Repr, Inhabited

/-- The trap causes of R370. `trapOverflow` is never taken; it names a kill (R378). -/
inductive Cause where
  | illegalOp | reservedField | illegalType | illegalGuard | runOffEnd | intDiv0 | regIndex
  | misaligned | scratchBounds | xlateFault | accessViolation | accessRevoked | tileUndeclared
  | envelopeQuota | reelOverdraft | promiseMissed | futureDouble | mailboxCap | ackTimeout
  | uncorrectedData | watchdog | swTrap | bkpt | trapOverflow
  deriving DecidableEq, Repr, Inhabited

/-- The operand fields of a canonical word with its extension slot (R49 to R53). OP itself is the
constructor of `Instr`; `uni` is OP[6] of groups 001 and 010, the uniform form of R83. -/
structure CWord where
  uni  : Bool := false
  g    : BitVec 4 := 7#4
  d    : BitVec 8 := 0#8
  a    : BitVec 8 := 0#8
  b    : BitVec 8 := 0#8
  ty   : Ty := .untyped
  mod  : BitVec 6 := 0#6
  hint : BitVec 12 := 0#12
  bsel : BitVec 2 := 0#2
  imm  : Word := 0#32
  ext  : Word := 0#32
  deriving DecidableEq, Repr, Inhabited

/-- A place outside the home that may hold a copy of a line (R269, R273): a cluster of this package,
numbered 8 x die + cluster, or another package. -/
inductive Place where
  | cluster (n : Nat)
  | package (n : Nat)
  deriving DecidableEq, Repr

/-- The fields of a Bridle flit (R395). -/
structure Flit where
  dest    : Nat
  source  : Nat
  channel : Nat
  seq     : Nat
  kind    : Nat
  payload : List Byte
  crc     : BitVec 64
  deriving DecidableEq, Repr

/-- What another package asks of this package (R397): loads, stores, atomics, the bank operations, what an object instruction
does at its object's home, an invalidation of a line that its home makes here. `again` is no message: the k-th of the accesses
that are held is tried again. -/
inductive RemoteReq where
  | read (pa size : Nat)
  | write (pa : Nat) (data : List Byte)
  | atomic (op : BitVec 3) (ty : Ty) (pa : Nat) (b e : DWord)
  | bred (op : BitVec 3) (ty : Ty) (pa : Nat) (b : DWord)
  | bupd (op : BitVec 3) (ty : Ty) (pa : Nat) (b e : DWord)
  | fput (pa : Nat) (value : DWord)
  | ftake (pa : Nat)
  | mbsend (pa slot : Nat) (data : List Byte)
  | mbrecv (pa slot : Nat)
  | bari (pa : Nat) (n : Word)
  | bara (pa : Nat) (n : Word)
  | unpark (env pa : Nat) (all : Bool)
  | waiter (pa : Nat) (up : Bool)
  | invalidate (line : Nat)
  | again (k : Nat)
  deriving DecidableEq, Repr

/-- An access of the host (R390, R391, R394): to device memory through CXL.mem, an AtomicOp to it of 4 or 8 bytes (0 FetchAdd,
1 Swap, 2 CAS, with its compare value), a read of a register of BAR0, a doorbell write. `again` is no access: the k-th of those
that are held is tried again. -/
inductive HostReq where
  | read (addr size : Nat)
  | write (addr : Nat) (data : List Byte)
  | atomic (op : BitVec 2) (wide : Bool) (addr : Nat) (b e : DWord)
  | bar (offset : Nat)
  | ring (die queue : Nat) (value : DWord)
  | again (k : Nat)
  deriving DecidableEq, Repr

/-- The links whose lanes are repaired (R417). -/
inductive Link where
  | boundary (n group : Nat)
  | port (n : Nat)
  deriving DecidableEq, Repr

/-- A message to the management plane's controller (R427, R428): over the side-band port with its MCTP type, and the vendor ID of
a vendor-defined one; or a command from the physical function's mailbox. -/
structure MgmtMsg where
  mailbox : Bool := false
  type    : Nat := 0
  vendor  : Nat := 0x1E4A
  body    : List Byte := []
  deriving DecidableEq, Repr

/-- The envelope settings of R362. -/
inductive EnvField where
  | memquota | ipool | tpool | irefill | trefill | debt | landtime | saveres | rename | captab | capn
  | weight | hbmmin | hbmmax
  deriving DecidableEq, Repr

/-- The sensors of R433. -/
inductive Sensor where
  | power | limit | clock | dieTemperature (die : Nat) | stackTemperature (stack : Nat)
  | corrected (die : Nat) | bbidx (die : Nat) | dieState (die : Nat)
  deriving DecidableEq, Repr

/-- One constructor for each row of the table of operations and events. The first 152 are the
instructions, each with its canonical word; the others are the indivisible events of the package's
agents, each with what names its occasion; those without an argument stand last. -/
inductive Instr where
  /-- NOP (R96): Does nothing but charge the instruction reel. -/
  | nop (w : CWord)
  /-- CLAUSE (R67): Waits until the wait-mask flags are clear for every thread of the plait, then makes the next n words one clause with the header's set-slots. -/
  | clause (w : CWord)
  /-- BRA (R94): Transfers each active thread to PC plus a signed displacement. -/
  | bra (w : CWord)
  /-- BRX (R95): Transfers each active thread to CodeBase plus a target offset held in a vector register. -/
  | brx (w : CWord)
  /-- CALL (R94): Writes the link offset to v0 and transfers to PC plus a displacement. -/
  | call (w : CWord)
  /-- CALLX (R95): Reads a target offset, writes the link offset to v0 and transfers to CodeBase plus the old offset. -/
  | callx (w : CWord)
  /-- RET (R95): Transfers each active thread to CodeBase plus v0. -/
  | ret (w : CWord)
  /-- UBRA (R94): Branches every active thread on the zero or non-zero test of a uniform register. -/
  | ubra (w : CWord)
  /-- ARM (R98): Sets each active thread's armed bit for a pin. -/
  | arm (w : CWord)
  /-- PIN (R99): An armed thread waits at the pin until every armed live thread has arrived, then all are released to ordinary formation. -/
  | pin (w : CWord)
  /-- PIN_ALIGN (R99): As PIN, but the released threads form plaits in aligned formation. -/
  | pinAlign (w : CWord)
  /-- WIDTH (R101): Each thread waits with a grant request; when every live thread waits, the highest %tid's request is granted and plaits form anew. -/
  | width (w : CWord)
  /-- EXIT (R103): Ends each active thread, clearing its armed bits, counting it as triggered and dropping its outstanding results. -/
  | exit (w : CWord)
  /-- TRIGGER (R104): Marks each active thread as triggered, a release at the dependence scope. -/
  | trigger (w : CWord)
  /-- LAND (R105): A continuation point at which a thread of a due block waits for its results and lands; otherwise acts as NOP. -/
  | land (w : CWord)
  /-- YIELD (R106): Returns each active thread to the back of its PC pool, dissolving the plait. -/
  | yield (w : CWord)
  /-- PAYOUT (R107): Moves an amount from the envelope's pool into a reel, possibly clearing a landing-due state. -/
  | payout (w : CWord)
  /-- SLEEP (R108): Puts each active thread into waiting until %time at issue plus a count of ns. -/
  | sleep (w : CWord)
  /-- SLEEPUNTIL (R108): Puts each active thread into waiting until an absolute %time or the next tick multiple. -/
  | sleepuntil (w : CWord)
  /-- TRAP (R109): Raises SW_TRAP for each active thread with the immediate as trap address. -/
  | trap (w : CWord)
  /-- TRET (R110): Ends the current trap level, resuming the stop set at its PC or after it and every other stopped thread where it stood. -/
  | tret (w : CWord)
  /-- TREAD (R111): The handler reads a selected piece of another thread's state. -/
  | tread (w : CWord)
  /-- TWRITE (R111): The handler writes a selected piece of another thread's state. -/
  | twrite (w : CWord)
  /-- KILL (R112): Ends the thread's whole launch, stopping every block and reporting killed with the code. -/
  | kill (w : CWord)
  /-- BKPT (R109): Raises BKPT for each active thread, or stops the block for an attached debugger. -/
  | bkpt (w : CWord)
  /-- WDOG (R113): Sets the watchdog period and restarts the block's watchdog timer. -/
  | wdog (w : CWord)
  /-- IFENCE (R115): Invalidates the loop buffers of the thread's core so later fetches come from the instruction cache or memory. -/
  | ifence (w : CWord)
  /-- ICINV (R114): Performs earlier stores at the scope, then invalidates instruction-cache entries and fetch-unit lines covering a range. -/
  | icinv (w : CWord)
  /-- SRD (R116): Reads a special register into a vector register or pair. -/
  | srd (w : CWord)
  /-- SWR (R117): Writes a special register, subject to its field rules and access. -/
  | swr (w : CWord)
  /-- IADD (R125): Integer addition, wrapping or saturating. -/
  | iadd (w : CWord)
  /-- ISUB (R125): Integer subtraction, wrapping or saturating. -/
  | isub (w : CWord)
  /-- IMUL (R125): Low half of an integer product, always wrapping. -/
  | imul (w : CWord)
  /-- IMULHI (R125): High half of an integer product. -/
  | imulhi (w : CWord)
  /-- IMAD (R125): Integer multiply-add. -/
  | imad (w : CWord)
  /-- IDIV (R126): Integer quotient rounded towards zero, trapping INT_DIV0 on a zero divisor. -/
  | idiv (w : CWord)
  /-- IREM (R126): Integer remainder with the sign of the dividend, trapping INT_DIV0 on a zero divisor. -/
  | irem (w : CWord)
  /-- IABS (R125): Integer absolute value. -/
  | iabs (w : CWord)
  /-- INEG (R125): Integer negation. -/
  | ineg (w : CWord)
  /-- IMIN (R125): Integer minimum. -/
  | imin (w : CWord)
  /-- IMAX (R125): Integer maximum. -/
  | imax (w : CWord)
  /-- IADDSAT (R125): Integer addition, always clamped. -/
  | iaddsat (w : CWord)
  /-- ICMP (R127): Writes a predicate from an integer comparison. -/
  | icmp (w : CWord)
  /-- ISET (R127): Writes a mask, a one or a predicate from an integer comparison or bit test. -/
  | iset (w : CWord)
  /-- AND (R437): Bitwise and. -/
  | and (w : CWord)
  /-- OR (R437): Bitwise or. -/
  | or (w : CWord)
  /-- XOR (R437): Bitwise exclusive or. -/
  | xor (w : CWord)
  /-- NOT (R437): Bitwise complement. -/
  | not (w : CWord)
  /-- ANDN (R437): Bitwise and with the complement of the second source. -/
  | andn (w : CWord)
  /-- SHL (R128): Logical shift left. -/
  | shl (w : CWord)
  /-- SHR (R128): Logical shift right. -/
  | shr (w : CWord)
  /-- SAR (R128): Arithmetic shift right. -/
  | sar (w : CWord)
  /-- ROTL (R128): Rotate left. -/
  | rotl (w : CWord)
  /-- FUNNEL (R128): Funnel shift right of two concatenated values. -/
  | funnel (w : CWord)
  /-- BFX (R129): Extracts a bit field, zero- or sign-extended. -/
  | bfx (w : CWord)
  /-- BFI (R129): Inserts a bit field into a value. -/
  | bfi (w : CWord)
  /-- POPC (R131): Counts one bits. -/
  | popc (w : CWord)
  /-- CLZ (R131): Counts leading zero bits. -/
  | clz (w : CWord)
  /-- CTZ (R131): Counts trailing zero bits. -/
  | ctz (w : CWord)
  /-- BREV (R131): Reverses the bits. -/
  | brev (w : CWord)
  /-- PRMT (R130): Rearranges bytes of its operands by one of five modes. -/
  | prmt (w : CWord)
  /-- SEL (R132): Selects one of two sources by a predicate. -/
  | sel (w : CWord)
  /-- MOV (R132): Copies a register, pair or quad, or broadcasts a uniform value. -/
  | mov (w : CWord)
  /-- MOVI (R132): Writes an immediate. -/
  | movi (w : CWord)
  /-- LEA (R133): Forms an address from base, scaled index, offset and optional uniform. -/
  | lea (w : CWord)
  /-- PLOP (R134): Writes a predicate by a lookup table over three predicates. -/
  | plop (w : CWord)
  /-- FADD (R136): Floating addition, rounded once. -/
  | fadd (w : CWord)
  /-- FSUB (R136): Floating subtraction, rounded once. -/
  | fsub (w : CWord)
  /-- FMUL (R136): Floating multiplication, rounded once. -/
  | fmul (w : CWord)
  /-- FFMA (R136): Fused multiply-add, rounded once. -/
  | ffma (w : CWord)
  /-- FMIN (R137): Floating minimum without rounding. -/
  | fmin (w : CWord)
  /-- FMAX (R137): Floating maximum without rounding. -/
  | fmax (w : CWord)
  /-- FCMP (R138): Writes a predicate from a floating comparison. -/
  | fcmp (w : CWord)
  /-- FSET (R138): Writes a mask or 1.0 from a floating comparison. -/
  | fset (w : CWord)
  /-- FCLASS (R139): Writes a predicate testing the class of a floating value. -/
  | fclass (w : CWord)
  /-- FRND (R140): Rounds a floating value to an integral value in its format. -/
  | frnd (w : CWord)
  /-- FSCALE (R140): Multiplies a floating value by a power of two. -/
  | fscale (w : CWord)
  /-- FDIV (R141): Floating division, rounded once. -/
  | fdiv (w : CWord)
  /-- FCVT (R142): Converts between floating formats. -/
  | fcvt (w : CWord)
  /-- F2I (R142): Converts a floating value to an integer, clamping. -/
  | f2i (w : CWord)
  /-- I2F (R142): Converts an integer to a floating format. -/
  | i2f (w : CWord)
  /-- HADD2 (R143): Adds two packed 16-bit floating pairs elementwise. -/
  | hadd2 (w : CWord)
  /-- HFMA2 (R143): Fused multiply-add on two packed 16-bit floating pairs. -/
  | hfma2 (w : CWord)
  /-- DOT4 (R144): Four-element dot product plus an addend, exact then rounded once. -/
  | dot4 (w : CWord)
  /-- RCP (R145): Correctly rounded reciprocal. -/
  | rcp (w : CWord)
  /-- RSQ (R145): Correctly rounded reciprocal square root. -/
  | rsq (w : CWord)
  /-- SQRT (R145): Correctly rounded square root. -/
  | sqrt (w : CWord)
  /-- EXP2 (R145): Correctly rounded power of two. -/
  | exp2 (w : CWord)
  /-- LOG2 (R145): Correctly rounded base-two logarithm. -/
  | log2 (w : CWord)
  /-- SIN (R145): Correctly rounded sine. -/
  | sin (w : CWord)
  /-- COS (R145): Correctly rounded cosine. -/
  | cos (w : CWord)
  /-- TANH (R145): Correctly rounded hyperbolic tangent. -/
  | tanh (w : CWord)
  /-- SHFL (R147): Gives each participant the value of another participant of its sub-segment, or a fallback. -/
  | shfl (w : CWord)
  /-- VOTE (R148): Combines one predicate of each participant of the segment. -/
  | vote (w : CWord)
  /-- MATCH (R149): Compares each participant's value with those of its segment. -/
  | matchx (w : CWord)
  /-- RED (R150): Reduces one value per participant across the segment. -/
  | red (w : CWord)
  /-- SCAN (R150): Computes an inclusive or exclusive prefix across the segment. -/
  | scan (w : CWord)
  /-- XCLR (R152): Clears an exact accumulator and its status bits. -/
  | xclr (w : CWord)
  /-- XADD (R152): Adds each active thread's value exactly into an exact accumulator. -/
  | xadd (w : CWord)
  /-- XFMA (R152): Adds each active thread's exact product into an exact accumulator. -/
  | xfma (w : CWord)
  /-- XRND (R153): Rounds an exact accumulator once into a floating result. -/
  | xrnd (w : CWord)
  /-- XMOV (R154): Reads a 64-bit chunk of an exact accumulator into a pair. -/
  | xmov (w : CWord)
  /-- XMOV_WRITE (R154): Replaces a 64-bit chunk or the status of an exact accumulator with the highest-%tid thread's value. -/
  | xmovWrite (w : CWord)
  /-- BINQ (R157): Counts the thresholds in a tile that a value passes to the right. -/
  | binq (w : CWord)
  /-- CROSS (R157): Steps a tree index to a child by comparing a value with a node. -/
  | cross (w : CWord)
  /-- TCMP (R157): Appends a node comparison bit to a path code. -/
  | tcmp (w : CWord)
  /-- LEAF (R157): Adds a weighted leaf value to a score when the node is a leaf. -/
  | leaf (w : CWord)
  /-- LD (R167): Loads from memory into a register, pair or quad. -/
  | ld (w : CWord)
  /-- ST (R167): Stores a register, pair or quad to memory. -/
  | st (w : CWord)
  /-- LDS (R167): Loads from the block's scratchpad. -/
  | lds (w : CWord)
  /-- STS (R167): Stores to the block's scratchpad. -/
  | sts (w : CWord)
  /-- LDC (R168): Loads from a cluster-group member's scratchpad. -/
  | ldc (w : CWord)
  /-- STC (R168): Stores to a cluster-group member's scratchpad. -/
  | stc (w : CWord)
  /-- LDK (R169): Loads memory through the core's constant cache. -/
  | ldk (w : CWord)
  /-- ATOM (R171): Indivisible read-modify-write at the home L2 bank, returning the old value. -/
  | atom (w : CWord)
  /-- ATOMS (R171): Indivisible read-modify-write in the block's scratchpad, returning the old value. -/
  | atoms (w : CWord)
  /-- BRED (R172): Reduction update at the bank that returns nothing. -/
  | bred (w : CWord)
  /-- BUPD (R172): Multiply, axpy or clamp update at the bank that returns nothing. -/
  | bupd (w : CWord)
  /-- FENCE (R173): Orders each active thread's accesses by the ordering and scope. -/
  | fence (w : CWord)
  /-- WAITADDR (R174): Reads a word and, unless the condition holds, parks the thread watching its line. -/
  | waitaddr (w : CWord)
  /-- CCTL (R177): Drops or invalidates the line holding an address in a chosen cache. -/
  | cctl (w : CWord)
  /-- PREFETCH (R177): Hints a line into L1 or L2. -/
  | prefetch (w : CWord)
  /-- PARK (R175): Compares a word with a value at its home and parks on the address as key when equal. -/
  | park (w : CWord)
  /-- UNPARK (R175): A release that wakes one or all threads of the envelope parked on a key. -/
  | unpark (w : CWord)
  /-- ACOPY (R178): Starts an asynchronous copy on a copy-engine queue and returns its promised time. -/
  | acopy (w : CWord)
  /-- AQFENCE (R181): Orders or waits for the thread's earlier copies on masked queues. -/
  | aqfence (w : CWord)
  /-- FETCH (R183): Reads and decodes one element through the fetch unit by a descriptor. -/
  | fetch (w : CWord)
  /-- FPUT (R186): Fills an empty future with a value and wakes its waiters. -/
  | fput (w : CWord)
  /-- FGET (R186): Reads a full future, optionally taking it, or parks until it is filled. -/
  | fget (w : CWord)
  /-- FTRY (R186): Reads a full future, optionally taking it, or reports it empty. -/
  | ftry (w : CWord)
  /-- MBSEND (R187): Copies a 64-byte message from scratchpad into the next free mailbox slot, or reports the ring full. -/
  | mbsend (w : CWord)
  /-- MBRECV (R187): Copies the head published slot into scratchpad and frees it, or parks or reports empty. -/
  | mbrecv (w : CWord)
  /-- TSPAWN (R188): Offers a task record to a launch queue, running it inline or parking when the queue is full. -/
  | tspawn (w : CWord)
  /-- BARI (R189): Initialises a barrier record's expected count and clears its arrivals. -/
  | bari (w : CWord)
  /-- BARA (R189): Releases and adds arrivals to a barrier record, possibly advancing its generation. -/
  | bara (w : CWord)
  /-- BARW (R189): Acquire-reads a barrier generation and parks while it equals the given one. -/
  | barw (w : CWord)
  /-- BSYNC (R191): Waits until the target number of live threads wait, then releases them together and advances the epoch. -/
  | bsync (w : CWord)
  /-- MMA (R198): Accumulates each thread's A row times the B matrix into its accumulator row by k-blocks. -/
  | mma (w : CWord)
  /-- MMASP (R198): As MMA with 4-of-8 sparse B and metadata. -/
  | mmasp (w : CWord)
  /-- TLD (R201): Loads a tile register from 64 memory rows. -/
  | tld (w : CWord)
  /-- TST (R201): Stores a tile register to 64 memory rows. -/
  | tst (w : CWord)
  /-- ACLR (R201): Clears a range of accumulator rows to +0. -/
  | aclr (w : CWord)
  /-- ALD (R201): Loads each thread's accumulator row from 256 bytes of memory. -/
  | ald (w : CWord)
  /-- AST (R201): Stores each thread's accumulator row to 256 bytes of memory. -/
  | ast (w : CWord)
  /-- ARD (R201): Reads four elements of an accumulator row into a quad. -/
  | ard (w : CWord)
  /-- AWR (R201): Writes four elements of an accumulator row from a quad. -/
  | awr (w : CWord)
  /-- AQNT (R204): Quantises eight elements of an accumulator row into a scaled block. -/
  | aqnt (w : CWord)
  /-- PRUNE (R205): Chooses the n most salient of eight weights as a mask. -/
  | prune (w : CWord)
  /-- SPPACK (R206): Packs the four masked elements of a group of eight. -/
  | sppack (w : CWord)
  /-- INTSECT (R207): Finds for each participant an equal key in the other half of its sub-segment. -/
  | intsect (w : CWord)
  /-- BSORT (R207): Sorts the participants' keys, with values, across the sub-segment. -/
  | bsort (w : CWord)
  /-- BMERGE (R207): Merges the two halves of each sub-segment by key. -/
  | bmerge (w : CWord)
  /-- RESULT_ARRIVAL (R48): A long-latency result reaches the thread's registers and lowers its completion-flag count. -/
  | resultArrival (blk tid k : Nat)
  /-- ACCESS_ACCEPTED (R68): The memory system accepts a flag-tracked access that writes no register, lowering its flag count. -/
  | accessAccepted (blk tid k : Nat)
  /-- LINE_FILL (R65): The fetch unit fetches or prefetches a 64-byte code line and decodes it into entries. -/
  | lineFill (core launch : Nat) (line : DWord)
  /-- PLAIT_FORMATION (R214): The former takes threads from a pool into a plait on a free slot of the pool's section. -/
  | plaitFormation (blk : Nat) (pc : DWord) (group : Option Nat)
  /-- POOL_DUE (R221): A pool's oldest ready age reaches 4,096 cycles, making it due and choosing a rotation victim if no slot is free. -/
  | poolDue (blk : Nat) (pc : DWord) (group : Option Nat)
  /-- SPLIT_LIMIT (R226): A half issues 64 times since the split, ending split issue and dissolving the plait. -/
  | splitLimit (blk plait : Nat)
  /-- SLEEP_WAKE (R108): A sleeping thread's target time passes and it becomes ready. -/
  | sleepWake (blk tid : Nat)
  /-- WATCHDOG (R113): The watchdog period of resident unstopped time passes and the block stops with cause WATCHDOG. -/
  | watchdog (blk : Nat)
  /-- WAITADDR_WAKE (R174): A write performed at the watched line's home wakes a parked WAITADDR, which re-reads and completes. -/
  | waitaddrWake (blk tid : Nat)
  /-- PARKED_WAKE (R176): A parked FGET, MBRECV, BARW, TSPAWN or PARK thread is woken and re-performs its check. -/
  | parkedWake (blk tid : Nat)
  /-- WAIT_TABLE_POLL (R176): Every 2,000 ns a thread that found the wait table full re-performs its check. -/
  | waitTablePoll (blk tid : Nat)
  /-- COPY_BEAT (R190): The copy engine writes a 64-byte beat of a copy and subtracts it from a linked barrier record. -/
  | copyBeat (copy : Nat)
  /-- COPY_COMPLETE (R179): Every destination byte of a copy is written and acknowledged. -/
  | copyComplete (copy : Nat)
  /-- PROMISE_MISSED (R180): %time reaches a copy's promised time before it is complete and the block stops. -/
  | promiseMissed (copy : Nat)
  /-- LANDING_SAVE (R353): The landing save is written after draining and the block's placement is freed. -/
  | landingSave (blk : Nat)
  /-- FORCED_SAVE (R354): A due block exceeds its landing bound or timeout and is saved in full at the next boundary. -/
  | forcedSave (blk : Nat)
  /-- RESTORE (R361): The scheduler restores a saved block onto a core with room. -/
  | restore (blk core : Nat)
  /-- TURN_GROUP_ROTATION (R321): A resident turn group whose live threads all wait is saved and replaced by the longest-absent ready group. -/
  | turnGroupRotation (blk group : Nat)
  /-- REGISTER_RETURN (R238): A woken lender thread's registers return from slots after the borrower has landed. -/
  | registerReturn (blk tid : Nat)
  /-- DEBUGGER_RESUME (R380): An attached debugger resumes a block stopped at BKPT, as TRET or TRET.skip. -/
  | debuggerResume (blk : Nat) (skip : Bool)
  /-- WALK_COMPLETE (R384): A page walk completes and every waiting thread receives its translation or fault. -/
  | walkComplete (walk : Nat)
  /-- FQRESP_MAPPED (R385): The servicer answers mapped and every waiting thread walks again. -/
  | fqrespMapped (die id : Nat)
  /-- FQRESP_REFUSED (R385): The servicer answers refused and every waiting thread takes a non-replayable XLATE_FAULT. -/
  | fqrespRefused (die id : Nat)
  /-- FQRESP_OVER_QUOTA (R363): The servicer answers over quota and every waiting thread takes ENVELOPE_QUOTA. -/
  | fqrespOverQuota (die id : Nat)
  /-- FQBASE_WRITE (R393): Writing FQBASE sets the fault-queue ring base and restarts the posted count. -/
  | fqbaseWrite (fn die : Nat) (value : DWord)
  /-- SHOOTDOWN (R386): The management plane or driver starts dropping translations for an envelope's range. -/
  | shootdown (env : Nat) (va : DWord) (len : Nat)
  /-- SHOOTDOWN_COMPLETE (R386): Every TLB has dropped the range and every access through it is performed. -/
  | shootdownComplete (k : Nat)
  /-- MIGRATION_START (R277): The old home freezes a page, invalidates its copies and copies it to the new home. -/
  | migrationStart (env : Nat) (va : DWord) (target : Nat)
  /-- MIGRATION_OPEN (R277): The new home opens the migrated page and performs held accesses. -/
  | migrationOpen (k : Nat)
  /-- MOVED_ANSWER (R277): An access answered MOVED is re-translated and reissued to the new home. -/
  | movedAnswer (blk tid : Nat)
  /-- TRANSIENT_REQUEST (R271): An L1 broadcasts a request for tokens to its cluster filter's cores and the token home. -/
  | transientRequest (core line : Nat) (write : Bool)
  /-- TOKEN_RESPONSE (R270): Tokens, with data when the owner token moves, arrive at a requester. -/
  | tokenResponse (core line : Nat) (source : Option Nat)
  /-- TRANSIENT_RETRY (R271): A transient request that has not gathered its tokens is retried after 256 cycles. -/
  | transientRetry (core line : Nat)
  /-- PERSISTENT_ACTIVATION (R272): A persistent entry is activated and every L1 forwards its tokens to the requester. -/
  | persistentActivation (die line : Nat)
  /-- REMOTE_READ (R275): A remote read arrives at the home, which answers and records the reader in the directory. -/
  | remoteRead (reader : Place) (line : Nat)
  /-- REMOTE_WRITE (R274): A written-through write arrives at the home and starts an invalidation round if sharers exist. -/
  | remoteWrite (writer : Place) (line : Nat)
  /-- INVALIDATION (R274): A remote cache receives an invalidation, drops the line and acknowledges. -/
  | invalidation (place : Place) (line : Nat)
  /-- INVALIDATION_ACK (R274): An invalidation acknowledgement arrives, ending the round when it is the last. -/
  | invalidationAck (place : Place) (line : Nat)
  /-- WRITE_ACK (R165): A remote write's acknowledgement arrives and the block's %ackc falls by one. -/
  | writeAck (blk k : Nat)
  /-- FILL_RESPONSE (R275): A remote-line cache fill arrives and serves its loads. -/
  | fillResponse (die line : Nat)
  /-- REGION_RECLAIM (R273): A home slice reclaims a directory entry after invalidating every recorded place. -/
  | regionReclaim (region : Nat)
  /-- FILTER_RECLAIM (R276): A cluster filter takes back an entry after returning its cores' tokens. -/
  | filterReclaim (cluster line : Nat)
  /-- INVALIDATION_TIMEOUT (R278): An invalidation stays unacknowledged for the timeout and the home quarantines the package. -/
  | invalidationTimeout (line : Nat)
  /-- ACK_TIMEOUT (R397): A remote write stays unacknowledged for the timeout; the target is quarantined and affected blocks stop. -/
  | ackTimeout (pkg : Nat)
  /-- LOAD_TIMEOUT (R397): A remote load or atomic result stays unanswered; the target is quarantined and the thread takes ACCESS_REVOKED. -/
  | loadTimeout (blk tid pkg : Nat)
  /-- FLIT_RECEIVE (R396): A Bridle flit arrives and is checked, performed once or rejected for replay. -/
  | flitReceive (port : Nat) (flit : Flit)
  /-- REPLAY_REQUEST (R396): A sender replays flits from the one a receiver rejected. -/
  | replayRequest (port : Nat) (seq : Nat × Nat × Nat)
  /-- REMOTE_ACCESS_ARRIVAL (R397): A remote access message arrives and is checked for pod membership and quarantine. -/
  | remoteAccessArrival (source : Nat) (req : RemoteReq)
  /-- REVOKED_ANSWER (R397): A REVOKED answer arrives and the requesting thread takes ACCESS_REVOKED. -/
  | revokedAnswer (blk tid : Nat)
  /-- LANE_REPAIR (R417): A failing lane is switched to a spare, or a Bridle port drops to one lane. -/
  | laneRepair (link : Link) (lane : Nat)
  /-- BOUNDARY_LOST (R418): A die boundary is lost and every context on the package is killed. -/
  | boundaryLost (boundary : Nat)
  /-- CORRECTION_ENTRY_TIMER (R413): A 1 ms correction window ends and one black-box entry is written for the counted corrections. -/
  | correctionEntryTimer (store die : Nat)
  /-- DOORBELL (R392): A host doorbell write submits a task to a launch queue or is dropped and counted. -/
  | doorbell (fn die queue : Nat) (value : DWord)
  /-- QSTAT_READ (R391): Reading QSTAT returns free slots and drops and clears DROPS. -/
  | qstatRead (fn die queue : Nat)
  /-- REGISTER_WRITE (R391): A host write to a BAR0 register without behaviour of its own. -/
  | registerWrite (fn offset : Nat) (value : DWord)
  /-- HOST_MEM_ACCESS (R394): The host reads or writes device memory through CXL.mem. -/
  | hostMemAccess (fn : Nat) (req : HostReq)
  /-- QUEUE_TAKE (R338): A die task scheduler takes the next message from a non-empty launch queue. -/
  | queueTake (die queue : Nat)
  /-- REGISTRATION (R330): A task takes its dependence-table entries and rename buffers and registers its tile versions. -/
  | registration (task : Nat)
  /-- TASK_READY (R333): A registered task's waits and AFTER futures are met and it becomes ready. -/
  | taskReady (task : Nat)
  /-- BLOCK_PLACEMENT (R339): The scheduler places the next block of a ready task or a saved block on a core with room. -/
  | blockPlacement (task core : Nat)
  /-- PRIORITY_AGING (R339): Each full 10 ms of waiting raises a task's effective priority by one. -/
  | priorityAging (task : Nat)
  /-- PIPELINE_BALANCE (R341): Every 100 µs the scheduler checks stage occupancies and may recall a block of the emptiest stage. -/
  | pipelineBalance (env pipe : Nat)
  /-- WRITE_BACK (R335): A committed version is written back to the tile's home once no older reader remains. -/
  | writeBack (env tile : Nat)
  /-- GRID_COMPLETION (R265): Every block, copy, acknowledgement, send and version of a launch is done; the launch completes and reports. -/
  | gridCompletion (task : Nat)
  /-- HOST_LINK_RESET (R435): Release of PERST_N trains the host link alone. -/
  | hostLinkReset (width rate : Nat)
  /-- MCTP_CONTROL (R427): An MCTP control message, such as Set Endpoint ID, is handled. -/
  | mctpControl (msg : MgmtMsg)
  /-- BBOX_READ (R428): Returns 64 KiB of one die's black-box ring with BBIDX before and after. -/
  | bboxRead (die : Nat)
  /-- SET_LIMIT (R428): Sets the module power limit. -/
  | setLimit (watts : Nat)
  /-- ENV_SET (R428): Writes one envelope setting. -/
  | envSet (env : Nat) (field : EnvField) (value : Nat)
  /-- POD_SET (R428): Writes the pod member set and %pkgid while no context is resident. -/
  | podSet (members : List Nat) (pkgid : Nat)
  /-- QUAR_CLEAR (R425): Removes one package from the quarantine set and writes REJOIN. -/
  | quarClear (pkg : Nat)
  /-- CACHE_RESET (R425): Invalidates copies of other packages' lines and drops translations to them. -/
  | cacheReset (pkg : Nat)
  /-- RETIRE_COMMIT (R416): Commits a candidate frame's retirement to flash and withdraws its address. -/
  | retireCommit (die frame : Nat)
  /-- SET_ACKTO (R428): Sets the acknowledgement timeout. -/
  | setAckto (ns : Nat)
  /-- SET_RLC (R428): Sets one die's remote-line cache size, invalidating its remote lines. -/
  | setRlc (die mib : Nat)
  /-- DBG_ATTACH (R428): Attaches or detaches a debugger to an envelope. -/
  | dbgAttach (env : Nat) (attach : Bool)
  /-- PLDM_SENSOR_READ (R433): Returns a PLDM numeric or state sensor reading. -/
  | pldmSensorRead (sensor : Sensor)
  /-- FIRMWARE_UPDATE (R430): Writes an image to the inactive slot, verifies it and marks it active for the next reset. -/
  | firmwareUpdate (image : List Byte) (whole : Bool)
  /-- NEGOTIATE_ALGORITHMS (R431): SPDM request settling on P-256 and SHA-256. -/
  | negotiateAlgorithms (sign hash : Nat)
  /-- GET_CERTIFICATE (R431): SPDM request returning the device identity chain. -/
  | getCertificate (slot : Nat)
  /-- CHALLENGE (R431): SPDM request answered with a signed challenge response. -/
  | challenge (slot : Nat) (nonce : List Byte)
  /-- GET_MEASUREMENTS (R431): SPDM request returning the hashes of what is in force. -/
  | getMeasurements (index : Nat)
  /-- NOT_AN_INSTRUCTION (R54): A thread reaches an entry that fails the checks of R54, or the end-of-kernel marker, or runs sequentially to the bound, and traps there. -/
  | notAnInstruction (cause : Cause)
  /-- PORT_COMES_BACK (R399): A Bridle port that was down comes back, and messages waiting for a route are sent and answered. -/
  | portComesBack (port : Nat)
  /-- HOST_COMPLETION_TIMEOUT (R394): A host-memory read or atomic gets no completion within the acknowledgement timeout, and its thread takes UNCORRECTED_DATA. -/
  | hostCompletionTimeout (blk tid : Nat)
  /-- HOST_LINK_TRAINS_DOWN (R399): The host link retrains to a lower width or rate while running. -/
  | hostLinkTrainsDown (width rate : Nat)
  /-- DEBUGGER_THREAD_WRITE (R380): An attached debugger writes a stopped thread's state through the selectors of R111, or,
  with no value, reads it. -/
  | debuggerThreadWrite (blk tid : Nat) (selector : Word) (wide : Bool) (value : Option DWord)
  /-- QUEUE_BINDING (R326): The management plane binds one of a die scheduler's 64 queues to a KIND 1 mailbox. -/
  | queueBinding (die queue env : Nat) (mailbox : DWord)
  /-- ROOT_TABLE_ADDRESS (R381): The management plane sets an envelope's root page-table address. -/
  | rootTableAddress (env root : Nat)
  /-- FUNCTION_BINDING (R390): The management plane binds a physical or virtual host-link function to one envelope. -/
  | functionBinding (fn env : Nat)
  /-- DIRECT_REEL_PAYMENT (R360): The management plane pays a block's reels directly, clearing the overdraft before adding to the reel. -/
  | directReelPayment (blk : Nat) (traffic : Bool) (amount : Nat)
  /-- DYNAMIC_ADDRESS_ASSIGNMENT (R427): The side-band target receives its dynamic address by I3C address assignment. -/
  | dynamicAddressAssignment (address : Nat)
  /-- RETIREMENT_THRESHOLD (R416): The management plane sets the corrected-error threshold for retirement candidates from 1 to 255. -/
  | retirementThreshold (n : Nat)
  /-- POWER_MEASUREMENT (R432): Every 10 µs module power is measured and the clock stepped down or up by 25 MHz. -/
  | powerMeasurement
  /-- THERMAL_TRIP (R432): A fixed temperature is reached and THERMTRIP_N removes module power. -/
  | thermalTrip
  /-- FREEZE_INPUT (R420): A rising edge on FREEZE writes a FREEZE event and stops every clock but the management domain's. -/
  | freezeInput
  /-- COLD_RESET (R434): MRESET_N runs the full reset sequence, clearing the black boxes. -/
  | coldReset
  /-- WARM_RESET (R434): A falling edge on WRESET_N runs the reset sequence without HBM and mesh training, keeping the black boxes. -/
  | warmReset
  /-- FREEZE (R428): The side-band freeze command acts as the FREEZE ball. -/
  | freeze
  /-- ERR_COUNTS (R428): Returns the correction counters per structure and die. -/
  | errCounts
  /-- GET_VERSION (R431): SPDM request returning supported versions. -/
  | getVersion
  /-- GET_CAPABILITIES (R431): SPDM request returning capabilities. -/
  | getCapabilities
  /-- GET_DIGESTS (R431): SPDM request returning certificate chain digests. -/
  | getDigests
  deriving DecidableEq, Repr

end Sys2Proof
end

