-- ==== Sys2Proof/Config.lean ====
section
/-! DEFINITION. What one package fixes (R2), and the values the manual leaves open, as constants
without a body (log 3). -/

namespace Sys2Proof.Config

/-! ## Resources (R2, R233, R319) -/

def dies : Nat := 4
def clustersPerDie : Nat := 8
def coresPerCluster : Nat := 24
def coresPerDie : Nat := clustersPerDie * coresPerCluster
def cores : Nat := dies * coresPerDie
def maxThreads : Nat := 2048
def maxBlocks : Nat := 32
def slotsPerSection : Nat := 16
def waitTable : Nat := 1024
def poolEntries : Nat := 512
def queuesPerDie : Nat := 64
/-- Canonical entries of an instruction cache, and of a loop buffer (R2). -/
def icacheEntries : Nat := 8192
def loopEntries : Nat := 64
/-- Lines of 128 bytes of a constant cache, of a fetch unit, and of one MiB of a remote-line cache (R2, R246). -/
def constLines : Nat := 256
def fetchLines : Nat := 16384
def linesPerMib : Nat := 8192
/-- Walks that a die makes at once (R2). -/
def walkers : Nat := 64
def taskTable : Nat := 4096
def tableEntries : Nat := 16384
def envelopes : Nat := 4096
def bankBytes : Nat := 131072
def coreScratch : Nat := 458752
def spanScratch : Nat := 1835008
/-- Bytes of the array of a core that its scratchpads and its L1 data cache share, and the least that the cache has
(R241, R246). -/
def l1Array : Nat := 524288
def l1Least : Nat := 65536
def persistentEntries : Nat := 32
def regionEntries : Nat := 16384
def filterEntries : Nat := 8192
def tokensPerLine : Nat := 256
def l1Tlb : Nat := 128
def l2Tlb : Nat := 4096
def blackBoxEntries : Nat := 4096
def retirementFrames : Nat := 8192
/-- Entries of a core's pool table that are reserved for each resident block, and those shared (R212). -/
def poolsPerBlock : Nat := 4
def poolsShared : Nat := 384
def replayFlits : Nat := 256
def bridlePorts : Nat := 128
/-- Device memory of one die (R389). -/
def dieBytes : Nat := 0x3000000000
/-- Device memory of one package (R389). -/
def packageBytes : Nat := 0xC000000000

/-! ## Free values. Each is applied to the counter `State.choices`, or to the operands named. -/

/-- Which of the steps that can be taken is taken next (R220, R253). -/
opaque pick : Nat → Nat
/-- Whether a section issues a second plait in a cycle that may hold two (R220). -/
opaque coIssue : Nat → Bool
/-- How many ns of %time pass before the next step that the scheduler of the model chooses. -/
opaque elapse : Nat → Nat
/-- Whether an outstanding result had arrived at a read that nothing makes wait (R47, last row). -/
opaque arrived : Nat → Bool
/-- Whether a stale copy of a line is used (R66, R169, R184). -/
opaque stale : Nat → Bool
/-- Whether a fill of a code line goes on past one step, so that writes overlap it (R66). -/
opaque slowFill : Nat → Bool
/-- The ns from an ACOPY's issue to its promised time (R178). -/
opaque promise : Nat → Nat
/-- The next thread, among those whose atomics of one issue name one address (R171). -/
opaque arrival : Nat → Nat
/-- Whether a package of the pod maps a page of this package's memory (R273). -/
opaque mapsPage : Nat → Nat → Bool
/-- The ID of a fault-queue entry, unique among the unanswered ones of its die (R393). -/
opaque faultId : Nat → Nat
/-- Measured module power in W at a power measurement (R432). -/
opaque power : Nat → Nat
/-- Whether the hottest sensor of some die is at its thermal limit at a measurement (R432). -/
opaque hot : Nat → Bool
/-- Whether a die passes the training and the tests of a cold reset (R434). -/
opaque trained : Nat → Bool
/-- A reading of a temperature sensor (R433). -/
opaque temperature : Nat → Nat
/-- The code bytes that a re-translation gives, of a loop level's bytes and a function descriptor's (R315). -/
opaque translation : List Byte → List Byte → List Byte
/-- The resource block of that translation, in the order of the record's bytes 0x30 to 0x3F (R315). -/
opaque translationCounts : List Byte → List Byte → List Byte
/-- The cross-reference table that the loader writes beside it (R315). -/
opaque crossTable : List Byte → List Byte → List Byte
/-- The 64 KiB page of its envelope at which a translation's image begins (R315, log 51). -/
opaque translationPage : Nat → Nat
/-- The value of a FETCH of a raw element into a float type of another width, for which R26 lists no
conversion: by format code, type code and element (R183). -/
opaque rawElement : Nat → Nat → Nat → Nat
/-- The stack of a die that holds a frame (R423), modulo 4. -/
opaque stackOf : Nat → Nat → Nat
/-- The slice of a die that a 512-byte region hashes to (R246), modulo 48. -/
opaque slice : Nat → Nat
/-- SHA-256 of bytes, as a number (R429, R431; the standard defines it). -/
opaque sha256 : List Byte → Nat
/-- ECDSA P-256 verification: key, message, signature (R429; the standard defines it). -/
opaque ecdsaP256 : Nat → List Byte → Nat → Bool
/-- ECDSA P-256 signature of a message by the device identity key (R431). -/
opaque identitySign : List Byte → Nat
/-- The body of an SPDM, PLDM or MCTP control reply whose contents the standards give (R427, R431). -/
opaque standardReply : Nat → List Byte → List Byte
/-- Whether an error of storage comes about before the next step, and where: 0 uncorrectable or 1 correctable, the kind of unit
and its numbers; 2 an entry that is dropped, or a flit (R412). -/
opaque strike : Nat → Option (Nat × Nat × Nat × Nat × Nat)
/-- The k-th operand of an Aelkin command's bytes, and the members that POD_SET names (R428). -/
opaque operand : List Byte → Nat → Nat
opaque operandSet : List Byte → List Nat
/-- The message kind and the bytes by which the package asks for a place of another package, or writes there, by its physical
address and the message's number (R395). -/
opaque message : Bool → Nat → Nat → Nat × List Byte
/-- What the flits of a message ask, by their message kind and the payload so far: none until the message is whole (R395). -/
opaque request : Nat → List Byte → Option RemoteReq
/-- Whether a port leads toward a package of the pod (R396). -/
opaque toward : Nat → Nat → Bool
/-- Whether the host's completion of a read or an atomic is an error (R394). -/
opaque hostError : Nat → Bool

end Sys2Proof.Config
end

