-- ==== Sys2Proof/Machine/OpMap.lean ====
section
/-! DEFINITION. The opcode map (R82 to R88): for each opcode the types, BSEL values, extension fields
and weight of R86, the operand signature of its description, and the four checks of R54. -/

namespace Sys2Proof

/-! ## Types (R84) -/

def Ty.code : Ty → BitVec 6

  | .untyped => 0x00#6
  | .b8 => 0x01#6
  | .b16 => 0x02#6
  | .b32 => 0x03#6
  | .b64 => 0x04#6
  | .b128 => 0x05#6
  | .i4 => 0x08#6
  | .i8 => 0x09#6
  | .i16 => 0x0A#6
  | .i32 => 0x0B#6
  | .i64 => 0x0C#6
  | .n4 => 0x10#6
  | .n8 => 0x11#6
  | .n16 => 0x12#6
  | .n32 => 0x13#6
  | .n64 => 0x14#6
  | .f16 => 0x18#6
  | .bf16 => 0x19#6
  | .f32 => 0x1A#6
  | .f64 => 0x1B#6
  | .f16x2 => 0x1C#6
  | .bf16x2 => 0x1D#6
  | .e2m1 => 0x20#6
  | .e2m3 => 0x21#6
  | .e3m2 => 0x22#6
  | .e4m3 => 0x23#6
  | .e5m2 => 0x24#6
  | .e2m1x8 => 0x28#6
  | .e2m3x8 => 0x29#6
  | .e3m2x8 => 0x2A#6
  | .e4m3x8 => 0x2B#6
  | .e5m2x8 => 0x2C#6
  | .i8x8 => 0x2D#6

/-- The type of a TY code; none for the reserved codes (R84). -/
def Ty.ofCode (c : BitVec 6) : Option Ty :=
  match c.toNat with
  | 0 => some .untyped
  | 1 => some .b8
  | 2 => some .b16
  | 3 => some .b32
  | 4 => some .b64
  | 5 => some .b128
  | 8 => some .i4
  | 9 => some .i8
  | 10 => some .i16
  | 11 => some .i32
  | 12 => some .i64
  | 16 => some .n4
  | 17 => some .n8
  | 18 => some .n16
  | 19 => some .n32
  | 20 => some .n64
  | 24 => some .f16
  | 25 => some .bf16
  | 26 => some .f32
  | 27 => some .f64
  | 28 => some .f16x2
  | 29 => some .bf16x2
  | 32 => some .e2m1
  | 33 => some .e2m3
  | 34 => some .e3m2
  | 35 => some .e4m3
  | 36 => some .e5m2
  | 40 => some .e2m1x8
  | 41 => some .e2m3x8
  | 42 => some .e3m2x8
  | 43 => some .e4m3x8
  | 44 => some .e5m2x8
  | 45 => some .i8x8
  | _ => none

/-- Bits of one value of a scalar type; packed pairs occupy a register, scaled blocks their element
bytes (R14, R16). -/
def Ty.bits : Ty → Nat
  | .untyped => 0
  | .b8 | .i8 | .n8 | .e4m3 | .e5m2 => 8
  | .b16 | .i16 | .n16 | .f16 | .bf16 => 16
  | .b32 | .i32 | .n32 | .f32 | .f16x2 | .bf16x2 | .e2m1x8 => 32
  | .b64 | .i64 | .n64 | .f64 | .e2m3x8 | .e3m2x8 | .e4m3x8 | .e5m2x8 | .i8x8 => 64
  | .b128 => 128
  | .i4 | .n4 | .e2m1 => 4
  | .e2m3 | .e3m2 => 6

/-- Vector registers of one value: a pair for 64 bits, a quad for 128 (R14, R36). -/
def Ty.regs (t : Ty) : Nat := if t.bits = 64 then 2 else if t.bits = 128 then 4 else 1

def Ty.signed : Ty → Bool
  | .i4 | .i8 | .i16 | .i32 | .i64 => true
  | _ => false

def Ty.isFloat : Ty → Bool
  | .f16 | .bf16 | .f32 | .f64 | .f16x2 | .bf16x2 => true
  | _ => false

def tyI : List Ty := [.i32, .i64, .n32, .n64]
def tyB : List Ty := [.b32, .b64]
def tyF : List Ty := [.f32, .f64, .f16, .bf16]
def tyM : List Ty := [.b32, .b8, .b16, .b64, .b128, .i8, .i16, .n8, .n16]
def tyA : List Ty := [.i32, .i64, .n32, .n64, .b32, .b64, .f32, .f64, .f16x2, .bf16x2]

/-! ## Rows of R86 -/

/-- The extension fields of R86: m mask, r ROUND, e operand E, z FTZ, s SAT. -/
inductive ExtField where
  | m | r | e | z | s
  deriving DecidableEq, Repr

/-- One opcode of R86: its slot, the types it accepts (the default first), the BSEL values, the
extension fields, the weight, and whether it has a uniform form (R83). -/
structure Row where
  op     : Nat
  tys    : List Ty
  bsels  : List (BitVec 2)
  ext    : List ExtField
  weight : Nat
  uni    : Bool := false
  deriving DecidableEq, Repr

/-- The row of an opcode slot, uniform forms apart (R82, R86). -/
def row (op : Nat) : Option Row :=
  match op with
  | 0x000 => some ⟨0x000, [.untyped], [0#2], [], 1, false⟩  -- NOP
  | 0x001 => some ⟨0x001, [.untyped], [0#2], [], 0, false⟩  -- CLAUSE
  | 0x002 => some ⟨0x002, [.untyped], [0#2], [], 1, false⟩  -- BRA
  | 0x003 => some ⟨0x003, [.untyped], [0#2], [], 1, false⟩  -- BRX
  | 0x004 => some ⟨0x004, [.untyped], [0#2], [], 1, false⟩  -- CALL
  | 0x005 => some ⟨0x005, [.untyped], [0#2], [], 1, false⟩  -- CALLX
  | 0x006 => some ⟨0x006, [.untyped], [0#2], [], 1, false⟩  -- RET
  | 0x007 => some ⟨0x007, [.untyped], [0#2], [], 1, false⟩  -- UBRA
  | 0x008 => some ⟨0x008, [.untyped], [0#2], [], 1, false⟩  -- ARM
  | 0x009 => some ⟨0x009, [.untyped], [0#2], [], 1, false⟩  -- PIN
  | 0x00A => some ⟨0x00A, [.untyped], [0#2], [], 1, false⟩  -- PIN_ALIGN
  | 0x00B => some ⟨0x00B, [.untyped], [0#2, 2#2], [], 1, false⟩  -- WIDTH
  | 0x00C => some ⟨0x00C, [.untyped], [0#2], [], 1, false⟩  -- EXIT
  | 0x00D => some ⟨0x00D, [.untyped], [0#2], [], 1, false⟩  -- TRIGGER
  | 0x00E => some ⟨0x00E, [.untyped], [0#2], [], 1, false⟩  -- LAND
  | 0x00F => some ⟨0x00F, [.untyped], [0#2], [], 1, false⟩  -- YIELD
  | 0x010 => some ⟨0x010, [.untyped], [0#2, 2#2], [], 1, false⟩  -- PAYOUT
  | 0x011 => some ⟨0x011, [.untyped], [0#2, 2#2], [], 1, false⟩  -- SLEEP
  | 0x012 => some ⟨0x012, [.untyped], [0#2, 2#2], [], 1, false⟩  -- SLEEPUNTIL
  | 0x013 => some ⟨0x013, [.untyped], [0#2], [], 1, false⟩  -- TRAP
  | 0x014 => some ⟨0x014, [.untyped], [0#2], [], 1, false⟩  -- TRET
  | 0x015 => some ⟨0x015, [.b32, .b64], [0#2], [], 1, false⟩  -- TREAD
  | 0x016 => some ⟨0x016, [.b32, .b64], [0#2], [], 1, false⟩  -- TWRITE
  | 0x017 => some ⟨0x017, [.untyped], [0#2], [], 1, false⟩  -- KILL
  | 0x018 => some ⟨0x018, [.untyped], [0#2], [], 1, false⟩  -- BKPT
  | 0x019 => some ⟨0x019, [.untyped], [0#2, 2#2], [], 1, false⟩  -- WDOG
  | 0x01A => some ⟨0x01A, [.untyped], [0#2], [], 1, false⟩  -- IFENCE
  | 0x01B => some ⟨0x01B, [.untyped], [0#2], [], 8, false⟩  -- ICINV
  | 0x01C => some ⟨0x01C, [.b32, .b64], [0#2], [], 1, false⟩  -- SRD
  | 0x01D => some ⟨0x01D, [.b32, .b64], [0#2, 2#2], [], 1, false⟩  -- SWR
  | 0x080 => some ⟨0x080, tyI, [0#2, 2#2], [.m, .s], 1, true⟩  -- IADD
  | 0x081 => some ⟨0x081, tyI, [0#2, 2#2], [.m, .s], 1, true⟩  -- ISUB
  | 0x082 => some ⟨0x082, tyI, [0#2, 2#2], [.m], 1, true⟩  -- IMUL
  | 0x083 => some ⟨0x083, tyI, [0#2, 2#2], [.m], 1, true⟩  -- IMULHI
  | 0x084 => some ⟨0x084, tyI, [0#2, 1#2], [.m, .s], 1, true⟩  -- IMAD
  | 0x085 => some ⟨0x085, tyI, [0#2, 2#2], [.m], 8, true⟩  -- IDIV
  | 0x086 => some ⟨0x086, tyI, [0#2, 2#2], [.m], 8, true⟩  -- IREM
  | 0x087 => some ⟨0x087, tyI, [0#2, 2#2], [.m, .s], 1, true⟩  -- IABS
  | 0x088 => some ⟨0x088, tyI, [0#2, 2#2], [.m, .s], 1, true⟩  -- INEG
  | 0x089 => some ⟨0x089, tyI, [0#2, 2#2], [.m], 1, true⟩  -- IMIN
  | 0x08A => some ⟨0x08A, tyI, [0#2, 2#2], [.m], 1, true⟩  -- IMAX
  | 0x08B => some ⟨0x08B, tyI, [0#2, 2#2], [.m], 1, true⟩  -- IADDSAT
  | 0x08C => some ⟨0x08C, tyI, [0#2, 2#2], [.m], 1, true⟩  -- ICMP
  | 0x08D => some ⟨0x08D, tyI, [0#2, 2#2], [.m], 1, true⟩  -- ISET
  | 0x08E => some ⟨0x08E, tyB, [0#2, 2#2], [.m], 1, true⟩  -- AND
  | 0x08F => some ⟨0x08F, tyB, [0#2, 2#2], [.m], 1, true⟩  -- OR
  | 0x090 => some ⟨0x090, tyB, [0#2, 2#2], [.m], 1, true⟩  -- XOR
  | 0x091 => some ⟨0x091, tyB, [0#2], [.m], 1, true⟩  -- NOT
  | 0x092 => some ⟨0x092, tyB, [0#2, 2#2], [.m], 1, true⟩  -- ANDN
  | 0x093 => some ⟨0x093, tyB, [0#2, 2#2], [.m], 1, true⟩  -- SHL
  | 0x094 => some ⟨0x094, tyB, [0#2, 2#2], [.m], 1, true⟩  -- SHR
  | 0x095 => some ⟨0x095, [.i32, .i64], [0#2, 2#2], [.m], 1, true⟩  -- SAR
  | 0x096 => some ⟨0x096, tyB, [0#2, 2#2], [.m], 1, true⟩  -- ROTL
  | 0x097 => some ⟨0x097, tyB, [0#2, 1#2, 2#2], [.m], 1, true⟩  -- FUNNEL
  | 0x098 => some ⟨0x098, tyB, [0#2, 1#2, 2#2], [.m], 1, true⟩  -- BFX
  | 0x099 => some ⟨0x099, tyB, [0#2, 1#2, 2#2], [.m, .e], 1, true⟩  -- BFI
  | 0x09A => some ⟨0x09A, tyB, [0#2], [.m], 1, true⟩  -- POPC
  | 0x09B => some ⟨0x09B, tyB, [0#2], [.m], 1, true⟩  -- CLZ
  | 0x09C => some ⟨0x09C, tyB, [0#2], [.m], 1, true⟩  -- CTZ
  | 0x09D => some ⟨0x09D, tyB, [0#2], [.m], 1, true⟩  -- BREV
  | 0x09E => some ⟨0x09E, tyB, [0#2, 1#2, 2#2], [.m], 1, true⟩  -- PRMT
  | 0x09F => some ⟨0x09F, tyB, [0#2, 2#2], [.m], 1, false⟩  -- SEL
  | 0x0A0 => some ⟨0x0A0, [.b32, .b64, .b128], [0#2], [.m], 1, true⟩  -- MOV
  | 0x0A1 => some ⟨0x0A1, [.b32, .b64], [2#2], [.m], 1, true⟩  -- MOVI
  | 0x0A2 => some ⟨0x0A2, [.n64, .n32], [0#2, 1#2], [.m, .e], 1, true⟩  -- LEA
  | 0x0A3 => some ⟨0x0A3, [.untyped], [0#2], [.m], 1, false⟩  -- PLOP
  | 0x100 => some ⟨0x100, tyF, [0#2, 2#2], [.m, .r, .z, .s], 1, true⟩  -- FADD
  | 0x101 => some ⟨0x101, tyF, [0#2, 2#2], [.m, .r, .z, .s], 1, true⟩  -- FSUB
  | 0x102 => some ⟨0x102, tyF, [0#2, 2#2], [.m, .r, .z, .s], 1, true⟩  -- FMUL
  | 0x103 => some ⟨0x103, tyF, [0#2, 1#2], [.m, .r, .z, .s], 1, true⟩  -- FFMA
  | 0x104 => some ⟨0x104, tyF, [0#2, 2#2], [.m, .z], 1, true⟩  -- FMIN
  | 0x105 => some ⟨0x105, tyF, [0#2, 2#2], [.m, .z], 1, true⟩  -- FMAX
  | 0x106 => some ⟨0x106, tyF, [0#2, 2#2], [.m, .z], 1, true⟩  -- FCMP
  | 0x107 => some ⟨0x107, tyF, [0#2, 2#2], [.m, .z], 1, true⟩  -- FSET
  | 0x108 => some ⟨0x108, tyF, [0#2, 2#2], [.m, .z], 1, false⟩  -- FCLASS
  | 0x109 => some ⟨0x109, tyF, [0#2, 2#2], [.m, .r, .z, .s], 1, false⟩  -- FRND
  | 0x10A => some ⟨0x10A, tyF, [0#2, 2#2], [.m, .r, .z, .s], 1, false⟩  -- FSCALE
  | 0x10B => some ⟨0x10B, [.f32, .f64], [0#2, 2#2], [.m, .r, .z, .s], 8, false⟩  -- FDIV
  | 0x10C => some ⟨0x10C, [.f32, .f64, .f16, .bf16, .e4m3, .e5m2, .e3m2, .e2m3, .e2m1], [0#2], [.m, .r, .z, .s], 1, true⟩  -- FCVT
  | 0x10D => some ⟨0x10D, [.i32, .i64, .n32, .n64, .i8, .i16, .n8, .n16], [0#2], [.m, .r], 1, true⟩  -- F2I
  | 0x10E => some ⟨0x10E, tyF, [0#2], [.m, .r, .z], 1, true⟩  -- I2F
  | 0x10F => some ⟨0x10F, [.f16x2, .bf16x2], [0#2, 2#2], [.m, .r, .z, .s], 1, false⟩  -- HADD2
  | 0x110 => some ⟨0x110, [.f16x2, .bf16x2], [0#2, 1#2], [.m, .r, .z, .s], 1, false⟩  -- HFMA2
  | 0x111 => some ⟨0x111, [.i8, .n8, .e4m3, .e5m2], [0#2, 1#2], [.m], 1, false⟩  -- DOT4
  | 0x180 => some ⟨0x180, [.f32, .f16], [0#2], [.m, .z], 2, false⟩  -- RCP
  | 0x181 => some ⟨0x181, [.f32, .f16], [0#2], [.m, .z], 2, false⟩  -- RSQ
  | 0x182 => some ⟨0x182, [.f32, .f16], [0#2], [.m, .z], 2, false⟩  -- SQRT
  | 0x183 => some ⟨0x183, [.f32, .f16], [0#2], [.m, .z], 2, false⟩  -- EXP2
  | 0x184 => some ⟨0x184, [.f32, .f16], [0#2], [.m, .z], 2, false⟩  -- LOG2
  | 0x185 => some ⟨0x185, [.f32, .f16], [0#2], [.m, .z], 4, false⟩  -- SIN
  | 0x186 => some ⟨0x186, [.f32, .f16], [0#2], [.m, .z], 4, false⟩  -- COS
  | 0x187 => some ⟨0x187, [.f32, .f16], [0#2], [.m, .z], 4, false⟩  -- TANH
  | 0x188 => some ⟨0x188, tyB, [0#2, 1#2, 2#2], [.m], 2, false⟩  -- SHFL
  | 0x189 => some ⟨0x189, [.untyped], [0#2], [.m], 1, false⟩  -- VOTE
  | 0x18A => some ⟨0x18A, tyB, [0#2], [.m], 2, false⟩  -- MATCH
  | 0x18B => some ⟨0x18B, [.i32, .i64, .n32, .n64, .f32, .f16, .bf16], [0#2], [.m, .r], 2, false⟩  -- RED
  | 0x18C => some ⟨0x18C, [.i32, .i64, .n32, .n64, .f32, .f16, .bf16], [0#2], [.m, .r], 2, false⟩  -- SCAN
  | 0x190 => some ⟨0x190, [.untyped], [0#2], [], 1, false⟩  -- XCLR
  | 0x191 => some ⟨0x191, [.f32, .f16, .bf16], [0#2], [.m], 1, false⟩  -- XADD
  | 0x192 => some ⟨0x192, [.f32, .f16, .bf16], [0#2], [.m], 1, false⟩  -- XFMA
  | 0x193 => some ⟨0x193, [.f32, .f64, .f16, .bf16], [0#2], [.r], 2, false⟩  -- XRND
  | 0x194 => some ⟨0x194, [.b64], [0#2, 2#2], [], 2, false⟩  -- XMOV
  | 0x198 => some ⟨0x198, [.f32, .f16, .bf16], [0#2, 1#2], [.m], 2, false⟩  -- BINQ
  | 0x199 => some ⟨0x199, [.f32, .f16, .bf16], [0#2, 1#2], [.m], 2, false⟩  -- CROSS
  | 0x19A => some ⟨0x19A, [.f32, .f16, .bf16], [0#2, 1#2], [.m], 2, false⟩  -- TCMP
  | 0x19B => some ⟨0x19B, [.f32, .f16, .bf16], [0#2, 1#2], [.m], 2, false⟩  -- LEAF
  | 0x200 => some ⟨0x200, tyM, [0#2], [.m], 1, false⟩  -- LD
  | 0x201 => some ⟨0x201, tyM, [0#2], [.m], 1, false⟩  -- ST
  | 0x202 => some ⟨0x202, tyM, [0#2], [.m], 1, false⟩  -- LDS
  | 0x203 => some ⟨0x203, tyM, [0#2], [.m], 1, false⟩  -- STS
  | 0x204 => some ⟨0x204, tyM, [0#2], [.m], 1, false⟩  -- LDC
  | 0x205 => some ⟨0x205, tyM, [0#2], [.m], 1, false⟩  -- STC
  | 0x206 => some ⟨0x206, tyM, [0#2], [.m], 1, false⟩  -- LDK
  | 0x207 => some ⟨0x207, tyA, [0#2], [.m, .e], 2, false⟩  -- ATOM
  | 0x208 => some ⟨0x208, tyA, [0#2], [.m, .e], 2, false⟩  -- ATOMS
  | 0x209 => some ⟨0x209, tyA, [0#2], [.m], 2, false⟩  -- BRED
  | 0x20A => some ⟨0x20A, tyA, [0#2], [.m], 2, false⟩  -- BUPD
  | 0x20B => some ⟨0x20B, [.untyped], [0#2], [], 1, false⟩  -- FENCE
  | 0x20C => some ⟨0x20C, [.b32, .b64], [0#2], [.m], 1, false⟩  -- WAITADDR
  | 0x20D => some ⟨0x20D, [.untyped], [0#2], [.m], 1, false⟩  -- CCTL
  | 0x20E => some ⟨0x20E, [.untyped], [0#2], [.m], 1, false⟩  -- PREFETCH
  | 0x20F => some ⟨0x20F, [.untyped], [0#2], [.m], 1, false⟩  -- PARK
  | 0x210 => some ⟨0x210, [.untyped], [0#2], [.m], 1, false⟩  -- UNPARK
  | 0x280 => some ⟨0x280, [.untyped], [0#2], [], 4, false⟩  -- ACOPY
  | 0x281 => some ⟨0x281, [.untyped], [0#2], [], 1, false⟩  -- AQFENCE
  | 0x282 => some ⟨0x282, [.b32, .b64, .f32, .f16, .bf16], [0#2], [.m], 2, false⟩  -- FETCH
  | 0x283 => some ⟨0x283, [.b64], [0#2], [.m], 2, false⟩  -- FPUT
  | 0x284 => some ⟨0x284, [.b64], [0#2], [.m], 2, false⟩  -- FGET
  | 0x285 => some ⟨0x285, [.b64], [0#2], [.m], 2, false⟩  -- FTRY
  | 0x286 => some ⟨0x286, [.untyped], [0#2], [.m], 4, false⟩  -- MBSEND
  | 0x287 => some ⟨0x287, [.untyped], [0#2], [.m], 4, false⟩  -- MBRECV
  | 0x288 => some ⟨0x288, [.untyped], [0#2], [], 8, false⟩  -- TSPAWN
  | 0x289 => some ⟨0x289, [.untyped], [0#2, 2#2], [], 1, false⟩  -- BARI
  | 0x28A => some ⟨0x28A, [.untyped], [0#2, 2#2], [], 1, false⟩  -- BARA
  | 0x28B => some ⟨0x28B, [.untyped], [0#2, 2#2], [], 1, false⟩  -- BARW
  | 0x28C => some ⟨0x28C, [.untyped], [0#2, 2#2], [], 1, false⟩  -- BSYNC
  | 0x300 => some ⟨0x300, [.f16, .bf16, .f32, .f64, .e4m3, .e5m2, .e3m2, .e2m3, .i8, .n8, .i4, .n4, .e2m1x8, .e2m3x8, .e3m2x8, .e4m3x8, .e5m2x8, .i8x8], [0#2, 1#2], [.e], 8, false⟩  -- MMA
  | 0x301 => some ⟨0x301, [.f16, .bf16, .e4m3, .e5m2, .e3m2, .e2m3, .i8, .n8, .i4, .n4, .e2m1x8, .e2m3x8, .e3m2x8, .e4m3x8, .e5m2x8, .i8x8], [0#2, 1#2], [.e], 8, false⟩  -- MMASP
  | 0x302 => some ⟨0x302, [.untyped], [0#2], [], 4, false⟩  -- TLD
  | 0x303 => some ⟨0x303, [.untyped], [0#2], [], 4, false⟩  -- TST
  | 0x304 => some ⟨0x304, [.untyped], [0#2, 2#2], [], 1, false⟩  -- ACLR
  | 0x305 => some ⟨0x305, [.f32], [0#2], [.m], 2, false⟩  -- ALD
  | 0x306 => some ⟨0x306, [.f32], [0#2], [.m], 2, false⟩  -- AST
  | 0x307 => some ⟨0x307, [.f32], [0#2], [.m], 2, false⟩  -- ARD
  | 0x308 => some ⟨0x308, [.f32], [0#2], [.m], 2, false⟩  -- AWR
  | 0x309 => some ⟨0x309, [.e2m1x8, .e2m3x8, .e3m2x8, .e4m3x8, .e5m2x8, .i8x8], [0#2], [], 2, false⟩  -- AQNT
  | 0x30A => some ⟨0x30A, [.f32, .f16, .bf16], [0#2, 1#2], [], 4, false⟩  -- PRUNE
  | 0x30B => some ⟨0x30B, [.e2m1x8, .e4m3x8, .e5m2x8, .i8x8, .f16, .bf16], [0#2], [], 2, false⟩  -- SPPACK
  | 0x30C => some ⟨0x30C, [.n32, .n64, .b32], [0#2, 1#2], [.e], 4, false⟩  -- INTSECT
  | 0x30D => some ⟨0x30D, [.n32, .n64, .b32], [0#2, 1#2], [.e], 4, false⟩  -- BSORT
  | 0x30E => some ⟨0x30E, [.n32, .n64, .b32], [0#2, 1#2], [.e], 4, false⟩  -- BMERGE
  | _ => none

/-- The opcode slot, without the uniform bit, and the word of an instruction; none for an event. -/
def Instr.opWord : Instr → Option (Nat × CWord)
  | .nop w => some (0x000, w)
  | .clause w => some (0x001, w)
  | .bra w => some (0x002, w)
  | .brx w => some (0x003, w)
  | .call w => some (0x004, w)
  | .callx w => some (0x005, w)
  | .ret w => some (0x006, w)
  | .ubra w => some (0x007, w)
  | .arm w => some (0x008, w)
  | .pin w => some (0x009, w)
  | .pinAlign w => some (0x00A, w)
  | .width w => some (0x00B, w)
  | .exit w => some (0x00C, w)
  | .trigger w => some (0x00D, w)
  | .land w => some (0x00E, w)
  | .yield w => some (0x00F, w)
  | .payout w => some (0x010, w)
  | .sleep w => some (0x011, w)
  | .sleepuntil w => some (0x012, w)
  | .trap w => some (0x013, w)
  | .tret w => some (0x014, w)
  | .tread w => some (0x015, w)
  | .twrite w => some (0x016, w)
  | .kill w => some (0x017, w)
  | .bkpt w => some (0x018, w)
  | .wdog w => some (0x019, w)
  | .ifence w => some (0x01A, w)
  | .icinv w => some (0x01B, w)
  | .srd w => some (0x01C, w)
  | .swr w => some (0x01D, w)
  | .iadd w => some (0x080, w)
  | .isub w => some (0x081, w)
  | .imul w => some (0x082, w)
  | .imulhi w => some (0x083, w)
  | .imad w => some (0x084, w)
  | .idiv w => some (0x085, w)
  | .irem w => some (0x086, w)
  | .iabs w => some (0x087, w)
  | .ineg w => some (0x088, w)
  | .imin w => some (0x089, w)
  | .imax w => some (0x08A, w)
  | .iaddsat w => some (0x08B, w)
  | .icmp w => some (0x08C, w)
  | .iset w => some (0x08D, w)
  | .and w => some (0x08E, w)
  | .or w => some (0x08F, w)
  | .xor w => some (0x090, w)
  | .not w => some (0x091, w)
  | .andn w => some (0x092, w)
  | .shl w => some (0x093, w)
  | .shr w => some (0x094, w)
  | .sar w => some (0x095, w)
  | .rotl w => some (0x096, w)
  | .funnel w => some (0x097, w)
  | .bfx w => some (0x098, w)
  | .bfi w => some (0x099, w)
  | .popc w => some (0x09A, w)
  | .clz w => some (0x09B, w)
  | .ctz w => some (0x09C, w)
  | .brev w => some (0x09D, w)
  | .prmt w => some (0x09E, w)
  | .sel w => some (0x09F, w)
  | .mov w => some (0x0A0, w)
  | .movi w => some (0x0A1, w)
  | .lea w => some (0x0A2, w)
  | .plop w => some (0x0A3, w)
  | .fadd w => some (0x100, w)
  | .fsub w => some (0x101, w)
  | .fmul w => some (0x102, w)
  | .ffma w => some (0x103, w)
  | .fmin w => some (0x104, w)
  | .fmax w => some (0x105, w)
  | .fcmp w => some (0x106, w)
  | .fset w => some (0x107, w)
  | .fclass w => some (0x108, w)
  | .frnd w => some (0x109, w)
  | .fscale w => some (0x10A, w)
  | .fdiv w => some (0x10B, w)
  | .fcvt w => some (0x10C, w)
  | .f2i w => some (0x10D, w)
  | .i2f w => some (0x10E, w)
  | .hadd2 w => some (0x10F, w)
  | .hfma2 w => some (0x110, w)
  | .dot4 w => some (0x111, w)
  | .rcp w => some (0x180, w)
  | .rsq w => some (0x181, w)
  | .sqrt w => some (0x182, w)
  | .exp2 w => some (0x183, w)
  | .log2 w => some (0x184, w)
  | .sin w => some (0x185, w)
  | .cos w => some (0x186, w)
  | .tanh w => some (0x187, w)
  | .shfl w => some (0x188, w)
  | .vote w => some (0x189, w)
  | .matchx w => some (0x18A, w)
  | .red w => some (0x18B, w)
  | .scan w => some (0x18C, w)
  | .xclr w => some (0x190, w)
  | .xadd w => some (0x191, w)
  | .xfma w => some (0x192, w)
  | .xrnd w => some (0x193, w)
  | .xmov w => some (0x194, w)
  | .binq w => some (0x198, w)
  | .cross w => some (0x199, w)
  | .tcmp w => some (0x19A, w)
  | .leaf w => some (0x19B, w)
  | .ld w => some (0x200, w)
  | .st w => some (0x201, w)
  | .lds w => some (0x202, w)
  | .sts w => some (0x203, w)
  | .ldc w => some (0x204, w)
  | .stc w => some (0x205, w)
  | .ldk w => some (0x206, w)
  | .atom w => some (0x207, w)
  | .atoms w => some (0x208, w)
  | .bred w => some (0x209, w)
  | .bupd w => some (0x20A, w)
  | .fence w => some (0x20B, w)
  | .waitaddr w => some (0x20C, w)
  | .cctl w => some (0x20D, w)
  | .prefetch w => some (0x20E, w)
  | .park w => some (0x20F, w)
  | .unpark w => some (0x210, w)
  | .acopy w => some (0x280, w)
  | .aqfence w => some (0x281, w)
  | .fetch w => some (0x282, w)
  | .fput w => some (0x283, w)
  | .fget w => some (0x284, w)
  | .ftry w => some (0x285, w)
  | .mbsend w => some (0x286, w)
  | .mbrecv w => some (0x287, w)
  | .tspawn w => some (0x288, w)
  | .bari w => some (0x289, w)
  | .bara w => some (0x28A, w)
  | .barw w => some (0x28B, w)
  | .bsync w => some (0x28C, w)
  | .mma w => some (0x300, w)
  | .mmasp w => some (0x301, w)
  | .tld w => some (0x302, w)
  | .tst w => some (0x303, w)
  | .aclr w => some (0x304, w)
  | .ald w => some (0x305, w)
  | .ast w => some (0x306, w)
  | .ard w => some (0x307, w)
  | .awr w => some (0x308, w)
  | .aqnt w => some (0x309, w)
  | .prune w => some (0x30A, w)
  | .sppack w => some (0x30B, w)
  | .intsect w => some (0x30C, w)
  | .bsort w => some (0x30D, w)
  | .bmerge w => some (0x30E, w)
  | .xmovWrite w => some (0x194, w)
  | _ => none

/-- The instruction of an opcode slot (R82). Slot 0x194 is the write form of XMOV when MOD[0] = 1
(R151). -/
def Instr.ofOp (op : Nat) (w : CWord) : Option Instr :=
  match op with
  | 0x000 => some (.nop w)
  | 0x001 => some (.clause w)
  | 0x002 => some (.bra w)
  | 0x003 => some (.brx w)
  | 0x004 => some (.call w)
  | 0x005 => some (.callx w)
  | 0x006 => some (.ret w)
  | 0x007 => some (.ubra w)
  | 0x008 => some (.arm w)
  | 0x009 => some (.pin w)
  | 0x00A => some (.pinAlign w)
  | 0x00B => some (.width w)
  | 0x00C => some (.exit w)
  | 0x00D => some (.trigger w)
  | 0x00E => some (.land w)
  | 0x00F => some (.yield w)
  | 0x010 => some (.payout w)
  | 0x011 => some (.sleep w)
  | 0x012 => some (.sleepuntil w)
  | 0x013 => some (.trap w)
  | 0x014 => some (.tret w)
  | 0x015 => some (.tread w)
  | 0x016 => some (.twrite w)
  | 0x017 => some (.kill w)
  | 0x018 => some (.bkpt w)
  | 0x019 => some (.wdog w)
  | 0x01A => some (.ifence w)
  | 0x01B => some (.icinv w)
  | 0x01C => some (.srd w)
  | 0x01D => some (.swr w)
  | 0x080 => some (.iadd w)
  | 0x081 => some (.isub w)
  | 0x082 => some (.imul w)
  | 0x083 => some (.imulhi w)
  | 0x084 => some (.imad w)
  | 0x085 => some (.idiv w)
  | 0x086 => some (.irem w)
  | 0x087 => some (.iabs w)
  | 0x088 => some (.ineg w)
  | 0x089 => some (.imin w)
  | 0x08A => some (.imax w)
  | 0x08B => some (.iaddsat w)
  | 0x08C => some (.icmp w)
  | 0x08D => some (.iset w)
  | 0x08E => some (.and w)
  | 0x08F => some (.or w)
  | 0x090 => some (.xor w)
  | 0x091 => some (.not w)
  | 0x092 => some (.andn w)
  | 0x093 => some (.shl w)
  | 0x094 => some (.shr w)
  | 0x095 => some (.sar w)
  | 0x096 => some (.rotl w)
  | 0x097 => some (.funnel w)
  | 0x098 => some (.bfx w)
  | 0x099 => some (.bfi w)
  | 0x09A => some (.popc w)
  | 0x09B => some (.clz w)
  | 0x09C => some (.ctz w)
  | 0x09D => some (.brev w)
  | 0x09E => some (.prmt w)
  | 0x09F => some (.sel w)
  | 0x0A0 => some (.mov w)
  | 0x0A1 => some (.movi w)
  | 0x0A2 => some (.lea w)
  | 0x0A3 => some (.plop w)
  | 0x100 => some (.fadd w)
  | 0x101 => some (.fsub w)
  | 0x102 => some (.fmul w)
  | 0x103 => some (.ffma w)
  | 0x104 => some (.fmin w)
  | 0x105 => some (.fmax w)
  | 0x106 => some (.fcmp w)
  | 0x107 => some (.fset w)
  | 0x108 => some (.fclass w)
  | 0x109 => some (.frnd w)
  | 0x10A => some (.fscale w)
  | 0x10B => some (.fdiv w)
  | 0x10C => some (.fcvt w)
  | 0x10D => some (.f2i w)
  | 0x10E => some (.i2f w)
  | 0x10F => some (.hadd2 w)
  | 0x110 => some (.hfma2 w)
  | 0x111 => some (.dot4 w)
  | 0x180 => some (.rcp w)
  | 0x181 => some (.rsq w)
  | 0x182 => some (.sqrt w)
  | 0x183 => some (.exp2 w)
  | 0x184 => some (.log2 w)
  | 0x185 => some (.sin w)
  | 0x186 => some (.cos w)
  | 0x187 => some (.tanh w)
  | 0x188 => some (.shfl w)
  | 0x189 => some (.vote w)
  | 0x18A => some (.matchx w)
  | 0x18B => some (.red w)
  | 0x18C => some (.scan w)
  | 0x190 => some (.xclr w)
  | 0x191 => some (.xadd w)
  | 0x192 => some (.xfma w)
  | 0x193 => some (.xrnd w)
  | 0x194 => some (if w.mod.getLsbD 0 then .xmovWrite w else .xmov w)
  | 0x198 => some (.binq w)
  | 0x199 => some (.cross w)
  | 0x19A => some (.tcmp w)
  | 0x19B => some (.leaf w)
  | 0x200 => some (.ld w)
  | 0x201 => some (.st w)
  | 0x202 => some (.lds w)
  | 0x203 => some (.sts w)
  | 0x204 => some (.ldc w)
  | 0x205 => some (.stc w)
  | 0x206 => some (.ldk w)
  | 0x207 => some (.atom w)
  | 0x208 => some (.atoms w)
  | 0x209 => some (.bred w)
  | 0x20A => some (.bupd w)
  | 0x20B => some (.fence w)
  | 0x20C => some (.waitaddr w)
  | 0x20D => some (.cctl w)
  | 0x20E => some (.prefetch w)
  | 0x20F => some (.park w)
  | 0x210 => some (.unpark w)
  | 0x280 => some (.acopy w)
  | 0x281 => some (.aqfence w)
  | 0x282 => some (.fetch w)
  | 0x283 => some (.fput w)
  | 0x284 => some (.fget w)
  | 0x285 => some (.ftry w)
  | 0x286 => some (.mbsend w)
  | 0x287 => some (.mbrecv w)
  | 0x288 => some (.tspawn w)
  | 0x289 => some (.bari w)
  | 0x28A => some (.bara w)
  | 0x28B => some (.barw w)
  | 0x28C => some (.bsync w)
  | 0x300 => some (.mma w)
  | 0x301 => some (.mmasp w)
  | 0x302 => some (.tld w)
  | 0x303 => some (.tst w)
  | 0x304 => some (.aclr w)
  | 0x305 => some (.ald w)
  | 0x306 => some (.ast w)
  | 0x307 => some (.ard w)
  | 0x308 => some (.awr w)
  | 0x309 => some (.aqnt w)
  | 0x30A => some (.prune w)
  | 0x30B => some (.sppack w)
  | 0x30C => some (.intsect w)
  | 0x30D => some (.bsort w)
  | 0x30E => some (.bmerge w)
  | _ => none
/-! ## Fields of a word -/

/-- Bits [lo + n - 1 : lo] of a bit vector, as a natural (Bits of R9). -/
def bits {m : Nat} (x : BitVec m) (lo n : Nat) : Nat := (x.toNat >>> lo) % 2 ^ n

namespace CWord

/-- The guard's predicate number and negation (R39, R49). -/
def guardPred (w : CWord) : Nat := bits w.g 0 3
def guardNot (w : CWord) : Bool := w.g.getLsbD 3
/-- STALL is a hint only; SLOT selects the set-slot (R50). -/
def slot (w : CWord) : Nat := bits w.hint 2 1
/-- The extension fields of R52. -/
def maskPred (w : CWord) : Nat := bits w.ext 29 3
def maskEn (w : CWord) : Bool := w.ext.getLsbD 28
def round (w : CWord) : Nat := bits w.ext 25 3
def e (w : CWord) : Nat := bits w.ext 17 8
def zeroing (w : CWord) : Bool := w.ext.getLsbD 16
def ftz (w : CWord) : Bool := w.ext.getLsbD 15
def sat (w : CWord) : Bool := w.ext.getLsbD 14
/-- Register C, named by IMM[7:0] with BSEL 01 (R51). -/
def c (w : CWord) : Nat := bits w.imm 0 8
/-- A field of MOD. -/
def modF (w : CWord) (lo n : Nat) : Nat := bits w.mod lo n

/-- The displacement, offset or immediate of R93 and R160: IMM sign-extended to 64 bits. -/
def immS (w : CWord) : DWord := w.imm.signExtend 64

end CWord

/-! ## Operand signatures -/

/-- What a field names (R35): nothing, n vector registers from a multiple of n, n uniform registers
from a multiple of n, a predicate, a tile, an exact accumulator, or a number of its own (SRD, SWR). -/
inductive Cls where
  | zero | v (n : Nat) | s (n : Nat) | p | t | x | num
  deriving DecidableEq, Repr

/-- The operands of one word: its fields' classes, whether IMM is one the form defines, and whether
MOD is. C counts only with BSEL 01. -/
structure Sig where
  d   : Cls := .zero
  a   : Cls := .zero
  b   : Cls := .zero
  c   : Cls := .zero
  e   : Cls := .zero
  imm : Bool := true
  mod : Bool := true
  deriving DecidableEq, Repr

/-- The code a field may hold for its class (R35, R36). -/
def Cls.codeOk (c : Cls) (code : Nat) : Bool :=
  match c with
  | .zero => code == 0
  | .v n | .s n => code % n == 0
  | .p | .x => code < 8
  | .t => code < 16
  | .num => true

/-- Conversion sources (R85): FCVT, F2I, I2F. -/
def convSource (op : Nat) : List Ty :=
  if op = 0x10C then [.f32, .f64, .f16, .bf16, .e4m3, .e5m2, .e3m2, .e2m3, .e2m1]
  else if op = 0x10D then [.f16, .bf16, .f32, .f64]
  else [.i8, .i16, .i32, .i64, .n8, .n16, .n32, .n64]

/-- Bytes of side data of one column of B: scales, then metadata for MMASP (R196). -/
def sideBytes (sparse : Bool) : Ty → Nat
  | .f16 | .bf16 => if sparse then 8 else 0
  | .f32 | .f64 => 0
  | .e4m3 | .e5m2 | .e3m2 | .e2m3 | .i8 | .n8 => if sparse then 16 else 0
  | .i4 | .n4 => if sparse then 32 else 0
  | .e2m1x8 => if sparse then 64 else 16
  | _ => if sparse then 32 else 8

/-- The special registers of R41: bits, whether per thread, who reads, who writes. -/
inductive Access where
  | all | handler | nobody
  deriving DecidableEq, Repr

structure Special where
  wide  : Bool
  read  : Access
  write : Access
  deriving DecidableEq, Repr

def special (n : Nat) : Option Special :=
  if n ≤ 0x03 then some ⟨false, .all, .nobody⟩
  else if n = 0x04 then some ⟨false, .all, .all⟩
  else if n = 0x05 then some ⟨false, .all, .handler⟩
  else if n = 0x10 then some ⟨false, .all, .nobody⟩
  else if 0x18 ≤ n ∧ n ≤ 0x1F then some ⟨false, .all, .nobody⟩
  else if n = 0x20 ∨ n = 0x21 then some ⟨true, .all, .handler⟩
  else if 0x22 ≤ n ∧ n ≤ 0x24 then some ⟨false, .all, .nobody⟩
  else if 0x25 ≤ n ∧ n ≤ 0x27 then some ⟨false, .all, .all⟩
  else if n = 0x28 then some ⟨false, .all, .nobody⟩
  else if n = 0x29 ∨ n = 0x2A then some ⟨false, .all, .all⟩
  else if n = 0x2B then some ⟨false, .all, .nobody⟩
  else if n = 0x2C then some ⟨false, .all, .all⟩
  else if n = 0x30 ∨ n = 0x31 then some ⟨true, .all, .nobody⟩
  else if 0x32 ≤ n ∧ n ≤ 0x36 then some ⟨false, .all, .nobody⟩
  else if n = 0x40 then some ⟨false, .all, .nobody⟩
  else if n = 0x41 ∨ n = 0x42 then some ⟨false, .handler, .handler⟩
  else if 0x43 ≤ n ∧ n ≤ 0x46 then some ⟨true, .handler, .handler⟩
  else if n = 0x47 ∨ n = 0x48 then some ⟨false, .handler, .handler⟩
  else if n = 0x49 ∨ n = 0x4A then some ⟨true, .handler, .handler⟩
  else none

/-- The selector of TREAD and TWRITE (R111): KIND, NUM, and the bits between zero; b64 only with
KIND 0, and then an even NUM. -/
def selectorOk (imm : Word) (wide : Bool) : Bool :=
  let kind := bits imm 24 8
  let num := bits imm 0 8
  bits imm 8 16 == 0 && decide (kind ≤ 5) && (kind == 0 || num == 0) &&
    (!wide || (kind == 0 && num % 2 == 0))

/-- CLAUSE's header fields (R67). -/
def clauseOk (w : CWord) : Bool :=
  let slotOk (lo : Nat) (v : Bool) : Bool :=
    if v then decide (bits w.imm lo 4 ≤ 11) else bits w.imm lo 4 == 0
  decide (1 ≤ w.d.toNat ∧ w.d.toNat ≤ 15) && slotOk 16 (w.imm.getLsbD 15) &&
    slotOk 11 (w.imm.getLsbD 10) && bits w.imm 0 10 == 0 && w.g == 7#4 && w.hint == 0#12

/-- The control bits of an immediate k that PRMT's mode does not use are zero; .swap by 3 needs 64
bits (R130). -/
def prmtImmOk (mode : Nat) (wide : Bool) (k : Word) : Bool :=
  if mode = 0 then wide || bits k 16 16 == 0
  else if mode = 1 then bits k 2 30 == 0 && (wide || bits k 0 2 != 3)
  else if mode = 2 then k == 0#32
  else if mode = 3 then bits k 1 31 == 0
  else bits k 4 28 == 0


/-- MOD of the LD family (R159, R166): AM, SCALE and ORD. -/
def ldModOk (w : CWord) (constant : Bool) : Bool :=
  let am := w.modF 4 2
  am != 3 && (am == 2 || w.modF 2 2 == 0) && w.modF 0 2 != 3 &&
    (!constant || (am != 1 && w.modF 0 2 == 0))

/-- An ordered immediate's scope is one the space takes (R160, R166, R170); relaxed forms have none. -/
def scopeOk (ordered scratch : Bool) (imm : Word) : Bool :=
  !ordered || decide (bits imm 29 3 ≤ if scratch then 1 else 5)

/-- The signature of an opcode for one word (the descriptions of R67, R92, R124, R135, R145 to R157,
R159 to R191, R193 to R207). `n` is the register count of TY. -/
def sig (op : Nat) (w : CWord) : Sig :=
  let n := w.ty.regs
  let v (k : Nat) : Cls := if w.uni then .s 1 else .v k
  let m (lo k : Nat) : Nat := w.modF lo k
  let m0 : Bool := w.mod == 0#6
  let z : Bool := w.imm == 0#32
  let lt (k : Nat) : Bool := decide (w.imm.toNat < k)
  let b10 : Bool := w.bsel == 2#2
  let b01 : Bool := w.bsel == 1#2
  -- a source b of k registers, or the immediate in its place
  let two (d a : Cls) (b : Cls) (mod : Bool) : Sig :=
    if b10 then { d, a, mod } else { d, a, b, imm := z, mod }
  -- a source c: IMM with BSEL 00, register C with BSEL 01
  let three (d a b c : Cls) (mod : Bool) : Sig := { d, a, b, c, mod }
  let load (data : Nat) (space : Nat) : Sig :=
    { d := .v data, a := if m 4 2 = 0 then .v space else .s 1,
      b := if m 4 2 = 2 then .v 1 else .zero,
      mod := ldModOk w false, imm := scopeOk (m 0 2 != 0) (space == 1) w.imm }
  let store (data : Nat) (space : Nat) : Sig :=
    { b := .v data, a := if m 4 2 = 0 then .v space else .s 1,
      d := if m 4 2 = 2 then .v 1 else .zero,
      mod := ldModOk w false, imm := scopeOk (m 0 2 != 0) (space == 1) w.imm }
  match op with
  | 0x000 | 0x006 | 0x00C | 0x00D | 0x00F | 0x01A => { imm := z, mod := m0 }
  | 0x001 => { d := .num, imm := clauseOk w, mod := m0 }
  | 0x002 | 0x004 | 0x013 | 0x018 => { mod := m0 }
  | 0x003 | 0x005 => { a := .v 1, imm := z, mod := m0 }
  | 0x007 => { a := .s 1, mod := decide (w.mod.toNat < 2) }
  | 0x008 | 0x009 | 0x00A | 0x017 => { imm := lt 256, mod := m0 }
  | 0x00B => if b10 then { imm := [0, 4, 8, 16, 32, 64, 128].contains w.imm.toNat, mod := m0 }
      else { b := .s 1, imm := z, mod := m0 }
  | 0x00E => { imm := w.imm.toNat % 16 == 0, mod := m0 }
  | 0x010 => two .zero .zero (.s 1) (decide (w.mod.toNat < 2))
  | 0x011 => two .zero .zero (.v 1) m0
  | 0x012 => two .zero .zero (.v 2) (w.mod == if b10 then 1#6 else 0#6)
  | 0x014 => { imm := z, mod := decide (w.mod.toNat < 2) }
  | 0x015 => { d := .v n, a := .v 1, imm := selectorOk w.imm (n == 2), mod := m0 }
  | 0x016 => { a := .v 1, b := .v n, imm := selectorOk w.imm (n == 2), mod := m0 }
  | 0x019 => two .zero .zero (.s 1) m0
  | 0x01B => { a := .s 1, b := .s 1, imm := z, mod := decide (w.mod.toNat < 3) }
  | 0x01C => { d := .v n, a := .num, imm := z && (special w.a.toNat).isSome, mod := m0 }
  | 0x01D => if b10 then { d := .num, imm := (special w.d.toNat).any (·.write != .nobody), mod := m0 }
      else { d := .num, b := .v n, imm := z && (special w.d.toNat).any (·.write != .nobody), mod := m0 }
  -- group 001
  | 0x080 | 0x081 | 0x082 | 0x083 | 0x085 | 0x086 | 0x089 | 0x08A | 0x08B | 0x08E | 0x08F | 0x090
  | 0x092 => two (v n) (v n) (v n) m0
  | 0x084 => three (v n) (v n) (v n) (v n) m0
  | 0x087 | 0x088 | 0x109 =>
      if b10 then { d := v n, mod := m0 } else { d := v n, a := v n, imm := z, mod := m0 }
  | 0x08C => two .p (v n) (v n) (decide (w.mod.toNat < 6))
  | 0x08D => two (if m 3 2 = 2 then .p else v n) (v n) (v n) (m 3 2 != 3 && m 5 1 == 0)
  | 0x091 | 0x09A | 0x09B | 0x09C | 0x09D => { d := v n, a := v n, imm := z, mod := m0 }
  | 0x093 | 0x094 | 0x095 | 0x096 => two (v n) (v n) (v 1) m0
  | 0x097 => if b10 then { d := v n, a := v n } else three (v n) (v n) (v n) (v 1) m0
  | 0x098 =>
      if b10 then { d := v n, a := v n, imm := lt 65536, mod := decide (w.mod.toNat < 2) }
      else { d := v n, a := v n, b := v 1, c := v 1, imm := b01 || z, mod := decide (w.mod.toNat < 2) }
  | 0x099 =>
      if b10 then { d := v n, a := v n, e := v 1, mod := m0 }
      else { d := v n, a := v n, b := v n, c := v 1, imm := b01 || lt 65536, mod := m0 }
  | 0x09E =>
      { d := v n, a := v n, b := if b10 then .zero else v n, c := v 1,
        imm := b01 || prmtImmOk (m 0 3) (n == 2) w.imm, mod := decide (w.mod.toNat < 5) }
  | 0x09F => two (v n) (v n) (v n) (m 4 2 == 0)
  | 0x0A0 =>
      if w.uni then { d := .v n, a := .s (if n = 4 then 2 else 1), imm := z, mod := m0 }
      else { d := .v n, a := .v n, imm := z, mod := m0 }
  | 0x0A1 => { d := v n, mod := m0 }
  | 0x0A2 =>
      { d := v n, a := v n, b := v 1, c := v n, e := if m 4 1 = 1 then .s 1 else .zero,
        mod := decide (m 0 3 ≤ 4) && m 5 1 == 0 }
  | 0x0A3 => { d := .p, a := .p, b := .p, imm := lt 2048, mod := m0 }
  -- group 010
  | 0x100 | 0x101 | 0x102 | 0x104 | 0x105 | 0x10B => two (v n) (v n) (v n) m0
  | 0x103 => three (v n) (v n) (v n) (v n) m0
  | 0x106 => two .p (v n) (v n) (m 4 2 == 0 && (m 3 1 == 0 || decide (m 0 3 < 6)))
  | 0x107 => two (v n) (v n) (v n) (m 5 1 == 0 && (m 3 1 == 0 || decide (m 0 3 < 6)))
  | 0x108 =>
      if b10 then { d := .p, a := v n, imm := lt 512, mod := m0 }
      else { d := .p, a := v n, b := v 1, imm := z, mod := m0 }
  | 0x10A => two (v n) (v n) (v 1) m0
  | 0x10C | 0x10D | 0x10E =>
      { d := v n, a := v (((Ty.ofCode w.mod).map Ty.regs).getD 1), imm := z }
  | 0x10F => two (.v 1) (.v 1) (.v 1) m0
  | 0x110 | 0x111 => three (.v 1) (.v 1) (.v 1) (.v 1) m0
  -- group 011
  | 0x180 | 0x181 | 0x182 | 0x183 | 0x184 | 0x185 | 0x186 | 0x187 =>
      { d := .v 1, a := .v 1, imm := z, mod := m0 }
  | 0x188 =>
      { d := .v n, a := .v n, b := if b10 then .zero else .v 1, c := .v n,
        imm := b10 || b01 || z, mod := m 2 3 != 7 && m 5 1 == 0 }
  | 0x189 =>
      { d := if m 0 3 < 4 then .p else if m 0 3 = 6 then .v (2 ^ m 3 2) else .v 1, a := .p, imm := z,
        mod := m 0 3 != 7 && m 5 1 == 0 && (if m 0 3 = 6 then m 3 2 != 3 else m 3 2 == 0) }
  | 0x18A =>
      { d := if m 0 2 = 0 then .v (2 ^ m 3 2) else .v 1, a := .v n, imm := z,
        mod := m 0 2 != 3 && m 5 1 == 0 && (if m 0 2 = 0 then m 3 2 != 3 else m 2 3 == 0) }
  | 0x18B => { d := .v n, a := .v n, imm := z,
               mod := decide (w.mod.toNat < 6) && (!w.ty.isFloat || decide (m 0 3 < 3)) }
  | 0x18C => { d := .v n, a := .v n, imm := z,
               mod := decide (m 0 3 < 6) && m 4 2 == 0 && (!w.ty.isFloat || decide (m 0 3 < 3)) }
  | 0x190 => { d := .x, imm := z, mod := m0 }
  | 0x191 => { d := .x, a := .v 1, imm := z, mod := m0 }
  | 0x192 => { d := .x, a := .v 1, b := .v 1, imm := z, mod := m0 }
  | 0x193 => { d := .v n, a := .x, imm := z, mod := m0 }
  | 0x194 =>
      if m 0 1 = 1 then { d := .x, b := .v 2, imm := !b10 && lt 11, mod := decide (w.mod.toNat < 2) }
      else if b10 then { d := .v 2, a := .x, imm := lt 11, mod := m0 }
      else { d := .v 2, a := .x, b := .v 1, imm := z, mod := m0 }
  | 0x198 => { d := .v 1, a := .v 1, b := .t, c := .v 1, imm := b01 || bits w.imm 20 12 == 0, mod := m0 }
  | 0x199 | 0x19A => three (.v 1) (.v 1) (.v 2) (.v 1) m0
  | 0x19B => three (.v 1) (.v 2) (.v 1) (.v 1) m0
  -- group 100
  | 0x200 => load n 2
  | 0x201 => store n 2
  | 0x202 | 0x204 => load n 1
  | 0x203 | 0x205 => store n 1
  | 0x206 =>
      { d := .v n, a := .s 1, b := if m 4 2 = 2 then .v 1 else .zero, mod := ldModOk w true }
  | 0x207 | 0x208 =>
      { d := .v n, a := .v (if op = 0x207 then 2 else 1), b := .v n,
        e := if m 0 3 = 7 then .v n else .zero,
        imm := scopeOk (m 3 3 != 0) (op == 0x208) w.imm, mod := decide (m 3 3 ≤ 4) }
  | 0x209 =>
      { a := .v 2, b := .v n, imm := scopeOk (m 3 3 != 0) false w.imm,
        mod := decide (m 0 3 < 6) && (m 3 3 == 0 || m 3 3 == 2) }
  | 0x20A =>
      { a := .v 2, b := .v (if m 0 3 = 0 then n else 2 * n), imm := scopeOk (m 3 3 != 0) false w.imm,
        mod := decide (m 0 3 < 3) && (m 3 3 == 0 || m 3 3 == 2) }
  | 0x20B => { imm := z, mod := decide (1 ≤ m 0 3 ∧ m 0 3 ≤ 4 ∧ m 3 3 ≤ 5) }
  | 0x20C => { d := .p, a := .v 2, b := .v n, mod := decide (m 1 3 ≤ 5) && m 4 2 == 0 }
  | 0x20D => { a := .v 2, mod := decide (w.mod.toNat < 4) }
  | 0x20E => { a := .v 2, mod := decide (w.mod.toNat < 2) }
  | 0x20F => { a := .v 2, b := .v 1, mod := decide (1 ≤ m 1 3 ∧ m 1 3 ≤ 3) && m 0 1 == 0 && m 4 2 == 0 }
  | 0x210 => { a := .v 2, mod := decide (1 ≤ m 1 3 ∧ m 1 3 ≤ 3) && m 4 2 == 0 }
  -- group 101
  | 0x280 => { d := .v 2, a := .v 4, b := .v 4, imm := z, mod := m 3 2 != 3 && m 5 1 == 0 }
  | 0x281 => { imm := lt 256, mod := decide (w.mod.toNat < 2) }
  | 0x282 => { d := .v n, a := .s 1, b := .v 2, imm := z, mod := m0 }
  | 0x283 => { a := .v 2, b := .v 2, imm := lt 8, mod := decide (m 1 3 ≤ 5) && m 4 2 == 0 }
  | 0x284 => { d := .v 2, a := .v 2, imm := z, mod := decide (m 1 3 ≤ 5) && m 4 2 == 0 }
  | 0x285 => { d := .v 2, a := .v 2, imm := lt 8, mod := decide (m 1 3 ≤ 5) && m 4 2 == 0 }
  | 0x286 => { a := .v 2, b := .v 1, imm := lt 8, mod := decide (m 1 3 ≤ 5) && m 4 2 == 0 && m 0 1 == 0 }
  | 0x287 => { a := .v 2, b := .v 1, imm := lt 8, mod := decide (m 1 3 ≤ 5) && m 4 2 == 0 }
  | 0x288 => { a := .v 2, b := .v 2, imm := lt 8, mod := m0 }
  | 0x289 => two .zero (.s 1) (.s 1) m0
  | 0x28A => two (.v 1) (.s 1) (.v 1) (decide (w.mod.toNat < 6))
  | 0x28B => two .zero (.s 1) (.v 1) (decide (w.mod.toNat < 6))
  | 0x28C => if b10 then { imm := !z, mod := m0 } else { imm := z, mod := m0 }
  -- group 110
  | 0x300 | 0x301 =>
      if b01 then { d := .s 1, a := .v 4, b := .s 1, c := .s 1,
                    e := if sideBytes (op == 0x301) w.ty = 0 then .zero else .s 1 }
      else { d := .s 1, a := .v 4, b := .t, imm := z }
  | 0x302 | 0x303 => { d := .t, a := .s 1, b := .s 1, mod := m0 }
  | 0x304 => two (.s 1) .zero (.s 1) (m 0 1 == 0)
  | 0x305 | 0x306 => { d := .s 1, a := .v 2, b := .v 1, mod := m 0 1 == 0 }
  | 0x307 => { d := .v 4, a := .s 1, b := .v 1, imm := lt 16, mod := m 0 1 == 0 }
  | 0x308 => { d := .s 1, a := .v 4, b := .v 1, imm := lt 16, mod := m 0 1 == 0 }
  | 0x309 => { d := .v (if w.ty = .e2m1x8 then 2 else 4), a := .s 1, b := .v 1, imm := lt 8, mod := m 0 1 == 0 }
  | 0x30A =>
      { d := .v 1, a := .v (if w.ty = .f32 then 8 else 4), b := .v (if w.ty = .f32 then 8 else 4),
        c := .v 1, imm := b01 || lt 9, mod := m0 }
  | 0x30B =>
      { d := .v (if w.ty.isFloat then 2 else 1),
        a := .v (if w.ty.isFloat then 4 else if w.ty = .e2m1x8 then 1 else 2), b := .v 1,
        imm := z, mod := m0 }
  | 0x30C | 0x30D | 0x30E =>
      { d := .v n, a := .v n, b := if m 1 1 = 1 then .v 1 else .zero, c := .v 1,
        e := if m 1 1 = 1 then .v 1 else .zero, imm := b01 || z,
        mod := m 2 4 == 0 && (op != 0x30C || m 0 1 == 0) }
  | _ => {}

/-! ## The four checks of R54 -/

/-- Extension fields not accepted are zero, ROUND is not 7, bits [13:0] are zero (R52). The E field of
an accepting opcode is judged by its class. -/
def extOk (r : Row) (w : CWord) : Bool :=
  bits w.ext 0 14 == 0 && w.round != 7 &&
    ((r.ext.contains .m && !w.uni) || (bits w.ext 28 4 == 0 && !w.zeroing)) &&
    (r.ext.contains .r || w.round == 0) && (r.ext.contains .e || w.e == 0) &&
    (r.ext.contains .z || !w.ftz) && (r.ext.contains .s || !w.sat)

/-- Check 4 (R54, R84, R85, R170, R172): TY, and the type codes in MOD of the conversions. -/
def typeOk (r : Row) (w : CWord) : Bool :=
  r.tys.contains w.ty &&
    (if r.op = 0x10C ∨ r.op = 0x10D ∨ r.op = 0x10E then
      match Ty.ofCode w.mod with
      | some t => (convSource r.op).contains t
      | none => false
    else if r.op = 0x207 ∨ r.op = 0x208 ∨ r.op = 0x209 then
      let op := w.modF 0 3
      if op < 3 then [Ty.i32, .i64, .n32, .n64, .f32, .f64, .f16x2, .bf16x2].contains w.ty
      else if op = 6 then true else tyB.contains w.ty
    else if r.op = 0x20A then
      if w.modF 0 3 = 1 then [Ty.f32, .f64, .f16x2, .bf16x2].contains w.ty
      else [Ty.i32, .i64, .n32, .n64, .f32, .f64, .f16x2, .bf16x2].contains w.ty
    else true)

/-- Check 3, for the signature `s` of the word: BSEL accepted, reserved and unused bits zero, operand
codes valid (R35, R36, R50, R51, R54). -/
def fieldsOkFor (r : Row) (w : CWord) (s : Sig) : Bool :=
  r.bsels.contains w.bsel && !w.hint.getLsbD 0 && extOk r w &&
    (w.bsel != 1#2 || (bits w.imm 8 24 == 0 && s.c.codeOk w.c)) &&
    s.d.codeOk w.d.toNat && s.a.codeOk w.a.toNat && s.b.codeOk w.b.toNat && s.e.codeOk w.e &&
    s.imm && s.mod

/-- The narrower of two classes of one kind: what is checked of a field whose width depends on TY. -/
def Cls.meet (j k : Cls) : Cls :=
  match j, k with
  | .v a, .v b => .v (min a b)
  | .s a, .s b => .s (min a b)
  | _, _ => j

/-- Each operand as wide as it is under both of two types. -/
def Sig.meet (x y : Sig) : Sig :=
  { x with d := x.d.meet y.d, a := x.a.meet y.a, b := x.b.meet y.b, c := x.c.meet y.c, e := x.e.meet y.e }

/-- The types for which the parts of check 3 that do not depend on TY are tried, when check 4 fails: TY itself
where only a conversion's source code fails it. -/
def trialTypes (r : Row) (w : CWord) : List Ty :=
  if (r.op = 0x10C ∨ r.op = 0x10D ∨ r.op = 0x10E) ∧ r.tys.contains w.ty then [w.ty] else r.tys

/-- The word with a type that the opcode accepts, and a conversion source that it accepts. -/
def trialWord (r : Row) (w : CWord) (t : Ty) : CWord :=
  if (r.op = 0x10C ∨ r.op = 0x10D ∨ r.op = 0x10E) ∧ !(Ty.ofCode w.mod).any (convSource r.op).contains then
    { w with ty := t, mod := if r.op = 0x10E then 0x0B#6 else 0x1A#6 }
  else { w with ty := t }

/-- Check 3 when TY passes check 4. When it does not, the parts of check 3 that depend on TY are not
made (R54): an operand is checked as wide as it is under every type that the opcode accepts, and the word
passes if it passes for some of them. -/
def fieldsOk (r : Row) (w : CWord) : Bool :=
  if typeOk r w then fieldsOkFor r w (sig r.op w)
  else
    let tys := trialTypes r w
    let all (s : Sig) : Sig := tys.foldl (fun s t => s.meet (sig r.op (trialWord r w t))) s
    tys.any fun t => fieldsOkFor r (trialWord r w t) (all (sig r.op (trialWord r w t)))

/-- The trap of an entry, by the checks of R54 in their order; `ty` is none for a reserved TY code.
CLAUSE's own list of zero fields holds TY, so a non-zero TY there fails check 3 (R67; log 20). -/
def checkEntry (op : Nat) (uni : Bool) (ty : Option Ty) (w : CWord) : Option Cause :=
  match row op with
  | none => some .illegalOp
  | some r =>
    if uni && !r.uni then some .illegalOp
    else if w.g = 15#4 then some .illegalGuard
    else match ty with
      | some _ =>
        if op = 0x001 ∧ w.ty ≠ .untyped then some .reservedField
        else if !fieldsOk r w then some .reservedField
        else if !typeOk r w then some .illegalType
        else none
      | none =>
        if op = 0x001 then some .reservedField
        else if !fieldsOk r { w with ty := .b128 } && !fieldsOk r { w with ty := .i4 } then some .reservedField
        else some .illegalType

/-- The clause-ending instructions of R70. -/
def clauseEnding (op : Nat) (w : CWord) : Bool :=
  (decide (0x001 ≤ op ∧ op ≤ 0x007)) || op == 0x009 || op == 0x00A || op == 0x00B || op == 0x00C ||
    op == 0x00E || op == 0x00F || op == 0x011 || op == 0x012 || op == 0x013 || op == 0x014 ||
    op == 0x017 || op == 0x018 || op == 0x20C || op == 0x20F || op == 0x284 ||
    (op == 0x287 && !w.mod.getLsbD 0) || op == 0x288 || op == 0x28B || op == 0x28C

/-- The long-latency producers of R47. -/
def longLatency (op : Nat) (w : CWord) : Bool :=
  op == 0x085 || op == 0x086 || op == 0x10B || (decide (0x180 ≤ op ∧ op ≤ 0x188)) || op == 0x18A ||
    op == 0x18B || op == 0x18C || op == 0x193 || op == 0x194 || op == 0x307 ||
    (decide (0x200 ≤ op ∧ op ≤ 0x28C)) ||
    (op == 0x01C && (w.a == 0x23#8 || w.a == 0x2B#8 || w.a == 0x2C#8))

/-- The instructions that take ILLEGAL_OP in trap mode (R375). -/
def handlerForbids (op : Nat) (w : CWord) : Bool :=
  op == 0x00C || op == 0x00D || op == 0x00E || op == 0x00F || op == 0x00B || op == 0x008 ||
    op == 0x009 || op == 0x00A || op == 0x28C || op == 0x28B || op == 0x20C || op == 0x20F ||
    op == 0x288 || op == 0x284 || (op == 0x287 && !w.mod.getLsbD 0)

/-- The reel weight of one thread (R86, R88): doubled for f64 in groups 010 and 011. -/
def weight (op : Nat) (w : CWord) : Nat :=
  match row op with
  | none => 0
  | some r => if w.ty = .f64 ∧ 0x100 ≤ op ∧ op < 0x200 then 2 * r.weight else r.weight

end Sys2Proof
end

