-- ==== Sys2Proof/Machine/Float.lean ====
section
/-! DEFINITION. Numbers: the floating formats (R10 to R13), rounding (R18 to R24), conversions (R26),
and the special functions (R145). A value of a format is its code, a natural number. -/

namespace Sys2Proof.Machine

/-- The formats of R11, E8M0 apart. -/
inductive Fmt where
  | f64 | f32 | f16 | bf16 | e5m2 | e4m3 | e3m2 | e2m3 | e2m1
  deriving DecidableEq, Repr

namespace Fmt

/-- Mantissa bits (R11). -/
def man : Fmt → Nat
  | f64 => 52 | f32 => 23 | f16 => 10 | bf16 => 7 | e5m2 => 2 | e4m3 => 3 | e3m2 => 2 | e2m3 => 3 | e2m1 => 1

/-- Exponent bits (R11). -/
def exp : Fmt → Nat
  | f64 => 11 | f32 => 8 | f16 => 5 | bf16 => 8 | e5m2 => 5 | e4m3 => 4 | e3m2 => 3 | e2m3 => 2 | e2m1 => 2

def bias : Fmt → Nat
  | f64 => 1023 | f32 => 127 | f16 => 15 | bf16 => 127 | e5m2 => 15 | e4m3 => 7 | e3m2 => 3 | e2m3 => 1 | e2m1 => 1

/-- Width of a code. -/
def width (f : Fmt) : Nat := 1 + f.exp + f.man

/-- Formats with infinities, and a NaN beside each infinity (R11). -/
def hasInf : Fmt → Bool
  | f64 | f32 | f16 | bf16 | e5m2 => true
  | _ => false

def hasNan (f : Fmt) : Bool := f.hasInf || f == e4m3

/-- The code of +∞, where the format has it. -/
def infCode (f : Fmt) : Nat := (2 ^ f.exp - 1) * 2 ^ f.man

/-- The code of the largest finite magnitude (R11). -/
def maxCode (f : Fmt) : Nat :=
  if f.hasInf then f.infCode - 1 else if f = e4m3 then 0x7E else 2 ^ (f.exp + f.man) - 1

/-- The canonical NaN (R12); +0 for the formats without a NaN (R26). -/
def nanCode : Fmt → Nat
  | f64 => 0x7FF8000000000000 | f32 => 0x7FC00000 | f16 => 0x7E00 | bf16 => 0x7FC0 | e5m2 => 0x7E
  | e4m3 => 0x7F | _ => 0

/-- The exponent of the smallest normal value, EMin (R21). -/
def emin (f : Fmt) : Int := 1 - f.bias

def signBit (f : Fmt) : Nat := 2 ^ (f.exp + f.man)

/-- The code of 1.0. -/
def one (f : Fmt) : Nat := f.bias * 2 ^ f.man

end Fmt

/-- The float format of a type; none for the others. -/
def fmtOf : Ty → Option Fmt
  | .f64 => some .f64 | .f32 => some .f32 | .f16 | .f16x2 => some .f16
  | .bf16 | .bf16x2 => some .bf16
  | .e5m2 | .e5m2x8 => some .e5m2 | .e4m3 | .e4m3x8 => some .e4m3 | .e3m2 | .e3m2x8 => some .e3m2
  | .e2m3 | .e2m3x8 => some .e2m3 | .e2m1 | .e2m1x8 => some .e2m1
  | _ => none

def fmt (t : Ty) : Fmt := (fmtOf t).getD .f32

/-- A value: NaN, an infinity, or ± n / d × 2^e exactly; n = 0 is a signed zero. -/
inductive Fp where
  | nan
  | inf (neg : Bool)
  | fin (neg : Bool) (n : Nat) (d : Nat) (e : Int)
  deriving DecidableEq, Repr

namespace Fp

def zero (neg : Bool) : Fp := .fin neg 0 1 0

def isNan : Fp → Bool
  | .nan => true
  | _ => false

/-- Whether the value is a zero of either sign. -/
def isZero : Fp → Bool
  | .fin _ n _ _ => n == 0
  | _ => false

def sign : Fp → Bool
  | .nan => false
  | .inf s => s
  | .fin s _ _ _ => s

def neg : Fp → Fp
  | .nan => .nan
  | .inf s => .inf (!s)
  | .fin s n d e => .fin (!s) n d e

/-- The exact product (R29, R34, R136): ∞ × 0 is NaN. -/
def mul : Fp → Fp → Fp
  | .nan, _ | _, .nan => .nan
  | .inf s, b => if b.isZero then .nan else .inf (s ^^ b.sign)
  | a, .inf s => if a.isZero then .nan else .inf (a.sign ^^ s)
  | .fin s n d e, .fin s' n' d' e' => .fin (s ^^ s') (n * n') (d * d') (e + e')

/-- The exact quotient (R141). -/
def div : Fp → Fp → Fp
  | .nan, _ | _, .nan => .nan
  | .inf _, .inf _ => .nan
  | .inf s, b => .inf (s ^^ b.sign)
  | a, .inf s => zero (a.sign ^^ s)
  | .fin s n d e, .fin s' n' d' e' =>
    if n' = 0 then (if n = 0 then .nan else .inf (s ^^ s'))
    else .fin (s ^^ s') (n * d') (d * n') (e - e')

/-- An integer as a value; zero is +0. -/
def ofInt (x : Int) : Fp := .fin (decide (x < 0)) x.natAbs 1 0

/-- The value times a power of two. -/
def scale (x : Fp) (k : Int) : Fp :=
  match x with
  | .fin s n d e => .fin s n d (e + k)
  | x => x

/-- The exact sum of two finite values, ± n / d × 2^e each, as a signed numerator over d × d' at the
lower exponent. -/
def addFin (a b : Bool × Nat × Nat × Int) : Int × Nat × Int :=
  let (s, n, d, e) := a
  let (s', n', d', e') := b
  let m := min e e'
  let x : Int := (n * d' * 2 ^ (e - m).toNat : Nat)
  let y : Int := (n' * d * 2 ^ (e' - m).toNat : Nat)
  ((if s then -x else x) + (if s' then -y else y), d * d', m)

/-- The exact sum, its zero signed by R13: `rd` says whether the mode is RD. -/
def add (a b : Fp) (rd : Bool) : Fp :=
  match a, b with
  | .nan, _ | _, .nan => .nan
  | .inf s, .inf s' => if s = s' then .inf s else .nan
  | .inf s, _ | _, .inf s => .inf s
  | .fin s n d e, .fin s' n' d' e' =>
    let (x, k, m) := addFin (s, n, d, e) (s', n', d', e')
    if x = 0 then zero (if n = 0 ∧ n' = 0 ∧ s = s' then s else rd)
    else .fin (decide (x < 0)) x.natAbs k m

/-- The magnitudes of two finite values compared, n / d × 2^e. -/
def cmpFin (n d : Nat) (e : Int) (n' d' : Nat) (e' : Int) : Ordering :=
  let m := min e e'
  compare (n * d' * 2 ^ (e - m).toNat) (n' * d * 2 ^ (e' - m).toNat)

/-- The IEEE order of two values that are no NaN; −0 equals +0. -/
def cmp : Fp → Fp → Ordering
  | .inf s, .inf s' => if s = s' then .eq else if s then .lt else .gt
  | .inf s, _ => if s then .lt else .gt
  | _, .inf s => if s then .gt else .lt
  | .fin s n d e, .fin s' n' d' e' =>
    if n = 0 ∧ n' = 0 then .eq
    else if n = 0 then (if s' then .gt else .lt)
    else if n' = 0 then (if s then .lt else .gt)
    else match s, s' with
      | false, true => .gt
      | true, false => .lt
      | false, false => cmpFin n d e n' d' e'
      | true, true => cmpFin n' d' e' n d e
  | _, _ => .eq

end Fp

/-- The exact sum of several values (R33, R34, R144); the empty sum is +0. -/
def sumFp (rd : Bool) (xs : List Fp) : Fp :=
  match xs with
  | [] => Fp.zero false
  | x :: xs => xs.foldl (fun acc y => acc.add y rd) x

/-! ## Codes -/

/-- The value of a code (R10, R11). -/
def Fmt.decode (f : Fmt) (code : Nat) : Fp :=
  let s := code / f.signBit % 2 == 1
  let mag := code % f.signBit
  if f.hasInf ∧ mag = f.infCode then .inf s
  else if (f.hasInf ∧ mag > f.infCode) ∨ (f = .e4m3 ∧ mag = 0x7F) then .nan
  else
    let ef := mag / 2 ^ f.man
    let m := mag % 2 ^ f.man
    if ef = 0 then .fin s m 1 (f.emin - f.man)
    else .fin s (2 ^ f.man + m) 1 (f.emin - f.man + (ef - 1 : Nat))

/-- A subnormal code (R22). -/
def Fmt.subnormal (f : Fmt) (code : Nat) : Bool :=
  let mag := code % f.signBit
  decide (0 < mag ∧ mag < 2 ^ f.man)

def Fmt.signed (f : Fmt) (s : Bool) (mag : Nat) : Nat := if s then f.signBit + mag else mag

/-! ## Rounding -/

/-- The rounding modes of R18. -/
inductive Mode where
  | rn | rz | ru | rd | rna | sr
  deriving DecidableEq, Repr

/-- A mode's code (R18); none for 0 and 7. -/
def Mode.ofCode : Nat → Option Mode
  | 1 => some .rn | 2 => some .rz | 3 => some .ru | 4 => some .rd | 5 => some .rna | 6 => some .sr
  | _ => none

/-- Whether rounding takes the upper of two neighbours (R18, R21): `k` is the lower in units of the
spacing, `rem / den` how far x lies above it, `sr` the draw. -/
def roundUp (mode : Mode) (neg : Bool) (k rem den sr : Nat) : Bool :=
  if rem = 0 then false
  else match mode with
    | .rn => decide (den < 2 * rem) || (decide (2 * rem = den) && k % 2 == 1)
    | .rna => decide (den ≤ 2 * rem)
    | .rz => false
    | .ru => !neg
    | .rd => neg
    | .sr => decide (sr < rem * 65536 / den)

/-- floor(n / d × 2^s) and the remainder over the denominator. -/
def scaledDiv (n d : Nat) (s : Int) : Nat × Nat × Nat :=
  let num := n * 2 ^ s.toNat
  let den := d * 2 ^ (-s).toNat
  (num / den, num % den, den)

/-- floor(log2(n / d)), for n and d not zero. -/
def floorLog2 (n d : Nat) : Int :=
  let k : Int := (n.log2 : Int) - (d.log2 : Int)
  if d * 2 ^ k.toNat ≤ n * 2 ^ (-k).toNat then k else k - 1

/-- The result of an overflow (R23), as a magnitude code. -/
def overflowCode (f : Fmt) (mode : Mode) (neg : Bool) : Nat :=
  if !f.hasInf then f.maxCode
  else match mode with
    | .rn | .rna | .sr => f.infCode
    | .rz => f.maxCode
    | .ru => if neg then f.maxCode else f.infCode
    | .rd => if neg then f.infCode else f.maxCode

/-- RoundTo of R21 for the nonzero value ± n / d × 2^e, with one draw of SrBits for the mode SR. The
code of a rounded magnitude k × 2^(x − M) is (x − EMin) × 2^M + k. -/
def roundTo (f : Fmt) (mode : Mode) (sr : Nat) (neg : Bool) (n d : Nat) (e : Int) : Nat :=
  let x := max (floorLog2 n d + e) f.emin
  let (k, rem, den) := scaledDiv n d (e - x + f.man)
  let k := if roundUp mode neg k rem den sr then k + 1 else k
  let mag := (x - f.emin).toNat * 2 ^ f.man + k
  f.signed neg (if mag > f.maxCode then overflowCode f mode neg else mag)

/-- The integer RoundToInt chooses (R21), its sign as given. -/
def roundInt (mode : Mode) (sr : Nat) (neg : Bool) (n d : Nat) (e : Int) : Int :=
  let (k, rem, den) := scaledDiv n d e
  let k := if roundUp mode neg k rem den sr then k + 1 else k
  if neg then -(k : Int) else k

/-- SAT on a float code (R24). -/
def satCode (f : Fmt) (sat : Bool) (code : Nat) : Nat :=
  if sat ∧ f.hasInf ∧ code % f.signBit = f.infCode then code - 1 else code

/-- Flushing of a result (R22). -/
def flushResult (f : Fmt) (ftz : Bool) (code : Nat) : Nat :=
  if ftz ∧ f.subnormal code then code - code % f.signBit else code

/-- FinishFloat (R136) without the draw, which `sr` is. -/
def finishFloat (f : Fmt) (mode : Mode) (sr : Nat) (ftz sat : Bool) (x : Fp) : Nat :=
  let r := match x with
    | .nan => f.nanCode
    | .inf s => if f.hasInf then f.signed s f.infCode else f.signed s f.maxCode
    | .fin s n d e => if n = 0 then f.signed s 0 else roundTo f mode sr s n d e
  satCode f sat (flushResult f ftz r)

/-- Whether flushing can apply to a format (R22). -/
def Fmt.flushable : Fmt → Bool
  | .f32 | .f16 | .bf16 => true
  | _ => false

/-- A source read with the input flushing of R22. -/
def readFloat (f : Fmt) (ftz : Bool) (code : Nat) : Fp :=
  if ftz ∧ f.flushable ∧ f.subnormal code then .zero (code / f.signBit % 2 == 1)
  else f.decode (code % 2 ^ f.width)

/-- The next generator state and the 16 bits drawn (SrBits, R25). -/
def srBits (seed : Word) : Word × Nat :=
  let s := seed ^^^ (seed <<< 13)
  let s := s ^^^ (s >>> 17)
  let s := s ^^^ (s <<< 5)
  (s, bits s 16 16)

/-- One draw under SR, none in another mode (R25). -/
def draw (mode : Mode) (seed : Word) : Word × Nat :=
  if mode = .sr then srBits seed else (seed, 0)

/-! ## Integers -/

/-- Bits read as a signed value of w bits (R14). -/
def toSigned (w x : Nat) : Int := if x / 2 ^ (w - 1) % 2 = 1 then (x % 2 ^ w : Nat) - (2 ^ w : Nat) else (x % 2 ^ w : Nat)

/-- The value of a code of a type: signed for the i types, natural for the others (R14). -/
def valOf (t : Ty) (x : Nat) : Int := if t.signed then toSigned t.bits x else (x % 2 ^ t.bits : Nat)

/-- An integer modulo 2^w. -/
def wrap (w : Nat) (x : Int) : Nat := (x % (2 ^ w : Nat)).toNat

def typeMin (t : Ty) : Int := if t.signed then -(2 ^ (t.bits - 1) : Nat) else 0
def typeMax (t : Ty) : Int := if t.signed then (2 ^ (t.bits - 1) : Nat) - 1 else (2 ^ t.bits : Nat) - 1

def clampTo (t : Ty) (x : Int) : Int := max (typeMin t) (min (typeMax t) x)

/-- R15: modulo 2^W, or clamped with SAT. -/
def narrow (t : Ty) (sat : Bool) (x : Int) : Nat := wrap t.bits (if sat then clampTo t x else x)

/-- An integer result in a 32-bit register: I8 and I16 sign-extended, N8 and N16 zero-extended (R121). -/
def placeInt (t : Ty) (x : Int) : Nat := wrap (max 32 t.bits) (valOf t (wrap t.bits x))

/-! ## Conversions (R26) -/

/-- Conversion of a float value to a float format, with its draw. -/
def cvtFloat (f : Fmt) (mode : Mode) (sr : Nat) (ftz sat : Bool) (x : Fp) : Nat :=
  finishFloat f mode sr ftz sat x

/-- Conversion of a float value to an integer type: clamped always. -/
def cvtToInt (t : Ty) (mode : Mode) (sr : Nat) (x : Fp) : Int :=
  match x with
  | .nan => 0
  | .inf s => if s then typeMin t else typeMax t
  | .fin s n d e => clampTo t (roundInt mode sr s n d e)

/-- The conversions that R26 lists as exact, which consult no mode and draw nothing. -/
def exactCvt (src dst : Fmt) : Bool :=
  match src, dst with
  | .e5m2, .f16 | .e5m2, .bf16 | .e5m2, .f32 | .e5m2, .f64 | .e4m3, .f16 | .e4m3, .bf16 | .e4m3, .f32
  | .e4m3, .f64 | .e3m2, .f16 | .e3m2, .bf16 | .e3m2, .f32 | .e3m2, .f64 | .e2m3, .f16 | .e2m3, .bf16
  | .e2m3, .f32 | .e2m3, .f64 | .e2m1, .f16 | .e2m1, .bf16 | .e2m1, .f32 | .e2m1, .f64 | .f16, .f32
  | .f16, .f64 | .bf16, .f32 | .bf16, .f64 | .f32, .f64 => true
  | _, _ => false

/-! ## Special functions (R145)

Each is enclosed between two fixed-point numbers of W fraction bits. The rounding of the two ends to
the format in RN is the same code, and so the correctly rounded value, or W is doubled. No value is
a tie between two codes: the exact cases are taken apart before (log 9). -/

/-- The integer square root by Newton's steps. -/
def isqrtFrom : Nat → Nat → Nat → Nat
  | 0, _, x => x
  | k + 1, n, x => let y := (x + n / x) / 2; if y < x then isqrtFrom k n y else x

def isqrt (n : Nat) : Nat := if n = 0 then 0 else isqrtFrom (2 * n.log2 + 8) n (2 ^ (n.log2 / 2 + 1))

/-- A product of two fixed-point numbers, rounded down. -/
def fxMul (w : Nat) (a b : Int) : Int := a * b / (2 ^ w : Nat)

/-- Σ z^(2i+1) / (2i+1) with alternating signs or not: the series of arctan and artanh. -/
def fxOdd (w : Nat) (alt : Bool) (z2 : Int) : Nat → Nat → Int → Int → Int
  | 0, _, _, acc => acc
  | k + 1, i, p, acc =>
    if p = 0 then acc
    else fxOdd w alt z2 k (i + 1) (fxMul w p z2)
      (if alt ∧ i % 2 = 1 then acc - p / (2 * i + 1 : Nat) else acc + p / (2 * i + 1 : Nat))

/-- artanh(z), and arctan(z), for |z| ≤ 1/2. -/
def fxArtanh (w : Nat) (z : Int) : Int := fxOdd w false (fxMul w z z) w 0 z 0
def fxArctan (w : Nat) (z : Int) : Int := fxOdd w true (fxMul w z z) w 0 z 0

/-- ln 2 = 2 artanh(1/3); π = 16 arctan(1/5) − 4 arctan(1/239). -/
def fxLn2 (w : Nat) : Int := 2 * fxArtanh w ((2 ^ w / 3 : Nat) : Int)
def fxPi (w : Nat) : Int :=
  16 * fxArctan w ((2 ^ w / 5 : Nat) : Int) - 4 * fxArctan w ((2 ^ w / 239 : Nat) : Int)

/-- Σ x^i / i!, the exponential, for |x| ≤ 1. -/
def fxExpFrom (w : Nat) (x : Int) : Nat → Nat → Int → Int → Int
  | 0, _, _, acc => acc
  | k + 1, i, p, acc =>
    if p = 0 ∨ p = -1 then acc else fxExpFrom w x k (i + 1) (fxMul w p x / (i + 1 : Nat)) (acc + p)

def fxExp (w : Nat) (x : Int) : Int := fxExpFrom w x w 0 (2 ^ w : Nat) 0

/-- The series of sine (from i = 1) and cosine (from i = 0): terms x^i / i! of alternating sign. -/
def fxCircFrom (w : Nat) (x2 : Int) : Nat → Nat → Int → Int → Int
  | 0, _, _, acc => acc
  | k + 1, i, p, acc =>
    if p = 0 ∨ p = -1 then acc
    else fxCircFrom w x2 k (i + 2) (-(fxMul w p x2) / ((i + 1) * (i + 2) : Nat)) (acc + p)

def fxSin (w : Nat) (x : Int) : Int := fxCircFrom w (fxMul w x x) w 1 x 0
def fxCos (w : Nat) (x : Int) : Int := fxCircFrom w (fxMul w x x) w 0 (2 ^ w : Nat) 0

/-- n × 2^e in fixed point, rounded down. -/
def fxOf (w : Nat) (n : Int) (e : Int) : Int :=
  n * (2 ^ (e + w).toNat : Nat) / (2 ^ (-(e + w)).toNat : Nat)

/-- The special functions of R145. -/
inductive Fn where
  | rcp | rsq | sqrt | exp2 | log2 | sin | cos | tanh
  deriving DecidableEq, Repr

/-- sin or cos of n × 2^e: reduced by the nearest multiple of π/2. -/
def fxCirc (w : Nat) (cosine : Bool) (n : Int) (e : Int) : Int :=
  let v := w + 160
  let half := fxPi v / 2
  let x := fxOf v n e
  let q := (2 * x + half) / (2 * half)
  let r := (x - q * half) / (2 ^ 160 : Nat)
  let k := ((q + if cosine then 1 else 0) % 4).toNat
  match k with
  | 0 => fxSin w r
  | 1 => fxCos w r
  | 2 => -(fxSin w r)
  | _ => -(fxCos w r)

/-- The function's value at ± n × 2^e in fixed point of w bits, times a power of two 2^k: (value, k).
The error is below 2^(24 − w). -/
def fxValue (g : Fn) (w : Nat) (neg : Bool) (n : Nat) (e : Int) : Int × Int :=
  let x : Int := if neg then -(n : Int) else n
  match g with
  | .sin => (fxCirc w false x e, 0)
  | .cos => (fxCirc w true x e, 0)
  | .exp2 =>
    let fx := fxOf w x e
    let k := fx / (2 ^ w : Nat)
    (fxExp w (fxMul w (fx - k * (2 ^ w : Nat)) (fxLn2 w)), k)
  | .log2 =>
    let k := (n.log2 : Int) + e
    let m := fxOf w n (e - k)
    let z := (m - (2 ^ w : Nat)) * (2 ^ w : Nat) / (m + (2 ^ w : Nat))
    (k * (2 ^ w : Nat) + 2 * fxArtanh w z * (2 ^ w : Nat) / fxLn2 w, 0)
  | .tanh =>
    -- e^(-2|x|) = 2^(-2|x| / ln 2)
    let y := (-2 * fxOf w n e) * (2 ^ w : Nat) / fxLn2 w
    let k := y / (2 ^ w : Nat)
    let t := fxExp w (fxMul w (y - k * (2 ^ w : Nat)) (fxLn2 w)) / (2 ^ (-k).toNat : Nat)
    let v := ((2 ^ w : Nat) - t) * (2 ^ w : Nat) / ((2 ^ w : Nat) + t)
    (if neg then -v else v, 0)
  | _ => (0, 0)

/-- A fixed-point number rounded to a format in RN. -/
def fxRound (f : Fmt) (v k : Int) (w : Nat) : Nat :=
  if v = 0 then 0 else roundTo f .rn 0 (decide (v < 0)) v.natAbs 1 (k - w)

/-- The code both ends of an enclosure round to; else the precision doubles. -/
def fxCode (f : Fmt) (g : Fn) (neg : Bool) (n : Nat) (e : Int) : Nat → Nat → Nat
  | 0, w => let (v, k) := fxValue g w neg n e; fxRound f v k w
  | fuel + 1, w =>
    let (v, k) := fxValue g w neg n e
    let lo := fxRound f (v - 2 ^ 24) k w
    let hi := fxRound f (v + 2 ^ 24) k w
    if lo = hi then lo else fxCode f g neg n e fuel (2 * w)

/-- Code of the correctly rounded f(a), in RN (R145); the operand is already flushed. -/
def specialFn (f : Fmt) (g : Fn) (x : Fp) : Nat :=
  let one := f.one
  match g, x with
  | _, .nan => f.nanCode
  | .rcp, .inf s => f.signed s 0
  | .rsq, .inf s => if s then f.nanCode else 0
  | .sqrt, .inf s => if s then f.nanCode else f.infCode
  | .exp2, .inf s => if s then 0 else f.infCode
  | .log2, .inf s => if s then f.nanCode else f.infCode
  | .sin, .inf _ | .cos, .inf _ => f.nanCode
  | .tanh, .inf s => f.signed s one
  | .rcp, .fin s n d e =>
    if n = 0 then f.signed s f.infCode else roundTo f .rn 0 s d n (-e)
  | .rsq, .fin s n _ e =>
    if n = 0 then f.signed s f.infCode
    else if s then f.nanCode
    else
      let (n, e) := if e % 2 = 0 then (n, e) else (2 * n, e - 1)
      let r := isqrt (2 ^ 400 / n)
      if r * r * n = 2 ^ 400 then roundTo f .rn 0 false r 1 (-200 - e / 2)
      else roundTo f .rn 0 false (2 * r + 1) 1 (-201 - e / 2)
  | .sqrt, .fin s n _ e =>
    if n = 0 then f.signed s 0
    else if s then f.nanCode
    else
      let (n, e) := if e % 2 = 0 then (n, e) else (2 * n, e - 1)
      let r := isqrt (n * 2 ^ 128)
      if r * r = n * 2 ^ 128 then roundTo f .rn 0 false r 1 (e / 2 - 64)
      else roundTo f .rn 0 false (2 * r + 1) 1 (e / 2 - 65)
  | .exp2, .fin s n _ e =>
    if n = 0 then one
    else
      -- beyond ±1,024 every format has overflowed or underflowed
      let big := decide (10 ≤ (n.log2 : Int) + e)
      if big then (if s then 0 else f.infCode)
      else if scaledDiv n 1 e |>.2.1 == 0 then
        roundTo f .rn 0 false 1 1 (if s then -((scaledDiv n 1 e).1 : Int) else (scaledDiv n 1 e).1)
      else fxCode f g s n e 4 512
  | .log2, .fin s n _ e =>
    if n = 0 then f.signed true f.infCode
    else if s then f.nanCode
    else if n = 2 ^ n.log2 then
      let k := (n.log2 : Int) + e
      if k = 0 then 0 else roundTo f .rn 0 (decide (k < 0)) k.natAbs 1 0
    else fxCode f g s n e 4 512
  | .tanh, .fin s n _ e =>
    if n = 0 then f.signed s 0
    else if 8 ≤ (n.log2 : Int) + e then f.signed s one
    else fxCode f g s n e 4 512
  | .sin, .fin s n _ e => if n = 0 then f.signed s 0 else fxCode f g s n e 4 512
  | .cos, .fin s n _ e => if n = 0 then one else fxCode f g s n e 4 512

end Sys2Proof.Machine
end

