-- ==== Sys2Proof/WellFormed.lean ====
section
/-! DEFINITION. Which terms of `Instr` are steps of the part: an instruction passes the four checks
of R54; an event names agents that exist (R2). -/

namespace Sys2Proof

def Place.ok : Place → Bool
  | .cluster n => n < Config.dies * Config.clustersPerDie
  | .package n => n < 64

/-- The words that pass the checks of R54, as their own constructor (XMOV's MOD bit 0 chooses between
its two, R154). -/
def Instr.wordOk (i : Instr) : Bool :=
  match i.opWord with
  | some (op, w) => checkEntry op w.uni (some w.ty) w == none && Instr.ofOp op w == some i
  | none => true

/-- The numbers an event carries name agents of the package: dies, cores, queues, ports, envelopes
(R2, R362, R390, R395). -/
def Instr.eventOk : Instr → Bool
  | .lineFill core _ line => decide (core < Config.cores) && bits line 0 6 == 0
  | .restore _ core | .blockPlacement _ core => decide (core < Config.cores)
  | .transientRequest core _ _ | .transientRetry core _ => decide (core < Config.cores)
  | .tokenResponse core _ source => decide (core < Config.cores) && source.all (· < Config.cores)
  | .fqrespMapped die id | .fqrespRefused die id | .fqrespOverQuota die id =>
      decide (die < Config.dies) && decide (id < 2 ^ 32)
  | .fqbaseWrite _ die _ | .correctionEntryTimer _ die | .persistentActivation die _
  | .fillResponse die _ => decide (die < Config.dies)
  | .remoteRead p _ | .remoteWrite p _ | .invalidation p _ | .invalidationAck p _ => p.ok
  | .flitReceive port f => decide (port < Config.bridlePorts) && decide (f.payload.length ≤ 112) &&
      decide (f.dest < 1024 ∧ f.source < 1024 ∧ f.channel < 4 ∧ f.seq < 2 ^ 24 ∧ f.kind < 64)
  | .replayRequest port _ | .portComesBack port => decide (port < Config.bridlePorts)
  | .doorbell _ die q _ | .qstatRead _ die q | .queueTake die q | .queueBinding die q _ _ =>
      decide (die < Config.dies) && decide (q < Config.queuesPerDie)
  | .rootTableAddress env _ | .functionBinding _ env =>
      decide (env < Config.envelopes)
  | _ => true

/-- A term is a step of the part. -/
def Instr.WellFormed (i : Instr) : Bool := i.wordOk && i.eventOk

end Sys2Proof
end

