-- ==== Sys2Proof/Decode.lean ====
section
/-! DEFINITION. The packed stream (R55 to R63): the expansion of one 64-byte line into entries, and
the encoder of the same forms (R77). -/

namespace Sys2Proof

/-! ## Words as numbers -/

/-- OP without the uniform bit, and that bit (R83). -/
def splitOp (n : Nat) : Nat × Bool :=
  if (n / 128 = 1 ∨ n / 128 = 2) ∧ n / 64 % 2 = 1 then (n - 64, true) else (n, false)

def joinOp (op : Nat) (uni : Bool) : Nat := if uni then op + 64 else op

/-- The big-endian value of bytes (R8, R55). -/
def ofBytesBE : List Byte → Nat
  | [] => 0
  | b :: bs => b.toNat * 256 ^ bs.length + ofBytesBE bs

/-- n bytes of a number, the most significant first. -/
def toBytesBE : Nat → Nat → List Byte
  | 0, _ => []
  | n + 1, x => BitVec.ofNat 8 (x / 256 ^ n) :: toBytesBE n x

/-- The bytes of a value, the least significant first (R8). -/
def toBytesLE : Nat → Nat → List Byte
  | 0, _ => []
  | n + 1, x => BitVec.ofNat 8 x :: toBytesLE n (x / 256)

def ofBytesLE : List Byte → Nat
  | [] => 0
  | b :: bs => b.toNat + 256 * ofBytesLE bs

/-! ## One stored instruction -/

/-- What decoding meets at a lead byte: an instruction or an entry that traps, with its length (a
trapping one also says whether decoding of the line ends there), or a pad. -/
inductive Entry where
  | insn (i : Instr) (len : Nat)
  | bad (c : Cause) (len : Nat) (stop : Bool)
  | pad
  deriving DecidableEq, Repr

def Entry.len : Entry → Nat
  | .insn _ n => n
  | .bad _ n _ => n
  | .pad => 1

/-- The entry of an expanded word, checked by R54. -/
def entryOf (opn : Nat) (tyc : BitVec 6) (w : CWord) (len : Nat) : Entry :=
  let (op, uni) := splitOp opn
  let w := { w with uni, ty := (Ty.ofCode tyc).getD .untyped }
  match checkEntry op uni (Ty.ofCode tyc) w with
  | some c => .bad c len false
  | none =>
    match Instr.ofOp op w with
    | some i => .insn i len
    | none => .bad .illegalOp len false

/-- The full form's word (R49, R58). -/
def expandFull (x : BitVec 96) (ext : Word) (len : Nat) : Entry :=
  entryOf (bits x 86 10) (x.extractLsb' 52 6)
    { g := x.extractLsb' 82 4, d := x.extractLsb' 74 8, a := x.extractLsb' 66 8
      b := x.extractLsb' 58 8, mod := x.extractLsb' 46 6, hint := x.extractLsb' 34 12
      bsel := x.extractLsb' 32 2, imm := x.extractLsb' 0 32, ext } len

/-- The short form's defaults (R87): the opcode's first type, and BSEL 10 in groups 001 and 010 where
that is accepted. -/
def shortDefaults (op : Nat) : Ty × BitVec 2 :=
  match row op with
  | none => (.untyped, 0#2)
  | some r => (r.tys.headD .untyped,
      if 0x080 ≤ op ∧ op < 0x180 ∧ r.bsels.contains 2#2 then 2#2 else 0#2)

/-- The short form (R57). -/
def expandShort (x : BitVec 64) (ext : Word) (len : Nat) : Entry :=
  let opn := bits x 52 10
  let (ty, bsel) := shortDefaults (splitOp opn).1
  entryOf opn ty.code
    { g := x.extractLsb' 48 4, d := x.extractLsb' 40 8, a := x.extractLsb' 32 8
      b := x.extractLsb' 24 8, mod := x.extractLsb' 18 6, bsel
      imm := (x.extractLsb' 0 18).signExtend 32, ext } len

/-- The treatment of IMM6 in a row of the compact table (R56, R89). -/
inductive Imm6 where
  | unused | sign | regC
  deriving DecidableEq, Repr

/-- One entry of the compact table (R89); OP as stored, with the uniform bit. -/
structure Compact where
  opn  : Nat
  ty   : Ty
  d    : Bool
  a    : Bool
  b    : Bool
  imm6 : Imm6
  bsel : BitVec 2 := 0#2
  mod  : BitVec 6 := 0#6
  deriving DecidableEq, Repr

/-- The k-list of R89. -/
def kList (k : Nat) : Option (Nat × Ty) :=
  match k with
  | 1 => some (0x080, .i32)
  | 2 => some (0x081, .i32)
  | 3 => some (0x082, .i32)
  | 4 => some (0x083, .i32)
  | 5 => some (0x089, .i32)
  | 6 => some (0x08A, .i32)
  | 7 => some (0x089, .n32)
  | 8 => some (0x08A, .n32)
  | 9 => some (0x08E, .b32)
  | 10 => some (0x08F, .b32)
  | 11 => some (0x090, .b32)
  | 12 => some (0x092, .b32)
  | 13 => some (0x093, .b32)
  | 14 => some (0x094, .b32)
  | 15 => some (0x095, .i32)
  | _ => none

/-- The compact table (R89). -/
def compactRow (index : Nat) : Option Compact :=
  let vvv (o : Nat) (t : Ty) : Option Compact := some ⟨o, t, true, true, true, .unused, 0#2, 0#6⟩
  let fma (o : Nat) (t : Ty) : Option Compact := some ⟨o, t, true, true, true, .regC, 1#2, 0#6⟩
  let vv (o : Nat) (t : Ty) : Option Compact := some ⟨o, t, true, true, false, .unused, 0#2, 0#6⟩
  let load (o : Nat) (t : Ty) : Option Compact := some ⟨o, t, true, true, false, .sign, 0#2, 0#6⟩
  let store (o : Nat) (t : Ty) : Option Compact := some ⟨o, t, false, true, true, .sign, 0#2, 0#6⟩
  let none' (o : Nat) : Option Compact := some ⟨o, .untyped, false, false, false, .unused, 0#2, 0#6⟩
  let disp (o : Nat) : Option Compact := some ⟨o, .untyped, false, false, false, .sign, 0#2, 0#6⟩
  let conv (o : Nat) (t s : Ty) : Option Compact :=
    some ⟨o, t, true, true, false, .unused, 0#2, s.code⟩
  match index with
  | 0x10 => some ⟨0x0A1, .b32, true, false, false, .sign, 2#2, 0#6⟩
  | 0x20 => some ⟨0x0E1, .b32, true, false, false, .sign, 2#2, 0#6⟩
  | 0x30 => vvv 0x100 .f32
  | 0x31 => vvv 0x101 .f32
  | 0x32 => vvv 0x102 .f32
  | 0x33 => vvv 0x104 .f32
  | 0x34 => vvv 0x105 .f32
  | 0x35 => fma 0x103 .f32
  | 0x36 => vvv 0x10F .f16x2
  | 0x37 => fma 0x110 .f16x2
  | 0x38 => vv 0x0A0 .b32
  | 0x39 => vv 0x0E0 .b32
  | 0x3A => vv 0x0A0 .b64
  | 0x3B => fma 0x084 .i32
  | 0x3C => vv 0x091 .b32
  | 0x3D => vv 0x09A .b32
  | 0x3E => vv 0x088 .i32
  | 0x3F => vv 0x087 .i32
  | 0x40 => load 0x200 .b32
  | 0x41 => load 0x200 .b64
  | 0x42 => load 0x200 .b128
  | 0x43 => store 0x201 .b32
  | 0x44 => store 0x201 .b64
  | 0x45 => store 0x201 .b128
  | 0x46 => load 0x202 .b32
  | 0x47 => load 0x202 .b64
  | 0x48 => store 0x203 .b32
  | 0x49 => store 0x203 .b64
  | 0x4A => load 0x204 .b32
  | 0x4B => store 0x205 .b32
  | 0x4C => load 0x206 .b32
  | 0x4D => load 0x206 .b64
  | 0x4E => some ⟨0x200, .b32, true, true, false, .sign, 0#2, 0x10#6⟩
  | 0x50 => none' 0x000
  | 0x51 => disp 0x002
  | 0x52 => disp 0x004
  | 0x53 => none' 0x006
  | 0x54 => none' 0x00C
  | 0x55 => none' 0x00F
  | 0x56 => none' 0x01A
  | 0x57 => some ⟨0x003, .untyped, false, true, false, .unused, 0#2, 0#6⟩
  | 0x60 => conv 0x10E .f32 .i32
  | 0x61 => conv 0x10D .i32 .f32
  | 0x62 => conv 0x10C .f16 .f32
  | 0x63 => conv 0x10C .f32 .f16
  | 0x64 => conv 0x10C .bf16 .f32
  | 0x65 => conv 0x10C .f32 .bf16
  | 0x66 => conv 0x10E .f32 .n32
  | 0x67 => conv 0x10D .n32 .f32
  | _ =>
    match kList (index % 16) with
    | none => none
    | some (o, t) =>
      if index / 16 = 0 then vvv o t
      else if index / 16 = 1 then some ⟨o, t, true, true, false, .sign, 2#2, 0#6⟩
      else if index / 16 = 2 then vvv (o + 64) t
      else none

/-- The compact form (R56). A field the row leaves unused must be zero, or check 3 fails. -/
def expandCompact (x : BitVec 32) (ext : Word) (len : Nat) : Entry :=
  match compactRow (bits x 24 7) with
  | none => .bad .illegalOp len false
  | some r =>
    let d := x.extractLsb' 18 6
    let a := x.extractLsb' 12 6
    let b := x.extractLsb' 6 6
    let k := x.extractLsb' 0 6
    let used := (r.d || d == 0#6) && (r.a || a == 0#6) && (r.b || b == 0#6) &&
      (r.imm6 != .unused || k == 0#6)
    if !used then .bad .reservedField len false
    else entryOf r.opn r.ty.code
      { d := d.setWidth 8, a := a.setWidth 8, b := b.setWidth 8, mod := r.mod, bsel := r.bsel
        imm := if r.imm6 = .sign then k.signExtend 32 else k.setWidth 32, ext } len

/-- A compact, short or full instruction after `off` prefix bytes, or an entry of its own for
anything else. `pastEnd` is what a length past the end of the line gives (R62). -/
def decodeBody (bs : List Byte) (ext : Word) (off : Nat) : Option Entry :=
  match bs with
  | [] => none
  | b :: _ =>
    let pastEnd : Entry := .bad .illegalOp 1 true
    if b.toNat < 0x80 then
      some (if bs.length < 4 then pastEnd
        else expandCompact (BitVec.ofNat 32 (ofBytesBE (bs.take 4))) ext (off + 4))
    else if b.toNat < 0xC0 then
      some (if bs.length < 8 then pastEnd
        else expandShort (BitVec.ofNat 64 (ofBytesBE (bs.take 8))) ext (off + 8))
    else if b.toNat = 0xC0 then
      some (if bs.length < 13 then pastEnd
        else expandFull (BitVec.ofNat 96 (ofBytesBE ((bs.drop 1).take 12))) ext (off + 13))
    else none

/-- The entry at a lead byte, from the bytes of the line that follow it, itself included (R55, R59 to
R62). -/
def decodeEntry (bs : List Byte) : Entry :=
  match decodeBody bs 0#32 0 with
  | some e => e
  | none =>
    match bs with
    | [] => .bad .illegalOp 1 true
    | b :: rest =>
      if b.toNat = 0xE0 then
        if rest.length < 4 then .bad .illegalOp 1 true
        else
          match decodeBody (rest.drop 4) (BitVec.ofNat 32 (ofBytesBE (rest.take 4))) 5 with
          | some e => e
          | none => .bad .illegalOp 5 false
      else if b.toNat = 0xF0 then .bad .runOffEnd 1 true
      else if b.toNat = 0xFF then .pad
      else .bad .illegalOp 1 true

/-! ## A line -/

/-- The entries and pads of a line from byte `off` on, with their offsets (R62, R63). -/
def decodeFrom : Nat → Nat → List Byte → List (Nat × Entry)
  | 0, _, _ => []
  | _ + 1, _, [] => []
  | fuel + 1, off, b :: bs =>
    let e := decodeEntry (b :: bs)
    match e with
    | .bad _ _ true => [(off, e)]
    | _ => (off, e) :: decodeFrom fuel (off + e.len) ((b :: bs).drop e.len)

/-- A line is decoded on its own, from its byte 0 (R62). -/
def decodeLine (line : List Byte) : List (Nat × Entry) := decodeFrom 64 0 (line.take 64)

/-- What stands at an offset of a line; none where no lead byte is (R63). -/
def entryAt (line : List Byte) (off : Nat) : Option Entry :=
  ((decodeLine line).find? (·.1 == off)).map (·.2)

/-- A line that holds an end-of-kernel marker (R65). -/
def hasEndMarker (line : List Byte) : Bool :=
  (decodeLine line).any fun p => match p.2 with
    | .bad .runOffEnd _ _ => true
    | _ => false

/-- The instruction a list of bytes begins with, and the bytes after it; none for anything else. -/
def decode (bs : List Byte) : Option (Instr × List Byte) :=
  match decodeEntry bs with
  | .insn i len => some (i, bs.drop len)
  | _ => none

/-! ## The encoder -/

/-- The 96 bits of a canonical word (R49). -/
def packFull (op : Nat) (w : CWord) : BitVec 96 :=
  BitVec.ofNat 10 (joinOp op w.uni) ++ w.g ++ w.d ++ w.a ++ w.b ++ w.ty.code ++ w.mod ++ w.hint ++
    w.bsel ++ w.imm

/-- The bytes before an instruction for its extension word: none when it is zero (R59, R77). -/
def extPrefix (ext : Word) : List Byte :=
  if ext = 0#32 then [] else 0xE0#8 :: toBytesBE 4 ext.toNat

/-- The full form of an instruction, behind its prefix where the extension word is not zero; nothing
for an event. -/
def encodeFull (i : Instr) : List Byte :=
  match i.opWord with
  | none => []
  | some (op, w) => extPrefix w.ext ++ 0xC0#8 :: toBytesBE 12 (packFull op w).toNat

/-- The short form, of the fields it carries (R57). -/
def encodeShort (i : Instr) : List Byte :=
  match i.opWord with
  | none => []
  | some (op, w) =>
    let x : BitVec 64 := 2#2 ++ BitVec.ofNat 10 (joinOp op w.uni) ++ w.g ++ w.d ++ w.a ++ w.b ++
      w.mod ++ w.imm.setWidth 18
    extPrefix w.ext ++ toBytesBE 8 x.toNat

/-- The compact form with an index, of the fields it carries (R56). -/
def encodeCompact (i : Instr) (index : Nat) : List Byte :=
  match i.opWord with
  | none => []
  | some (_, w) =>
    let x : BitVec 32 := BitVec.ofNat 8 index ++ w.d.setWidth 6 ++ w.a.setWidth 6 ++ w.b.setWidth 6 ++
      w.imm.setWidth 6
    extPrefix w.ext ++ toBytesBE 4 x.toNat

/-- The compact indexes whose row has the instruction's OP and TY. -/
def compactIndexes (i : Instr) : List Nat :=
  match i.opWord with
  | none => []
  | some (op, w) => (List.range 128).filter fun k =>
      match compactRow k with
      | some r => r.opn == joinOp op w.uni && r.ty == w.ty && r.bsel == w.bsel
      | none => false

/-- The shortest form that expands to the instruction (R77). -/
def encode (i : Instr) : List Byte :=
  let forms := (compactIndexes i).map (encodeCompact i) ++ [encodeShort i]
  (forms.find? fun bs => (decode bs).any fun p => p.1 == i && p.2.isEmpty).getD (encodeFull i)

/-! ## The host's words -/

/-- The bytes that a table word stands for, the first in its low bits, zeros above `nbits` up to the
longest stored instruction, 18 bytes (R55, R59). -/
def tableBytes (nbits w : Nat) : List Byte := toBytesLE 18 (w % 2 ^ nbits)

/-- The instruction that the decoder reads from a table word. -/
def decodeTableWord (nbits w : Nat) : Option Instr := (decode (tableBytes nbits w)).map (·.1)

end Sys2Proof
end

