-- ==== Sys2Proof/Machine/State.lean ====
section
/-! DEFINITION. The state of one package as plain data, the stops of the machine, and the state after
reset. Every field's docstring names the rule that gives it; INVENTORY.md lists the reset values. -/

namespace Sys2Proof.Machine

/-- Sparse bytes by address: addresses strictly rising, no entry 0, for an unlisted byte reads 0. -/
abbrev Memory := List Host.Cell

/-! ## A thread -/

/-- The thread states of R210. -/
inductive TState where
  | ready | waiting | parked | trapped | exited
  deriving DecidableEq, Repr, Inhabited

/-- The parking instructions (R176). -/
inductive ParkKind where
  | waitaddr | park | fget | mbrecv | barw | tspawn
  deriving DecidableEq, Repr, Inhabited

/-- A thread in the wait table, or polling in its place (R176): the address it named and where that
lies, the comparison value or generation, PARK's scope and serialisation number, and whether it has
been woken and stands to re-perform its check. -/
structure Parked where
  kind   : ParkKind
  va     : DWord
  pa     : Nat
  val    : DWord := 0#64
  scope  : Nat := 0
  seq    : Nat := 0
  polled : Bool := false
  pollAt : Nat := 0
  woken  : Bool := false
  /-- A read that it made again met a page to be serviced: it has left the table, and reads once more then (R174). -/
  away   : Bool := false
  /-- Bytes that the traffic reel was charged when it parked (R164). -/
  bytes  : Nat := 0
  /-- What else it read at its issue (R46): MBRECV's scratchpad offset, TSPAWN's task record. -/
  arg    : DWord := 0#64
  /-- The instruction that parked it. -/
  op     : Nat := 0
  w      : CWord := {}
  deriving DecidableEq, Repr, Inhabited

/-- What a waiting or parked thread waits for (R210, R358). -/
inductive Wait where
  | landed (record : DWord) (full : Bool)
  | pin (n : Nat) (align : Bool)
  | width (request : Nat)
  | bsync (n : Option Nat)
  | sleep (target : Nat)
  | parked (p : Parked)
  deriving DecidableEq, Repr, Inhabited

/-- A trap's cause and what the frame or the fault record says of it (R244, R370, R371). -/
structure TrapInfo where
  cause : Cause
  addr  : DWord := 0#64
  write : Bool := false
  xlev  : Nat := 0
  size  : Nat := 0
  space : Nat := 0
  extra : DWord := 0#64
  deriving DecidableEq, Repr, Inhabited

/-- A long-latency result, or a flag-tracked access, not yet arrived (R47, R68): the vector registers
and the predicate it writes, and the completion flag it counts in. -/
structure Outst where
  regs : List (Nat × Word) := []
  pred : Option (Nat × Bool) := none
  flag : Option Nat := none
  deriving DecidableEq, Repr, Inhabited

/-- One thread of a block, or its handler thread (R210, R374). -/
structure Thread where
  /-- v0 to v255, the allocated ones (R35, R233). -/
  v         : List Word := []
  /-- p0 to p6 (R39). -/
  p         : BitVec 7 := 0#7
  pc        : DWord := 0#64
  st        : TState := .ready
  wait      : Option Wait := none
  /-- Bytes of the instruction a waiting thread stands at; 0 once the handler has written its PC. -/
  wlen      : Nat := 0
  /-- %seed (R25). -/
  seed      : Word := 1#32
  /-- The counts of f0 to f11 (R68). -/
  flags     : List Nat := []
  /-- The armed mask (R97). -/
  armed     : Word := 0#32
  triggered : Bool := false
  /-- The aligned-group number (R217). -/
  group     : Option Nat := none
  /-- Retired under lane-off mode (R163). -/
  retired   : Bool := false
  /-- InClause and Slots (R67). -/
  inClause  : Nat := 0
  slots     : Option Nat × Option Nat := (none, none)
  outst     : List Outst := []
  /-- The walk or replayed fault the thread stands waiting for (R384, R385). -/
  stall     : Option Nat := none
  /-- What it stands waiting for is the page of its fault record (R245, R378). -/
  retiring  : Bool := false
  /-- The fault its walk ended in, taken when it issues the access again: page and fault (R384). -/
  fault     : Option (Nat × TrapInfo) := none
  /-- The package (1,024: the host) whose answer it waits for, since when, and the access (R394, R397). -/
  remote    : Option (Nat × Nat × TrapInfo) := none
  /-- AQFENCE.order: queue masks with the copies that later ones on them follow (R181). -/
  fences    : List (Nat × List Nat) := []
  /-- The flag that the instruction at which it waits or is parked counts in until it completes (R68). -/
  owed      : Option Nat := none
  /-- The WAITADDR or PARK at its PC was charged its bytes before a trap made it execute again (R164, R174). -/
  prepaid   : Bool := false
  /-- The uniform registers as its access read them, while it is to be reissued (R46, R277, R399). -/
  held      : Option (List DWord) := none
  /-- Its issue stands: it issues the instruction again before its plait goes on (R195, R271). -/
  asks      : Bool := false
  /-- Its registers are in parking slots, and its bank space is lent to a placement, by its order on the package (R237). -/
  inSlot    : Bool := false
  lentTo    : Nat := 0
  /-- The handler has written its PC or made it ready since its stop (R377). -/
  written   : Bool := false
  /-- The cycle of its block in which it last entered a pool, and its order among the pool (R211). -/
  age       : Nat := 0
  order     : Nat := 0
  deriving DecidableEq, Repr, Inhabited

/-! ## A block -/

/-- A uniform register with its hidden fields (R123). -/
structure UReg where
  val   : DWord := 0#64
  pc    : Option DWord := none
  epoch : Nat := 0
  tid   : Nat := 0
  deriving DecidableEq, Repr, Inhabited

/-- An exact accumulator: N and its status bits OVF, NINF, PINF, NAN (R27, R28). -/
structure XAcc where
  n  : BitVec 640 := 0#640
  st : BitVec 4 := 0#4
  deriving DecidableEq, Repr, Inhabited

/-- The launch record as acceptance resolved it (R304, R316). -/
structure LaunchRec where
  version   : Nat := 0
  flags     : Nat := 0
  code      : Nat := 0
  bound     : Nat := 0
  container : Nat := 0
  param     : Nat := 0
  bsize     : Nat := 1
  width     : Nat := 0
  /-- Extent and domain of each level (R307). -/
  levels    : List (Nat × Nat) := [(1, 0)]
  vregs     : Nat := 8
  uregs     : Nat := 0
  scratch   : Nat := 0
  accrows   : Nat := 0
  tiles     : Nat := 0
  xsums     : Nat := 0
  pins      : Nat := 0
  ireel     : Nat := 1
  treel     : Nat := 1
  landbound : Nat := 1
  priority  : Nat := 0
  envelope  : Nat := 0
  readset   : Nat := 0
  writeset  : Nat := 0
  nread     : Nat := 0
  nwrite    : Nat := 0
  future    : Nat := 0
  tvec      : Nat := 0
  tsave     : Nat := 0
  csave     : Nat := 0
  faults    : Nat := 0
  deriving DecidableEq, Repr, Inhabited

/-- The per-block registers that SRD and SWR reach, and the reels with their overdrafts (R20, R41,
R43, R113, R176, R348). -/
structure BlockRegs where
  fmode    : Word := 1#32
  ustat    : Word := 0#32
  inldepth : Word := 0#32
  inlmax   : Word := 8#32
  wdog     : Word := 0#32
  wtovf    : Word := 0#32
  ireel    : DWord := 1#64
  treel    : DWord := 1#64
  iover    : DWord := 0#64
  tover    : DWord := 0#64
  deriving DecidableEq, Repr, Inhabited

/-- The banked registers of one trap level (R371). -/
structure Bank where
  cause : Word := 0#32
  pc    : DWord := 0#64
  addr  : DWord := 0#64
  thr   : Word := 0#32
  deriving DecidableEq, Repr, Inhabited

/-- A cause that is entered after the level 1 in force: its threads, or none with the thread and PC it
names (R369). `copy` is the copy whose fault or broken promise it is (R180). -/
structure Held where
  info : TrapInfo
  tids : List Nat := []
  thr  : Nat := 0
  pc   : DWord := 0#64
  copy : Option Nat := none
  deriving DecidableEq, Repr, Inhabited

/-- The trap side of a block (R368 to R380). -/
structure TrapState where
  level   : Nat := 0
  bank0   : Bank := {}
  bank1   : Bank := {}
  tvec    : DWord := 0#64
  tsave   : DWord := 0#64
  /-- The block is stopped. -/
  stopped : Bool := false
  /-- The threads stopped with the cause of level 1. -/
  stopSet : List Nat := []
  held    : List Held := []
  /-- The cause with which the handler traps at its next instruction (R373). -/
  frame   : Option TrapInfo := none
  /-- The walk that the write of the frame waits for (R373). -/
  pend    : Option Nat := none
  /-- The frame as it was at the stop, while its write waits (R372, R373). -/
  image   : List Byte := []
  /-- Stopped for an attached debugger (R380). -/
  debug   : Bool := false
  /-- It is the handler that stands at its BKPT. -/
  debugH  : Bool := false
  copy    : Option Nat := none
  /-- Level 1 is the stop for the broken promise of a copy (R180). -/
  missed  : Option Nat := none
  /-- Level 1 is the stop for WATCHDOG (R113). -/
  wdstop  : Bool := false
  /-- The count of choices at the handler's last issue. -/
  turn    : Nat := 0
  deriving DecidableEq, Repr, Inhabited

/-- The due point (R349). -/
structure Due where
  ireel    : Bool := false
  treel    : Bool := false
  recalled : Bool := false
  n        : Nat := 0
  weight   : Nat := 0
  time     : Nat := 0
  deriving DecidableEq, Repr, Inhabited

/-- A plait, one half of a split plait, or the two plaits of a pair (R214, R215, R225). -/
structure Plait where
  id     : Nat
  /-- Members by ascending rank: rank and %tid. -/
  ths    : List (Nat × Nat)
  sect   : Nat := 0
  /-- Order in which its slot was filled (R220, R221). -/
  slot   : Nat := 0
  group  : Option Nat := none
  pair   : Bool := false
  wide   : Bool := false
  /-- The other half of the split, the primary one, and issues since the split (R225, R226). -/
  other  : Option Nat := none
  first  : Bool := true
  issues : Nat := 0
  victim : Bool := false
  /-- It is to dissolve, or to end its split unless the halves rejoin, once its other half has ended its clause (R223,
  R226). -/
  hold   : Option Bool := none
  /-- It has been offered an issue since it was formed (R222), and the count of choices when it last was (R230). -/
  served : Bool := false
  turn   : Nat := 0
  /-- The cycle of its block in which it last issued, or from which its oldest thread waited in a pool (R222), and the rounds
  that it has issued in (R282). -/
  last   : Nat := 0
  round  : Nat := 0
  deriving DecidableEq, Repr, Inhabited

/-- The row-progress register (R202). -/
structure RowProg where
  pcoff : Word := 0#32
  valid : Bool := false
  side  : Bool := false
  row   : Nat := 0
  deriving DecidableEq, Repr, Inhabited

/-- Where a block stands and what it was granted (R102, R218, R234, R242). -/
structure Place where
  core     : Nat := 0
  resident : Bool := false
  /-- The plait width in force, 8 to 64, or 128 for pairing; confinement apart. -/
  grant    : Nat := 32
  confined : Bool := false
  /-- The standing request, and the default grant of this placement. -/
  request  : Nat := 0
  dflt     : Nat := 32
  accbase  : Nat := 0
  /-- Extents of the scratchpad: core and bytes. -/
  extents  : List (Nat × Nat) := []
  /-- Order of placement on the package. -/
  seq      : Nat := 0
  /-- %park.COUNT (R239). -/
  parkn    : Nat := 0
  deriving DecidableEq, Repr, Inhabited

/-- Why a block that is not resident is out, and what its return needs (R357, R360, R361). -/
structure Saved where
  kind    : Nat := 1
  depth   : Nat := 0
  since   : Nat := 0
  /-- The ranges of the save area that were written: offset and length (R353). -/
  ranges  : List (Nat × Nat) := []
  /-- The stops for copies' faults that the restore enters again (R180, R361). -/
  stops   : List Held := []
  /-- The thread whose TSPAWN ran a child that has ended, with its pP (R188). -/
  spawn   : Option (Nat × Nat) := none
  deriving DecidableEq, Repr, Inhabited

/-- A write to another die or package not yet acknowledged (R165). -/
structure Ack where
  tid  : Nat
  va   : DWord
  pa   : Nat
  time : Nat
  /-- The other threads whose write it is, and the other lines of it (R201, R252). -/
  tids  : List Nat := []
  lines : List Nat := []
  /-- The block's trigger waits for it (R258, R266). -/
  before : Bool := false
  deriving DecidableEq, Repr, Inhabited

/-- One block of a launch. -/
structure Block where
  id      : Nat := 0
  task    : Nat := 0
  /-- %bid (R309). -/
  bid     : Nat := 0
  cfg     : LaunchRec := {}
  place   : Place := {}
  regs    : BlockRegs := {}
  threads : List Thread := []
  handler : Thread := {}
  uregs   : List UReg := []
  epoch   : Nat := 0
  xs      : List XAcc := []
  tiles   : Memory := []
  rows    : Memory := []
  scratch : Memory := []
  /-- The tile rows and side data of a cut memory-form read (R202). -/
  staging : Memory := []
  rowprog : RowProg := {}
  /-- The threads whose issue the matrix engine has begun and that wait in it for an answer (R195). -/
  engine  : List Nat := []
  trap    : TrapState := {}
  due     : Option Due := none
  plaits  : List Plait := []
  acks    : List Ack := []
  /-- Every thread has triggered or exited, and the release of that waits for its acknowledgements (R258, R266). -/
  triggering : Bool := false
  /-- Fault-record writes that have not been acknowledged: %ackc does not count them (R165, R245, R397). -/
  records : List Ack := []
  /-- Core cycles resident and unstopped (R211); ns run since the watchdog's restart (R113). -/
  cycles  : Nat := 0
  wdrun   : Nat := 0
  saved   : Option Saved := none
  /-- Its save has fallen due, of a kind, and waits for acknowledgements or for a page: no thread of it issues (R351, R354). -/
  leaving : Option Nat := none
  /-- The walk that its save, its restore or a rotation of its turn groups waits for (R359, R385). -/
  area    : Option Nat := none
  /-- The child that runs inline, and the predicate that its TSPAWN writes (R188); child 0, with the thread, for one that has
  failed. -/
  inline  : Option (Nat × Nat) := none
  failedBy : Option Nat := none
  /-- The turn groups that are out, since when, and the ranges of the save that hold them (R321). -/
  out     : List (Nat × Nat × List (Nat × Nat)) := []
  ended   : Bool := false
  retired : Nat := 0
  deriving DecidableEq, Repr, Inhabited

/-! ## Engines -/

/-- A copy (R178 to R181, R190). -/
structure Copy where
  id     : Nat
  blk    : Nat
  task   : Nat
  env    : Nat
  tid    : Nat
  pc     : DWord
  queue  : Nat
  /-- The cluster whose engine makes it (R178). -/
  unit   : Nat := 0
  kind   : Nat
  src    : DWord
  dst    : DWord
  len    : Nat
  /-- Bytes written, and beats not yet subtracted from the linked record. -/
  done   : Nat := 0
  beats  : Nat := 0
  record : DWord := 0#64
  /-- The promised time, while the promise stands. -/
  promise : Option Nat := none
  /-- The copies that must be complete before this one writes (R181). -/
  after  : List Nat := []
  /-- Stopped by a fault, with the record's subtraction open (R180). -/
  fault  : Option TrapInfo := none
  record? : Bool := false
  /-- Abandoned by TRET.skip: only the subtraction of its remaining beats is left (R190). -/
  abandoned : Bool := false
  stall  : Option Nat := none
  /-- Its writes to other packages that have not been acknowledged, the first for each (R179, R397). -/
  acks   : List Ack := []
  deriving DecidableEq, Repr, Inhabited

/-- What a translation is asked for (R383, R393). -/
inductive Kind where
  | read | write | atomic | fetch
  deriving DecidableEq, Repr, Inhabited

/-- A walk in progress or posted to the fault queue (R384, R385). -/
structure Walk where
  id   : Nat
  die  : Nat
  env  : Nat
  /-- The virtual page, bits [56:16]. -/
  page : Nat
  kind : Kind
  /-- Posted for service, with its fault-queue entry's ID. -/
  post : Option Nat := none
  deriving DecidableEq, Repr, Inhabited

/-- A valid leaf held by a TLB (R384): `unit` is a core, or 1,024 + cluster for the second level. -/
structure TlbEntry where
  unit : Nat
  env  : Nat
  va   : Nat
  /-- Page size as a power of two: 16, 21 or 31. -/
  log  : Nat
  leaf : BitVec 64
  deriving DecidableEq, Repr, Inhabited

/-- A cached 64-byte code line or its fetch fault (R53, R64). -/
structure CodeLine where
  core  : Nat
  task  : Nat
  line  : Nat
  bytes : List Byte
  fault : Option TrapInfo := none
  deriving DecidableEq, Repr, Inhabited

/-- A line of the constant cache of a core, or of the fetch unit of a cluster, with the launch that
filled it (R169, R184). -/
structure StaleLine where
  unit  : Nat
  task  : Nat
  pa    : Nat
  /-- The virtual address of its line, by which ICINV names it (R114). -/
  va    : Nat
  bytes : List Byte
  deriving DecidableEq, Repr, Inhabited

/-- A shootdown in progress (R386), and a page migration (R277). -/
structure Shootdown where
  env : Nat
  va  : Nat
  len : Nat
  deriving DecidableEq, Repr, Inhabited

structure Migration where
  env    : Nat
  va     : Nat
  old    : Nat
  target : Nat
  len    : Nat := 65536
  /-- The page has been copied (step 4), and opened (step 5). -/
  copied : Bool := false
  open'  : Bool := false
  deriving DecidableEq, Repr, Inhabited

/-- Engines, translation caches and code caches. -/
structure Engines where
  copies  : List Copy := []
  nextCopy : Nat := 1
  walks   : List Walk := []
  nextWalk : Nat := 1
  tlb     : List TlbEntry := []
  icache  : List CodeLine := []
  /-- Loop-buffer lines that an ICINV left behind: section, block, line (R66, R115). -/
  loops   : List (Nat × Nat × CodeLine) := []
  /-- Fills in progress: the bytes as the fill began (R66). -/
  fills   : List CodeLine := []
  consts  : List StaleLine := []
  fetchs  : List StaleLine := []
  /-- Pool-table entries: core, block, PC, group, and whether reserved (R212). -/
  pools   : List (Nat × Nat × DWord × Option Nat × Bool) := []
  /-- The last issue of a core: core, core cycle, section (R123). -/
  issued  : List (Nat × Nat × Nat) := []
  shoots  : List Shootdown := []
  migrs   : List Migration := []
  deriving DecidableEq, Repr, Inhabited

/-! ## Coherence (12) -/

/-- A line in the L1 of a core: its tokens, whether the owner token is among them, and whether the line is dirty
(R270). -/
structure L1Line where
  core  : Nat
  n     : Nat
  owner : Bool := false
  dirty : Bool := false
  deriving DecidableEq, Repr, Inhabited

/-- The tokens of one line on one die: with the L1s that hold some; the rest with the token home (R270). -/
structure TokenLine where
  die  : Nat
  line : Nat
  l1   : List L1Line := []
  deriving DecidableEq, Repr, Inhabited

/-- A transient request (R271), and its persistent entry (R272). -/
structure TokenReq where
  core    : Nat
  line    : Nat
  write   : Bool
  since   : Nat := 0
  retries : Nat := 0
  /-- Valid data has arrived. -/
  data    : Bool := false
  /-- A fill that an invalidation met has served it, and is gone (R275). -/
  served  : Bool := false
  persist : Bool := false
  active  : Bool := false
  /-- The block whose issue makes the access, and whether it is its handler's. -/
  blk     : Option (Nat × Bool) := none
  deriving DecidableEq, Repr, Inhabited

/-- A directory entry (R273), its LS as four numbers. -/
structure Region where
  region : Nat
  clv    : Word := 0#32
  pkg0   : Nat := 0
  pkg1   : Nat := 0
  pkn    : Nat := 0
  ls     : List Nat := [0, 0, 0, 0]
  deriving DecidableEq, Repr, Inhabited

/-- A round (R274): places whose invalidation is on its way, places whose acknowledgement is, the remote
writer to be acknowledged, and whether a later reader holds a new copy (R275). -/
structure Round where
  line    : Nat
  pending : List Sys2Proof.Place
  acking  : List Sys2Proof.Place := []
  writer  : Option Sys2Proof.Place := none
  /-- What the writer is answered beside its acknowledgement: the old value, for an atomic. -/
  answer  : List Byte := []
  /-- The places that had no copy when their invalidation came (R273). -/
  bare    : List Sys2Proof.Place := []
  since   : Nat := 0
  later   : Bool := false
  /-- The dies of this package among those readers. -/
  newer   : List Nat := []
  deriving DecidableEq, Repr, Inhabited

/-- A line of a die's remote-line cache, or its fill outstanding (R246, R275). -/
structure RemoteLine where
  die  : Nat
  line : Nat
  fill : Bool := false
  drop : Bool := false
  deriving DecidableEq, Repr, Inhabited

structure Coherence where
  tokens  : List TokenLine := []
  reqs    : List TokenReq := []
  regions : List Region := []
  rounds  : List Round := []
  /-- Regions whose entry is being reclaimed (R273). -/
  reclaim : List Nat := []
  /-- Cluster-filter entries: cluster, line, cores (R276). -/
  filters : List (Nat × Nat × List Nat) := []
  remote  : List RemoteLine := []
  /-- Remote-line cache size of each die in MiB (R246). -/
  rlc     : List Nat := [0, 0, 0, 0]
  deriving DecidableEq, Repr, Inhabited

/-! ## Tasks (16, 17) -/

/-- The source of a queue message (R326). -/
inductive Src where
  | thread | supervisor | host | plane
  deriving DecidableEq, Repr, Inhabited

/-- How a task ended or is ending (R112, R337, R346). -/
inductive Ending where
  | kill (code : Nat)
  | context (cause : Nat)
  | discard (cause : Nat) (id : Nat)
  deriving DecidableEq, Repr, Inhabited

/-- One task from its acceptance to its report (R324 to R340). -/
structure Task where
  id       : Nat
  record   : Nat := 0
  recPa    : Nat := 0
  cfg      : LaunchRec := {}
  die      : Nat := 0
  priority : Nat := 0
  src      : Src := .host
  srcenv   : Nat := 0
  ifund    : Nat := 0
  tfund    : Nat := 0
  /-- PIPE, INBOX, PIPEID, STAGE (R324). -/
  pipe     : Option (Nat × Nat × Nat) := none
  after    : List Nat := []
  seq      : Nat := 0
  registered : Bool := false
  ready    : Bool := false
  readyAt  : Nat := 0
  /-- Full 10 ms periods counted (R339). -/
  aged     : Nat := 0
  /-- Blocks placed so far, and blocks that triggered and ended. -/
  next     : Nat := 0
  trig     : List Nat := []
  done     : List Nat := []
  reads    : List (Nat × Nat) := []
  writes   : List (Nat × Bool) := []
  /-- Tiles of the sets and the locations of R331: tile, physical base of the location. -/
  locs     : List (Nat × Nat) := []
  retired  : Nat := 0
  ending   : Option Ending := none
  /-- An inline child: producer's block and spawning thread (R188). -/
  parent   : Option (Nat × Nat) := none
  /-- The lines of its parameter block at its acceptance (R312). -/
  params   : List StaleLine := []
  deriving DecidableEq, Repr, Inhabited

/-- A version of a tile (R331, R332). -/
structure Version where
  n         : Nat
  writer    : Nat
  /-- Its location: the home, or a rename buffer's base. -/
  loc       : Nat
  committed : Bool := false
  dropped   : Bool := false
  home      : Bool := false
  deriving DecidableEq, Repr, Inhabited

/-- A dependence-table entry: envelope and tile, its versions, and the readers: task and version
(R330, R331, R335). -/
structure TileEntry where
  env      : Nat
  tile     : Nat
  homePa   : Nat
  versions : List Version := []
  readers  : List (Nat × Nat) := []
  /-- The number of the version last at home. -/
  atHome   : Nat := 0
  deriving DecidableEq, Repr, Inhabited

/-- A translation shared by launches (R315): its envelope; container, function and stamp; its number; the virtual
address of its image; the bytes of its code, and of its image with the cross-reference table; its resource block. -/
structure Translation where
  env    : Nat
  key    : Nat × Nat × Nat
  id     : Nat
  base   : Nat
  len    : Nat
  size   : Nat
  counts : List Byte
  deriving DecidableEq, Repr, Inhabited

/-- The schedulers' state. -/
structure Sched where
  tasks    : List Task := []
  nextTask : Nat := 1
  accepted : Nat := 0
  tiles    : List TileEntry := []
  /-- Rename buffers in use: base and envelope (R336). -/
  buffers  : List (Nat × Nat) := []
  nextBuf  : Nat := 0
  /-- Round-robin position of each die's scheduler (R338). -/
  robin    : List Nat := [0, 0, 0, 0]
  transls  : List Translation := []
  /-- Pipeline moves in progress: envelope, pipe, block recalled, task of the fullest stage (R341). -/
  moves    : List (Nat × Nat × Nat × Nat) := []
  nextBlk  : Nat := 1
  placeSeq : Nat := 0
  deriving DecidableEq, Repr, Inhabited

/-! ## The package -/

/-- One envelope: the settings of R362, root table (R381), debugger (R380), mapped bytes charged by
the device. -/
structure Envelope where
  id       : Nat
  memquota : Nat := 0
  ipool    : Nat := 0
  tpool    : Nat := 0
  irefill  : Nat := 0
  trefill  : Nat := 0
  debt     : Nat := 0
  landtime : Nat := 500000
  saveres  : Nat := 0
  rename   : Nat := 0
  captab   : Nat := 0
  capn     : Nat := 0
  weight   : Nat := 1
  hbmmin   : Nat := 0
  hbmmax   : Nat := 100
  root     : Nat := 0
  debug    : Bool := false
  /-- Core cycles of its resident blocks over the last 1 ms: time and cycles, newest first (R339). -/
  usage    : List (Nat × Nat) := []
  deriving DecidableEq, Repr, Inhabited

/-- A Bridle port (R395, R396, R417): whether it is up, its lanes, the flits in a row whose CRC has failed here, those kept for
replay, the last destination. -/
structure Port where
  up     : Bool := true
  lanes  : Nat := 2
  fails  : Nat := 0
  /-- The flit that its other side rejects, by destination, channel and number, and how often in a row. -/
  reject : Option (Nat × Nat × Nat) := none
  resent : Nat := 0
  kept   : List Flit := []
  last   : Nat := 0
  deriving DecidableEq, Repr, Inhabited

/-- The fabric and the pod (R395 to R398, R278). -/
structure Fabric where
  ports      : List (Nat × Port) := []
  /-- Next expected sequence number by source and channel. -/
  expected   : List (Nat × Nat × Nat) := []
  members    : List Nat := []
  pkgid      : Nat := 0
  quarantine : List Nat := []
  ackto      : Nat := 100000
  /-- Flits handed to the ports, and flits accepted from them, oldest first. -/
  sent       : List (Nat × Flit) := []
  received   : List Flit := []
  /-- The next number of a flit by destination and channel, and messages that wait for a route, flit by flit (R396). -/
  next       : List (Nat × Nat × Nat) := []
  waiting    : List Flit := []
  /-- The payload so far of a message of several flits, by source and channel (R395). -/
  parts      : List (Nat × Nat × List Byte) := []
  /-- Accesses of other packages that are held: for a page that is not open yet, for tokens, or for an entry (R271, R273,
  R277). -/
  held       : List (Nat × RemoteReq) := []
  deriving DecidableEq, Repr, Inhabited

/-- The fault-queue registers of a die (R393). -/
structure FaultQueue where
  base : Nat := 0
  log  : Nat := 6
  tail : Nat := 0
  head : Nat := 0
  deriving DecidableEq, Repr, Inhabited

/-- The host side (R390 to R394). -/
structure HostSide where
  trained  : Bool := false
  width    : Nat := 16
  rate     : Nat := 128
  /-- Function to envelope. -/
  fns      : List (Nat × Nat) := []
  /-- Die, queue to envelope, mailbox (R326). -/
  queues   : List (Nat × Nat × Nat × Nat) := []
  /-- DROPS by die and queue. -/
  drops    : List (Nat × Nat × Nat) := []
  fqs      : List FaultQueue := [{}, {}, {}, {}]
  /-- MSI-X firings: function and vector, oldest first. -/
  msix     : List (Nat × Nat) := []
  /-- BAR0 words without behaviour of their own: function, offset, value (R391). -/
  words    : List (Nat × Nat × DWord) := []
  /-- Accesses of the host that are held: for a page that is not open yet (R277). -/
  held     : List (Nat × HostReq) := []
  deriving DecidableEq, Repr, Inhabited

/-- A black-box ring: entries by index modulo 4,096 as bytes, and BBIDX (R421, R422). -/
structure BlackBox where
  ring  : Memory := []
  bbidx : Nat := 0
  deriving DecidableEq, Repr, Inhabited

/-- A correction counter of one structure and die: all corrections, those since the last entry, the
last address, and the time of the last entry (R413). -/
structure Corrections where
  store   : Nat
  die     : Nat
  count   : Nat := 0
  pending : Nat := 0
  last    : Nat := 0
  entry   : Option Nat := none
  deriving DecidableEq, Repr, Inhabited

/-- Storage units that hold an error (R412 to R415): 32 bytes of memory at a physical address; of a block, a
thread's register, a uniform register, a tile, 8 bytes of its accumulator rows, an exact accumulator, 8 bytes of its
scratchpad; a parked thread's registers in parking slots (R238), its entry of the wait table; an entry of a black box; 8 bytes of
a dirty line in a core's L1, 8 bytes of an L2 slice; the entry of an envelope's tile in the dependence table. -/
inductive ErrUnit where
  | mem (unit : Nat)
  | reg (blk tid n : Nat)
  | ureg (blk n : Nat)
  | tile (blk n : Nat)
  | row (blk n : Nat)
  | xsum (blk n : Nat)
  | scratch (blk unit : Nat)
  | slot (blk tid : Nat)
  | ring (die entry : Nat)
  | wait (blk tid : Nat)
  | l1 (core word : Nat)
  | l2 (word : Nat)
  | dep (env tile : Nat)
  deriving DecidableEq, Repr, Inhabited

/-- Errors and retirement (R413 to R417). `bad` and `soft` are the units with an uncorrectable and
with a correctable error. -/
structure Health where
  bad        : List ErrUnit := []
  soft       : List ErrUnit := []
  counts     : List Corrections := []
  /-- Corrected errors of a frame: die, frame, times (R416). -/
  frames     : List (Nat × Nat × List Nat) := []
  candidates : List (Nat × Nat) := []
  retired    : List (Nat × Nat) := []
  threshold  : Nat := 16
  /-- Spares used of each boundary lane group, lanes repaired (R417). -/
  spares     : List (Nat × Nat × Nat) := []
  /-- Lane repairs recorded in flash: link and lane. -/
  repairs    : List (Link × Nat) := []
  lost       : List Nat := []
  boxes      : List BlackBox := [{}, {}, {}, {}]
  /-- Dies held in reset, and a package that accepts no launch until a warm reset (R418, R434). -/
  held       : List Nat := []
  deriving DecidableEq, Repr, Inhabited

/-- Flash, firmware and the side-band port (R427 to R431, R435). -/
structure Firmware where
  slotA    : List Byte := []
  slotB    : List Byte := []
  activeB  : Bool := false
  keyHash  : Nat := 0
  rollback : Nat := 0
  rom      : List Byte := []
  /-- The image that runs; none when no slot was accepted. -/
  running  : Option (List Byte) := none
  revision : Nat := 0
  bootFail : Bool := false
  /-- Dies with an unread event that asserts ALERT_N, beside a boot failure (R435). -/
  alerts   : List Nat := []
  eid      : Nat := 0
  address  : Nat := 0
  /-- An update is being written into the inactive slot (R430). -/
  updating : Bool := false
  /-- The readings that change once a millisecond: sensor and value (R433). -/
  readings : List (Sensor × Nat) := []
  deriving DecidableEq, Repr, Inhabited

/-- Clock and power (R4, R6, R432). -/
structure Clock where
  /-- %time in ns. -/
  time    : Nat := 0
  /-- Core cycles times 1,000 since reset: %clock counts them whole. -/
  kcyc    : Nat := 0
  /-- Thousandths of core cycles of the next ns that have passed. -/
  sub     : Nat := 0
  mhz     : Nat := 2700
  limit   : Nat := 3000
  /-- The last hundred measurements, newest first (R432). -/
  watts   : List Nat := []
  /-- Measurements in a row with the average below 97 % of the limit. -/
  calm    : Nat := 0
  /-- Held HBM requests at the clock's floor. -/
  hold    : Bool := false
  measured : Nat := 0
  deriving DecidableEq, Repr, Inhabited

/-- What the package sends out: a reply of the side-band port, an answer to the host, to a peer. -/
inductive Output where
  | reply (code : Nat) (body : List Byte)
  | host (ok : Bool) (body : List Byte)
  | peer (pkg : Nat) (ok : Bool) (body : List Byte)
  /-- An access of a package is answered MOVED (R277). -/
  | moved (pkg : Nat)
  /-- An access of a package that is no member of the pod, or is quarantined, is answered REVOKED (R397). -/
  | revoked (pkg : Nat)
  /-- A request to the sender on a port to replay from a sequence number (R396). -/
  | replay (port source channel seq : Nat)
  /-- The debugger is told of a BKPT: launch, %bid, the threads at it, its code (R380). -/
  | bkpt (task bid : Nat) (tids : List Nat) (code : Word)
  /-- What a debugger's read of a selector answers (R380). -/
  | debugger (value : Nat)
  | thermtrip
  deriving DecidableEq, Repr, Inhabited

/-- The issue that stands next: the block, whether it is its handler, the plait, and the threads by
ascending rank (R146). -/
structure Issue where
  blk     : Nat
  handler : Bool := false
  plait   : Nat := 0
  ths     : List (Nat × Nat)
  /-- Bytes of the stored instruction, and the instruction as a word, known at its fetch (R93). -/
  len     : Nat := 0
  word    : Option (Nat × CWord) := none
  deriving DecidableEq, Repr, Inhabited

/-- The state of one package. -/
structure State where
  clock   : Clock := {}
  /-- Memory by physical address (R389); from 2^56 on, storage of the device's own: rename buffers,
  the save reserve, translations. -/
  mem     : Memory := []
  blocks  : List Block := []
  sched   : Sched := {}
  eng     : Engines := {}
  coh     : Coherence := {}
  envs    : List Envelope := []
  fabric  : Fabric := {}
  host    : HostSide := {}
  health  : Health := {}
  fw      : Firmware := {}
  /-- Frozen (R420); module power removed (R432); launch queues accept messages (R434 step 8). -/
  frozen  : Bool := false
  dark    : Bool := false
  accepts : Bool := true
  /-- The model's own fields (log 2, log 3): free values drawn so far, events set to happen next,
  the issue that stands next, the second issue of its cycle and the first once it is made (R220), what was sent out. -/
  choices : Nat := 0
  agenda  : List Instr := []
  cur     : Option Issue := none
  mate    : Option Issue := none
  ahead   : Option Issue := none
  /-- Payouts that the charges of their cycle go before: block, whether of the traffic reel, amount (R118). -/
  pays    : List (Nat × Bool × Nat) := []
  outputs : List Output := []
  deriving DecidableEq, Repr, Inhabited

/-- Why a step stops the machine. -/
inductive Fault where
  /-- Raised by `step` in a frozen package with no reset on the agenda: every clock but the management
  domain's has stopped (R420). Safe: the machine itself takes no step. -/
  | frozen
  /-- Raised by `step` when module power is removed (R432). Safe: the machine itself takes no step. -/
  | noPower
  deriving DecidableEq, Repr

/-- Why a step has no meaning. -/
inductive Refusal where
  /-- Raised by an arm of `exec` whose instruction has no meaning yet. Safe. -/
  | notModelled (mnemonic : String)
  deriving DecidableEq, Repr

/-- A RESET event entry (R421 to R423) as ring bytes: KIND 0x01, ARG 0 at a cold reset, at %time 0. -/
def resetBox : BlackBox := { ring := [(15, 1#8)], bbidx := 1 }

/-- The package right after a cold reset (R434), no context resident. -/
def State.reset : State :=
  { clock := { time := 0, kcyc := 0, mhz := 2700, limit := 3000, watts := [], calm := 0, hold := false, measured := 0 }
    mem := []
    blocks := []
    sched := { nextTask := 1 }
    eng := {}
    coh := { rlc := [0, 0, 0, 0] }
    envs := []
    fabric := { ports := [], expected := [], members := [], pkgid := 0, quarantine := [], ackto := 100000, sent := [] }
    host := { trained := true }
    health := { threshold := 16, boxes := [resetBox, resetBox, resetBox, resetBox] }
    fw := { running := some [] }
    frozen := false, dark := false, accepts := true
    choices := 0, agenda := [], cur := none, outputs := [] }

end Sys2Proof.Machine
end

