-- ==== Sys2Proof/Machine/Mem.lean ====
section
/-! DEFINITION. Sparse memory in its canonical form: addresses strictly rising, no byte 0 listed. -/

namespace Sys2Proof.Machine

/-- The byte at an address; an unlisted one reads 0 (R235, R434 step 3). -/
def Memory.get : Memory → Nat → Byte
  | [], _ => 0#8
  | (k, b) :: m, a => if k = a then b else if a < k then 0#8 else Memory.get m a

/-- Writing a byte; writing 0 takes the entry out. -/
def Memory.set : Memory → Nat → Byte → Memory
  | [], a, x => if x = 0#8 then [] else [(a, x)]
  | (k, b) :: m, a, x =>
    if a < k then (if x = 0#8 then (k, b) :: m else (a, x) :: (k, b) :: m)
    else if a = k then (if x = 0#8 then m else (a, x) :: m)
    else (k, b) :: Memory.set m a x

/-- The canonical form. -/
def Memory.wf : Memory → Bool
  | [] => true
  | (k, b) :: m => b != 0#8 && m.all (fun c => decide (k < c.1)) && Memory.wf m

/-- n bytes from an address on. -/
def Memory.read (m : Memory) (a : Nat) : Nat → List Byte
  | 0 => []
  | n + 1 => m.get a :: Memory.read m (a + 1) n

/-- Writing bytes from an address on. -/
def Memory.write : Memory → Nat → List Byte → Memory
  | m, _, [] => m
  | m, a, b :: bs => Memory.write (m.set a b) (a + 1) bs

/-- A little-endian value of n bytes (R8). -/
def Memory.val (m : Memory) (a n : Nat) : Nat := ofBytesLE (m.read a n)

def Memory.put (m : Memory) (a n x : Nat) : Memory := m.write a (toBytesLE n x)

/-- Bytes [a, a + n) set to zero. -/
def Memory.clear (m : Memory) (a n : Nat) : Memory := m.filter fun c => !decide (a ≤ c.1 ∧ c.1 < a + n)

/-- The listed bytes of [a, a + n), moved so that a becomes b. -/
def Memory.slice (m : Memory) (a n b : Nat) : Memory :=
  (m.filter fun c => decide (a ≤ c.1 ∧ c.1 < a + n)).map fun c => (c.1 - a + b, c.2)

/-- Writing back all of a slice of n bytes at a. -/
def Memory.overlay (m : Memory) (a n : Nat) (sl : Memory) : Memory :=
  sl.foldl (fun m c => m.set c.1 c.2) (m.clear a n)

end Sys2Proof.Machine
end

