-- ==== Sys2Proof/Machine/Tokens.lean ====
section
/-! DEFINITION. Places, what a physical address reaches, and the tokens, directories and rounds of a line's home (R2, R269 to
R275, R389). -/

namespace Sys2Proof.Machine

/-! ## Lists keyed by numbers -/

/-- The first element that meets a test, replaced; the others as they stand. -/
def updFirst {α : Type} (p : α → Bool) (f : α → α) : List α → List α
  | [] => []
  | x :: xs => if p x then f x :: xs else x :: updFirst p f xs

def setAt {α : Type} (n : Nat) (x : α) (xs : List α) : List α := xs.set n x

/-- Insertion of an element before the first it does not come after. -/
def insertBy {α : Type} (le : α → α → Bool) (x : α) : List α → List α
  | [] => [x]
  | y :: ys => if le x y then x :: y :: ys else y :: insertBy le x ys

/-- A stable sort. -/
def sortBy {α : Type} (le : α → α → Bool) : List α → List α
  | [] => []
  | x :: xs => insertBy le x (sortBy le xs)

/-- The greatest of a list by a key; the first of several. -/
def maxBy {α : Type} (key : α → Nat) : List α → Option α
  | [] => none
  | x :: xs =>
    match maxBy key xs with
    | none => some x
    | some y => if key x < key y then some y else some x

def minBy {α : Type} (key : α → Nat) : List α → Option α
  | [] => none
  | x :: xs =>
    match minBy key xs with
    | none => some x
    | some y => if key y < key x then some y else some x

def roundUpTo (n k : Nat) : Nat := (n + k - 1) / k * k

/-! ## Places (R2, R389, R438) -/

def dieOfCore (core : Nat) : Nat := core / Config.coresPerDie
def clusterOfCore (core : Nat) : Nat := core / Config.coresPerCluster

/-- Storage of the device's own, outside the physical addresses of R389 (log 4). -/
def deviceBase : Nat := 2 ^ 56
def renameBase : Nat := 2 ^ 56
def reserveBase : Nat := 2 ^ 57
def translBase : Nat := 2 ^ 58

/-- Where a physical address lies (R389). -/
inductive Home where
  | die (n : Nat)
  | host
  | package (n : Nat)
  | device
  deriving DecidableEq, Repr

/-- What a physical address reaches; none when nothing. A retired frame reaches nothing (R416). -/
def State.homeOf (s : State) (pa : Nat) : Option Home :=
  if deviceBase ≤ pa then some .device
  else
    let pkg := pa / 2 ^ 46
    let off := pa % 2 ^ 45
    let host := pa / 2 ^ 45 % 2 == 1
    if pkg = s.fabric.pkgid then
      if host then some .host
      else if off < Config.packageBytes then
        let die := off / Config.dieBytes
        if s.health.retired.contains (die, off % Config.dieBytes / 65536) then none else some (.die die)
      else none
    else if s.fabric.members.contains pkg && !host && decide (off < Config.packageBytes) then
      some (.package pkg)
    else none

/-! ## Tokens (R270) -/

/-- A line's home die, when this package homes it. -/
def State.lineDie (s : State) (line : Nat) : Option Nat :=
  match s.homeOf (128 * line) with
  | some (.die d) => some d
  | _ => none

/-- The L1s of a die that hold tokens of a line. -/
def State.holders (s : State) (die line : Nat) : List L1Line :=
  ((s.coh.tokens.find? fun t => t.die == die && t.line == line).map (·.l1)).getD []

/-- A line in the L1 of a core. -/
def State.l1 (s : State) (core line : Nat) : L1Line :=
  ((s.holders (dieOfCore core) line).find? (·.core == core)).getD { core, n := 0 }

/-- The tokens that the token home of a die holds, and whether it holds the owner token. -/
def State.homeTokens (s : State) (die line : Nat) : Nat × Bool :=
  let l1 := s.holders die line
  (Config.tokensPerLine - (l1.map (·.n)).foldl (· + ·) 0, !l1.any (·.owner))

/-- The holders of a line on a die set; an L1 without tokens is not listed. -/
def State.setHolders (s : State) (die line : Nat) (l1 : List L1Line) : State :=
  let l1 := l1.filter fun h => h.n != 0
  let others := s.coh.tokens.filter fun t => !(t.die == die && t.line == line)
  { s with coh := { s.coh with tokens := if l1.isEmpty then others else others ++ [{ die, line, l1 }] } }

/-- A holder of a line on a die changed, or listed anew. -/
def State.modHolder (s : State) (die line core : Nat) (f : L1Line → L1Line) : State :=
  let l1 := s.holders die line
  s.setHolders die line
    (if l1.any (·.core == core) then l1.map fun h => if h.core = core then f h else h else l1 ++ [f { core, n := 0 }])

/-- Tokens of a line taken from a holder of a die (none: the token home) and given to another; the data goes with the
owner token, to a token home it is written back. -/
def State.moveTokens (s : State) (die line : Nat) (src dst : Option Nat) (n : Nat) (owner : Bool) : State :=
  let dirty := owner && src.any fun c => (s.l1 c line).dirty
  let s := match src with
    | none => s
    | some c => s.modHolder die line c fun h => { h with n := h.n - n, owner := h.owner && !owner, dirty := h.dirty && !owner }
  match dst with
  | none => s
  | some c => s.modHolder die line c fun h => { h with n := h.n + n, owner := h.owner || owner, dirty := h.dirty || dirty }

/-- All tokens of a line on a die return to the token home, with the data (R270). -/
def State.gather (s : State) (die line : Nat) : State := s.setHolders die line []

/-! ## Directories and rounds (R273, R274) -/

/-- A line's region and its number in it. -/
def regionOf (line : Nat) : Nat × Nat := (line / 4, line % 4)

def State.region? (s : State) (region : Nat) : Option Region := s.coh.regions.find? (·.region == region)

def State.modRegion (s : State) (region : Nat) (f : Region → Region) : State :=
  { s with coh := { s.coh with regions := s.coh.regions.map fun r => if r.region = region then f r else r } }

/-- LS of a line. -/
def State.lineLs (s : State) (line : Nat) : Nat :=
  ((s.region? (regionOf line).1).map fun r => r.ls.getD (regionOf line).2 0).getD 0

def State.setLs (s : State) (line n : Nat) : State :=
  s.modRegion (regionOf line).1 fun r => { r with ls := r.ls.set (regionOf line).2 n }

/-- The places that an entry records: the clusters of CLV, and the packages; in broadcast every package of the pod that
maps the page (R273, R280, log 69). -/
def State.places (s : State) (r : Region) : List Sys2Proof.Place :=
  let cl := ((List.range 32).filter fun k => r.clv.getLsbD k).map Sys2Proof.Place.cluster
  let pk := match r.pkn with
    | 0 => []
    | 1 => [r.pkg0]
    | 2 => [r.pkg0, r.pkg1]
    | _ => s.fabric.members.filter fun p =>
        p != s.fabric.pkgid && !s.fabric.quarantine.contains p && Config.mapsPage p (r.region / 128)
  cl ++ pk.map Sys2Proof.Place.package

/-- A reader recorded in an entry. -/
def Region.record (r : Region) (p : Sys2Proof.Place) : Region :=
  match p with
  | .cluster n => { r with clv := r.clv ||| (1#32 <<< n) }
  | .package n =>
    match r.pkn with
    | 0 => { r with pkn := 1, pkg0 := n }
    | 1 => if r.pkg0 = n then r else { r with pkn := 2, pkg1 := n }
    | 2 => if r.pkg0 = n ∨ r.pkg1 = n then r else { r with pkn := 3 }
    | _ => r

/-- A place that holds no line of the region taken out of its entry: a cluster after its no-copy acknowledgement (R273,
R280), a package after its quarantine (R278). -/
def Region.forget (r : Region) (p : Sys2Proof.Place) : Region :=
  match p with
  | .cluster n => { r with clv := r.clv &&& ~~~(1#32 <<< n) }
  | .package n =>
    match r.pkn with
    | 1 => if r.pkg0 = n then { r with pkn := 0, pkg0 := 0 } else r
    | 2 => if r.pkg0 = n then { r with pkn := 1, pkg0 := r.pkg1, pkg1 := 0 }
           else if r.pkg1 = n then { r with pkn := 1, pkg1 := 0 } else r
    | _ => r

/-- A round for a line: LS becomes 2 and every recorded place is sent an invalidation. -/
def State.startRound (s : State) (line : Nat) (writer : Option Sys2Proof.Place) (answer : List Byte := []) : State :=
  match s.region? (regionOf line).1 with
  | none => s
  | some r =>
    let round : Round := { line, pending := s.places r, writer, answer, since := s.clock.time }
    { s.setLs line 2 with coh := { (s.setLs line 2).coh with rounds := s.coh.rounds ++ [round] } }

/-- The acknowledgement that a remote writer gets, with the old value for an atomic. -/
def State.ackWriter (s : State) (w : Option Sys2Proof.Place) (answer : List Byte) : State :=
  match w with
  | some (.package n) => { s with outputs := s.outputs ++ [.peer n true answer] }
  | _ => s

/-- Rounds with nothing left to wait for are over; a region that is being reclaimed goes with its last
round (R273 to R275). -/
def State.endRounds (s : State) : State :=
  let ended (r : Round) : Bool := r.pending.isEmpty && r.acking.isEmpty
  let gone := s.coh.rounds.filter ended
  let s := { s with coh := { s.coh with rounds := s.coh.rounds.filter (!ended ·) } }
  let s := gone.foldl (fun s r =>
    let s := s.ackWriter r.writer r.answer
    if s.coh.rounds.any (·.line == r.line) then s else s.setLs r.line (if r.later then 1 else 0)) s
  let free := s.coh.reclaim.filter fun g => !s.coh.rounds.any fun r => (regionOf r.line).1 == g
  { s with coh := { s.coh with
      regions := s.coh.regions.filter fun r => !free.contains r.region
      reclaim := s.coh.reclaim.filter fun g => !free.contains g } }

/-! ## Writes that are not a core's (R274) -/

/-- The lines of a range of bytes. -/
def linesOf (pa n : Nat) : List Nat := (List.range ((pa + max 1 n - 1) / 128 + 1 - pa / 128)).map (pa / 128 + ·)

/-- The L1s of the home die may be asked for their tokens of a line by the home, by R271 and R272: no persistent request of
theirs is active. -/
def State.canGather (s : State) (d line : Nat) : Bool :=
  !s.coh.reqs.any fun r => r.line == line && dieOfCore r.core == d && r.active

/-- A write of a line at its home, by no L1 of its die: the die's tokens are gathered, and the copies that are recorded are
invalidated by a round, whose end is the writer's acknowledgement (R274, log 69). -/
def State.homeTakes (s : State) (line : Nat) (writer : Option Sys2Proof.Place) (answer : List Byte := []) : State :=
  match s.lineDie line with
  | none => s
  | some d =>
    let s := s.gather d line
    if s.lineLs line = 0 then s else (s.startRound line writer answer).endRounds

/-- Every line of a range is taken from the L1s and copies that hold it. -/
def State.takeLines (s : State) (pa n : Nat) : State :=
  if s.coh.tokens.isEmpty && s.coh.regions.isEmpty then s
  else
    let t := (linesOf pa n).foldl (fun s l => s.homeTakes l none) s
    { s with coh := t.coh, outputs := t.outputs }

end Sys2Proof.Machine
end

