-- ==== Sys2Proof/Machine/Links.lean ====
section
/-! DEFINITION. Bridle's ports and flits as the package sends them (R395, R396). -/

namespace Sys2Proof.Machine

def State.port (s : State) (n : Nat) : Port := ((s.fabric.ports.find? (·.1 == n)).map (·.2)).getD {}

def State.setPort (s : State) (n : Nat) (p : Port) : State :=
  { s with fabric := { s.fabric with ports := (s.fabric.ports.filter (·.1 != n)) ++ [(n, p)] } }

/-! ## Flits -/

/-- One byte more in a CRC-64 with the ECMA-182 polynomial, the highest bit first (R395, log 17). -/
def crcByte (c : Nat) (b : Byte) : Nat :=
  (List.range 8).foldl (fun c _ => if c.testBit 63 then (2 * c % 2 ^ 64) ^^^ 0x42F0E1EBA9EA3693 else 2 * c) (c ^^^ (b.toNat * 2 ^ 56))

def crc64 (bs : List Byte) : BitVec 64 := BitVec.ofNat 64 (bs.foldl crcByte 0)

/-- The header of a flit, and the bytes that its CRC covers. -/
def flitBytes (f : Flit) : List Byte :=
  toBytesLE 8 (f.dest % 1024 + 2 ^ 10 * (f.source % 1024) + 2 ^ 20 * (f.channel % 4) + 2 ^ 22 * (f.seq % 2 ^ 24) +
    2 ^ 46 * (f.kind % 64) + 2 ^ 52 * f.payload.length) ++
    ((f.payload ++ List.replicate 112 0#8).take 112)

def flitGood (f : Flit) : Bool := decide (f.payload.length ≤ 112) && f.crc == crc64 (flitBytes f)

/-- A payload cut into pieces of 112 bytes, one at least. -/
def payloads : Nat → List Byte → List (List Byte)
  | 0, bs => [bs.take 112]
  | k + 1, bs => if bs.length ≤ 112 then [bs] else bs.take 112 :: payloads k (bs.drop 112)

/-- The number of the next flit to a package on a channel. -/
def State.nextSeq (s : State) (dest channel : Nat) : Nat :=
  ((s.fabric.next.find? fun e => e.1 == dest && e.2.1 == channel).map (·.2.2)).getD 0

/-- The flits of a message to a package, with consecutive numbers. -/
def State.flitsOf (s : State) (dest channel kind : Nat) (bs : List Byte) : List Flit :=
  (payloads bs.length bs).zipIdx.map fun x =>
    let f : Flit := { dest, source := s.fabric.pkgid, channel, seq := (s.nextSeq dest channel + x.2) % 2 ^ 24, kind, payload := x.1, crc := 0#64 }
    { f with crc := crc64 (flitBytes f) }

/-! ## Sending -/

/-- A port that is up and leads toward a package. -/
def State.route (s : State) (dest : Nat) : Option Nat :=
  (List.range Config.bridlePorts).find? fun k => (s.port k).up && Config.toward k dest

/-- Flits handed to a port: sent and kept for replay, at most 256 (R396). -/
def State.sendOn (s : State) (n : Nat) (fs : List Flit) : State :=
  let p := s.port n
  let kept := p.kept ++ fs
  let s := s.setPort n { p with kept := kept.drop (kept.length - Config.replayFlits), last := ((fs.map (·.dest)).getLast?).getD p.last }
  { s with fabric := { s.fabric with sent := s.fabric.sent ++ fs.map fun f => (n, f) } }

/-- Flits go by a port toward their package, a message of several on one; where none leads there they wait (R396). -/
def State.sendTo (s : State) (dest : Nat) (fs : List Flit) : State :=
  match s.route dest with
  | some n => s.sendOn n fs
  | none => { s with fabric := { s.fabric with waiting := s.fabric.waiting ++ fs } }

/-- A message to a package on the data channel, for a place of its memory: a read or an atomic, or a write (R395, R397). -/
def State.tell (s : State) (dest : Nat) (write : Bool) (pa : Nat) : State :=
  let (kind, bs) := Config.message write pa (s.nextSeq dest 2)
  let fs := s.flitsOf dest 2 (kind % 64) bs
  let others := s.fabric.next.filter fun e => !(e.1 == dest && e.2.1 == 2)
  let s := { s with fabric := { s.fabric with next := others ++ [(dest, 2, (s.nextSeq dest 2 + fs.length) % 2 ^ 24)] } }
  s.sendTo dest fs

/-- An access is sent to its home, where that is another package. -/
def State.tellAt (s : State) (write : Bool) (pa : Nat) : State :=
  match s.homeOf pa with
  | some (.package n) => s.tell n write pa
  | _ => s

/-- A port that is up leads to the home of an address, where that is another package. -/
def State.reached (s : State) (pa : Nat) : Bool :=
  match s.homeOf pa with
  | some (.package n) => (s.route n).isSome
  | _ => true

/-- Flits without the oldest message to a package, whose last flit alone is not full. -/
def dropMessage (dest : Nat) : List Flit → List Flit
  | [] => []
  | f :: fs => if f.dest = dest then (if f.payload.length < 112 then fs else dropMessage dest fs) else f :: dropMessage dest fs

/-- The oldest message to a package that is kept has been acknowledged: it needs no replay (R396). -/
def State.acked (s : State) (dest : Nat) : State :=
  match s.fabric.ports.find? fun p => p.2.kept.any (·.dest == dest) with
  | none => s
  | some (n, p) => s.setPort n { p with kept := dropMessage dest p.kept }

/-- The oldest message to the home of an address has been acknowledged, where that is another package. -/
def State.ackedAt (s : State) (pa : Nat) : State :=
  match s.homeOf pa with
  | some (.package n) => s.acked n
  | _ => s

end Sys2Proof.Machine
end

