-- ==== Sys2Proof/Machine/Ops.lean ====
section
/-! DEFINITION. The shared operations over the state: blocks and threads, memory and translation,
reels, the black box, taking a trap and returning from one, and the ends of blocks and tasks. -/

namespace Sys2Proof.Machine

/-! ## Blocks and threads -/

def State.block? (s : State) (id : Nat) : Option Block := s.blocks.find? (·.id == id)

def State.modBlock (s : State) (id : Nat) (f : Block → Block) : State :=
  { s with blocks := updFirst (·.id == id) f s.blocks }

def State.task? (s : State) (id : Nat) : Option Task := s.sched.tasks.find? (·.id == id)

def State.modTask (s : State) (id : Nat) (f : Task → Task) : State :=
  { s with sched := { s.sched with tasks := updFirst (·.id == id) f s.sched.tasks } }

def State.env (s : State) (id : Nat) : Envelope := (s.envs.find? (·.id == id)).getD { id }

/-- The settings of an envelope changed; one not yet listed starts from the defaults (R362). -/
def State.modEnv (s : State) (id : Nat) (f : Envelope → Envelope) : State :=
  if s.envs.any (·.id == id) then { s with envs := updFirst (·.id == id) f s.envs }
  else { s with envs := s.envs ++ [f { id }] }

/-- A thread of the block, its handler thread under the index block size (R374). -/
def Block.th (b : Block) (tid : Nat) : Thread :=
  if tid = b.cfg.bsize then b.handler else b.threads.getD tid {}

def Block.modTh (b : Block) (tid : Nat) (f : Thread → Thread) : Block :=
  if tid = b.cfg.bsize then { b with handler := f b.handler }
  else { b with threads := b.threads.modify tid f }

def Block.mapTh (b : Block) (f : Nat → Thread → Thread) : Block :=
  { b with threads := b.threads.mapIdx f }

def State.modTh (s : State) (blk tid : Nat) (f : Thread → Thread) : State :=
  s.modBlock blk (·.modTh tid f)

/-- The %tids of the threads that meet a test, ascending. -/
def Block.tids (b : Block) (p : Thread → Bool) : List Nat :=
  (b.threads.zipIdx.filter fun x => p x.1).map (·.2)

def Block.live (b : Block) : List Nat := b.tids (·.st != .exited)

/-- Allocated counts (R233). -/
def LaunchRec.vAlloc (r : LaunchRec) : Nat := roundUpTo r.vregs 8
def LaunchRec.uAlloc (r : LaunchRec) : Nat := roundUpTo r.uregs 16
def LaunchRec.rowAlloc (r : LaunchRec) : Nat := roundUpTo r.accrows 32
def LaunchRec.scratchAlloc (r : LaunchRec) : Nat := roundUpTo r.scratch 4096
/-- The flags of R305. -/
def LaunchRec.flag (r : LaunchRec) (k : Nat) : Bool := r.flags.testBit k
def LaunchRec.versioned (r : LaunchRec) : Bool := r.flag 0
def LaunchRec.laneOff (r : LaunchRec) : Bool := r.flag 3
def LaunchRec.super (r : LaunchRec) : Bool := r.flag 7

/-- P(k): level-0 units below one unit of level k + 1 (R309). -/
def LaunchRec.below (r : LaunchRec) (k : Nat) : Nat := (((r.levels.drop 1).take k).map (·.1)).foldl (· * ·) 1

/-- The number of blocks of the grid (R307). -/
def LaunchRec.grid (r : LaunchRec) : Nat := r.below (r.levels.length - 1)

/-- The blocks of one cluster group: the unit of the highest level of cluster domain (R308). -/
def LaunchRec.groupSize (r : LaunchRec) : Nat :=
  match maxBy id ((List.range r.levels.length).filter fun k =>
      decide (0 < k) && ((r.levels.getD k (0, 0)).2 == 1)) with
  | some k => r.below k
  | none => 1

/-- The dependence scope (R310). -/
def LaunchRec.depScope (r : LaunchRec) : Nat := max 3 ((r.levels.map (·.2)).foldl max 0)

/-- The blocks of a block's cluster group, itself included. -/
def State.group (s : State) (b : Block) : List Block :=
  let g := b.cfg.groupSize
  s.blocks.filter fun x => x.task == b.task && x.bid / g == b.bid / g

/-- The placement of a block holds lent bank space: that of parked threads that are on their core still (R237, R239, R247). -/
def State.borrows (s : State) (b : Block) : Bool :=
  b.place.resident && s.blocks.any fun x => x.place.resident && !x.ended && x.id != b.id &&
    x.threads.any fun th => th.inSlot && th.lentTo == b.place.seq

/-- The address of the next code byte after the segment, and the code's base (R93). -/
def Block.codeBase (b : Block) : DWord := BitVec.ofNat 64 b.cfg.code
def Block.bound (b : Block) : DWord := BitVec.ofNat 64 b.cfg.bound

def Block.die (b : Block) : Nat := dieOfCore b.place.core
def Block.cluster (b : Block) : Nat := clusterOfCore b.place.core

/-- %ackc (R165). -/
def Block.ackc (b : Block) : Nat := b.acks.length

/-- %flags.PEND of a thread for one flag (R68). -/
def Thread.pend (th : Thread) (k : Nat) : Nat := th.flags.getD k 0

/-! ## Free values -/

/-- The next free value of a kind, and the state with the counter advanced (log 3). -/
def State.free {α : Type} (s : State) (f : Nat → α) : α × State :=
  (f s.choices, { s with choices := s.choices + 1 })

/-! ## The black box (R421 to R423) and corrections (R413) -/

/-- One 16-byte entry written to a die's ring. -/
def BlackBox.push (x : BlackBox) (bytes : List Byte) : BlackBox :=
  { ring := x.ring.write (16 * (x.bbidx % Config.blackBoxEntries)) bytes, bbidx := x.bbidx + 1 }

/-- An event entry, with its continuation where the kind has one: (VAL0, VAL1). -/
def State.event (s : State) (die kind src arg info : Nat) (cont : Option (Nat × Nat) := none) : State :=
  let head := toBytesLE 8 s.clock.time ++ toBytesLE 4 arg ++ toBytesLE 2 src ++
    toBytesLE 1 (info % 128 + if cont.isSome then 128 else 0) ++ toBytesLE 1 kind
  let upd (x : BlackBox) : BlackBox :=
    match cont with
    | none => x.push head
    | some (v0, v1) => (x.push head).push (toBytesLE 8 v0 ++ toBytesLE 7 v1 ++ [0xFF#8])
  -- an entry that is written whole holds no error any more (R415, R422)
  let k := (s.health.boxes.getD die {}).bbidx % Config.blackBoxEntries
  let fresh (u : ErrUnit) : Bool := u != .ring die k && (cont.isNone || u != .ring die ((k + 1) % Config.blackBoxEntries))
  { s with health := { s.health with boxes := s.health.boxes.modify die upd, bad := s.health.bad.filter fresh, soft := s.health.soft.filter fresh } }

/-- ALERT_N is asserted until the die's ring is read (R435). -/
def State.raiseAlert (s : State) (die : Nat) : State :=
  if s.fw.alerts.contains die then s else { s with fw := { s.fw with alerts := s.fw.alerts ++ [die] } }

/-- The HBM frame of a physical address: its die and its 64 KiB frame on the die (R416). -/
def frameOf (pa : Nat) : Nat × Nat :=
  let off := pa % 2 ^ 45
  (off / Config.dieBytes, off % Config.dieBytes / 65536)

/-- A frame of this package's HBM becomes a retirement candidate (R416). -/
def State.candidate (s : State) (pa : Nat) : State :=
  let f := frameOf pa
  let own : Bool := match s.homeOf pa with
    | some (.die _) => true
    | _ => false
  if !own then s
  else if s.health.candidates.contains f ∨ s.health.retired.contains f then s
  else (({ s with health := { s.health with candidates := s.health.candidates ++ [f] } }).event
    f.1 0x12 (Config.stackOf f.1 f.2 % 4) f.2 0).raiseAlert f.1

/-- A corrected error of a structure and die: counted, and entered at most once a millisecond (R413). -/
def State.corrected (s : State) (store die addr : Nat) : State :=
  let old := (s.health.counts.find? fun c => c.store == store && c.die == die).getD { store, die }
  let rest := s.health.counts.filter fun c => !(c.store == store && c.die == die)
  let open' := old.entry.any fun t => s.clock.time < t + 1000000
  let c : Corrections :=
    if open' then { old with count := old.count + 1, pending := old.pending + 1, last := addr }
    else { old with count := old.count + 1, pending := 0, last := addr, entry := some s.clock.time }
  let s := { s with health := { s.health with counts := rest ++ [c] } }
  if open' then s else s.event die 0x10 store (old.pending + 1) 0 (some (addr, 0))

/-- A corrected error of HBM counts against its frame: at the threshold within 24 hours the frame is a
candidate (R416). -/
def State.correctedHbm (s : State) (pa : Nat) : State :=
  let (die, frame) := frameOf pa
  let s := s.corrected 0 die pa
  let times := ((s.health.frames.find? fun f => f.1 == die && f.2.1 == frame).map (·.2.2)).getD []
  let times := s.clock.time :: times.filter fun t => decide (s.clock.time < t + 86400000000000)
  let rest := s.health.frames.filter fun f => !(f.1 == die && f.2.1 == frame)
  let s := { s with health := { s.health with frames := rest ++ [(die, frame, times)] } }
  if s.health.threshold ≤ times.length then s.candidate pa else s

/-- The protected units of a range of memory (R412, R415). -/
def unitsOf (pa n : Nat) : List Nat := (List.range ((pa + n + 31) / 32 - pa / 32)).map (pa / 32 + ·)

/-- 8 bytes meet a range. -/
def wordIn (pa n w : Nat) : Bool := decide (pa < 8 * w + 8 ∧ 8 * w < pa + n)

/-- An uncorrectable error lies in a range, in memory or in an L2 slice. -/
def State.poisoned (s : State) (pa n : Nat) : Bool :=
  !s.health.bad.isEmpty && s.health.bad.any fun u => match u with
    | .mem u => (unitsOf pa n).contains u
    | .l2 w => wordIn pa n w
    | _ => false

/-- A correctable error and an uncorrectable one of units are gone: the units are written whole (R415). -/
def State.heal (s : State) (p : ErrUnit → Bool) : State :=
  if s.health.bad.isEmpty && s.health.soft.isEmpty then s
  else { s with health := { s.health with bad := s.health.bad.filter (!p ·), soft := s.health.soft.filter (!p ·) } }

/-- An uncorrectable error of HBM lies in the unit of an address. -/
def State.hbmError (s : State) (pa : Nat) : Bool := s.health.bad.contains (.mem (pa / 32))

/-- An uncorrectable error is met at an address: the event, and the frame a candidate when it is one of HBM (R414, R416,
R423). -/
def State.uncorrected (s : State) (die pa task env consumer : Nat) : State :=
  if s.hbmError pa then (s.event die 0x11 0 task consumer (some (pa, env))).candidate pa
  else s.event die 0x11 1 task consumer (some (pa, env))

/-- The structure of an error, by the rows of R412 from 0. -/
def ErrUnit.store : ErrUnit → Nat
  | .mem _ => 0
  | .reg _ _ _ | .ureg _ _ => 2
  | .tile _ _ | .row _ _ | .xsum _ _ | .scratch _ _ | .slot _ _ | .ring _ _ | .wait _ _ | .l1 _ _ | .l2 _ | .dep _ _ => 1

/-- An uncorrectable error is met in a structure of a core, which no physical address names: consumer 0 is a thread, 1
an engine (R414, R423). -/
def State.coreError (s : State) (b : Block) (store consumer : Nat) : State :=
  s.event b.die 0x11 store b.task consumer (some (0, b.cfg.envelope))

/-- Correctable errors in units that are read: corrected, and counted (R413). -/
def State.correctUnits (s : State) (die : Nat) (p : ErrUnit → Bool) : State :=
  (s.health.soft.filter p).foldl (fun s u =>
    let s : State := { s with health := { s.health with soft := s.health.soft.filter (· != u) } }
    match u with
    | .mem k => s.correctedHbm (32 * k)
    | u => s.corrected u.store die 0) s

/-- Corrections met by a read of memory (R413). -/
def State.correctRead (s : State) (pa n : Nat) : State :=
  s.correctUnits (frameOf pa).1 fun u => match u with
    | .mem k => (unitsOf pa n).contains k
    | .l2 w => wordIn pa n w
    | _ => false

/-! ## Memory (R8, R167) -/

def State.readPa (s : State) (pa n : Nat) : List Byte := s.mem.read pa n
def State.valPa (s : State) (pa n : Nat) : Nat := ofBytesLE (s.readPa pa n)

/-- A parked thread is woken (R176): it stands to re-perform its check. -/
def Thread.wake (p : Parked → Bool) (th : Thread) : Thread :=
  match th.wait with
  | some (.parked q) =>
    if p q then { th with wait := some (.parked { q with woken := true }) } else th
  | _ => th

/-- The parked threads of the package that meet a test are woken. -/
def State.wake (s : State) (p : Parked → Bool) : State :=
  { s with blocks := s.blocks.map fun b => { b with threads := b.threads.map (Thread.wake p) } }

/-- Two byte ranges meet in a 128-byte line. -/
def sameLine (pa n q : Nat) : Bool := decide (pa / 128 ≤ q / 128 ∧ q / 128 ≤ (pa + n - 1) / 128)

/-- A write performed at its home (R167): the bytes, the end of an error that it covers whole (R415),
and the wake of the WAITADDRs that watch a line of it (R174). -/
def State.writePa (s : State) (pa : Nat) (bs : List Byte) : State :=
  let covered (u : Nat) : Bool := decide (pa ≤ 32 * u ∧ 32 * u + 32 ≤ pa + bs.length)
  let s := ({ s with mem := s.mem.write pa bs } : State).heal fun u => match u with
    | .mem u => covered u
    | .l1 _ w | .l2 w => decide (pa ≤ 8 * w ∧ 8 * w + 8 ≤ pa + bs.length)
    | _ => false
  s.wake fun q => q.kind == .waitaddr && sameLine pa bs.length q.pa

def State.putPa (s : State) (pa n x : Nat) : State := s.writePa pa (toBytesLE n x)

/-! ## Translation (R381 to R385) -/

def canonical (va : DWord) : Bool := bits va 57 7 == 0

/-- What a walk ends in (R383). -/
inductive WalkEnd where
  | leaf (e : BitVec 64) (log : Nat)
  | fault (t : TrapInfo)
  | replay (level : Nat)
  deriving DecidableEq, Repr

/-- Bits of the page offset below a level's entries. -/
def levelShift : Nat → Nat
  | 0 => 16 | 1 => 21 | 2 => 31 | _ => 44
def levelBits : Nat → Nat
  | 0 => 5 | 1 => 10 | _ => 13
/-- The alignment of the table a level's entry points to, as a power of two (R381). -/
def belowAlign : Nat → Nat
  | 1 => 8 | 2 => 13 | _ => 16

def leafPa (e : BitVec 64) : Nat := bits e 16 40 * 65536

def xlateFault (va : DWord) (level : Nat) : TrapInfo :=
  { cause := .xlateFault, addr := va, xlev := level, extra := BitVec.ofNat 64 level }

/-- One entry of a walk: its end, or the table of the next level (R382, R383). -/
def State.walkEntry (s : State) (va : DWord) (level table : Nat) : WalkEnd ⊕ Nat :=
  let pa := table + 8 * bits va (levelShift level) (levelBits level)
  let bad : WalkEnd := .fault (xlateFault va level)
  if s.homeOf table = none then .inl bad
  else if s.poisoned pa 8 then .inl (.fault { cause := .uncorrectedData, addr := va })
  else
    let e : BitVec 64 := BitVec.ofNat 64 (s.valPa pa 8)
    if !e.getLsbD 0 then .inl (if e.getLsbD 5 then .replay level else bad)
    else if bits e 56 8 != 0 || e.getLsbD 6 then .inl bad
    else if e.getLsbD 1 then
      if level = 3 ∨ leafPa e % 2 ^ levelShift level ≠ 0 ∨ s.homeOf (leafPa e) = none then .inl bad
      else .inl (.leaf e (levelShift level))
    else
      let next := bits e 8 48 * 256
      if level = 0 ∨ next % 2 ^ belowAlign level ≠ 0 then .inl bad else .inr next

/-- The walk of the tables from a level's table on. -/
def State.walkFrom (s : State) (va : DWord) : Nat → Nat → WalkEnd
  | 0, table => match s.walkEntry va 0 table with
    | .inl r => r
    | .inr _ => .fault (xlateFault va 0)
  | level + 1, table => match s.walkEntry va (level + 1) table with
    | .inl r => r
    | .inr next => s.walkFrom va level next

/-- A walk of an envelope's tables. -/
def State.walk (s : State) (env : Nat) (va : DWord) : WalkEnd := s.walkFrom va 3 (s.env env).root

/-- The permission of a leaf for a kind of access, and the quarantine of its package (R383). -/
def State.leafFault (s : State) (e : BitVec 64) (va : DWord) (k : Kind) : Option TrapInfo :=
  let ok := match k with
    | .read => e.getLsbD 2
    | .write => e.getLsbD 3
    | .atomic => e.getLsbD 2 && e.getLsbD 3
    | .fetch => e.getLsbD 4
  let pkg := leafPa e / 2 ^ 46
  if !ok then some { cause := .accessViolation, addr := va, extra := 2#64 }
  else if s.fabric.quarantine.contains pkg then
    some { cause := .accessRevoked, addr := va, extra := BitVec.ofNat 64 pkg }
  else none

def TlbEntry.covers (e : TlbEntry) (env : Nat) (va : DWord) : Bool :=
  e.env == env && decide (e.va ≤ va.toNat ∧ va.toNat < e.va + 2 ^ e.log)

/-- The entry of a core's first-level TLB, or of its cluster's second level (R384). -/
def State.tlbFind (s : State) (core env : Nat) (va : DWord) : Option TlbEntry :=
  match s.eng.tlb.find? fun e => e.unit == core && e.covers env va with
  | some e => some e
  | none => s.eng.tlb.find? fun e => e.unit == 1024 + clusterOfCore core && e.covers env va

/-- An entry put into one TLB; past its size the oldest goes (log 6). -/
def tlbAdd (tlb : List TlbEntry) (e : TlbEntry) (size : Nat) : List TlbEntry :=
  let mine := tlb.filter (·.unit == e.unit)
  let others := tlb.filter (·.unit != e.unit)
  e :: mine.take (size - 1) ++ others

/-- A valid leaf put into both levels (R384). -/
def State.tlbFill (s : State) (core env : Nat) (va : DWord) (leaf : BitVec 64) (log : Nat) : State :=
  let e : TlbEntry := { unit := core, env, va := va.toNat / 2 ^ log * 2 ^ log, log, leaf }
  let tlb := tlbAdd s.eng.tlb e Config.l1Tlb
  let tlb := tlbAdd tlb { e with unit := 1024 + clusterOfCore core } Config.l2Tlb
  { s with eng := { s.eng with tlb } }

/-- The physical address under a leaf. -/
def paOf (leaf : BitVec 64) (log : Nat) (va : DWord) : Nat :=
  leafPa leaf / 2 ^ log * 2 ^ log + va.toNat % 2 ^ log

/-- The page of a migration that a physical address lies in, if it must be re-translated or wait:
the old home answers MOVED after its freeze point, the new home holds accesses until it opens (R277). -/
def State.moving (s : State) (pa : Nat) : Bool :=
  s.eng.migrs.any fun m =>
    decide (m.old ≤ pa ∧ pa < m.old + m.len) || (decide (m.target ≤ pa ∧ pa < m.target + m.len) && !m.open')

/-- The end of a translation asked by a thread or an engine. -/
inductive Res where
  | ok (pa : Nat)
  | bad (t : TrapInfo)
  | miss
  | moved
  deriving DecidableEq, Repr

/-- The image of a re-translation that holds an address of an envelope (R315, log 51): its physical address. -/
def State.imagePa (s : State) (env : Nat) (va : DWord) : Option Nat :=
  (s.sched.transls.find? fun t => t.env == env && decide (t.base ≤ va.toNat ∧ va.toNat < t.base + t.size)).map fun t =>
    translBase + 2 ^ 33 * t.id + (va.toNat - t.base)

/-- The level at which a page of a size has its leaf. -/
def leafLevel (log : Nat) : Nat := if log = 31 then 2 else if log = 21 then 1 else 0

/-- A translation through the TLBs of a core (R383, R384); the image of a re-translation is read and executed (R80). -/
def State.translate (s : State) (core env : Nat) (va : DWord) (k : Kind) : Res :=
  match s.imagePa env va with
  | some pa => if k = .read ∨ k = .fetch then .ok pa else .bad { cause := .accessViolation, addr := va, extra := 2#64 }
  | none =>
  match s.tlbFind core env va with
  | none => .miss
  | some e =>
    match s.leafFault e.leaf va k with
    | some t => .bad t
    | none =>
      let pa := paOf e.leaf e.log va
      match s.homeOf pa with
      | none => .bad (xlateFault va (leafLevel e.log))
      | some _ => if s.moving pa then .moved else .ok pa

/-- Where an address of a page on the move lies: at the new home once it is open, nowhere between the freeze point and then,
nor at a new home that holds its accesses (R277). -/
def State.newHome (s : State) (pa : Nat) : Option Nat :=
  match s.eng.migrs.find? fun m => decide (m.old ≤ pa ∧ pa < m.old + m.len) with
  | some m => if m.open' then some (m.target + (pa - m.old)) else none
  | none => if s.moving pa then none else some pa

/-- The end of an engine's translation by a leaf: a fault of the leaf, an address that reaches nothing (R416), or the place of
the access, which waits while its page is on the move (R277). -/
def State.leafEnd (s : State) (e : BitVec 64) (log : Nat) (va : DWord) : WalkEnd × Option Nat :=
  let pa := paOf e log va
  if (s.homeOf pa).isNone then (.fault (xlateFault va (leafLevel log)), none) else (.replay 0, s.newHome pa)

/-- An engine leaves a walk that meets an uncorrectable error to a walker, which logs it (R414). -/
def WalkEnd.engine : WalkEnd → WalkEnd
  | .fault t => if t.cause = .uncorrectedData then .replay 0 else .fault t
  | r => r

/-- The TLBs, and on a miss a walk of its own: the engines' way (log 7). An access answered
MOVED is made at the new home (R277, log 65). -/
def State.engineXlate (s : State) (core env : Nat) (va : DWord) (k : Kind) : WalkEnd × Option Nat :=
  match s.translate core env va k with
  | .ok pa => (.replay 0, some pa)
  | .bad t => (.fault t, none)
  | .moved => match s.tlbFind core env va with
    | some e => s.leafEnd e.leaf e.log va
    | none => (.replay 0, none)
  | .miss =>
    match s.walk env va with
    | .leaf e log =>
      match s.leafFault e va k with
      | some t => (.fault t, none)
      | none => s.leafEnd e log va
    | r => (r.engine, none)

/-- The physical address of an address whatever its leaf permits, or the end of its walk (R329). -/
def State.leafOf (s : State) (core env : Nat) (va : DWord) : WalkEnd × Option Nat :=
  match s.imagePa env va, s.tlbFind core env va with
  | some pa, _ => (.replay 0, some pa)
  | none, some e => s.leafEnd e.leaf e.log va
  | none, none =>
    match s.walk env va with
    | .leaf e log => s.leafEnd e log va
    | r => (r.engine, none)

/-- The walk that serves a page on a die, made or shared (R384). -/
def State.startWalk (s : State) (die env : Nat) (va : DWord) (kind : Kind) : State × Nat :=
  let page := bits va 16 41
  match s.eng.walks.find? fun w => w.die == die && w.env == env && w.page == page with
  | some w => (s, w.id)
  | none =>
    let id := s.eng.nextWalk
    ({ s with eng := { s.eng with nextWalk := id + 1, walks := s.eng.walks ++ [{ id, die, env, page, kind }] } }, id)

/-! ## Reels and the due point (R88, R348, R349) -/

/-- Lowering one reel by a charge: the reel, its overdraft. -/
def lower (reel ov : DWord) (c : Nat) : DWord × DWord :=
  if c ≤ reel.toNat then (BitVec.ofNat 64 (reel.toNat - c), ov)
  else (0#64, BitVec.ofNat 64 (min (ov.toNat + (c - reel.toNat)) (2 ^ 64 - 1)))

/-- The block becomes due, or the due point it has takes one more reason (R349, R367). -/
def Block.makeDue (b : Block) (i t r : Bool) (now : Nat) : Block :=
  match b.due with
  | some d => { b with due := some { d with ireel := d.ireel || i, treel := d.treel || t, recalled := d.recalled || r } }
  | none => { b with due := some { ireel := i, treel := t, recalled := r, n := b.live.length, weight := 0, time := now } }

/-- When a block of a cluster group becomes due, every block of the group becomes recalled (R349). -/
def State.recallGroup (s : State) (b : Block) : State :=
  if b.cfg.groupSize ≤ 1 then s
  else (s.group b).foldl (fun s x =>
    if x.ended ∨ !x.place.resident ∨ (x.due.any (·.recalled)) then s
    else s.modBlock x.id (·.makeDue false false true s.clock.time)) s

/-- Charge of both reels for one issue or completion (R88, R164, R348). -/
def State.charge (s : State) (blk ci ct : Nat) : State :=
  if ci = 0 ∧ ct = 0 then s
  else match s.block? blk with
    | none => s
    | some b =>
      let (ir, io) := lower b.regs.ireel b.regs.iover ci
      let (tr, to') := lower b.regs.treel b.regs.tover ct
      let b := { b with
        regs := { b.regs with ireel := ir, treel := tr, iover := io, tover := to' }
        due := b.due.map fun d => { d with weight := d.weight + ci } }
      let iOut := ci != 0 && ir == 0#64
      let tOut := ct != 0 && tr == 0#64
      let was := b.due.isSome
      let b := if iOut || tOut then b.makeDue iOut tOut false s.clock.time else b
      let s := s.modBlock blk fun _ => b
      if (iOut || tOut) && !was then s.recallGroup b else s

/-- The pool of an envelope for a reel (R107, R348). -/
def Envelope.pool (e : Envelope) (t : Bool) : Nat := if t then e.tpool else e.ipool

def Envelope.setPool (e : Envelope) (t : Bool) (n : Nat) : Envelope :=
  if t then { e with tpool := n } else { e with ipool := n }

def Block.reel (b : Block) (t : Bool) : DWord := if t then b.regs.treel else b.regs.ireel

def Block.setReel (b : Block) (t : Bool) (x : DWord) : Block :=
  { b with regs := if t then { b.regs with treel := x } else { b.regs with ireel := x } }

/-- Some live thread has landed (R107). -/
def Block.someLanded (b : Block) : Bool :=
  b.threads.any fun th => match th.wait with
    | some (.landed _ _) => true
    | _ => false

/-- A reel paid above zero is no longer a reason to land, unless a thread has landed; the due point lapses with
its last reason (R107). -/
def Block.clearDue (b : Block) (t : Bool) : Block :=
  match b.due with
  | none => b
  | some d =>
    if b.reel t = 0#64 ∨ b.someLanded ∨ b.leaving.isSome then b
    else
      let d := if t then { d with treel := false } else { d with ireel := false }
      { b with due := if d.ireel || d.treel || d.recalled then some d else none }

/-- The payout of R107 after the charge of its issue. -/
def State.payout (s : State) (blk : Nat) (t : Bool) (x : Nat) : State :=
  match s.block? blk with
  | none => s
  | some b =>
    let add := min x (2 ^ 64 - 1 - (b.reel t).toNat)
    let s := s.modEnv b.cfg.envelope fun e => e.setPool t (e.pool t - add)
    s.modBlock blk fun b => (b.setReel t (b.reel t + BitVec.ofNat 64 add)).clearDue t

/-- A payout whose cycle holds a second issue of the block: the pool is lowered now, and the reel raised once that issue's
charge has applied (R118). -/
def State.payCycle (s : State) (blk : Nat) (t : Bool) (x : Nat) : State :=
  if s.mate.any (·.blk == blk) then
    let env := ((s.block? blk).map (·.cfg.envelope)).getD 0
    { s.modEnv env (fun e => e.setPool t (e.pool t - x)) with pays := s.pays ++ [(blk, t, x)] }
  else s.payout blk t x

/-- The payouts of a cycle, after its charges (R118). -/
def State.payAll (s : State) : State :=
  s.pays.foldl (fun s p =>
    let env := ((s.block? p.1).map (·.cfg.envelope)).getD 0
    (s.modEnv env fun e => e.setPool p.2.1 (e.pool p.2.1 + p.2.2)).payout p.1 p.2.1 p.2.2) { s with pays := [] }

/-- Recall of a block (R238, R340, R341). -/
def State.recall (s : State) (blk : Nat) : State :=
  match s.block? blk with
  | none => s
  | some b =>
    let b' := b.makeDue false false true s.clock.time
    let s := s.modBlock blk fun _ => b'
    if b.due.isNone then s.recallGroup b' else s

/-! ## Causes (R370) -/

def causeCode : Cause → Nat
  | .illegalOp => 0x01 | .reservedField => 0x02 | .illegalType => 0x03 | .illegalGuard => 0x04
  | .runOffEnd => 0x05 | .intDiv0 => 0x08 | .regIndex => 0x09 | .misaligned => 0x10
  | .scratchBounds => 0x11 | .xlateFault => 0x12 | .accessViolation => 0x13 | .accessRevoked => 0x14
  | .tileUndeclared => 0x15 | .envelopeQuota => 0x18 | .reelOverdraft => 0x19 | .promiseMissed => 0x1A
  | .futureDouble => 0x1B | .mailboxCap => 0x1C | .ackTimeout => 0x1D | .uncorrectedData => 0x1E
  | .watchdog => 0x20 | .swTrap => 0x21 | .bkpt => 0x22 | .trapOverflow => 0x23

/-- The causes that retire a thread under lane-off mode (R163). -/
def laneOffCause : Cause → Bool
  | .misaligned | .scratchBounds | .accessViolation | .accessRevoked | .xlateFault => true
  | _ => false

/-! ## Plaits and clauses -/

/-- Every plait of the block dissolves and clauses are cut: its ready threads enter pools with age
zero (R72, R223, R224). -/
def Block.dissolveAll (b : Block) : Block :=
  let inP := (b.plaits.map fun p => p.ths.map (·.2)).flatten
  let b := b.mapTh fun t th =>
    { th with inClause := 0, slots := (none, none), asks := false, held := if th.asks then none else th.held
              age := if inP.contains t then b.cycles else th.age }
  { b with plaits := [] }

/-- One plait dissolves, outside a clause (R224); rotation alone leaves its threads their aligned-group
numbers (R217). -/
def Block.dissolve (b : Block) (id : Nat) (rotation : Bool := false) : Block :=
  match b.plaits.find? (·.id == id) with
  | none => b
  | some p =>
    let ids := p.id :: p.other.toList
    let mine := b.plaits.filter fun q => ids.contains q.id
    let ts := (mine.map fun q => q.ths.map (·.2)).flatten
    let b := ts.foldl (fun b t => b.modTh t fun th =>
      { th with age := b.cycles, group := if rotation then th.group else none }) b
    { b with plaits := b.plaits.filter fun q => !ids.contains q.id }

/-- The plait is inside a clause, and how many words of it are left; a thread whose issue stands holds it like the last
word. -/
def Block.clauseDepth (b : Block) (p : Plait) : Nat :=
  (p.ths.map fun x => if (b.th x.2).asks then max 1 (b.th x.2).inClause else (b.th x.2).inClause).foldl max 0

/-- The other half of a split plait is inside a clause. -/
def Block.otherInClause (b : Block) (p : Plait) : Bool :=
  p.other.any fun k => b.plaits.any fun q => q.id == k && b.clauseDepth q != 0

/-- One plait changed. -/
def Block.modPlait (b : Block) (id : Nat) (f : Plait → Plait) : Block :=
  { b with plaits := b.plaits.map fun p => if p.id = id then f p else p }

/-- A plait dissolves at its boundary; while its other half is inside a clause, it waits for the end of that (R223). -/
def Block.endPlait (b : Block) (id : Nat) : Block :=
  match b.plaits.find? (·.id == id) with
  | none => b
  | some p => if b.otherInClause p then b.modPlait id fun p => { p with hold := some true } else b.dissolve id

/-- Threads leave their plaits, which dissolve (R223), and lose their aligned-group numbers (R217). -/
def Block.quit (b : Block) (tids : List Nat) : Block :=
  let ps := b.plaits.filter fun p => p.ths.any fun x => tids.contains x.2
  let b := tids.foldl (fun b t => b.modTh t fun th => { th with group := none }) b
  let b := { b with plaits := b.plaits.map fun p => { p with ths := p.ths.filter fun x => !tids.contains x.2 } }
  ps.foldl (fun b p => b.endPlait p.id) b

/-! ## Ends (R103, R112, R378) -/

/-- A block ends: its plaits are gone and its placement is free (R103). -/
def Block.finish (b : Block) : Block :=
  { b with plaits := [], ended := true, due := none, saved := none, inline := none, leaving := none
           place := { b.place with resident := b.place.resident && decide (1 < b.cfg.groupSize) }
           trap := { b.trap with level := 0, stopped := false, stopSet := [], held := [], frame := none } }

/-- The device's count of waiters at an object falls by one when a thread leaves the wait table or stops
polling (R342, R345). -/
def State.unwait (s : State) (th : Thread) : State :=
  match th.wait with
  | some (.parked q) =>
    let drop (off : Nat) : State :=
      let n := s.valPa (q.pa + off) 2
      if n = 0 then s else s.putPa (q.pa + off) 2 (n - 1)
    if q.away then s else match q.kind with
    | .fget => drop 10
    | .mbrecv => drop 0x16
    | .tspawn => drop 0x18
    | _ => s
  | none | some _ => s

/-- A launch and the launches that run inline for its blocks, to their depth (R188, R347). -/
def State.family (s : State) : Nat → Nat → List Nat
  | 0, t => [t]
  | k + 1, t =>
    t :: ((s.sched.tasks.filter fun c => c.parent.any fun p => s.blocks.any fun b => b.id == p.1 && b.task == t).map
      fun c => s.family k c.id).flatten

/-- A launch is ended before its completion: its blocks stop for good, its copies are dropped, and so the
children that run inline for it; the first ending stands (R112, R347, R378). -/
def State.endTask (s : State) (task : Nat) (e : Ending) : State :=
  let ts := s.family 9 task
  let gone := ((s.blocks.filter fun b => ts.contains b.task && !b.ended).map (·.threads)).flatten
  let s := gone.foldl State.unwait s
  -- threads that its blocks have retired count, though the blocks do not end (R346)
  let retired (t : Nat) : Nat := ((s.blocks.filter fun b => b.task == t && !b.ended).map (·.retired)).foldl (· + ·) 0
  let s := ts.foldl (fun s t => s.modTask t fun t =>
    { t with retired := t.retired + retired t.id, ending := if t.ending.isSome then t.ending else some e }) s
  { s with
    blocks := s.blocks.map fun b =>
      if ts.contains b.task then { b.finish with place := { b.place with resident := false, extents := [] }, inline := none } else b
    eng := { s.eng with copies := s.eng.copies.filter fun c => !ts.contains c.task } }

/-- A context is killed: as KILL ends it, a versioned task discarded, and a CONTEXT_KILL event on the
die that met its cause (R378, R423). -/
def State.killContext (s : State) (b : Block) (cause : Nat) (addr : DWord) (pcoff : Nat) (third : Nat := 0)
    (die : Option Nat := none) : State :=
  match s.task? b.task with
  | none => s
  | some t =>
    if t.ending.isSome then s
    else
      let core := b.place.core % Config.coresPerDie
      let s := s.event (die.getD b.die) 0x40 b.cfg.envelope t.id cause
        (some (addr.toNat, pcoff % 2 ^ 32 + 2 ^ 32 * core + 2 ^ 48 * third))
      s.endTask b.task (.context cause)

/-! ## Trap entry (R368, R371 to R374) -/

/-- %tcause (R371). -/
def tcauseWord (t : TrapInfo) (held : Bool) (nstop : Nat) : Word :=
  BitVec.ofNat 32 (causeCode t.cause + 256 * nstop + (if held then 2 ^ 20 else 0) + 2 ^ 21 * (t.xlev % 4) +
    (if t.write then 2 ^ 23 else 0))

/-- Bytes that the bits of a list of numbers set. -/
def bitBytes (n : Nat) (xs : List Nat) : List Byte :=
  (List.range n).map fun j => BitVec.ofNat 8 (((List.range 8).filter fun k => xs.contains (8 * j + k)).foldl
    (fun a k => a + 2 ^ k) 0)

/-- The resident turn groups, slot by slot (R321, R372). -/
def Block.slotsOf (b : Block) : List Nat :=
  (List.range ((b.cfg.bsize + 127) / 128)).filter fun g => !b.out.any (·.1 == g)

/-- The bit of the frame's STOPPED field for a thread (R372). -/
def Block.stopBit (b : Block) (t : Nat) : Nat :=
  if b.cfg.bsize ≤ 2048 then t else 128 * (b.slotsOf.idxOf (t / 128)) + t % 128

/-- Bytes 0x000 to 0x17F of a frame (R372). -/
def Block.frame (b : Block) (k : Bank) (time : Nat) (stop : List Nat) : List Byte :=
  let rp := (if b.rowprog.valid then 128 else 0) + (if b.rowprog.side then 64 else 0) + b.rowprog.row +
    2 ^ 32 * b.rowprog.pcoff.toNat
  let groups := if b.cfg.bsize ≤ 2048 then List.replicate 16 0#8
    else (List.range 16).map fun i => match b.slotsOf[i]? with
      | some g => BitVec.ofNat 8 g
      | none => 0xFF#8
  toBytesLE 4 k.cause.toNat ++ toBytesLE 4 k.thr.toNat ++ toBytesLE 8 k.pc.toNat ++ toBytesLE 8 k.addr.toNat ++
    toBytesLE 8 time ++ toBytesLE 8 rp ++ toBytesLE 8 b.regs.ireel.toNat ++ toBytesLE 8 b.regs.treel.toNat ++
    toBytesLE 8 0 ++ groups ++ List.replicate 48 0#8 ++ bitBytes 256 (stop.map b.stopBit)

/-- A unit that a write covers in part holds an uncorrectable error (R414, R415). -/
def State.partPoisoned (s : State) (pa n : Nat) : Bool :=
  (unitsOf pa n).any fun u => s.health.bad.contains (.mem u) && !decide (pa ≤ 32 * u ∧ 32 * u + 32 ≤ pa + n)

/-- A range of virtual addresses meets the envelope's capability table, which is mapped read-only to all but the
management plane and the envelope's supervisor kernels (R344, R350, log 76). -/
def State.inCaps (s : State) (env va n : Nat) : Bool :=
  let e := s.env env
  decide (va < e.captab + 8 * min e.capn 1024 ∧ e.captab < va + n ∧ 0 < e.capn)

/-- The place of each piece of a range that an engine writes, or what stops it at one: pieces of at most 64 bytes, none
across a page's end. A write that `eats` reads the units that it covers in part (R414): `extra` of that fault is the
physical address. -/
def State.enginePlaces (s : State) (core env : Nat) (va : DWord) (eats : Bool) :
    List (List Byte) → List (DWord × Nat × List Byte) ⊕ WalkEnd
  | [] => .inl []
  | bs :: rest =>
    if !canonical va || s.inCaps env va.toNat bs.length then
      .inr (.fault { cause := .accessViolation, addr := va, write := true, extra := if canonical va then 2#64 else 1#64 })
    else
    match s.engineXlate core env va .write with
    | (_, some pa) =>
      match s.homeOf pa with
      | none => .inr (.fault (xlateFault va 0))
      | some _ =>
        if eats && s.partPoisoned pa bs.length then
          .inr (.fault { cause := .uncorrectedData, addr := va, write := true, extra := BitVec.ofNat 64 pa })
        else match s.enginePlaces core env (va + BitVec.ofNat 64 bs.length) eats rest with
          | .inl ps => .inl ((va, pa, bs) :: ps)
          | .inr e => .inr e
    | (.fault t, none) => .inr (.fault { t with write := true, addr := va })
    | (r, none) => .inr r

/-- Pieces written each at its place. -/
def State.writePlaces (s : State) (ps : List (DWord × Nat × List Byte)) : State :=
  ps.foldl (fun s p => (s.takeLines p.2.1 p.2.2.length).writePa p.2.1 p.2.2) s

/-- The write of a range by an engine on a block's behalf, of all pieces or none. -/
def State.engineWrite (s : State) (core env : Nat) (va : DWord) (eats : Bool) (bss : List (List Byte)) :
    State × Option WalkEnd :=
  match s.enginePlaces core env va eats bss with
  | .inl ps => (s.writePlaces ps, none)
  | .inr e => (s, some e)

/-- Pieces of at most 64 bytes. -/
def chunks64 : Nat → List Byte → List (List Byte)
  | 0, _ => []
  | _ + 1, [] => []
  | k + 1, bs => bs.take 64 :: chunks64 k (bs.drop 64)

/-- Bytes cut where a 64 KiB page ends. -/
def pageSplit (va : DWord) (bs : List Byte) : List (List Byte) :=
  let n := 65536 - va.toNat % 65536
  if bs.length ≤ n then [bs] else [bs.take n, bs.drop n]

/-- The bytes of a level's frame at the stop (R372). -/
def Block.frameNow (b : Block) (level time : Nat) : List Byte :=
  if level = 1 then b.frame b.trap.bank0 time (b.trap.stopSet.filter (· < b.cfg.bsize)) else b.frame b.trap.bank1 time []

/-- The frame of a level written as the handler's stores; a fault in it waits for the handler's first
instruction, a replayable one for its service (R373). -/
def State.putFrame (s : State) (blk level : Nat) (bytes : List Byte) : State :=
  match s.block? blk with
  | none => s
  | some b =>
    let va := b.trap.tsave + BitVec.ofNat 64 (512 * (level - 1))
    if !canonical va then
      s.modBlock blk fun b => { b with trap := { b.trap with frame := some { cause := .accessViolation, addr := va, write := true, size := 64, extra := 1#64 } } }
    else
      match s.engineWrite b.place.core b.cfg.envelope va false (chunks64 6 bytes) with
      | (s, none) => s.modBlock blk fun b => { b with trap := { b.trap with pend := none } }
      | (s, some (.fault t)) => s.modBlock blk fun b => { b with trap := { b.trap with frame := some t, pend := none } }
      | (s, some _) =>
        let (s, w) := s.startWalk b.die b.cfg.envelope va .write
        s.modBlock blk fun b => { b with trap := { b.trap with pend := some w, image := bytes } }

def State.writeFrame (s : State) (blk level : Nat) : State :=
  match s.block? blk with
  | none => s
  | some b => s.putFrame blk level (b.frameNow level s.clock.time)

/-- The code bytes of a 64-byte line, if they can be had now: from the core's instruction cache, else
from memory. -/
def State.codeLine (s : State) (b : Block) (line : Nat) : Option (List Byte) :=
  match s.eng.icache.find? fun c => c.core == b.place.core && c.task == b.task && c.line == line && c.fault.isNone with
  | some c => some c.bytes
  | none =>
    match s.engineXlate b.place.core b.cfg.envelope (BitVec.ofNat 64 line) .fetch with
    | (_, some pa) => if s.poisoned pa 64 then none else some (s.readPa pa 64)
    | _ => none

/-- Whether an address of the code segment is a lead byte (R63). A line that cannot be read now passes:
the fault is met at the fetch (log 8). -/
def State.leadByte (s : State) (b : Block) (pc : DWord) : Bool :=
  match s.codeLine b (pc.toNat / 64 * 64) with
  | none => true
  | some bytes => (entryAt bytes (pc.toNat % 64)).isSome

def Block.inCode (b : Block) (pc : DWord) : Bool := decide (b.cfg.code ≤ pc.toNat ∧ pc.toNat < b.cfg.bound)

/-- The handler starts at %tvec with the level, or the context is killed (R373, R376, R378). -/
def State.startHandler (s : State) (blk level : Nat) : State :=
  match s.block? blk with
  | none => s
  | some b =>
    let k := if level = 1 then b.trap.bank0 else b.trap.bank1
    if b.trap.tvec = 0#64 ∨ bits b.trap.tsave 0 9 ≠ 0 ∨ !b.inCode b.trap.tvec ∨ !s.leadByte b b.trap.tvec then
      s.killContext b (bits k.cause 0 8) k.addr (k.pc - b.codeBase).toNat
    else
      let s := s.modBlock blk fun b =>
        { b with trap := { b.trap with level }
                 handler := { b.handler with pc := b.trap.tvec, st := .ready, wait := none, inClause := 0
                                             slots := (none, none), stall := none, fault := none, remote := none, held := none } }
      s.writeFrame blk level

/-- Level 1 is entered with a cause (R368, R369). -/
def State.enter1 (s : State) (blk : Nat) (h : Held) : State :=
  s.modBlock blk (fun b =>
    { b with trap := { b.trap with
        stopped := true, stopSet := h.tids
        copy := if h.info.cause = .promiseMissed then none else h.copy
        missed := if h.info.cause = .promiseMissed then h.copy else none
        wdstop := h.info.cause == .watchdog
        bank0 := { cause := tcauseWord h.info (!b.trap.held.isEmpty) h.tids.length
                   pc := h.pc, addr := h.info.addr, thr := BitVec.ofNat 32 h.thr } } })
    |>.startHandler blk 1

/-- The handler traps: level 2, or past it the kill of the context (R376). -/
def State.handlerTrap (s : State) (blk : Nat) (t : TrapInfo) : State :=
  match s.block? blk with
  | none => s
  | some b =>
    if b.trap.level ≤ 1 then
      s.modBlock blk (fun b =>
        { b with trap := { b.trap with
            frame := none
            bank1 := { cause := tcauseWord t (!b.trap.held.isEmpty) 1, pc := b.handler.pc, addr := t.addr
                       thr := BitVec.ofNat 32 b.cfg.bsize } } })
        |>.startHandler blk 2
    else s.killContext b (causeCode .trapOverflow) t.addr (b.handler.pc - b.codeBase).toNat (causeCode t.cause)

/-- A tile transfer is over, or is given up: VALID and SIDE are cleared (R202). -/
def Block.clearCut (b : Block) : Block :=
  { b with rowprog := { b.rowprog with valid := false, side := false }, staging := [] }

/-- A tile transfer is cut: the row from which it goes on (R202). -/
def Block.cutTransfer (b : Block) (pc : DWord) (row : Nat) (side : Bool) : Block :=
  { b with rowprog := { pcoff := (pc - b.codeBase).setWidth 32, valid := true, side, row } }

/-- The stop of a block (R368 steps 1 and 2): threads of the stop trapped, plaits dissolved, clauses
cut. -/
def Block.stop (b : Block) (tids : List Nat) : Block :=
  let b := tids.foldl (fun b t => b.modTh t fun th => { th with st := .trapped }) b
  { b.dissolveAll with engine := [], trap := { b.trap with stopped := true } }

/-- The threads of a list of traps grouped by cause, in order of first appearance (R369). -/
def groupCauses : List (Nat × TrapInfo) → List (TrapInfo × List Nat)
  | [] => []
  | (t, i) :: rest =>
    match (groupCauses rest).partition (·.1.cause == i.cause) with
    | ([], others) => (i, [t]) :: others
    | ((_, ts) :: _, others) => (i, t :: ts) :: others

/-- The issue is one of two in one cycle: the other one is made before the block stops (R220, R368). -/
def State.coIssued (s : State) (blk : Nat) : Bool := s.mate.any (·.blk == blk) || s.ahead.any (·.blk == blk)

/-- The next held cause of a block that is not stopped is entered at level 1 (R369). -/
def State.enterHeld (s : State) (blk : Nat) : State :=
  match s.block? blk with
  | none => s
  | some b =>
    match b.trap.held with
    | [] => s
    | h :: rest =>
      if b.trap.stopped then s
      else (s.modBlock blk fun b => { b.stop [] with trap := { b.trap with held := rest, stopped := true } }).enter1 blk h

/-- Causes are held while a level is in force: HELD of its register is set, and of level 1's (R369, R371). -/
def TrapState.hold (t : TrapState) (hs : List Held) : TrapState :=
  let note (k : Bank) : Bank := { k with cause := k.cause ||| 0x100000#32 }
  { t with held := t.held ++ hs, bank0 := note t.bank0, bank1 := if t.level = 2 then note t.bank1 else t.bank1 }

/-- Threads of one issue trap, in ascending rank (R368, R369). A stop for another cause holds them, and so does a second
issue of the same cycle. -/
def State.trapThreads (s : State) (blk : Nat) (traps : List (Nat × TrapInfo)) : State :=
  match s.block? blk, traps with
  | none, _ | _, [] => s
  | some b, _ =>
    let gs := (groupCauses traps).map fun g =>
      let ts := sortBy (· ≤ ·) g.2
      let t0 := ts.headD 0
      ({ info := g.1, tids := ts, thr := t0, pc := (b.th t0).pc } : Held)
    if !b.trap.stopped && s.coIssued blk then
      s.modBlock blk fun b =>
        { (traps.map (·.1)).foldl (fun b t => b.modTh t fun th => { th with st := .trapped }) b with
          trap := { b.trap with held := b.trap.held ++ gs } }
    else
    let s := s.modBlock blk (·.stop (traps.map (·.1)))
    match gs with
    | [] => s
    | g :: rest =>
      if b.trap.stopped then
        s.modBlock blk fun b => { b with trap := b.trap.hold (g :: rest) }
      else
        (s.modBlock blk fun b => { b with trap := { b.trap with held := b.trap.held ++ rest } }).enter1 blk g

/-- A block-wide cause (R368, R369). -/
def State.trapBlock (s : State) (blk : Nat) (h : Held) : State :=
  match s.block? blk with
  | none => s
  | some b =>
    if b.trap.stopped then
      s.modBlock blk fun b => { b with trap := b.trap.hold [h] }
    else (s.modBlock blk (·.stop [])).enter1 blk h

/-- The lowest-indexed live thread (R113). -/
def Block.lowest (b : Block) : Nat := b.live.headD 0

/-! ## Pins, WIDTH and BSYNC (R99, R101, R191) -/

/-- The weight of an opcode (R86). -/
def weightOf (op : Nat) : Nat := ((row op).map Row.weight).getD 0

/-- The length of the stored instruction at a PC (R93); 0 where none can be read. -/
def State.lenAt (s : State) (b : Block) (pc : DWord) : Nat :=
  match s.codeLine b (pc.toNat / 64 * 64) with
  | none => 0
  | some bytes => ((entryAt bytes (pc.toNat % 64)).map Entry.len).getD 0

/-- How far TRET.skip moves on from a PC: past the stored instruction there; not at all at the end of the segment, where a
skip acts as TRET (R370). -/
def State.skipLen (s : State) (b : Block) (pc : DWord) : Nat :=
  let atEnd := (s.codeLine b (pc.toNat / 64 * 64)).any fun bytes => match entryAt bytes (pc.toNat % 64) with
    | some (.bad .runOffEnd _ _) => true
    | _ => false
  if !b.inCode pc || atEnd then 0 else s.lenAt b pc

/-- The length of the instruction a waiting thread stands at: known from its issue, or read anew when
the handler has written its PC (R118). -/
def State.waitLen (s : State) (b : Block) (tid : Nat) : Nat :=
  let th := b.th tid
  if th.wlen = 0 then s.lenAt b th.pc else th.wlen

/-- The count of a flag raised or lowered for one thread (R68). -/
def Thread.bump (th : Thread) (k : Nat) (up : Bool) : Thread :=
  { th with flags := th.flags.modify k fun n => if up then n + 1 else n - 1 }

/-- The instruction at which a thread waited has completed, or has trapped: its flag no longer counts it (R68). -/
def Thread.repay (th : Thread) : Thread :=
  match th.owed with
  | some k => { th.bump k false with owed := none }
  | none => th

/-- A waiting thread goes on at NextPC. -/
def Thread.resume (th : Thread) (len : Nat) (now : Nat) : Thread :=
  { th.repay with st := .ready, wait := none, pc := th.pc + BitVec.ofNat 64 len, wlen := 0, age := now, order := 0
                  inClause := 0, slots := (none, none), prepaid := false }

/-- The thread's wait is over: it is in no table. -/
def Thread.leave (th : Thread) (now : Nat) : Thread :=
  { th.repay with st := .ready, wait := none, wlen := 0, age := now, order := 0 }

/-- The plait width in force as %width reads it (R102). -/
def Block.widthReg (b : Block) : Nat := if b.place.confined then 4 else b.place.grant

/-- The most threads one plait or pair of the block holds (R215). -/
def Block.capacity (b : Block) : Nat := b.place.grant

/-- The grant of a request (R102): plait width and confinement; none for the fixed-width trap. -/
def grantOf (cfg : LaunchRec) (dflt request : Nat) : Option (Nat × Bool) :=
  if request = 0 then some (dflt, false)
  else if request = 4 then
    if cfg.flag 6 then some (8, true) else if cfg.flag 4 then none else some (8, false)
  else if request = 128 then
    if cfg.flag 5 then some (128, false) else if cfg.flag 4 then none else some (64, false)
  else some (request, false)

/-- The aligned-group number of a thread (R217). -/
def Block.alignedGroup (b : Block) (tid : Nat) : Nat :=
  tid / (if b.place.confined then 8 else if b.place.grant = 128 then 128 else b.place.grant)

/-- Threads complete a wait together. The plait from which the last of them came dissolves, since they entered
the wait (R223, R227). -/
def Block.release (b : Block) (lens : Nat → Nat) (tids : List Nat) (f : Nat → Thread → Thread) : Block :=
  let b := b.quit tids
  tids.foldl (fun b t => b.modTh t fun th => f t (th.resume (lens t) b.cycles)) b

/-- Release(n) for a pin whose armed threads have all arrived (R99). -/
def State.releasePin (s : State) (blk n : Nat) : State :=
  match s.block? blk with
  | none => s
  | some b =>
    let at' (th : Thread) : Bool := match th.wait with
      | some (.pin m _) => m == n
      | _ => false
    let arrived := b.tids at'
    let armed := b.tids fun th => th.st != .exited && th.armed.getLsbD n
    if arrived.isEmpty ∨ arrived.length ≠ armed.length then s
    else
      let lens := s.waitLen b
      let aligned := fun t => match (b.th t).wait with
        | some (.pin _ a) => a
        | _ => false
      let b' := b.release lens arrived fun t th =>
        { th with armed := th.armed &&& ~~~(1#32 <<< n), group := if aligned t then some (b.alignedGroup t) else none }
      (s.modBlock blk fun _ => { b' with epoch := b'.epoch + 1 }).charge blk (arrived.length * weightOf 0x009) 0

/-- Completion of a WIDTH when every live thread waits at one (R101, R102). -/
def State.completeWidth (s : State) (blk : Nat) : State :=
  match s.block? blk with
  | none => s
  | some b =>
    let reqs := b.live.filterMap fun t => match (b.th t).wait with
      | some (.width r) => some (t, r)
      | _ => none
    if reqs.isEmpty ∨ reqs.length ≠ b.live.length then s
    else
      let q := ((maxBy (·.1) reqs).map (·.2)).getD 0
      let haz := reqs.any (·.2 != q)
      let b := if haz then { b with regs := { b.regs with ustat := b.regs.ustat ||| 1#32 } } else b
      let ts := reqs.map (·.1)
      match grantOf b.cfg b.place.dflt q with
      | none =>
        let b := ts.foldl (fun b t => b.modTh t fun th => { th with st := .ready, wait := none }) b
        (s.modBlock blk fun _ => b).trapThreads blk (ts.map fun t => (t, { cause := .reservedField }))
      | some (g, c) =>
        let lens := s.waitLen b
        let b := { b with place := { b.place with grant := g, confined := c, request := q } }
        let b := b.release lens ts fun _ th => { th with group := none }
        let b := { b with plaits := [], epoch := b.epoch + 1 }
        (s.modBlock blk fun _ => b).charge blk (ts.length * weightOf 0x00B) 0

/-- Release of the threads waiting at BSYNC when their count reaches the target (R191). -/
def State.completeBsync (s : State) (blk : Nat) : State :=
  match s.block? blk with
  | none => s
  | some b =>
    let ws := b.live.filterMap fun t => match (b.th t).wait with
      | some (.bsync n) => some (t, n)
      | _ => none
    match maxBy (·.1) ws with
    | none => s
    | some (_, n) =>
      let target := match n with
        | none => b.live.length
        | some k => min k b.live.length
      if ws.length < target then s
      else
        let haz := ws.any (·.2 != n)
        let b := if haz then { b with regs := { b.regs with ustat := b.regs.ustat ||| 1#32 } } else b
        let lens := s.waitLen b
        let b := b.release lens (ws.map (·.1)) fun _ th => th
        (s.modBlock blk fun _ => { b with epoch := b.epoch + 1 }).charge blk (ws.length * weightOf 0x28C) 0

/-- What a change of the live or the waiting threads may release (R99, R101, R191). -/
def State.releases (s : State) (blk : Nat) : State :=
  match s.block? blk with
  | none => s
  | some b =>
    let s := (List.range b.cfg.pins).foldl (fun s n => s.releasePin blk n) s
    (s.completeWidth blk).completeBsync blk

/-! ## Exits, retirement and block end (R103, R104, R163, R244, R245) -/

/-- A thread ends: exited, triggered, its armed bits clear, its outstanding results dropped (R103). -/
def Thread.exit (th : Thread) : Thread :=
  { th with st := .exited, wait := none, armed := 0#32, triggered := true, outst := [], flags := List.replicate 12 0, owed := none
            inSlot := false, inClause := 0, slots := (none, none), stall := none, fault := none, remote := none, held := none }

/-- A version that a task wrote is committed (R332). -/
def State.commitVersions (s : State) (task : Nat) : State :=
  { s with sched := { s.sched with tiles := s.sched.tiles.map fun e =>
      { e with versions := e.versions.map fun v => if v.writer = task then { v with committed := true } else v } } }

/-- A block has triggered; with the last block of the grid, the versions of a task that is not versioned are committed (R104,
R332). -/
def State.trigger (s : State) (b : Block) : State :=
  let s := s.modTask b.task fun t => if t.trig.contains b.bid then t else { t with trig := b.bid :: t.trig }
  match s.task? b.task with
  | some t => if t.cfg.grid ≤ t.trig.length ∧ !t.cfg.versioned then s.commitVersions t.id else s
  | none => s

/-- A block of which every thread has triggered or exited triggers, once the writes made before are acknowledged: a release at
the dependence scope, .pkg or wider (R104, R258, R266). -/
def State.noteTrigger (s : State) (blk : Nat) : State :=
  match s.block? blk with
  | none => s
  | some b =>
    if !b.threads.all (·.triggered) then s
    else if b.triggering then (if b.acks.any (·.before) then s else s.trigger b)
    else if b.acks.isEmpty then s.trigger b
    else s.modBlock blk fun b => { b with triggering := true, acks := b.acks.map fun a => { a with before := true } }

/-- When the last live thread is gone the block ends (R103). -/
def State.noteEnd (s : State) (blk : Nat) : State :=
  match s.block? blk with
  | none => s
  | some b =>
    if b.live.isEmpty ∧ !b.ended then
      let s := s.modBlock blk Block.finish
      let s := s.modTask b.task fun t => { t with done := b.bid :: t.done, retired := t.retired + b.retired }
      -- a cluster group's scratchpads stay allocated until its last block ends (R168)
      if (s.group b).all (·.ended) then
        { s with blocks := s.blocks.map fun x =>
            if x.task = b.task ∧ x.bid / b.cfg.groupSize = b.bid / b.cfg.groupSize then
              { x with place := { x.place with resident := false } } else x }
      else s
    else s

/-- The threads given exit (R103), and what their exits release. -/
def State.exitThreads (s : State) (blk : Nat) (tids : List Nat) : State :=
  if tids.isEmpty then s
  else
    let s := tids.foldl (fun s t => s.unwait (((s.block? blk).map (·.th t)).getD {})) s
    let s := s.modBlock blk fun b => tids.foldl (fun b t => b.modTh t Thread.exit) b
    let s := s.noteTrigger blk
    (s.releases blk).noteEnd blk

/-- A fault record (R244). -/
def faultRecord (tid : Nat) (pc : DWord) (t : TrapInfo) : List Byte :=
  toBytesLE 4 tid ++ toBytesLE 1 (causeCode t.cause) ++ toBytesLE 1 ((if t.write then 1 else 0) + 2 * t.space) ++
    toBytesLE 2 (min t.size 0xFFFF) ++ toBytesLE 8 pc.toNat ++ toBytesLE 8 t.addr.toNat ++ toBytesLE 8 t.extra.toNat

/-- A thread is retired: counted, and given exit (R163). -/
def State.retire (s : State) (blk t : Nat) : State :=
  (s.modBlock blk fun b =>
    { b.modTh t (fun th => { th with retired := true }) with retired := b.retired + 1 }).exitThreads blk [t]

/-- The pieces of a fault record that are homed on another package wait for their acknowledgements (R397). -/
def State.noteRecord (s : State) (b : Block) (tid : Nat) (ps : List (DWord × Nat × List Byte)) : State :=
  let far := ps.filter fun p => match s.homeOf p.2.1 with
    | some (.package _) => true
    | _ => false
  let s := far.foldl (fun s p => s.tellAt true p.2.1) s
  s.modBlock b.id fun b =>
    { b with records := b.records ++ far.map fun p => { tid, va := p.1, pa := p.2.1, time := s.clock.time } }

/-- The address of a thread's fault record (R245). -/
def Block.recordVa (b : Block) (tid : Nat) : DWord := BitVec.ofNat 64 (b.cfg.faults + (b.bid * b.cfg.bsize + tid) * 32)

/-- The address of the piece of a fault record whose page is to be serviced: the first, or the one on the next page. -/
def State.missingPiece (s : State) (b : Block) (va : DWord) : DWord :=
  match s.engineXlate b.place.core b.cfg.envelope va .write with
  | (_, some _) => BitVec.ofNat 64 ((va.toNat / 65536 + 1) * 65536)
  | _ => va

/-- Threads are retired under lane-off mode, each with its fault record; a fault in a record's write kills the
context (R163, R245). Where the record's page has to be serviced first, the thread waits for that and then makes its
access, and retires, anew (R385). -/
def State.retireThreads (s : State) (blk : Nat) : List (Nat × TrapInfo) → State
  | [] => s
  | (t, i) :: rest =>
    match s.block? blk with
    | none => s
    | some b =>
      if b.cfg.faults = 0 then (s.retire blk t).retireThreads blk rest
      else
        let va := b.recordVa t
        match s.enginePlaces b.place.core b.cfg.envelope va true (pageSplit va (faultRecord t (b.th t).pc i)) with
        | .inl ps => (((s.writePlaces ps).noteRecord b t ps).retire blk t).retireThreads blk rest
        | .inr (.fault f) =>
          let s := if f.cause = .uncorrectedData then s.uncorrected b.die f.extra.toNat b.task b.cfg.envelope 1 else s
          ((s.retire blk t).killContext b (causeCode f.cause) va 0).retireThreads blk rest
        | .inr _ =>
          let page := s.missingPiece b va
          let (s, w) := s.startWalk b.die b.cfg.envelope page .write
          (s.modTh blk t fun th => { th with stall := some w, retiring := true }).retireThreads blk rest

/-- The threads of an issue that stop, by ascending rank: of several causes the lowest-ranked thread's comes first (R369). -/
def State.haltThreads (s : State) (blk : Nat) (handler : Bool) (stops : List (Nat × TrapInfo)) : State :=
  match stops with
  | [] => s
  | (_, i) :: _ => if handler then s.handlerTrap blk i else s.trapThreads blk stops

/-- What the threads of an issue that fail an access do: retire, or stop (R163, R374). -/
def State.failThreads (s : State) (blk : Nat) (handler : Bool) (fails : List (Nat × TrapInfo)) : State :=
  match s.block? blk with
  | none => s
  | some b =>
    let off (f : Nat × TrapInfo) : Bool := !handler && b.cfg.laneOff && laneOffCause f.2.cause
    (s.retireThreads blk (fails.filter off)).haltThreads blk handler (fails.filter fun f => !off f)

/-! ## Return from a trap (R110, R377) -/

/-- Level 1 ends: the stop set resumes, the block restarts, and the next held cause is entered. -/
def State.tret1 (s : State) (blk : Nat) (skip : Bool) : State :=
  match s.block? blk with
  | none => s
  | some b =>
    let cut := b.rowprog.valid && skip && b.trap.stopSet.any fun t =>
      (b.th t).st == .trapped && (b.th t).pc == b.codeBase + b.rowprog.pcoff.setWidth 64
    let s := s.modBlock blk fun b =>
      let b := b.trap.stopSet.foldl (fun x t => x.modTh t fun th =>
        if th.st = .trapped then
          { th with st := .ready, age := b.cycles, order := 0
                    prepaid := th.prepaid && !skip
                    pc := if skip && !th.written then th.pc + BitVec.ofNat 64 (s.skipLen b th.pc) else th.pc }
        else th) b
      let b := b.mapTh fun _ th => { th with written := false }
      { b with
        -- the watchdog's timer restarts at the return from its own stop (R113, log 62)
        wdrun := if b.trap.wdstop then 0 else b.wdrun
        rowprog := if cut then b.clearCut.rowprog else b.rowprog
        staging := if cut then b.clearCut.staging else b.staging
        trap := { b.trap with level := 0, stopped := false, stopSet := [], frame := none, pend := none, copy := none, missed := none, wdstop := false } }
    s.enterHeld blk

end Sys2Proof.Machine
end

