-- ==== Sys2Proof/Machine/Coherence.lean ====
section
/-! DEFINITION. The coherence machinery (R252, R269 to R276, R278, R280): tokens within a die, directories and
rounds across dies and packages, cluster filters, and what an access needs of them before it is performed. It moves no
values: memory is read and written where an access is performed (log 10, log 68, log 69). -/

namespace Sys2Proof.Machine

/-! ## Cluster filters (R276) -/

/-- The core's entry in its cluster's filter for a line. -/
def State.noteFilter (s : State) (core line : Nat) : State :=
  let cl := clusterOfCore core
  match s.coh.filters.find? fun f => f.1 == cl && f.2.1 == line with
  | some f => if f.2.2.contains core then s else
      { s with coh := { s.coh with filters := s.coh.filters.map fun g => if g.1 = cl ∧ g.2.1 = line then (cl, line, core :: g.2.2) else g } }
  | none => { s with coh := { s.coh with filters := s.coh.filters ++ [(cl, line, [core])] } }

/-- A filter takes back an entry: the tokens of every core that it names return to the token home. -/
def State.dropFilter (s : State) (cluster line : Nat) : State :=
  match s.coh.filters.find? fun f => f.1 == cluster && f.2.1 == line with
  | none => s
  | some f =>
    let die := cluster / Config.clustersPerDie
    let s := s.setHolders die line ((s.holders die line).filter fun h => !f.2.2.contains h.core)
    { s with coh := { s.coh with filters := s.coh.filters.filter fun g => !(g.1 == cluster && g.2.1 == line) } }

/-- The core noted for a line; a filter that is full takes back its oldest entry first (R276, log 82). -/
def State.filterFor (s : State) (core line : Nat) : State :=
  let mine := s.coh.filters.filter (·.1 == clusterOfCore core)
  let s := if mine.any (·.2.1 == line) || decide (mine.length < Config.filterEntries) then s
    else match mine with
      | [] => s
      | f :: _ => s.dropFilter f.1 f.2.1
  s.noteFilter core line

/-- The cores of a cluster that an invalidation of a line goes to: those its filter names, or all of them. -/
def State.filterCores (s : State) (cluster line : Nat) : List Nat :=
  match s.coh.filters.find? fun f => f.1 == cluster && f.2.1 == line with
  | some f => f.2.2
  | none => (List.range Config.coresPerCluster).map (Config.coresPerCluster * cluster + ·)

/-! ## The L1s (R246, R270) -/

def sum (xs : List Nat) : Nat := xs.foldl (· + ·) 0

/-- Bytes of a scratchpad that lie on the block's own core (R242). -/
def Block.localScratch (b : Block) : Nat := b.cfg.scratchAlloc - sum (b.place.extents.map (·.2))

/-- Scratchpad bytes of a core in use: local parts, those of ended members of a group among them (R168), and extents
lent (R242). -/
def State.scratchUse (s : State) (core : Nat) : Nat :=
  sum ((s.blocks.filter fun b => b.place.core == core && b.place.resident).map (·.localScratch)) +
    sum ((s.blocks.filter (·.place.resident)).map fun b => sum ((b.place.extents.filter (·.1 == core)).map (·.2)))

/-- Lines that the L1 of a core holds: the array less what resident scratchpads take of it, 64 KiB at least. -/
def State.l1Lines (s : State) (core : Nat) : Nat := max Config.l1Least (Config.l1Array - s.scratchUse core) / 128

/-- Lines of which a core holds tokens, the longest held first. -/
def State.heldLines (s : State) (core : Nat) : List Nat :=
  (s.coh.tokens.filter fun t => t.die == dieOfCore core && t.l1.any (·.core == core)).map (·.line)

/-- Lines leave an L1: their tokens return to the token home, and the data with the owner token, written back when
dirty. -/
def State.evictLines (s : State) (core : Nat) (ls : List Nat) : State :=
  ls.foldl (fun s l =>
    let h := s.l1 core l
    s.moveTokens (dieOfCore core) l (some core) none h.n h.owner) s

/-- An L1 that holds more lines than it has room for evicts the first, to hold one more. -/
def State.evict (s : State) (core keep : Nat) : State :=
  let ls := (s.heldLines core).filter (· != keep)
  s.evictLines core (ls.take (ls.length + 1 - s.l1Lines core))

/-- A placement takes room of the L1s of its core and of those that lend it extents: they evict what they have no room for
any more (R241, R246). -/
def State.shrinkL1s (s : State) (cores : List Nat) : State :=
  cores.foldl (fun s c =>
    let ls := s.heldLines c
    s.evictLines c (ls.take (ls.length - s.l1Lines c))) s

/-! ## Requests (R271, R272) -/

def State.req? (s : State) (core line : Nat) : Option TokenReq := s.coh.reqs.find? fun r => r.core == core && r.line == line

def State.modReq (s : State) (core line : Nat) (f : TokenReq → TokenReq) : State :=
  { s with coh := { s.coh with reqs := s.coh.reqs.map fun r => if r.core = core ∧ r.line = line then f r else r } }

def State.cycleNow (s : State) : Nat := s.clock.kcyc / 1000

/-- The L1 holds what an access needs: one token and data for a read, every token for a write. -/
def State.satisfied (s : State) (core line : Nat) (write data : Bool) : Bool :=
  let n := (s.l1 core line).n
  if write then n == Config.tokensPerLine else decide (1 ≤ n) && data

/-- The L1 can make an access now: it has no request open for the line that still waits for data; or a fill that is dropped
has served its read (R275). -/
def State.holds (s : State) (core line : Nat) (write : Bool) : Bool :=
  s.satisfied core line write ((s.req? core line).all (·.data)) || (!write && (s.req? core line).any (·.served))

/-- A request is over: its access is made, and a persistent entry deactivated. -/
def State.closeReq (s : State) (core line : Nat) : State :=
  { s with coh := { s.coh with reqs := s.coh.reqs.filter fun x => !(x.core == core && x.line == line) } }

/-- The block of a request still makes its access. -/
def State.liveReq (s : State) (r : TokenReq) : Bool :=
  match r.blk with
  | none => true
  | some (n, handler) => (s.block? n).any fun b =>
      b.place.resident && !b.ended && b.saved.isNone && (handler || !b.trap.stopped)

/-- Requests whose access is not made any more are over. -/
def State.pruneReqs (s : State) : State := { s with coh := { s.coh with reqs := s.coh.reqs.filter s.liveReq } }

/-- A holder waits, until its access is made: it keeps its tokens from all but an active persistent request (R271). -/
def State.reqWaits (s : State) (core line : Nat) : Bool := (s.req? core line).isSome

/-! ## The remote-line cache of a die (R246, R269) -/

/-- The remote-line cache of a die, for a line homed elsewhere: none at 0 MiB. -/
def State.remoteCached (s : State) (die line : Nat) : Bool := s.coh.remote.any fun r => r.die == die && r.line == line

/-- A line's fill outstanding, the cache's oldest line gone where it is full. -/
def State.addRemote (s : State) (die line : Nat) : State :=
  let mine := s.coh.remote.filter fun r => r.die == die
  let room := s.coh.rlc.getD die 0 * Config.linesPerMib
  let s := match mine.find? (!·.fill) with
    | some r => if mine.length < room then s
        else
          let s := s.gather die r.line
          { s with coh := { s.coh with remote := s.coh.remote.filter (· != r) } }
    | none => s
  { s with coh := { s.coh with remote := s.coh.remote ++ [{ die, line, fill := true }] } }

/-- A core asks for tokens of a line; the first request of a die for a remote line also asks its home, and a write of a
remote line asks for none, for it goes to the home (R269). -/
def State.raise (s : State) (core line : Nat) (write : Bool) (blk : Option (Nat × Bool)) : State :=
  let die := dieOfCore core
  let remote := s.lineDie line != some die
  if Config.cores ≤ core ∨ (remote && write) ∨ s.satisfied core line write true then s
  else if remote && s.coh.rlc.getD die 0 == 0 then s
  else
    let q : TokenReq := { core, line, write, since := s.cycleNow, blk }
    let s : State := if (s.req? core line).isSome then s else { s with coh := { s.coh with reqs := s.coh.reqs ++ [q] } }
    -- a fill that is gone is asked for again
    if remote && !s.remoteCached die line then s.addRemote die line else s

def execTransientRequest (core line : Nat) (write : Bool) (s : State) : Host.Outcome State Fault Refusal :=
  .next (s.raise core line write none)

/-! ## The home's slices (R273) -/

/-- The entries of a region's home slice, the most recently used first. -/
def State.slice (s : State) (region : Nat) : List Region :=
  s.coh.regions.filter fun r => Config.slice r.region % 48 == Config.slice region % 48 &&
    s.lineDie (4 * r.region) == s.lineDie (4 * region)

/-- Room for the entry of a region in its home slice. -/
def State.regionRoom (s : State) (region : Nat) : Bool :=
  (s.region? region).isSome || decide ((s.slice region).length < Config.regionEntries)

/-- A region's entry is reclaimed, after a round pending for one of its lines (R275): every recorded copy is
invalidated, and the entry goes with the last acknowledgement. -/
def State.reclaim (s : State) (region : Nat) : State :=
  match s.region? region with
  | none => s
  | some r =>
    if s.coh.reclaim.contains region || s.coh.rounds.any fun x => (regionOf x.line).1 == region then s
    else
      let s := { s with coh := { s.coh with reclaim := s.coh.reclaim ++ [region] } }
      let lines := ((List.range 4).filter fun j => r.ls.getD j 0 != 0).map (4 * region + ·)
      (lines.foldl (fun s l => s.startRound l none) s).endRounds

/-- A slice that has no room for a region reclaims its least recently used entry (R273). -/
def execRegionReclaim (region : Nat) (s : State) : Host.Outcome State Fault Refusal :=
  .next (if decide (Config.regionEntries ≤ (s.slice region).length) && ((s.slice region).getLast?.any (·.region == region))
    then s.reclaim region else s)

/-- A place off the home die of a line. -/
def State.offDie (s : State) (p : Sys2Proof.Place) (line : Nat) : Bool :=
  match p, s.lineDie line with
  | .cluster n, some d => decide (n < 32) && n / Config.clustersPerDie != d
  | .package n, some _ => s.fabric.members.contains n && !s.fabric.quarantine.contains n && n != s.fabric.pkgid
  | _, none => false

/-- The home answers a read from off the die: it has a token and the data, from an L1 when it holds none itself. That L1 goes
to O; an L1 that waits answers once its access is made (R271, R275, log 82). -/
def State.homeServes (s : State) (d line : Nat) : Option State :=
  match (s.homeTokens d line).1, (s.holders d line).find? (·.owner) with
  | 0, some h => if s.reqWaits h.core line then none else some (s.moveTokens d line (some h.core) none 1 (h.n == 1))
  | _, _ => some s

/-- A remote read at the home: the reader is recorded, and a round in progress does not reach its new copy (R275). -/
def State.remoteRead (s : State) (reader : Sys2Proof.Place) (line : Nat) : State :=
  let (g, j) := regionOf line
  match s.lineDie line with
  | none => s
  | some d =>
    if !s.offDie reader line || s.coh.reclaim.contains g then s
    else if !s.regionRoom g then (match (s.slice g).getLast? with
      | some r => s.reclaim r.region
      | none => s)
    else match s.homeServes d line with
    | none => s
    | some s =>
      let r := ((s.region? g).getD { region := g }).record reader
      let r := { r with ls := if r.ls.getD j 0 = 0 then r.ls.set j 1 else r.ls }
      let newer (x : Round) : Round := match reader with
        | .cluster n => { x with later := true, newer := (n / Config.clustersPerDie) :: x.newer }
        | .package _ => { x with later := true }
      { s with coh := { s.coh with
          regions := r :: s.coh.regions.filter (·.region != g)
          rounds := s.coh.rounds.map fun x => if x.line = line then newer x else x } }

def execRemoteRead (reader : Sys2Proof.Place) (line : Nat) (s : State) : Host.Outcome State Fault Refusal :=
  .next (s.remoteRead reader line)

/-- A written-through write at the home: the die's tokens are gathered, and a round is made when copies are
recorded (R274). -/
def execRemoteWrite (writer : Sys2Proof.Place) (line : Nat) (s : State) : Host.Outcome State Fault Refusal :=
  .next (
    match s.lineDie line with
    | none => s
    | some d =>
      if !s.offDie writer line || !s.canGather d line then s
      else if s.lineLs line = 0 then (s.gather d line).ackWriter (some writer) []
      else s.homeTakes line (some writer))

/-- The home has recorded a die as a reader of a line, in an entry that is not being reclaimed (R273). -/
def State.recorded (s : State) (die line : Nat) : Bool :=
  match s.lineDie line with
  | none => true
  | some _ => !s.coh.reclaim.contains (regionOf line).1 && (s.region? (regionOf line).1).any fun r =>
      (List.range Config.clustersPerDie).any fun k => r.clv.getLsbD (Config.clustersPerDie * die + k)

/-- A fill of the remote-line cache arrives, once the home has recorded the reader (R273), and serves its loads; one that an
invalidation has met serves them and is dropped (R275). -/
def State.fill (s : State) (die line : Nat) : State :=
  if !s.recorded die line then s
  else
    let met (r : RemoteLine) : Bool := r.die == die && r.line == line && r.fill && r.drop
    let reqs := if s.coh.remote.any met then s.coh.reqs.map fun r =>
        if r.line = line ∧ dieOfCore r.core = die ∧ !r.write then { r with data := true, served := true } else r
      else s.coh.reqs
    let remote := (s.coh.remote.filter (!met ·)).map fun r => if r.die = die ∧ r.line = line then { r with fill := false } else r
    { s with coh := { s.coh with remote, reqs } }

def execFillResponse (die line : Nat) (s : State) : Host.Outcome State Fault Refusal := .next (s.fill die line)

/-! ## Responses -/

/-- What a holder answers to a request: tokens, and whether the owner token goes (R271, R272, R275). -/
def State.answerOf (s : State) (r : TokenReq) (src : Option Nat) : Nat × Bool :=
  let die := dieOfCore r.core
  let all := r.write || r.active
  match src with
  | some c =>
    let h := s.l1 c r.line
    if s.reqWaits c r.line && !r.active then (0, false)
    else if all then (h.n, h.owner)
    else if 2 ≤ h.n then (1, false) else (0, false)
  | none =>
    let (n, o) := s.homeTokens die r.line
    if s.lineDie r.line != some die || !all then (if 2 ≤ n then (1, false) else (0, false))
    -- the home holds its last token while a remote copy is recorded
    else if s.lineLs r.line = 0 then (n, o) else (n - 1, false)

/-- The source holds the data that a read needs. -/
def State.givesData (s : State) (r : TokenReq) (src : Option Nat) : Bool :=
  match src with
  | some c => (s.l1 c r.line).owner
  | none => (s.homeTokens (dieOfCore r.core) r.line).2

/-- A cluster that takes a token of a remote line is recorded at the home (R273). -/
def State.recordCluster (s : State) (core line : Nat) : State :=
  if s.lineDie line = some (dieOfCore core) then s
  else s.modRegion (regionOf line).1 fun r => r.record (.cluster (clusterOfCore core))

/-- Tokens arrive at a requester from an L1 or from the token home; a write that meets recorded copies makes
the home start its round. -/
def State.respond (s : State) (core line : Nat) (source : Option Nat) : State :=
  match s.req? core line with
  | none => s
  | some r =>
    let die := dieOfCore core
    let filling := s.lineDie line != some die && s.coh.remote.all fun x => x.die != die || x.line != line || x.fill
    if source = some core ∨ source.any (dieOfCore · != die) ∨ filling then s
    else
      let s := if source.isNone && r.write && s.lineLs line == 1 then (s.startRound line none).endRounds else s
      let (n, o) := s.answerOf r source
      if n = 0 then s
      else
        let data := s.givesData r source
        let s := (((s.filterFor core line).moveTokens die line source (some core) n o).recordCluster core line).evict core line
        s.modReq core line fun r => { r with data := r.data || data }

def execTokenResponse (core line : Nat) (source : Option Nat) (s : State) : Host.Outcome State Fault Refusal :=
  .next (s.respond core line source)

/-- Core cycles between the retries of a request (R271). -/
def retryCycles : Nat := 256

/-- The persistent requests of a token home in order of arrival: the first 32 hold its entries (R272). -/
def State.persistents (s : State) (die line : Nat) : List TokenReq :=
  (s.coh.reqs.filter fun r => r.persist && dieOfCore r.core == die &&
    Config.slice (r.line / 4) % 48 == Config.slice (line / 4) % 48).take Config.persistentEntries

/-- A request that has not gathered its tokens is retried; after the fourth retry it becomes a persistent one, last in
order of arrival (R271, R272). -/
def execTransientRetry (core line : Nat) (s : State) : Host.Outcome State Fault Refusal :=
  .next (match s.req? core line with
    | none => s
    | some r =>
      if r.persist ∨ s.cycleNow < r.since + retryCycles ∨ s.holds core line r.write then s
      else if r.retries < 4 then s.modReq core line fun r => { r with retries := r.retries + 1, since := s.cycleNow }
      else
        let s := s.closeReq core line
        { s with coh := { s.coh with reqs := s.coh.reqs ++ [{ r with persist := true }] } })

/-- The oldest persistent entry of a line is activated when none is: every L1 of the die sends its tokens,
and the data with the owner token (R272). -/
def execPersistentActivation (die line : Nat) (s : State) : Host.Outcome State Fault Refusal :=
  .next (
    let s := s.pruneReqs
    match (s.persistents die line).filter (·.line == line) with
    | [] => s
    | r :: _ =>
      if r.active then s
      else
        let s := s.modReq r.core line fun r => { r with active := true }
        ((s.holders die line).map (fun h : L1Line => some h.core) ++ [none]).foldl (fun s src => s.respond r.core line src) s)

/-! ## Invalidations (R274, R275) -/

/-- A cluster loses its copies of a line: the L1s that its filter names, and the remote-line cache of its die with the last
of the die's clusters; a fill still outstanding serves its loads and is dropped then. -/
def State.dropCopies (s : State) (n line : Nat) (last : Bool) : State :=
  let die := n / Config.clustersPerDie
  let cores := s.filterCores n line
  let s := s.setHolders die line ((s.holders die line).filter fun h => !cores.contains h.core)
  if !last then s
  else
    let s := s.gather die line
    let rest := s.coh.remote.filter fun r => !(r.die == die && r.line == line && !r.fill)
    let remote := rest.map fun r => if r.die = die ∧ r.line = line then { r with drop := true } else r
    { s with coh := { s.coh with remote } }

/-- A die of this package holds a line of a region, or waits for one. -/
def State.dieHas (s : State) (die region : Nat) : Bool :=
  s.coh.remote.any (fun r => r.die == die && (regionOf r.line).1 == region)

/-- A place receives the invalidation of a round: a cluster drops its copies, unless its die has read the line since the
round began (R275). The acknowledgement goes back. -/
def State.invalidate (s : State) (place : Sys2Proof.Place) (line : Nat) : State :=
  let hit (r : Round) : Bool := r.line == line && r.pending.contains place
  match s.coh.rounds.find? hit with
  | none => s
  | some r =>
    let none' : Bool := match place with
      | .cluster n => !s.dieHas (n / Config.clustersPerDie) (regionOf line).1
      | .package _ => false
    let s := match place with
      | .package _ => s
      | .cluster n =>
        let die := n / Config.clustersPerDie
        let rest := (r.pending.erase place).any fun
          | .cluster m => m / Config.clustersPerDie == die
          | .package _ => false
        if r.newer.contains die || s.lineDie line == some die then s else s.dropCopies n line !rest
    let rounds := updFirst hit (fun r => { r with
      pending := r.pending.erase place, acking := r.acking ++ [place], bare := if none' then place :: r.bare else r.bare }) s.coh.rounds
    { s with coh := { s.coh with rounds } }

def execInvalidation (place : Sys2Proof.Place) (line : Nat) (s : State) : Host.Outcome State Fault Refusal :=
  .next (s.invalidate place line)

/-- An acknowledgement arrives at the home; the last one ends its round. A no-copy acknowledgement, of a cluster whose die held
no line of the region and holds none now, clears the cluster's bit (R273, R280). -/
def execInvalidationAck (place : Sys2Proof.Place) (line : Nat) (s : State) : Host.Outcome State Fault Refusal :=
  let hit (r : Round) : Bool := r.line == line && r.acking.contains place
  let none' : Bool := match place with
    | .cluster n => (s.coh.rounds.find? hit).any (·.bare.contains place) && !s.dieHas (n / Config.clustersPerDie) (regionOf line).1
    | .package _ => false
  let s := if none' then s.modRegion (regionOf line).1 (·.forget place) else s
  let rounds := updFirst hit (fun r => { r with acking := r.acking.erase place }) s.coh.rounds
  .next (State.endRounds { s with coh := { s.coh with rounds } })

/-- A remote write's acknowledgement arrives, once no round of its line stands for it, by a port that is up (R165, R274, R396). -/
def execWriteAck (blk k : Nat) (s : State) : Host.Outcome State Fault Refusal :=
  .next (match s.block? blk with
    | none => s
    | some b =>
      match (b.acks ++ b.records)[k]? with
      | none => s
      | some a =>
        if (s.coh.rounds.any fun r => (r.line == a.pa / 128 || a.lines.contains r.line) && r.writer == some (.cluster b.cluster)) ||
            !s.reached a.pa then s
        else ((s.ackedAt a.pa).modBlock blk fun b =>
          { b with acks := b.acks.eraseIdx k
                   records := if k < b.acks.length then b.records else b.records.eraseIdx (k - b.acks.length) }).noteTrigger blk)

def execFilterReclaim (cluster line : Nat) (s : State) : Host.Outcome State Fault Refusal := .next (s.dropFilter cluster line)

/-! ## Accesses (R252, R269 to R275) -/

/-- A write at the home, of an atomic of the home die (no writer) or from elsewhere: the die's tokens are gathered. Copies
elsewhere are invalidated by a round, which the home's own access waits for and a written-through one's acknowledgement
does (R274). -/
def State.homeWrite (s : State) (d line : Nat) (writer : Option Sys2Proof.Place) : State × Bool :=
  if !s.canGather d line then (s, false)
  else
    let s := s.gather d line
    let ls := s.lineLs line
    if ls = 0 then (s, true)
    else match writer with
      | some w => ((s.startRound line (some w)).endRounds, true)
      | none => (if ls = 1 then (s.startRound line none).endRounds else s, false)

/-- A load, or a store of the home die, in the core's L1: it can be made with what the L1 holds, or with what the token home
and the other L1s answer at once; otherwise its request stands (R271). -/
def State.l1Access (s : State) (core line : Nat) (write : Bool) (blk : Nat × Bool) : State × Bool :=
  if s.holds core line write then (s, true)
  else
    let die := dieOfCore core
    let s := (s.raise core line write (some blk)).modReq core line fun r => { r with write := r.write || write }
    let filled := s.coh.remote.any fun r => r.die == die && r.line == line && !r.fill
    let s := if s.lineDie line = some die ∨ filled then s else (s.remoteRead (.cluster (clusterOfCore core)) line).fill die line
    let s := (none :: (s.holders die line).map (fun h : L1Line => some h.core)).foldl (fun s src =>
      if s.holds core line write then s else s.respond core line src) s
    (s, s.holds core line write)

/-- The access of a line in the core's L1 is made: its request is over, with its persistent entry, and a line written is
dirty (R270, R272). -/
def State.l1Made (s : State) (core line : Nat) (write : Bool) : State :=
  let s := s.closeReq core line
  if write then s.modHolder (dieOfCore core) line core fun h => { h with dirty := true } else s

/-- The line is homed on another package. -/
def State.peerLine (s : State) (line : Nat) : Bool :=
  match s.homeOf (128 * line) with
  | some (.package _) => true
  | _ => false

/-- The accesses that a core makes in its L1: loads of its die's lines, and of remote ones where the die has a remote-line
cache, and stores of its die's lines; none of a page that is not cached (R246, R269, R382). -/
def State.inL1 (s : State) (die line : Nat) (k : Kind) (nc : Bool) : Bool :=
  !nc && match k with
    | .read => s.lineDie line == some die || (((s.lineDie line).isSome || s.peerLine line) && s.coh.rlc.getD die 0 != 0)
    | .write => s.lineDie line == some die
    | .atomic | .fetch => false

/-- A write of a thread to a line off its die has not been acknowledged: a later one of its to the line is held (R252). -/
def Block.holdsLine (b : Block) (tid line : Nat) : Bool :=
  b.acks.any fun a => (a.tid == tid || a.tids.contains tid) && (a.pa / 128 == line || a.lines.contains line)

/-- What one line of an access of a thread needs before it is performed (R269). A thread's write to a line off its die is
held until its earlier ones there are acknowledged (R252). -/
def State.gateLine (s : State) (b : Block) (tid line : Nat) (k : Kind) (nc : Bool := false) : State × Bool :=
  let core := b.place.core
  let held := b.holdsLine tid line
  if s.inL1 b.die line k nc then s.l1Access core line (k == .write) (b.id, tid == b.cfg.bsize)
  else match k, s.lineDie line with
  | .fetch, _ | .read, none => (s, true)
  | .read, some d => match s.homeServes d line with
    | some s => (s, true)
    | none => (s, false)
  | .write, none | .atomic, none => (s, !held)
  | .write, some d | .atomic, some d =>
    if d = b.die then s.homeWrite d line none
    else if held then (s, false) else s.homeWrite d line (some (.cluster b.cluster))

/-- What an access needs of the coherence machinery, over its lines: the state changes there alone. Where every line is
ready, the access is made (R272). -/
def State.gate (s : State) (b : Block) (tid pa n : Nat) (k : Kind) (nc : Bool := false) : State × Bool :=
  let (t, ok) := (linesOf pa n).foldl (fun (a : State × Bool) line =>
    let (s, ok) := a.1.gateLine b tid line k nc
    (s, a.2 && ok)) (s.pruneReqs, true)
  let t := if ok then (linesOf pa n).foldl (fun t line =>
      if s.inL1 b.die line k nc then t.l1Made b.place.core line (k == .write) else t) t
    else t
  ({ s with coh := t.coh }, ok)

/-- The coherence machinery after an access that is not made after all: the requests that stood still stand (R272). -/
def State.unmade (s t : State) : State :=
  let lost := s.coh.reqs.filter fun r => (t.req? r.core r.line).isNone
  { s with coh := { t.coh with reqs := t.coh.reqs ++ lost }, choices := t.choices }

/-- The lines of a read are in the core's caches: no other package has to answer (R246). -/
def State.cachedRead (s : State) (b : Block) (pa n : Nat) : Bool :=
  (linesOf pa n).all fun line => s.holds b.place.core line false ||
    s.coh.remote.any fun r => r.die == b.die && r.line == line && !r.fill

/-- A die of this package loses its copies of a line of another package, whose home invalidates it: a fill still outstanding
serves its loads and is dropped then (R269, R274, R275). -/
def State.dropPeerLine (s : State) (line : Nat) : State :=
  (List.range Config.dies).foldl (fun s die =>
    let s := s.gather die line
    let rest := s.coh.remote.filter fun r => !(r.die == die && r.line == line && !r.fill)
    let remote := rest.map fun r => if r.die = die ∧ r.line = line then { r with drop := true } else r
    { s with coh := { s.coh with remote } }) s

/-! ## Errors in caches (R412, R413, R415) -/

/-- A dirty line lies in the L1 of a core. -/
def State.dirtyIn (s : State) (core line : Nat) : Bool :=
  (s.holders (dieOfCore core) line).any fun h => h.core == core && h.dirty

/-- An uncorrectable error of a line that has left its L1 is in memory, with its event: the line was written to its home with
check symbols that do not match it (R415, R423). -/
def State.sweep (s : State) : State :=
  if s.health.bad.isEmpty then s
  else
    (s.health.bad.filterMap fun u => match u with
      | .l1 core w => if s.dirtyIn core (8 * w / 128) then none else some (core, w)
      | _ => none).foldl (fun s x =>
        let t := s.event (dieOfCore x.1) 0x11 1 0 2 (some (8 * x.2, 0))
        { t with health := { t.health with bad := .mem (8 * x.2 / 32) :: t.health.bad.filter (· != .l1 x.1 x.2) } }) s

/-! ## Quarantine (R278) -/

/-- A package joins the quarantine set, with its event on a die: `why` 0 an invalidation, 1 a write or load. -/
def State.quarantine (s : State) (die pkg why : Nat) : State :=
  if s.fabric.quarantine.contains pkg then s
  else State.event { s with fabric := { s.fabric with quarantine := s.fabric.quarantine ++ [pkg] } } die 0x30 0 pkg why

/-- Every copy that a package holds counts as invalidated: it is in no entry, and the rounds that waited for it go on; lines
that nobody else may hold are I. -/
def State.forgetPackage (s : State) (pkg : Nat) : State :=
  let rounds := s.coh.rounds.map fun r =>
    { r with pending := r.pending.filter (· != .package pkg), acking := r.acking.filter (· != .package pkg) }
  let regions := s.coh.regions.map fun r => r.forget (.package pkg)
  let bare (r : Region) : Region := if (s.places r).isEmpty then { r with ls := r.ls.map fun n => if n = 2 then 2 else 0 } else r
  State.endRounds { s with coh := { s.coh with rounds, regions := regions.map bare } }

/-- An invalidation across Bridle stays unacknowledged for the timeout: the home quarantines the package. -/
def execInvalidationTimeout (line : Nat) (s : State) : Host.Outcome State Fault Refusal :=
  .next (
    let late := s.coh.rounds.filter fun r => r.line == line && decide (r.since + s.fabric.ackto ≤ s.clock.time)
    let pkgs := (late.map fun r => (r.pending ++ r.acking).filterMap fun
      | .package n => some n
      | .cluster _ => none).flatten.dedup
    pkgs.foldl (fun s p => (s.quarantine ((s.lineDie line).getD 0) p 0).forgetPackage p) s)

end Sys2Proof.Machine
end

