-- ==== Sys2Proof/Machine/Operands.lean ====
section
/-! DEFINITION. Operand forms: register reads and writes by width and class (R35 to R37), immediates
(R120), masks (R40), uniform writes (R123). -/

namespace Sys2Proof.Machine

/-! ## Registers -/

/-- The value of k consecutive vector registers, the first lowest (R36). -/
def Thread.reg (th : Thread) (n : Nat) : Nat → Nat
  | 0 => 0
  | k + 1 => (th.v.getD n 0#32).toNat + 2 ^ 32 * th.reg (n + 1) k

/-- A predicate: p7 reads true (R39). -/
def Thread.pred (th : Thread) (n : Nat) : Bool := if n = 7 then true else th.p.getLsbD n

/-- The value of a uniform register (R37). -/
def Block.ureg (b : Block) (n : Nat) : Nat := (b.uregs.getD n {}).val.toNat

/-- One register write of one thread: a vector register or a predicate. -/
inductive Wr where
  | v (n : Nat) (x : Word)
  | p (n : Nat) (x : Bool)
  | seed (x : Word)
  deriving DecidableEq, Repr

/-- A write; p7 discards what is written (R39). -/
def Thread.write (th : Thread) : Wr → Thread
  | .v n x => { th with v := th.v.set n x }
  | .p n x => if n < 7 then { th with p := if x then th.p ||| (1#7 <<< n) else th.p &&& ~~~(1#7 <<< n) } else th
  | .seed x => { th with seed := x }

/-- A value written to k consecutive vector registers. -/
def wrV (n k : Nat) (x : Nat) : List Wr :=
  (List.range k).map fun i => .v (n + i) (BitVec.ofNat 32 (x >>> (32 * i)))

/-! ## Sources -/

/-- What a source is read from: the block and the thread. -/
structure Opnd where
  b  : Block
  th : Thread

/-- The low bits of a value for a type (R121). -/
def low (t : Ty) (x : Nat) : Nat := x % 2 ^ t.bits

/-- The register of a field in the role of a type: uniform registers in a uniform form (R37, R83). -/
def Opnd.reg (x : Opnd) (uni : Bool) (t : Ty) (n : Nat) : Nat :=
  low t (if uni then x.b.ureg n else x.th.reg n t.regs)

/-- An immediate as a value of a type (R120). -/
def immVal (t : Ty) (imm : Word) : Nat :=
  match t with
  | .i64 | .b64 => (imm.signExtend 64).toNat
  | .f64 => finishFloat .f64 .rn 0 false false (Fmt.f32.decode imm.toNat)
  | .f16 | .bf16 => imm.toNat % 65536
  | _ => imm.toNat

/-- Source a (R119). -/
def Opnd.a (x : Opnd) (w : CWord) (t : Ty) : Nat := x.reg w.uni t w.a.toNat

/-- Source b: register B, or IMM with BSEL 10 (R51, R119). -/
def Opnd.bb (x : Opnd) (w : CWord) (t : Ty) : Nat :=
  if w.bsel = 2#2 then low t (immVal t w.imm) else x.reg w.uni t w.b.toNat

/-- Source c: register C with BSEL 01, IMM with BSEL 00 (R119). -/
def Opnd.c (x : Opnd) (w : CWord) (t : Ty) : Nat :=
  if w.bsel = 1#2 then x.reg w.uni t w.c else low t (immVal t w.imm)

/-- Source e, a register of the extension word (R119). -/
def Opnd.e (x : Opnd) (w : CWord) (t : Ty) : Nat := x.reg w.uni t w.e

/-- A unary source: register A, or IMM with BSEL 10 (R119). -/
def Opnd.un (x : Opnd) (w : CWord) (t : Ty) : Nat :=
  if w.bsel = 2#2 then low t (immVal t w.imm) else x.a w t

/-- The rounding mode by R19: the override, else %fmode.RMODE; SR becomes RN in a uniform form. -/
def modeOf (b : Block) (w : CWord) (fixed : Option Nat := none) : Mode :=
  let code := match fixed with
    | some k => k
    | none => if w.round = 0 then bits b.regs.fmode 0 3 else w.round
  match Mode.ofCode code with
  | some .sr => if w.uni then .rn else .sr
  | some m => m
  | none => .rn

/-- Whether a format is flushed (R22). -/
def ftzOf (b : Block) (w : CWord) (f : Fmt) : Bool :=
  match f with
  | .f32 => w.ftz || b.regs.fmode.getLsbD 3
  | .f16 | .bf16 => w.ftz || b.regs.fmode.getLsbD 4
  | _ => false

/-! ## Uniform registers -/

/-- UniformWrite (R123): the value stored, the hidden fields, and HAZ when an earlier write of the same
PC and epoch by threads not of this issue left another value. -/
def Block.uniformWrite (b : Block) (pc : DWord) (tids : List Nat) (n : Nat) (v : DWord) : Block :=
  let u := b.uregs.getD n {}
  let haz := u.pc == some pc && u.epoch == b.epoch && u.val != v && !tids.contains u.tid
  let lo := (minBy (fun t : Nat => t) tids).getD 0
  { b with
    uregs := b.uregs.set n { val := v, pc := some pc, epoch := b.epoch, tid := lo }
    regs := if haz then { b.regs with ustat := b.regs.ustat ||| 1#32 } else b.regs }

/-! ## Static register check (R38, R236, R374) -/

/-- A class and code lie inside the allocation: of a thread, or 32 registers of the handler. -/
def clsIn (cfg : LaunchRec) (handler : Bool) (c : Cls) (code : Nat) : Bool :=
  match c with
  | .v n => decide (code + n ≤ if handler then 32 else cfg.vAlloc)
  | .s n => decide (code + n ≤ cfg.uAlloc)
  | .t => decide (code < cfg.tiles)
  | .x => decide (code < cfg.xsums)
  | _ => true

/-- A word's static operands lie inside the allocation (R38), its pin number below the pin count (R97),
the side tile of the tile form below the tile count (R194). -/
def staticOk (cfg : LaunchRec) (handler : Bool) (op : Nat) (w : CWord) : Bool :=
  let g := sig op w
  clsIn cfg handler g.d w.d.toNat && clsIn cfg handler g.a w.a.toNat && clsIn cfg handler g.b w.b.toNat &&
    (w.bsel != 1#2 || clsIn cfg handler g.c w.c) && clsIn cfg handler g.e w.e &&
    (op != 0x008 && op != 0x009 && op != 0x00A || decide (w.imm.toNat < cfg.pins)) &&
    (op != 0x300 && op != 0x301 || w.bsel == 1#2 || sideBytes (op == 0x301) w.ty == 0 ||
      decide (w.b.toNat + 1 < cfg.tiles))

/-- The registers and predicate a word writes, for a masked-off thread in zero mode (R40, R185). -/
def zeroWrites (op : Nat) (w : CWord) : List Wr :=
  let g := sig op w
  let isStore := op == 0x201 || op == 0x203 || op == 0x205
  let d : List Wr := match g.d with
    | .v n => if isStore then [] else wrV w.d.toNat n 0
    | .p => [.p w.d.toNat false]
    | _ => []
  let d := if (op = 0x30C ∨ op = 0x30D ∨ op = 0x30E) ∧ w.modF 1 1 = 1 then d ++ wrV w.e 1 0 else d
  if op = 0x283 ∨ op = 0x285 ∨ op = 0x286 ∨ op = 0x287 then .p (bits w.imm 0 3) false :: d else d

end Sys2Proof.Machine
end

