-- ==== Sys2Proof/Machine/Flags.lean ====
section
/-! DEFINITION. Conditions and status: the comparisons of R127 and R138, float classes (R139), the
status of exact accumulators (R28 to R31), completion flags (R68, R69). -/

namespace Sys2Proof.Machine

/-- Cond(a, b) of R127 on values of a type; codes 6 and 7 test bits. -/
def condInt (t : Ty) (cond a b : Nat) : Bool :=
  let x := valOf t a
  let y := valOf t b
  match cond with
  | 0 => x == y
  | 1 => x != y
  | 2 => decide (x < y)
  | 3 => decide (x ≤ y)
  | 4 => decide (y < x)
  | 5 => decide (y ≤ x)
  | 6 => a &&& b != 0
  | _ => a &&& b == 0

/-- The float conditions of R138; `u` is the suffix .u. -/
def condFloat (cond : Nat) (u : Bool) (a b : Fp) : Bool :=
  let nan := a.isNan || b.isNan
  match cond with
  | 6 => !nan
  | 7 => nan
  | _ =>
    if nan then u
    else match cond, a.cmp b with
      | 0, .eq | 1, .lt | 1, .gt | 2, .lt | 3, .lt | 3, .eq | 4, .gt | 5, .gt | 5, .eq => true
      | _, _ => false

/-- The class bit of a code (R139): the flushed value decides. -/
def classBit (f : Fmt) (ftz : Bool) (code : Nat) : Nat :=
  let neg := code / f.signBit % 2 == 1
  match readFloat f ftz code with
  | .nan => 8
  | .inf s => if s then 0 else 7
  | .fin _ n _ _ =>
    if n = 0 then (if neg then 3 else 4)
    else if f.subnormal code then (if neg then 2 else 5)
    else (if neg then 1 else 6)

/-- XAccumulate (R29) on N and the status bits OVF, NINF, PINF, NAN (R28). -/
def XAcc.add (x : XAcc) (v : Fp) : XAcc :=
  match v with
  | .nan => { x with st := x.st ||| 1#4 }
  | .inf s => { x with st := x.st ||| if s then 4#4 else 2#4 }
  | .fin s n d e =>
    let m := n * 2 ^ (e + 308).toNat / (d * 2 ^ (-(e + 308)).toNat)
    let sum := x.n.toInt + (if s then -(m : Int) else m)
    let st := if sum < -(2 ^ 639 : Int) ∨ 2 ^ 639 - 1 < sum then x.st ||| 8#4 else x.st
    { n := BitVec.ofInt 640 sum, st }

/-- XRound (R31), with its draw. -/
def XAcc.round (x : XAcc) (f : Fmt) (mode : Mode) (sr : Nat) : Nat :=
  let ovf := x.st.getLsbD 3
  let ninf := x.st.getLsbD 2
  let pinf := x.st.getLsbD 1
  if x.st.getLsbD 0 || ovf || (pinf && ninf) then f.nanCode
  else if pinf then f.infCode
  else if ninf then f.signed true f.infCode
  else if x.n = 0#640 then 0
  else
    let n := x.n.toInt
    roundTo f mode sr (decide (n < 0)) n.natAbs 1 (-308)

/-- %xstat from the accumulators (R28). -/
def xstat (xs : List XAcc) : Word :=
  BitVec.ofNat 32 ((List.range 8).foldl (fun a k => a + 16 ^ k * ((xs.getD k {}).st).toNat) 0)

/-! ## Completion flags -/

/-- One outstanding result reaches its registers, and its count falls (R48, R68). -/
def Thread.deliver (th : Thread) (o : Outst) : Thread :=
  let th := o.regs.foldl (fun th r => th.write (.v r.1 r.2)) th
  let th := match o.pred with
    | some (n, x) => th.write (.p n x)
    | none => th
  match o.flag with
  | some k => th.bump k false
  | none => th

/-- Every outstanding result that meets a test arrives. -/
def Thread.deliverIf (p : Outst → Bool) (th : Thread) : Thread :=
  (th.outst.filter p).foldl Thread.deliver { th with outst := th.outst.filter (!p ·) }

/-- A later write of a register drops the outstanding one (R48); its flag still completes. -/
def Outst.drop (o : Outst) : Wr → Outst
  | .v n _ => { o with regs := o.regs.filter (·.1 != n) }
  | .p n _ => { o with pred := o.pred.filter (·.1 != n) }
  | .seed _ => o

/-- A write by a later instruction of the thread (R48). -/
def Thread.put (th : Thread) (x : Wr) : Thread :=
  let th : Thread := { th with outst := th.outst.map fun o => o.drop x }
  th.write x

/-- %flags (R69). -/
def Thread.flagsReg (th : Thread) : Word :=
  BitVec.ofNat 32 ((List.range 12).foldl (fun a k => if th.pend k = 0 then a else a + 2 ^ k) 0)

/-- A write of %flags.PEND: a 0 clears the count, and results still outstanding no longer affect it
(R69). -/
def Thread.setFlags (th : Thread) (x : Word) : Thread :=
  { th with
    flags := th.flags.mapIdx fun k n => if x.getLsbD k then n else 0
    owed := th.owed.filter fun k => x.getLsbD k
    outst := th.outst.map fun o => { o with flag := o.flag.filter fun k => x.getLsbD k } }

end Sys2Proof.Machine
end

