-- ==== Sys2Proof/Machine/Issue.lean ====
section
/-! DEFINITION. One issue of one instruction: the checks that come before its meaning, what its meaning
says of each thread, and what follows for registers, flags, reels and the block (R38 to R48, R68 to R73,
R88, R164). -/

namespace Sys2Proof.Machine

/-- What an issue is: its threads by rank, the active ones and those that are not masked off, and the
block as it stands when the sources are read (R39, R40, R46). -/
structure Ctx where
  iss  : Issue
  op   : Nat
  w    : CWord
  b    : Block
  pc   : DWord
  next : DWord
  act  : List (Nat × Nat)
  on   : List (Nat × Nat)

/-- What becomes of one thread of an issue. -/
inductive Fate where
  /-- It completes with writes and bytes of traffic, and goes on at NextPC. -/
  | done (ws : List Wr := []) (bytes : Nat := 0)
  /-- As done, for a thread that is masked off: its writes are direct (R40). -/
  | masked (ws : List Wr)
  /-- It completes, already charged, and goes on at NextPC. -/
  | paid
  /-- It completes and goes on at a target. -/
  | goto (pc : DWord) (ws : List Wr := [])
  /-- It completes a clause header (R67). -/
  | header (n : Nat) (slots : Option Nat × Option Nat)
  /-- It completes and waits at NextPC, landed (R105). -/
  | landed (w : Wait)
  /-- It stands at the instruction, waiting or parked; charged when it completes (R88). -/
  | wait (w : Wait)
  /-- It ends (R103). -/
  | exit
  /-- It stands at the instruction and issues it again. -/
  | stay
  /-- It stands at the instruction until a walk is answered; 0 for an access answered MOVED (R277, R384). -/
  | stall (walk : Nat)
  /-- It stands at the instruction until a package, or the host as 1,024, answers (R394, R397). -/
  | remote (pkg : Nat) (access : TrapInfo)
  /-- It stands at the instruction and issues it again before its plait goes on: the coherence machinery does not let the
  access be performed yet (R252, R271, R274), a release waits (R258), the engine is busy (R195). -/
  | again
  | trap (t : TrapInfo)
  /-- It stops precisely in either fault mode (R199, R201, R334). -/
  | stop (t : TrapInfo)
  deriving DecidableEq, Repr

/-- A thread for which the instruction completes (R88). -/
def Fate.completes : Fate → Bool
  | .done _ _ | .masked _ | .goto _ _ | .header _ _ | .landed _ | .exit => true
  | _ => false

/-- The bytes it is charged (R164): a WAITADDR or a PARK as it parks, any other access as it completes. -/
def Fate.bytes : Fate → Nat
  | .done _ n => n
  | .wait (.parked q) => q.bytes
  | _ => 0

/-- The thread waits where it stands. -/
def Fate.waits : Fate → Bool
  | .wait _ => true
  | _ => false

/-- The trap that it takes in the fault mode. -/
def Fate.trap? : Fate → Option TrapInfo
  | .trap t => some t
  | _ => none

/-- The trap that retires its thread, where lane-off mode is on (R163). -/
def Fate.retires? (off : Bool) : Fate → Option TrapInfo
  | .trap t => if off && laneOffCause t.cause then some t else none
  | _ => none

/-- The trap at which its thread stops. -/
def Fate.halts? (off : Bool) : Fate → Option TrapInfo
  | .trap t => if off && laneOffCause t.cause then none else some t
  | .stop t => some t
  | _ => none

/-- The flag of the set-slot that a word selects, for a thread inside a clause (R68). -/
def Thread.slotFlag (th : Thread) (w : CWord) : Option Nat :=
  if th.inClause = 0 then none else if w.slot = 0 then th.slots.1 else th.slots.2

/-- A flag-tracked instruction (R68). -/
def flagTracked (op : Nat) (w : CWord) : Bool := longLatency op w || decide (0x200 ≤ op ∧ op < 0x300)

/-- The writes of an instruction that completes: outstanding for a long-latency result inside a clause,
direct for any other, and for the generator state (R25, R47, R48, R68, R73). -/
def Thread.results (op : Nat) (w : CWord) (ws : List Wr) (th : Thread) : Thread :=
  if th.inClause ≠ 0 ∧ flagTracked op w then
    let flag := th.slotFlag w
    -- a draw is part of the issue itself (R25)
    let seeds := ws.filter fun x => match x with
      | .seed _ => true
      | _ => false
    let th := seeds.foldl Thread.put th
    if ws.isEmpty && flag.isNone then th
    else
      let th : Thread := { th with outst := th.outst.map fun o => ws.foldl Outst.drop o }
      let th := match flag with
        | some k => th.bump k true
        | none => th
      let regs := ws.filterMap fun
        | .v n x => some (n, x)
        | _ => none
      let pred := (ws.filterMap fun
        | .p n x => some (n, x)
        | _ => none).head?
      { th with outst := th.outst ++ [({ regs, pred, flag } : Outst)] }
  else ws.foldl Thread.put th

/-- The word is issued for a thread: it goes on, one word further in its clause (R71). -/
def Thread.go (pc : DWord) (th : Thread) : Thread :=
  { th with pc, inClause := th.inClause - 1, slots := if th.inClause ≤ 1 then (none, none) else th.slots, prepaid := false, fault := none, held := none, asks := false }

/-- A thread that waits at a flag-tracked instruction: its flag counts until the instruction completes (R68). -/
def Thread.owe (th : Thread) (flag : Option Nat) : Thread :=
  match flag with
  | some k => { th.bump k true with owed := some k }
  | none => th

/-- What a fate does to its thread. -/
def Thread.apply (c : Ctx) (now : Nat) (f : Fate) (th : Thread) : Thread :=
  let th := { th with asks := false }
  match f with
  | .done ws _ => (th.results c.op c.w ws).go c.next
  | .masked ws => (ws.foldl Thread.put th).go c.next
  | .paid => th.go c.next
  | .goto pc ws => (ws.foldl Thread.put th).go pc
  | .header n slots => { th with pc := c.next, inClause := n, slots, prepaid := false, fault := none }
  | .landed w => { th.go c.next with st := .waiting, wait := some w }
  | .wait w =>
    { th with
      st := match w with
        | .parked _ => .parked
        | _ => .waiting
      wait := some w, wlen := c.iss.len, inClause := 0, slots := (none, none), prepaid := false, fault := none, held := none }.owe
        (if flagTracked c.op c.w then th.slotFlag c.w else none)
  | .stall k => { th with stall := some k, retiring := false, held := if k = 0 then some (c.b.uregs.map (·.val)) else th.held }
  | .remote p t => { th with remote := some (p, now, t), held := some (c.b.uregs.map (·.val)) }
  | .trap _ | .stop _ => { th with fault := none, held := none }
  -- it has read its sources (R46)
  | .again => { th with asks := true, held := some (th.held.getD (c.b.uregs.map (·.val))) }
  | .exit | .stay => th

/-- Every active thread of an issue stands, masked off or not, and the issue is made again. -/
def Ctx.holdAll (c : Ctx) : List (Nat × Fate) := c.act.map fun x => (x.2, .again)

/-- The engine of a block performs an issue of other threads (R195). -/
def Block.engineBusy (b : Block) (iss : Issue) : Bool :=
  !iss.handler && (b.engine.any fun t => (b.th t).st == .ready) && !iss.ths.any fun x => b.engine.contains x.2

/-- The threads that a test of fates picks. -/
def pickFates {α : Type} (p : Fate → Option α) (fs : List (Nat × Fate)) : List (Nat × α) :=
  fs.filterMap fun x => (p x.2).map fun y => (x.1, y)

/-- Fates by ascending rank: of several causes the lowest-ranked thread's is reported (R369). -/
def Ctx.ranked (c : Ctx) (fs : List (Nat × Fate)) : List (Nat × Fate) :=
  c.iss.ths.filterMap fun x => fs.find? fun f => f.1 == x.2

/-- What follows once the threads of an issue have changed: what a wait, an exit, a trap or a stop among the
fates brings about for the block (R99, R101, R103, R163, R191, R368). -/
def State.conclude (s : State) (c : Ctx) (fs : List (Nat × Fate)) : State :=
  let blk := c.iss.blk
  let fs := c.ranked fs
  let s := if (fs.any fun f => f.2.waits) then s.releases blk else s
  let s := s.exitThreads blk ((fs.filter fun f => f.2 == .exit).map (·.1))
  let off := !c.iss.handler && c.b.cfg.laneOff
  (s.retireThreads blk (pickFates (Fate.retires? off) fs)).haltThreads blk c.iss.handler (pickFates (Fate.halts? off) fs)

/-- The registers that the writes of an issue replace whole, with their errors (R415). -/
def healed (blk : Nat) (fs : List (Nat × Fate)) (u : ErrUnit) : Bool :=
  match u with
  | .reg k t n => k == blk && fs.any fun f => f.1 == t && match f.2 with
    | .done ws _ | .masked ws | .goto _ ws => ws.any fun
      | .v m _ => m == n
      | _ => false
    | _ => false
  | _ => false

/-- The fates take effect on the block: registers, PCs, the charge of both reels (R88, R164), and what
follows. -/
def State.finish (s : State) (c : Ctx) (fs : List (Nat × Fate)) : State :=
  let blk := c.iss.blk
  let idle := c.iss.ths.filter fun x => !fs.any fun f => f.1 == x.2
  let s := (s.heal (healed blk fs)).modBlock blk fun b =>
    let b := fs.foldl (fun b f => b.modTh f.1 (Thread.apply c s.clock.time f.2)) b
    idle.foldl (fun b x => b.modTh x.2 (Thread.go c.next)) b
  let n := (fs.filter fun f => f.2.completes).length
  let s := if c.iss.handler then s
    else s.charge blk (n * weight c.op c.w) ((fs.map fun f => f.2.bytes).foldl (· + ·) 0)
  s.conclude c fs

/-! ## Before the meaning -/

/-- The threads of an issue whose outstanding results a read waits for: outside a clause all of them;
inside one each has arrived or not (R47). A clause header reads nothing, and waits by its mask alone (R67). -/
def State.arrive (s : State) (iss : Issue) (op : Nat) : State :=
  if op = 0x001 then s else iss.ths.foldl (fun s x =>
    match s.block? iss.blk with
    | none => s
    | some b =>
      let th := b.th x.2
      if th.outst.isEmpty then s
      else if th.inClause = 0 then s.modTh iss.blk x.2 (Thread.deliverIf fun _ => true)
      else
        let s' := { s with choices := s.choices + th.outst.length }
        let n := s.choices
        s'.modTh iss.blk x.2 fun th =>
          (th.outst.zipIdx.filter fun o => Config.arrived (n + o.2)).foldl (fun th o => th.deliver o.1)
            { th with outst := (th.outst.zipIdx.filter fun o => !Config.arrived (n + o.2)).map (·.1) }) s

/-- The vector registers an instruction reads, of the classes its signature gives. -/
def readRegs (op : Nat) (w : CWord) : List Nat :=
  let g := sig op w
  let span (c : Cls) (n : Nat) : List Nat := match c with
    | .v k => (List.range k).map (n + ·)
    | _ => []
  span g.a w.a.toNat ++ span g.b w.b.toNat ++ (if w.bsel = 1#2 then span g.c w.c else []) ++ span g.e w.e ++
    (if op = 0x201 ∨ op = 0x203 ∨ op = 0x205 then span g.d w.d.toNat else [])

/-- The uniform registers an instruction reads. -/
def readURegs (op : Nat) (w : CWord) : List Nat :=
  let g := sig op w
  let span (c : Cls) (n : Nat) : List Nat := match c with
    | .s k => (List.range k).map (n + ·)
    | _ => []
  span g.a w.a.toNat ++ span g.b w.b.toNat ++ (if w.bsel = 1#2 then span g.c w.c else []) ++ span g.e w.e ++
    (if op = 0x300 ∨ op = 0x301 ∨ op = 0x305 ∨ op = 0x306 ∨ op = 0x308 then span g.d w.d.toNat else [])

/-- The predicates an instruction reads: its guard, its mask, and those of SEL, VOTE and PLOP. -/
def readPreds (op : Nat) (w : CWord) : List Nat :=
  w.guardPred :: (if w.maskEn then [w.maskPred] else []) ++
    (if op = 0x09F then [w.modF 0 3] else if op = 0x189 then [w.a.toNat]
      else if op = 0x0A3 then [w.a.toNat, w.b.toNat, bits w.imm 8 3] else [])

/-- The exact accumulators that an instruction reads: XRND's and XMOV's, and those that XADD and XFMA add to. -/
def readXSums (op : Nat) (w : CWord) : List Nat :=
  let g := sig op w
  (if g.a = .x then [w.a.toNat] else []) ++ (if (op = 0x191 ∨ op = 0x192) ∧ g.d = .x then [w.d.toNat] else [])

/-- The tiles an instruction reads: BINQ's, the B tile of a matrix product with its side tile, TST's. -/
def readTiles (op : Nat) (w : CWord) : List Nat :=
  if op = 0x198 then [w.b.toNat]
  else if op = 0x303 then [w.d.toNat]
  else if (op = 0x300 ∨ op = 0x301) ∧ w.bsel ≠ 1#2 then
    w.b.toNat :: if sideBytes (op == 0x301) w.ty = 0 then [] else [w.b.toNat + 1]
  else []

/-- A register of the file or of the uniform store that the thread reads holds an uncorrectable error. -/
def State.badFile (s : State) (blk tid op : Nat) (w : CWord) : Bool :=
  (readRegs op w).any (fun n => s.health.bad.contains (.reg blk tid n)) ||
    (readURegs op w).any (fun n => s.health.bad.contains (.ureg blk n))

/-- A register, an accumulator or a tile that the thread reads holds an uncorrectable error (R414), or its registers
came back so from their parking slots (R238). -/
def State.badReg (s : State) (blk tid op : Nat) (w : CWord) : Bool :=
  !s.health.bad.isEmpty && (s.badFile blk tid op w ||
    (readXSums op w).any (fun n => s.health.bad.contains (.xsum blk n)) ||
    (readTiles op w).any (fun n => s.health.bad.contains (.tile blk n)))

/-- The context of an issue. -/
def ctxOf (iss : Issue) (op : Nat) (w : CWord) (b : Block) : Ctx :=
  let pc := (b.th ((iss.ths.map (·.2)).headD 0)).pc
  let act := iss.ths.filter fun x => (b.th x.2).pred w.guardPred != w.guardNot
  let on := act.filter fun x => !w.maskEn || (b.th x.2).pred w.maskPred
  { iss, op, w, b, pc, next := pc + BitVec.ofNat 64 iss.len, act, on }

/-- The block with its uniform registers as an access reads them: one that is reissued keeps the sources that it has read
(R46, R277). -/
def Ctx.rb (c : Ctx) : Block :=
  match (c.b.th ((c.iss.ths.map (·.2)).headD 0)).held with
  | some xs => { c.b with uregs := c.b.uregs.mapIdx fun n u => { u with val := xs.getD n u.val } }
  | none => c.b

/-- The traps that come before the meaning, in order: the clause position (R70), the static registers (R38), the
instructions that trap mode forbids (R375), an error in a register read (R414). -/
def State.early (s : State) (c : Ctx) : List (Nat × TrapInfo) :=
  let pos := c.iss.ths.filter fun x => clauseEnding c.op c.w && decide (1 < (c.b.th x.2).inClause)
  let rest := c.act.filter fun x => !pos.contains x
  let cause (x : Nat × Nat) : Option TrapInfo :=
    if !staticOk c.b.cfg c.iss.handler c.op c.w then some { cause := .regIndex }
    else if c.iss.handler && handlerForbids c.op c.w then some { cause := .illegalOp }
    else if c.on.contains x && s.badReg c.iss.blk x.2 c.op c.w then some { cause := .uncorrectedData }
    else none
  (pos.map fun x => (x.2, { cause := .illegalOp })) ++ rest.filterMap fun x => (cause x).map fun t => (x.2, t)

/-- An issue that would take a flag's count above 63 waits (R68). -/
def Ctx.flagFull (c : Ctx) : Bool :=
  flagTracked c.op c.w && c.on.any fun x =>
    match (c.b.th x.2).slotFlag c.w with
    | some k => decide (63 ≤ (c.b.th x.2).pend k)
    | none => false

/-- A unit that an issue reads: a register of a thread that is on, a uniform one, an exact accumulator, a tile, a row. -/
def Ctx.readsUnit (c : Ctx) (u : ErrUnit) : Bool :=
  !c.on.isEmpty && match u with
  | .reg k t n => k == c.iss.blk && c.on.any (·.2 == t) && (readRegs c.op c.w).contains n
  | .ureg k n => k == c.iss.blk && (readURegs c.op c.w).contains n
  | .xsum k n => k == c.iss.blk && (readXSums c.op c.w).contains n
  | .tile k n => k == c.iss.blk && (readTiles c.op c.w).contains n
  | .row k _ => k == c.iss.blk && [0x300, 0x301, 0x306, 0x307, 0x309].contains c.op
  | _ => false

/-- The uniform register or the exact accumulator that an issue writes whole (R415). -/
def Ctx.putsUnit (c : Ctx) (u : ErrUnit) : Bool :=
  !c.on.isEmpty && match u, (sig c.op c.w).d with
  | .ureg k n, .s m => k == c.iss.blk && decide (c.w.d.toNat ≤ n ∧ n < c.w.d.toNat + m)
  | .xsum k n, .x => k == c.iss.blk && n == c.w.d.toNat
  | _, _ => false

/-- An UNCORRECTED event for the register errors met: of the register file and the uniform store, or of a tile or an
exact accumulator (R412, R414, R423). -/
def State.noteEarly (s : State) (c : Ctx) (ts : List (Nat × TrapInfo)) : State :=
  if ts.any (fun t => t.2.cause == .uncorrectedData) then
    s.coreError c.b (if c.on.any fun x => s.badFile c.iss.blk x.2 c.op c.w then 2 else 1) 0
  else s

/-- One issue of an instruction with a meaning for its threads. `act` answers a fate for each thread
that is on, in a state with its own effects; a thread it does not name completes. A participant that takes UNCORRECTED_DATA
before a cross-thread instruction is no participant for the others, and the register of one that is masked off is not checked
(log 81). -/
def State.runIssueOf (s : State) (iss : Issue) (op : Nat) (w : CWord)
    (act : Ctx → State → State × List (Nat × Fate)) : State :=
  match (s.arrive iss op).block? iss.blk with
  | none => s
  | some b =>
    let s := s.arrive iss op
    let c := ctxOf iss op w b
    if c.flagFull then s
    else
      let traps := s.early c
      let s := s.noteEarly c traps
      let ok (x : Nat × Nat) : Bool := !traps.any (·.1 == x.2)
      let c := { c with act := c.act.filter ok, on := c.on.filter ok }
      let s := s.correctUnits b.die c.readsUnit
      let off := c.act.filter fun x => !c.on.contains x
      let (s, fs) := if c.act.isEmpty then (s, []) else act c s
      let zs := (off.filter fun x => !fs.any (·.1 == x.2)).map fun x => (x.2, Fate.masked (if w.zeroing then zeroWrites op w else []))
      let rest := (c.on.filter fun x => !fs.any (·.1 == x.2)).map fun x => (x.2, Fate.done)
      let s := if fs.all fun f => f.2.completes then s.heal c.putsUnit else s
      s.finish c (fs ++ rest ++ zs ++ traps.map fun t => (t.1, Fate.trap t.2))

/-- The instruction of the issue that stands next. -/
def State.runIssue (s : State) (op : Nat) (w : CWord)
    (act : Ctx → State → State × List (Nat × Fate)) : State :=
  match s.cur with
  | none => s
  | some iss => s.runIssueOf iss op w act

/-! ## Shapes of meanings -/

/-- Each thread on its own, registers alone. -/
def State.runEach (s : State) (op : Nat) (w : CWord) (f : Ctx → Nat → Nat → Fate) : State :=
  s.runIssue op w fun c s => (s, c.on.map fun x => (x.2, f c x.1 x.2))

/-- What an arithmetic instruction gives for its operands: a value of k registers, with the seed after a
draw, a predicate, or a trap. -/
inductive Alu where
  | val (k : Nat) (x : Nat) (seed : Option Word := none)
  | pred (x : Bool)
  | trap (c : Cause)
  deriving DecidableEq, Repr

def Alu.fate (d : Nat) : Alu → Fate
  | .val k x none => .done (wrV d k x)
  | .val k x (some y) => .done (wrV d k x ++ [.seed y])
  | .pred x => .done [.p d x]
  | .trap c => .trap { cause := c }

/-- An arithmetic function of an issue: each thread on its own, or once for the plait into a uniform register
(R39, R83, R123), which is written at once, so that a read in its clause sees the new value of a uniform IDIV or IREM
(R47, log 61). -/
def State.aluAct (op : Nat) (w : CWord) (f : Opnd → Alu) (c : Ctx) (s : State) : State × List (Nat × Fate) :=
  let vec := c.on.map fun x => (x.2, (f { b := c.b, th := c.b.th x.2 }).fate w.d.toNat)
  match (sig op w).d with
  | .s _ =>
    match f { b := c.b, th := c.b.handler } with
    | .val _ x _ =>
      (s.modBlock c.iss.blk (·.uniformWrite c.pc (c.on.map (·.2)) w.d.toNat (BitVec.ofNat 64 x)), [])
    | _ => (s, vec)
  | _ => (s, vec)

/-- An arithmetic instruction. -/
def State.runAlu (s : State) (op : Nat) (w : CWord) (f : Opnd → Alu) : State :=
  s.runIssue op w (State.aluAct op w f)

end Sys2Proof.Machine
end

