-- ==== Sys2Proof/Machine/Access.lean ====
section
/-! DEFINITION. The accesses of threads: effective addresses (R159 to R161), the checks of R162, tiles
redirected (R334), translation with its waits (R384), unacknowledged writes (R165), scratchpads (R168,
R241, R242), and the caches that may be stale (R169, R184). -/

namespace Sys2Proof.Machine

/-- The ordering and the scope of an access with an ordered immediate (R160). -/
structure Order where
  acq   : Bool := false
  rel   : Bool := false
  scope : Nat := 0
  deriving DecidableEq, Repr

/-- The offset of an ordered or relaxed immediate (R160). -/
def offsetOf (ordered : Bool) (imm : Word) : DWord :=
  if ordered then (imm.extractLsb' 0 29).signExtend 64 else imm.signExtend 64

/-- EffAddr of the LD family (R161); `isStore` puts the index into field D. -/
def effAddr (x : Opnd) (w : CWord) (wide isStore : Bool) : DWord :=
  let am := w.modF 4 2
  let base : Nat :=
    if am = 0 ∧ !(w.uni) then x.th.reg w.a.toNat (if wide then 2 else 1)
    else x.b.ureg w.a.toNat
  let idxReg := if isStore then w.d.toNat else w.b.toNat
  let idx : DWord := if am = 2 then ((x.th.v.getD idxReg 0#32).signExtend 64) <<< (w.modF 2 2) else 0#64
  let sum := BitVec.ofNat 64 base + idx + offsetOf (w.modF 0 2 != 0) w.imm
  if wide then sum else sum &&& 0xFFFFFFFF#64

/-- LDK's address: AM 00 is a uniform base (R159). -/
def constAddr (x : Opnd) (w : CWord) : DWord :=
  let idx : DWord :=
    if w.modF 4 2 = 2 then ((x.th.v.getD w.b.toNat 0#32).signExtend 64) <<< (w.modF 2 2) else 0#64
  BitVec.ofNat 64 (x.b.ureg w.a.toNat) + idx + w.immS

/-- A vector pair base and an offset (R161). -/
def pairAddr (x : Opnd) (w : CWord) (ordered : Bool) : DWord :=
  BitVec.ofNat 64 (x.th.reg w.a.toNat 2) + offsetOf ordered w.imm

/-- What an address check ends in. -/
inductive Got where
  | pa (n : Nat)
  | no (f : Fate)
  deriving DecidableEq, Repr

/-- The location of an access of a task's thread (R334): an address of its own for a redirected one, a
cause, or the ordinary way. -/
def Task.locate (t : Task) (va : DWord) (write direct : Bool) : Option (Nat ⊕ Cause) :=
  let tile := va.toNat / 4096 * 4096
  match t.locs.find? (·.1 == tile) with
  | some (_, base) =>
    if direct && t.cfg.versioned then none
    else if write && !t.writes.any (·.1 == tile) then some (.inr .tileUndeclared)
    else if base = 0 then none
    else some (.inl (base + va.toNat % 4096))
  | none => if write && t.cfg.versioned && !direct then some (.inr .tileUndeclared) else none

/-- The fault that the walk of an earlier issue of the thread's instruction met at a page (R384). -/
def Thread.faultAt (th : Thread) (page : Nat) : Option TrapInfo :=
  th.fault.bind fun f => if f.1 = page then some f.2 else none

/-- The access whose persistent request is active when the page of its line freezes is still made at the old home (R272, R277,
R280): its physical address. -/
def State.lastAccess (s : State) (b : Block) (tid : Nat) (va : DWord) : Option Nat :=
  ((s.tlbFind b.place.core b.cfg.envelope va).map fun e => paOf e.leaf e.log va).filter fun pa =>
    (s.eng.migrs.any fun m => !m.copied && decide (m.old ≤ pa ∧ pa < m.old + m.len)) && s.coh.reqs.any fun r =>
      r.active && r.line == pa / 128 && r.core == b.place.core && r.blk.all fun x => x == (b.id, tid == b.cfg.bsize)

/-- Checks 1, 2 and 4 of R162 for one thread: its physical address, or its fate. A fault that the walk of
an earlier issue met is taken here (R384). `direct` is an object instruction (R334). -/
def State.locate (s : State) (b : Block) (tid : Nat) (va : DWord) (size align : Nat) (k : Kind)
    (direct : Bool := false) : State × Got :=
  let write := k == .write || k == .atomic
  let bad (c : Cause) (extra : Nat) (xlev : Nat := 0) : Got :=
    .no (.trap { cause := c, addr := va, write, size, xlev, extra := BitVec.ofNat 64 extra })
  if !canonical va then (s, bad .accessViolation 1)
  else if va.toNat % align ≠ 0 then (s, bad .misaligned align)
  else if write && !b.cfg.super && s.inCaps b.cfg.envelope va.toNat size then (s, bad .accessViolation 2)
  else
    match (s.task? b.task).bind (·.locate va write direct) with
    | some (.inl pa) => (s, .pa pa)
    | some (.inr c) => (s, bad c 0)
    | none =>
      match (b.th tid).faultAt (bits va 16 41) with
      | some t => (s, .no (.trap { t with addr := va, write, size }))
      | none =>
        match s.translate b.place.core b.cfg.envelope va k with
        | .ok pa => (s, .pa pa)
        | .bad t => (s, .no (.trap { t with write, size }))
        | .moved => match s.lastAccess b tid va with
          | some pa => (s, .pa pa)
          | none => (s, .no (.stall 0))
        | .miss =>
          let (s, id) := s.startWalk b.die b.cfg.envelope va k
          (s, .no (.stall id))

/-- The writes of a block that have not been acknowledged: its threads', its fault records', its copies' (R397). -/
def State.owed (s : State) (b : Block) : List Ack :=
  b.acks ++ b.records ++ ((s.eng.copies.filter (·.blk == b.id)).map (·.acks)).flatten

/-- The package whose answer a read awaits: 1,024 stands for the host (R394, R397). -/
def State.farOf (s : State) (pa : Nat) : Option Nat :=
  match s.homeOf pa with
  | some .host => some 1024
  | some (.package n) => some n
  | _ => none

/-- The answer of the host, or of another package, to a read or an atomic: it comes, or the thread waits for it (R397). The
host's may be an error (R394); another package has to be reached by a port that is up (R396). -/
def State.answered (s : State) (n : Nat) (va : DWord) (pa size : Nat) (write : Bool) : State × Got :=
  let t : TrapInfo := { cause := .accessRevoked, addr := va, write, size, extra := BitVec.ofNat 64 n }
  if n = 1024 then
    let (ok, s) := s.free Config.arrived
    let (bad, s) := s.free Config.hostError
    if !ok then (s, .no (.remote n t))
    else if bad then (s, .no (.trap { t with cause := .uncorrectedData, extra := 0#64 }))
    else (s, .pa pa)
  else
    let (ok, s) := (s.tell n write pa).free Config.arrived
    if ok && (s.route n).isSome then (s.acked n, .pa pa) else (s, .no (.remote n t))

/-- An uncorrectable error lies in a range of a core's L1. -/
def State.l1Bad (s : State) (core pa n : Nat) : Bool :=
  !s.health.bad.isEmpty && s.health.bad.any fun u => match u with
    | .l1 k w => k == core && wordIn pa n w
    | _ => false

/-- Corrections met by an access through a core's L1 (R413). -/
def State.correctL1 (s : State) (core pa n : Nat) : State :=
  (s.correctRead pa n).correctUnits (dieOfCore core) fun u => match u with
    | .l1 k w => k == core && wordIn pa n w
    | _ => false

/-- Check 6 of R162, and the answer of a far home, which may not come (R397); none is needed where the bytes are `here`. -/
def State.consume (s : State) (b : Block) (va : DWord) (pa size : Nat) (write : Bool) (here : Bool := false) : State × Got :=
  if s.poisoned pa size || s.l1Bad b.place.core pa size then
    (s.uncorrected b.die pa b.task b.cfg.envelope 0,
      .no (.trap { cause := .uncorrectedData, addr := va, write, size }))
  else
    let s := s.correctL1 b.place.core pa size
    match s.farOf pa with
    | none => (s, .pa pa)
    | some n => if here then (s, .pa pa) else s.answered n va pa size write

/-- The page of an access is not cached (R382). -/
def State.uncached (s : State) (b : Block) (va : DWord) (pa : Nat) : Bool :=
  (s.tlbFind b.place.core b.cfg.envelope va).any fun e => e.leaf.getLsbD 7 && paOf e.leaf e.log va == pa

/-- Check 6 of R162 comes once the coherence machinery lets the access be performed (R269). -/
def State.letIn (s : State) (b : Block) (tid : Nat) (va : DWord) (pa size : Nat) (k : Kind) : State × Got :=
  let nc := s.uncached b va pa
  match s.gate b tid pa size k nc with
  | (t, false) => (t.sweep, .no .again)
  | (t, true) =>
    let t := t.sweep
    if k = .write then (t, .pa pa)
    else match t.consume b va pa size (k == .atomic) (k == .read && !nc && s.cachedRead b pa size) with
      -- while the answer has not come, no line is filled
      | (u, .no (.remote p a)) => ({ u with coh := s.coh }, .no (.remote p a))
      | r => r

/-- A read that the L1 does not make: a constant cache, the wait table (R169, R174). -/
def State.readHome (s : State) (b : Block) (tid : Nat) (va : DWord) (size align : Nat) : State × Got :=
  match s.locate b tid va size align .read with
  | (s, .no f) => (s, .no f)
  | (s, .pa pa) => s.consume b va pa size false

/-- All checks of an access, and what it needs to be performed. -/
def State.reach (s : State) (b : Block) (tid : Nat) (va : DWord) (size align : Nat) (k : Kind)
    (direct : Bool := false) : State × Got :=
  match s.locate b tid va size align k direct with
  | (s, .no f) => (s, .no f)
  | (s, .pa pa) => s.letIn b tid va pa size k

/-- An address is homed off a block's die (R165). -/
def State.isFar (s : State) (b : Block) (pa : Nat) : Bool :=
  match s.homeOf pa with
  | some (.die n) => n != b.die
  | some .host | some (.package _) => true
  | _ => false

/-- A write to another die or package is counted until it is acknowledged (R165): of more threads than one, of more lines. -/
def State.noteWrite (s : State) (b : Block) (tid : Nat) (va : DWord) (pa : Nat) (tids : List Nat := []) (lines : List Nat := []) : State :=
  if s.isFar b pa then
    (s.tellAt true pa).modBlock b.id fun b => { b with acks := b.acks ++ [{ tid, va, pa, time := s.clock.time, tids, lines }] }
  else s

/-- A thread's write, performed and counted. -/
def State.storeAt (s : State) (b : Block) (tid : Nat) (va : DWord) (pa : Nat) (bs : List Byte) : State :=
  (s.writePa pa bs).noteWrite b tid va pa

/-- The threads of an issue one after another, each with its fate; one that is to issue again has made nothing. -/
def State.eachOf (xs : List (Nat × Nat)) (f : State → Nat × Nat → State × Fate) (s : State) :
    State × List (Nat × Fate) :=
  xs.foldl (fun (a : State × List (Nat × Fate)) x =>
    let (t, fate) := f a.1 x
    (if fate = .again then a.1.unmade t else t, a.2 ++ [(x.2, fate)])) (s, [])

/-- All threads of an issue issue it again. -/
def Ctx.again (c : Ctx) : List (Nat × Fate) := c.on.map fun x => (x.2, Fate.again)

/-- An issue for whose remote writes %ackc has no room waits, with no access made (R165). -/
def State.fitAcks (s : State) (c : Ctx) (r : State × List (Nat × Fate)) : State × List (Nat × Fate) :=
  if ((r.1.block? c.iss.blk).map Block.ackc).getD 0 ≤ 65535 then r else (s, c.again)

/-- A release at .pkg or wider waits for %ackc = 0 (R165, R258). -/
def State.mustDrain (s : State) (c : Ctx) (rel : Bool) (scope : Nat) : Bool :=
  rel && decide (3 ≤ scope) && (s.block? c.iss.blk).any fun b => !b.acks.isEmpty

/-- Bytes from a value up to the next multiple. -/
def toBoundary (x m : Nat) : Nat := m - x % m

/-- A range of at most 256 bytes as pieces that no 4 KiB boundary crosses. -/
def pieces (va : DWord) (n : Nat) : List (DWord × Nat) :=
  let m := toBoundary va.toNat 4096
  if n ≤ m then [(va, n)] else [(va, m), (va + BitVec.ofNat 64 m, n - m)]

/-- The place of a piece of `n` bytes that an access of `size` bytes writes. -/
def State.placeFor (s : State) (b : Block) (tid : Nat) (va : DWord) (n size align : Nat) : State × Got :=
  match s.locate b tid va n align .write with
  | (s, .no (.trap t)) => (s, .no (.trap { t with size }))
  | (s, .no f) => (s, .no f)
  | (s, .pa pa) => s.letIn b tid va pa n .write

/-- The physical places of a range of bytes for one access of a thread (R162). -/
def State.locateSpan (s : State) (b : Block) (tid : Nat) (k : Kind) (size align : Nat) :
    List (DWord × Nat) → State × (Fate ⊕ List (Nat × Nat))
  | [] => (s, .inr [])
  | (va, n) :: rest =>
    match if k = .write then s.placeFor b tid va n size align else s.locate b tid va size align k with
    | (s, .no f) => (s, .inl f)
    | (s, .pa pa) =>
      match s.locateSpan b tid k size 1 rest with
      | (s, .inl f) => (s, .inl f)
      | (s, .inr ps) => (s, .inr ((pa, n) :: ps))

/-- Check 6 over the places of a range, and its bytes. -/
def State.readPlaces (s : State) (b : Block) (tid : Nat) (va : DWord) : List (Nat × Nat) → State × (Fate ⊕ List Byte)
  | [] => (s, .inr [])
  | (pa, n) :: rest =>
    match s.letIn b tid va pa n .read with
    | (s, .no f) => (s, .inl f)
    | (s, .pa pa) =>
      match s.readPlaces b tid va rest with
      | (s, .inl f) => (s, .inl f)
      | (s, .inr bs) => (s, .inr (s.readPa pa n ++ bs))

/-- A read of a range of bytes by a thread. -/
def State.readSpan (s : State) (b : Block) (tid : Nat) (va : DWord) (n align : Nat) : State × (Fate ⊕ List Byte) :=
  match s.locateSpan b tid .read n align (pieces va n) with
  | (s, .inl f) => (s, .inl f)
  | (s, .inr ps) => s.readPlaces b tid va ps

/-- A write of a range of bytes by a thread, one write for %ackc (R201). -/
def State.writeSpan (s : State) (b : Block) (tid : Nat) (va : DWord) (bs : List Byte) (align : Nat) : State × Option Fate :=
  match s.locateSpan b tid .write bs.length align (pieces va bs.length) with
  | (s, .inl f) => (s, some f)
  | (s, .inr ps) =>
    let (s, _) := ps.foldl (fun (a : State × List Byte) p => (a.1.writePa p.1 (a.2.take p.2), a.2.drop p.2)) (s, bs)
    (match ps.filter fun p => s.isFar b p.1 with
      | p :: rest => s.noteWrite b tid va p.1 [] ((p :: rest).map fun q => linesOf q.1 q.2).flatten
      | [] => s, none)

/-- A memory instruction: each thread that is on, in ascending rank, unless a release waits. -/
def State.runMem (s : State) (op : Nat) (w : CWord) (rel : Bool) (scope : Nat)
    (f : Ctx → State → Nat × Nat → State × Fate) : State :=
  s.runIssue op w fun c s =>
    if s.mustDrain c rel scope then (s, c.again) else s.fitAcks c (s.eachOf c.on (f c))

/-! ## Scratchpads -/

/-- Check 2 and 3 of R162 for an offset into the block's own scratchpad. -/
def scratchFault (b : Block) (off size align : Nat) (write : Bool) : Option TrapInfo :=
  let space := if b.localScratch ≤ off ∧ off < b.cfg.scratchAlloc then 5 else 1
  if off % align ≠ 0 then
    some { cause := .misaligned, addr := BitVec.ofNat 64 off, write, size, space, extra := BitVec.ofNat 64 align }
  else if b.cfg.scratch < off + size then
    some { cause := .scratchBounds, addr := BitVec.ofNat 64 off, write, size, space
           extra := BitVec.ofNat 64 b.cfg.scratch }
  else none

/-- The target of a cluster-scratch address (R168): the member's block and the offset, or the fault. -/
def State.member (s : State) (b : Block) (addr : DWord) (size : Nat) (write : Bool) : Except TrapInfo (Block × Nat) :=
  let m := bits addr 24 5
  let off := bits addr 0 21
  let g := b.cfg.groupSize
  let target := s.blocks.find? fun x => x.task == b.task && x.bid == b.bid / g * g + m
  let bytes := (target.map (·.cfg.scratch)).getD b.cfg.scratch
  let inExtent := target.any fun x => decide (x.localScratch ≤ off ∧ off < x.cfg.scratchAlloc)
  let space := if inExtent then 6 else 2
  if addr.toNat % size ≠ 0 then
    .error { cause := .misaligned, addr, write, size, space, extra := BitVec.ofNat 64 size }
  else if g ≤ m ∨ bits addr 29 3 ≠ 0 ∨ bits addr 21 3 ≠ 0 ∨ bytes < off + size then
    .error { cause := .scratchBounds, addr, write, size, space, extra := BitVec.ofNat 64 (bytes + 2 ^ 32 * m) }
  else match target with
    | some x => .ok (x, off)
    | none => .error { cause := .scratchBounds, addr, write, size, space, extra := BitVec.ofNat 64 (bytes + 2 ^ 32 * m) }

/-- Bytes written to a scratchpad; an error that they cover whole ends (R415). -/
def State.scratchWrite (s : State) (blk off : Nat) (bs : List Byte) : State :=
  let covered (u : ErrUnit) : Bool := match u with
    | .scratch k n => k == blk && decide (off ≤ 8 * n ∧ 8 * n + 8 ≤ off + bs.length)
    | _ => false
  (s.modBlock blk fun b => { b with scratch := b.scratch.write off bs }).heal covered

/-- An uncorrectable error lies in bytes of a scratchpad (R412). -/
def State.scratchBad (s : State) (blk off n : Nat) : Bool :=
  !s.health.bad.isEmpty && s.health.bad.any fun u => match u with
    | .scratch k m => k == blk && decide (off < 8 * m + 8 ∧ 8 * m < off + n)
    | _ => false

/-- Check 6 of R162 for bytes that a thread reads in a scratchpad: the event and the trap of an uncorrectable error
(R414, R423); `addr` is the address that the thread named. -/
def State.scratchConsume (s : State) (b : Block) (blk off n : Nat) (addr : DWord) : State × Option TrapInfo :=
  if s.scratchBad blk off n then
    (s.coreError b 1 0, some { cause := .uncorrectedData, addr, size := n })
  else (s.correctUnits b.die fun u => match u with
    | .scratch k m => k == blk && wordIn off n m
    | _ => false, none)

/-! ## Loaded values (R167) -/

/-- The registers that a loaded value is written to. -/
def loadWr (t : Ty) (d : Nat) (x : Nat) : List Wr :=
  if t.bits < 32 then wrV d 1 (placeInt t x) else wrV d t.regs x

/-- The bytes of a stored value. -/
def storeBytes (t : Ty) (x : Nat) : List Byte := toBytesLE (t.bits / 8) x

/-! ## Caches that may be stale -/

def pickLine (k : Bool) (e : Engines) : List StaleLine := if k then e.consts else e.fetchs

def putLine (k : Bool) (e : Engines) (xs : List StaleLine) : Engines :=
  if k then { e with consts := xs } else { e with fetchs := xs }

/-- A line put into its cache; past the size of the cache the oldest goes (R246, log 6). -/
def addLine (size : Nat) (l : StaleLine) (xs : List StaleLine) : List StaleLine :=
  l :: (xs.filter (·.unit == l.unit)).take (size - 1) ++ xs.filter (·.unit != l.unit)

/-- The 128-byte line of an address as a constant cache (`k`) or a fetch unit answers it: a cached line
that memory has left behind may be used or read anew (R169, R184). -/
def State.staleLine (s : State) (k : Bool) (unit task line va : Nat) : State × List Byte :=
  let now := s.readPa (128 * line) 128
  let mine (l : StaleLine) : Bool := l.unit == unit && l.task == task && l.pa == line
  let fresh (s : State) : State × List Byte :=
    ({ s with eng := putLine k s.eng (addLine (if k then Config.constLines else Config.fetchLines)
        { unit, task, pa := line, va, bytes := now } ((pickLine k s.eng).filter fun l => !mine l)) }, now)
  match (pickLine k s.eng).find? mine with
  | none => fresh s
  | some l =>
    if l.bytes = now then (s, now)
    else
      let (old, s) := s.free Config.stale
      if old then (s, l.bytes) else fresh s

/-- Bytes of one or two lines. -/
def State.staleRead (s : State) (k : Bool) (unit task va pa n : Nat) : State × List Byte :=
  let (s, l) := s.staleLine k unit task (pa / 128) (va / 128 * 128)
  if pa % 128 + n ≤ 128 then (s, (l.drop (pa % 128)).take n)
  else
    let (s, m) := s.staleLine k unit task (pa / 128 + 1) (va / 128 * 128 + 128)
    (s, ((l ++ m).drop (pa % 128)).take n)

end Sys2Proof.Machine
end

