-- ==== Sys2Proof/Machine/Fetch.lean ====
section
/-! DEFINITION. The fetch of an issue's instruction (R53 to R66): code lines, pads, the end of the
segment, and what stands in the line. -/

namespace Sys2Proof.Machine

/-- What a fetch answers. -/
inductive Fetched where
  | insn (i : Instr) (len : Nat)
  /-- An entry that is not an instruction (R54, R61). -/
  | bad (c : Cause)
  /-- A fault of the line (R64). -/
  | fault (t : TrapInfo)
  /-- The line has to be filled first (R65). -/
  | fill (line : Nat)
  /-- The threads wait for a walk (R384). -/
  | wait (walk : Nat)
  deriving DecidableEq, Repr

/-- The first offset from `off` on at which no pad stands (R60); 64 when the line has none. -/
def skipPad (line : List Byte) (off : Nat) : Nat :=
  (((decodeLine line).filter fun e => decide (off ≤ e.1) && e.2 != .pad).map (·.1)).headD 64

/-- Canonical entries of a line (R2, R53). -/
def CodeLine.entries (c : CodeLine) : Nat := ((decodeLine c.bytes).filter fun e => e.2 != .pad).length

/-- A PC moved past pads, through at most n lines (R60). -/
def State.pastPads (s : State) (b : Block) : Nat → DWord → DWord
  | 0, pc => pc
  | n + 1, pc =>
    if !b.inCode pc then pc
    else
      let line := pc.toNat / 64 * 64
      match s.codeLine b line with
      | none => pc
      | some bytes =>
        if entryAt bytes (pc.toNat % 64) = some .pad then
          let k := skipPad bytes (pc.toNat % 64)
          if k < 64 then BitVec.ofNat 64 (line + k) else s.pastPads b n (BitVec.ofNat 64 (line + 64))
        else pc

/-- Threads' PCs moved past pads (R60). -/
def State.skipPads (s : State) (blk : Nat) (tids : List Nat) : State :=
  match s.block? blk with
  | none => s
  | some b => s.modBlock blk fun x => tids.foldl (fun x t => x.modTh t fun th =>
      { th with pc := s.pastPads b ((b.cfg.bound - th.pc.toNat) / 64 + 1) th.pc }) x

/-- The cached line of a section's loop buffer or of the core's instruction cache. A loop buffer that an
ICINV left behind may still answer, where an old instruction stands at the PC (R66). -/
def State.cachedLine (s : State) (b : Block) (sect line off : Nat) : State × Option CodeLine :=
  let mine (c : CodeLine) : Bool := c.core == b.place.core && c.task == b.task && c.line == line
  let ic := s.eng.icache.find? mine
  match (s.eng.loops.find? fun l => l.1 == sect && l.2.1 == b.id && mine l.2.2).map (·.2.2) with
  | none => (s, ic)
  | some l =>
    let pad := match entryAt l.bytes off with
      | some .pad | none => true
      | _ => false
    if pad || ic.any (fun c => c.bytes == l.bytes) then (s, ic)
    else
      let (old, s) := s.free Config.stale
      (s, if old then some l else ic)

/-- The fetch of the entry at the PC of an issue. -/
def State.fetch (s : State) (b : Block) (iss : Issue) : State × Fetched :=
  let tid := (iss.ths.map (·.2)).headD 0
  let th := b.th tid
  let pc := th.pc
  let line := pc.toNat / 64 * 64
  if !b.inCode pc then (s, .bad .runOffEnd)
  else
    let (s, c) := s.cachedLine b (((b.plaits.find? (·.id == iss.plait)).map (·.sect)).getD 0) line (pc.toNat % 64)
    match c with
    | some c =>
      match c.fault with
      | some t =>
        ({ s with eng := { s.eng with icache := s.eng.icache.filter (· != c) } }, .fault t)
      | none =>
        match entryAt c.bytes (pc.toNat % 64) with
        | some (.insn i len) => (s, .insn i len)
        | some (.bad k _ _) => (s, .bad k)
        | some .pad | none => (s, .bad .illegalOp)
    | none =>
      let page := bits (BitVec.ofNat 64 line) 16 41
      match th.faultAt page with
      | some t =>
        (iss.ths.foldl (fun s x => s.modTh b.id x.2 fun th => { th with fault := none }) s,
          .fault { t with addr := BitVec.ofNat 64 line, write := false, size := 64 })
      | none =>
        match s.eng.walks.find? fun w => w.die == b.die && w.env == b.cfg.envelope && w.page == page with
        | some w => (s, .wait w.id)
        | none => (s, .fill line)

/-- The bytes of a code line (R66). -/
def State.readLine (s : State) (b : Block) (line : Nat) : State × Option CodeLine :=
  let mk (bytes : List Byte) (fault : Option TrapInfo := none) : CodeLine :=
    { core := b.place.core, task := b.task, line, bytes, fault }
  let va := BitVec.ofNat 64 line
  match s.engineXlate b.place.core b.cfg.envelope va .fetch with
  | (_, some pa) =>
    if s.poisoned pa 64 then
      (s.uncorrected b.die pa b.task b.cfg.envelope 0,
        some (mk [] (some { cause := .uncorrectedData, addr := va, size := 64 })))
    else
      let s := s.correctRead pa 64
      (s, some (mk (s.readPa pa 64)))
  | (.fault t, none) => (s, some (mk [] (some { t with addr := va, size := 64 })))
  | (_, none) => ((s.startWalk b.die b.cfg.envelope va .fetch).1, none)

/-- The lines of a core that its instruction cache holds, the newest first (R2, log 6). -/
def trimLines (core : Nat) : Nat → List CodeLine → List CodeLine
  | _, [] => []
  | room, c :: cs =>
    if c.core = core then
      if c.entries ≤ room then c :: trimLines core (room - c.entries) cs else trimLines core 0 cs
    else c :: trimLines core room cs

/-- A line put into the core's instruction cache. -/
def State.cacheLine (s : State) (c : CodeLine) : State :=
  let same (x : CodeLine) : Bool := x.core == c.core && x.task == c.task && x.line == c.line
  { s with eng := { s.eng with
      icache := trimLines c.core Config.icacheEntries (c :: s.eng.icache.filter (!same ·))
      fills := s.eng.fills.filter (!same ·) } }

/-- The fill of a line that writes may overlap: its bytes as it began (R66). -/
def State.beginFill (s : State) (c : CodeLine) : State :=
  { s with choices := s.choices + 1, eng := { s.eng with fills := c :: s.eng.fills } }

/-- The end of a fill that began with other bytes: each aligned 8-byte piece is old or new, independently (R66). -/
def State.endFill (s : State) (old c : CodeLine) : State × CodeLine :=
  let piece (k : Nat) : List Byte := ((if Config.stale (s.choices + k) then old else c).bytes.drop (8 * k)).take 8
  ({ s with choices := s.choices + 8 }, { c with bytes := ((List.range 8).map piece).flatten })

/-- A line that has been read goes into the cache: at once, or at the end of a fill that a step before began
(R66). A line that cannot be fetched begins no fill. -/
def State.fillWith (s : State) (c : CodeLine) : State × Option CodeLine :=
  match s.eng.fills.find? fun x => x.core == c.core && x.task == c.task && x.line == c.line with
  | some old =>
    if c.fault.isSome then (s, some c)
    else
      let (s, c) := s.endFill old c
      (s, some c)
  | none =>
    if c.fault.isNone && Config.slowFill s.choices then (s.beginFill c, none)
    else ({ s with choices := s.choices + 1 }, some c)

end Sys2Proof.Machine
end

