-- ==== Sys2Proof/Machine/Former.lean ====
section
/-! DEFINITION. The plait former: pools, formation, divergence, split issue, dissolution (R210 to R226). -/

namespace Sys2Proof.Machine

/-- A block whose threads can issue: resident, not stopped, not saved, not behind an inline child. -/
def Block.running (b : Block) : Bool :=
  b.place.resident && !b.ended && !b.trap.stopped && b.saved.isNone && b.leaving.isNone && b.inline.isNone && !b.trap.debug

/-- Threads in plaits. -/
def Block.inPlait (b : Block) (tid : Nat) : Bool := b.plaits.any fun p => p.ths.any (·.2 == tid)

/-- Of two ready threads the one that has been in a pool longer; one that yielded goes behind, and %tid decides (R106, R211). -/
def Block.older (b : Block) (x y : Nat) : Bool :=
  let a := b.th x
  let c := b.th y
  decide (a.age < c.age) || (a.age == c.age && (decide (a.order < c.order) || (a.order == c.order && decide (x ≤ y))))

/-- The ready threads of a pool, oldest first (R211, R212). A thread that is out with its turn group, or
whose registers are in slots, is in no pool. -/
def Block.pool (b : Block) (pc : DWord) (group : Option Nat) : List Nat :=
  let ts := (List.range b.cfg.bsize).filter fun t =>
    let th := b.th t
    th.st == .ready && th.pc == pc && th.group == group && !th.inSlot && !b.inPlait t &&
      !b.out.any (·.1 == t / 128)
  sortBy b.older ts

/-- The first of each of the values of a list, in order. -/
def firsts {α : Type} [DecidableEq α] (xs : List α) : List α := xs.reverse.dedup.reverse

/-- The keys of the block's pools, that of the oldest thread first (R211, R213). -/
def Block.poolKeys (b : Block) : List (DWord × Option Nat) :=
  firsts ((sortBy b.older ((List.range b.cfg.bsize).filter fun t =>
    let th := b.th t
    th.st == .ready && !th.inSlot && !b.inPlait t && !b.out.any (·.1 == t / 128))).map fun t => ((b.th t).pc, (b.th t).group))

/-- Core cycles since the pool's oldest thread entered a pool (R211). -/
def Block.poolAge (b : Block) (pc : DWord) (group : Option Nat) : Nat :=
  match b.pool pc group with
  | [] => 0
  | t :: _ => b.cycles - (b.th t).age

/-- A block whose ready threads stand in pools, issued or not (R212). -/
def Block.pooled (b : Block) : Bool := b.place.resident && !b.ended && b.saved.isNone && b.inline.isNone

/-- The pool table's entry for a key (R212). -/
def State.hasEntry (s : State) (b : Block) (pc : DWord) (group : Option Nat) : Bool :=
  s.eng.pools.any fun e => e.1 == b.place.core && e.2.1 == b.id && e.2.2.1 == pc && e.2.2.2.1 == group

/-- A key takes an entry: a reserved one of its block, else a shared one, if one is free (R212). -/
def takeEntry (core : Nat) (ps : List (Nat × Nat × DWord × Option Nat × Bool)) (k : Nat × DWord × Option Nat) :
    List (Nat × Nat × DWord × Option Nat × Bool) :=
  let mine := (ps.filter fun e => e.1 == core && e.2.1 == k.1 && e.2.2.2.2).length
  let shared := (ps.filter fun e => e.1 == core && !e.2.2.2.2).length
  if mine < Config.poolsPerBlock then ps ++ [(core, k.1, k.2.1, k.2.2, true)]
  else if shared < Config.poolsShared then ps ++ [(core, k.1, k.2.1, k.2.2, false)]
  else ps

/-- The pool table of a core kept: entries of empty pools are free, and keys without one take them, that of the
oldest thread first; the threads left over are the overflow lists (R212, R213). -/
def State.refreshCore (s : State) (core : Nat) : State :=
  let bs := s.blocks.filter fun b => b.place.core == core && b.pooled
  let kept := s.eng.pools.filter fun e =>
    e.1 != core || bs.any fun b => b.id == e.2.1 && b.poolKeys.contains (e.2.2.1, e.2.2.2.1)
  let need := (bs.map fun b => (b.poolKeys.filter fun k =>
    !kept.any fun e => e.1 == core && e.2.1 == b.id && e.2.2.1 == k.1 && e.2.2.2.1 == k.2).map fun k =>
      ((b.poolAge k.1 k.2, (b.pool k.1 k.2).headD 0), b.id, k.1, k.2)).flatten
  -- threads that entered pools in one cycle stand by ascending %tid (R211)
  let le (x y : Nat × Nat) : Bool := decide (y.1 < x.1) || (x.1 == y.1 && decide (x.2 ≤ y.2))
  let pools := (sortBy (fun x y => le x.1 y.1) need).foldl (fun ps k => takeEntry core ps k.2) kept
  { s with eng := { s.eng with pools } }

/-- The pool table of a block's core kept. -/
def State.refreshPools (s : State) (blk : Nat) : State :=
  match s.block? blk with
  | none => s
  | some b => s.refreshCore b.place.core

/-- The key of the oldest thread of the block's overflow list (R213). -/
def State.overflowKey (s : State) (b : Block) : Option (DWord × Option Nat) :=
  b.poolKeys.find? fun k => !s.hasEntry b k.1 k.2

/-- What can fall due on a core: the pools of the table, and each overflow list as one pool (R213, R221). -/
def State.queued (s : State) (b : Block) (pc : DWord) (group : Option Nat) : Bool :=
  s.hasEntry b pc group || s.overflowKey b == some (pc, group)

/-- The ready age at which a pool is due (R221), and up to which the former may delay a pool of fewer threads than a plait
(R214). -/
def dueAge : Nat := 4096

def formDelay : Nat := 64

/-- A pool is due (R221). -/
def State.isDue (s : State) (b : Block) (pc : DWord) (group : Option Nat) : Bool :=
  decide (dueAge ≤ b.poolAge pc group) && s.queued b pc group

/-- The block's aligned pool forms a pair (R215, R217). -/
def Block.alignedWidth (b : Block) : Nat :=
  if b.place.confined then 8 else if b.place.grant = 128 then 128 else b.place.grant

def Block.alignedPair (b : Block) (pool : List Nat) : Bool :=
  decide (b.alignedWidth = 128) && pool.any fun t => decide (64 ≤ t % 128)

/-- The sections on which a pool must take a slot: that of its oldest thread, and the next for an aligned pair. -/
def Block.sectionsOf (b : Block) (pc : DWord) (group : Option Nat) : List Nat :=
  let pool := b.pool pc group
  let sect := pool.headD 0 % 4
  if group.isSome && b.alignedPair pool then [sect, sect ^^^ 1] else [sect]

/-- A pool may be formed: no older due pool of its sections waits (R221). -/
def State.mayForm (s : State) (b : Block) (pc : DWord) (group : Option Nat) : Bool :=
  let age := b.poolAge pc group
  let mine := b.sectionsOf pc group
  b.running && !s.blocks.any fun c => c.place.core == b.place.core && c.running && c.poolKeys.any fun k =>
    s.isDue c k.1 k.2 && decide (age < c.poolAge k.1 k.2) && (c.sectionsOf k.1 k.2).any (mine.contains ·)

/-- The plait takes a slot of a section (R215). -/
def Plait.onSection (p : Plait) (sect : Nat) : Bool := p.sect == sect || (p.pair && p.sect ^^^ 1 == sect)

/-- Slots in use on a section of a core (R214, R215). -/
def State.slotsUsed (s : State) (core sect : Nat) : Nat :=
  ((s.blocks.filter fun b => b.place.core == core && b.place.resident).map fun b =>
    (b.plaits.filter fun p => p.first && p.onSection sect).length).foldl (· + ·) 0

/-- The plait width of the block (R102): 64 under pairing. -/
def Block.width (b : Block) : Nat := if b.place.grant = 128 then 64 else b.place.grant

def Block.nextPlait (b : Block) : Nat := (b.plaits.map (·.id)).foldl max 0 + 1

/-- The members of an ordinary plait formed from a pool (R214 item 2, R215). -/
def pickMembers (pool : List Nat) (sect width cap : Nat) : List Nat :=
  match pool with
  | [] => []
  | t :: rest =>
    let rest := if 4 * width < pool.length then rest.filter (· % 4 == sect) ++ rest.filter (· % 4 != sect) else rest
    t :: rest.take (cap - 1)

/-- The slot numbers of a core's plaits say in which order they were filled (R220, R221). -/
def State.nextSlot (s : State) (core : Nat) : Nat :=
  (((s.blocks.filter fun b => b.place.core == core).map fun b => b.plaits.map (·.slot)).flatten).foldl max 0 + 1

/-- Formation from one pool (R214 to R217); nothing when no slot is free on a section that it takes, which an aligned pair
awaits on both of its sections (log 71). -/
def State.form (s : State) (blk : Nat) (pc : DWord) (group : Option Nat) : State :=
  match s.block? blk with
  | none => s
  | some b =>
    let pool := b.pool pc group
    match pool with
    | [] => s
    | t :: _ =>
      let sect := t % 4
      let free (k : Nat) : Bool := decide (s.slotsUsed b.place.core k < Config.slotsPerSection)
      if !b.running || !(b.sectionsOf pc group).all free then s
      else
        let p : Plait := { id := b.nextPlait, ths := [], sect, slot := s.nextSlot b.place.core, group,
                           wide := decide (32 < b.width), turn := s.choices, last := (b.th t).age
                           round := (b.plaits.map (·.round)).foldl max 0 }
        let p : Plait := match group with
          | some _ =>
            { p with ths := sortBy (fun x y => decide (x.1 ≤ y.1)) (pool.map fun t => (t % b.alignedWidth, t))
                     pair := b.alignedPair pool }
          | none =>
            let pair := decide (b.place.grant = 128) && free (sect ^^^ 1) && decide (64 < pool.length)
            let ms := pickMembers pool sect b.width (if pair then 128 else b.width)
            { p with ths := (sortBy (· ≤ ·) ms).zipIdx.map fun x => (x.2, x.1), pair }
        s.modBlock blk fun b =>
          let b := p.ths.foldl (fun b x => b.modTh x.2 fun th => { th with order := 0, asks := false }) b
          { b with plaits := b.plaits ++ [p] }

/-- The threads that a plait issues next: inside a clause those that have not made the word yet, once
none of them waits for a walk (R72, R384); outside one those that can issue, unless the plait waits for its other half. An issue
that stands is made before any other. -/
def Block.issueSet (b : Block) (p : Plait) : List (Nat × Nat) :=
  let free (t : Nat) : Bool := (b.th t).stall.isNone && (b.th t).remote.isNone
  -- threads that reissue an access do so with those that read its sources when they did (R46)
  let alike (xs : List (Nat × Nat)) : List (Nat × Nat) := xs.filter fun x => (b.th x.2).held == (b.th ((xs.map (·.2)).headD 0)).held
  let m := b.clauseDepth p
  let asking := p.ths.filter fun x => (b.th x.2).asks
  if !asking.isEmpty then (if asking.all fun x => free x.2 then alike asking else [])
  else if m = 0 then (if p.hold.isSome then [] else alike (p.ths.filter fun x => free x.2))
  else if p.ths.all fun x => free x.2 then alike (p.ths.filter fun x => (b.th x.2).inClause == m)
  else []

/-- The instruction at a PC, as a word. -/
def State.wordAt (s : State) (b : Block) (pc : DWord) : Option (Nat × CWord) :=
  (s.codeLine b (pc.toNat / 64 * 64)).bind fun bytes =>
    match entryAt bytes (pc.toNat % 64) with
    | some (.insn i _) => i.opWord
    | _ => none

/-- The instruction ends split issue: a pin, WIDTH, LAND, YIELD, a wait or a park (R226). -/
def endsSplit (op : Nat) (w : CWord) : Bool :=
  clauseEnding op w && !((decide (op ≤ 0x007)) || op == 0x00C || op == 0x013 || op == 0x014 || op == 0x017 || op == 0x018)

/-- A thread waits for an access's answer, or its next instruction for an outstanding result (R47, R226, R384). -/
def Thread.waitsFor (th : Thread) (next : Option (Nat × CWord)) : Bool :=
  th.stall.isSome || th.remote.isSome || next.any fun x =>
    let regs := readRegs x.1 x.2
    let preds := readPreds x.1 x.2
    th.outst.any fun o => o.regs.any (fun r => regs.contains r.1) || o.pred.any fun p => preds.contains p.1

/-- An instruction reads what a long-latency instruction before it writes (R47). -/
def dependsOn (before next : Nat × CWord) : Bool :=
  longLatency before.1 before.2 && match (sig before.1 before.2).d with
    | .v k => (List.range k).any fun j => (readRegs next.1 next.2).contains (before.2.d.toNat + j)
    | .p => (readPreds next.1 next.2).contains before.2.d.toNat
    | .s k => (List.range k).any fun j => (readURegs next.1 next.2).contains (before.2.d.toNat + j)
    | _ => false

/-- Halves that issue 64 times end their split (R226). -/
def splitIssues : Nat := 64

/-- What ends the split of a half that stands at a boundary: its next instruction, a wait, or its 64 issues (R226). The
result of the instruction before it may be outstanding still (R47). -/
def State.halfEnds (s : State) (b : Block) (p : Plait) (before : Option (Nat × CWord) := none) : Bool :=
  decide (splitIssues ≤ p.issues) || p.ths.any fun x =>
    let th := b.th x.2
    let next := s.wordAt b th.pc
    next.any (fun y => endsSplit y.1 y.2 || before.any (dependsOn · y)) || th.waitsFor next

/-- The PCs at which a plait's threads stand, that of the lowest rank first. -/
def Block.pcsOf (b : Block) (p : Plait) : List DWord := firsts (p.ths.map fun x => (b.th x.2).pc)

/-- The halves are one plait again, ranks unchanged; a victim dissolves so (R226, R232). -/
def Block.rejoin (b : Block) (p q : Plait) : Block :=
  let keep := if p.first then p else q
  let ths := sortBy (fun x y => decide (x.1 ≤ y.1)) (p.ths ++ q.ths)
  let joined : Plait := { keep with ths, other := none, first := true, issues := 0, hold := none }
  let b := { b with plaits := (b.plaits.filter fun x => x.id != p.id && x.id != q.id) ++ [joined] }
  if p.victim || q.victim then b.dissolve joined.id true else b

/-- A boundary of one half of a split plait: the first row of R226 that matches, once the other half is outside a clause;
until then a half whose split is to end waits. -/
def State.halfBoundary (s : State) (b : Block) (p q : Plait) (before : Option (Nat × CWord)) : Block :=
  let doomed := p.hold == some true || (b.pcsOf p).length != 1
  if b.clauseDepth q ≠ 0 then
    if doomed then b.modPlait p.id fun p => { p with hold := some true }
    else if p.victim || s.halfEnds b p before then b.modPlait p.id fun p => { p with hold := some false }
    else b
  else if doomed || q.hold == some true || (b.pcsOf q).length != 1 then b.dissolve p.id
  else if b.pcsOf p = b.pcsOf q then b.rejoin p q
  else if p.victim || q.victim then b.dissolve p.id true
  else if p.hold.isSome || q.hold.isSome || s.halfEnds b p before || s.halfEnds b q then b.dissolve p.id
  else b

/-- The plait splits (R225); what ends the split at once dissolves it (R226). -/
def State.split (s : State) (b : Block) (p : Plait) (pc0 : DWord) : Block :=
  let id2 := b.nextPlait
  let h1 : Plait := { p with ths := p.ths.filter fun x => (b.th x.2).pc == pc0, other := some id2, first := true, issues := 0 }
  let h2 : Plait := { h1 with id := id2, ths := p.ths.filter fun x => (b.th x.2).pc != pc0, other := some p.id, first := false }
  let b := { b with plaits := (b.plaits.filter fun x => x.id != p.id) ++ [h1, h2] }
  if s.halfEnds b h1 || s.halfEnds b h2 then b.dissolve p.id else b

/-- What a boundary does to a plait whose threads are all ready and outside a clause: divergence,
rejoining, the ends of split issue, absorption, rotation (R223, R225, R226, R232). -/
def State.boundary (s : State) (b : Block) (p : Plait) (before : Option (Nat × CWord)) : Block :=
  match p.other.bind fun k => b.plaits.find? (·.id == k) with
  | some q => s.halfBoundary b p q before
  | none =>
    if p.hold.isSome then b.dissolve p.id
    else match b.pcsOf p with
    | [] => b
    | [pc] =>
      if p.victim then b.dissolve p.id true
      else if p.group.isNone && decide (p.ths.length < b.capacity) && !(b.pool pc none).isEmpty then b.dissolve p.id
      else b
    | [pc0, _] =>
      if p.wide || p.pair || decide (32 < b.place.grant) then b.dissolve p.id
      else if p.victim then b.dissolve p.id true
      else s.split b p pc0
    | _ => b.dissolve p.id

/-- A half has no ready thread left: the other goes on as the plait (R226); where it stands at a boundary that its end was to
follow, divergence, YIELD or rotation ends it there (R223, R232). -/
def Block.otherAlone (b : Block) (p : Plait) : Block :=
  let q? := b.plaits.find? fun q => q.other == some p.id
  let b := { b with plaits := (b.plaits.filter (·.id != p.id)).map fun q =>
    if q.other = some p.id then { q with other := none, first := true, hold := none } else q }
  match q? with
  | none => b
  | some q =>
    if q.hold = some true then b.dissolve q.id
    else if q.hold.isSome && q.victim then b.dissolve q.id true
    else b

/-- Threads that waited, parked or ended leave their plait; a wait dissolves it (R223). A half with no ready thread left
leaves the other to go on as the plait (R226). -/
def Block.leavers (b : Block) (p : Plait) : Block :=
  let st (x : Nat × Nat) : TState := (b.th x.2).st
  let gone := (p.ths.filter fun x => st x != .ready).map (·.2)
  if p.ths.any fun x => st x == .waiting || st x == .parked then b.quit gone
  else if gone.length = p.ths.length then b.otherAlone p
  else b.modPlait p.id fun q => { q with ths := q.ths.filter fun x => !gone.contains x.2 }

/-- A plait after one of its issues: it has been served, and a half counts its issues. -/
def Plait.noteIssue (turn cycle : Nat) (p : Plait) : Plait :=
  { p with served := true, turn, last := cycle, round := p.round + 1, issues := if p.other.isSome then p.issues + 1 else p.issues }

/-- The plait of an issue, if it is still formed. -/
def Block.plait? (b : Block) (iss : Issue) : Option Plait := b.plaits.find? (·.id == iss.plait)

/-- The victims of rotation on the package: core, block and plait. -/
def State.victims (s : State) : List (Nat × Nat × Plait) :=
  (s.blocks.map fun b => (b.plaits.filter (·.victim)).map fun p => (b.place.core, b.id, p)).flatten

/-- Victims of rotation are gone: no other plait of their sections is one (R221). -/
def State.endVictims (s : State) (before : List (Nat × Nat × Plait)) : State :=
  let gone := before.filter fun x => !(s.block? x.2.1).any fun b => b.plaits.any (·.id == x.2.2.id)
  if gone.isEmpty then s
  else
    let meets (core : Nat) (p : Plait) : Bool :=
      gone.any fun x => x.1 == core && (List.range 4).any fun k => x.2.2.onSection k && p.onSection k
    { s with blocks := s.blocks.map fun b =>
        { b with plaits := b.plaits.map fun p => if meets b.place.core p then { p with victim := false } else p } }

/-- After an issue of a plait: those of its threads that left it (R223). -/
def State.noteIssue (s : State) (iss : Issue) : State :=
  let s := s.skipPads iss.blk (iss.ths.map (·.2))
  let before := s.victims
  State.endVictims (before := before) <| s.modBlock iss.blk fun b =>
    if iss.handler then { b with trap := { b.trap with turn := s.choices } }
    else if !b.running then b
    else
      let b := b.modPlait iss.plait (Plait.noteIssue s.choices b.cycles)
      match b.plait? iss with
      | none => b
      | some p => b.leavers p

/-- The plait's threads are outside a clause, or some have ended it and the others make its last word (R72, R384). -/
def Block.atBoundary (b : Block) (p : Plait) : Bool :=
  b.clauseDepth p == 0 || (b.clauseDepth p == 1 && (p.ths.any fun x => (b.th x.2).inClause == 0) &&
    p.ths.all fun x => !(b.th x.2).asks)

/-- The boundary after an issue of a plait (R223 to R226). -/
def State.settleIssue (s : State) (iss : Issue) : State :=
  match s.block? iss.blk with
  | none => s
  | some b =>
    match b.plait? iss with
    | none => s
    | some p =>
      if iss.handler || !b.running || !b.atBoundary p then s
      else
        -- whether the result of the issue is outstanding still when its half stands at the next instruction (R226)
        let late := iss.word.filter fun _ => p.other.isSome && !Config.arrived s.choices
        let b' := s.boundary b p late
        (({ s with choices := s.choices + 1 } : State).modBlock iss.blk fun _ => b').endVictims s.victims

/-- The issues of a cycle are over: nothing stands next, a cause that two issues held is entered, plaits and pools are as
the former leaves them. One boundary serves both halves of a plait. -/
def State.settle (s : State) (isss : List Issue) : State :=
  let s : State := ({ s with cur := none, mate := none, ahead := none } : State).payAll
  let s := isss.foldl State.noteIssue s
  let s := isss.foldl (fun s i => s.enterHeld i.blk) s
  let s := match isss with
    | i :: j :: _ =>
      let served := i.blk == j.blk && (s.block? i.blk).any fun b =>
        (b.plait? i).any fun p => p.other == some j.plait && b.atBoundary p
      if served then s.settleIssue i else (s.settleIssue i).settleIssue j
    | is => is.foldl State.settleIssue s
  isss.foldl (fun s i => s.refreshPools i.blk) s

/-- An issue has been made: a second one of its cycle stands next, or the cycle is over (R220). -/
def State.close (s : State) (iss : Issue) : State :=
  match s.mate with
  | some j => { s with cur := some j, mate := none, ahead := some iss }
  | none => s.settle (s.ahead.toList ++ [iss])

/-- The issue that stood next cannot be made. -/
def State.closeNone (s : State) : State := s.settle s.ahead.toList

end Sys2Proof.Machine
end

