-- ==== Sys2Proof/Machine/Layout.lean ====
section
/-! DEFINITION. The save area: its layout (R356 to R358), and ranges of memory that engines read and write
as a whole. -/

namespace Sys2Proof.Machine

/-! ## Ranges -/

/-- Where a range lies: in an envelope's address space as a core reaches it, or in the device's own
storage. -/
inductive Dest where
  | va (core env : Nat) (a : DWord)
  | dev (pa : Nat)
  deriving DecidableEq, Repr

/-- Bytes [off, off + len) cut where a 64 KiB page ends. -/
def pageCuts (start : Nat) : Nat → Nat → Nat → List (Nat × Nat)
  | 0, _, _ => []
  | k + 1, off, len =>
    if len = 0 then []
    else
      let m := min len (toBoundary (start + off) 65536)
      (off, m) :: pageCuts start k (off + m) (len - m)

/-- The pieces of a range by page. -/
def Dest.cuts (d : Dest) (off len : Nat) : List (Nat × Nat) :=
  match d with
  | .va _ _ a => pageCuts a.toNat (len / 65536 + 2) off len
  | .dev _ => if len = 0 then [] else [(off, len)]

/-- The physical address of `len` bytes at an offset, or the address and the end of its walk. -/
def State.destPa (s : State) (d : Dest) (off : Nat) (k : Kind) (len : Nat) : (DWord × WalkEnd) ⊕ Nat :=
  match d with
  | .dev pa => .inr (pa + off)
  | .va core env a =>
    let va := a + BitVec.ofNat 64 off
    if !canonical va || (k == .write && s.inCaps env va.toNat len) then
      .inl (va, .fault { cause := .accessViolation, addr := va, extra := if canonical va then 2#64 else 1#64 })
    else match s.engineXlate core env va k with
      | (_, some pa) => .inr pa
      | (r, none) => .inl (va, r)

/-- The places of pieces: physical address, offset, length. -/
def State.destPas (s : State) (d : Dest) (k : Kind) : List (Nat × Nat) → (DWord × WalkEnd) ⊕ List (Nat × Nat × Nat)
  | [] => .inr []
  | (off, len) :: rest =>
    match s.destPa d off k len with
    | .inl e => .inl e
    | .inr pa =>
      match s.destPas d k rest with
      | .inl e => .inl e
      | .inr ps => .inr ((pa, off, len) :: ps)

/-- A range of physical memory written whole: the listed bytes of a sparse content, 0 for the others; errors
that it covers end, watchers of its lines wake (R174, R415). -/
def State.putRange (s : State) (pa off len : Nat) (m : Memory) : State :=
  let covered (u : Nat) : Bool := decide (pa ≤ 32 * u ∧ 32 * u + 32 ≤ pa + len)
  let keep (x : ErrUnit) : Bool := match x with
    | .mem u => !covered u
    | .l1 _ w | .l2 w => !decide (pa ≤ 8 * w ∧ 8 * w + 8 ≤ pa + len)
    | _ => true
  let s := s.takeLines pa len
  let s := { s with
    mem := s.mem.overlay pa len (m.slice off len pa)
    health := { s.health with bad := s.health.bad.filter keep, soft := s.health.soft.filter keep } }
  s.wake fun q => q.kind == .waitaddr && sameLine pa len q.pa

/-- The first of some places of an area that holds an uncorrectable error, as the fault of the engine that meets it; `extra`
is its physical address. -/
def State.areaError (s : State) (d : Dest) (ps : List (Nat × Nat × Nat)) : Option (DWord × WalkEnd) :=
  (ps.find? fun p => s.poisoned p.1 p.2.2).map fun p =>
    let va := match d with
      | .va _ _ a => a + BitVec.ofNat 64 p.2.1
      | .dev _ => 0#64
    let pa := (((unitsOf p.1 p.2.2).find? fun u => s.health.bad.contains (.mem u)).map (32 * ·)).getD p.1
    (va, .fault { cause := .uncorrectedData, addr := va, extra := BitVec.ofNat 64 pa })

/-- Ranges of a sparse content written, all or none. A save that meets an uncorrectable error in the area writes nothing
(R359, R426, log 80). -/
def State.putRanges (s : State) (d : Dest) (rs : List (Nat × Nat)) (m : Memory) : State × Option (DWord × WalkEnd) :=
  match s.destPas d .write (rs.map fun r => d.cuts r.1 r.2).flatten with
  | .inl e => (s, some e)
  | .inr ps => match s.areaError d ps with
    | some e => (s, some e)
    | none => (ps.foldl (fun s p => s.putRange p.1 p.2.1 p.2.2 m) s, none)

/-- Ranges read into a sparse content; bytes outside them are 0. -/
def State.takeRanges (s : State) (d : Dest) (rs : List (Nat × Nat)) : (DWord × WalkEnd) ⊕ Memory :=
  match s.destPas d .read (rs.map fun r => d.cuts r.1 r.2).flatten with
  | .inl e => .inl e
  | .inr ps =>
    match s.areaError d ps with
    | some e => .inl e
    | none => .inr (ps.foldl (fun m p => m.overlay p.2.1 p.2.2 (s.mem.slice p.1 p.2.2 p.2.1)) [])

/-- Corrections met by a restore's reads of a save area (R413). -/
def State.correctArea (s : State) (d : Dest) (rs : List (Nat × Nat)) : State :=
  match s.destPas d .read (rs.map fun r => d.cuts r.1 r.2).flatten with
  | .inl _ => s
  | .inr ps => ps.foldl (fun s p => s.correctRead p.1 p.2.2) s

/-- Bytes that an engine reads for an envelope. -/
def State.engineRead (s : State) (core env : Nat) (va : DWord) (n : Nat) : (DWord × WalkEnd) ⊕ List Byte :=
  match s.takeRanges (.va core env va) [(0, n)] with
  | .inl e => .inl e
  | .inr m => .inr (m.read 0 n)

/-! ## Layout (R356, R358) -/

def align64 (n : Nat) : Nat := roundUpTo n 64

namespace LaunchRec

def offU : Nat := 0x100
def offX (r : LaunchRec) : Nat := offU + align64 (8 * r.uAlloc)
def offT (r : LaunchRec) : Nat := r.offX + align64 (80 * r.xsums)
def offA (r : LaunchRec) : Nat := r.offT + 4096 * r.tiles
def offS (r : LaunchRec) : Nat := r.offA + 256 * r.rowAlloc
def offH (r : LaunchRec) : Nat := r.offS + r.scratchAlloc
def stride (r : LaunchRec) : Nat := 64 + 4 * r.vAlloc
/-- The bytes of a full save. -/
def saveBytes (r : LaunchRec) : Nat := r.offH + r.bsize * r.stride
/-- LS. -/
def levelBytes (r : LaunchRec) : Nat := roundUpTo r.saveBytes 4096

end LaunchRec

/-- The level in use: at CSAVE, or in the save reserve (log 4). -/
def Block.saveDest (b : Block) : Dest :=
  if b.cfg.csave = 0 then .dev (reserveBase + 2 ^ 26 * b.id)
  else .va b.place.core b.cfg.envelope (BitVec.ofNat 64 (b.cfg.csave + b.regs.inldepth.toNat * b.cfg.levelBytes))

/-- Bytes as sparse content from an offset on. -/
def sparse (off : Nat) (bs : List Byte) : Memory := (bs.zipIdx.filter fun x => x.1 != 0#8).map fun x => (off + x.2, x.1)

/-- Sparse bytes moved to a base. -/
def shift (m : Memory) (base n : Nat) : Memory := m.slice 0 n base

/-- A written part of a save: its range and its content. -/
structure Part where
  off : Nat
  len : Nat
  m   : Memory

def partOf (off : Nat) (bs : List Byte) : Part := { off, len := bs.length, m := sparse off bs }

/-- What of a thread, and of its block, a liveness record names (R352). -/
structure Live where
  v   : Nat := 0
  u   : Nat := 0
  p   : Nat := 0
  x   : Nat := 0
  t   : Nat := 0
  acc : Bool := false
  deriving DecidableEq, Repr

/-- A full save. -/
def Live.all : Live := { v := 2 ^ 256 - 1, u := 2 ^ 256 - 1, p := 127, x := 255, t := 65535, acc := true }

def Live.or (a b : Live) : Live :=
  { v := a.v ||| b.v, u := a.u ||| b.u, p := a.p ||| b.p, x := a.x ||| b.x, t := a.t ||| b.t, acc := a.acc || b.acc }

/-- A liveness record; none with a reserved bit set (R352). -/
def Live.ofBytes (bs : List Byte) : Option Live :=
  let f (o n : Nat) : Nat := ofBytesLE ((bs.drop o).take n)
  if f 0x40 1 / 128 ≠ 0 ∨ f 0x44 1 / 2 ≠ 0 ∨ f 0x45 11 ≠ 0 then none
  else some { v := f 0 32, u := f 0x20 32, p := f 0x40 1, x := f 0x41 1, t := f 0x42 2, acc := f 0x44 1 != 0 }

/-- PERIOD in ns (R113). -/
def Block.wdPeriod (b : Block) : Nat := b.regs.wdog.toNat * 1024

/-- The header of a level (R357). -/
def Block.saveHeader (b : Block) (kind : Nat) (live : Live) (stopped : Bool) : List Byte :=
  let d := b.due.getD {}
  let due := (if d.ireel then 1 else 0) + (if d.treel then 2 else 0) + (if d.recalled then 4 else 0) +
    (if stopped then 8 else 0)
  let rp := (if b.rowprog.valid then 128 else 0) + (if b.rowprog.side then 64 else 0) + b.rowprog.row +
    2 ^ 32 * b.rowprog.pcoff.toNat
  toBytesLE 1 kind ++ toBytesLE 1 b.regs.inldepth.toNat ++ toBytesLE 2 b.place.request ++ toBytesLE 2 b.place.grant ++
    toBytesLE 2 due ++ toBytesLE 8 b.regs.ireel.toNat ++ toBytesLE 8 b.regs.treel.toNat ++ toBytesLE 8 b.regs.iover.toNat ++
    toBytesLE 8 b.regs.tover.toNat ++ toBytesLE 4 b.regs.ustat.toNat ++ toBytesLE 4 b.regs.fmode.toNat ++
    toBytesLE 4 b.regs.wdog.toNat ++ toBytesLE 4 b.regs.inlmax.toNat ++ toBytesLE 8 (b.wdPeriod - b.wdrun) ++
    toBytesLE 4 b.regs.wtovf.toNat ++ toBytesLE 2 b.place.parkn ++ toBytesLE 10 0 ++ toBytesLE 8 rp ++
    toBytesLE 40 0 ++ ((List.range 8).map fun k =>
      BitVec.ofNat 8 (if live.x.testBit k then ((b.xs.getD k {}).st).toNat else 0)) ++ toBytesLE 120 0

/-- WAIT, WAITARG and WAITVAL of a thread header (R358). -/
def waitFields : Option Wait → Nat × Nat × Nat
  | none => (0, 0, 0)
  | some (.landed _ _) => (1, 0, 0)
  | some (.pin n _) => (2, n, 0)
  | some (.width r) => (3, r, 0)
  | some (.bsync n) => (4, n.getD 0, 0)
  | some (.sleep t) => (5, t, 0)
  | some (.parked q) =>
    let k := match q.kind with
      | .waitaddr => 6 | .park => 7 | .fget => 8 | .mbrecv => 9 | .barw => 10 | .tspawn => 11
    (k, q.va.toNat, q.val.toNat)

def stateCode : TState → Nat
  | .ready => 0 | .waiting => 1 | .parked => 2 | .trapped => 3 | .exited => 4

/-- A thread header: `live` none for a full save, the record's address with its masks else (R358, R379). -/
def Block.threadHeader (b : Block) (t : Nat) (kind : Nat) (rec : Option (DWord × Live)) : List Byte :=
  let th := b.th t
  let (k, arg, val) := waitFields th.wait
  let st := if th.st = .trapped then 0 else stateCode th.st
  let p := th.p.toNat &&& (match rec with
    | some (_, l) => l.p
    | none => 127)
  let group := kind != 1 && th.group.isSome
  toBytesLE 4 t ++ toBytesLE 1 st ++ toBytesLE 1 k ++ toBytesLE 1 (if rec.isNone && th.st != .exited then 1 else 0) ++ toBytesLE 1 p ++
    toBytesLE 4 (th.pc - b.codeBase).toNat ++ toBytesLE 4 th.seed.toNat ++ toBytesLE 4 th.armed.toNat ++
    toBytesLE 4 ((if th.triggered then 1 else 0) + (if group then 2 else 0)) ++ toBytesLE 8 arg ++ toBytesLE 8 val ++
    toBytesLE 8 ((rec.map (·.1.toNat)).getD 0) ++ toBytesLE 16 0

/-- The parts of one thread: its header and its live registers (R353). -/
def Block.threadParts (b : Block) (t : Nat) (kind : Nat) (rec : Option (DWord × Live)) : List Part :=
  let th := b.th t
  let base := b.cfg.offH + t * b.cfg.stride
  let head := partOf base (b.threadHeader t kind rec)
  if th.st = .exited then [head]
  else
    let val (n : Nat) : List Byte := toBytesLE 4 (th.v.getD n 0#32).toNat
    match rec with
    | none => [head, partOf (base + 64) ((List.range b.cfg.vAlloc).map val).flatten]
    | some (_, l) => head :: ((List.range b.cfg.vAlloc).filter (l.v.testBit ·)).map fun n => partOf (base + 64 + 4 * n) (val n)

/-- The parts of the block's own state (R353). -/
def Block.blockParts (b : Block) (kind : Nat) (live : Live) (stopped : Bool) : List Part :=
  let r := b.cfg
  let us := ((List.range r.uAlloc).filter (live.u.testBit ·)).map fun n => partOf (LaunchRec.offU + 8 * n) (toBytesLE 8 (b.uregs.getD n {}).val.toNat)
  let xs := ((List.range r.xsums).filter (live.x.testBit ·)).map fun k => partOf (r.offX + 80 * k) (toBytesLE 80 (b.xs.getD k {}).n.toNat)
  let ts := ((List.range r.tiles).filter (live.t.testBit ·)).map fun k =>
    ({ off := r.offT + 4096 * k, len := 4096, m := b.tiles.slice (4096 * k) 4096 (r.offT + 4096 * k) } : Part)
  let rows : List Part := if live.acc then [{ off := r.offA, len := 256 * r.rowAlloc, m := b.rows.slice 0 (256 * r.rowAlloc) r.offA }] else []
  let scr : List Part := [{ off := r.offS, len := r.scratch, m := b.scratch.slice 0 r.scratch r.offS }]
  partOf 0 (b.saveHeader kind live stopped) :: (us ++ xs ++ ts ++ rows ++ scr)

/-! ## Reading a save back (R361) -/

/-- A thread from its part of a save: registers, predicates, PC and the rest of its header. What a wait holds
besides WAITARG and WAITVAL is the device's own. -/
def Block.threadOf (b : Block) (m : Memory) (t : Nat) (kind : Nat) : Thread :=
  let old := b.th t
  let base := b.cfg.offH + t * b.cfg.stride
  let f (o n : Nat) : Nat := m.val (base + o) n
  let misc := f 0x14 4
  let st : TState := match f 4 1 with
    | 0 => .ready | 1 => .waiting | 2 => .parked | 3 => .trapped | _ => .exited
  { v := (List.range b.cfg.vAlloc).map fun n => BitVec.ofNat 32 (f (64 + 4 * n) 4)
    p := BitVec.ofNat 7 (f 7 1)
    pc := b.codeBase + BitVec.ofNat 64 (f 8 4)
    st
    wait := old.wait
    wlen := old.wlen
    seed := BitVec.ofNat 32 (f 0x0C 4)
    flags := List.replicate 12 0
    armed := BitVec.ofNat 32 (f 0x10 4)
    triggered := misc.testBit 0
    group := if kind ≠ 1 ∧ misc.testBit 1 then old.group else none
    retired := old.retired
    fences := old.fences
    prepaid := old.prepaid
    age := b.cycles }

/-- The block's own state from its parts of a save. -/
def Block.stateOf (b : Block) (m : Memory) : Block :=
  let r := b.cfg
  let f (o n : Nat) : Nat := m.val o n
  let w (o : Nat) : Word := BitVec.ofNat 32 (f o 4)
  let rp := f 0x50 8
  { b with
    regs := { b.regs with ustat := w 0x28, fmode := w 0x2C, wdog := w 0x30, inlmax := w 0x34, wtovf := w 0x40 }
    uregs := (List.range r.uAlloc).map fun n => { val := BitVec.ofNat 64 (f (LaunchRec.offU + 8 * n) 8) }
    epoch := b.epoch + 1
    xs := (List.range 8).map fun k =>
      { n := if k < r.xsums then BitVec.ofNat 640 (f (r.offX + 80 * k) 80) else 0#640, st := BitVec.ofNat 4 (f (0x80 + k) 1) }
    tiles := m.slice r.offT (4096 * r.tiles) 0
    rows := m.slice r.offA (256 * r.rowAlloc) 0
    scratch := m.slice r.offS r.scratch 0
    rowprog := { pcoff := BitVec.ofNat 32 (rp / 2 ^ 32), valid := rp.testBit 7, side := rp.testBit 6, row := rp % 64 }
    engine := []
    place := { b.place with parkn := f 0x44 2 }
    wdrun := (w 0x30).toNat * 1024 - f 0x38 8 }

end Sys2Proof.Machine
end

