-- ==== Sys2Proof/Machine/Copies.lean ====
section
/-! DEFINITION. The copy engine and barrier records as shared operations (R178 to R181, R189, R190), and
the wait table (R176). -/

namespace Sys2Proof.Machine

/-! ## Barrier records -/

/-- Check(r) on the record at a physical address (R189). -/
def State.checkBarrier (s : State) (pa : Nat) : State :=
  if s.valPa (pa + 8) 4 ≥ s.valPa (pa + 4) 4 ∧ s.valPa (pa + 12) 4 = 0 then
    let s := (s.putPa (pa + 8) 4 0).putPa pa 4 (s.valPa pa 4 + 1)
    s.wake fun q => q.kind == .barw && q.pa == pa
  else s

/-- Beats taken off a record, and Check (R190). A program that has written the field lower leaves it at 0 (log 63). -/
def State.subBeats (s : State) (pa n : Nat) : State :=
  ((s.takeLines pa 16).putPa (pa + 12) 4 (s.valPa (pa + 12) 4 - n)).checkBarrier pa

/-! ## Copies -/

def State.modCopy (s : State) (id : Nat) (f : Copy → Copy) : State :=
  { s with eng := { s.eng with copies := updFirst (·.id == id) f s.eng.copies } }

def State.copy? (s : State) (id : Nat) : Option Copy := s.eng.copies.find? (·.id == id)

def State.dropCopy (s : State) (id : Nat) : State :=
  { s with eng := { s.eng with copies := s.eng.copies.filter (·.id != id) } }

/-- An end of a copy at an offset: an offset of the block's scratchpad, a physical address, or what stops
the engine there (R178, R180, R334). -/
inductive CopyEnd where
  | scratch (off : Nat)
  | pa (n : Nat)
  | fault (t : TrapInfo)
  | walk
  deriving DecidableEq, Repr

/-- The address of an end after the bytes done: source or destination. -/
def Copy.at (c : Copy) (src : Bool) : DWord := (if src then c.src else c.dst) + BitVec.ofNat 64 c.done

/-- An end lies in the scratchpad (R178). -/
def Copy.inScratch (c : Copy) (src : Bool) : Bool := if src then c.kind == 2 else c.kind == 1

def State.copyEnd (s : State) (b : Block) (c : Copy) (src : Bool) : CopyEnd :=
  let va := c.at src
  if c.inScratch src then
    -- the scratchpad of a block that is out stands in its save
    if b.saved.isNone then .scratch va.toNat
    else match s.destPa b.saveDest (b.cfg.offS + va.toNat) (if src then .read else .write) 1 with
      | .inr pa => .pa pa
      | .inl (a, .fault t) => .fault { t with addr := a, write := !src, size := c.len }
      | .inl _ => .walk
  else if !canonical va then .fault { cause := .accessViolation, addr := va, write := !src, size := c.len, extra := 1#64 }
  else if !src && !b.cfg.super && s.inCaps c.env va.toNat (min (c.len - c.done) (toBoundary c.done 64)) then
    .fault { cause := .accessViolation, addr := va, write := true, size := c.len, extra := 2#64 }
  else
    match (s.task? c.task).bind (·.locate va (!src) false) with
    | some (.inl pa) => .pa pa
    | some (.inr k) => .fault { cause := k, addr := va, write := !src, size := c.len }
    | none =>
      match s.engineXlate b.place.core c.env va (if src then .read else .write) with
      | (_, some pa) => .pa pa
      | (.fault t, none) => .fault { t with addr := va, write := !src, size := c.len }
      | (_, none) => .walk

/-- Bytes that one step of the engine moves: up to the end of the beat, of a tile and of a scratchpad
part's granule (R190, R242, R334). -/
def Copy.segment (c : Copy) (b : Block) : Nat :=
  let cut (src : Bool) : Nat :=
    let a := (c.at src).toNat
    if c.inScratch src && b.saved.isSome then
      match b.saveDest with
      | .va _ _ x => min (toBoundary a 4096) (toBoundary (x.toNat + b.cfg.offS + a) 4096)
      | .dev _ => toBoundary a 4096
    else toBoundary a 4096
  min (min (c.len - c.done) (toBoundary c.done 64)) (min (cut true) (cut false))

/-- A stop that an engine's work brings to a block. One that is out is stopped by its restore (R361); one that has
ended has no thread to stop, and its context is killed (log 64). -/
def State.stopLate (s : State) (b : Block) (h : Held) : State :=
  if b.saved.isSome then s.modBlock b.id fun b => { b with saved := b.saved.map fun k => { k with stops := k.stops ++ [h] } }
  else if b.ended then s.killContext b (causeCode h.info.cause) h.info.addr (h.pc - b.codeBase).toNat
  else s.trapBlock b.id h

/-- A copy's fault stops its block with no stop set; the promise is void (R180). -/
def State.copyFault (s : State) (c : Copy) (t : TrapInfo) (onRecord : Bool) : State :=
  let s := s.modCopy c.id fun x => { x with fault := some t, promise := none, record? := onRecord }
  let h : Held := { info := t, tids := [], thr := c.tid, pc := c.pc, copy := some c.id }
  match s.block? c.blk with
  | none => s.dropCopy c.id
  | some b => s.stopLate b h

/-- The die of the engine that makes a copy (R178, R423). -/
def Copy.die (c : Copy) : Nat := c.unit / Config.clustersPerDie

/-- A copy consumes an uncorrectable error: its context is killed (R180, R378, R414). -/
def State.copyPoison (s : State) (b : Block) (c : Copy) (pa : Nat) (va : DWord) : State :=
  (s.uncorrected c.die pa c.task c.env 1).killContext b (causeCode .uncorrectedData) va (c.pc - b.codeBase).toNat 0 (some c.die)

/-- Where the linked record lies: the place at which the thread's own access added to it (R190, R334). -/
def State.recordEnd (s : State) (b : Block) (c : Copy) : CopyEnd :=
  match (s.task? c.task).bind (·.locate c.record true false) with
  | some (.inl pa) => .pa pa
  | some (.inr k) => .fault { cause := k, addr := c.record, write := true, size := 16 }
  | none =>
    match s.engineXlate b.place.core c.env c.record .atomic with
    | (_, some pa) => .pa pa
    | (.fault t, none) => .fault { t with addr := c.record, write := true, size := 16 }
    | (_, none) => .walk

/-- One beat of the linked record, after its bytes are written, or all that an abandoned copy has left (R190). -/
def State.copyBeatRecord (s : State) (b : Block) (c : Copy) : State :=
  if c.record = 0#64 then s
  else
    match s.recordEnd b c with
    | .pa pa =>
      if s.poisoned pa 16 then s.copyPoison b c pa c.record
      else
        let n := if c.abandoned then c.beats else 1
        let s := s.subBeats pa n
        if c.abandoned then s.dropCopy c.id
        else s.modCopy c.id fun x => { x with beats := x.beats - n, record? := false }
    | .fault t => s.copyFault c t true
    | _ =>
      let (s, w) := s.startWalk b.die c.env c.record .atomic
      s.modCopy c.id fun x => { x with stall := some w, record? := true }

/-- The write of a copy to another package, which waits for its acknowledgement unless an older one there does. -/
def State.owes (s : State) (c : Copy) (pa : Nat) : List Ack :=
  if (s.farOf pa).any fun n => c.acks.all fun a => s.farOf a.pa != some n then
    [{ tid := c.tid, va := c.at false, pa, time := s.clock.time }]
  else []

/-- One step of the copy engine on a copy: its bytes are written in ascending order (log 59). -/
def State.copyStep (s : State) (c : Copy) : State :=
  match s.block? c.blk with
  | none => s.dropCopy c.id
  | some b =>
    if c.record? || c.abandoned then s.copyBeatRecord b c
    else if c.len ≤ c.done then s
    else
      let n := c.segment b
      let stallAt (s : State) (src : Bool) : State :=
        let (s, w) := s.startWalk b.die c.env (c.at src) (if src then .read else .write)
        s.modCopy c.id fun x => { x with stall := some w }
      match s.copyEnd b c true, s.copyEnd b c false with
      | .fault t, _ => s.copyFault c t false
      | .walk, _ => stallAt s true
      | _, .fault t => s.copyFault c t false
      | _, .walk => stallAt s false
      | from', to' =>
        let s := match from' with
          | .pa p => (s.tellAt false p).correctRead p n
          | _ => s
        let (pa, bytes) := match from' with
          | .pa p => (some p, s.readPa p n)
          | .scratch o => (none, b.scratch.read o n)
          | _ => (none, [])
        let scratchErr := match from' with
          | .scratch o => s.scratchBad c.blk o n
          | _ => false
        if pa.any fun p => s.poisoned p n then s.copyPoison b c (pa.getD 0) (c.at true)
        else if scratchErr then
          (s.event c.die 0x11 1 c.task 1 (some (0, c.env))).killContext b (causeCode .uncorrectedData) (c.at true)
            (c.pc - b.codeBase).toNat 0 (some c.die)
        else
          let s := match to' with
            | .pa p => ((s.tellAt true p).takeLines p n).writePa p bytes
            | .scratch o => s.scratchWrite c.blk o bytes
            | _ => s
          let c' := { c with done := c.done + n }
          let owed := match to' with
            | .pa p => s.owes c p
            | _ => []
          let s := s.modCopy c.id fun x => { x with done := x.done + n, acks := x.acks ++ owed }
          if c'.done % 64 = 0 ∨ c'.done = c'.len then s.copyBeatRecord b c' else s

/-- %time has reached a copy's promised time before it is complete (R180); the promise of a block that has ended lapses, for
there is no thread to stop (log 64). -/
def State.missPromise (s : State) (c : Copy) : State :=
  match c.promise with
  | none => s
  | some t =>
    let s := s.modCopy c.id fun x => { x with promise := none }
    if (s.block? c.blk).any (·.ended) then s
    else s.trapBlock c.blk
      { info := { cause := .promiseMissed, addr := BitVec.ofNat 64 t }, thr := c.tid, pc := c.pc, copy := some c.id }

/-- A promise stands again, to be checked at the restore of its block (R379). -/
def State.promiseAgain (s : State) (x : Nat × DWord) : State :=
  s.modCopy x.1 fun c => { c with promise := some x.2.toNat }

/-- A copy whose bytes are written and whose beats are subtracted (R179, R190). -/
def Copy.finished (c : Copy) : Bool := decide (c.len ≤ c.done) && !c.record? && !c.abandoned && c.fault.isNone && c.stall.isNone

/-- TRET of the stop for a copy's fault: the copy goes on; TRET.skip: the rest of it is abandoned, with its
beats, unless the fault was the record's (R180, R190). -/
def State.copyResume (s : State) (id : Nat) (skip : Bool) : State :=
  match s.copy? id with
  | none => s
  | some c =>
    if !skip then s.modCopy id fun x => { x with fault := none }
    else
      if c.record = 0#64 ∨ c.record? ∨ c.abandoned then s.dropCopy id
      else
        let c := { c with fault := none, abandoned := true }
        let s := s.modCopy id fun _ => c
        match s.block? c.blk with
        | none => s.dropCopy id
        | some b => s.copyBeatRecord b c

/-- A copy of the block whose promise is to be checked before a wake at a target (R180). -/
def State.promiseFirst (s : State) (blk target : Nat) : Bool :=
  s.eng.copies.any fun k => k.blk == blk && k.promise.any fun t => decide (t ≤ s.clock.time ∧ t ≤ target)

/-! ## The wait table (R176) -/

/-- Threads of a cluster in its wait table: parked, not polling, not gone for a page's service (R174). -/
def State.waitTableUse (s : State) (cluster : Nat) : Nat :=
  ((s.blocks.filter fun b => b.cluster == cluster && b.place.resident).map fun b =>
    (b.tids fun th => match th.wait with
      | some (.parked q) => !q.polled && !q.away
      | _ => false).length).foldl (· + ·) 0

/-- A thread parks (R176): into the wait table, or polling when that is full, counted in %wtovf. One that
re-performs its check (`old`) keeps its place, unless it had left the table. -/
def State.park (s : State) (c : Ctx) (tid : Nat) (old : Option Parked) (q : Parked) : State × Fate :=
  match old.filter (!·.away) with
  | some p => (s, .wait (.parked { p with woken := false, pollAt := s.clock.time + 2000 }))
  | none =>
    let q := { q with op := c.op, w := c.w, seq := s.choices }
    let s := { s with choices := s.choices + 1 }
    if s.waitTableUse c.b.cluster < Config.waitTable then
      (s.modTh c.iss.blk tid fun th => { th with st := .parked, wait := some (.parked q) }, .wait (.parked q))
    else
      (s.modBlock c.iss.blk fun b => { b with regs := { b.regs with wtovf :=
          if b.regs.wtovf = 0xFFFFFFFF#32 then b.regs.wtovf else b.regs.wtovf + 1#32 } },
        .wait (.parked { q with polled := true, pollAt := s.clock.time + 2000 }))

end Sys2Proof.Machine
end

