-- ==== Sys2Proof/Machine/Control.lean ====
section
/-! DEFINITION. The instructions of group 000 (R67, R91 to R118). -/

namespace Sys2Proof.Machine

/-! ## Transfers (R63, R93) -/

/-- The walk that has to come before the line of a target can be read; none where it can be, or where the fetch
there will fault (R64). -/
def State.lineWalk (s : State) (c : Ctx) (tid : Nat) (target : DWord) : Option DWord :=
  let line := BitVec.ofNat 64 (target.toNat / 64 * 64)
  if (s.codeLine c.b line.toNat).isSome || (c.b.th tid).fault.any (·.1 == bits line 16 41) then none
  else match s.engineXlate c.b.place.core c.b.cfg.envelope line .fetch with
    | (.fault _, none) => none
    | (_, some _) => none
    | _ => some line

/-- Transfer: the thread goes to a target inside the segment that is a lead byte, or traps. The check is made at
the transferring instruction: while the target's page is missing, the thread waits there (R93). -/
def State.transfer (s : State) (c : Ctx) (target : DWord) (ws : List Wr) (tid : Nat) : State × Fate :=
  if !c.b.inCode target then (s, .trap { cause := .accessViolation, addr := target })
  else match s.lineWalk c tid target with
    | some line =>
      let (s, w) := s.startWalk c.b.die c.b.cfg.envelope line .fetch
      (s, .stall w)
    | none =>
      (s, if s.leadByte c.b target then .goto target ws else .trap { cause := .illegalOp, addr := target })

/-- Each thread that is on transfers to a target of its own. -/
def State.runTransfer (s : State) (op : Nat) (w : CWord) (target : Ctx → Nat → DWord) (ws : Ctx → List Wr) : State :=
  s.runIssue op w fun c s => s.eachOf c.on fun s x => s.transfer c (target c x.2) (ws c) x.2

/-- The target of a displacement (R93). -/
def Ctx.disp (c : Ctx) : DWord := c.pc + c.w.immS

/-- The target of an offset from CodeBase() (R93). -/
def Ctx.offTarget (c : Ctx) (off : Word) : DWord := c.b.codeBase + off.setWidth 64

/-- The link offset (R94). -/
def Ctx.link (c : Ctx) : Wr := .v 0 ((c.next - c.b.codeBase).setWidth 32)

/-- A vector register of a thread of the issue. -/
def Ctx.vreg (c : Ctx) (tid n : Nat) : Word := (c.b.th tid).v.getD n 0#32

/-- Each thread that is on, with a fate of its own that reads the state. -/
def State.runFates (s : State) (op : Nat) (w : CWord) (f : State → Ctx → Nat → Fate) : State :=
  s.runIssue op w fun c s => (s, c.on.map fun x => (x.2, f s c x.2))

def execNop (w : CWord) (s : State) : Host.Outcome State Fault Refusal :=
  .next (s.runIssue 0x000 w fun _ s => (s, []))

/-- CLAUSE (R67): outstanding results of the flags waited on arrive first; a count still not zero holds
the plait. -/
def execClause (w : CWord) (s : State) : Host.Outcome State Fault Refusal :=
  .next (s.runIssue 0x001 w fun c s =>
    let mask (k : Nat) : Bool := w.imm.getLsbD (20 + k)
    let s := c.on.foldl (fun s x => s.modTh c.iss.blk x.2 (Thread.deliverIf fun o => o.flag.any mask)) s
    let wait := (s.block? c.iss.blk).any fun b => c.on.any fun x =>
      (List.range 12).any fun k => mask k && (b.th x.2).pend k != 0
    let slots := (if w.imm.getLsbD 15 then some (bits w.imm 16 4) else none,
      if w.imm.getLsbD 10 then some (bits w.imm 11 4) else none)
    (s, c.on.map fun x => (x.2, if wait then Fate.stay else .header w.d.toNat slots)))

def execBra (w : CWord) (s : State) : Host.Outcome State Fault Refusal :=
  .next (s.runTransfer 0x002 w (fun c _ => c.disp) fun _ => [])

def execBrx (w : CWord) (s : State) : Host.Outcome State Fault Refusal :=
  .next (s.runTransfer 0x003 w (fun c t => c.offTarget (c.vreg t w.a.toNat)) fun _ => [])

def execCall (w : CWord) (s : State) : Host.Outcome State Fault Refusal :=
  .next (s.runTransfer 0x004 w (fun c _ => c.disp) fun c => [c.link])

def execCallx (w : CWord) (s : State) : Host.Outcome State Fault Refusal :=
  .next (s.runTransfer 0x005 w (fun c t => c.offTarget (c.vreg t w.a.toNat)) fun c => [c.link])

def execRet (w : CWord) (s : State) : Host.Outcome State Fault Refusal :=
  .next (s.runTransfer 0x006 w (fun c t => c.offTarget (c.vreg t 0)) fun _ => [])

def execUbra (w : CWord) (s : State) : Host.Outcome State Fault Refusal :=
  .next (s.runIssue 0x007 w fun c s =>
    if (c.b.ureg w.a.toNat != 0) != (w.modF 0 1 == 1) then s.eachOf c.on fun s x => s.transfer c c.disp [] x.2
    else (s, []))

/-! ## Pins, WIDTH, ends -/

def execArm (w : CWord) (s : State) : Host.Outcome State Fault Refusal :=
  .next (s.runIssue 0x008 w fun c s =>
    (c.on.foldl (fun s x => s.modTh c.iss.blk x.2 fun th => { th with armed := th.armed ||| (1#32 <<< w.imm.toNat) }) s, []))

/-- PIN and PIN.ALIGN (R99): an armed thread waits; the release runs when all have arrived. -/
def State.pinAt (s : State) (op : Nat) (w : CWord) (align : Bool) : State :=
  s.runFates op w fun _ c t =>
    if (c.b.th t).armed.getLsbD w.imm.toNat then .wait (.pin w.imm.toNat align) else .done

def execPin (w : CWord) (s : State) : Host.Outcome State Fault Refusal := .next (s.pinAt 0x009 w false)

def execPinAlign (w : CWord) (s : State) : Host.Outcome State Fault Refusal := .next (s.pinAt 0x00A w true)

def execWidth (w : CWord) (s : State) : Host.Outcome State Fault Refusal :=
  .next (s.runFates 0x00B w fun _ c _ =>
    let q := if w.bsel = 2#2 then w.imm.toNat else c.b.ureg w.b.toNat % 2 ^ 32
    if [0, 4, 8, 16, 32, 64, 128].contains q then .wait (.width q) else .trap { cause := .reservedField })

def execExit (w : CWord) (s : State) : Host.Outcome State Fault Refusal :=
  .next (s.runFates 0x00C w fun _ _ _ => .exit)

def execTrigger (w : CWord) (s : State) : Host.Outcome State Fault Refusal :=
  .next (s.runIssue 0x00D w fun c s =>
    let s := c.on.foldl (fun s x => s.modTh c.iss.blk x.2 fun th => { th with triggered := true }) s
    (s.noteTrigger c.iss.blk, []))

/-- LAND (R105): a thread of a due block waits for its results and lands. -/
def execLand (w : CWord) (s : State) : Host.Outcome State Fault Refusal :=
  .next (s.runIssue 0x00E w fun c s =>
    if c.b.due.isNone then (s, [])
    else
      let s := c.on.foldl (fun s x => s.modTh c.iss.blk x.2 (Thread.deliverIf fun _ => true)) s
      (s, c.on.map fun x => (x.2, .landed (.landed (c.b.codeBase + w.immS) false))))

/-- YIELD (R106): the plait dissolves; the active threads go behind their pool. -/
def execYield (w : CWord) (s : State) : Host.Outcome State Fault Refusal :=
  .next (s.runIssue 0x00F w fun c s =>
    (s.modBlock c.iss.blk (fun b => (c.on.foldl (fun b x => b.modTh x.2 fun th => { th with order := 1 }) b).endPlait c.iss.plait), []))

/-! ## Reels and time -/

def execPayout (w : CWord) (s : State) : Host.Outcome State Fault Refusal :=
  .next (s.runIssue 0x010 w fun c s =>
    let all (f : Fate) : List (Nat × Fate) := c.on.map fun x => (x.2, f)
    let t := w.modF 0 1 == 1
    let x := if w.bsel = 2#2 then w.imm.toNat else c.b.ureg w.b.toNat
    if !(c.iss.handler && c.b.trap.level != 0) && !c.b.cfg.super then (s, all (.trap { cause := .accessViolation }))
    else if (s.env c.b.cfg.envelope).pool t < x then (s, all (.trap { cause := .envelopeQuota }))
    else
      let s := if c.iss.handler then s else s.charge c.iss.blk (c.on.length * weightOf 0x010) 0
      (s.payCycle c.iss.blk t x, all .paid))

/-- A sleep until a target (R108). -/
def sleepFate (now target : Nat) : Fate := if target ≤ now then .done else .wait (.sleep target)

def execSleep (w : CWord) (s : State) : Host.Outcome State Fault Refusal :=
  .next (s.runFates 0x011 w fun s c t =>
    let n := if w.bsel = 2#2 then w.imm.toNat else (c.vreg t w.b.toNat).toNat
    sleepFate s.clock.time (s.clock.time + n))

def execSleepuntil (w : CWord) (s : State) : Host.Outcome State Fault Refusal :=
  .next (s.runFates 0x012 w fun s c t =>
    let now := s.clock.time
    if w.bsel = 2#2 then
      let n := w.imm.toNat
      if n = 0 then .done else sleepFate now (roundUpTo now n)
    else sleepFate now ((c.b.th t).reg w.b.toNat 2))

/-! ## Traps and the handler -/

def execTrap (w : CWord) (s : State) : Host.Outcome State Fault Refusal :=
  .next (s.runFates 0x013 w fun _ _ _ => .trap { cause := .swTrap, addr := w.imm.setWidth 64 })

/-- The stop of a block for an attached debugger: as steps 1 to 3 of R368, at no level of its own; one at a BKPT of the
handler leaves the level as it is (R380). -/
def Block.debugStop (b : Block) (handler : Bool) (tids : List Nat) : Block :=
  if handler then { b with trap := { b.trap with debug := true, debugH := true } }
  else
    let b := b.stop tids
    { b with trap := { b.trap with debug := true, stopSet := tids } }

/-- BKPT (R109): the trap, or under an attached debugger the stop of the block, of which the debugger is told (R380). -/
def execBkpt (w : CWord) (s : State) : Host.Outcome State Fault Refusal :=
  .next (s.runIssue 0x018 w fun c s =>
    if (s.env c.b.cfg.envelope).debug then
      ({ s.modBlock c.iss.blk (·.debugStop c.iss.handler (c.on.map (·.2))) with
          outputs := s.outputs ++ [.bkpt c.b.task c.b.bid (c.on.map (·.2)) w.imm] },
        c.on.map fun x => (x.2, Fate.stay))
    else (s, c.on.map fun x => (x.2, Fate.trap { cause := .bkpt, addr := w.imm.setWidth 64 })))

/-- A handler thread in trap mode (R91). -/
def Ctx.privileged (c : Ctx) : Bool := c.iss.handler && c.b.trap.level != 0

def Ctx.allTrap (c : Ctx) (k : Cause) : List (Nat × Fate) := c.on.map fun x => (x.2, .trap { cause := k })

/-- TRET (R110, R377). -/
def execTret (w : CWord) (s : State) : Host.Outcome State Fault Refusal :=
  .next (s.runIssue 0x014 w fun c s =>
    let skip := w.modF 0 1 == 1
    if !c.privileged then (s, c.allTrap .accessViolation)
    else if c.b.trap.level = 2 then
      let pc := c.b.trap.bank1.pc
      let pc := if skip then pc + BitVec.ofNat 64 (s.skipLen c.b pc) else pc
      (s.modBlock c.iss.blk fun b => { b with trap := { b.trap with level := 1 } }, c.on.map fun x => (x.2, .goto pc))
    else
      let s := match c.b.trap.copy with
        | some id => s.copyResume id skip
        | none => s
      (s.tret1 c.iss.blk skip, c.on.map fun x => (x.2, .stay)))

/-- What a selector of R111 reads of a thread. -/
def readSelector (b : Block) (th : Thread) (kind num : Nat) (wide : Bool) : Nat :=
  match kind with
  | 0 => th.reg num (if wide then 2 else 1)
  | 1 => th.p.toNat + 128
  | 2 => (th.pc - b.codeBase).toNat % 2 ^ 32
  | 3 => match th.st with
    | .ready => 0 | .waiting => 1 | .parked => 2 | .trapped => 3 | .exited => 4
  | 4 => th.seed.toNat
  | _ => th.flagsReg.toNat

/-- The checks of R111 that the operands decide: the thread index, and a register outside the target's
allocation. -/
def selectorFault (b : Block) (tid kind num : Nat) (wide : Bool) : Option Cause :=
  if b.cfg.bsize ≤ tid then some .regIndex
  else if kind = 0 ∧ b.cfg.vAlloc < num + (if wide then 2 else 1) then some .regIndex
  else none

/-- One of some registers of a thread holds an uncorrectable error (R414). -/
def State.badRegs (s : State) (blk tid num n : Nat) : Bool :=
  (List.range n).any fun k => s.health.bad.contains (.reg blk tid (num + k))

def execTread (w : CWord) (s : State) : Host.Outcome State Fault Refusal :=
  .next (s.runIssue 0x015 w fun c s =>
    if !c.privileged then (s, c.allTrap .accessViolation)
    else
      let kind := bits w.imm 24 8
      let num := bits w.imm 0 8
      let wide := w.ty == .b64
      let target (t : Nat) : Nat := (c.vreg t w.a.toNat).toNat
      let s := c.on.foldl (fun s x =>
        if target x.2 < c.b.cfg.bsize then s.modTh c.iss.blk (target x.2) (Thread.deliverIf fun _ => true) else s) s
      let bad (t : Nat) : Bool :=
        (selectorFault c.b (target t) kind num wide).isNone && kind == 0 && s.badRegs c.iss.blk (target t) num (if wide then 2 else 1)
      let met := c.on.any fun x => bad x.2
      (if met then s.coreError c.b 2 0 else s, c.on.map fun x => (x.2,
        match selectorFault c.b (target x.2) kind num wide, s.block? c.iss.blk with
        | some k, _ => Fate.trap { cause := k }
        | none, some b =>
          if bad x.2 then .trap { cause := .uncorrectedData }
          else .done (wrV w.d.toNat w.ty.regs (readSelector b (b.th (target x.2)) kind num wide))
        | none, none => .done)))

/-- A value that a write of a selector refuses: a state not allowed, a PC outside the segment (R111). -/
def writeFault (b : Block) (th : Thread) (kind x : Nat) : Option (Cause × DWord) :=
  if kind = 2 then
    let pc := b.codeBase + BitVec.ofNat 64 (x % 2 ^ 32)
    if b.inCode pc then none else some (.accessViolation, pc)
  else if kind = 3 then
    if (x = 0 ∧ th.st = .trapped) ∨ x = 4 then none else some (.reservedField, 0#64)
  else if kind = 5 then (if x < 4096 then none else some (.reservedField, 0#64))
  else none

/-- The write of a selector to one thread (R111). -/
def State.writeSelector (s : State) (blk tid kind num : Nat) (wide : Bool) (x : Nat) : State :=
  if kind = 3 ∧ x = 4 then s.exitThreads blk [tid]
  else
    (s.heal fun u => kind == 0 && (List.range (if wide then 2 else 1)).any fun k => u == .reg blk tid (num + k)).modBlock blk fun b => Block.modTh { b with out :=
        if kind = 0 then (b.out.map fun g => if g.1 = tid / 128 then (g.1, g.2.1, []) else g) else b.out } tid fun th =>
      match kind with
      | 0 => (wrV num (if wide then 2 else 1) x).foldl Thread.put th
      | 1 => { th with p := BitVec.ofNat 7 x, outst := th.outst.map fun o => { o with pred := none } }
      | 2 => { th with pc := b.codeBase + BitVec.ofNat 64 (x % 2 ^ 32), wlen := 0, stall := none, fault := none, remote := none, held := none, written := true, prepaid := false }
      | 3 => { th with st := .ready, written := true, age := b.cycles, order := 0 }
      | 4 => { th with seed := if x % 2 ^ 32 = 0 then 1#32 else BitVec.ofNat 32 x }
      | _ => th.setFlags (BitVec.ofNat 32 x)

def execTwrite (w : CWord) (s : State) : Host.Outcome State Fault Refusal :=
  .next (s.runIssue 0x016 w fun c s =>
    if !c.privileged then (s, c.allTrap .accessViolation)
    else
      s.eachOf c.on fun s x =>
        let kind := bits w.imm 24 8
        let num := bits w.imm 0 8
        let wide := w.ty == .b64
        let tid := (c.vreg x.2 w.a.toNat).toNat
        let v := (c.b.th x.2).reg w.b.toNat w.ty.regs
        match selectorFault c.b tid kind num wide, s.block? c.iss.blk with
        | some k, _ => (s, .trap { cause := k })
        | none, none => (s, .done)
        | none, some b =>
          let th := b.th tid
          if th.st = .exited then (s, .done)
          else
            match writeFault b th kind v with
            | some (k, a) => (s, .trap { cause := k, addr := a })
            | none => (s.writeSelector c.iss.blk tid kind num wide v, .done))

/-- KILL (R112). -/
def execKill (w : CWord) (s : State) : Host.Outcome State Fault Refusal :=
  .next (s.runIssue 0x017 w fun c s => (s.endTask c.b.task (.kill (bits w.imm 0 8)), []))

def execWdog (w : CWord) (s : State) : Host.Outcome State Fault Refusal :=
  .next (s.runIssue 0x019 w fun c s =>
    let x := if w.bsel = 2#2 then w.imm else BitVec.ofNat 32 (c.b.ureg w.b.toNat)
    if bits x 28 4 ≠ 0 then (s, c.allTrap .reservedField)
    else (s.modBlock c.iss.blk fun b => { b with regs := { b.regs with wdog := x }, wdrun := 0 }, []))

/-! ## Instruction code (R114, R115) -/

def execIfence (w : CWord) (s : State) : Host.Outcome State Fault Refusal :=
  .next (s.runIssue 0x01A w fun c s =>
    ({ s with eng := { s.eng with loops := s.eng.loops.filter fun l => l.2.2.core != c.b.place.core } }, []))

/-- A core or cluster lies in a scope of ICINV from a core (R114). -/
def inScope (scope core x : Nat) : Bool :=
  match scope with
  | 0 => clusterOfCore core == clusterOfCore x
  | 1 => dieOfCore core == dieOfCore x
  | _ => true

/-- A cluster lies in a scope of ICINV from a core. -/
def clusterIn (scope core cluster : Nat) : Bool :=
  match scope with
  | 0 => clusterOfCore core == cluster
  | 1 => dieOfCore core == cluster / Config.clustersPerDie
  | _ => true

/-- A line that leaves the instruction cache goes on in a section's loop buffer for a block, while the buffer's 64
entries hold it beside the lines that it has (R2, R66). -/
def addLoop (loops : List (Nat × Nat × CodeLine)) (sect blk : Nat) (l : CodeLine) : List (Nat × Nat × CodeLine) :=
  let same (x : CodeLine) : Bool := x.core == l.core && x.task == l.task && x.line == l.line
  let held := ((loops.filter fun x => x.1 == sect && x.2.2.core == l.core && !same x.2.2).map (·.2.2)).dedup
  if (loops.any fun x => x.1 == sect && x.2.1 == blk && same x.2.2) ||
      decide (Config.loopEntries < (held.map CodeLine.entries).foldl (· + ·) l.entries) then loops
  else (sect, blk, l) :: loops

/-- ICINV: earlier stores are performed at the scope, for .pkg when every remote one is acknowledged; the
entries leave the instruction caches and the fetch units; loop buffers may go on holding them (R66). -/
def execIcinv (w : CWord) (s : State) : Host.Outcome State Fault Refusal :=
  .next (s.runIssue 0x01B w fun c s =>
    if s.mustDrain c true (w.modF 0 2 + 1) then (s, c.again) else
    let base := c.b.ureg w.a.toNat
    let len := c.b.ureg w.b.toNat
    let scope := w.modF 0 2
    let hit (l : CodeLine) : Bool :=
      l.task == c.b.task && inScope scope c.b.place.core l.core &&
        (len == 0 || decide (base < l.line + 64 ∧ l.line < base + len))
    let gone := s.eng.icache.filter hit
    let users (l : CodeLine) : List Nat :=
      (s.blocks.filter fun b => b.task == l.task && b.place.core == l.core && b.place.resident).map (·.id)
    let loops := gone.foldl (fun ls l => (users l).foldl (fun ls k =>
      (List.range 4).foldl (fun ls j => addLoop ls j k l) ls) ls) s.eng.loops
    let unit (l : StaleLine) : Bool :=
      l.task == c.b.task && clusterIn scope c.b.place.core l.unit &&
        (len == 0 || decide (base < (l.va + 128) / 64 * 64 ∧ l.va < base + len))
    let fetchs := s.eng.fetchs.filter (!unit ·)
    ({ s with eng := { s.eng with
        icache := s.eng.icache.filter (!hit ·), fills := s.eng.fills.filter (!hit ·), loops, fetchs } }, []))

/-! ## Special registers (R41 to R43, R116, R117) -/

/-- The word of %park: BORROW, OUT and COUNT are laid out by R239. -/
def Block.parkReg (b : Block) (borrow : Bool) : Word :=
  let out := (b.threads.filter (·.inSlot)).length
  BitVec.ofNat 32 ((if borrow then 2 ^ 31 else 0) + 2 ^ 16 * out + b.place.parkn)

/-- The value of a special register for a thread of an issue. Of the writes of other plaits and of the hardware's
updates it sees every one made before (log 61). -/
def State.special (s : State) (c : Ctx) (rank tid n : Nat) : Nat :=
  let b := c.b
  let th := b.th tid
  if 0x18 ≤ n ∧ n ≤ 0x1F then
    if n = 0x18 then b.cfg.bsize
    else
      match b.cfg.levels[n - 0x18]? with
      | some (e, _) => b.bid / b.cfg.below (n - 0x19) % e
      | none => 0
  else
    match n with
    | 0x00 => tid
    | 0x01 => rank
    | 0x02 => b.widthReg
    | 0x03 => (c.act.filter fun x => !b.place.confined || x.1 / 4 == rank / 4).length
    | 0x04 => th.seed.toNat
    | 0x05 => th.flagsReg.toNat
    | 0x10 => b.bid
    | 0x20 => b.regs.ireel.toNat
    | 0x21 => b.regs.treel.toNat
    | 0x22 => b.cfg.landbound
    | 0x23 => b.ackc
    | 0x24 => b.regs.inldepth.toNat
    | 0x25 => b.regs.inlmax.toNat
    | 0x26 => b.regs.ustat.toNat
    | 0x27 => (xstat b.xs).toNat
    | 0x28 => b.place.accbase
    | 0x29 => b.regs.fmode.toNat
    | 0x2A => b.regs.wdog.toNat
    | 0x2B => (b.parkReg (s.borrows b)).toNat
    | 0x2C => b.regs.wtovf.toNat
    | 0x30 => s.clock.kcyc / 1000
    | 0x31 => s.clock.time
    | 0x32 => b.place.core % Config.coresPerCluster
    | 0x33 => b.cluster % Config.clustersPerDie
    | 0x34 => b.die
    | 0x35 => s.fabric.pkgid
    | 0x36 => b.cfg.envelope
    | 0x40 => if c.iss.handler then b.trap.level else 0
    | 0x41 => b.trap.bank0.cause.toNat
    | 0x42 => b.trap.bank1.cause.toNat
    | 0x43 => b.trap.bank0.pc.toNat
    | 0x44 => b.trap.bank1.pc.toNat
    | 0x45 => b.trap.bank0.addr.toNat
    | 0x46 => b.trap.bank1.addr.toNat
    | 0x47 => b.trap.bank0.thr.toNat
    | 0x48 => b.trap.bank1.thr.toNat
    | 0x49 => b.trap.tvec.toNat
    | _ => b.trap.tsave.toNat

/-- The trap of an access to a special register (R41). -/
def accessFault (a : Access) (privileged : Bool) : Option Cause :=
  match a with
  | .all => none
  | .handler => if privileged then none else some .accessViolation
  | .nobody => some .reservedField

/-- A copy of the block whose promise an SRD of %time would pass unchecked (R264). -/
def State.uncheckedPromise (s : State) (blk : Nat) : Bool :=
  s.eng.copies.any fun k => k.blk == blk && k.promise.any fun t => decide (t ≤ s.clock.time)

def execSrd (w : CWord) (s : State) : Host.Outcome State Fault Refusal :=
  .next (s.runIssue 0x01C w fun c s =>
    let n := w.a.toNat
    match (Sys2Proof.special n).map (·.read) with
    | none => (s, c.allTrap .reservedField)
    | some a =>
      match accessFault a c.privileged with
      | some k => (s, c.allTrap k)
      | none =>
        if n = 0x31 && s.uncheckedPromise c.iss.blk then (s, c.again)
        else (s, c.on.map fun x => (x.2, .done (wrV w.d.toNat w.ty.regs (s.special c x.1 x.2 n)))))

/-- The field rules of an SWR's value (R20, R28, R41, R43, R69, R113, R371). -/
def fieldRule (n x : Nat) : Bool :=
  match n with
  | 0x05 => decide (x < 4096)
  | 0x25 => decide (x ≤ 8)
  | 0x26 => decide (x < 2)
  | 0x29 => decide (x < 32) && x % 8 != 0 && x % 8 != 7
  | 0x2A => decide (x < 2 ^ 28)
  | 0x41 | 0x42 => decide (x < 2 ^ 24)
  | _ => true

/-- The write of a per-block register. -/
def Block.swr (b : Block) (n x : Nat) : Block :=
  let w := BitVec.ofNat 32 x
  let d := BitVec.ofNat 64 x
  match n with
  | 0x25 => { b with regs := { b.regs with inlmax := w } }
  | 0x26 => { b with regs := { b.regs with ustat := w } }
  | 0x27 => { b with xs := (List.range 8).map fun k => { b.xs.getD k {} with st := w.extractLsb' (4 * k) 4 } }
  | 0x29 => { b with regs := { b.regs with fmode := w } }
  | 0x2A => { b with regs := { b.regs with wdog := w }, wdrun := 0 }
  | 0x2C => { b with regs := { b.regs with wtovf := w } }
  | 0x41 => { b with trap := { b.trap with bank0 := { b.trap.bank0 with cause := w } } }
  | 0x42 => { b with trap := { b.trap with bank1 := { b.trap.bank1 with cause := w } } }
  | 0x43 => { b with trap := { b.trap with bank0 := { b.trap.bank0 with pc := d } } }
  | 0x44 => { b with trap := { b.trap with bank1 := { b.trap.bank1 with pc := d } } }
  | 0x45 => { b with trap := { b.trap with bank0 := { b.trap.bank0 with addr := d } } }
  | 0x46 => { b with trap := { b.trap with bank1 := { b.trap.bank1 with addr := d } } }
  | 0x47 => { b with trap := { b.trap with bank0 := { b.trap.bank0 with thr := w } } }
  | 0x48 => { b with trap := { b.trap with bank1 := { b.trap.bank1 with thr := w } } }
  | 0x49 => { b with trap := { b.trap with tvec := d } }
  | 0x4A => { b with trap := { b.trap with tsave := d } }
  | _ => b

/-- A handler's SWR to a reel (R350): the payout of an increase, none when the pool holds less; a decrease
goes back to the pool. -/
def State.setReel (s : State) (blk : Nat) (t : Bool) (v : Nat) : Option State :=
  match s.block? blk with
  | none => some s
  | some b =>
    let old := (b.reel t).toNat
    let pool := (s.env b.cfg.envelope).pool t
    if old < v then (if pool < v - old then none else some (s.payout blk t (v - old)))
    else
      let s := s.modEnv b.cfg.envelope fun e => e.setPool t (pool + (old - v))
      let b' := b.setReel t (BitVec.ofNat 64 v)
      let out := v == 0 && decide (0 < old)
      let b' := if out then b'.makeDue (!t) t false s.clock.time else b'
      let s := s.modBlock blk fun _ => b'
      some (if out && b.due.isNone then s.recallGroup b' else s)

/-- The value an SWR of one thread writes (R117). -/
def swrValue (c : Ctx) (tid : Nat) (wide : Bool) : Nat :=
  let x := if c.w.bsel = 2#2 then c.w.imm.toNat else (c.b.th tid).reg c.w.b.toNat c.w.ty.regs
  if wide then x else x % 2 ^ 32

def execSwr (w : CWord) (s : State) : Host.Outcome State Fault Refusal :=
  .next (s.runIssue 0x01D w fun c s =>
    let n := w.d.toNat
    match Sys2Proof.special n with
    | none => (s, c.allTrap .reservedField)
    | some r =>
      match accessFault r.write c.privileged with
      | some k => (s, c.allTrap k)
      | none =>
        if n = 0x04 then
          (s, c.on.map fun x =>
            let v := BitVec.ofNat 32 (swrValue c x.2 false)
            (x.2, .done [.seed (if v = 0#32 then 1#32 else v)]))
        else if n = 0x05 then
          s.eachOf c.on fun s x =>
            let v := swrValue c x.2 false
            if fieldRule 0x05 v then (s.modTh c.iss.blk x.2 fun th => th.setFlags (BitVec.ofNat 32 v), .done)
            else (s, .trap { cause := .reservedField })
        else
          let v := match maxBy (fun t : Nat => t) (c.on.map (·.2)) with
            | some t => swrValue c t r.wide
            | none => 0
          if n = 0x20 ∨ n = 0x21 then
            match s.setReel c.iss.blk (n == 0x21) v with
            | some s => (s, [])
            | none => (s, c.allTrap .envelopeQuota)
          else if fieldRule n v then (s.modBlock c.iss.blk (·.swr n v), []) else (s, c.allTrap .reservedField))

end Sys2Proof.Machine
end

