-- ==== Sys2Proof/Machine/Integer.lean ====
section
/-! DEFINITION. The integer, logic and address instructions of group 001 (R124 to R134, R437). -/

namespace Sys2Proof.Machine

/-- Source b as a single 32-bit register or immediate: a count, an exponent, an index, a class set (R119). -/
def Opnd.word (x : Opnd) (w : CWord) : Nat :=
  if w.bsel = 2#2 then w.imm.toNat else x.reg w.uni .b32 w.b.toNat

/-- Source C as a single 32-bit register. -/
def Opnd.cword (x : Opnd) (w : CWord) : Nat := x.reg w.uni .b32 w.c

/-- An integer result of R125: an exact value wrapped, or clamped with SAT. -/
def intVal (w : CWord) (sat : Bool) (x : Int) : Alu := .val w.ty.regs (narrow w.ty sat x)

/-- An instruction of sources a and b as integers of its type. -/
def State.runInt (s : State) (op : Nat) (w : CWord) (sat : Bool) (f : Int → Int → Int) : State :=
  s.runAlu op w fun x => intVal w sat (f (valOf w.ty (x.a w w.ty)) (valOf w.ty (x.bb w w.ty)))

/-- An instruction of sources a and b as bits. -/
def State.runBits (s : State) (op : Nat) (w : CWord) (f : Nat → Nat → Nat) : State :=
  s.runAlu op w fun x => .val w.ty.regs (low w.ty (f (x.a w w.ty) (x.bb w w.ty)))

def execIadd (w : CWord) (s : State) : Host.Outcome State Fault Refusal :=
  .next (s.runInt 0x080 w w.sat fun a b => a + b)

def execIsub (w : CWord) (s : State) : Host.Outcome State Fault Refusal :=
  .next (s.runInt 0x081 w w.sat fun a b => a - b)

def execImul (w : CWord) (s : State) : Host.Outcome State Fault Refusal :=
  .next (s.runInt 0x082 w false fun a b => a * b)

def execImulhi (w : CWord) (s : State) : Host.Outcome State Fault Refusal :=
  .next (s.runInt 0x083 w false fun a b => a * b / 2 ^ w.ty.bits)

def execImad (w : CWord) (s : State) : Host.Outcome State Fault Refusal :=
  .next (s.runAlu 0x084 w fun x =>
    let v (y : Nat) : Int := valOf w.ty y
    intVal w w.sat (v (x.a w w.ty) * v (x.bb w w.ty) + v (x.c w w.ty)))

/-- The quotient rounded towards zero and the remainder of R126. -/
def divide (t : Ty) (a b : Int) : Int × Int :=
  if t.signed ∧ a = typeMin t ∧ b = -1 then (a, 0)
  else
    let q : Int := if decide (a < 0) != decide (b < 0) then -(a.natAbs / b.natAbs : Nat) else (a.natAbs / b.natAbs : Nat)
    (q, a - q * b)

def Opnd.divide (x : Opnd) (w : CWord) (rem : Bool) : Alu :=
  let b := valOf w.ty (x.bb w w.ty)
  if b = 0 then .trap .intDiv0
  else
    let (q, r) := Machine.divide w.ty (valOf w.ty (x.a w w.ty)) b
    intVal w false (if rem then r else q)

def execIdiv (w : CWord) (s : State) : Host.Outcome State Fault Refusal :=
  .next (s.runAlu 0x085 w fun x => x.divide w false)

def execIrem (w : CWord) (s : State) : Host.Outcome State Fault Refusal :=
  .next (s.runAlu 0x086 w fun x => x.divide w true)

def execIabs (w : CWord) (s : State) : Host.Outcome State Fault Refusal :=
  .next (s.runAlu 0x087 w fun x => intVal w w.sat |valOf w.ty (x.un w w.ty)|)

def execIneg (w : CWord) (s : State) : Host.Outcome State Fault Refusal :=
  .next (s.runAlu 0x088 w fun x => intVal w w.sat (-(valOf w.ty (x.un w w.ty))))

def execImin (w : CWord) (s : State) : Host.Outcome State Fault Refusal :=
  .next (s.runInt 0x089 w false min)

def execImax (w : CWord) (s : State) : Host.Outcome State Fault Refusal :=
  .next (s.runInt 0x08A w false max)

def execIaddsat (w : CWord) (s : State) : Host.Outcome State Fault Refusal :=
  .next (s.runInt 0x08B w true fun a b => a + b)

def execIcmp (w : CWord) (s : State) : Host.Outcome State Fault Refusal :=
  .next (s.runAlu 0x08C w fun x => .pred (condInt w.ty (w.modF 0 3) (x.a w w.ty) (x.bb w w.ty)))

/-- ISET's kinds: W one bits, 1, or a predicate (R127). -/
def execIset (w : CWord) (s : State) : Host.Outcome State Fault Refusal :=
  .next (s.runAlu 0x08D w fun x =>
    let r := condInt w.ty (w.modF 0 3) (x.a w w.ty) (x.bb w w.ty)
    match w.modF 3 2 with
    | 0 => .val w.ty.regs (if r then 2 ^ w.ty.bits - 1 else 0)
    | 1 => .val w.ty.regs (if r then 1 else 0)
    | _ => .pred r)

/-! ## Logic and shifts -/

def execAnd (w : CWord) (s : State) : Host.Outcome State Fault Refusal :=
  .next (s.runBits 0x08E w fun a b => a &&& b)

def execOr (w : CWord) (s : State) : Host.Outcome State Fault Refusal :=
  .next (s.runBits 0x08F w fun a b => a ||| b)

def execXor (w : CWord) (s : State) : Host.Outcome State Fault Refusal :=
  .next (s.runBits 0x090 w fun a b => a ^^^ b)

/-- The complement over the bits of a type. -/
def complement (t : Ty) (x : Nat) : Nat := 2 ^ t.bits - 1 - x

def execNot (w : CWord) (s : State) : Host.Outcome State Fault Refusal :=
  .next (s.runAlu 0x091 w fun x => .val w.ty.regs (complement w.ty (x.a w w.ty)))

def execAndn (w : CWord) (s : State) : Host.Outcome State Fault Refusal :=
  .next (s.runBits 0x092 w fun a b => a &&& complement w.ty b)

/-- A shift of source a by a 32-bit count. -/
def State.runShift (s : State) (op : Nat) (w : CWord) (f : Nat → Nat → Nat) : State :=
  s.runAlu op w fun x => .val w.ty.regs (low w.ty (f (x.a w w.ty) (x.word w)))

def execShl (w : CWord) (s : State) : Host.Outcome State Fault Refusal :=
  .next (s.runShift 0x093 w fun a n => if w.ty.bits ≤ n then 0 else a <<< n)

def execShr (w : CWord) (s : State) : Host.Outcome State Fault Refusal :=
  .next (s.runShift 0x094 w fun a n => if w.ty.bits ≤ n then 0 else a >>> n)

/-- The shift right of a signed value; by W or more, all sign bits (R128). -/
def sarVal (bits a n : Nat) : Nat := wrap bits (toSigned bits a / 2 ^ (min n bits))

def execSar (w : CWord) (s : State) : Host.Outcome State Fault Refusal :=
  .next (s.runShift 0x095 w fun a n => sarVal w.ty.bits a n)

def execRotl (w : CWord) (s : State) : Host.Outcome State Fault Refusal :=
  .next (s.runShift 0x096 w fun a n =>
    let k := n % w.ty.bits
    a <<< k ||| a >>> (w.ty.bits - k))

/-- FUNNEL (R128): the count is IMM, register C or MOD. -/
def execFunnel (w : CWord) (s : State) : Host.Outcome State Fault Refusal :=
  .next (s.runAlu 0x097 w fun x =>
    let n := if w.bsel = 0#2 then w.imm.toNat else if w.bsel = 1#2 then x.cword w else w.mod.toNat
    let v := x.a w w.ty * 2 ^ w.ty.bits + x.bb w w.ty
    .val w.ty.regs (low w.ty (v >>> (n % w.ty.bits))))

/-! ## Bit fields and bytes -/

/-- The position and the length of a descriptor inside a width (R129). -/
def fieldOf (bits desc : Nat) : Nat × Nat :=
  let p := min (desc % 256) bits
  (p, min (desc / 256 % 256) (bits - p))

def execBfx (w : CWord) (s : State) : Host.Outcome State Fault Refusal :=
  .next (s.runAlu 0x098 w fun x =>
    let b := x.reg w.uni .b32 w.b.toNat
    let desc := if w.bsel = 0#2 then b else if w.bsel = 1#2 then b % 256 + 256 * (x.cword w % 256) else w.imm.toNat
    let (p, l) := fieldOf w.ty.bits desc
    let f := (x.a w w.ty) >>> p % 2 ^ l
    .val w.ty.regs (if l = 0 then 0 else if w.modF 0 1 = 1 then wrap w.ty.bits (toSigned l f) else f))

def execBfi (w : CWord) (s : State) : Host.Outcome State Fault Refusal :=
  .next (s.runAlu 0x099 w fun x =>
    let desc := if w.bsel = 0#2 then w.imm.toNat else if w.bsel = 1#2 then x.cword w else x.reg w.uni .b32 w.e
    let (p, l) := fieldOf w.ty.bits desc
    let a := x.a w w.ty
    let old := (a >>> p) % 2 ^ l
    .val w.ty.regs (a - old * 2 ^ p + (x.bb w w.ty % 2 ^ l) * 2 ^ p))

/-- Bits counted (R131). -/
def countOnes (bits x : Nat) : Nat := ((List.range bits).filter (x.testBit ·)).length

def leadingZeros (bits x : Nat) : Nat := if x = 0 then bits else bits - 1 - x.log2

def trailingZeros (bits x : Nat) : Nat := ((List.range bits).find? (x.testBit ·)).getD bits

def reverseBits (bits x : Nat) : Nat :=
  (List.range bits).foldl (fun a i => if x.testBit i then a + 2 ^ (bits - 1 - i) else a) 0

def State.runUnary (s : State) (op : Nat) (w : CWord) (f : Nat → Nat) : State :=
  s.runAlu op w fun x => .val w.ty.regs (f (x.a w w.ty))

def execPopc (w : CWord) (s : State) : Host.Outcome State Fault Refusal :=
  .next (s.runUnary 0x09A w (countOnes w.ty.bits))

def execClz (w : CWord) (s : State) : Host.Outcome State Fault Refusal :=
  .next (s.runUnary 0x09B w (leadingZeros w.ty.bits))

def execCtz (w : CWord) (s : State) : Host.Outcome State Fault Refusal :=
  .next (s.runUnary 0x09C w (trailingZeros w.ty.bits))

def execBrev (w : CWord) (s : State) : Host.Outcome State Fault Refusal :=
  .next (s.runUnary 0x09D w (reverseBits w.ty.bits))

/-- Byte i of a value. -/
def byteOf (x i : Nat) : Nat := x >>> (8 * i) % 256

/-- One result byte of PRMT (R130): `y` is the operand string as a value, `a` source a. -/
def permByte (mode a y k j : Nat) : Nat :=
  match mode with
  | 0 => byteOf y (k >>> (4 * j) % 16)
  | 1 => byteOf a (j ^^^ (2 ^ (k % 4) - 1))
  | 2 => byteOf y (2 * j)
  | 3 => if j % 2 = 0 then byteOf a (j / 2)
         else if k % 2 = 1 ∧ 128 ≤ byteOf a ((j - 1) / 2) then 255 else 0
  | _ => byteOf y (k % 16)

def execPrmt (w : CWord) (s : State) : Host.Outcome State Fault Refusal :=
  .next (s.runAlu 0x09E w fun x =>
    let n := w.ty.bits / 8
    let mode := w.modF 0 3
    let k := if w.bsel = 1#2 then x.cword w else w.imm.toNat
    let a := x.a w w.ty
    let y := if w.bsel = 2#2 then a else a + 2 ^ w.ty.bits * x.reg w.uni w.ty w.b.toNat
    if mode = 1 ∧ k % 4 = 3 ∧ w.ty.bits = 32 then .trap .reservedField
    else .val w.ty.regs ((List.range n).foldl (fun acc j => acc + permByte mode a y k j * 2 ^ (8 * j)) 0))

/-! ## Moves, addresses, predicates -/

def execSel (w : CWord) (s : State) : Host.Outcome State Fault Refusal :=
  .next (s.runAlu 0x09F w fun x =>
    let p := x.th.pred (w.modF 0 3) != (w.modF 3 1 == 1)
    .val w.ty.regs (if p then x.a w w.ty else x.bb w w.ty))

/-- MOV and its broadcast form (R122, R132). -/
def execMov (w : CWord) (s : State) : Host.Outcome State Fault Refusal :=
  .next (s.runAlu 0x0A0 w fun x =>
    .val w.ty.regs (if w.uni then
        low w.ty (x.b.ureg w.a.toNat + if w.ty = .b128 then 2 ^ 64 * x.b.ureg (w.a.toNat + 1) else 0)
      else x.th.reg w.a.toNat w.ty.regs))

def execMovi (w : CWord) (s : State) : Host.Outcome State Fault Refusal :=
  .next (s.runAlu 0x0A1 w fun _ => .val w.ty.regs (low w.ty (immVal w.ty w.imm)))

def execLea (w : CWord) (s : State) : Host.Outcome State Fault Refusal :=
  .next (s.runAlu 0x0A2 w fun x =>
    let b := BitVec.ofNat 32 (x.reg w.uni .b32 w.b.toNat)
    let i : Int := if w.modF 3 1 = 1 then b.toInt else b.toNat
    let c : Int := if w.bsel = 1#2 then x.reg w.uni w.ty w.c else w.imm.toInt
    let e : Int := if w.modF 4 1 = 1 then x.b.ureg w.e else 0
    .val w.ty.regs (wrap w.ty.bits (x.a w w.ty + i * 2 ^ (w.modF 0 3) + c + e)))

def execPlop (w : CWord) (s : State) : Host.Outcome State Fault Refusal :=
  .next (s.runAlu 0x0A3 w fun x =>
    let bit (n : Nat) : Nat := if x.th.pred n then 1 else 0
    .pred (w.imm.getLsbD (4 * bit w.a.toNat + 2 * bit w.b.toNat + bit (bits w.imm 8 3))))

end Sys2Proof.Machine
end

