-- ==== Sys2Proof/Machine/FloatOps.lean ====
section
/-! DEFINITION. The floating-point and special-function instructions (R135 to R145). -/

namespace Sys2Proof.Machine

/-- A float source read by a code, with the flushing of the word and of %fmode (R22, R136). -/
def Opnd.fp (x : Opnd) (w : CWord) (f : Fmt) (code : Nat) : Fp := readFloat f (ftzOf x.b w f) code

/-- A rounded float result with its draw (R25, R136), in the mode of R19. -/
def Opnd.finish (x : Opnd) (w : CWord) (k : Nat) (f : Fmt) (v : Mode → Fp) : Alu :=
  let mode := modeOf x.b w
  let (seed, sr) := draw mode x.th.seed
  .val k (finishFloat f mode sr (ftzOf x.b w f) w.sat (v mode)) (if mode = .sr then some seed else none)

/-- An instruction of two float sources, rounded once. -/
def State.runFloat (s : State) (op : Nat) (w : CWord) (g : Mode → Fp → Fp → Fp) : State :=
  s.runAlu op w fun x =>
    let f := fmt w.ty
    x.finish w w.ty.regs f fun m => g m (x.fp w f (x.a w w.ty)) (x.fp w f (x.bb w w.ty))

def execFadd (w : CWord) (s : State) : Host.Outcome State Fault Refusal :=
  .next (s.runFloat 0x100 w fun m a b => a.add b (m == .rd))

def execFsub (w : CWord) (s : State) : Host.Outcome State Fault Refusal :=
  .next (s.runFloat 0x101 w fun m a b => a.add b.neg (m == .rd))

def execFmul (w : CWord) (s : State) : Host.Outcome State Fault Refusal :=
  .next (s.runFloat 0x102 w fun _ a b => a.mul b)

def execFfma (w : CWord) (s : State) : Host.Outcome State Fault Refusal :=
  .next (s.runAlu 0x103 w fun x =>
    let f := fmt w.ty
    let v (y : Nat) : Fp := x.fp w f y
    x.finish w w.ty.regs f fun m => ((v (x.a w w.ty)).mul (v (x.bb w w.ty))).add (v (x.c w w.ty)) (m == .rd))

/-- FMIN and FMAX choose a code of two (R137): `neg0` order puts −0 below +0. -/
def pickMinMax (f : Fmt) (isMax : Bool) (a b : Nat) : Nat :=
  let x := f.decode (a % 2 ^ f.width)
  let y := f.decode (b % 2 ^ f.width)
  if x.isNan ∧ y.isNan then f.nanCode
  else if x.isNan then b
  else if y.isNan then a
  else match x.cmp y with
    | .lt => if isMax then b else a
    | .gt => if isMax then a else b
    | .eq => if x.sign = isMax then b else a

/-- A code with the flushing of R22. -/
def flushCode (f : Fmt) (ftz : Bool) (code : Nat) : Nat :=
  if f.flushable then flushResult f ftz (code % 2 ^ f.width) else code % 2 ^ f.width

/-- FMIN and FMAX of a word; SAT is R24's. -/
def Opnd.minMax (x : Opnd) (w : CWord) (isMax : Bool) : Alu :=
  let f := fmt w.ty
  let z := ftzOf x.b w f
  .val w.ty.regs (satCode f w.sat (pickMinMax f isMax (flushCode f z (x.a w w.ty)) (flushCode f z (x.bb w w.ty))))

def execFmin (w : CWord) (s : State) : Host.Outcome State Fault Refusal :=
  .next (s.runAlu 0x104 w fun x => x.minMax w false)

def execFmax (w : CWord) (s : State) : Host.Outcome State Fault Refusal :=
  .next (s.runAlu 0x105 w fun x => x.minMax w true)

/-- The condition of FCMP and FSET on the flushed sources (R138). -/
def Opnd.fcond (x : Opnd) (w : CWord) : Bool :=
  let f := fmt w.ty
  condFloat (w.modF 0 3) (w.modF 3 1 == 1) (x.fp w f (x.a w w.ty)) (x.fp w f (x.bb w w.ty))

def execFcmp (w : CWord) (s : State) : Host.Outcome State Fault Refusal :=
  .next (s.runAlu 0x106 w fun x => .pred (x.fcond w))

def execFset (w : CWord) (s : State) : Host.Outcome State Fault Refusal :=
  .next (s.runAlu 0x107 w fun x =>
    .val w.ty.regs (if !x.fcond w then 0 else if w.modF 4 1 = 1 then (fmt w.ty).one else 2 ^ w.ty.bits - 1))

def execFclass (w : CWord) (s : State) : Host.Outcome State Fault Refusal :=
  .next (s.runAlu 0x108 w fun x =>
    let f := fmt w.ty
    .pred ((x.word w).testBit (classBit f (ftzOf x.b w f) (x.a w w.ty))))

/-- The integral value of a code in its format (R140). -/
def roundIntegral (f : Fmt) (mode : Mode) (sr : Nat) (v : Fp) : Nat :=
  match v with
  | .nan => f.nanCode
  | .inf s => f.signed s f.infCode
  | .fin s n d e =>
    if n = 0 then f.signed s 0
    else
      let y := roundInt mode sr s n d e
      if y = 0 then f.signed s 0 else roundTo f .rz 0 s y.natAbs 1 0

def execFrnd (w : CWord) (s : State) : Host.Outcome State Fault Refusal :=
  .next (s.runAlu 0x109 w fun x =>
    let f := fmt w.ty
    let mode := modeOf x.b w
    let (seed, sr) := draw mode x.th.seed
    .val w.ty.regs (satCode f w.sat (roundIntegral f mode sr (x.fp w f (x.un w w.ty))))
      (if mode = .sr then some seed else none))

def execFscale (w : CWord) (s : State) : Host.Outcome State Fault Refusal :=
  .next (s.runAlu 0x10A w fun x =>
    let f := fmt w.ty
    let n := (BitVec.ofNat 32 (x.word w)).toInt
    x.finish w w.ty.regs f fun _ => (x.fp w f (x.a w w.ty)).scale n)

def execFdiv (w : CWord) (s : State) : Host.Outcome State Fault Refusal :=
  .next (s.runFloat 0x10B w fun _ a b => a.div b)

/-! ## Conversions -/

/-- The source type of a conversion (R85). -/
def convTy (w : CWord) : Ty := (Ty.ofCode w.mod).getD .f32

/-- The source of a conversion as a code of its type. -/
def Opnd.conv (x : Opnd) (w : CWord) : Nat := x.a w (convTy w)

def execFcvt (w : CWord) (s : State) : Host.Outcome State Fault Refusal :=
  .next (s.runAlu 0x10C w fun x =>
    let src := fmt (convTy w)
    let dst := fmt w.ty
    let v := x.fp w src (x.conv w)
    if exactCvt src dst then
      .val w.ty.regs (finishFloat dst .rn 0 (ftzOf x.b w dst) w.sat v)
    else x.finish w w.ty.regs dst fun _ => v)

def execF2i (w : CWord) (s : State) : Host.Outcome State Fault Refusal :=
  .next (s.runAlu 0x10D w fun x =>
    let src := fmt (convTy w)
    let mode := modeOf x.b w
    let (seed, sr) := draw mode x.th.seed
    .val w.ty.regs (placeInt w.ty (cvtToInt w.ty mode sr (x.fp w src (x.conv w)))) (if mode = .sr then some seed else none))

def execI2f (w : CWord) (s : State) : Host.Outcome State Fault Refusal :=
  .next (s.runAlu 0x10E w fun x =>
    x.finish w w.ty.regs (fmt w.ty) fun _ => Fp.ofInt (valOf (convTy w) (x.conv w)))

/-! ## Packed pairs and the dot product -/

/-- The two elements of a packed value (R14). -/
def half (x i : Nat) : Nat := x >>> (16 * i) % 65536

/-- Two elements rounded one after the other, element 0 first (R143). -/
def Opnd.pair2 (x : Opnd) (w : CWord) (g : Mode → (Nat → Fp) → Nat → Fp) : Alu :=
  let f := fmt w.ty
  let mode := modeOf x.b w
  let z := ftzOf x.b w f
  let (s1, r1) := draw mode x.th.seed
  let (s2, r2) := draw mode s1
  let e (i r : Nat) : Nat := finishFloat f mode r z w.sat (g mode (fun c => x.fp w f c) i)
  .val 1 (e 0 r1 + 65536 * e 1 r2) (if mode = .sr then some s2 else none)

def execHadd2 (w : CWord) (s : State) : Host.Outcome State Fault Refusal :=
  .next (s.runAlu 0x10F w fun x =>
    x.pair2 w fun m v i => (v (half (x.a w w.ty) i)).add (v (half (x.bb w w.ty) i)) (m == .rd))

def execHfma2 (w : CWord) (s : State) : Host.Outcome State Fault Refusal :=
  .next (s.runAlu 0x110 w fun x =>
    x.pair2 w fun m v i =>
      ((v (half (x.a w w.ty) i)).mul (v (half (x.bb w w.ty) i))).add (v (half (x.c w w.ty) i)) (m == .rd))

def execDot4 (w : CWord) (s : State) : Host.Outcome State Fault Refusal :=
  .next (s.runAlu 0x111 w fun x =>
    let a := x.reg false .b32 w.a.toNat
    let b := x.reg false .b32 w.b.toNat
    let c := x.c w .b32
    if w.ty.signed ∨ w.ty = .n8 then
      let sum := (List.range 4).foldl (fun (t : Int) i => t + valOf w.ty (byteOf a i) * valOf w.ty (byteOf b i)) (c : Int)
      .val 1 (wrap 32 sum)
    else
      let f := fmt w.ty
      x.finish w 1 .f32 fun m =>
        sumFp (m == .rd) (x.fp w .f32 c ::
          (List.range 4).map fun i => (f.decode (byteOf a i)).mul (f.decode (byteOf b i))))

/-! ## Special functions -/

/-- A special function: rounded once in RN, flushed on both sides (R145). -/
def State.runFn (s : State) (op : Nat) (w : CWord) (g : Fn) : State :=
  s.runAlu op w fun x =>
    let f := fmt w.ty
    let z := ftzOf x.b w f
    .val 1 (satCode f w.sat (flushResult f z (specialFn f g (x.fp w f (x.a w w.ty)))))

def execRcp (w : CWord) (s : State) : Host.Outcome State Fault Refusal := .next (s.runFn 0x180 w .rcp)
def execRsq (w : CWord) (s : State) : Host.Outcome State Fault Refusal := .next (s.runFn 0x181 w .rsq)
def execSqrt (w : CWord) (s : State) : Host.Outcome State Fault Refusal := .next (s.runFn 0x182 w .sqrt)
def execExp2 (w : CWord) (s : State) : Host.Outcome State Fault Refusal := .next (s.runFn 0x183 w .exp2)
def execLog2 (w : CWord) (s : State) : Host.Outcome State Fault Refusal := .next (s.runFn 0x184 w .log2)
def execSin (w : CWord) (s : State) : Host.Outcome State Fault Refusal := .next (s.runFn 0x185 w .sin)
def execCos (w : CWord) (s : State) : Host.Outcome State Fault Refusal := .next (s.runFn 0x186 w .cos)
def execTanh (w : CWord) (s : State) : Host.Outcome State Fault Refusal := .next (s.runFn 0x187 w .tanh)

end Sys2Proof.Machine
end

