-- ==== Sys2Proof/Machine/Cross.lean ====
section
/-! DEFINITION. The cross-thread instructions (R146 to R150). -/

namespace Sys2Proof.Machine

/-- The segment size S (R146). -/
def Ctx.segSize (c : Ctx) : Nat := max 1 c.b.widthReg

/-- The participants of a rank's segment, by ascending rank (R146). -/
def Ctx.segment (c : Ctx) (rank : Nat) : List (Nat × Nat) :=
  sortBy (fun x y => decide (x.1 ≤ y.1)) (c.act.filter fun x => x.1 / c.segSize == rank / c.segSize)

/-- The participant at a rank. -/
def Ctx.atRank (c : Ctx) (rank : Nat) : Option Nat := (c.act.find? (·.1 == rank)).map (·.2)

/-- Source a of a participant, as bits of the type. -/
def Ctx.srcA (c : Ctx) (tid : Nat) : Nat := low c.w.ty ((c.b.th tid).reg c.w.a.toNat c.w.ty.regs)

/-- Each participant that is not masked off writes what a function of its rank and %tid gives. -/
def State.runCross (s : State) (op : Nat) (w : CWord) (f : Ctx → Nat → Nat → Alu) : State :=
  s.runEach op w fun c rank tid => (f c rank tid).fate w.d.toNat

/-- The rank within its sub-segment from which SHFL takes the value; none beyond it (R147). -/
def shflRank (mode g rank d : Nat) : Option Nat :=
  let q := rank % g
  let j := match mode with
    | 0 => d
    | 1 => (q + d) % g
    | 2 => (g - 1 - q + d) % g
    | _ => q ^^^ d
  if j < g then some (rank - q + j) else none

def execShfl (w : CWord) (s : State) : Host.Outcome State Fault Refusal :=
  .next (s.runCross 0x188 w fun c rank tid =>
    let lg := w.modF 2 3
    let g := if lg = 0 then c.segSize else min c.segSize (2 ^ lg)
    let th := c.b.th tid
    let d := if w.bsel = 2#2 then w.imm.toNat else th.reg w.b.toNat 1
    .val w.ty.regs (match (shflRank (w.modF 0 2) g rank d).bind c.atRank with
      | some u => c.srcA u
      | none => if w.bsel = 1#2 then low w.ty (th.reg w.c w.ty.regs) else c.srcA tid))

/-- Bits set at the positions of some ranks, as a mask of k registers (R148, R149). -/
def Ctx.maskOf (c : Ctx) (k : Nat) (ranks : List Nat) : Nat :=
  ((ranks.map (· % c.segSize)).filter (· < 32 * k)).foldl (fun a q => a ||| 2 ^ q) 0

def execVote (w : CWord) (s : State) : Host.Outcome State Fault Refusal :=
  .next (s.runCross 0x189 w fun c rank _ =>
    let ps := c.segment rank
    let holds (x : Nat × Nat) : Bool := (c.b.th x.2).pred w.a.toNat
    let yes := ps.filter holds
    match w.modF 0 3 with
    | 0 => .pred (yes.length == ps.length)
    | 1 => .pred (!yes.isEmpty)
    | 2 => .pred (yes.isEmpty || yes.length == ps.length)
    | 3 => .pred (decide (ps.length < 2 * yes.length))
    | 4 => .val 1 yes.length
    | 5 => .val 1 (yes.filter fun x => decide (x.1 < rank)).length
    | _ => .val (2 ^ w.modF 3 2) (c.maskOf (2 ^ w.modF 3 2) (yes.map (·.1))))

def execMatchx (w : CWord) (s : State) : Host.Outcome State Fault Refusal :=
  .next (s.runCross 0x18A w fun c rank tid =>
    let ps := c.segment rank
    let same := ps.filter fun x => c.srcA x.2 == c.srcA tid
    match w.modF 0 2 with
    | 0 =>
      let k := 2 ^ w.modF 3 2
      .val k (if w.modF 2 1 = 1 ∧ same.length ≠ ps.length then 0 else c.maskOf k (same.map (·.1)))
    | 1 => .val 1 (((same.map (·.1 % c.segSize)).head?).getD 0)
    | _ => .val 1 same.length)

/-! ## Reductions and scans (R33, R150) -/

/-- How two values of a type are combined. -/
structure Combine where
  ty   : Ty
  op   : Nat
  mode : Mode
  ftz  : Bool

/-- A participant's value as it is read: flushed when it is a float (R150). -/
def Combine.read (k : Combine) (x : Nat) : Nat := if k.ty.isFloat then flushCode (fmt k.ty) k.ftz x else x

/-- One operation of RED and SCAN on two values. -/
def Combine.two (k : Combine) (a b : Nat) : Nat :=
  let f := fmt k.ty
  match k.op with
  | 0 =>
    if k.ty.isFloat then finishFloat f k.mode 0 k.ftz false ((f.decode a).add (f.decode b) (k.mode == .rd))
    else (a + b) % 2 ^ k.ty.bits
  | 1 => if k.ty.isFloat then pickMinMax f false a b else if valOf k.ty a ≤ valOf k.ty b then a else b
  | 2 => if k.ty.isFloat then pickMinMax f true a b else if valOf k.ty a ≤ valOf k.ty b then b else a
  | 3 => a &&& b
  | 4 => a ||| b
  | _ => a ^^^ b

/-- A NaN that stands alone is made canonical (R12). -/
def Combine.one (k : Combine) (a : Nat) : Nat :=
  if k.ty.isFloat ∧ ((fmt k.ty).decode a).isNan then (fmt k.ty).nanCode else a

/-- PairSum (R33): the half point is the greatest power of two below n. -/
def Combine.pairSum (k : Combine) : Nat → List Nat → Nat
  | 0, _ => 0
  | _ + 1, [] => 0
  | _ + 1, [x] => k.one x
  | fuel + 1, xs =>
    let h := 2 ^ ((xs.length - 1).log2)
    k.two (k.pairSum fuel (xs.take h)) (k.pairSum fuel (xs.drop h))

/-- A reduction of the values in ascending rank. -/
def Combine.reduce (k : Combine) (xs : List Nat) : Nat :=
  if k.ty.isFloat ∧ k.op = 0 then k.pairSum (xs.length + 1) xs
  else match xs with
    | [] => 0
    | x :: rest => rest.foldl k.two (k.one x)

/-- Left to right (R33). -/
def Combine.scan (k : Combine) (xs : List Nat) : Nat :=
  match xs with
  | [] => 0
  | x :: rest => rest.foldl k.two (k.one x)

/-- The identity of an exclusive scan (R150). -/
def Combine.ident (k : Combine) : Nat :=
  let f := fmt k.ty
  match k.op with
  | 1 => if k.ty.isFloat then f.infCode else wrap k.ty.bits (typeMax k.ty)
  | 2 => if k.ty.isFloat then f.signed true f.infCode else wrap k.ty.bits (typeMin k.ty)
  | 3 => 2 ^ k.ty.bits - 1
  | _ => 0

/-- The combination that a word names; SR becomes RN (R19). -/
def combineOf (b : Block) (w : CWord) : Combine :=
  let m := modeOf b w
  { ty := w.ty, op := w.modF 0 3, mode := if m = .sr then .rn else m, ftz := ftzOf b w (fmt w.ty) }

def execRed (w : CWord) (s : State) : Host.Outcome State Fault Refusal :=
  .next (s.runCross 0x18B w fun c rank _ =>
    let k := combineOf c.b w
    .val w.ty.regs (k.reduce ((c.segment rank).map fun x => k.read (c.srcA x.2))))

def execScan (w : CWord) (s : State) : Host.Outcome State Fault Refusal :=
  .next (s.runCross 0x18C w fun c rank _ =>
    let k := combineOf c.b w
    let excl := w.modF 3 1 == 1
    let upTo := (c.segment rank).filter fun x => if excl then decide (x.1 < rank) else decide (x.1 ≤ rank)
    .val w.ty.regs (if upTo.isEmpty then k.ident else k.scan (upTo.map fun x => k.read (c.srcA x.2))))

end Sys2Proof.Machine
end

