-- ==== Sys2Proof/Machine/Ensemble.lean ====
section
/-! DEFINITION. The exact sums (R151 to R154) and the ensemble instructions (R155 to R157). -/

namespace Sys2Proof.Machine

/-! ## Exact sums -/

def Block.modX (b : Block) (k : Nat) (f : XAcc → XAcc) : Block := { b with xs := b.xs.modify k f }

def Block.xacc (b : Block) (k : Nat) : XAcc := b.xs.getD k {}

/-- XCLR: once for the plait (R152). -/
def execXclr (w : CWord) (s : State) : Host.Outcome State Fault Refusal :=
  .next (s.runIssue 0x190 w fun c s => (s.modBlock c.iss.blk (·.modX w.d.toNat fun _ => {}), []))

/-- The contributions of the threads, one after another (R29, R152). They are made as they issue, so that a later XRND or
XMOV sees all of them (R30, log 61). -/
def State.accumulate (s : State) (c : Ctx) (v : Opnd → Fp) : State :=
  s.modBlock c.iss.blk fun b =>
    c.on.foldl (fun b x => b.modX c.w.d.toNat fun a => a.add (v { b := c.b, th := c.b.th x.2 })) b

def execXadd (w : CWord) (s : State) : Host.Outcome State Fault Refusal :=
  .next (s.runIssue 0x191 w fun c s => (s.accumulate c fun x => (fmt w.ty).decode (x.a w w.ty), []))

def execXfma (w : CWord) (s : State) : Host.Outcome State Fault Refusal :=
  .next (s.runIssue 0x192 w fun c s =>
    (s.accumulate c fun x => ((fmt w.ty).decode (x.a w w.ty)).mul ((fmt w.ty).decode (x.bb w w.ty)), []))

def execXrnd (w : CWord) (s : State) : Host.Outcome State Fault Refusal :=
  .next (s.runAlu 0x193 w fun x =>
    let mode := modeOf x.b w
    let (seed, sr) := draw mode x.th.seed
    .val w.ty.regs (satCode (fmt w.ty) w.sat ((x.b.xacc w.a.toNat).round (fmt w.ty) mode sr))
      (if mode = .sr then some seed else none))

/-- A chunk of an accumulator; chunk 10 is the status byte (R154). -/
def XAcc.chunk (x : XAcc) (j : Nat) : Nat := if j < 10 then bits x.n (64 * j) 64 else x.st.toNat

/-- An accumulator with one chunk replaced. -/
def XAcc.setChunk (x : XAcc) (j v : Nat) : XAcc :=
  if j < 10 then { x with n := BitVec.ofNat 640 (x.n.toNat - bits x.n (64 * j) 64 * 2 ^ (64 * j) + v % 2 ^ 64 * 2 ^ (64 * j)) }
  else { x with st := BitVec.ofNat 4 v }

def execXmov (w : CWord) (s : State) : Host.Outcome State Fault Refusal :=
  .next (s.runAlu 0x194 w fun x =>
    let j := if w.bsel = 2#2 then w.imm.toNat else x.th.reg w.b.toNat 1
    if 10 < j then .trap .reservedField else .val 2 ((x.b.xacc w.a.toNat).chunk j))

/-- The write form, once for the plait, of the highest %tid's value (R154). It writes at once, so that a read
in its clause sees the new value (R47, log 61). -/
def execXmovWrite (w : CWord) (s : State) : Host.Outcome State Fault Refusal :=
  .next (s.runIssue 0x194 w fun c s =>
    match maxBy (fun t : Nat => t) (c.on.map (·.2)) with
    | none => (s, [])
    | some t =>
      let v := (c.b.th t).reg w.b.toNat 2
      if w.imm = 10#32 ∧ 16 ≤ v then (s, c.on.map fun x => (x.2, Fate.trap { cause := .reservedField }))
      else (s.modBlock c.iss.blk (·.modX w.d.toNat fun a => a.setChunk w.imm.toNat v), []))

/-! ## Ensembles -/

/-- The direction at a node (R156). -/
def goRight (f : Fmt) (x t : Nat) (miss : Bool) : Bool :=
  let a := f.decode (x % 2 ^ f.width)
  let b := f.decode (t % 2 ^ f.width)
  if a.isNan then miss else b.isNan || a.cmp b != .lt

/-- The fields of a node (R155). -/
def nodeVal (n : Nat) : Nat := n % 2 ^ 32
def nodeMiss (n : Nat) : Bool := n.testBit 48
def nodeLeaf (n : Nat) : Bool := n.testBit 49
def nodeLeft (n : Nat) : Nat := n >>> 50 % 2 ^ 14

/-- Source c of a 32-bit operand: register C, or IMM (R157). -/
def Opnd.c32 (x : Opnd) (w : CWord) : Nat := if w.bsel = 1#2 then x.th.reg w.c 1 else w.imm.toNat

/-- BINQ counts the thresholds of a tile that x passes to the right (R157). -/
def binqCount (w : CWord) (x : Opnd) : Alu :=
  let f := fmt w.ty
  let c := x.c32 w
  let start := c % 4096
  let count := c / 4096 % 256
  let per := w.ty.bits / 8
  let v := x.a w w.ty
  if 4096 < (start + count) * per then .trap .regIndex
  else if (f.decode v).isNan then .val 1 0xFFFFFFFF
  else .val 1 ((List.range count).filter fun i =>
    goRight f v (x.b.tiles.val (4096 * w.b.toNat + (start + i) * per) per) false).length

/-- BINQ reads its tile after every earlier issue of the engine (R195, R209). -/
def execBinq (w : CWord) (s : State) : Host.Outcome State Fault Refusal :=
  .next (s.runIssue 0x198 w fun c s =>
    if c.b.engineBusy c.iss then (s, c.holdAll) else State.aluAct 0x198 w (binqCount w) c s)

def execTcmp (w : CWord) (s : State) : Host.Outcome State Fault Refusal :=
  .next (s.runAlu 0x19A w fun x =>
    let node := x.th.reg w.b.toNat 2
    let r := goRight (fmt w.ty) (x.a w w.ty) (nodeVal node) (nodeMiss node)
    .val 1 ((2 * x.c32 w + if r then 1 else 0) % 2 ^ 32))

def execCross (w : CWord) (s : State) : Host.Outcome State Fault Refusal :=
  .next (s.runAlu 0x199 w fun x =>
    let node := x.th.reg w.b.toNat 2
    let a := x.th.reg w.a.toNat 1
    let r := goRight (fmt w.ty) (low w.ty (x.c32 w)) (nodeVal node) (nodeMiss node)
    .val 1 (if nodeLeaf node then a else (a + nodeLeft node + if r then 1 else 0) % 2 ^ 32))

def execLeaf (w : CWord) (s : State) : Host.Outcome State Fault Refusal :=
  .next (s.runAlu 0x19B w fun x =>
    let f := fmt w.ty
    let node := x.th.reg w.a.toNat 2
    let b := x.th.reg w.b.toNat 1
    if !nodeLeaf node then .val 1 b
    else x.finish w 1 f fun m =>
      (x.fp w f (low w.ty b)).add ((x.fp w f (low w.ty (nodeVal node))).mul (x.fp w f (low w.ty (x.c32 w)))) (m == .rd))

end Sys2Proof.Machine
end

