-- ==== Sys2Proof/Machine/Memory.lean ====
section
/-! DEFINITION. Group 100: loads and stores, atomics and bank operations, fences, waiting on memory
(R159 to R177). -/

namespace Sys2Proof.Machine

/-! ## Loads and stores (R166 to R169) -/

/-- The operands of one thread of an issue. -/
def Ctx.opnd (c : Ctx) (tid : Nat) : Opnd := { b := c.rb, th := c.b.th tid }

/-- Bytes of a type's value in memory. -/
def sizeOf (t : Ty) : Nat := t.bits / 8

/-- The scope of an ordered immediate (R160). -/
def immScope (w : CWord) : Nat := bits w.imm 29 3

/-- ORD of the LD family gives a release part: a store that is not .rlx (R159). -/
def storeRel (w : CWord) : Bool := w.modF 0 2 != 0

/-- The value a store writes (R167). -/
def Ctx.stored (c : Ctx) (tid : Nat) : List Byte := storeBytes c.w.ty ((c.b.th tid).reg c.w.b.toNat c.w.ty.regs)

def execLd (w : CWord) (s : State) : Host.Outcome State Fault Refusal :=
  .next (s.runMem 0x200 w false 0 fun c s x =>
    let n := sizeOf w.ty
    match s.reach c.b x.2 (effAddr (c.opnd x.2) w true false) n n .read with
    | (s, .no f) => (s, f)
    | (s, .pa pa) => (s, .done (loadWr w.ty w.d.toNat (s.valPa pa n)) n))

def execSt (w : CWord) (s : State) : Host.Outcome State Fault Refusal :=
  .next (s.runMem 0x201 w (storeRel w) (immScope w) fun c s x =>
    let n := sizeOf w.ty
    let va := effAddr (c.opnd x.2) w true true
    match s.reach c.b x.2 va n n .write with
    | (s, .no f) => (s, f)
    | (s, .pa pa) => (s.storeAt c.b x.2 va pa (c.stored x.2), .done [] n))

/-- The offset of a scratchpad access. -/
def Ctx.off (c : Ctx) (tid : Nat) (isStore : Bool) : Nat := (effAddr (c.opnd tid) c.w false isStore).toNat

def execLds (w : CWord) (s : State) : Host.Outcome State Fault Refusal :=
  .next (s.runMem 0x202 w false 0 fun c s x =>
    let n := sizeOf w.ty
    let off := c.off x.2 false
    match scratchFault c.b off n n false with
    | some t => (s, .trap t)
    | none =>
      match s.scratchConsume c.b c.iss.blk off n (BitVec.ofNat 64 off) with
      | (s, some t) => (s, .trap t)
      | (s, none) => (s, .done (loadWr w.ty w.d.toNat (c.b.scratch.val off n))))

def execSts (w : CWord) (s : State) : Host.Outcome State Fault Refusal :=
  .next (s.runMem 0x203 w false 0 fun c s x =>
    let n := sizeOf w.ty
    let off := c.off x.2 true
    match scratchFault c.b off n n true with
    | some t => (s, .trap t)
    | none => (s.scratchWrite c.iss.blk off (c.stored x.2), .done))

def execLdc (w : CWord) (s : State) : Host.Outcome State Fault Refusal :=
  .next (s.runMem 0x204 w false 0 fun c s x =>
    let n := sizeOf w.ty
    let addr := effAddr (c.opnd x.2) w false false
    match s.member c.b addr n false with
    | .error t => (s, .trap t)
    | .ok (m, off) =>
      match s.scratchConsume c.b m.id off n addr with
      | (s, some t) => (s, .trap t)
      | (s, none) => (s, .done (loadWr w.ty w.d.toNat (m.scratch.val off n)) n))

def execStc (w : CWord) (s : State) : Host.Outcome State Fault Refusal :=
  .next (s.runMem 0x205 w false 0 fun c s x =>
    let n := sizeOf w.ty
    match s.member c.b (effAddr (c.opnd x.2) w false true) n true with
    | .error t => (s, .trap t)
    | .ok (m, off) => (s.scratchWrite m.id off (c.stored x.2), .done [] n))

/-- LDK (R169): through the core's constant cache. -/
def execLdk (w : CWord) (s : State) : Host.Outcome State Fault Refusal :=
  .next (s.runMem 0x206 w false 0 fun c s x =>
    let n := sizeOf w.ty
    let va := constAddr (c.opnd x.2) w
    match s.readHome c.b x.2 va n n with
    | (s, .no f) => (s, f)
    | (s, .pa pa) =>
      let (s, bs) := s.staleRead true c.b.place.core c.b.task va.toNat pa n
      (s, .done (loadWr w.ty w.d.toNat (ofBytesLE bs)) n))

/-! ## Atomics and bank operations (R170 to R172) -/

/-- One element of a float update, RN with no flushing (R171, R172). -/
def bankFloat (f : Fmt) (x : Fp) : Nat := finishFloat f .rn 0 false false x

/-- An update of one element of a type: integers wrap, floats are rounded once. -/
def elemUpdate (t : Ty) (int : Int → Int → Int) (flt : Fmt → Nat → Nat → Nat) (m b : Nat) : Nat :=
  match t with
  | .f32 | .f64 => flt (fmt t) m b
  | .f16x2 | .bf16x2 => flt (fmt t) (half m 0) (half b 0) + 65536 * flt (fmt t) (half m 1) (half b 1)
  | _ => wrap t.bits (int (valOf t m) (valOf t b))

def addElem (t : Ty) : Nat → Nat → Nat :=
  elemUpdate t (· + ·) fun f m b => bankFloat f ((f.decode m).add (f.decode b) false)

def mulElem (t : Ty) : Nat → Nat → Nat :=
  elemUpdate t (· * ·) fun f m b => bankFloat f ((f.decode m).mul (f.decode b))

def minElem (t : Ty) : Nat → Nat → Nat := elemUpdate t min fun f => pickMinMax f false

def maxElem (t : Ty) : Nat → Nat → Nat := elemUpdate t max fun f => pickMinMax f true

/-- m × b0 + b1, rounded once (R172). -/
def axpyElem (t : Ty) (m b0 b1 : Nat) : Nat :=
  let one (x a b : Nat) : Nat :=
    bankFloat (fmt t) ((((fmt t).decode x).mul ((fmt t).decode a)).add ((fmt t).decode b) false)
  match t with
  | .f16x2 | .bf16x2 => one (half m 0) (half b0 0) (half b1 0) + 65536 * one (half m 1) (half b0 1) (half b1 1)
  | _ => one m b0 b1

/-- The new value of an atomic operation (R170). -/
def atomicNew (op : Nat) (t : Ty) (m b e : Nat) : Nat :=
  match op with
  | 0 => addElem t m b
  | 1 => minElem t m b
  | 2 => maxElem t m b
  | 3 => m &&& b
  | 4 => m ||| b
  | 5 => m ^^^ b
  | 6 => b
  | _ => if m = e then b else m

/-- The atomics that host memory performs (R394). -/
def hostAtomic (op : Nat) (t : Ty) : Bool :=
  match op with
  | 0 => t == .i32 || t == .i64 || t == .n32 || t == .n64
  | 6 => t == .b32 || t == .b64
  | 7 => true
  | _ => false

/-- Threads whose accesses name one address, in an order that is free (R171, R172). -/
def State.inArrival (key : Nat × Nat → DWord) : Nat → State → List (Nat × Nat) → State × List (Nat × Nat)
  | 0, s, xs => (s, xs)
  | _ + 1, s, [] => (s, [])
  | k + 1, s, x :: xs =>
    let same := (x :: xs).filter fun y => key y == key x
    let (y, s) := if same.length = 1 then (x, s)
      else
        let (n, s) := s.free Config.arrival
        (same.getD (n % same.length) x, s)
    let (s, rest) := State.inArrival key k s ((x :: xs).filter (· != y))
    (s, y :: rest)

/-- Check 6 of an update at the bank: an ATOM's thread traps; a BRED or BUPD answers no one but with its acknowledgement
(R397), so an uncorrectable error it consumes kills the owning context (R378, R414). -/
def State.consumeBank (s : State) (c : Ctx) (op tid : Nat) (va : DWord) (pa n : Nat) : State × Got :=
  match s.gate c.b tid pa n .atomic with
  | (s, false) => (s, .no .again)
  | (s, true) =>
  if op ≠ 0x207 ∧ s.poisoned pa n then
    ((s.uncorrected c.b.die pa c.b.task c.b.cfg.envelope 1).killContext c.b (causeCode .uncorrectedData) va
      (c.pc - c.b.codeBase).toNat, .no (.done []))
  else s.consume c.b va pa n true (op != 0x207)

/-- An update at the bank: one indivisible action for each thread (R171, R172). `f` answers the new value
and the writes of the thread from the old value; `host` says whether host memory performs it. -/
def State.runBank (s : State) (op : Nat) (w : CWord) (bytes : Nat) (host : Bool)
    (f : Thread → Nat → Nat × List Wr) : State :=
  let ord := w.modF 3 3
  let rel := ord == 2 || ord == 3 || ord == 4
  s.runIssue op w fun c s =>
    if s.mustDrain c rel (immScope w) then (s, c.again)
    else
      let n := sizeOf w.ty
      let addr (x : Nat × Nat) : DWord := pairAddr (c.opnd x.2) w (ord != 0)
      let (s, xs) := State.inArrival addr c.on.length s c.on
      s.fitAcks c (s.eachOf xs fun s x =>
        match s.locate c.b x.2 (addr x) n n .atomic with
        | (s, .no fate) => (s, fate)
        | (s, .pa pa) =>
          if s.homeOf pa = some .host && !host then
            (s, .trap { cause := .accessViolation, addr := addr x, write := true, size := n, extra := 2#64 })
          else
            match s.consumeBank c op x.2 (addr x) pa n with
            | (s, .no fate) =>
              -- the host may have performed an atomic that it does not answer, or answers with an error (R394)
              let (made, s) := if s.homeOf pa = some .host && fate != .again then s.free Config.arrived else (false, s)
              (if made then s.writePa pa (toBytesLE n (f (c.b.th x.2) (s.valPa pa n)).1) else s, fate)
            | (s, .pa pa) =>
              let (new, ws) := f (c.b.th x.2) (s.valPa pa n)
              (s.storeAt c.b x.2 (addr x) pa (toBytesLE n new), .done ws bytes))

def execAtom (w : CWord) (s : State) : Host.Outcome State Fault Refusal :=
  let op := w.modF 0 3
  .next (s.runBank 0x207 w ((if op = 7 then 3 else 2) * sizeOf w.ty) (hostAtomic op w.ty) fun th m =>
    (atomicNew op w.ty m (th.reg w.b.toNat w.ty.regs) (th.reg w.e w.ty.regs), wrV w.d.toNat w.ty.regs m))

/-- ATOMS: performed at the block's scratchpad. -/
def execAtoms (w : CWord) (s : State) : Host.Outcome State Fault Refusal :=
  .next (s.runIssue 0x208 w fun c s =>
    let n := sizeOf w.ty
    let off (x : Nat × Nat) : Nat :=
      (BitVec.ofNat 32 ((c.b.th x.2).reg w.a.toNat 1) + (offsetOf (w.modF 3 3 != 0) w.imm).setWidth 32).toNat
    let (s, xs) := State.inArrival (fun x => BitVec.ofNat 64 (off x)) c.on.length s c.on
    s.eachOf xs fun s x =>
      match scratchFault c.b (off x) n n true with
      | some t => (s, .trap t)
      | none =>
        match s.scratchConsume c.b c.iss.blk (off x) n (BitVec.ofNat 64 (off x)) with
        | (s, some t) => (s, .trap t)
        | (s, none) =>
          let th := c.b.th x.2
          let m := ((s.block? c.iss.blk).map fun b => b.scratch.val (off x) n).getD 0
          let new := atomicNew (w.modF 0 3) w.ty m (th.reg w.b.toNat w.ty.regs) (th.reg w.e w.ty.regs)
          (s.scratchWrite c.iss.blk (off x) (toBytesLE n new), .done (wrV w.d.toNat w.ty.regs m)))

def execBred (w : CWord) (s : State) : Host.Outcome State Fault Refusal :=
  .next (s.runBank 0x209 w (sizeOf w.ty) false fun th m =>
    (atomicNew (w.modF 0 3) w.ty m (th.reg w.b.toNat w.ty.regs) 0, []))

/-- The new value of a BUPD (R172). -/
def bupdNew (op : Nat) (t : Ty) (m b0 b1 : Nat) : Nat :=
  match op with
  | 0 => mulElem t m b0
  | 1 => axpyElem t m b0 b1
  | _ => minElem t (maxElem t m b0) b1

def execBupd (w : CWord) (s : State) : Host.Outcome State Fault Refusal :=
  let op := w.modF 0 3
  let t := w.ty
  .next (s.runBank 0x20A w ((if op = 0 then 1 else 2) * sizeOf t) false fun th m =>
    (bupdNew op t m (th.reg w.b.toNat t.regs) (th.reg (w.b.toNat + t.regs) t.regs), []))

/-! ## Fences (R173) -/

def execFence (w : CWord) (s : State) : Host.Outcome State Fault Refusal :=
  .next (s.runIssue 0x20B w fun c s =>
    if s.mustDrain c (w.modF 0 3 != 1) (w.modF 3 3) then (s, c.again) else (s, []))

/-! ## WAITADDR, PARK, UNPARK (R174, R175) -/

/-- The bytes that a WAITADDR or a PARK is charged now: once, as it issues (R164). -/
def Ctx.bytesNow (c : Ctx) (tid : Nat) (old : Option Parked) (n : Nat) : Nat :=
  if old.isSome || (c.b.th tid).prepaid then 0 else n

/-- WAITADDR for one thread; one that has been woken completes either way, one that polls goes on
polling. -/
def State.waitaddrAct (old : Option Parked) (c : Ctx) (s : State) (x : Nat × Nat) : State × Fate :=
  let n := sizeOf c.w.ty
  let va := match old with
    | some q => q.va
    | none => pairAddr (c.opnd x.2) c.w false
  let b := match old with
    | some q => q.val
    | none => BitVec.ofNat 64 ((c.b.th x.2).reg c.w.b.toNat c.w.ty.regs)
  match s.readHome c.b x.2 va n n with
  | (s, .no f) => (s, f)
  | (s, .pa pa) =>
    let hit := (BitVec.ofNat 64 (s.valPa pa n) == b) != (c.w.modF 0 1 == 1)
    let n := c.bytesNow x.2 old n
    if hit || old.any (·.woken) then (s, .done [.p c.w.d.toNat hit] n)
    else s.park c x.2 old { kind := .waitaddr, va, pa, val := b, bytes := n }

def execWaitaddr (w : CWord) (s : State) : Host.Outcome State Fault Refusal :=
  .next (s.runMem 0x20C w false 0 (State.waitaddrAct none))

/-- PARK for one thread; a wake returns without a read. -/
def State.parkAct (old : Option Parked) (c : Ctx) (s : State) (x : Nat × Nat) : State × Fate :=
  let va := match old with
    | some q => q.va
    | none => pairAddr (c.opnd x.2) c.w false
  let b := match old with
    | some q => q.val
    | none => ((c.b.th x.2).v.getD c.w.b.toNat 0#32).setWidth 64
  if old.any (·.woken) then (s, .done [] 0)
  else
    match s.readHome c.b x.2 va 4 4 with
    | (s, .no f) => (s, f)
    | (s, .pa pa) =>
      let n := c.bytesNow x.2 old 4
      if BitVec.ofNat 64 (s.valPa pa 4) != b then (s, .done [] n)
      else s.park c x.2 old { kind := .park, va, pa, val := b, scope := c.w.modF 1 3, bytes := n }

def execPark (w : CWord) (s : State) : Host.Outcome State Fault Refusal :=
  .next (s.runMem 0x20F w false 0 (State.parkAct none))

/-- A scope of one block's thread includes another block's (R249). -/
def scopeHas (scope : Nat) (a b : Block) : Bool :=
  match scope with
  | 0 => a.id == b.id
  | 1 => a.cluster == b.cluster
  | 2 => a.die == b.die
  | _ => true

/-- The threads parked on a key that an UNPARK reaches, the earliest PARK first (R175). -/
def State.parkedOn (s : State) (b : Block) (pa scope : Nat) : List (Nat × Nat × Nat) :=
  sortBy (fun x y => decide (x.1 ≤ y.1)) ((s.blocks.map fun x =>
    if x.cfg.envelope = b.cfg.envelope ∧ x.place.resident ∧ scopeHas scope b x then
      (List.range x.cfg.bsize).filterMap fun t => match (x.th t).wait with
        | some (.parked q) =>
          if q.kind = .park ∧ q.pa = pa ∧ !q.polled ∧ !q.away ∧ !q.woken ∧ scopeHas q.scope x b then some (q.seq, x.id, t) else none
        | _ => none
    else []).flatten)

/-- A parked thread is marked woken. -/
def Thread.wakeNow (th : Thread) : Thread := th.wake fun _ => true

/-- UNPARK: a release, then the wakes at the key's home; its key has a home and needs no alignment (log 21). -/
def execUnpark (w : CWord) (s : State) : Host.Outcome State Fault Refusal :=
  let scope := w.modF 1 3
  .next (s.runMem 0x210 w true scope fun c s x =>
    match s.locate c.b x.2 (pairAddr (c.opnd x.2) w false) 4 1 .read with
    | (s, .no f) => (s, f)
    | (s, .pa pa) =>
      let ws := s.parkedOn c.b pa scope
      let ws := if w.modF 0 1 = 1 then ws else ws.take 1
      (ws.foldl (fun s y => s.modTh y.2.1 y.2.2 Thread.wakeNow) s, .done))

/-! ## Caches and hints (R177) -/

/-- Where an address that nothing may fault on lies, if it can be reached. -/
def State.quietPa (s : State) (b : Block) (va : DWord) : Option Nat :=
  if !canonical va then none
  else match (s.task? b.task).bind (·.locate va false false) with
    | some (.inl pa) => some pa
    | some (.inr _) => none
    | none => (s.engineXlate b.place.core b.cfg.envelope va .read).2

/-- CCTL on one line: the L1's tokens go home, the remote-line cache, the constant cache or the fetch unit
drops it. -/
def State.dropLine (s : State) (b : Block) (op pa : Nat) : State :=
  let line := pa / 128
  match op with
  | 0 => { s with coh := { s.coh with tokens := s.coh.tokens.map fun t =>
      if t.die = b.die ∧ t.line = line then { t with l1 := t.l1.filter (·.core != b.place.core) } else t } }
  | 1 => { s with coh := { s.coh with remote := s.coh.remote.filter fun r => !(r.die == b.die && r.line == line && !r.fill) } }
  | 2 => { s with eng := { s.eng with consts := s.eng.consts.filter fun l => !(l.unit == b.place.core && l.pa == line) } }
  | _ => { s with eng := { s.eng with fetchs := s.eng.fetchs.filter fun l => !(l.unit == b.cluster && l.pa == line) } }

def execCctl (w : CWord) (s : State) : Host.Outcome State Fault Refusal :=
  .next (s.runMem 0x20D w false 0 fun c s x =>
    match s.quietPa c.b (pairAddr (c.opnd x.2) w false) with
    | none => (s, .done)
    | some pa => (s.dropLine c.b w.mod.toNat pa, .done))

/-- PREFETCH moves nothing and charges no traffic; as an instruction it has the weight of R86 (log 84). -/
def execPrefetch (w : CWord) (s : State) : Host.Outcome State Fault Refusal :=
  .next (s.runIssue 0x20E w fun _ s => (s, []))

end Sys2Proof.Machine
end

