-- ==== Sys2Proof/Machine/Saves.lean ====
section
/-! DEFINITION. Room on a core (R234, R237, R242), placement (R218, R235), saves and restores (R321, R351 to
R361, R379). -/

namespace Sys2Proof.Machine

/-! ## Room on a core -/

/-- Blocks placed on a core that have not ended. -/
def State.residents (s : State) (core : Nat) : List Block :=
  s.blocks.filter fun b => b.place.core == core && b.place.resident && !b.ended

/-- H(b) for n threads (R234). -/
def homeCount (n k : Nat) : Nat := (n + 3 - k) / 4

/-- The bank check of one block alone (R234, resource 12). -/
def bankFits (n valloc : Nat) : Bool :=
  (List.range 4).all fun k => decide (homeCount n k * valloc * 4 ≤ Config.bankBytes)

/-- T of R321. -/
def residentLimit (valloc : Nat) : Nat := min Config.maxThreads (Config.bankBytes / valloc / 128 * 128)

/-- The block needs partial residency (R321). -/
def LaunchRec.partial? (r : LaunchRec) : Bool := decide (Config.maxThreads < r.bsize) || !bankFits r.bsize r.vAlloc

/-- Threads resident at once. -/
def LaunchRec.resThreads (r : LaunchRec) : Nat := if r.partial? then residentLimit r.vAlloc else r.bsize

/-- Bank bytes of a block's threads of one home bank. -/
def LaunchRec.bankBytes (r : LaunchRec) (k : Nat) : Nat := homeCount r.resThreads k * r.vAlloc * 4

/-- Bank bytes that a resident block holds: its threads of that home bank, without those in slots. -/
def Block.bankUse (b : Block) (k : Nat) : Nat :=
  b.cfg.bankBytes k - (b.tids (·.inSlot)).countP (· % 4 == k) * b.cfg.vAlloc * 4

def State.bankUse (s : State) (core k : Nat) : Nat := sum ((s.residents core).map (·.bankUse k))

/-- Bank bytes that a placement must leave alone: what is held, and what lenders take back when their borrowers
have left (R237, R238). -/
def State.bankKept (s : State) (core k : Nat) : Nat :=
  max (s.bankUse core k) (sum (((s.residents core).filter (!s.borrows ·)).map (·.cfg.bankBytes k)))

/-- The lowest 32-aligned base of n free accumulator rows on a core. -/
def State.freeRows (s : State) (core n : Nat) : Option Nat :=
  ((List.range 32).map (32 * ·)).find? fun a => decide (a + n ≤ 1024) &&
    (s.residents core).all fun b => n == 0 || b.cfg.rowAlloc == 0 ||
      decide (a + n ≤ b.place.accbase ∨ b.place.accbase + b.cfg.rowAlloc ≤ a)

/-- Extents for bytes beyond the local part, from the cluster's other cores in ascending order: each gives the whole pages of 4 KiB
that it has free, as far as they are needed (R322, log 83). -/
def State.planExtents (s : State) (core : Nat) : List Nat → Nat → List (Nat × Nat)
  | [], _ => []
  | k :: rest, need =>
    let room := Config.coreScratch - s.scratchUse k
    let part := min need (room / 4096 * 4096)
    if need = 0 then []
    else if k = core ∨ part = 0 then s.planExtents core rest need
    else (k, part) :: s.planExtents core rest (need - part)

/-- What a placement takes: row base and extents. -/
structure Plan where
  accbase : Nat
  extents : List (Nat × Nat)
  deriving DecidableEq, Repr

/-- Parking slots that a block's threads fill (R237). -/
def Block.slotsHeld (b : Block) : Nat := (b.tids (·.inSlot)).length * ((b.cfg.vAlloc + 63) / 64)

/-- Slots of a core that hold no registers, beside a block to be placed: rows and tiles allocated to no block (R237). -/
def State.freeSlots (s : State) (core : Nat) (r : LaunchRec) : Nat :=
  let rs := s.residents core
  let all := (1024 - sum (rs.map (·.cfg.rowAlloc)) - r.rowAlloc) + 16 * (16 - sum (rs.map (·.cfg.tiles)) - r.tiles)
  all - sum (rs.map (·.slotsHeld))

/-- The rows and tiles that a block takes hold no parked registers (R237, log 50). -/
def State.slotsFit (s : State) (core : Nat) (r : LaunchRec) : Bool :=
  let rs := s.residents core
  decide (sum (rs.map (·.slotsHeld)) ≤
    (1024 - sum (rs.map (·.cfg.rowAlloc)) - r.rowAlloc) + 16 * (16 - sum (rs.map (·.cfg.tiles)) - r.tiles))

/-- Room for a block on a core but for the bank check (R234). -/
def State.planOn (s : State) (core : Nat) (r : LaunchRec) : Option Plan :=
  let rs := s.residents core
  let die := dieOfCore core
  let spanned := decide (Config.coreScratch < r.scratchAlloc)
  let loc := if spanned then Config.coreScratch else r.scratchAlloc
  let cores := (List.range Config.coresPerCluster).map (clusterOfCore core * Config.coresPerCluster + ·)
  let ext := if spanned then s.planExtents core cores (r.scratchAlloc - loc) else []
  let threads := sum (rs.map (·.cfg.resThreads)) + r.resThreads
  if s.health.held.contains die || decide (Config.maxThreads < threads) || decide (Config.maxBlocks ≤ rs.length) ||
      decide (16 < sum (rs.map (·.cfg.tiles)) + r.tiles) || decide (Config.coreScratch < s.scratchUse core + loc) ||
      decide (sum (ext.map (·.2)) ≠ r.scratchAlloc - loc) || decide (3 < ext.length) || !s.slotsFit core r then none
  else (s.freeRows core r.rowAlloc).map fun accbase => { accbase, extents := ext }

/-- The bank check for one more block, with space that is lent to it (R234, R237). -/
def State.bankFree (s : State) (core : Nat) (r : LaunchRec) (lent : Nat → Nat := fun _ => 0) : Bool :=
  (List.range 4).all fun k => decide (s.bankKept core k + r.bankBytes k ≤ Config.bankBytes + lent k)

/-- Parked threads whose registers may move: block and %tid; none that is out with its turn group. -/
def State.parkable (s : State) (core : Nat) : List (Nat × Nat) :=
  (((s.residents core).filter fun b => !s.borrows b).map fun b =>
    ((b.tids fun th => th.st == .parked && !th.inSlot && th.outst.isEmpty).filter fun t => !b.out.any (·.1 == t / 128)).map
      fun t => (b.id, t)).flatten

/-- One thread's registers move into slots, its bank space lent to the placement to come (R237, R239). -/
def State.moveToSlot (s : State) (x : Nat × Nat) : State :=
  s.modBlock x.1 fun b =>
    { b.modTh x.2 (fun th => { th with inSlot := true, lentTo := s.sched.placeSeq }) with
      place := { b.place with parkn := min 65535 (b.place.parkn + 1) } }

/-- Registers of parked threads move, as far as the bank check of a block to be placed needs it (R237); none when it does
not help. The check is that of the core before the moves, `s0`, with the space that they lend. -/
def State.lend (s s0 : State) (core : Nat) (r : LaunchRec) (lent : Nat → Nat) : List (Nat × Nat) → Option State
  | [] => if s0.bankFree core r lent then some s else none
  | x :: rest =>
    if s0.bankFree core r lent then some s
    else
      let k := x.2 % 4
      let regs := ((s.block? x.1).map (·.cfg.vAlloc)).getD 0
      if decide (Config.bankBytes + lent k < s0.bankKept core k + r.bankBytes k) && decide ((regs + 63) / 64 ≤ s.freeSlots core r) then
        (s.moveToSlot x).lend s0 core r (fun j => lent j + if j = k then regs * 4 else 0) rest
      else s.lend s0 core r lent rest

/-- The block whose placement a thread's bank space is lent to, while it stands there (R238). -/
def State.borrowerOf (s : State) (th : Thread) : Option Block :=
  s.blocks.find? fun x => th.inSlot && x.place.resident && !x.ended && x.place.seq == th.lentTo

/-- Room for a block on a core: the state with the registers moved that make it, and what the placement takes. -/
def State.roomFor (s : State) (core : Nat) (r : LaunchRec) : Option (State × Plan) :=
  match s.planOn core r with
  | none => none
  | some p =>
    if s.bankFree core r then some (s, p)
    else (s.lend s core r (fun _ => 0) (s.parkable core)).map fun s => (s, p)

/-! ## Placement -/

/-- The default grant (R218). -/
def defaultGrant (n : Nat) (alone : Bool) : Nat :=
  if n ≤ 8 then 8 else if n ≤ 16 then 16 else if 1024 ≤ n ∧ alone then 64 else 32

/-- %seed of a new thread (R25). -/
def seedOf (bid bsize tid : Nat) : Word :=
  let x := 0x6A09E667#32 ^^^ BitVec.ofNat 32 ((bid * bsize + tid) * 0x9E3779B9)
  if x = 0#32 then 1#32 else x

/-- A thread as it is created (R25, R235). -/
def newThread (r : LaunchRec) (bid tid n : Nat) : Thread :=
  { v := List.replicate n 0#32, pc := BitVec.ofNat 64 r.code, seed := seedOf bid r.bsize tid, flags := List.replicate 12 0 }

/-- The placement of a block by a plan, with a new handler thread (R374); `fresh` sets the default grant and applies the standing request. -/
def State.occupy (s : State) (b : Block) (core : Nat) (p : Plan) (fresh : Bool) : State :=
  let dflt := if fresh then defaultGrant b.cfg.bsize (s.residents core).isEmpty else b.place.dflt
  let (grant, confined) := if fresh then (grantOf b.cfg dflt b.place.request).getD (dflt, false) else (b.place.grant, b.place.confined)
  let place := { b.place with core, resident := true, grant, confined, dflt, accbase := p.accbase, extents := p.extents, seq := s.sched.placeSeq }
  let handler := newThread b.cfg b.bid b.cfg.bsize 32
  let s := s.modBlock b.id fun b => { b with place, handler }
  let s : State := { s with sched := { s.sched with placeSeq := s.sched.placeSeq + 1 } }
  s.shrinkL1s (core :: p.extents.map (·.1))

/-- The placement of a block is freed. -/
def Block.vacate (b : Block) : Block :=
  { b with plaits := [], leaving := none, place := { b.place with resident := false, extents := [] } }

/-! ## Saves -/

/-- The liveness record of a landed thread; none when it cannot be read or holds a reserved bit (R105,
R352). -/
def State.liveOf (s : State) (b : Block) (t : Nat) : Option (DWord × Live) :=
  match (b.th t).wait with
  | some (.landed r _) =>
    match s.engineRead b.place.core b.cfg.envelope r 80 with
    | .inr bs => (Live.ofBytes bs).map fun l => (r, l)
    | .inl _ => none
  | _ => none

/-- The live masks of each live thread of a save of a kind (R353). -/
def State.liveMasks (s : State) (b : Block) (kind : Nat) : List (Nat × Option (DWord × Live)) :=
  b.live.map fun t => (t, if kind = 1 then s.liveOf b t else none)

/-- An address of a walk that a save or a restore waits for, or the kill of its context (R359). -/
def State.saveFault (s : State) (b : Block) (k : Kind) : DWord × WalkEnd → State
  | (va, .fault t) =>
    let s := if t.cause = .uncorrectedData then s.uncorrected b.die t.extra.toNat b.task b.cfg.envelope 1 else s
    s.killContext b (causeCode t.cause) va 0
  | (va, _) =>
    let (s, w) := s.startWalk b.die b.cfg.envelope va k
    s.modBlock b.id fun b => { b with area := some w }

/-- A unit of the block that a save reads: of what a liveness record names, for all threads or one (R353, R412). -/
def Block.saveUnit (b : Block) (live : Live) (masks : List (Nat × Option (DWord × Live))) (u : ErrUnit) : Bool :=
  let names (t n : Nat) : Bool := masks.any fun m => m.1 == t && (m.2.all fun l => l.2.v.testBit n)
  match u with
  | .reg k t n => k == b.id && names t n
  | .slot k t => k == b.id && (b.th t).inSlot && masks.any (·.1 == t)
  | .ureg k n => k == b.id && live.u.testBit n
  | .xsum k n => k == b.id && live.x.testBit n
  | .tile k n => k == b.id && live.t.testBit n
  | .row k _ => k == b.id && live.acc
  | .scratch k _ => k == b.id
  | .mem _ | .ring _ _ | .wait _ _ | .l1 _ _ | .l2 _ | .dep _ _ => false

/-- A unit of a block's storage on its core. -/
def ErrUnit.ofBlock (blk : Nat) : ErrUnit → Bool
  | .reg k _ _ | .ureg k _ | .tile k _ | .row k _ | .xsum k _ | .scratch k _ | .slot k _ | .wait k _ => k == blk
  | .mem _ | .ring _ _ | .l1 _ _ | .l2 _ | .dep _ _ => false

/-- A save that reads an uncorrectable error kills the context, with its event; the address written is the save area's (R378,
R414, R423, log 80). -/
def State.savePoison (s : State) (b : Block) (u : ErrUnit) : State :=
  let va := match b.saveDest with
    | .va _ _ a => a
    | .dev _ => 0#64
  (s.coreError b u.store 1).killContext b (causeCode .uncorrectedData) va 0

/-- What a save leaves of a thread in the core. -/
def Thread.saved (th : Thread) : Thread :=
  { th with v := [], st := if th.st = .trapped then .ready else th.st, inClause := 0, slots := (none, none), outst := []
            stall := none, fault := none, remote := none, held := none, inSlot := false, written := false }

/-- The stops for copies' faults that a save ends (R180, R379): the one in force, and those held. -/
def Block.copyStops (b : Block) : List Held :=
  (match b.trap.copy with
    | some id => [({ info := { cause := .xlateFault, addr := b.trap.bank0.addr }, tids := [], thr := b.trap.bank0.thr.toNat
                     pc := b.trap.bank0.pc, copy := some id } : Held)]
    | none => []) ++ b.trap.held.filter fun h => h.copy.isSome && h.info.cause != .promiseMissed

/-- The broken promises whose stops a save ends (R379): the one in force, and those held; copy and time. -/
def Block.promiseStops (b : Block) : List (Nat × DWord) :=
  (b.trap.missed.toList.map fun c => (c, b.trap.bank0.addr)) ++
    (b.trap.held.filter fun h => h.info.cause == .promiseMissed).filterMap fun h => h.copy.map fun c => (c, h.info.addr)

/-- A save of a block: kind 1 landing, 2 forced, 3 inline. It waits for %ackc = 0 (R261); a fault in the area
kills the context (R359). -/
def State.saveBlock (s : State) (blk kind : Nat) : State :=
  match s.block? blk with
  | none => s
  | some b =>
    if !b.acks.isEmpty || b.saved.isSome then s
    else
      let s := s.modBlock blk fun b => b.mapTh fun _ th => th.deliverIf fun _ => true
      let b := (s.block? blk).getD b
      let masks := s.liveMasks b kind
      let live := if masks.any (·.2.isNone) then Live.all
        else (masks.filterMap fun m => m.2.map (·.2)).foldl Live.or {}
      let stay (t : Nat) : Bool := b.out.any fun g => g.1 == t / 128 && !g.2.2.isEmpty
      match s.health.bad.find? (b.saveUnit live (masks.filter fun m => !stay m.1)) with
      | some u => s.savePoison b u
      | none =>
      let parts := b.blockParts kind live b.trap.stopped ++
        (((List.range b.cfg.bsize).filter fun t => !stay t).map fun t =>
          b.threadParts t kind (((masks.find? (·.1 == t)).map (·.2)).getD none)).flatten
      match s.putRanges b.saveDest (parts.map fun p => (p.off, p.len)) (parts.map (·.m)).flatten with
      | (s, some e) => s.saveFault b .write e
      | (s, none) =>
        -- the cause of a copy's stop stands in the copy
        let stops := b.copyStops.map fun h => match h.copy.bind s.copy? with
          | some c => { h with info := (c.fault.getD h.info) }
          | none => h
        let saved : Saved := { kind, depth := b.regs.inldepth.toNat, since := s.clock.time
                               ranges := parts.map (fun p => (p.off, p.len)) ++ (b.out.map (·.2.2)).flatten, stops }
        let s := b.promiseStops.foldl State.promiseAgain s
        let s : State := { s with
          eng := { s.eng with loops := s.eng.loops.filter (·.2.1 != blk) }
          health := { s.health with bad := s.health.bad.filter (!·.ofBlock blk), soft := s.health.soft.filter (!·.ofBlock blk) } }
        (s.modBlock blk fun b =>
          { b.vacate.mapTh (fun _ th => th.saved) with
            saved := some saved, due := none, uregs := [], xs := [], tiles := [], rows := [], scratch := []
            handler := {}
            -- the next placement takes them from the launch record (R371)
            trap := { tvec := BitVec.ofNat 64 b.cfg.tvec, tsave := BitVec.ofNat 64 b.cfg.tsave } }).refreshCore b.place.core

/-- Refill of one reel (R360). -/
def State.refillReel (s : State) (b : Block) (t : Bool) : State :=
  let e := s.env b.cfg.envelope
  let (reel, debt, pool, grant) := if t then (b.regs.treel, b.regs.tover, e.tpool, e.trefill)
    else (b.regs.ireel, b.regs.iover, e.ipool, e.irefill)
  let need := debt.toNat + grant
  if reel ≠ 0#64 ∨ grant = 0 ∨ pool < need then s
  else
    let s := s.modEnv e.id fun e => if t then { e with tpool := pool - need } else { e with ipool := pool - need }
    let g := BitVec.ofNat 64 grant
    s.modBlock b.id fun b => { b with regs :=
      if t then { b.regs with treel := g, tover := 0#64 } else { b.regs with ireel := g, iover := 0#64 } }

/-- Refill of both reels of a saved block. -/
def State.refill (s : State) (blk : Nat) : State :=
  match s.block? blk with
  | none => s
  | some b =>
    if b.saved.isNone then s
    else
      let s := s.refillReel b false
      match s.block? blk with
      | none => s
      | some b => s.refillReel b true

/-- Every saved block whose reel is out is tried again, as when a pool grows (R360, R367). -/
def State.refillAll (s : State) : State :=
  (s.blocks.filter fun b => b.saved.isSome && !b.ended).foldl (fun s b => s.refill b.id) s

/-- A parked thread that has been woken. -/
def Thread.woken (th : Thread) : Bool :=
  match th.wait with
  | some (.parked q) => q.woken
  | _ => false

/-- Every live thread is landed, waiting or parked, and none trapped (R351); one that has been woken is to become ready first. -/
def Block.hasLanded (b : Block) : Bool :=
  b.due.isSome && !b.trap.stopped && !b.trap.debug && b.saved.isNone && b.inline.isNone && !b.live.isEmpty &&
    b.live.all fun t => (b.th t).st == .waiting || ((b.th t).st == .parked && !(b.th t).woken)

/-- The blocks of a group that stand on cores. -/
def State.standing (s : State) (b : Block) : List Block :=
  (s.group b).filter fun x => !x.ended && x.saved.isNone && x.place.resident

/-- A due block has passed its landing bound or its landing timeout (R354). -/
def State.mustForce (s : State) (b : Block) : Bool :=
  match b.due with
  | none => false
  | some d => decide (2 * b.cfg.landbound * d.n < d.weight) ||
      decide (d.time + (s.env b.cfg.envelope).landtime ≤ s.clock.time)

/-- The save of a block falls due, by its landing or forced: its plaits dissolve, its clauses are cut, and no thread of it
issues on (R351, R354). -/
def Block.depart (b : Block) : Block :=
  if b.leaving.isSome then b else { b.dissolveAll with leaving := some (if b.hasLanded then 1 else 2) }

/-- The kind of the save of a block that is to leave: one that ends a stop is forced (R379). -/
def Block.leaveKind (b : Block) : Nat := if b.trap.stopped then 2 else b.leaving.getD 2

/-- The save of every block of a group that stands: of all in one step, once no member waits for an acknowledgement or for
a page (R261, R308, R385). -/
def State.saveGroup (s : State) (b : Block) : State :=
  let xs := s.standing b
  if xs.any fun x => !x.acks.isEmpty then s
  else
    let t := xs.foldl (fun s x => (s.saveBlock x.id x.leaveKind).refill x.id) s
    match xs.find? fun x => (t.block? x.id).any fun y => y.saved.isNone && !y.ended with
    | some x => s.saveBlock x.id x.leaveKind
    | none => t

/-- A group leaves: its save falls due for every block of it that stands, and is made where it can be. -/
def State.leave (s : State) (b : Block) : State :=
  ((s.standing b).foldl (fun s x => s.modBlock x.id Block.depart) s).saveGroup b

/-- A block of a cluster group that is out waits until its whole group is (R308, R349). -/
def execLandingSave (blk : Nat) (s : State) : Host.Outcome State Fault Refusal :=
  .next (match s.block? blk with
    | none => s
    | some b => if b.leaving.isSome || ((s.standing b).all Block.hasLanded && b.hasLanded) then s.leave b else s)

def execForcedSave (blk : Nat) (s : State) : Host.Outcome State Fault Refusal :=
  .next (match s.block? blk with
    | none => s
    | some b =>
      if b.place.resident && b.saved.isNone && b.inline.isNone && !b.ended && s.mustForce b then s.leave b else s)

/-! ## Restores -/

/-- What a restored thread does next (R108, R361), and the charge of one that returns as a wake; `late` says whether a
sleep's target has passed. A thread parked at an object makes its check again, and parks again if it is unmet. -/
def Block.wakeRestored (b : Block) (lens : Nat → Nat) (late : Nat → Bool) (t : Nat) : Block × Nat :=
  let th := b.th t
  let ready (th : Thread) : Thread := { th with st := .ready, wait := none, wlen := 0, age := b.cycles, order := 0 }
  match th.wait with
  | some (.landed _ _) => (b.modTh t ready, 0)
  | some (.sleep target) => if late target then (b.modTh t fun th => th.resume (lens t) b.cycles, weightOf 0x011) else (b, 0)
  | some (.parked q) =>
    if q.kind = .waitaddr ∨ q.kind = .park then
      let th' := if q.kind = .waitaddr then th.write (.p q.w.d.toNat false) else th
      (b.modTh t fun _ => { th'.resume (lens t) b.cycles with wait := none }, weightOf q.op)
    else (b.modTh t fun th => { th with wait := some (.parked { q with woken := true, polled := false, away := true }) }, 0)
  | _ => (b, 0)

/-- The thread whose inline child has ended goes on at NextPC with pP false (R188). -/
def State.afterInline (s : State) (blk : Nat) (x : Option (Nat × Nat)) : State :=
  match x, s.block? blk with
  | some (t, p), some b =>
    let len := s.lenAt b (b.th t).pc
    (s.modTh blk t fun th => ({ th with pc := th.pc + BitVec.ofNat 64 len } : Thread).write (.p p false)).charge blk (weightOf 0x288) 128
  | _, _ => s

/-- The turn groups that are out after a placement: all but the first of those longest away (R321). -/
def Block.outGroups (b : Block) (since : List (Nat × Nat)) (ranges : List (Nat × Nat)) : List (Nat × Nat × List (Nat × Nat)) :=
  let n := (b.cfg.bsize + 127) / 128
  let away := sortBy (fun x y : Nat × Nat => decide (x.2 < y.2 ∨ (x.2 = y.2 ∧ x.1 ≤ y.1)))
    ((List.range n).map fun g => (g, ((since.find? (·.1 == g)).map (·.2)).getD 0))
  let base (g : Nat) : Nat := b.cfg.offH + 128 * g * b.cfg.stride
  (away.drop (b.cfg.resThreads / 128)).map fun x =>
    (x.1, x.2, ranges.filter fun r => decide (base x.1 ≤ r.1 ∧ r.1 < base (x.1 + 1)))

/-- The state of a restored block (R361), its image read. -/
def State.fillRestored (s : State) (b : Block) (m : Memory) : State :=
  let k := b.saved.getD {}
  -- the groups that were resident have been away since the save
  let since := (List.range ((b.cfg.bsize + 127) / 128)).map fun g => (g, ((b.out.find? (·.1 == g)).map (·.2.1)).getD k.since)
  let out := if b.cfg.partial? then b.outGroups since k.ranges else []
  let b1 := (b.stateOf m).mapTh fun t th =>
    if b.out.any (fun g => g.1 == t / 128 && !g.2.2.isEmpty) then
      { th with v := (b.threadOf m t k.kind).v, group := if k.kind = 1 then none else th.group, age := b.cycles, order := 0 }
    else if th.st = .exited then { b.threadOf m t k.kind with st := .exited } else b.threadOf m t k.kind
  let b1 := { b1 with saved := none, out, acks := [], due := none }
  let lens := s.waitLen b1
  let late (target : Nat) : Bool := decide (target ≤ s.clock.time) && !s.promiseFirst b.id target
  let (b2, ci) := (List.range b.cfg.bsize).foldl (fun (a : Block × Nat) t =>
    let (b, i) := a.1.wakeRestored lens late t
    (b, a.2 + i)) (b1, 0)
  let s := ((s.modBlock b.id fun _ => b2).charge b.id ci 0).afterInline b.id k.spawn
  let s := ((List.range b.cfg.bsize).map b1.th).foldl State.unwait s
  let s := k.stops.foldl (fun s h => s.trapBlock b.id h) s
  (s.eng.copies.filter fun c => c.blk == b.id && c.promise.any (· ≤ s.clock.time)).foldl State.missPromise s

/-- What stops the restore of some blocks: the first whose image cannot be read waits for its page, or its context is
killed (R359, R385). -/
def State.imageFault (s : State) (bs : List Block) : Option State :=
  bs.findSome? fun b => match s.takeRanges b.saveDest (b.saved.getD {}).ranges with
    | .inl e => some (s.saveFault b .read e)
    | .inr _ => none

/-- The restore of one block on a core (R360, R361), its image read. -/
def State.restoreOn (s : State) (b : Block) (core : Nat) : State :=
  match s.roomFor core b.cfg with
  | none => s
  | some (u, p) =>
    let kind := (b.saved.getD {}).kind
    match s.takeRanges b.saveDest (b.saved.getD {}).ranges with
    | .inl e => s.saveFault b .read e
    | .inr m =>
      let s := (u.occupy b core p (kind == 1)).correctArea b.saveDest (b.saved.getD {}).ranges
      -- lines that the new core's stale caches held before a CCTL of the threads are gone (R268)
      let stale (unit : Nat) (l : StaleLine) : Bool := l.unit == unit && l.task == b.task
      let s : State := { s with eng := { s.eng with
        consts := s.eng.consts.filter fun l => !stale core l
        fetchs := s.eng.fetchs.filter fun l => !stale (clusterOfCore core) l } }
      match s.block? b.id with
      | none => s
      | some b => (s.fillRestored b m).refreshCore core

/-- A saved block may come back (R340, R360): no inline child, both reels refilled. -/
def Block.restorable (b : Block) : Bool :=
  b.saved.any (·.kind != 3) && b.inline.isNone && !b.ended && b.regs.ireel != 0#64 && b.regs.treel != 0#64

/-- The group's saved blocks put on the cores of one cluster, the first on the core asked for; none when one
of them finds no room. -/
def State.restoreGroup (s : State) : List Block → List Nat → Option State
  | [], _ => some s
  | b :: rest, cores =>
    match cores.find? fun c => (s.roomFor c b.cfg).isSome with
    | none => none
    | some c => (s.restoreOn b c).restoreGroup rest cores

/-- Cores of a cluster, one of them first. -/
def clusterCores (core : Nat) : List Nat :=
  core :: ((List.range Config.coresPerCluster).map (clusterOfCore core * Config.coresPerCluster + ·)).filter (· != core)

/-- The die that the launch's level of die domain binds a block to: that of a placed block of its unit
(R308). -/
def State.dieBound (s : State) (b : Block) : Option Nat :=
  let ks := (List.range b.cfg.levels.length).filter fun k => decide (0 < k) && ((b.cfg.levels.getD k (0, 0)).2 == 2)
  match maxBy id ks with
  | none => none
  | some k =>
    let n := b.cfg.below k
    ((s.blocks.filter fun x => x.task == b.task && x.bid / n == b.bid / n).head?).map Block.die

/-- The scheduler restores a block, with its cluster group, on a core that has room. -/
def State.restoreAt (s : State) (b : Block) (core : Nat) : State :=
  let unit := (s.group b).filter fun x => !x.ended
  if !(unit.all Block.restorable) || (s.dieBound b).any (· != dieOfCore core) then s
  else match s.restoreGroup unit (if b.cfg.groupSize ≤ 1 then [core] else clusterCores core) with
    | none => s
    | some t => (s.imageFault unit).getD t

/-! ## Turn groups (R321) -/

/-- The live threads of a turn group. -/
def Block.groupLive (b : Block) (g : Nat) : List Nat := b.live.filter (· / 128 == g)

/-- A resident group of which every live thread waits, is parked or has landed. -/
def Block.groupIdle (b : Block) (g : Nat) : Bool :=
  (b.groupLive g).all fun t => (b.th t).st == .waiting || ((b.th t).st == .parked && !(b.th t).woken)

/-- The group that comes in: the longest away of those out with a ready thread, or with one that has been woken. -/
def Block.nextGroup (b : Block) : Option (Nat × Nat × List (Nat × Nat)) :=
  minBy (fun g => g.2.1) (b.out.filter fun g => (b.groupLive g.1).any fun t => (b.th t).st == .ready || (b.th t).woken)

/-- Rotation: the group is saved at the block's level, and the next one's registers are read back. -/
def State.rotate (s : State) (b : Block) (g : Nat) (next : Nat × Nat × List (Nat × Nat)) : State :=
  let ts := (List.range b.cfg.bsize).filter (· / 128 == g)
  let s := s.modBlock b.id fun b => ts.foldl (fun b t => b.modTh t (Thread.deliverIf fun _ => true)) b
  let b := (s.block? b.id).getD b
  let mine (u : ErrUnit) : Bool := match u with
    | .reg k t _ => k == b.id && t / 128 == g
    | _ => false
  match s.health.bad.find? mine with
  | some u => s.savePoison b u
  | none =>
  let parts := partOf 0 (b.saveHeader 4 Live.all false) :: (ts.map fun t => b.threadParts t 4 none).flatten
  match s.putRanges b.saveDest (parts.map fun p => (p.off, p.len)) (parts.map (·.m)).flatten with
  | (s, some e) => s.saveFault b .write e
  | (s, none) =>
    match s.takeRanges b.saveDest next.2.2 with
    | .inl e => s.saveFault b .read e
    | .inr m =>
      s.modBlock b.id fun b =>
        let out := (b.out.filter (·.1 != next.1)) ++ [(g, s.clock.time, (parts.drop 1).map fun p => (p.off, p.len))]
        { b.mapTh (fun t th =>
            if t / 128 = next.1 ∧ th.st ≠ .exited then
              { th with v := if next.2.2.isEmpty then th.v else (b.threadOf m t 4).v, age := b.cycles, order := 0 }
            else th) with out }

def execTurnGroupRotation (blk group : Nat) (s : State) : Host.Outcome State Fault Refusal :=
  .next (match s.block? blk with
    | none => s
    | some b =>
      if b.running && b.cfg.partial? && !b.out.any (·.1 == group) && decide (128 * group < b.cfg.bsize) && b.groupIdle group then
        match b.nextGroup with
        | some n =>
          -- the group that comes in needs the bank space that its lenders have lent
          match (b.groupLive group).find? fun t => (b.th t).inSlot with
          | some t => match s.borrowerOf (b.th t) with
            | some x => s.recall x.id
            | none => s
          | none => s.rotate b group n
        | none => s
      else s)

/-! ## Parking slots (R238) -/

/-- The thread's bank space is free again on its core: no borrower holds it, and the check of R234 holds with it. -/
def State.canReturn (s : State) (b : Block) (tid : Nat) : Bool :=
  (b.th tid).inSlot && (s.borrowerOf (b.th tid)).isNone && b.place.resident &&
    decide (s.bankUse b.place.core (tid % 4) + b.cfg.vAlloc * 4 ≤ Config.bankBytes)

/-- A parked thread's registers return once the borrower has left. One whose slots hold an uncorrectable error becomes
ready and stops before its next instruction, with %taddr 0 (R238, R414). -/
def execRegisterReturn (blk tid : Nat) (s : State) : Host.Outcome State Fault Refusal :=
  .next (match s.block? blk with
    | none => s
    | some b =>
      if !s.canReturn b tid then s
      else if s.health.bad.contains (.slot blk tid) && !b.trap.stopped then
        let s := (s.coreError b 1 0).unwait (b.th tid)
        let s : State := { s with health := { s.health with bad := s.health.bad.filter (· != .slot blk tid) } }
        (s.modTh blk tid fun th => { th.leave b.cycles with inSlot := false }).trapThreads blk [(tid, { cause := .uncorrectedData })]
      else if s.health.bad.contains (.slot blk tid) then s
      else s.modTh blk tid fun th => { th with inSlot := false })

end Sys2Proof.Machine
end

