-- ==== Sys2Proof/Machine/Tasks.lean ====
section
/-! DEFINITION. Launch records and task records (R304 to R323), acceptance, reports, registration, the start
and the end of tasks (R324 to R341), as shared operations. -/

namespace Sys2Proof.Machine

/-! ## Futures and reports (R345, R346) -/

/-- The word of a future at offset 8. -/
def State.futureState (s : State) (pa : Nat) : Nat := s.valPa (pa + 8) 1

/-- STATE and RES0 hold values that R186 accepts. -/
def State.futureOk (s : State) (pa : Nat) : Bool := decide (s.futureState pa ≤ 1) && s.valPa (pa + 9) 1 == 0

/-- The fill of an empty future: its value, its state, the wake of its waiters (R186). -/
def State.fillFuture (s : State) (pa value : Nat) : State :=
  ((s.putPa pa 8 value).putPa (pa + 8) 1 1).wake fun q => q.kind == .fget && q.pa == pa

/-- The first core of a die stands for its scheduler. -/
def dieCore (die : Nat) : Nat := die * Config.coresPerDie

/-- The page of an engine's write that has to be serviced first, which the writer waits for (R277, R385). -/
def State.absentPage (s : State) (die env addr n : Nat) : Option DWord :=
  [BitVec.ofNat 64 addr, BitVec.ofNat 64 (addr + n - 1)].find? fun a => canonical a &&
    match s.engineXlate (dieCore die) env a .write with
    | (.replay _, none) => true
    | _ => false

/-- The page that a report has to wait for (log 78). -/
def State.reportPage (s : State) (die env future : Nat) : Option DWord :=
  if future = 0 ∨ future % 16 ≠ 0 then none else s.absentPage die env future 16

/-- A report into a completion future, or a REPORT_LOST event (R346). -/
def State.report (s : State) (die env future task kind value : Nat) : State :=
  if future = 0 then s
  else
    let lost : State := s.event die 0x41 env task kind (some (future, 0))
    let va := BitVec.ofNat 64 future
    if !canonical va then lost
    else match s.engineXlate (dieCore die) env va .write with
      | (_, some pa) =>
        if s.poisoned pa 16 ∨ s.futureState pa ≠ 0 ∨ !s.futureOk pa then lost else (s.takeLines pa 16).fillFuture pa value
      | _ => lost

/-! ## Records -/

/-- A field of bytes. -/
def field (bs : List Byte) (off n : Nat) : Nat := ofBytesLE ((bs.drop off).take n)

/-- The launch record (R304). -/
def LaunchRec.ofBytes (bs : List Byte) : LaunchRec :=
  let f := field bs
  { version := f 0 4, flags := f 4 4, code := f 8 8, bound := f 0x10 8, container := f 0x18 8, param := f 0x20 8
    bsize := f 0x28 4, width := f 0x2C 2
    levels := (List.range (f 0x2E 2)).map fun k => (f (0x40 + 8 * k) 4, f (0x44 + 8 * k) 1)
    vregs := f 0x30 2, uregs := f 0x32 2, scratch := f 0x34 4, accrows := f 0x38 2, tiles := f 0x3A 1, xsums := f 0x3B 1
    pins := f 0x3C 1, ireel := f 0x80 8, treel := f 0x88 8, landbound := f 0x90 4, priority := f 0x94 2
    envelope := f 0x96 2, readset := f 0x98 8, writeset := f 0xA0 8, nread := f 0xA8 4, nwrite := f 0xAC 4
    future := f 0xB0 8, tvec := f 0xB8 8, tsave := f 0xC0 8, csave := f 0xC8 8, faults := f 0xD0 8 }

/-- A queue message (R326). -/
structure Msg where
  task   : Nat
  srcenv : Nat
  src    : Src
  prio   : Nat
  ifund  : Nat
  tfund  : Nat
  deriving DecidableEq, Repr

def Msg.ofBytes (bs : List Byte) : Msg :=
  let f := field bs
  { task := f 0 8, srcenv := f 8 2
    src := match f 0x0A 1 with
      | 0 => .thread | 1 => .supervisor | 2 => .host | _ => .plane
    prio := f 0x0B 1, ifund := f 0x10 8, tfund := f 0x18 8 }

def Msg.bytes (m : Msg) : List Byte :=
  let k := match m.src with
    | .thread => 0 | .supervisor => 1 | .host => 2 | .plane => 3
  toBytesLE 8 m.task ++ toBytesLE 2 m.srcenv ++ toBytesLE 1 k ++ toBytesLE 1 m.prio ++ toBytesLE 4 0 ++
    toBytesLE 8 m.ifund ++ toBytesLE 8 m.tfund ++ toBytesLE 32 0

/-! ## Failures (R317 to R319) -/

/-- A failed acceptance: CODE, RES, FIELD, REC, ASKED, AVAIL, ADDR of R318. -/
structure Failure where
  code  : Nat
  res   : Nat := 0
  field : Nat := 0
  rec?  : Nat := 0
  asked : Nat := 0
  avail : Nat := 0
  addr  : Nat := 0
  deriving DecidableEq, Repr

/-- The failure record (R318). -/
def Failure.bytes (f : Failure) : List Byte :=
  toBytesLE 1 f.code ++ toBytesLE 1 f.res ++ toBytesLE 2 f.field ++ toBytesLE 1 f.rec? ++ toBytesLE 3 0 ++
    toBytesLE 8 f.asked ++ toBytesLE 8 f.avail ++ toBytesLE 8 f.addr

/-- LAUNCH_RECORD at a field. -/
def badField (off : Nat) : Failure := { code := 1, field := off }

/-- LAUNCH_ACCESS at an address. -/
def badAccess (a : DWord) : Failure := { code := 2, addr := a.toNat }

/-- The first failure of a list of tests: a test that holds is a failure. -/
def firstFail : List (Bool × Failure) → Option Failure
  | [] => none
  | (b, f) :: rest => if b then some f else firstFail rest

/-- The zero fields of a task record (R324, R325). -/
def taskRecordFail (bs : List Byte) : Option Failure :=
  let f := field bs
  let pipe := f 0x0C 4 % 2 == 1
  let bad (off : Nat) : Failure := { badField off with rec? := 1 }
  firstFail [(decide (1 < f 0x0C 4), bad 0x0C), (!pipe && f 0x10 8 != 0, bad 0x10), (!pipe && f 0x18 2 != 0, bad 0x18),
    (!pipe && f 0x1A 2 != 0, bad 0x1A), (f 0x1C 4 != 0, bad 0x1C), (f 0x58 40 != 0, bad 0x58)]

/-- The first entry of the level table that breaks R307. -/
def levelFail (bs : List Byte) (r : LaunchRec) : Option Failure :=
  let n := r.levels.length
  let word (k : Nat) : Nat := field bs (0x40 + 8 * k) 8
  let ext (k : Nat) : Nat := word k % 2 ^ 32
  let dom (k : Nat) : Nat := word k / 2 ^ 32 % 256
  firstFail ((List.range 8).map fun k =>
    let bad := if n ≤ k then word k != 0
      else word k / 2 ^ 40 != 0 || decide (5 < dom k) ||
        (if k = 0 then dom 0 != 0 || ext 0 != r.bsize
         else ext k == 0 || decide (dom k < dom (k - 1)) || decide (2 ^ 32 - 1 < r.below k))
    (bad, badField (0x40 + 8 * k)))

/-- Generation of a record or a level (R306). -/
def LaunchRec.generation (r : LaunchRec) : Nat := r.version / 2 ^ 24

/-- The fields of a launch record up to the level table, and after it (check 2 of R317). -/
def recordFailLow (bs : List Byte) (r : LaunchRec) (m : Msg) : Option Failure :=
  let f := field bs
  let old := decide (r.generation ≤ 8)
  let plain := r.container == 0
  let need (x : Nat) : Bool := plain && x == 0
  firstFail [
    (r.generation == 0 || r.version % 65536 != 0, badField 0),
    (old && decide (255 < r.flags), badField 4),
    (r.super && !(m.src == .supervisor || m.src == .plane), badField 4),
    (r.code % 64 != 0, badField 8),
    (r.bound % 64 != 0 || decide (r.bound ≤ r.code) || decide (2 ^ 32 < r.bound - r.code), badField 0x10),
    (r.param % 64 != 0, badField 0x20),
    (r.bsize == 0, badField 0x28),
    (!([0, 4, 8, 16, 32, 64, 128].contains r.width), badField 0x2C),
    (r.levels.isEmpty || decide (8 < r.levels.length), badField 0x2E),
    (decide (0 < r.vregs ∧ r.vregs < 8) || need r.vregs, badField 0x30),
    (old && f 0x3D 3 != 0, badField 0x3D)]

def recordFailMid (r : LaunchRec) (m : Msg) : Option Failure :=
  let need (x : Nat) : Bool := r.container == 0 && x == 0
  firstFail [
    (need r.ireel, badField 0x80), (need r.treel, badField 0x88), (need r.landbound, badField 0x90),
    (decide (7 < r.priority), badField 0x94),
    (decide (4095 < r.envelope) || (m.src != .plane && r.envelope != m.srcenv), badField 0x96)]

def recordFailHigh (bs : List Byte) (r : LaunchRec) : Option Failure :=
  firstFail [
    (decide (1024 < r.nread) || decide (1024 < r.nwrite), badField 0xA8),
    (r.future % 16 != 0, badField 0xB0),
    (r.csave % 64 != 0, badField 0xC8),
    (decide (r.generation ≤ 8) && field bs 0xD8 40 != 0, badField 0xD8)]

/-! ## Tile sets (R329) -/

/-- What the checks of an acceptance end in, before its effects. -/
inductive Judged (α : Type) where
  | ok (x : α)
  | fail (f : Failure)
  /-- A page has to be serviced first (R385). -/
  | walk (va : DWord) (k : Kind)
  /-- The task waits at the head of its queue (R327). -/
  | wait

/-- Where a tile is homed: its physical address, whatever its leaf permits (R329). -/
def State.tileHome (s : State) (core env tile off : Nat) : Judged Nat :=
  let va := BitVec.ofNat 64 tile
  match s.leafOf core env va with
  | (_, some pa) => match s.homeOf pa with
    | some (.die _) => .ok pa
    | _ => .fail (badField off)
  | (.fault _, none) => .fail (badAccess va)
  | (_, none) => .walk va .read

/-- One set: its pointer, its entries in strictly ascending order, its tiles' homes. -/
def State.judgeSet (s : State) (core env ptr n off : Nat) (write : Bool) : Judged (List (Nat × Bool × Nat)) :=
  if ptr % 8 ≠ 0 ∨ (ptr = 0 ∧ n ≠ 0) then .fail (badField off)
  else if n = 0 ∨ 1024 < n then .ok []
  else match s.engineRead core env (BitVec.ofNat 64 ptr) (8 * n) with
    | .inl (_, .fault t) => .fail (badAccess t.addr)
    | .inl (va, _) => .walk va .read
    | .inr bs =>
      let xs := (List.range n).map fun i => field bs (8 * i) 8
      let good (x : Nat) : Bool := x / 2 ^ 57 == 0 && x % 4096 == (if write then x % 2 else 0)
      let tiles := xs.map fun x => x / 4096 * 4096
      if xs.any (!good ·) || !((tiles.zip (tiles.drop 1)).all fun p => decide (p.1 < p.2)) then .fail (badField off)
      else xs.foldr (fun x acc => match s.tileHome core env (x / 4096 * 4096) off, acc with
        | .ok pa, .ok rest => .ok ((x / 4096 * 4096, x % 2 == 1, pa) :: rest)
        | .ok _, r => r
        | .fail f, _ => .fail f
        | .walk va k, _ => .walk va k
        | .wait, _ => .wait) (.ok [])

/-! ## The container (R314 to R316) -/

/-- The code that a launch runs: its address and bound, its generation's counts, reels, landing bound and
width, and the translation with its image; what the envelope's quota lacks for it (R320, resource 11). -/
structure Chosen where
  code   : Nat
  bound  : Nat
  counts : List Byte
  ireel  : Nat := 0
  treel  : Nat := 0
  land   : Nat := 0
  width  : Nat := 0
  transl : Option (Translation × List Byte) := none
  short  : Option Failure := none

/-- Counts of a resource block laid out as record bytes 0x30 to 0x3F. -/
def countsOf (bs : List Byte) (r : LaunchRec) : LaunchRec :=
  let f := field bs
  { r with vregs := f 0 2, uregs := f 2 2, scratch := f 4 4, accrows := f 8 2, tiles := f 10 1, xsums := f 11 1, pins := f 12 1 }

/-- Counts within the limits that R319 gives without steps 2 to 4 of R320; its first resource is the record's threads per block
(log 83). -/
def plainFits (r : LaunchRec) : Bool :=
  decide (r.bsize ≤ 2048 ∧ r.vregs ≤ 256 ∧ r.uregs ≤ 256 ∧ r.scratch ≤ Config.coreScratch ∧ r.accrows ≤ 1024 ∧
    r.tiles ≤ 16 ∧ r.xsums ≤ 8 ∧ r.pins ≤ 32) && bankFits r.bsize r.vAlloc

/-- A variant entry of a table that passes (R315 step 1). -/
def variantOf (r : LaunchRec) (tab : List Byte) (n : Nat) : Option (List Byte) :=
  ((List.range n).map fun i => (tab.drop (64 * i)).take 64).find? fun e =>
    decide (field e 0 1 ≤ 8) && plainFits (countsOf (e.drop 8) r)

/-- Bytes that the device itself charges to an envelope's quota: rename pool, save reserve, re-translated code (R362). -/
def State.deviceUse (s : State) (env : Nat) : Nat :=
  4096 * (s.env env).rename + (s.env env).saveres + sum ((s.sched.transls.filter (·.env == env)).map (·.size))

/-- Bytes of the pages mapped below a table of a level (R362, R381). -/
def State.mappedFrom (s : State) : Nat → Nat → Nat
  | 0, table => sum ((List.range (2 ^ levelBits 0)).map fun i =>
      match s.walkEntry (BitVec.ofNat 64 (i * 2 ^ levelShift 0)) 0 table with
      | .inl (.leaf _ log) => 2 ^ log
      | _ => 0)
  | level + 1, table => sum ((List.range (2 ^ levelBits (level + 1))).map fun i =>
      match s.walkEntry (BitVec.ofNat 64 (i * 2 ^ levelShift (level + 1))) (level + 1) table with
      | .inl (.leaf _ log) => 2 ^ log
      | .inl _ => 0
      | .inr next => s.mappedFrom level next)

/-- What is left of an envelope's quota (R319, R362). -/
def State.quotaLeft (s : State) (env : Nat) : Nat :=
  65536 * (s.env env).memquota - (s.deviceUse env + s.mappedFrom 3 (s.env env).root)

/-- The counts of a re-translation lie within the limits of R304. -/
def boundCounts (bs : List Byte) : List Byte :=
  let f := field bs
  toBytesLE 2 (8 + f 0 2 % 249) ++ toBytesLE 2 (f 2 2 % 257) ++ toBytesLE 4 (f 4 4 % (Config.spanScratch + 1)) ++
    toBytesLE 2 (f 8 2 % 1025) ++ toBytesLE 1 (f 10 1 % 17) ++ toBytesLE 1 (f 11 1 % 9) ++ toBytesLE 1 (f 12 1 % 33) ++ toBytesLE 3 0

/-- The re-translation of a loop level, given its bytes and the descriptor's: the one that its key names, or a new one
with its image (R315). -/
def State.translationOf (s : State) (env : Nat) (key : Nat × Nat × Nat) (loop d : List Byte) : Translation × Option (List Byte) :=
  match s.sched.transls.find? fun t => t.env == env && t.key == key with
  | some t => (t, none)
  | none =>
    let code := Config.translation loop d
    let len := roundUpTo (max 1 code.length) 64
    let image := code ++ List.replicate (len - code.length) 0#8 ++ Config.crossTable loop d
    let id := s.sched.transls.length
    ({ env, key, id, base := 65536 * (Config.translationPage id % 2 ^ 40), len, size := image.length
       counts := boundCounts (Config.translationCounts loop d) }, some image)

/-- The choice of code from a function descriptor (R315). The bound of a variant or of the scalar level is its end, rounded up to
a line of 64 bytes (log 83). -/
def State.chooseCode (s : State) (core env : Nat) (r : LaunchRec) (stamp fn : Nat) (d : List Byte) : Judged Chosen :=
  let f := field d
  let base : Chosen := { code := 0, bound := 0, counts := (d.drop 0x18).take 16, ireel := f 0x28 8, treel := f 0x30 8
                         land := f 0x38 4, width := f 0x3C 2 }
  let span (c off len : Nat) (counts : List Byte) : Chosen :=
    { base with code := c + off, bound := roundUpTo (c + off + len) 64, counts }
  match if f 0x58 4 = 0 then .inr [] else
      s.engineRead core env (BitVec.ofNat 64 (r.container + f 0x50 8)) (64 * f 0x58 4) with
  | .inl (va, .fault _) => .fail (badAccess va)
  | .inl (va, _) => .walk va .read
  | .inr tab =>
    match variantOf r tab (f 0x58 4) with
    | some e => .ok (span r.container (field e 0x18 8) (field e 0x20 8) ((e.drop 8).take 16))
    | none =>
      if f 0x40 8 ≠ 0 ∧ f 0x4C 1 ≤ 8 then
        match s.engineRead core env (BitVec.ofNat 64 (r.container + f 0x40 8)) (f 0x48 4) with
        | .inl (va, .fault _) => .fail (badAccess va)
        | .inl (va, _) => .walk va .read
        | .inr loop =>
          let (t, image) := s.translationOf env (r.container, fn, stamp) loop d
          let left := s.quotaLeft env
          .ok { base with code := t.base, bound := t.base + t.len, counts := t.counts, transl := image.map fun x => (t, x)
                          short := if image.isSome ∧ left < t.size then
                            some { code := 3, res := 11, field := 0x18, asked := t.size, avail := left } else none }
      else if f 0x14 1 ≤ 8 then .ok (span r.container (f 8 8) (f 0x10 4) base.counts)
      else .fail { code := 4 }

/-- The container is read and CODE names one function (check 3 of R317); then code is chosen (check 4). -/
def State.judgeCode (s : State) (core env : Nat) (r : LaunchRec) : Judged Chosen :=
  let rd (off n : Nat) : (DWord × WalkEnd) ⊕ List Byte := s.engineRead core env (BitVec.ofNat 64 (r.container + off)) n
  match rd 0 64 with
  | .inl (va, .fault _) => .fail (badAccess va)
  | .inl (va, _) => .walk va .read
  | .inr h =>
    if field h 0 4 ≠ 0x48464C31 then .fail (badField 0x18)
    else
      let n := field h 0x0C 4
      match rd (field h 0x10 8) (128 * n) with
      | .inl (va, .fault _) => .fail (badAccess va)
      | .inl (va, _) => .walk va .read
      | .inr tab =>
        let ds := (List.range n).map fun i => (i, (tab.drop (128 * i)).take 128)
        match ds.filter fun d => r.container + field d.2 8 8 == r.code with
        | [(i, d)] => s.chooseCode core env r (field h 8 4) i d
        | _ => .fail (badField 8)

/-- One count by R316: the record's, or the chosen code's; none when the record's is too small. -/
def pickCount (asked chosen limit : Nat) : Option Nat :=
  if asked = 0 then some chosen else if asked < chosen then none else if limit < asked then some chosen else some asked

/-- The record with the chosen code's counts, reels and bound (R316), or the field that fails. -/
def mergeChosen (r : LaunchRec) (c : Chosen) : LaunchRec ⊕ Failure :=
  let k := countsOf c.counts r
  let orr (x y : Nat) : Nat := if x = 0 then y else x
  match pickCount r.vregs k.vregs 256, pickCount r.uregs k.uregs 256,
    pickCount r.scratch k.scratch (if r.flag 2 then Config.spanScratch else Config.coreScratch),
    pickCount r.accrows k.accrows 1024, pickCount r.tiles k.tiles 16, pickCount r.xsums k.xsums 8, pickCount r.pins k.pins 32 with
  | some v, some u, some sc, some a, some t, some x, some p =>
    .inl { r with code := c.code, bound := c.bound, vregs := v, uregs := u, scratch := sc, accrows := a, tiles := t, xsums := x, pins := p
                  ireel := orr r.ireel c.ireel, treel := orr r.treel c.treel, landbound := orr r.landbound c.land, width := orr r.width c.width }
  | none, _, _, _, _, _, _ => .inr (badField 0x30)
  | _, none, _, _, _, _, _ => .inr (badField 0x32)
  | _, _, none, _, _, _, _ => .inr (badField 0x34)
  | _, _, _, none, _, _, _ => .inr (badField 0x38)
  | _, _, _, _, none, _, _ => .inr (badField 0x3A)
  | _, _, _, _, _, none, _ => .inr (badField 0x3B)
  | _, _, _, _, _, _, none => .inr (badField 0x3C)

/-! ## Resources (R319, R320) -/

def LaunchRec.clustered (r : LaunchRec) : Bool := r.levels.any (·.2 == 1)

/-- The lowest-numbered resource that is unmet; `short` is code memory, if that is. -/
def resourceFail (r : LaunchRec) (short : Option Failure := none) : Option Failure :=
  let f (res off asked avail : Nat) : Failure := { code := 3, res, field := off, asked, avail }
  let degrade := r.flag 1 && !r.clustered
  let most (x y z : Nat) (res off : Nat) : Bool × Failure := (decide (y < x), f res off x z)
  let threads := if degrade then 16384 else 2048
  let scr := if r.flag 2 then Config.spanScratch else Config.coreScratch
  let bank := homeCount r.bsize 0 * r.vAlloc * 4
  firstFail [most r.bsize threads threads 1 0x28, most r.vregs 256 256 2 0x30, most r.uregs 256 256 3 0x32,
    most r.scratch scr scr 4 0x34, most r.accrows 1024 1024 5 0x38, most r.tiles 16 16 6 0x3A, most r.xsums 8 8 7 0x3B,
    most r.pins 32 32 8 0x3C,
    (r.width == 4 && !r.flag 6 && r.flag 4, f 9 0x2C 4 8), (r.width == 128 && !r.flag 5 && r.flag 4, f 9 0x2C 128 64),
    (decide (24 < r.groupSize), f 10 0x40 r.groupSize 24),
    (short.isSome, short.getD (f 11 0x18 0 0)),
    (!degrade && !bankFits r.bsize r.vAlloc, f 12 0x30 bank Config.bankBytes)]

/-! ## Acceptance (R317) -/

/-- What acceptance gives a task. -/
structure Accepted where
  rec?   : List Byte
  cfg    : LaunchRec
  reads  : List (Nat × Bool × Nat)
  writes : List (Nat × Bool × Nat)
  transl : Option (Translation × List Byte) := none

/-- A failed acceptance with what is known of the launch record, and whether the task record can be read (R325). -/
structure Refused where
  f    : Failure
  cfg  : Option LaunchRec := none
  read : Bool := true

/-- Check 4 after the choice of code, and check 5: reels, bounds and funds, then resources (R317, R320, R327). A width or a number
of vector registers that the chosen code gives and R304 does not allow fails at its field (log 83). -/
def State.judgeFunds (s : State) (m : Msg) (r : LaunchRec) (short : Option Failure) : Judged LaunchRec :=
  let n := r.grid
  let own := m.src == .thread || m.src == .supervisor
  let e := s.env r.envelope
  match firstFail [
    (!([0, 4, 8, 16, 32, 64, 128].contains r.width), badField 0x2C),
    (decide (r.vregs < 8), badField 0x30),
    (r.ireel == 0, badField 0x80), (r.treel == 0, badField 0x88), (r.landbound == 0, badField 0x90),
    (own && decide (m.ifund < n * r.ireel), badField 0x80), (own && decide (m.tfund < n * r.treel), badField 0x88)] with
  | some f => .fail f
  | none =>
    if !own && decide (e.ipool < n * r.ireel ∨ e.tpool < n * r.treel) then .wait
    else match resourceFail r short with
      | some f => .fail f
      | none => .ok r

/-- Checks 3 to 5. -/
def State.judgeRest (s : State) (core : Nat) (m : Msg) (r : LaunchRec) :
    Judged (LaunchRec × Option (Translation × List Byte)) :=
  let fin (r : LaunchRec) (t : Option (Translation × List Byte)) (short : Option Failure) :
      Judged (LaunchRec × Option (Translation × List Byte)) :=
    match s.judgeFunds m r short with
    | .ok r => .ok (r, t)
    | .fail f => .fail f
    | .walk va k => .walk va k
    | .wait => .wait
  if r.container = 0 then fin r none none
  else match s.judgeCode core r.envelope r with
    | .fail f => .fail f
    | .walk va k => .walk va k
    | .wait => .wait
    | .ok c => match mergeChosen r c with
      | .inl r => fin r c.transl c.short
      | .inr f => .fail f

/-- The checks of the two sets (R329). -/
def State.judgeSets (s : State) (core : Nat) (r : LaunchRec) : Judged (List (Nat × Bool × Nat) × List (Nat × Bool × Nat)) :=
  match s.judgeSet core r.envelope r.readset r.nread 0x98 false with
  | .ok a => match s.judgeSet core r.envelope r.writeset r.nwrite 0xA0 true with
    | .ok b => .ok (a, b)
    | .fail f => .fail f
    | .walk va k => .walk va k
    | .wait => .wait
  | .fail f => .fail f
  | .walk va k => .walk va k
  | .wait => .wait

/-- All checks of an acceptance, in the order of R317. -/
def State.judge (s : State) (die : Nat) (m : Msg) : Judged (Accepted ⊕ Refused) :=
  let core := dieCore die
  let no (f : Failure) (cfg : Option LaunchRec := none) : Judged (Accepted ⊕ Refused) := .ok (.inr { f, cfg })
  let unread (f : Failure) : Judged (Accepted ⊕ Refused) := .ok (.inr { f, read := false })
  let va := BitVec.ofNat 64 m.task
  if m.task % 128 ≠ 0 then unread (badAccess va)
  else match s.engineRead core m.srcenv va 128 with
  | .inl (a, .fault _) => unread (badAccess a)
  | .inl (a, _) => .walk a .read
  | .inr tr =>
    let ra := field tr 0 8
    if ra % 64 ≠ 0 then no (badAccess (BitVec.ofNat 64 ra))
    else match s.engineRead core m.srcenv (BitVec.ofNat 64 ra) 256 with
    | .inl (a, .fault _) => no (badAccess a)
    | .inl (a, _) => .walk a .read
    | .inr bs =>
      let r := LaunchRec.ofBytes bs
      let some' := some r
      match taskRecordFail tr, recordFailLow bs r m, levelFail bs r, recordFailMid r m with
      | some f, _, _, _ => no f some'
      | none, some f, _, _ => no f some'
      | none, none, some f, _ => no f some'
      | none, none, none, some f => no f some'
      | none, none, none, none =>
        match s.judgeSets core r with
        | .fail f => no f some'
        | .walk va k => .walk va k
        | .wait => .wait
        | .ok (reads, writes) =>
          match recordFailHigh bs r with
          | some f => no f some'
          | none => match s.judgeRest core m r with
            | .fail f => no f some'
            | .walk va k => .walk va k
            | .wait => .wait
            | .ok (r, transl) => .ok (.inl { rec? := tr, cfg := r, reads, writes, transl })

/-- The next task identifier (R325). -/
def State.newId (s : State) : Nat × State :=
  let n := s.sched.nextTask
  (n, { s with sched := { s.sched with nextTask := if n + 1 = 2 ^ 32 then 1 else n + 1, accepted := s.sched.accepted + 1 } })

/-- Pools of an envelope raised, and saved blocks' reels tried again (R327, R360). -/
def State.payPools (s : State) (env i t : Nat) : State :=
  if i = 0 ∧ t = 0 then s
  else (s.modEnv env fun e => { e with ipool := min (e.ipool + i) (2 ^ 64 - 1), tpool := min (e.tpool + t) (2 ^ 64 - 1) }).refillAll

/-- A failed launch: its record, its report, its lost events, its funds (R318), all in the envelope of the message (log 83). -/
def State.failLaunch (s : State) (die : Nat) (m : Msg) (id : Nat) (x : Refused) : State :=
  let lost (s : State) : State := s.event die 0x42 m.srcenv id x.f.code (some (m.task, x.f.field + 65536 * x.f.rec?))
  let s := s.payPools m.srcenv m.ifund m.tfund
  match x.cfg with
  | none => lost s
  | some r =>
    let s := if r.faults = 0 then s
      else match s.engineWrite (dieCore die) m.srcenv (BitVec.ofNat 64 r.faults) false
          (pageSplit (BitVec.ofNat 64 r.faults) x.f.bytes) with
        | (s', none) => s'
        | (_, some _) => s
    if r.future % 16 ≠ 0 then lost s
    else s.report die m.srcenv r.future id 3 (2 ^ 56 * 3 + 2 ^ 48 * x.f.code + 2 ^ 40 * x.f.res)

/-- The lines of the first 4 KiB of a parameter block, as they stand; a line that cannot be read is left out (R312). -/
def State.paramLines (s : State) (die : Nat) (r : LaunchRec) : List StaleLine :=
  if r.param = 0 then []
  else
    let first := r.param / 128
    (List.range ((r.param + 4095) / 128 - first + 1)).filterMap fun i =>
      let va := 128 * (first + i)
      match s.engineXlate (dieCore die) r.envelope (BitVec.ofNat 64 va) .read with
      | (_, some pa) => if s.poisoned pa 128 then none
        else some { unit := 0, task := 0, pa := pa / 128, va, bytes := s.readPa pa 128 }
      | _ => none

/-- The task of an accepted message. -/
def taskOf (s : State) (die : Nat) (m : Msg) (id : Nat) (a : Accepted) (parent : Option (Nat × Nat)) : Task :=
  let f := field a.rec?
  let own := m.src == .thread || m.src == .supervisor
  { id, record := m.task, cfg := a.cfg, die
    priority := if m.src = .thread then min a.cfg.priority m.prio else a.cfg.priority
    src := m.src, srcenv := m.srcenv
    ifund := if own then m.ifund else a.cfg.grid * a.cfg.ireel
    tfund := if own then m.tfund else a.cfg.grid * a.cfg.treel
    pipe := if f 0x0C 4 % 2 = 1 then some (f 0x18 2, f 0x1A 2, f 0x10 8) else none
    after := ((List.range 4).map fun i => f (0x20 + 8 * i) 8).filter (· != 0)
    seq := s.sched.accepted
    reads := a.reads.map fun x => (x.1, x.2.2)
    writes := a.writes.map fun x => (x.1, x.2.1)
    locs := (a.reads ++ a.writes.filter fun x => !a.reads.any (·.1 == x.1)).map fun x => (x.1, x.2.2)
    parent, params := s.paramLines die a.cfg }

/-- A new translation's image stored (R315, log 4, log 51). -/
def State.storeTranslation (s : State) (t : Option (Translation × List Byte)) : State :=
  match t with
  | none => s
  | some (t, image) => { s with mem := s.mem.write (translBase + 2 ^ 33 * t.id) image
                                sched := { s.sched with transls := s.sched.transls ++ [t] } }

/-- TASKID is written; a fault drops it (R325). -/
def State.writeTaskId (s : State) (die : Nat) (m : Msg) (id : Nat) : State :=
  match s.engineWrite (dieCore die) m.srcenv (BitVec.ofNat 64 (m.task + 8)) false [toBytesLE 4 id] with
  | (s', none) => s'
  | (_, some _) => s

/-- The page that the record or the report of a failed launch has to wait for (R318, R385). -/
def State.failurePage (s : State) (die env : Nat) (cfg : Option LaunchRec) : Option DWord :=
  cfg.bind fun r =>
    (if r.faults = 0 then none else s.absentPage die env r.faults 32).or (s.reportPage die env r.future)

/-- Acceptance of a message that has been judged: identifier, TASKID, and the task or its failure. -/
def State.accept (s : State) (die : Nat) (m : Msg) (x : Accepted ⊕ Refused) (parent : Option (Nat × Nat)) : State × Nat :=
  let (id, s) := s.newId
  match x with
  | .inr r => ((if r.read then s.writeTaskId die m id else s).failLaunch die m id r, id)
  | .inl a =>
    let s := s.writeTaskId die m id
    let own := m.src == .thread || m.src == .supervisor
    let t := taskOf s die m id a parent
    let s := s.storeTranslation a.transl
    let s := if own then s else s.modEnv a.cfg.envelope fun e => { e with ipool := e.ipool - t.ifund, tpool := e.tpool - t.tfund }
    ({ s with sched := { s.sched with tasks := s.sched.tasks ++ [t] } }, id)

/-! ## Registration (R330, R331, R336) -/

/-- The entry of a tile. -/
def State.tile? (s : State) (env tile : Nat) : Option TileEntry := s.sched.tiles.find? fun e => e.env == env && e.tile == tile

def State.modTile (s : State) (env tile : Nat) (f : TileEntry → TileEntry) : State :=
  { s with sched := { s.sched with tiles := updFirst (fun e => e.env == env && e.tile == tile) f s.sched.tiles } }

/-- The newest version of an entry; version 0 is the home (R331). -/
def TileEntry.newest (e : TileEntry) : Version :=
  (e.versions.filter (!·.dropped)).getLast?.getD { n := 0, writer := 0, loc := 0, committed := true, home := true }

def TileEntry.version (e : TileEntry) (n : Nat) : Version :=
  (e.versions.find? (·.n == n)).getD { n := 0, writer := 0, loc := 0, committed := true, home := true }

def TileEntry.top (e : TileEntry) : Nat := (e.versions.map (·.n)).foldl max e.atHome

/-- How a task uses a tile (R331): whether a new version, a new buffer, the contents of V. -/
def Task.uses (t : Task) (tile : Nat) : Bool × Bool × Bool :=
  match t.writes.find? (·.1 == tile) with
  | none => (false, false, true)
  | some (_, whole) =>
    let w := whole && !t.reads.any (·.1 == tile)
    (true, w || t.cfg.versioned, !w)

/-- Rename buffers that a task's registration takes (R336). -/
def Task.buffers (t : Task) : Nat := (t.locs.filter fun x => (t.uses x.1).2.1).length

/-- Buffers of an envelope in use. -/
def State.buffersUsed (s : State) (env : Nat) : Nat := (s.sched.buffers.filter (·.2 == env)).length

/-- New table entries that a task needs on a die. -/
def State.newEntries (s : State) (t : Task) (die : Nat) : Nat :=
  (t.locs.filter fun x => s.homeOf x.2 == some (.die die) && (s.tile? t.cfg.envelope x.1).isNone).length

def State.entriesUsed (s : State) (die : Nat) : Nat :=
  (s.sched.tiles.filter fun e => s.homeOf e.homePa == some (.die die)).length

/-- The task can take every entry and buffer that it needs (R330). -/
def State.canRegister (s : State) (t : Task) : Bool :=
  (t.buffers == 0 || decide (s.buffersUsed t.cfg.envelope + t.buffers ≤ (s.env t.cfg.envelope).rename)) &&
    (List.range Config.dies).all fun d => decide (s.entriesUsed d + s.newEntries t d ≤ Config.tableEntries)

/-- The task asks for more rename buffers than its envelope's pool holds in all (R336). -/
def State.tooMany (s : State) (t : Task) : Bool := decide ((s.env t.cfg.envelope).rename < t.buffers)

/-- Such a task fails; its funds go back to the pools that they came from (R318, R327, R336). -/
def State.failTask (s : State) (t : Task) : State :=
  let m : Msg := { task := t.record, srcenv := t.srcenv, src := t.src, prio := t.priority, ifund := 0, tfund := 0 }
  let s := { s with sched := { s.sched with tasks := s.sched.tasks.filter (·.id != t.id) } }
  (s.payPools t.cfg.envelope t.ifund t.tfund).failLaunch t.die m t.id { f := badField 0xA8, cfg := some t.cfg }

/-- One tile of a registering task; its location is noted with the task: 0 for the home. -/
def State.registerTile (s : State) (t : Task) (tile homePa : Nat) : State :=
  let env := t.cfg.envelope
  let s := if (s.tile? env tile).isSome then s
    else { s with sched := { s.sched with tiles := s.sched.tiles ++ [{ env, tile, homePa }] } }
  match s.tile? env tile with
  | none => s
  | some e =>
    let v := e.newest
    let (fresh, buffer, reads) := t.uses tile
    let base := renameBase + 4096 * s.sched.nextBuf
    let s := if buffer then { s with sched := { s.sched with buffers := s.sched.buffers ++ [(base, env)], nextBuf := s.sched.nextBuf + 1 } } else s
    let loc := if buffer then base else v.loc
    let s := s.modTile env tile fun e =>
      { e with
        readers := if reads then e.readers ++ [(t.id, v.n)] else e.readers
        versions := if fresh then e.versions ++ [{ n := e.top + 1, writer := t.id, loc, home := loc == 0 }] else e.versions }
    s.modTask t.id fun t => { t with locs := t.locs.map fun x => if x.1 = tile then (tile, loc) else x }

/-- A task registers at every table it touches in one step (R330). -/
def State.register (s : State) (t : Task) : State :=
  (t.locs.foldl (fun s x => s.registerTile t x.1 x.2) s).modTask t.id fun t => { t with registered := true }

/-- The writer of a version has been killed or discarded and has not completed (R112, R337). -/
def State.writerEnding (s : State) (v : Version) : Bool := (s.task? v.writer).any (·.ending.isSome)

/-- The waits of R331 for one tile are met; no dependant of a launch that is being killed starts (R112). -/
def State.tileReady (s : State) (t : Task) (tile : Nat) : Bool :=
  match s.tile? t.cfg.envelope tile with
  | none => true
  | some e =>
    let (fresh, buffer, _) := t.uses tile
    match e.readers.find? (·.1 == t.id) with
    | none => true
    | some (_, n) =>
      (e.version n).committed && !s.writerEnding (e.version n) && (!fresh || buffer || !e.readers.any fun r => r.1 != t.id && r.2 == n)

/-- A future is full, as an AFTER wait reads it (R333). -/
def State.afterMet (s : State) (t : Task) (a : Nat) : Bool :=
  match s.engineXlate (dieCore t.die) t.cfg.envelope (BitVec.ofNat 64 a) .read with
  | (_, some pa) => a % 16 == 0 && s.futureState pa == 1
  | _ => false

/-- A registered task is ready (R333). -/
def State.isReady (s : State) (t : Task) : Bool :=
  t.registered && t.ending.isNone && t.locs.all (fun x => s.tileReady t x.1) && t.after.all (s.afterMet t)

/-- Bytes of a version's location. -/
def TileEntry.place (e : TileEntry) (loc : Nat) : Nat := if loc = 0 then e.homePa else loc

/-- The start of a task: its buffers are zero-filled, or copied from V (R331). -/
def State.startTask (s : State) (t : Task) : State :=
  let s := t.locs.foldl (fun s x =>
    match s.tile? t.cfg.envelope x.1 with
    | none => s
    | some e =>
      if (t.uses x.1).2.1 then
        match (t.uses x.1).2.2, e.readers.find? (·.1 == t.id) with
        | true, some (_, n) =>
          let src := e.place (e.version n).loc
          s.putRange x.2 0 4096 (s.mem.slice src 4096 0)
        | _, _ => s.putRange x.2 0 4096 []
      else s) s
  s.modTask t.id fun t => { t with ready := true, readyAt := s.clock.time }

/-! ## Write-back (R335) -/

/-- The newest committed version of an entry, if it can be written back now: no uncompleted task reads an older one. An
older version is passed over by it (R335, the worked example of R337). -/
def TileEntry.due (e : TileEntry) : Option Version :=
  (maxBy (·.n) (e.versions.filter fun v => v.committed && !v.dropped)).filter fun v =>
    decide (e.atHome < v.n) && e.readers.all fun r => decide (v.n ≤ r.2)

/-- The task that writes a version has not completed. -/
def State.writing (s : State) (v : Version) : Bool := s.sched.tasks.any fun t => t.id == v.writer

/-- Buffers that no version in use, no writer and no reader needs any more. -/
def State.spent (s : State) (e : TileEntry) : List Nat :=
  ((e.versions.filter fun v => v.dropped || (v.committed && decide (v.n ≤ e.atHome))).map (·.loc)).filter fun l =>
    l != 0 && !e.versions.any fun v => v.loc == l && !v.dropped &&
      (!v.committed || decide (e.atHome < v.n) || s.writing v || e.readers.any (·.2 == v.n))

/-- An entry and its buffers freed where R335 allows; the contents of a freed buffer's versions lie at home. -/
def State.tidyTile (s : State) (env tile : Nat) : State :=
  match s.tile? env tile with
  | none => s
  | some e =>
    let gone := s.spent e
    let s := { s with sched := { s.sched with buffers := s.sched.buffers.filter fun b => !gone.contains b.1 } }
    let atHome (v : Version) : Version := if gone.contains v.loc then { v with loc := 0, home := true } else v
    let s := s.modTile env tile fun e => { e with versions := e.versions.map atHome }
    let live := e.readers.length + (e.versions.filter fun v => !v.dropped && decide (e.atHome < v.n)).length
    let writing := s.sched.tasks.any fun t => t.cfg.envelope == env && t.registered && t.locs.any (·.1 == tile)
    if live = 0 ∧ !writing then
      { s with sched := { s.sched with tiles := s.sched.tiles.filter fun e => !(e.env == env && e.tile == tile) } }
    else s

/-- A version's contents are put at home. -/
def State.bringHome (s : State) (e : TileEntry) (v : Version) : State :=
  if v.loc = 0 then s else s.putRange e.homePa 0 4096 (s.mem.slice v.loc 4096 0)

/-- One write-back of an entry, if one can be made. -/
def State.writeBackTile (s : State) (env tile : Nat) : State :=
  match s.tile? env tile with
  | none => s
  | some e =>
    match e.due with
    | none => s.tidyTile env tile
    | some v => ((s.bringHome e v).modTile env tile fun e => { e with atHome := v.n }).tidyTile env tile

/-- What the writer of the version at home has stored since its trigger follows it home before its completion (R104,
R335). -/
def State.finishTile (s : State) (task env tile : Nat) : State :=
  match s.tile? env tile with
  | none => s
  | some e =>
    match e.versions.find? fun v => v.writer == task && v.n == e.atHome && v.committed && !v.dropped with
    | none => s
    | some v => s.bringHome e v

/-! ## The end of a task (R265, R327, R337, R346, R364) -/

/-- A pool after a payment in and a payment out, with what it cannot cover (R364). -/
def poolAfter (pool give need : Nat) : Nat × Nat := (min (pool + give - need) (2 ^ 64 - 1), need - (pool + give))

/-- Unspent reels and funds come back, to the envelope's pools or to the producer of an inline run (R327); the
overdrafts are first taken from them, and a shortfall from the pools (R364). -/
def State.settleReels (s : State) (t : Task) : State :=
  let bs := s.blocks.filter (·.task == t.id)
  let i := t.ifund + sum (bs.map (·.regs.ireel.toNat))
  let n := t.tfund + sum (bs.map (·.regs.treel.toNat))
  let io := sum (bs.map (·.regs.iover.toNat))
  let to' := sum (bs.map (·.regs.tover.toNat))
  let reel (r : DWord) (d : Nat) : DWord := BitVec.ofNat 64 (min (r.toNat + d) (2 ^ 64 - 1))
  let (s, gi, gn) : State × Nat × Nat := match t.parent with
    | some (p, _) =>
      (s.modBlock p fun b => { b with regs := { b.regs with
        ireel := reel b.regs.ireel (i - io), treel := reel b.regs.treel (n - to') } }, 0, 0)
    | none => (s, i - io, n - to')
  (s.modEnv t.cfg.envelope fun e =>
    let pi := poolAfter e.ipool gi (io - i)
    let pn := poolAfter e.tpool gn (to' - n)
    { e with ipool := pi.1, tpool := pn.1, debt := e.debt + pi.2 + pn.2 }).refillAll

/-- The value of a task's report, and its KIND (R346). -/
def Task.reportValue (t : Task) : Nat × Nat :=
  let v := t.cfg.versioned
  match t.ending with
  | none => (1, 2 ^ 56 * 1 + min t.retired (2 ^ 32 - 1))
  | some (.kill c) => if v then (4, 2 ^ 56 * 4 + t.id) else (2, 2 ^ 56 * 2 + 2 ^ 48 * c + min t.retired (2 ^ 32 - 1))
  | some (.context c) => if v then (4, 2 ^ 56 * 4 + 2 ^ 48 * c + t.id) else (2, 2 ^ 56 * 2 + 2 ^ 48 * c + min t.retired (2 ^ 32 - 1))
  | some (.discard c id) => (4, 2 ^ 56 * 4 + 2 ^ 48 * c + id)

/-- A task that has not started waits for a version or for the end of another task (R331, R337). -/
def State.waitsFor (s : State) (t x : Task) : Bool :=
  !t.ready && t.registered && t.ending.isNone && t.locs.any fun l =>
    match s.tile? t.cfg.envelope l.1 with
    | none => false
    | some e =>
      let (fresh, buffer, _) := t.uses l.1
      match e.readers.find? (·.1 == t.id) with
      | none => false
      | some (_, n) =>
        let v := e.version n
        v.writer == x.id || (fresh && !buffer && e.readers.any fun r => r.1 == x.id && r.2 == n)

/-- Those that wait for a task that has been killed or discarded are discarded before they start; each report names the
task that it waited for (R337, log 77). -/
def State.cascade (s : State) (x : Task) : State :=
  let tasks := s.sched.tasks.map fun t => if s.waitsFor t x then { t with ending := some (.discard 0 x.id) } else t
  { s with sched := { s.sched with tasks } }

/-- The versions of an ended task: dropped when it is discarded, else committed (R332, R337). -/
def State.endVersions (s : State) (t : Task) : State :=
  let drop := t.ending.isSome && (t.cfg.versioned || match t.ending with
    | some (.discard _ _) => true
    | _ => false)
  let ver (v : Version) : Version :=
    if v.writer = t.id then (if drop then { v with dropped := true } else { v with committed := true }) else v
  let tiles := s.sched.tiles.map fun e =>
    if e.env = t.cfg.envelope then
      { e with readers := e.readers.filter (·.1 != t.id), versions := e.versions.map ver }
    else e
  let s := { s with sched := { s.sched with tiles } }
  t.locs.foldl (fun s x => (s.finishTile t.id t.cfg.envelope x.1).writeBackTile t.cfg.envelope x.1) s

/-- A child of the task that runs inline has not completed (R188). -/
def State.hasChild (s : State) (t : Task) : Bool :=
  s.sched.tasks.any fun c => c.parent.any fun p => s.blocks.any fun b => b.id == p.1 && b.task == t.id

/-- Everything that completion waits for is done (R112, R265). -/
def State.canComplete (s : State) (t : Task) : Bool :=
  let bs := s.blocks.filter (·.task == t.id)
  bs.all (fun b => b.ended && b.acks.isEmpty && b.records.isEmpty) && !s.hasChild t && !(s.eng.copies.any (·.task == t.id)) &&
    (t.ending.isSome || decide (t.ready ∧ t.cfg.grid ≤ t.done.length))

/-- The producer of an inline run is restored; its thread goes on after the TSPAWN (R188). -/
def State.restoreProducer (s : State) (p tid : Nat) : State :=
  let s := s.modBlock p fun b =>
    { b with inline := none, saved := b.saved.map fun k => { k with kind := 2, spawn := b.inline.map fun x => (tid, x.2) } }
  match s.block? p with
  | none => s
  | some b => if b.ended then s else s.restoreOn b b.place.core

/-- The end of a task: its children's producer comes back, versions, reels, the report, and its records go. -/
def State.complete (s : State) (t : Task) : State :=
  let s := if t.ending.isSome then s.cascade t else s
  let s := { s with sched := { s.sched with tasks := s.sched.tasks.filter (·.id != t.id) } }
  let s := s.endVersions t
  let s := s.settleReels t
  let (kind, value) := t.reportValue
  let s := s.report t.die t.cfg.envelope t.cfg.future t.id kind value
  let s := { s with blocks := s.blocks.filter (·.task != t.id) }
  match t.parent with
  | none => s
  | some (p, tid) =>
    s.restoreProducer p tid

/-! ## Blocks (R235, R309) -/

/-- A block as it is first placed. -/
def newBlock (s : State) (t : Task) (bid depth : Nat) : Block :=
  let r := t.cfg
  -- an inline child's limit is its producer's (R41)
  let inlmax := (((t.parent.bind fun p => s.block? p.1).map (·.regs.inlmax))).getD 8#32
  { id := s.sched.nextBlk, task := t.id, bid, cfg := r
    place := { request := r.width, dflt := 32 }
    regs := { ireel := BitVec.ofNat 64 r.ireel, treel := BitVec.ofNat 64 r.treel, inldepth := BitVec.ofNat 32 depth, inlmax }
    threads := (List.range r.bsize).map fun i => newThread r bid i r.vAlloc
    uregs := List.replicate r.uAlloc {}
    xs := List.replicate 8 {}
    trap := { tvec := BitVec.ofNat 64 r.tvec, tsave := BitVec.ofNat 64 r.tsave } }

/-- The parameter block fills the first 4 KiB of the core's constant cache, as it stood at the acceptance (R312). -/
def State.fillParam (s : State) (t : Task) (core : Nat) : State :=
  t.params.foldl (fun s l =>
    if s.eng.consts.any fun x => x.unit == core && x.task == t.id && x.pa == l.pa then s
    else { s with eng := { s.eng with consts := addLine Config.constLines { l with unit := core, task := t.id } s.eng.consts } }) s

/-- %inldepth of a task's blocks (R188). -/
def State.depthOf (s : State) (t : Task) : Nat :=
  match t.parent.bind fun p => s.block? p.1 with
  | some b => b.regs.inldepth.toNat + 1
  | none => 0

/-- The next block of a task is created and placed on a core; its reels come out of the task's funds. -/
def State.placeBlock (s : State) (t : Task) (bid core : Nat) : Option State :=
  (s.roomFor core t.cfg).map fun (s, plan) =>
    let b := newBlock s t bid (s.depthOf t)
    let b := if b.cfg.partial? then { b with out := b.outGroups [] [] } else b
    let s := { s with blocks := s.blocks ++ [b], sched := { s.sched with nextBlk := s.sched.nextBlk + 1 } }
    let s := (s.occupy b core plan true).fillParam t core
    (s.modTask t.id fun t => { t with next := bid + 1, ifund := t.ifund - t.cfg.ireel, tfund := t.tfund - t.cfg.treel }).refreshCore core

/-- A unit of blocks placed on the cores of one cluster, each on the first with room. -/
def State.placeUnit (s : State) (t : Task) (cores : List Nat) : List Nat → Option State
  | [] => some s
  | bid :: rest =>
    match cores.find? fun c => (s.roomFor c t.cfg).isSome with
    | none => none
    | some c => match s.placeBlock t bid c with
      | none => none
      | some s => s.placeUnit t cores rest

/-- The save reserve has room for a task's blocks with CSAVE 0 (R356). -/
def State.reserveFits (s : State) (r : LaunchRec) (n : Nat) : Bool :=
  r.csave != 0 || decide (sum ((s.blocks.filter fun b => b.cfg.csave == 0 && b.cfg.envelope == r.envelope && !b.ended).map
    (·.cfg.levelBytes)) + n * r.levelBytes ≤ (s.env r.envelope).saveres)

end Sys2Proof.Machine
end

