-- ==== Sys2Proof/Machine/Objects.lean ====
section
/-! DEFINITION. Group 101: copies, the fetch unit, futures, mailboxes, spawned tasks, barrier records (R178
to R191, R342 to R345), and what a woken thread does (R174, R176). -/

namespace Sys2Proof.Machine

/-! ## Copies -/

/-- The home of an address as the ordering of an ACOPY's issue needs it: off the die, or elsewhere (R263). -/
def State.wideHome (s : State) (b : Block) (va : DWord) : Bool :=
  match (s.quietPa b va).bind s.homeOf with
  | some (.die n) => n != b.die
  | some .host | some (.package _) => true
  | _ => false

/-- Some page of a range has its home off the die, or elsewhere (R263). -/
def State.wideSpan (s : State) (b : Block) (va : DWord) (len : Nat) : Bool :=
  decide (0 < len) && (List.range ((va.toNat % 65536 + len + 65535) / 65536)).any fun k =>
    s.wideHome b (if k = 0 then va else BitVec.ofNat 64 (va.toNat / 65536 * 65536 + 65536 * k))

/-- ACOPY for one thread: the checks of R178, the addition to the record, the copy. -/
def State.acopyAct (c : Ctx) (s : State) (x : Nat × Nat) : State × Fate :=
  let w := c.w
  let th := c.b.th x.2
  let r (n : Nat) : DWord := BitVec.ofNat 64 (th.reg n 2)
  let src := r w.a.toNat
  let dst := r (w.a.toNat + 2)
  let len := th.reg w.b.toNat 1
  let rec' := r (w.b.toNat + 2)
  let kind := w.modF 3 2
  let high (a : DWord) : Bool := a.toNat / 2 ^ 32 != 0
  let trap (t : TrapInfo) : State × Fate := (s, .trap t)
  let notCanon (a : DWord) (write : Bool) : Fate := .trap { cause := .accessViolation, addr := a, write, size := len, extra := 1#64 }
  let beyond (a : DWord) (write : Bool) : Fate :=
    let space := if c.b.localScratch ≤ a.toNat ∧ a.toNat < c.b.cfg.scratchAlloc then 5 else 1
    .trap { cause := .scratchBounds, addr := a, write, size := len, space, extra := BitVec.ofNat 64 c.b.cfg.scratch }
  let outside (a : DWord) : Bool := decide (c.b.cfg.scratch < a.toNat + len)
  if th.reg (w.b.toNat + 1) 1 ≠ 0 ∨ (kind = 2 ∧ high src) ∨ (kind = 1 ∧ high dst) then trap { cause := .reservedField }
  else if kind ≠ 2 ∧ !canonical src then (s, notCanon src false)
  else if kind ≠ 1 ∧ !canonical dst then (s, notCanon dst true)
  else if rec' ≠ 0#64 ∧ !canonical rec' then (s, .trap { cause := .accessViolation, addr := rec', write := true, size := 16, extra := 1#64 })
  else if rec' ≠ 0#64 ∧ rec'.toNat % 16 ≠ 0 then trap { cause := .misaligned, addr := rec', write := true, size := 16, extra := 16#64 }
  else if kind = 2 ∧ outside src then (s, beyond src false)
  else if kind = 1 ∧ outside dst then (s, beyond dst true)
  else if !c.b.acks.isEmpty && ((kind != 2 && s.wideSpan c.b src len) || (kind != 1 && s.wideSpan c.b dst len)) then (s, .stay)
  else
    let beats := (len + 63) / 64
    let r := if rec' = 0#64 then (s, none) else
      match s.reach c.b x.2 rec' 16 16 .atomic with
      | (s, .no f) => (s, some f)
      | (s, .pa pa) =>
        let n := s.valPa (pa + 12) 4 + beats
        if 2 ^ 32 ≤ n then (s, some .stay) else (s.putPa (pa + 12) 4 n, none)
    match r with
    | (s, some f) => (s, f)
    | (s, none) =>
      if len = 0 then (s, .done (wrV w.d.toNat 2 s.clock.time) 0)
      else
        let (d, s) := s.free Config.promise
        let t := s.clock.time + d
        let q := w.modF 0 3
        let after := ((th.fences.filter fun f => f.1.testBit q).map (·.2)).flatten
        let k : Copy := { id := s.eng.nextCopy, blk := c.iss.blk, task := c.b.task, env := c.b.cfg.envelope, tid := x.2, pc := c.pc
                          queue := q, unit := c.b.cluster, kind, src, dst, len, beats, record := rec', promise := some t, after }
        ({ s with eng := { s.eng with copies := s.eng.copies ++ [k], nextCopy := s.eng.nextCopy + 1 } }, .done (wrV w.d.toNat 2 t) len)

def execAcopy (w : CWord) (s : State) : Host.Outcome State Fault Refusal :=
  .next (s.runMem 0x280 w false 0 State.acopyAct)

/-- The thread's own copies on masked queues (R181). -/
def State.ownCopies (s : State) (blk tid mask : Nat) : List Nat :=
  (s.eng.copies.filter fun k => k.blk == blk && k.tid == tid && mask.testBit k.queue).map (·.id)

def execAqfence (w : CWord) (s : State) : Host.Outcome State Fault Refusal :=
  .next (s.runIssue 0x281 w fun c s =>
    let mask := bits w.imm 0 8
    s.eachOf c.on fun s x =>
      let own := s.ownCopies c.iss.blk x.2 mask
      if w.modF 0 1 = 1 then (s, if own.isEmpty then .done else .stay)
      else if own.isEmpty then (s, .done)
      else (s.modTh c.iss.blk x.2 fun th => { th with fences := th.fences ++ [(mask, own)] }, .done))

/-! ## The fetch unit (R182 to R184) -/

/-- A descriptor. -/
structure Desc where
  base   : Nat
  side   : Nat
  width  : Nat
  height : Nat
  pitch  : Nat
  /-- The format; none for pal4. -/
  ty     : Option Ty
  edge   : Nat
  deriving DecidableEq, Repr

/-- The element format of a scaled form. -/
def unscaled : Ty → Option Ty
  | .e2m1x8 => some .e2m1 | .e2m3x8 => some .e2m3 | .e3m2x8 => some .e3m2 | .e4m3x8 => some .e4m3
  | .e5m2x8 => some .e5m2 | .i8x8 => some .i8 | _ => none

/-- Bits of an element of a format in memory (R14, R16). -/
def memBits (t : Ty) : Nat :=
  match t with
  | .i4 | .n4 | .e2m1 | .e2m1x8 => 4
  | .e2m3 | .e3m2 | .e4m3 | .e5m2 | .e2m3x8 | .e3m2x8 | .e4m3x8 | .e5m2x8 | .i8x8 => 8
  | t => t.bits

/-- Bits of one element: 4 for pal4. -/
def Desc.bits (d : Desc) : Nat := (d.ty.map memBits).getD 4

/-- Bytes of a row of the element plane: whole blocks for a scaled form. -/
def Desc.rowBytes (d : Desc) : Nat :=
  let n := if (d.ty.bind unscaled).isSome then roundUpTo d.width 8 else d.width
  (n * d.bits + 7) / 8

/-- A descriptor's bytes; none with any other value (R182). -/
def Desc.ofBytes (bs : List Byte) : Option Desc :=
  let f := field bs
  let code := f 0x1C 1
  let ty := if code < 64 then Ty.ofCode (BitVec.ofNat 6 code) else none
  let okTy := code == 0x30 || match ty with
    | none | some .untyped | some .b128 | some .f16x2 | some .bf16x2 => false
    | some _ => true
  let d : Desc := { base := f 0 8, side := f 8 8, width := f 0x10 4, height := f 0x14 4, pitch := f 0x18 4
                    ty := if code = 0x30 then none else ty, edge := f 0x1D 1 }
  let sided := d.ty.isNone || (d.ty.bind unscaled).isSome
  if okTy && decide (1 ≤ d.width ∧ d.width ≤ 2 ^ 24 ∧ 1 ≤ d.height ∧ d.height ≤ 2 ^ 24 ∧ d.edge ≤ 2) &&
      f 0x1E 34 == 0 && (sided || d.side == 0) && decide (d.rowBytes ≤ d.pitch) then some d else none

/-- A range of bytes through the cluster's fetch unit, with the checks of R162. -/
def State.unitRead (s : State) (b : Block) (tid : Nat) (va : DWord) (n align : Nat) : State × (Fate ⊕ List Byte) :=
  match s.locateSpan b tid .read n align (pieces va n) with
  | (s, .inl f) => (s, .inl f)
  | (s, .inr ps) =>
    ps.foldl (fun (a : State × (Fate ⊕ List Byte)) p =>
      match a with
      | (s, .inl f) => (s, .inl f)
      | (s, .inr bs) => match s.consume b va p.1 p.2 false with
        | (s, .no f) => (s, .inl f)
        | (s, .pa pa) =>
          let (s, x) := s.staleRead false b.cluster b.task (va.toNat + bs.length) pa p.2
          (s, .inr (bs ++ x))) (s, .inr [])

/-- The code of an element in the bytes that hold it. -/
def nibbleOr (bits i : Nat) (bs : List Byte) : Nat := if bits = 4 then ofBytesLE bs / 16 ^ (i % 2) % 16 else ofBytesLE bs

/-- The value of an element, for a result type (R26, R183): a free value for a raw pair that R26 does not
list; `src` none is a palette code. -/
def elemResult (t : Ty) (src : Option Ty) (code : Nat) (scale : Option Nat) : Nat :=
  -- bits [7:6] of a 6-bit element are ignored (R14)
  let code := match src.bind fmtOf with
    | some f => code % 2 ^ f.width
    | none => code
  match t with
  | .b32 | .b64 => code
  | _ =>
    let out (x : Fp) : Nat := cvtFloat (fmt t) .rn 0 false false x
    match src with
    | none => out (Fmt.f16.decode code)
    | some e =>
      if e = .b8 ∨ e = .b16 ∨ e = .b32 ∨ e = .b64 then
        (if e.bits = t.bits then code else Config.rawElement e.code.toNat t.code.toNat code % 2 ^ t.bits)
      else
        let e' := (unscaled e).getD e
        let v : Fp := match fmtOf e' with
          | some f => f.decode code
          | none => Fp.ofInt (valOf e' code)
        match scale with
        | none => out v
        | some k => out (if k = 0xFF then .nan else v.scale ((k : Int) - 127))

/-- FETCH for one thread. An element wider than the type traps before an edge, and nothing but the handle must be
aligned (log 72). -/
def State.fetchAct (c : Ctx) (s : State) (x : Nat × Nat) : State × Fate :=
  let w := c.w
  let handle := BitVec.ofNat 64 (c.rb.ureg w.a.toNat)
  let th := c.b.th x.2
  let res (v : Nat) : Fate := .done (wrV w.d.toNat w.ty.regs v) (4 * w.ty.regs)
  let bad : Fate := .trap { cause := .reservedField, addr := handle }
  match s.unitRead c.b x.2 handle 64 64 with
  | (s, .inl f) => (s, f)
  | (s, .inr bs) =>
    match Desc.ofBytes bs with
    | none => (s, bad)
    | some d =>
      let px := th.reg w.b.toNat 1
      let py := th.reg (w.b.toNat + 1) 1
      let out := decide (d.width ≤ px ∨ d.height ≤ py)
      let raw := w.ty == .b32 || w.ty == .b64
      if raw && decide (w.ty.bits < (if d.ty.isNone then 16 else d.bits)) then (s, bad)
      else if out && d.edge == 2 then (s, .trap { cause := .accessViolation, addr := handle })
      else if out && d.edge == 0 then (s, res 0)
      else
        let ex := min px (d.width - 1)
        let ey := min py (d.height - 1)
        let n := max 1 (d.bits / 8)
        let va := BitVec.ofNat 64 (d.base + ey * d.pitch + ex * d.bits / 8)
        match s.unitRead c.b x.2 va n 1 with
        | (s, .inl f) => (s, f)
        | (s, .inr eb) =>
          let code := nibbleOr d.bits ex eb
          match d.ty with
          | none =>
            match s.unitRead c.b x.2 (BitVec.ofNat 64 (d.side + 2 * code)) 2 1 with
            | (s, .inl f) => (s, f)
            | (s, .inr pb) => (s, res (elemResult w.ty none (ofBytesLE pb) none))
          | some t =>
            if (unscaled t).isSome && !raw then
              match s.unitRead c.b x.2 (BitVec.ofNat 64 (d.side + ey * ((d.width + 7) / 8) + ex / 8)) 1 1 with
              | (s, .inl f) => (s, f)
              | (s, .inr kb) => (s, res (elemResult w.ty (some t) code (some (ofBytesLE kb))))
            else (s, res (elemResult w.ty (some t) code none))

def execFetch (w : CWord) (s : State) : Host.Outcome State Fault Refusal :=
  .next (s.runMem 0x282 w false 0 State.fetchAct)

/-! ## Futures (R186, R345) -/

/-- The address of an object: the pair of field A. -/
def Ctx.objAddr (c : Ctx) (tid : Nat) : DWord := BitVec.ofNat 64 ((c.b.th tid).reg c.w.a.toNat 2)

/-- The result predicate's number (R185). -/
def Ctx.resP (c : Ctx) : Nat := bits c.w.imm 0 3

/-- A trap of an object instruction that finds the object's fields not as they may be (R186, R343). -/
def objectFault (va : DWord) (size : Nat) : Fate := .trap { cause := .accessViolation, addr := va, write := true, size }

/-- A count of waiters in memory rises by one, stopping at 0xFFFF (R342, R345). -/
def State.addWaiter (s : State) (pa : Nat) : State :=
  let n := s.valPa pa 2
  if n = 65535 then s else s.putPa pa 2 (n + 1)

/-- A future reached by a thread: its physical address, its fields accepted (R162, R186). An operation that changes
it acts on memory directly (R334). -/
def State.reachFuture (s : State) (c : Ctx) (tid : Nat) (va : DWord) (k : Kind) : State × (Fate ⊕ Nat) :=
  match s.reach c.b tid va 16 16 k (k == .atomic) with
  | (s, .no f) => (s, .inl f)
  | (s, .pa pa) => if s.futureOk pa then (s, .inr pa) else (s, .inl (objectFault va 16))

def execFput (w : CWord) (s : State) : Host.Outcome State Fault Refusal :=
  .next (s.runMem 0x283 w true (w.modF 1 3) fun c s x =>
    match s.reachFuture c x.2 (c.objAddr x.2) .atomic with
    | (s, .inl f) => (s, f)
    | (s, .inr pa) =>
      if s.futureState pa = 1 then
        (s.noteWrite c.b x.2 (c.objAddr x.2) pa, if w.modF 0 1 = 1 then .trap { cause := .futureDouble, addr := c.objAddr x.2, write := true, size := 16 }
          else .done [.p c.resP false] 16)
      else
        let s := s.fillFuture pa ((c.b.th x.2).reg w.b.toNat 2)
        (s.noteWrite c.b x.2 (c.objAddr x.2) pa, .done [.p c.resP true] 16))

/-- A full future is read, and with .take emptied, its generation advanced. -/
def State.takeFuture (s : State) (pa : Nat) (take : Bool) : State × Nat :=
  (if take then (s.putPa (pa + 8) 1 0).putPa (pa + 12) 4 (s.valPa (pa + 12) 4 + 1) else s, s.valPa pa 8)

/-- The access of a .take form is a write access, whatever it finds (R165). -/
def State.noteTake (s : State) (c : Ctx) (tid : Nat) (va : DWord) (pa : Nat) (take : Bool) : State :=
  if take then s.noteWrite c.b tid va pa else s

/-- The address that an instruction which stands to make its check again read at its issue (R46). -/
def addrOf (old : Option Parked) (va : DWord) : DWord := (old.map (·.va)).getD va

/-- The thread comes into the table or starts to poll: it is counted as a waiter (R342, R345). -/
def enters (old : Option Parked) : Bool := old.all (·.away)

/-- FGET for one thread. -/
def State.fgetAct (old : Option Parked) (c : Ctx) (s : State) (x : Nat × Nat) : State × Fate :=
  let take := c.w.modF 0 1 == 1
  let va := addrOf old (c.objAddr x.2)
  match s.reachFuture c x.2 va (if take then .atomic else .read) with
  | (s, .inl f) => (s, f)
  | (s, .inr pa) =>
    if s.futureState pa = 1 then
      let (s, v) := s.takeFuture pa take
      (s.noteTake c x.2 va pa take, .done (wrV c.w.d.toNat 2 v) 16)
    else
      let s := if old.isNone then s.noteTake c x.2 va pa take else s
      (if enters old then s.addWaiter (pa + 10) else s).park c x.2 old { kind := .fget, va, pa }

def execFget (w : CWord) (s : State) : Host.Outcome State Fault Refusal :=
  .next (s.runMem 0x284 w false 0 (State.fgetAct none))

def execFtry (w : CWord) (s : State) : Host.Outcome State Fault Refusal :=
  .next (s.runMem 0x285 w false 0 fun c s x =>
    let take := w.modF 0 1 == 1
    match s.reachFuture c x.2 (c.objAddr x.2) (if take then .atomic else .read) with
    | (s, .inl f) => (s, f)
    | (s, .inr pa) =>
      let full := s.futureState pa == 1
      let (s', v) := s.takeFuture pa take
      let t := (if full then s' else s).noteTake c x.2 (c.objAddr x.2) pa take
      (t, .done (.p c.resP full :: if full then wrV w.d.toNat 2 v else []) 16))

/-! ## Mailboxes (R187, R342 to R344) -/

def State.mbHead (s : State) (pa : Nat) : Nat := s.valPa pa 8
def State.mbTail (s : State) (pa : Nat) : Nat := s.valPa (pa + 8) 8
def State.mbCap (s : State) (pa : Nat) : Nat := 2 ^ s.valPa (pa + 0x10) 1
/-- Messages in the ring. -/
def State.mbUsed (s : State) (pa : Nat) : Nat := (s.mbTail pa + 2 ^ 64 - s.mbHead pa) % 2 ^ 64

/-- A header that an object instruction accepts, of a KIND (R343). -/
def State.mbOk (s : State) (pa kind : Nat) : Bool :=
  decide (s.valPa (pa + 0x10) 1 ≤ 16) && s.valPa (pa + 0x11) 1 == kind && s.valPa (pa + 0x1A) 38 == 0 &&
    decide (s.mbUsed pa ≤ s.mbCap pa)

/-- The address of the slot of a message number, from the header's (R342). -/
def slotOf (header n cap : Nat) : Nat := header + 64 + 64 * (n % cap)

/-- The right of an envelope to a mailbox, or the address of its capability table at which the check cannot be made: a page to
be serviced first, or an uncorrectable error at a physical address (R344, R385, R414). -/
def State.hasRight (s : State) (core env : Nat) (va : DWord) (pa : Nat) (recv : Bool) : (DWord × Option Nat) ⊕ Bool :=
  if s.valPa (pa + 0x14) 2 = env then .inr true
  else
    let e := s.env env
    match if e.capn = 0 then .inr [] else s.engineRead core env (BitVec.ofNat 64 e.captab) (8 * min e.capn 1024) with
    | .inl (a, .replay _) => .inl (a, none)
    | .inl (a, .fault t) => if t.cause = .uncorrectedData then .inl (a, some t.extra.toNat) else .inr false
    | .inl _ => .inr false
    | .inr bs => .inr <| (List.range (min e.capn 1024)).any fun i =>
        let x := field bs (8 * i) 8
        decide (x / 64 = va.toNat / 64 ∧ x / 4 % 16 = 0) && x.testBit (if recv then 1 else 0)

/-- A mailbox reached by a thread: its physical address, with the right and an accepted header (R162, R343,
R344). -/
def State.reachMailbox (s : State) (c : Ctx) (tid : Nat) (va : DWord) (k : Kind) (kind : Nat) (recv : Bool) :
    State × (Fate ⊕ Nat) :=
  match s.locate c.b tid va 64 64 k true with
  | (s, .no f) => (s, .inl f)
  | (s, .pa pa) =>
    match s.hasRight c.b.place.core c.b.cfg.envelope va pa recv with
    | .inl (a, some epa) =>
      (s.uncorrected c.b.die epa c.b.task c.b.cfg.envelope 0,
        .inl (.trap { cause := .uncorrectedData, addr := a, write := true, size := 64 }))
    | .inl (a, none) =>
      match (c.b.th tid).faultAt (bits a 16 41) with
      | some t => (s, .inl (.trap { t with addr := a, write := true, size := 64 }))
      | none =>
        let (s, w) := s.startWalk c.b.die c.b.cfg.envelope a .read
        (s, .inl (.stall w))
    | .inr false => (s, .inl (.trap { cause := .mailboxCap, addr := va, write := true, size := 64 }))
    | .inr true => match s.letIn c.b tid va pa 64 .atomic with
      | (s, .no f) => (s, .inl f)
      | (s, .pa pa) => if s.mbOk pa kind then (s, .inr pa) else (s, .inl (objectFault va 64))

/-- The checks of a message instruction that come before translation: the header's address, the scratch
message's (R162). -/
def Ctx.messageFault (c : Ctx) (va : DWord) (off : Nat) (write : Bool) : Option TrapInfo :=
  if !canonical va then some { cause := .accessViolation, addr := va, write := true, size := 64, extra := 1#64 }
  else if va.toNat % 64 ≠ 0 then some { cause := .misaligned, addr := va, write := true, size := 64, extra := 64#64 }
  else scratchFault c.b off 64 64 write

/-- The scratchpad offset of a message. -/
def Ctx.msgOff (c : Ctx) (tid : Nat) : Nat := (c.b.th tid).reg c.w.b.toNat 1

/-- MBSEND for one thread. -/
def State.mbsendAct (c : Ctx) (s : State) (x : Nat × Nat) : State × Fate :=
  let va := c.objAddr x.2
  let off := c.msgOff x.2
  match c.messageFault va off false with
  | some t => (s, .trap t)
  | none =>
    match s.reachMailbox c x.2 va .atomic 0 false with
    | (s, .inl f) => (s, f)
    | (s, .inr pa) =>
      if s.mbCap pa ≤ s.mbUsed pa then (s.noteWrite c.b x.2 va pa, .done [.p c.resP false] 64)
      else if decide (3 ≤ c.w.modF 1 3) && !c.b.acks.isEmpty then (s, .again)
      else
        let slot := BitVec.ofNat 64 (slotOf va.toNat (s.mbTail pa) (s.mbCap pa))
        match s.reach c.b x.2 slot 64 64 .write true with
        | (s, .no f) => (s, f)
        | (s, .pa spa) =>
          match s.scratchConsume c.b c.iss.blk off 64 (BitVec.ofNat 64 off) with
          | (s, some t) => (s, .trap t)
          | (s, none) =>
          let s := s.writePa spa (c.b.scratch.read off 64)
          let s := (s.putPa (pa + 8) 8 (s.mbTail pa + 1)).noteWrite c.b x.2 va pa [] [spa / 128]
          (s.wake fun q => q.kind == .mbrecv && q.pa == pa, .done [.p c.resP true] 64)

def execMbsend (w : CWord) (s : State) : Host.Outcome State Fault Refusal :=
  .next (s.runMem 0x286 w false 0 State.mbsendAct)

/-- MBRECV for one thread. -/
def State.mbrecvAct (old : Option Parked) (c : Ctx) (s : State) (x : Nat × Nat) : State × Fate :=
  let va := addrOf old (c.objAddr x.2)
  let off := (old.map (·.arg.toNat)).getD (c.msgOff x.2)
  match c.messageFault va off true with
  | some t => (s, .trap t)
  | none =>
    match s.reachMailbox c x.2 va .atomic 0 true with
    | (s, .inl f) => (s, f)
    | (s, .inr pa) =>
      if s.mbUsed pa = 0 then
        let s := if old.isNone then s.noteWrite c.b x.2 va pa else s
        if c.w.modF 0 1 = 1 then (s, .done [.p c.resP false] 64)
        else (if enters old then s.addWaiter (pa + 0x16) else s).park c x.2 old
          { kind := .mbrecv, va, pa, arg := BitVec.ofNat 64 off }
      else
        let slot := BitVec.ofNat 64 (slotOf va.toNat (s.mbHead pa) (s.mbCap pa))
        match s.reach c.b x.2 slot 64 64 .read true with
        | (s, .no f) => (s, f)
        | (s, .pa spa) =>
          let s := s.scratchWrite c.iss.blk off (s.readPa spa 64)
          ((s.putPa pa 8 (s.mbHead pa + 1)).noteWrite c.b x.2 va pa, .done [.p c.resP true] 64)

def execMbrecv (w : CWord) (s : State) : Host.Outcome State Fault Refusal :=
  .next (s.runMem 0x287 w false 0 (State.mbrecvAct none))

/-! ## TSPAWN (R188, R327) -/

/-- The portions that a spawning thread moves, or what it traps with (R327). -/
def State.movePortions (s : State) (b : Block) (i t : Nat) : State ⊕ Cause :=
  if b.cfg.super then
    let e := s.env b.cfg.envelope
    if e.ipool < i ∨ e.tpool < t then .inr .envelopeQuota
    else .inl (s.modEnv e.id fun e => { e with ipool := e.ipool - i, tpool := e.tpool - t })
  else
    let ir := ((s.block? b.id).map (·.regs.ireel.toNat)).getD 0
    let tr := ((s.block? b.id).map (·.regs.treel.toNat)).getD 0
    if ir < i ∨ tr < t then .inr .reelOverdraft
    else
      let iOut := decide (0 < i ∧ ir = i)
      let tOut := decide (0 < t ∧ tr = t)
      let s := s.modBlock b.id fun b =>
        let b := { b with regs := { b.regs with ireel := BitVec.ofNat 64 (ir - i), treel := BitVec.ofNat 64 (tr - t) } }
        if iOut || tOut then b.makeDue iOut tOut false s.clock.time else b
      .inl (if (iOut || tOut) && b.due.isNone then s.recallGroup ((s.block? b.id).getD b) else s)

/-- The message that a thread's TSPAWN sends. -/
def spawnMsg (b : Block) (prio : Nat) (record : DWord) (i t : Nat) : Msg :=
  { task := record.toNat, srcenv := b.cfg.envelope, src := if b.cfg.super then .supervisor else .thread, prio, ifund := i, tfund := t }

/-- What an inline run of a child comes to: it failed, it starts, it is not ready at once, a trap, or a page
is missing. -/
inductive Inline where
  | failed (s : State)
  | started (s : State)
  | trap (c : Cause)
  | notReady
  | stall (s : State) (walk : Nat)

/-- RunInline up to the save (R188, R333): the child is accepted, registered and ready at once; then the portions
move (R327). A child with empty sets registers whatever waits (R330). -/
def State.runInline (s : State) (b : Block) (tid p : Nat) (m : Msg) : Inline :=
  let stall (s : State) (va : DWord) (k : Kind) : Inline :=
    let (s, w) := s.startWalk b.die b.cfg.envelope va k
    .stall s w
  match s.destPas b.saveDest .write (b.saveDest.cuts 0 b.cfg.saveBytes) with
  | .inl (va, .replay _) => stall s va .write
  | _ =>
    match s.judge b.die m with
    | .walk va k => stall s va k
    | .wait | .fail _ => .notReady
    | .ok (.inr r) =>
      match s.failurePage b.die m.srcenv r.cfg with
      | some va => stall s va .write
      | none => .failed (s.accept b.die { m with ifund := 0, tfund := 0 } (.inr r) none).1
    | .ok (.inl a) =>
      let s0 := s
      let waiting := s.sched.tasks.any fun t => !t.registered && t.ending.isNone
      let (s, id) := s.accept b.die m (.inl a) (some (b.id, tid))
      match s.task? id with
      | none => .notReady
      | some t =>
        -- the portions have not moved (log 52)
        if s.tooMany t then
          match s0.failurePage b.die m.srcenv (some t.cfg) with
          | some va => stall s0 va .write
          | none => .failed (s.failTask { t with ifund := 0, tfund := 0 })
        else if (waiting && !t.locs.isEmpty) || !s.canRegister t then .notReady
        else
          let s := (s.register t).modTask id fun t => { t with priority := m.prio }
          match s.task? id with
          | none => .notReady
          | some t =>
            if !s.isReady t then .notReady
            else match s.movePortions b m.ifund m.tfund with
              | .inr c => .trap c
              | .inl s => .started ((s.startTask t).modBlock b.id fun b => { b with inline := some (id, p) })

/-- TSPAWN for one thread. A thread after one that started a child stands where it is. -/
def State.tspawnAct (old : Option Parked) (c : Ctx) (s : State) (x : Nat × Nat) : State × Fate :=
  let rec' := (old.map (·.arg)).getD (c.objAddr x.2)
  let queue := addrOf old (BitVec.ofNat 64 ((c.b.th x.2).reg c.w.b.toNat 2))
  let bad (k : Cause) (a : DWord) (write : Bool) (n extra : Nat) : State × Fate :=
    (s, .trap { cause := k, addr := a, write, size := n, extra := BitVec.ofNat 64 extra })
  if (s.block? c.iss.blk).any (·.inline.isSome) then (s, .stay)
  else if !canonical rec' then bad .accessViolation rec' false 128 1
  else if !canonical queue then bad .accessViolation queue true 64 1
  else if rec'.toNat % 128 ≠ 0 then bad .misaligned rec' false 128 128
  else if queue.toNat % 64 ≠ 0 then bad .misaligned queue true 64 64
  else
    match s.locate c.b x.2 rec' 128 128 .read true with
    | (s, .no f) => (s, f)
    | (s, .pa rpa) =>
      match s.reachMailbox c x.2 queue .read 1 false with
      | (s, .inl f) => (s, f)
      | (s, .inr pa) =>
      match s.letIn c.b x.2 rec' rpa 128 .read with
      | (s, .no f) => (s, f)
      | (s, .pa rpa) =>
        let i := s.valPa (rpa + 0x48) 8
        let t := s.valPa (rpa + 0x50) 8
        let prio := ((s.task? c.b.task).map (·.priority)).getD 0
        let m := spawnMsg c.b prio rec' i t
        let park : State × Fate :=
          let s := if old.isNone then s.noteWrite c.b x.2 queue pa else s
          (if enters old then s.addWaiter (pa + 0x18) else s).park c x.2 old { kind := .tspawn, va := queue, pa, arg := rec' }
        if s.mbUsed pa < s.mbCap pa then
          if !c.b.acks.isEmpty then (s, .again)
          else
            let slot := BitVec.ofNat 64 (slotOf queue.toNat (s.mbTail pa) (s.mbCap pa))
            match s.locate c.b x.2 slot 64 64 .read true with
            | (s, .no f) => (s, f)
            | (s, .pa spa) =>
              match s.letIn c.b x.2 slot spa 64 .write with
              | (s, .no f) => (s, f)
              | (s, .pa spa) =>
              match s.movePortions c.b i t with
              | .inr k => (s, .trap { cause := k, addr := rec', size := 128 })
              | .inl s =>
                let s := (s.writePa spa m.bytes).putPa (pa + 8) 8 (s.mbTail pa + 1)
                (s.noteWrite c.b x.2 queue pa [] [spa / 128], .done [.p c.resP true] 128)
        -- a thread that has parked waits for a slot (R333)
        else if old.isNone && decide (c.b.regs.inldepth.toNat < c.b.regs.inlmax.toNat) then
          if !c.b.acks.isEmpty then (s, .again)
          else match s.runInline c.b x.2 c.resP m with
            | .failed s => (s.modBlock c.iss.blk fun b => { b with inline := some (0, c.resP), failedBy := some x.2 }, .stay)
            | .started s => (s, .stay)
            | .trap k => (s, .trap { cause := k, addr := rec', size := 128 })
            | .stall s w => (s, .stall w)
            | .notReady => park
        else park

/-- The producer of a child that has started is saved in full, and its thread stands at the TSPAWN; where the child has failed
the producer is restored at once (R188, R318). -/
def State.saveProducer (s : State) (blk : Nat) : State :=
  match s.block? blk with
  | none => s
  | some b =>
    if b.inline.isSome && b.saved.isNone && !b.ended then
      let s := s.saveBlock blk 3
      match b.failedBy with
      | none => s
      | some tid => (s.modBlock blk fun b => { b with failedBy := none }).restoreProducer blk tid
    else s

def execTspawn (w : CWord) (s : State) : Host.Outcome State Fault Refusal :=
  let blk := (s.cur.map (·.blk)).getD 0
  .next ((s.runMem 0x288 w false 0 (State.tspawnAct none)).saveProducer blk)

/-! ## Barrier records (R189) -/

/-- The address of the record. -/
def Ctx.record (c : Ctx) : DWord := BitVec.ofNat 64 (c.rb.ureg c.w.a.toNat)

/-- A record reached by a thread. BARI and BARA act on memory directly (R334). -/
def State.reachRecord (s : State) (c : Ctx) (tid : Nat) (va : DWord) (k : Kind) : State × Got :=
  s.reach c.b tid va 16 16 k (k == .atomic)

def execBari (w : CWord) (s : State) : Host.Outcome State Fault Refusal :=
  .next (s.runMem 0x289 w false 0 fun c s x =>
    match s.reachRecord c x.2 c.record .atomic with
    | (s, .no f) => (s, f)
    | (s, .pa pa) =>
      let n := if w.bsel = 2#2 then w.imm.toNat else c.rb.ureg w.b.toNat % 2 ^ 32
      (((s.putPa (pa + 4) 4 n).putPa (pa + 8) 4 0).noteWrite c.b x.2 c.record pa, .done [] 16))

/-- The count of BARA, the generation of BARW: register B or IMM. -/
def Ctx.countB (c : Ctx) (tid : Nat) : Nat := if c.w.bsel = 2#2 then c.w.imm.toNat else (c.b.th tid).reg c.w.b.toNat 1

def execBara (w : CWord) (s : State) : Host.Outcome State Fault Refusal :=
  .next (s.runMem 0x28A w true (w.modF 0 3) fun c s x =>
    match s.reachRecord c x.2 c.record .atomic with
    | (s, .no f) => (s, f)
    | (s, .pa pa) =>
      let g := s.valPa pa 4
      let n := min (s.valPa (pa + 8) 4 + c.countB x.2) (2 ^ 32 - 1)
      (((s.putPa (pa + 8) 4 n).checkBarrier pa).noteWrite c.b x.2 c.record pa, .done (wrV w.d.toNat 1 g) 16))

/-- BARW for one thread. -/
def State.barwAct (old : Option Parked) (c : Ctx) (s : State) (x : Nat × Nat) : State × Fate :=
  let va := addrOf old c.record
  match s.reachRecord c x.2 va .read with
  | (s, .no f) => (s, f)
  | (s, .pa pa) =>
    let b := match old with
      | some q => q.val.toNat
      | none => c.countB x.2
    if s.valPa pa 4 ≠ b then (s.modBlock c.iss.blk fun b => { b with epoch := b.epoch + 1 }, .done [] 16)
    else s.park c x.2 old { kind := .barw, va, pa, val := BitVec.ofNat 64 b }

def execBarw (w : CWord) (s : State) : Host.Outcome State Fault Refusal :=
  .next (s.runMem 0x28B w false 0 (State.barwAct none))

def execBsync (w : CWord) (s : State) : Host.Outcome State Fault Refusal :=
  .next (s.runIssue 0x28C w fun c s =>
    (s, c.on.map fun x => (x.2, .wait (.bsync (if w.bsel = 2#2 then some w.imm.toNat else none)))))

/-! ## Wakes and polls (R174 to R176) -/

/-- What a parking instruction does when its thread re-performs the check. -/
def parkingAct (op : Nat) : Parked → Ctx → State → Nat × Nat → State × Fate :=
  match op with
  | 0x20C => fun q => State.waitaddrAct (some q)
  | 0x20F => fun q => State.parkAct (some q)
  | 0x284 => fun q => State.fgetAct (some q)
  | 0x287 => fun q => State.mbrecvAct (some q)
  | 0x288 => fun q => State.tspawnAct (some q)
  | _ => fun q => State.barwAct (some q)

/-- A parked thread that waits for something else than its check: it has left the wait table (R174). -/
def Thread.stepAway (p : Parked) (f : Thread → Thread) (th : Thread) : Thread :=
  f { th with wait := some (.parked { p with away := true }) }

/-- The issue of a parked thread that re-performs its check. -/
def State.parkedCtx (s : State) (b : Block) (tid : Nat) (q : Parked) : Ctx :=
  let th := b.th tid
  let len := s.waitLen b tid
  let iss : Issue := { blk := b.id, ths := [(0, tid)], len }
  { iss, op := q.op, w := q.w, b, pc := th.pc, next := th.pc + BitVec.ofNat 64 len, act := iss.ths, on := iss.ths }

/-- A poll that finds its condition unmet: the thread polls on, and is not woken (R176, R238). -/
def State.stillUnmet (s : State) (b : Block) (tid : Nat) (q : Parked) : Option State :=
  if q.woken then none
  else match parkingAct q.op q (s.parkedCtx b tid q) s (0, tid) with
    | (t, .wait (.parked p)) => some (t.modTh b.id tid fun th => { th with wait := some (.parked p) })
    | _ => none

/-- A parked thread re-performs its check, with what it read at its issue (R46). One whose registers are lent waits
for the borrower, which is recalled (R238); one that is out with its turn group waits for the group (R321). A write
that %ackc has no room for is made later (R165). A trap leaves the thread at its instruction, its bytes paid (R174). -/
def State.reperform (s : State) (blk tid : Nat) (q : Parked) : State :=
  match s.block? blk with
  | none => s
  | some b =>
    let th := b.th tid
    if th.stall.isSome || th.remote.isSome then s
    -- its entry of the table is read by an engine (R412, R414, log 86)
    else if s.health.bad.contains (.wait blk tid) then (s.coreError b 1 1).killContext b (causeCode .uncorrectedData) 0#64 0
    else if th.inSlot then
      let s' := s.modTh blk tid fun th => { th with wait := some (.parked { q with woken := true }) }
      match s.borrowerOf th, s.stillUnmet b tid q with
      | _, some t => t
      | some x, none => s'.recall x.id
      | none, none => s'
    else if b.out.any (·.1 == tid / 128) && q.kind != .waitaddr && q.kind != .park then
      s.modTh blk tid fun th => { th with wait := some (.parked { q with woken := true }) }
    else
      let c := s.parkedCtx b tid q
      let (s', f) := parkingAct q.op q c s (0, tid)
      if 65535 < ((s'.block? blk).map Block.ackc).getD 0 then s
      else match f with
      | .wait (.parked p) => s'.modTh blk tid fun th => { th with wait := some (.parked p) }
      | .stall k => (s'.unwait th).modTh blk tid (Thread.stepAway q fun th => { th with stall := some k, retiring := false })
      | .remote k t => (s'.unwait th).modTh blk tid (Thread.stepAway q fun th => { th with remote := some (k, s.clock.time, t) })
      | .stay => s'.saveProducer blk
      | .again => s.unmade s'
      | f =>
        let paid := f.trap?.isSome && (q.kind == .waitaddr || q.kind == .park)
        (((s'.unwait th).modTh blk tid fun th => { th.leave b.cycles with prepaid := paid }).finish c [(tid, f)]).refreshPools blk

/-- A parked thread that meets a test re-performs its check, while its block stands on a core and is not
stopped. -/
def State.wakeThread (s : State) (blk tid : Nat) (p : Parked → Bool) : State :=
  match s.block? blk with
  | none => s
  | some b =>
    match (b.th tid).wait with
    | some (.parked q) =>
      if p q && b.place.resident && !b.ended && b.saved.isNone && !b.trap.stopped then s.reperform blk tid q else s
    | _ => s

def execWaitaddrWake (blk tid : Nat) (s : State) : Host.Outcome State Fault Refusal :=
  .next (s.wakeThread blk tid fun q => q.woken && q.kind == .waitaddr)

def execParkedWake (blk tid : Nat) (s : State) : Host.Outcome State Fault Refusal :=
  .next (s.wakeThread blk tid fun q => q.woken && q.kind != .waitaddr)

def execWaitTablePoll (blk tid : Nat) (s : State) : Host.Outcome State Fault Refusal :=
  .next (s.wakeThread blk tid fun q => q.polled && decide (q.pollAt ≤ s.clock.time))

end Sys2Proof.Machine
end

