-- ==== Sys2Proof/Machine/Scheduler.lean ====
section
/-! DEFINITION. The schedulers' events: launch queues, registration, placement, pipelines, write-back,
completion (R265, R326 to R341, R360). -/

namespace Sys2Proof.Machine

/-! ## Launch queues (R326, R338) -/

/-- The binding of a queue: envelope and mailbox. -/
def State.binding (s : State) (die queue : Nat) : Option (Nat × Nat) :=
  (s.host.queues.find? fun q => q.1 == die && q.2.1 == queue).map (·.2.2)

/-- The header of a bound queue: its address and physical address, when it can be reached and is one of a
launch queue (R343). -/
def State.queueHeader (s : State) (die queue : Nat) : Option (Nat × Nat × Nat) :=
  match s.binding die queue with
  | none => none
  | some (env, mb) =>
    match s.engineXlate (dieCore die) env (BitVec.ofNat 64 mb) .read with
    | (_, some pa) => if s.mbOk pa 1 && !s.poisoned pa 64 then some (env, mb, pa) else none
    | _ => none

/-- The physical address of slot n of a queue. -/
def State.queueSlot (s : State) (die env mb pa n : Nat) : Option Nat :=
  (s.engineXlate (dieCore die) env (BitVec.ofNat 64 (slotOf mb n (s.mbCap pa))) .read).2

/-- The message at the head of a queue, with the header's physical address. -/
def State.peek (s : State) (die queue : Nat) : Option (Nat × Msg) :=
  match s.queueHeader die queue with
  | none => none
  | some (env, mb, pa) =>
    if s.mbUsed pa = 0 then none
    else (s.queueSlot die env mb pa (s.mbHead pa)).map fun spa => (pa, Msg.ofBytes (s.readPa spa 64))

/-- The queue whose turn it is on a die: the first that is not empty, from the round-robin position on. -/
def State.queueTurn (s : State) (die : Nat) : Option Nat :=
  let r := s.sched.robin.getD die 0
  ((List.range Config.queuesPerDie).map fun k => (r + k) % Config.queuesPerDie).find? fun q => (s.peek die q).isSome

/-- The table of accepted tasks of a die has room. -/
def State.tableRoom (s : State) (die : Nat) : Bool :=
  decide ((s.sched.tasks.filter (·.die == die)).length < Config.taskTable)

/-- The head message leaves its queue: HEAD rises, and a TSPAWN that waits for a slot is woken. -/
def State.popQueue (s : State) (pa : Nat) : State :=
  ((s.takeLines pa 64).putPa pa 8 (s.mbHead pa + 1)).wake fun q => q.kind == .tspawn && q.pa == pa

/-- The head slot of a queue, if it holds an uncorrectable error: its physical address. -/
def State.badSlot (s : State) (die queue : Nat) : Option Nat :=
  (s.queueHeader die queue).bind fun h => (s.queueSlot die h.1 h.2.1 h.2.2 (s.mbHead h.2.2)).filter fun spa => s.poisoned spa 64

/-- The header of a bound queue, if it holds an uncorrectable error: its envelope and physical address. -/
def State.badHeader (s : State) (die queue : Nat) : Option (Nat × Nat) :=
  (s.binding die queue).bind fun b =>
    ((s.engineXlate (dieCore die) b.1 (BitVec.ofNat 64 b.2) .read).2.filter fun pa => s.poisoned pa 64).map fun pa => (b.1, pa)

/-- A visit of the scheduler to a queue: the head message is taken and accepted or failed, or it waits there
for its funds or for a page (R317, R327, R338, R385). -/
def State.visitQueue (s : State) (die queue : Nat) : State :=
  match s.peek die queue with
  | none => s
  | some (pa, m) =>
    -- a message that cannot be read is lost, with its event (R414, log 86)
    match s.badSlot die queue with
    | some spa => (s.uncorrected die spa 0 m.srcenv 1).popQueue pa
    | none =>
    let s := { s with sched := { s.sched with robin := setAt die ((queue + 1) % Config.queuesPerDie) s.sched.robin } }
    match s.judge die m with
    | .walk va k => (s.startWalk die m.srcenv va k).1
    | .wait => s
    | .fail f => ((s.popQueue pa).accept die m (.inr { f }) none).1
    | .ok (.inl a) => ((s.popQueue pa).accept die m (.inl a) none).1
    | .ok (.inr r) =>
      match s.failurePage die m.srcenv r.cfg with
      | some va => (s.startWalk die m.srcenv va .write).1
      | none => ((s.popQueue pa).accept die m (.inr r) none).1

def execQueueTake (die queue : Nat) (s : State) : Host.Outcome State Fault Refusal :=
  .next (if s.accepts && s.tableRoom die && s.queueTurn die == some queue then s.visitQueue die queue else s)

/-- The management plane binds a queue to a mailbox, and BIND records it (R326, R342). -/
def execQueueBinding (die queue env : Nat) (mailbox : DWord) (s : State) : Host.Outcome State Fault Refusal :=
  .next (if die < Config.dies ∧ queue < Config.queuesPerDie ∧ env < Config.envelopes ∧ mailbox.toNat % 64 = 0 then
    let others := s.host.queues.filter fun q => !(q.1 == die && q.2.1 == queue)
    let s := { s with host := { s.host with queues := others ++ [(die, queue, env, mailbox.toNat)] } }
    match s.engineXlate (dieCore die) env mailbox .read with
    | (_, some pa) => (s.takeLines pa 64).putPa (pa + 0x12) 2 (queue + 64 * die)
    | _ => s
  else s)

/-! ## Registration and readiness (R330, R333, R336) -/

/-- A task may register: one with empty sets at once, another behind every task accepted before it. -/
def State.registerTurn (s : State) (t : Task) : Bool :=
  !t.registered && t.ending.isNone &&
    (t.locs.isEmpty || s.sched.tasks.all fun x => x.registered || x.ending.isSome || decide (t.seq ≤ x.seq))

def execRegistration (task : Nat) (s : State) : Host.Outcome State Fault Refusal :=
  .next (match s.task? task with
    | none => s
    | some t =>
      if !s.registerTurn t then s
      else if s.tooMany t then
        match s.failurePage t.die t.srcenv (some t.cfg) with
        | some va => (s.startWalk t.die t.srcenv va .write).1
        | none => s.failTask t
      else if s.canRegister t then s.register t
      else s)

/-- An entry of the dependence table that the task needs holds an uncorrectable error (R412). -/
def State.badEntry (s : State) (t : Task) : Bool :=
  !s.health.bad.isEmpty && t.locs.any fun x => s.health.bad.contains (.dep t.cfg.envelope x.1)

/-- The scheduler consumes an uncorrectable error: the task's context is killed, with no address, instruction or core (R378,
R414, R423, log 86). -/
def State.killTask (s : State) (t : Task) : State :=
  ((s.event t.die 0x11 1 t.id 1 (some (0, t.cfg.envelope))).event t.die 0x40 t.cfg.envelope t.id (causeCode .uncorrectedData)
    (some (0, 2 ^ 32 * 0xFFFF))).endTask t.id (.context (causeCode .uncorrectedData))

def execTaskReady (task : Nat) (s : State) : Host.Outcome State Fault Refusal :=
  .next (match s.task? task with
    | none => s
    | some t =>
      if t.ready || t.ending.isSome then s
      else if t.registered && s.badEntry t then s.killTask t
      else if s.isReady t then s.startTask t
      else s)

/-! ## Placement (R308, R339, R340) -/

/-- Effective priority. -/
def Task.effective (t : Task) : Nat := min 7 (t.priority + t.aged)

/-- Core cycles of an envelope's resident blocks over the last millisecond. -/
def State.recentUse (s : State) (env : Nat) : Nat :=
  sum (((s.env env).usage.filter fun u => decide (s.clock.time < u.1 + 1000000)).map (·.2))

/-- A task goes before another by the keys of R339. -/
def State.before (s : State) (t x : Task) : Bool :=
  let a := s.recentUse t.cfg.envelope * (s.env x.cfg.envelope).weight
  let b := s.recentUse x.cfg.envelope * (s.env t.cfg.envelope).weight
  decide (x.effective < t.effective) || (t.effective == x.effective && (decide (a < b) || (a == b && decide (t.seq < x.seq))))

/-- A block of the task's unit that holds a %bid has been placed on this die, or none yet has (R308). -/
def State.dieOk (s : State) (t : Task) (bid core : Nat) : Bool :=
  let ks := (List.range t.cfg.levels.length).filter fun k => decide (0 < k) && ((t.cfg.levels.getD k (0, 0)).2 == 2)
  match maxBy id ks with
  | none => true
  | some k =>
    let n := t.cfg.below k
    s.blocks.all fun x => !(x.task == t.id && x.bid / n == bid / n) || x.die == dieOfCore core

/-- An inline child's blocks run on the producer's core, one after another (R188). -/
def State.inlineOk (s : State) (t : Task) (core : Nat) : Bool :=
  match t.parent with
  | none => true
  | some (p, _) => (s.block? p).any fun b =>
      b.place.core == core && b.saved.isSome && s.blocks.all fun x => x.task != t.id || x.ended

/-- A task with blocks not yet placed. -/
def Task.unplaced (t : Task) : Bool := t.ready && t.ending.isNone && decide (t.next < t.cfg.grid)

/-- The %bids of the task's next unit. -/
def Task.nextUnit (t : Task) : List Nat := (List.range (min t.cfg.groupSize (t.cfg.grid - t.next))).map (t.next + ·)

/-- The cores on which a unit may stand when its first block takes a core. -/
def unitCores (r : LaunchRec) (core : Nat) : List Nat := if r.groupSize ≤ 1 then [core] else clusterCores core

/-- The next unit of a task placed with a core, if it finds room there; a cluster group of an inline child comes whole, over the
cores of its producer's cluster (R188, R308, log 83). -/
def State.placeNext (s : State) (t : Task) (core : Nat) : Option State :=
  if t.unplaced && s.dieOk t t.next core && s.inlineOk t core && s.reserveFits t.cfg t.nextUnit.length then
    s.placeUnit t (unitCores t.cfg core) t.nextUnit
  else none

/-- The saved block of a task that may come back, the lowest %bid first. -/
def State.savedOf (s : State) (task : Nat) : Option Block :=
  minBy (·.bid) (s.blocks.filter fun b => b.task == task && b.restorable)

/-- A task's saved block may be restored on a core now. -/
def State.canRestore (s : State) (b : Block) (core : Nat) : Bool :=
  let unit := (s.group b).filter fun x => !x.ended
  unit.all Block.restorable && !(s.dieBound b).any (· != dieOfCore core) &&
    (s.restoreGroup unit (unitCores b.cfg core)).isSome

/-- The saved block of a task that comes back on a core: of those that may stand there the lowest %bid. -/
def State.returns (s : State) (task core : Nat) : Option Block :=
  minBy (·.bid) (s.blocks.filter fun b => b.task == task && b.restorable && s.canRestore b core)

/-- A task that could use a core now: with a unit to place, or a block to restore. -/
def State.wants (s : State) (t : Task) (core : Nat) : Bool :=
  (s.placeNext t core).isSome || (s.returns t.id core).isSome

/-- A pipeline's move keeps the core of the block it recalled for the fullest stage (R341). -/
def State.moveOk (s : State) (t : Task) (core : Nat) : Bool :=
  s.sched.moves.all fun m =>
    !((s.block? m.2.2.1).any fun b => b.saved.isSome && b.place.core == core) || t.id == m.2.2.2

/-- A task is the one that the keys choose for a core. -/
def State.chosen (s : State) (t : Task) (core : Nat) : Bool :=
  s.moveOk t core && s.sched.tasks.all fun x => !(s.before x t && s.moveOk x core && s.wants x core)

/-- The moves that a placement on a core fulfils are over. -/
def State.endMoves (s : State) (task core : Nat) : State :=
  { s with sched := { s.sched with moves := s.sched.moves.filter fun m =>
      !(m.2.2.2 == task && (s.block? m.2.2.1).any fun b => b.saved.isSome && b.place.core == core) } }

/-- Blocks that a task which finds no room may have recalled: those of lower priority (R340). -/
def State.recallable (s : State) (t : Task) : List Block :=
  s.blocks.filter fun b =>
    b.place.resident && !b.ended && b.saved.isNone && (s.task? b.task).all fun x => decide (x.priority < t.priority)

/-- The block to recall first: the lowest priority, and of these the most recently placed (R340). -/
def State.victim (s : State) (t : Task) : Option Block :=
  let prio (b : Block) : Nat := ((s.task? b.task).map (·.priority)).getD 0
  maxBy (fun b => (8 - prio b) * (s.sched.placeSeq + 1) + b.place.seq) (s.recallable t)

/-- A pipeline's move recalled the block (R341). -/
def State.moved (s : State) (blk : Nat) : Bool := s.sched.moves.any (·.2.2.1 == blk)

/-- The core that a move's recall frees goes to a waiting task, not to the fullest stage (R347). -/
def State.claimMove (s : State) (blk : Nat) (t : Task) : State :=
  { s with sched := { s.sched with moves := s.sched.moves.map fun m =>
      if m.2.2.1 == blk && (s.task? m.2.2.2).all fun x => decide (x.priority < t.priority) then (m.1, m.2.1, blk, t.id)
      else m } }

/-- What a task that finds no room does: one recall at a time, and no second one of a block that a pipeline's
move has recalled (R340, R347). -/
def State.makeRoom (s : State) (t : Task) : State :=
  match s.victim t with
  | none => s
  | some b =>
    if s.moved b.id then s.claimMove b.id t
    else if (s.recallable t).any fun x => x.due.any (·.recalled) && !s.moved x.id then s
    else s.recall b.id

/-- No core of the package has room for the task's next unit. -/
def State.noRoom (s : State) (t : Task) : Bool :=
  (List.range Config.cores).all fun c => (s.placeNext t c).isNone

def execBlockPlacement (task core : Nat) (s : State) : Host.Outcome State Fault Refusal :=
  .next (match s.task? task with
    | none => s
    | some t =>
      if s.chosen t core then
        match s.placeNext t core with
        | some s => s.endMoves task core
        | none =>
          match s.returns task core with
          | some b => s.restoreAt b core
          | none =>
            if t.unplaced && s.noRoom t then s.makeRoom t else s
      else s)

/-- A saved block comes back on a core with room, when the keys choose its task (R339, R360). -/
def execRestore (blk core : Nat) (s : State) : Host.Outcome State Fault Refusal :=
  .next (let s := s.refill blk
    match s.block? blk with
    | none => s
    | some b =>
      match s.task? b.task with
      | none => s
      | some t => if s.chosen t core then s.restoreAt b core else s)

/-- A task waits with a block to place or to restore. -/
def State.waiting (s : State) (t : Task) : Bool := t.unplaced || (t.ready && (s.savedOf t.id).isSome)

/-- Each full 10 ms of waiting (R339). -/
def ageStep : Nat := 10000000

def execPriorityAging (task : Nat) (s : State) : Host.Outcome State Fault Refusal :=
  .next (match s.task? task with
    | none => s
    | some t =>
      if s.waiting t && decide (t.readyAt + ageStep * (t.aged + 1) ≤ s.clock.time) then
        s.modTask task fun t => { t with aged := t.aged + 1 }
      else s)

/-! ## Pipelines (R341) -/

/-- The resident blocks of a task. -/
def State.residentOf (s : State) (task : Nat) : List Block :=
  s.blocks.filter fun b => b.task == task && b.place.resident && !b.ended && b.saved.isNone

/-- Occupancy of a stage: messages and capacity of its inbox. -/
def State.occupancy (s : State) (t : Task) : Option (Nat × Nat) :=
  match t.pipe with
  | none => none
  | some (_, _, inbox) =>
    match s.engineXlate (dieCore t.die) t.cfg.envelope (BitVec.ofNat 64 inbox) .read with
    | (_, some pa) => if s.mbOk pa 0 then some (s.mbUsed pa, s.mbCap pa) else none
    | _ => none

/-- The resident stages of a pipeline with their occupancies, scaled to one denominator. -/
def State.stages (s : State) (env pipe : Nat) : List (Task × Nat) :=
  (s.sched.tasks.filter fun t => t.cfg.envelope == env && t.pipe.any (·.1 == pipe) && !(s.residentOf t.id).isEmpty).filterMap
    fun t => (s.occupancy t).map fun o => (t, o.1 * 65536 / o.2)

def execPipelineBalance (env pipe : Nat) (s : State) : Host.Outcome State Fault Refusal :=
  .next (
    -- a move is over once its block has come back (R341)
    let live := s.sched.moves.filter fun m =>
      (s.block? m.2.2.1).any (fun b => !b.ended && (b.saved.isSome || b.due.isSome)) && (s.task? m.2.2.2).any Task.unplaced
    let s := { s with sched := { s.sched with moves := live } }
    if s.sched.moves.any fun m => m.1 == env && m.2.1 == pipe then s
    else
      match maxBy (·.2) (s.stages env pipe), minBy (·.2) (s.stages env pipe) with
      | some (full, a), some (empty, b) =>
        let bs := s.residentOf empty.id
        if decide (49152 ≤ a ∧ b ≤ 16384 ∧ 2 ≤ bs.length) && full.unplaced then
          match maxBy (·.place.seq) bs with
          | some x =>
            -- a priority victim is recalled once, for the task that waits for its core (R347)
            if x.due.any (·.recalled) then s else
            let s := s.recall x.id
            { s with sched := { s.sched with moves := s.sched.moves ++ [(env, pipe, x.id, full.id)] } }
          | none => s
        else s
      | _, _ => s)

/-! ## Ends -/

def execWriteBack (env tile : Nat) (s : State) : Host.Outcome State Fault Refusal := .next (s.writeBackTile env tile)

/-- A launch completes (R265, R346), once the page of its report has been serviced (R385). -/
def execGridCompletion (task : Nat) (s : State) : Host.Outcome State Fault Refusal :=
  .next (match s.task? task with
    | none => s
    | some t =>
      if s.canComplete t then
        match s.reportPage t.die t.cfg.envelope t.cfg.future with
        | some va => (s.startWalk t.die t.cfg.envelope va .write).1
        | none => s.complete t
      else s)

end Sys2Proof.Machine
end

