-- ==== Sys2Proof/Machine/Walks.lean ====
section
/-! DEFINITION. Walks and the fault queue (R363, R384, R385, R393), shootdowns (R386), page migration
(R277). -/

namespace Sys2Proof.Machine

/-! ## Answers to those who wait for a walk -/

/-- A thread that waits for a walk goes on, changed by the answer. -/
def Thread.answer (id : Nat) (f : Thread → Thread) (th : Thread) : Thread :=
  if th.stall = some id then f { th with stall := none } else th

/-- Every thread of the package that waits for a walk, handler threads among them. -/
def State.answerThreads (s : State) (id : Nat) (f : Thread → Thread) : State :=
  { s with blocks := s.blocks.map fun b =>
      { b with threads := b.threads.map (Thread.answer id f), handler := b.handler.answer id f } }

/-- The cores on which a thread waits for a walk. -/
def State.waitingCores (s : State) (id : Nat) : List Nat :=
  ((s.blocks.filter fun b => b.place.resident && (b.threads.any (·.stall == some id) || b.handler.stall == some id)).map
    (·.place.core)).dedup

/-- Copies that wait for a walk go on. -/
def State.answerCopies (s : State) (id : Nat) : State :=
  { s with eng := { s.eng with copies := s.eng.copies.map fun c => if c.stall = some id then { c with stall := none } else c } }

/-- The frames whose write waits for a walk are written then, as they were at the stop (R372, R373). -/
def State.answerFrames (s : State) (id : Nat) : State :=
  (s.blocks.filter fun b => b.trap.pend == some id).foldl (fun s b => s.putFrame b.id b.trap.level b.trap.image) s

/-- A walk is over. -/
def State.dropWalk (s : State) (id : Nat) : State :=
  { s with eng := { s.eng with walks := s.eng.walks.filter (·.id != id) } }

/-- The address of a page. -/
def pageVa (page : Nat) : DWord := BitVec.ofNat 64 (page * 65536)

/-- The entry at which a walk ends: its physical address. -/
def State.walkStop (s : State) (va : DWord) : Nat → Nat → Nat
  | 0, table => table + 8 * bits va (levelShift 0) (levelBits 0)
  | level + 1, table => match s.walkEntry va (level + 1) table with
    | .inl _ => table + 8 * bits va (levelShift (level + 1)) (levelBits (level + 1))
    | .inr next => s.walkStop va level next

/-- The entries that a walk reads. -/
def State.walkReads (s : State) (va : DWord) : Nat → Nat → List Nat
  | 0, table => [table + 8 * bits va (levelShift 0) (levelBits 0)]
  | level + 1, table => (table + 8 * bits va (levelShift (level + 1)) (levelBits (level + 1))) ::
    match s.walkEntry va (level + 1) table with
    | .inl _ => []
    | .inr next => s.walkReads va level next

/-- Corrections met by a walk's reads (R413). -/
def State.correctWalk (s : State) (env : Nat) (va : DWord) : State :=
  (s.walkReads va 3 (s.env env).root).foldl (fun s pa => s.correctRead pa 8) s

/-- A leaf reaches every core that waits; entries that point into a page on the move go (R277, R384). -/
def State.fillTlbs (s : State) (w : Walk) (cores : List Nat) (e : BitVec 64) (log : Nat) : State :=
  let va := pageVa w.page
  let old (t : TlbEntry) : Bool := t.covers w.env va && s.moving (paOf t.leaf t.log va)
  let s := { s with eng := { s.eng with tlb := s.eng.tlb.filter (!old ·) } }
  cores.foldl (fun s c => s.tlbFill c w.env va e log) s

/-! ## The fault queue (R393) -/

/-- A physical address of the host window (R389). -/
def State.hostPa (s : State) (addr : Nat) : Nat := s.fabric.pkgid * 2 ^ 46 + 2 ^ 45 + addr % 2 ^ 45

/-- The MSI-X vector of a function is enabled: its table entry is not masked (log 34). -/
def State.msixOn (s : State) (fn vec : Nat) : Bool :=
  (s.host.words.find? fun w => w.1 == fn && w.2.1 == 0x60008 + 16 * vec).any fun w => !w.2.2.getLsbD 32

def State.fire (s : State) (fn vec : Nat) : State :=
  if s.msixOn fn vec then { s with host := { s.host with msix := s.host.msix ++ [(fn, vec)] } } else s

/-- A die is bound to an envelope when one of its queues is (R391, log 35). -/
def State.dieBoundTo (s : State) (die env : Nat) : Bool := s.host.queues.any fun q => q.1 == die && q.2.2.1 == env

/-- The envelope of a function. -/
def State.fnEnv (s : State) (fn : Nat) : Option Nat := (s.host.fns.find? (·.1 == fn)).map (·.2)

/-- The functions that reach the fault queue of a die. -/
def State.dieFns (s : State) (die : Nat) : List Nat :=
  (s.host.fns.filter fun f => s.dieBoundTo die f.2).map (·.1)

def Kind.code : Kind → Nat
  | .read => 0 | .write => 1 | .atomic => 2 | .fetch => 3

/-- An entry of the fault queue. -/
def fqEntry (w : Walk) (level id : Nat) : List Byte :=
  toBytesLE 8 (w.page * 65536) ++ toBytesLE 2 w.env ++ toBytesLE 1 w.kind.code ++ toBytesLE 1 level ++ toBytesLE 4 id ++
    toBytesLE 16 0

/-- An entry's ID: a free value, moved past those of the die's unanswered entries (R393). -/
def State.faultId (s : State) (die : Nat) : Nat × State :=
  let used := (s.eng.walks.filter (·.die == die)).filterMap (·.post)
  let (n, s) := s.free Config.faultId
  ((((List.range (used.length + 1)).map fun k => (n + k) % 2 ^ 32).find? fun k => !used.contains k).getD 0, s)

/-- A replayable fault is posted; while the ring is full the walker holds it (R385, R393). -/
def State.post (s : State) (w : Walk) (level : Nat) : State :=
  let q := s.host.fqs.getD w.die {}
  if 2 ^ q.log ≤ q.tail - q.head then s
  else
    let (id, s) := s.faultId w.die
    let s := s.writePa (s.hostPa (q.base + 32 * (q.tail % 2 ^ q.log))) (fqEntry w level id)
    let s := { s with
      host := { s.host with fqs := setAt w.die { q with tail := q.tail + 1 } s.host.fqs }
      eng := { s.eng with walks := updFirst (·.id == w.id) (fun x => { x with post := some id }) s.eng.walks } }
    (s.dieFns w.die).foldl (fun s f => s.fire f 1) s

/-! ## The end of a walk -/

/-- A shootdown in progress covers a page. -/
def State.shooting (s : State) (env page : Nat) : Bool :=
  s.eng.shoots.any fun x => x.env == env && decide (x.va < (page + 1) * 65536 ∧ page * 65536 < x.va + x.len)

/-- Every thread, copy and frame that waits for a walk has its answer: its own fault, or none. -/
def State.answerWalk (s : State) (w : Walk) (f : Option TrapInfo) : State :=
  let set (th : Thread) : Thread := match f with
    | some t => { th with fault := some (w.page, t) }
    | none => th
  (((s.dropWalk w.id).answerThreads w.id set).answerCopies w.id).answerFrames w.id

/-- One of the die's walkers makes the walk: of those not posted, the first 64 in order of arrival (R2, R384). -/
def State.hasWalker (s : State) (w : Walk) : Bool :=
  ((s.eng.walks.filter fun x => x.die == w.die && x.post.isNone).take Config.walkers).any (·.id == w.id)

/-! ## Answers of the servicer -/

/-- The posted walk of a die that an ID names. -/
def State.posted (s : State) (die id : Nat) : Option Walk := s.eng.walks.find? fun w => w.die == die && w.post == some id

/-- The address at which a stalled copy waits, and whether it would be written there. -/
def State.copyWaitsAt (s : State) (b : Block) (c : Copy) : DWord × Bool :=
  if c.record? then (c.record, true)
  else match s.copyEnd b c true with
    | .walk => (c.at true, false)
    | _ => (c.at false, true)

/-- A refusal for the engines that wait: copies stop (R180), frames fault (R373). -/
def State.refuseEngines (s : State) (w : Walk) (t : TrapInfo) : State :=
  let s := (s.eng.copies.filter (·.stall == some w.id)).foldl (fun s c =>
    match s.block? c.blk with
    | none => s
    | some b =>
      let (a, wr) := s.copyWaitsAt b c
      (s.modCopy c.id fun x => { x with stall := none }).copyFault c { t with addr := a, write := wr, size := c.len } c.record?) s
  { s with blocks := s.blocks.map fun b =>
      if b.trap.pend = some w.id then
        let va := b.trap.tsave + BitVec.ofNat 64 (512 * (b.trap.level - 1))
        { b with trap := { b.trap with pend := none, frame := some { t with addr := va, write := true, size := 64 } } }
      else b }

/-- A refused page of a save, a restore, a rotation or a fault record kills its context (R245, R359, R378). -/
def State.refuseSaves (s : State) (w : Walk) (t : TrapInfo) : State :=
  (s.blocks.filter fun b => !b.ended && (b.area == some w.id || b.threads.any fun th => th.retiring && th.stall == some w.id)).foldl
    (fun s b => s.killContext b (causeCode t.cause) (pageVa w.page) 0) s

/-- A refused page that a scheduler needs fails the launch at the head of its queue (R317). -/
def State.refuseQueues (s : State) (w : Walk) : State :=
  (List.range Config.queuesPerDie).foldl (fun s q =>
    match s.peek w.die q with
    | none => s
    | some (pa, m) =>
      match s.judge w.die m with
      | .walk va _ =>
        if m.srcenv = w.env ∧ bits va 16 41 = w.page then
          let core := dieCore w.die
          let (cfg, read) := match s.engineRead core m.srcenv (BitVec.ofNat 64 m.task) 128 with
            | .inr bs => match s.engineRead core m.srcenv (BitVec.ofNat 64 (field bs 0 8)) 256 with
              | .inr rs => (some (LaunchRec.ofBytes rs), true)
              | .inl _ => (none, true)
            | .inl _ => (none, false)
          ((s.popQueue pa).accept w.die m (.inr { f := badAccess va, cfg, read }) none).1
        else s
      | .ok (.inr r) =>
        if m.srcenv = w.env ∧ (s.failurePage w.die m.srcenv r.cfg).any (bits · 16 41 == w.page) then
          ((s.popQueue pa).accept w.die m (.inr r) none).1
        else s
      | _ => s) s

/-- A refused page that a report or a failure's record needs: the write is lost, the end stands (R318, R346). -/
def State.refuseReports (s : State) (w : Walk) : State :=
  (s.sched.tasks.filter (·.die == w.die)).foldl (fun s t =>
    let here (va : Option DWord) : Bool := va.any (bits · 16 41 == w.page)
    if t.cfg.envelope = w.env ∧ s.canComplete t ∧ here (s.reportPage t.die w.env t.cfg.future) then s.complete t
    else if t.srcenv = w.env ∧ s.registerTurn t ∧ (s.env t.cfg.envelope).rename < t.buffers ∧
        here (s.failurePage t.die w.env (some t.cfg)) then s.failTask t
    else s) s

/-- An answer other than mapped: every waiting thread takes a trap at its access. -/
def State.refuse (s : State) (w : Walk) (t : TrapInfo) : State :=
  let set (th : Thread) : Thread := { th with fault := some (w.page, t) }
  (((((s.refuseSaves w t).dropWalk w.id).answerThreads w.id set).refuseEngines w t).refuseQueues w).refuseReports w

/-- A walk completes; during a shootdown of its page it goes on after it (R383, R384, R388). An uncorrectable
error in an entry is met by all who wait, engines among them (R414). -/
def execWalkComplete (walk : Nat) (s : State) : Host.Outcome State Fault Refusal :=
  .next (match s.eng.walks.find? (·.id == walk) with
    | none => s
    | some w =>
      if w.post.isSome || s.shooting w.env w.page || !s.hasWalker w then s
      else
        let va := pageVa w.page
        let s := s.correctWalk w.env va
        match s.walk w.env va with
        | .replay level => s.post w level
        | .leaf e log => (s.fillTlbs w (s.waitingCores w.id) e log).answerWalk w none
        | .fault t =>
          if t.cause = .uncorrectedData then
            (s.uncorrected w.die (s.walkStop va 3 (s.env w.env).root) 0 w.env 0).refuse w t
          else s.answerWalk w (some t))

/-- The level at which a page is missing. -/
def State.missingLevel (s : State) (w : Walk) : Nat :=
  match s.walk w.env (pageVa w.page) with
  | .replay l => l
  | _ => 0

/-- FQRESP (R385, R393): mapped, refused, over quota; an ID not outstanding or another answer is ignored. -/
def State.fqAnswer (s : State) (die id answer : Nat) : State :=
  match s.posted die id with
  | none => s
  | some w =>
    -- during a shootdown of the page the threads walk again after it (R388, R399)
    if s.shooting w.env w.page && decide (1 ≤ answer ∧ answer ≤ 3) then
      { s with eng := { s.eng with walks := updFirst (·.id == w.id) (fun x => { x with post := none }) s.eng.walks } }
    else match answer with
    | 1 => s.answerWalk w none
    | 2 => s.refuse w (xlateFault (pageVa w.page) (s.missingLevel w))
    | 3 => s.refuse w { cause := .envelopeQuota, addr := pageVa w.page }
    | _ => s

def execFqrespMapped (die id : Nat) (s : State) : Host.Outcome State Fault Refusal := .next (s.fqAnswer die id 1)
def execFqrespRefused (die id : Nat) (s : State) : Host.Outcome State Fault Refusal := .next (s.fqAnswer die id 2)
def execFqrespOverQuota (die id : Nat) (s : State) : Host.Outcome State Fault Refusal := .next (s.fqAnswer die id 3)

/-- FQBASE (R393): a multiple of 4 KiB; the count of posts restarts, and so does that of entries
consumed (log 77). -/
def State.setFqBase (s : State) (die : Nat) (value : DWord) : State :=
  { s with host := { s.host with fqs := s.host.fqs.modify die fun q =>
      { q with base := value.toNat / 4096 * 4096, tail := 0, head := 0 } } }

/-- A function reaches the registers of a die (R391). -/
def State.reachesDie (s : State) (fn die : Nat) : Bool := (s.fnEnv fn).any (s.dieBoundTo die)

def execFqbaseWrite (fn die : Nat) (value : DWord) (s : State) : Host.Outcome State Fault Refusal :=
  .next (if s.reachesDie fn die then s.setFqBase die value else s)

/-! ## Shootdowns (R386) -/

/-- A shootdown of a range begins. -/
def State.shoot (s : State) (env va len : Nat) : State :=
  { s with eng := { s.eng with shoots := s.eng.shoots ++ [{ env, va, len }] } }

def execShootdown (env : Nat) (va : DWord) (len : Nat) (s : State) : Host.Outcome State Fault Refusal :=
  .next (s.shoot env va.toNat len)

/-- A write through the range that has not been acknowledged. -/
def State.shootWaits (s : State) (x : Shootdown) : Bool :=
  s.blocks.any fun b => b.cfg.envelope == x.env && (s.owed b).any fun a => decide (x.va ≤ a.va.toNat ∧ a.va.toNat < x.va + x.len)

/-- Every TLB drops the range; a migration opened before is over. -/
def State.dropRange (s : State) (x : Shootdown) : State :=
  let inRange (a n : Nat) : Bool := decide (x.va < a + n ∧ a < x.va + x.len)
  { s with eng := { s.eng with
      tlb := s.eng.tlb.filter fun e => !(e.env == x.env && inRange e.va (2 ^ e.log))
      migrs := s.eng.migrs.filter fun m => !(m.env == x.env && m.open' && inRange m.va m.len) } }

def execShootdownComplete (k : Nat) (s : State) : Host.Outcome State Fault Refusal :=
  .next (match s.eng.shoots[k]? with
    | none => s
    | some x =>
      if s.shootWaits x then s
      else
        let s := s.dropRange x
        { s with eng := { s.eng with shoots := s.eng.shoots.eraseIdx k } })

/-! ## Page migration (R277) -/

/-- A round for a line of a page stands, or a persistent request that is active (R277). -/
def State.pageBusy (s : State) (pa len : Nat) : Bool :=
  let hit (line : Nat) : Bool := decide (pa ≤ 128 * line ∧ 128 * line < pa + len)
  s.coh.rounds.any (fun r => hit r.line) || s.coh.reqs.any fun r => r.active && hit r.line && s.liveReq r

/-- Every copy of the page's lines is invalidated and every token gathered (R277 step 3). -/
def State.gatherPage (s : State) (pa len : Nat) : State :=
  let hit (line : Nat) : Bool := decide (pa ≤ 128 * line ∧ 128 * line < pa + len)
  { s with coh := { s.coh with
      tokens := s.coh.tokens.filter fun t => !hit t.line
      reqs := s.coh.reqs.filter fun r => !hit r.line
      regions := s.coh.regions.filter fun r => !decide (pa ≤ 512 * r.region ∧ 512 * r.region < pa + len)
      remote := s.coh.remote.filter fun r => !hit r.line } }

/-- What names a byte of a page by its physical address names it at the new home: parked threads (R174, R175, R186,
R187, R189), tiles and the sets of tasks (R331). -/
def State.relocate (s : State) (old target len : Nat) : State :=
  let at' (pa : Nat) : Nat := if old ≤ pa ∧ pa < old + len then target + (pa - old) else pa
  let th (t : Thread) : Thread := match t.wait with
    | some (.parked q) => { t with wait := some (.parked { q with pa := at' q.pa }) }
    | _ => t
  { s with
    blocks := s.blocks.map fun b => { b with threads := b.threads.map th }
    sched := { s.sched with
      tiles := s.sched.tiles.map fun e => { e with homePa := at' e.homePa }
      tasks := s.sched.tasks.map fun t =>
        if t.registered then t
        else { t with locs := t.locs.map fun x => (x.1, at' x.2), reads := t.reads.map fun x => (x.1, at' x.2) } } }

/-- Steps 3 and 4 of R277: the lines of a frozen page are gathered and the page is copied, with what errors it holds. -/
def State.copyPage (s : State) (m : Migration) : State :=
  let s := s.gatherPage m.old m.len
  let bad := s.health.bad.filterMap fun
    | .mem u => if m.old / 32 ≤ u ∧ u < (m.old + m.len) / 32 then some (ErrUnit.mem (u - m.old / 32 + m.target / 32)) else none
    | _ => none
  let s := s.putRange m.target 0 m.len (s.mem.slice m.old m.len 0)
  { s with health := { s.health with bad := s.health.bad ++ bad } }.relocate m.old m.target m.len

/-- The old home freezes the page; the rest of the migration follows at once, unless a round or a persistent request
for one of its lines has to end first (R277). -/
def execMigrationStart (env : Nat) (va : DWord) (target : Nat) (s : State) : Host.Outcome State Fault Refusal :=
  .next (match s.walk env va with
    | .leaf e log =>
      let old := leafPa e / 2 ^ log * 2 ^ log
      let len := 2 ^ log
      if s.moving old || target % len ≠ 0 || (s.homeOf target).isNone then s
      else
        let m : Migration := { env, va := va.toNat / len * len, old, target, len, copied := !s.pageBusy old len }
        let s := if m.copied then s.copyPage m else s
        { s with eng := { s.eng with migrs := s.eng.migrs ++ [m] } }
    | _ => s)

/-- The new home opens the page, once it is copied (R277 step 5). -/
def execMigrationOpen (k : Nat) (s : State) : Host.Outcome State Fault Refusal :=
  .next (match s.eng.migrs[k]? with
    | none => s
    | some m =>
      if !m.copied && s.pageBusy m.old m.len then s
      else
        let s := if m.copied then s else s.copyPage m
        { s with eng := { s.eng with migrs := s.eng.migrs.modify k fun m => { m with copied := true, open' := true } } })

/-- An access answered MOVED is translated again and reissued (R277). -/
def execMovedAnswer (blk tid : Nat) (s : State) : Host.Outcome State Fault Refusal :=
  .next (match s.block? blk with
    | none => s
    | some b =>
      if (b.th tid).stall = some 0 then
        let old (t : TlbEntry) : Bool :=
          (t.unit == b.place.core || t.unit == 1024 + b.cluster) && t.env == b.cfg.envelope &&
            s.eng.migrs.any fun m => decide (m.old < leafPa t.leaf + 2 ^ t.log ∧ leafPa t.leaf < m.old + m.len)
        ({ s with eng := { s.eng with tlb := s.eng.tlb.filter (!old ·) } }).modTh blk tid fun th => { th with stall := none }
      else s)

end Sys2Proof.Machine
end

