-- ==== Sys2Proof/Machine/Fabric.lean ====
section
/-! DEFINITION. Bridle (R395 to R399): flits, ports, the accesses of other packages, timeouts; lanes and die
boundaries (R279, R417, R418). -/

namespace Sys2Proof.Machine

/-! ## What another package asks of this one (R397) -/

/-- The physical address and the bytes of this package's memory that an access reaches. -/
def reqSpan : RemoteReq → Nat × Nat
  | .read pa size => (pa, size)
  | .write pa data => (pa, data.length)
  | .atomic _ ty pa _ _ | .bred _ ty pa _ | .bupd _ ty pa _ _ => (pa, ty.bits / 8)
  | .fput pa _ | .ftake pa | .bari pa _ | .bara pa _ | .unpark _ pa _ => (pa, 16)
  | .mbsend pa _ _ | .mbrecv pa _ | .waiter pa _ => (pa, 64)
  | .invalidate line => (128 * line, 128)
  | .again _ => (0, 0)

/-- An access that leaves memory as it is, but for the reader that the home records. -/
def reqReads : RemoteReq → Bool
  | .read _ _ => true
  | _ => false

/-- The threads of this package parked on a key, of an envelope, the earliest PARK first (R175). -/
def State.parkedHere (s : State) (env pa : Nat) : List (Nat × Nat × Nat) :=
  sortBy (fun x y => decide (x.1 ≤ y.1)) ((s.blocks.map fun x =>
    if x.cfg.envelope = env ∧ x.place.resident then
      (List.range x.cfg.bsize).filterMap fun t => match (x.th t).wait with
        | some (.parked q) =>
          if q.kind = .park ∧ q.pa = pa ∧ 4 ≤ q.scope ∧ !q.polled ∧ !q.away ∧ !q.woken then some (q.seq, x.id, t) else none
        | _ => none
    else []).flatten)

/-- What an access of another package does at its home, by the rules for a thread's own, and the bytes that it is answered
with: of an object, whether it did what it asks and what it takes. -/
def State.perform (s : State) (req : RemoteReq) : State × List Byte :=
  match req with
  | .read pa size => (s.correctRead pa size, s.readPa pa size)
  | .write pa data => (s.writePa pa data, [])
  | .atomic op ty pa b e =>
    let m := s.valPa pa (ty.bits / 8)
    (s.putPa pa (ty.bits / 8) (atomicNew op.toNat ty m b.toNat e.toNat), toBytesLE (ty.bits / 8) m)
  | .bred op ty pa b => (s.putPa pa (ty.bits / 8) (atomicNew op.toNat ty (s.valPa pa (ty.bits / 8)) b.toNat 0), [])
  | .bupd op ty pa b e => (s.putPa pa (ty.bits / 8) (bupdNew op.toNat ty (s.valPa pa (ty.bits / 8)) b.toNat e.toNat), [])
  | .fput pa value => if s.futureState pa = 1 then (s, [0#8]) else (s.fillFuture pa value.toNat, [1#8])
  | .ftake pa => if s.futureState pa = 1 then ((s.takeFuture pa true).1, 1#8 :: toBytesLE 8 (s.takeFuture pa true).2) else (s, [0#8])
  | .mbsend pa slot data =>
    if s.mbCap pa ≤ s.mbUsed pa then (s, [0#8])
    else (((s.writePa slot data).putPa (pa + 8) 8 (s.mbTail pa + 1)).wake fun q => q.kind == .mbrecv && q.pa == pa, [1#8])
  | .mbrecv pa slot => if s.mbUsed pa = 0 then (s, [0#8]) else (s.putPa pa 8 (s.mbHead pa + 1), 1#8 :: s.readPa slot 64)
  | .bari pa n => ((s.putPa (pa + 4) 4 n.toNat).putPa (pa + 8) 4 0, [])
  | .bara pa n => ((s.putPa (pa + 8) 4 (min (s.valPa (pa + 8) 4 + n.toNat) (2 ^ 32 - 1))).checkBarrier pa, toBytesLE 4 (s.valPa pa 4))
  | .unpark env pa all =>
    let ws := s.parkedHere env pa
    ((if all then ws else ws.take 1).foldl (fun s y => s.modTh y.2.1 y.2.2 Thread.wakeNow) s, [])
  | .waiter pa up => (if up then s.addWaiter pa else s.putPa pa 2 (s.valPa pa 2 - 1), [])
  | .invalidate line => (s.dropPeerLine line, [])
  | .again _ => (s, [])

/-- An answer to a package. -/
def State.reply (s : State) (source : Nat) (ok : Bool) (bs : List Byte) : State :=
  { s with outputs := s.outputs ++ [.peer source ok bs] }

/-- The lines that another package has written are taken from those that hold them, and the answer goes back: at once, or with
the end of the round that invalidates their copies (R274). -/
def State.peerTakes (s : State) (source pa n : Nat) (answer : List Byte) : State :=
  match (linesOf pa n).find? fun l => s.lineLs l != 0 with
  | none => (s.takeLines pa n).reply source true answer
  | some k =>
    let t := (linesOf pa n).foldl (fun s l =>
      if l = k then s.homeTakes l (some (.package source)) answer else s.homeTakes l none) s
    { s with coh := t.coh, outputs := t.outputs }

/-- A page on its way here, not open yet (R277). -/
def State.opening (s : State) (pa : Nat) : Bool :=
  s.eng.migrs.any fun m => decide (m.target ≤ pa ∧ pa < m.target + m.len) && !m.open'

/-- The home can record a reader of a line now (R273). -/
def State.recordable (s : State) (line : Nat) : Bool :=
  !s.coh.reclaim.contains (regionOf line).1 && s.regionRoom (regionOf line).1 &&
    ((s.lineDie line).bind fun d => s.homeServes d line).isSome

/-- An access of another package at its home here, and whether it is over: one to a page that has moved is answered MOVED; it
is held at a page that is not open yet (R277), while the L1s of the die keep tokens from it (R271), or while no entry can
record it (R273). -/
def State.serveRemote (s : State) (source : Nat) (req : RemoteReq) : State × Bool :=
  let pa := (reqSpan req).1
  let n := (reqSpan req).2
  let home : Bool := match s.homeOf pa with
    | some (.die _) => true
    | _ => false
  match req with
  | .invalidate line => ((s.dropPeerLine line).reply source true [], true)
  | .again _ => (s, true)
  | _ =>
    if s.eng.migrs.any fun m => decide (m.old ≤ pa ∧ pa < m.old + m.len) then
      ({ s with outputs := s.outputs ++ [.moved source] }, true)
    else if !home then (s.reply source false [], true)
    else if s.opening pa then (s, false)
    else if reqReads req then
      -- a slice without room reclaims an entry
      let t := (linesOf pa n).foldl (fun s l => s.remoteRead (.package source) l) s
      if !(linesOf pa n).all s.recordable then ({ s with coh := t.coh }, false)
      else if s.poisoned pa n then ((s.uncorrected (pa % 2 ^ 45 / Config.dieBytes) pa 0 0 0).reply source false [], true)
      else
        let (u, bs) := s.perform req
        (({ u with coh := t.coh } : State).reply source true bs, true)
    else if !(linesOf pa n).all fun l => (s.lineDie l).all fun d => s.canGather d l then (s, false)
    else if !(match req with
        | .write _ _ => true
        | _ => false) && s.poisoned pa n then
      ((s.uncorrected (pa % 2 ^ 45 / Config.dieBytes) pa 0 0 0).reply source false [], true)
    else
      let (t, bs) := s.perform req
      (t.peerTakes source pa n bs, true)

/-- A message arrives: of a member of the pod that is not quarantined, it is served or held; any other is answered REVOKED. -/
def State.arrival (s : State) (source : Nat) (req : RemoteReq) : State × Bool :=
  if s.fabric.members.contains source && !s.fabric.quarantine.contains source then s.serveRemote source req
  else ({ s with outputs := s.outputs ++ [.revoked source] }, true)

def State.receive (s : State) (source : Nat) (req : RemoteReq) : State :=
  match s.arrival source req with
  | (t, true) => t
  | (t, false) => { t with fabric := { t.fabric with held := t.fabric.held ++ [(source, req)] } }

/-- An access that is held is tried again. -/
def State.retryPeer (s : State) (k : Nat) : State :=
  match s.fabric.held[k]? with
  | none => s
  | some (source, req) =>
    match s.arrival source req with
    | (t, true) => { t with fabric := { t.fabric with held := t.fabric.held.eraseIdx k } }
    | (t, false) => t

def execRemoteAccessArrival (source : Nat) (req : RemoteReq) (s : State) : Host.Outcome State Fault Refusal :=
  .next (match req with
    | .again k => s.retryPeer k
    | _ => s.receive source req)

/-! ## Ports and flits (R395, R396) -/

/-- The die that a port stands on (log 36). -/
def dieOfPort (n : Nat) : Nat := n / (Config.bridlePorts / Config.dies) % Config.dies

/-- A port goes down: its event, and its unacknowledged messages go by another port toward the same package, or wait (R396,
R423). -/
def State.portDown (s : State) (n : Nat) : State :=
  let p := s.port n
  if !p.up then s
  else
    let s := s.setPort n { p with up := false, kept := [] }
    let s := (s.event (dieOfPort n) 0x21 n p.last 0).raiseAlert (dieOfPort n)
    (p.kept.map (·.dest)).dedup.foldl (fun s d => s.sendTo d (p.kept.filter (·.dest == d))) s

/-- A flit that has arrived fails: the sixteenth in a row takes its port down. -/
def State.portFail (s : State) (n : Nat) : State :=
  let p := s.port n
  let s := s.setPort n { p with fails := p.fails + 1 }
  if 16 ≤ p.fails + 1 then s.portDown n else s

/-- The other side rejects a flit of a port: the sixteenth time in a row takes the port down. -/
def State.portReject (s : State) (n : Nat) (f : Nat × Nat × Nat) : State :=
  let p := s.port n
  let k := if p.reject = some f then p.resent + 1 else 1
  let s := s.setPort n { p with reject := some f, resent := k }
  if 16 ≤ k then s.portDown n else s

/-- The sequence number expected next from a source on a channel. -/
def State.expectedSeq (s : State) (source channel : Nat) : Nat :=
  ((s.fabric.expected.find? fun e => e.1 == source && e.2.1 == channel).map (·.2.2)).getD 0

/-- The payload of a message's flits that a source has sent on a channel, this one the last. -/
def State.partOf (s : State) (f : Flit) : List Byte :=
  ((s.fabric.parts.find? fun e => e.1 == f.source && e.2.1 == f.channel).map (·.2.2)).getD [] ++ f.payload

/-- A flit is performed, once: its number is used, and a message that is whole with it arrives (R395, R396). -/
def State.performFlit (s : State) (f : Flit) : State :=
  let others := s.fabric.expected.filter fun e => !(e.1 == f.source && e.2.1 == f.channel)
  let rest := s.fabric.parts.filter fun e => !(e.1 == f.source && e.2.1 == f.channel)
  let bs := s.partOf f
  let fabric := { s.fabric with
    expected := others ++ [(f.source, f.channel, (s.expectedSeq f.source f.channel + 1) % 2 ^ 24)], received := s.fabric.received ++ [f] }
  match Config.request f.kind bs with
  | none => { s with fabric := { fabric with parts := rest ++ [(f.source, f.channel, bs)] } }
  | some req => ({ s with fabric := { fabric with parts := rest } } : State).receive f.source req

/-- A flit arrives: one whose CRC fails is discarded and asked for again; one already performed is dropped;
any other is performed once (R396). -/
def execFlitReceive (port : Nat) (flit : Flit) (s : State) : Host.Outcome State Fault Refusal :=
  .next (
    let p := s.port port
    if !p.up then s
    else if !flitGood flit then
      (({ s with outputs := s.outputs ++ [.replay port flit.source flit.channel (s.expectedSeq flit.source flit.channel)] } : State).corrected
        5 (dieOfPort port) 0).portFail port
    else
      let s := s.setPort port { p with fails := 0 }
      if flit.seq ≠ s.expectedSeq flit.source flit.channel ∨ flit.dest ≠ s.fabric.pkgid then s else s.performFlit flit)

/-- A receiver has rejected a flit, by its destination, channel and number: the port replays from it on what it keeps of that
channel (R396). -/
def execReplayRequest (port : Nat) (seq : Nat × Nat × Nat) (s : State) : Host.Outcome State Fault Refusal :=
  .next (
    let p := s.port port
    if !p.up then s
    else
      let again := (p.kept.filter fun f => f.dest == seq.1 && f.channel == seq.2.1).dropWhile (·.seq != seq.2.2)
      ({ s with fabric := { s.fabric with sent := s.fabric.sent ++ again.map fun f => (port, f) } } : State).portReject port seq)

/-- The writes to other packages that a port leads to are answered anew from now on (R399). -/
def State.restartAcks (s : State) : State :=
  let fresh (as : List Ack) : List Ack := as.map fun a => if s.reached a.pa && (s.farOf a.pa).isSome then { a with time := s.clock.time } else a
  { s with
    blocks := s.blocks.map fun b => { b with acks := fresh b.acks, records := fresh b.records }
    eng := { s.eng with copies := s.eng.copies.map fun c => { c with acks := fresh c.acks } } }

/-- A port comes back: the messages that waited for a route which it gives are sent, and the accesses that waited with them are
answered (R399). -/
def execPortComesBack (port : Nat) (s : State) : Host.Outcome State Fault Refusal :=
  .next (
    let p := s.port port
    let s := s.setPort port { p with up := true, fails := 0, reject := none, resent := 0 }
    let out := s.fabric.waiting.filter fun f => Config.toward port f.dest
    let s : State := { s with fabric := { s.fabric with waiting := s.fabric.waiting.filter fun f => !Config.toward port f.dest } }
    let s := (s.sendOn port out).restartAcks
    let free (th : Thread) : Thread := if th.remote.any fun r => r.1 != 1024 && Config.toward port r.1 then { th with remote := none } else th
    { s with blocks := s.blocks.map fun b => { b with threads := b.threads.map free, handler := free b.handler } })

/-! ## Waits for other packages (R397) -/

/-- Translations to a package are revoked by shootdowns of the pages that the TLBs hold (R278, R386). -/
def State.revoke (s : State) (pkg : Nat) : State :=
  ((s.eng.tlb.filter fun e => leafPa e.leaf / 2 ^ 46 == pkg).map fun e => (e.env, e.va, 2 ^ e.log)).dedup.foldl
    (fun s x => s.shoot x.1 x.2.1 x.2.2) s

/-- A write outstanding to a package. -/
def State.ackTo (s : State) (pkg : Nat) (a : Ack) : Bool :=
  match s.homeOf a.pa with
  | some (.package n) => n == pkg
  | _ => a.pa / 2 ^ 46 == pkg && pkg != s.fabric.pkgid

/-- The writes outstanding to a package count as acknowledged; each block that held one stops. -/
def State.dropAcks (s : State) (pkg : Nat) : State :=
  let keep (as : List Ack) : List Ack := as.filter fun a => !s.ackTo pkg a
  let cleared : State := { s with
    blocks := s.blocks.map fun b => { b with acks := keep b.acks, records := keep b.records }
    eng := { s.eng with copies := s.eng.copies.map fun c => { c with acks := keep c.acks } } }
  let cleared := s.blocks.foldl (fun u b => if b.triggering then u.noteTrigger b.id else u) cleared
  s.blocks.foldl (fun u b =>
    match minBy (·.time) ((s.owed b).filter (s.ackTo pkg)) with
    | none => u
    | some a =>
      u.stopLate b { info := { cause := .ackTimeout, addr := a.va }, tids := [], thr := a.tid, pc := (b.th a.tid).pc }) cleared

/-- A target that does not answer is quarantined by the package that waits. -/
def State.giveUp (s : State) (die pkg : Nat) : State :=
  (((s.quarantine die pkg 1).forgetPackage pkg).revoke pkg).dropAcks pkg

def execAckTimeout (pkg : Nat) (s : State) : Host.Outcome State Fault Refusal :=
  .next (match s.blocks.find? fun b => (s.owed b).any fun a => s.ackTo pkg a && decide (a.time + s.fabric.ackto ≤ s.clock.time) with
    | none => s
    | some b => s.giveUp b.die pkg)

/-- A thread that waits for an answer of a package takes a trap at its access. -/
def State.failRemote (s : State) (blk tid : Nat) (cause : Cause) : State :=
  match s.block? blk with
  | none => s
  | some b =>
    match (b.th tid).remote with
    | none => s
    | some (_, _, t) =>
      let t := if cause = .accessRevoked then t else { t with cause, extra := 0#64 }
      (s.modTh blk tid fun th => { th with remote := none }).failThreads blk (tid == b.cfg.bsize) [(tid, t)]

/-- The package that a thread waits for, and since when. -/
def State.remoteOf (s : State) (blk tid : Nat) : Option (Nat × Nat) :=
  ((s.block? blk).bind fun b => (b.th tid).remote).map fun r => (r.1, r.2.1)

def execLoadTimeout (blk tid pkg : Nat) (s : State) : Host.Outcome State Fault Refusal :=
  .next (match s.remoteOf blk tid with
    | none => s
    | some (p, t) =>
      if p = pkg ∧ p ≠ 1024 ∧ t + s.fabric.ackto ≤ s.clock.time then
        (s.giveUp (((s.block? blk).map Block.die).getD 0) pkg).failRemote blk tid .accessRevoked
      else s)

def execRevokedAnswer (blk tid : Nat) (s : State) : Host.Outcome State Fault Refusal :=
  .next (match s.remoteOf blk tid with
    | none => s
    | some (p, _) => if p = 1024 then s else s.failRemote blk tid .accessRevoked)

/-- The host does not complete a read or an atomic within the timeout (R394). -/
def execHostCompletionTimeout (blk tid : Nat) (s : State) : Host.Outcome State Fault Refusal :=
  .next (match s.remoteOf blk tid with
    | none => s
    | some (p, t) => if p = 1024 ∧ t + s.fabric.ackto ≤ s.clock.time then s.failRemote blk tid .uncorrectedData else s)

/-! ## Lanes and boundaries (R279, R417, R418) -/

/-- The dies that can still write their rings. -/
def State.writingDies (s : State) : List Nat := (List.range Config.dies).filter fun d => !s.health.held.contains d

/-- Every context of the package is killed, once, with an event on every die that can still write (R418,
R423). -/
def State.killAll (s : State) (cause : Nat) : State :=
  let ts := s.sched.tasks.filter (·.ending.isNone)
  ts.foldl (fun s t =>
    let s := s.writingDies.foldl (fun s d =>
      s.event d 0x40 t.cfg.envelope t.id cause (some (0, 2 ^ 32 * 0xFFFF))) s
    s.endTask t.id (.context cause)) s

/-- A die boundary is lost. -/
def State.loseBoundary (s : State) (n : Nat) : State :=
  if s.health.lost.contains n then s
  else
    let s := { s with accepts := false, health := { s.health with lost := s.health.lost ++ [n] } }
    let s := s.writingDies.foldl (fun s d => s.event d 0x22 n 0 0) s
    (s.writingDies.foldl State.raiseAlert s).killAll (causeCode .uncorrectedData)

def execBoundaryLost (boundary : Nat) (s : State) : Host.Outcome State Fault Refusal := .next (s.loseBoundary boundary)

/-- Spare lanes of a group of a boundary. -/
def sparesPerGroup : Nat := 2

def State.sparesUsed (s : State) (n group : Nat) : Nat :=
  ((s.health.spares.find? fun x => x.1 == n && x.2.1 == group).map (·.2.2)).getD 0

/-- A failing lane is repaired: a spare of its group, or none left and the boundary is lost; a Bridle port
goes on with one lane, or down. The repair is recorded in flash. -/
def State.repairLane (s : State) (link : Link) (lane : Nat) : State :=
  let noted (s : State) : State := { s with health := { s.health with repairs := s.health.repairs ++ [(link, lane)] } }
  match link with
  | .boundary n group =>
    let used := s.sparesUsed n group
    if sparesPerGroup ≤ used then s.loseBoundary n
    else
      let others := s.health.spares.filter fun x => !(x.1 == n && x.2.1 == group)
      -- eight flits have been sent again (R413, R417)
      let s := (List.range 8).foldl (fun s _ => s.corrected 4 (n % Config.dies) 0) s
      let s : State := { s with health := { s.health with spares := others ++ [(n, group, used + 1)] } }
      noted (s.event (n % Config.dies) 0x20 n lane (sparesPerGroup - used - 1))
  | .port n =>
    let p := s.port n
    if p.lanes ≤ 1 then (s.setPort n { p with lanes := 0 }).portDown n
    else noted ((s.setPort n { p with lanes := p.lanes - 1 }).event (dieOfPort n) 0x20 (0x100 + n) lane 0)

def execLaneRepair (link : Link) (lane : Nat) (s : State) : Host.Outcome State Fault Refusal := .next (s.repairLane link lane)

/-- The widths of the host link, and its rates in GT/s, 2 for 2.5 (R390). -/
def linkWidths : List Nat := [16, 8, 4, 1]
def linkRates : List Nat := [128, 64, 32, 16, 8, 5, 2]

/-- The host link trains down, to a width and a rate of the standard: no result changes (R390, R399). -/
def execHostLinkTrainsDown (width rate : Nat) (s : State) : Host.Outcome State Fault Refusal :=
  .next (if linkWidths.contains width ∧ linkRates.contains rate ∧ width ≤ s.host.width ∧ rate ≤ s.host.rate then
    { s with host := { s.host with width, rate } } else s)

end Sys2Proof.Machine
end

