-- ==== Sys2Proof/Machine/HostLink.lean ====
section
/-! DEFINITION. The host's side (R326, R390 to R394): BAR0, doorbells, CXL.mem, and what the management plane
binds for it. -/

namespace Sys2Proof.Machine

/-! ## Doorbells (R391, R392) -/

/-- A queue is bound to the envelope of a function. -/
def State.reachesQueue (s : State) (fn die queue : Nat) : Bool :=
  match s.fnEnv fn, s.binding die queue with
  | some e, some (env, _) => e == env
  | _, _ => false

def State.dropsOf (s : State) (die queue : Nat) : Nat :=
  ((s.host.drops.find? fun d => d.1 == die && d.2.1 == queue).map (·.2.2)).getD 0

def State.setDrops (s : State) (die queue n : Nat) : State :=
  let others := s.host.drops.filter fun d => !(d.1 == die && d.2.1 == queue)
  { s with host := { s.host with drops := if n = 0 then others else others ++ [(die, queue, n)] } }

/-- A dropped doorbell write: counted, and vector 0 fires. -/
def State.dropDoorbell (s : State) (fn die queue : Nat) : State :=
  (s.setDrops die queue (min 0xFFFF (s.dropsOf die queue + 1))).fire fn 0

/-- The queue message of a doorbell write. -/
def hostMsg (env task : Nat) : Msg := { task, srcenv := env, src := .host, prio := 0, ifund := 0, tfund := 0 }

/-- The page of an address is on the move and not open yet: an access to it is held (R277). -/
def State.onMove (s : State) (core env : Nat) (va : DWord) : Bool :=
  let shut (e : BitVec 64) (log : Nat) : Bool := (s.newHome (paOf e log va)).isNone
  match s.tlbFind core env va with
  | some e => shut e.leaf e.log
  | none => match s.walk env va with
    | .leaf e log => shut e log
    | _ => false

/-- The header of a bound queue, or its next slot, is on a page on the move. -/
def State.queueOnMove (s : State) (die queue : Nat) : Bool :=
  (s.binding die queue).any fun b =>
    s.onMove (dieCore die) b.1 (BitVec.ofNat 64 b.2) || match s.queueHeader die queue with
      | some (env, mb, pa) => s.onMove (dieCore die) env (BitVec.ofNat 64 (slotOf mb (s.mbTail pa) (s.mbCap pa)))
      | none => false

/-- A doorbell write is performed: the message in the next slot, or the write is dropped; none while it is held (R277,
R392). -/
def State.ringNow (s : State) (fn die queue : Nat) (value : DWord) : Option State :=
  if !s.reachesQueue fn die queue then some s
  else if bits value 0 7 ≠ 0 ∨ !s.accepts then some (s.dropDoorbell fn die queue)
  else if s.queueOnMove die queue then none
  else
    match s.queueHeader die queue with
    | none =>
      -- a header with an uncorrectable error takes no message (R414, log 86)
      let s := match s.badHeader die queue with
        | some (env, pa) => s.uncorrected die pa 0 env 1
        | none => s
      some (s.dropDoorbell fn die queue)
    | some (env, mb, pa) =>
      match s.queueSlot die env mb pa (s.mbTail pa) with
      | none => some (s.dropDoorbell fn die queue)
      | some spa =>
        if s.mbCap pa ≤ s.mbUsed pa then some (s.dropDoorbell fn die queue)
        else some ((((s.takeLines spa 64).takeLines pa 64).writePa spa (hostMsg env value.toNat).bytes).putPa (pa + 8) 8 (s.mbTail pa + 1))

/-- A doorbell write to the queue is held: later ones come after it (R392). -/
def State.ringHeld (s : State) (die queue : Nat) (held : List (Nat × HostReq)) : Bool :=
  held.any fun h => match h.2 with
    | .ring d q _ => d == die && q == queue && s.reachesQueue h.1 die queue
    | _ => false

/-- An access of the host is held. -/
def State.holdHost (s : State) (fn : Nat) (req : HostReq) : State :=
  { s with host := { s.host with held := s.host.held ++ [(fn, req)] } }

/-- A doorbell write arrives. -/
def State.ring (s : State) (fn die queue : Nat) (value : DWord) : State :=
  if s.ringHeld die queue s.host.held then s.holdHost fn (.ring die queue value)
  else match s.ringNow fn die queue value with
    | some s => s
    | none => s.holdHost fn (.ring die queue value)

def execDoorbell (fn die queue : Nat) (value : DWord) (s : State) : Host.Outcome State Fault Refusal :=
  .next (s.ring fn die queue value)

/-- An answer to the host. -/
def State.hostReply (s : State) (ok : Bool) (bs : List Byte) : State := { s with outputs := s.outputs ++ [.host ok bs] }

/-- QSTAT as it reads: FREE and DROPS. -/
def State.qstat (s : State) (die queue : Nat) : Nat :=
  let free := match s.queueHeader die queue with
    | some (_, _, pa) => s.mbCap pa - s.mbUsed pa
    | none => 0
  min 0xFFFF free + 65536 * s.dropsOf die queue

/-- A read of QSTAT, which clears DROPS; of a queue that is not bound to the function's envelope it is zero. -/
def State.readQstat (s : State) (fn die queue : Nat) : State :=
  if !s.reachesQueue fn die queue then s.hostReply true (toBytesLE 8 0)
  else (s.setDrops die queue 0).hostReply true (toBytesLE 8 (s.qstat die queue))

def execQstatRead (fn die queue : Nat) (s : State) : Host.Outcome State Fault Refusal := .next (s.readQstat fn die queue)

/-! ## The other registers (R391, R393) -/

/-- The queue or die that an offset of BAR0 lies in. -/
def queueAt (offset : Nat) : Option (Nat × Nat × Nat) :=
  let o := offset - 0x10000
  if 0x10000 ≤ offset ∧ o / 0x1000 < Config.dies then some (o / 0x1000, o % 0x1000 / 0x40, o % 0x40) else none

def fqAt (offset : Nat) : Option (Nat × Nat) :=
  let o := offset - 0x50000
  if 0x50000 ≤ offset ∧ o / 0x100 < Config.dies then some (o / 0x100, o % 0x100) else none

/-- A fault-queue register written (R393). -/
def State.writeFq (s : State) (die off : Nat) (value : DWord) : State :=
  let mod (f : FaultQueue → FaultQueue) : State := { s with host := { s.host with fqs := s.host.fqs.modify die f } }
  match off with
  | 0x00 => s.setFqBase die value
  | 0x08 => if 6 ≤ value.toNat ∧ value.toNat ≤ 16 then mod fun q => { q with log := value.toNat } else s
  | 0x18 => mod fun q => { q with head := value.toNat }
  | 0x20 => if bits value 2 30 = 0 then s.fqAnswer die (bits value 32 32) (bits value 0 2) else s
  | _ => s

/-- A write to BAR0 by its offset: read-only registers and those not bound to the function ignore it. -/
def State.writeBar (s : State) (fn offset : Nat) (value : DWord) : State :=
  match queueAt offset, fqAt offset with
  | some (die, queue, off), _ => if off = 0 then s.ring fn die queue value else s
  | none, some (die, off) => if s.reachesDie fn die then s.writeFq die off value else s
  | none, none =>
    if 0x60000 ≤ offset ∧ offset < 0x60000 + 64 * 16 ∧ offset % 8 = 0 then
      let others := s.host.words.filter fun w => !(w.1 == fn && w.2.1 == offset)
      { s with host := { s.host with words := others ++ [(fn, offset, value)] } }
    else s

def execRegisterWrite (fn offset : Nat) (value : DWord) (s : State) : Host.Outcome State Fault Refusal :=
  .next (s.writeBar fn offset value)

/-- IDENT: the part and generation, and the revision of the firmware. -/
def State.ident (s : State) : Nat := 2 ^ 32 * 0x07680008 + s.fw.revision % 2 ^ 32

/-- A word of the MSI-X table as it reads: an entry is masked until it is written (log 34). -/
def State.msixWord (s : State) (fn offset : Nat) : Nat :=
  ((s.host.words.find? fun w => w.1 == fn && w.2.1 == offset).map (·.2.2.toNat)).getD (if offset % 16 = 8 then 2 ^ 32 else 0)

/-- A fault-queue register as it reads (R393): FQRESP is written alone. -/
def FaultQueue.word (q : FaultQueue) (off : Nat) : Nat :=
  match off with
  | 0x00 => q.base
  | 0x08 => q.log
  | 0x10 => q.tail
  | 0x18 => q.head
  | _ => 0

/-- A read of BAR0 by its offset: write-only registers, and those not bound to the function, read as zero (R391). -/
def State.readBar (s : State) (fn offset : Nat) : State :=
  match queueAt offset, fqAt offset with
  | some (die, queue, off), _ => if off = 8 then s.readQstat fn die queue else s.hostReply true (toBytesLE 8 0)
  | none, some (die, off) => s.hostReply true (toBytesLE 8 (if s.reachesDie fn die then (s.host.fqs.getD die {}).word off else 0))
  | none, none =>
    s.hostReply true (toBytesLE 8 (if offset = 0 then s.ident
      else if 0x60000 ≤ offset ∧ offset < 0x60000 + 64 * 16 ∧ offset % 8 = 0 then s.msixWord fn offset else 0))

/-! ## CXL.mem and AtomicOps (R390, R394, R414) -/

/-- Where an access of the host lies. -/
inductive HostPlace where
  | at (pa : Nat)
  | error
  /-- Its page is not open yet at its new home (R277). -/
  | hold
  deriving DecidableEq, Repr

/-- An address of this package's memory as the host reaches it: at the new home of a page that has moved. -/
def State.hostHome (s : State) (pa : Nat) : HostPlace :=
  match s.homeOf pa with
  | some (.die _) => match s.newHome pa with
    | some p => .at p
    | none => .hold
  | _ => .error

/-- A virtual function's access through its envelope's tables: nothing is replayed, and an uncorrectable error in an entry is
logged (R394, R414). -/
def State.hostXlate (s : State) (env : Nat) (va : DWord) (k : Kind) : State × HostPlace :=
  match s.walk env va with
  | .leaf e log => (s, if (s.leafFault e va k).isSome then .error else s.hostHome (paOf e log va))
  | .fault t => (if t.cause = .uncorrectedData then s.uncorrected 0 (s.walkStop va 3 (s.env env).root) 0 env 3 else s, .error)
  | .replay _ => (s, .error)

/-- The physical function reaches device memory directly, a virtual one through its envelope's tables; neither may write a
capability table (R344). -/
def State.hostReach (s : State) (fn addr : Nat) (k : Kind) (n : Nat) : State × HostPlace :=
  if fn = 0 then (s, s.hostHome (s.fabric.pkgid * 2 ^ 46 + addr % 2 ^ 45))
  else match s.fnEnv fn with
    | none => (s, .error)
    | some env =>
      if 2 ^ 57 ≤ addr ∨ (k ≠ .read ∧ s.inCaps env addr n) then (s, .error) else s.hostXlate env (BitVec.ofNat 64 addr) k

/-- The new value of an AtomicOp: FetchAdd, Swap, CAS. -/
def hostOp (op : BitVec 2) (n m b e : Nat) : Nat :=
  match op.toNat with
  | 0 => (m + b) % 2 ^ (8 * n)
  | 1 => b % 2 ^ (8 * n)
  | _ => if m = e % 2 ^ (8 * n) then b % 2 ^ (8 * n) else m

/-- Bytes, address and kind of an access of the host to device memory. -/
def hostSpan : HostReq → Nat × Nat × Kind
  | .read addr size => (addr, size, .read)
  | .write addr data => (addr, data.length, .write)
  | .atomic _ wide addr _ _ => (addr, if wide then 8 else 4, .atomic)
  | .bar _ | .ring _ _ _ | .again _ => (0, 0, .read)

/-- An access of the host that has reached its place. -/
def State.hostPerform (s : State) (fn pa : Nat) (req : HostReq) : State :=
  let n := (hostSpan req).2.1
  let read : Bool := match req with
    | .write _ _ => false
    | _ => true
  if read && s.poisoned pa n then
    (s.uncorrected (pa % 2 ^ 45 / Config.dieBytes) pa 0 ((s.fnEnv fn).getD 0) 3).hostReply false []
  else match req with
    | .write _ data => ((s.takeLines pa n).writePa pa data).hostReply true []
    | .atomic op _ _ b e =>
      let s := s.correctRead pa n
      ((s.takeLines pa n).putPa pa n (hostOp op n (s.valPa pa n) b.toNat e.toNat)).hostReply true (s.readPa pa n)
    | _ => (s.correctRead pa n).hostReply true (s.readPa pa n)

/-- An access of the host, and whether it is over. An atomic that is not aligned, or is none of the three, is completed with an
error (log 85). -/
def State.hostNow (s : State) (fn : Nat) (req : HostReq) : State × Bool :=
  match req with
  | .again _ => (s, true)
  | .bar offset => (s.readBar fn offset, true)
  | .ring die queue value => match s.ringNow fn die queue value with
    | some s => (s, true)
    | none => (s, false)
  | req =>
    let (addr, n, k) := hostSpan req
    let odd : Bool := match req with
      | .atomic op _ _ _ _ => op == 3#2 || addr % n != 0
      | _ => false
    if odd then (s.hostReply false [], true)
    else match s.hostReach fn addr k n with
      | (s, .error) => (s.hostReply false [], true)
      | (s, .hold) => (s, false)
      | (s, .at pa) => (s.hostPerform fn pa req, true)

/-- An access of the host that is held is tried again, a doorbell write behind the earlier ones of its queue. -/
def State.retryHost (s : State) (k : Nat) : State :=
  match s.host.held[k]? with
  | none => s
  | some (fn, req) =>
    let behind : Bool := match req with
      | .ring die queue _ => s.ringHeld die queue (s.host.held.take k)
      | _ => false
    if behind then s
    else match s.hostNow fn req with
      | (t, true) => { t with host := { t.host with held := t.host.held.eraseIdx k } }
      | (_, false) => s

/-- An access of the host arrives. -/
def State.hostAccess (s : State) (fn : Nat) (req : HostReq) : State :=
  match req with
  | .again k => s.retryHost k
  | .ring die queue value => s.ring fn die queue value
  | req => match s.hostNow fn req with
    | (t, true) => t
    | (t, false) => t.holdHost fn req

def execHostMemAccess (fn : Nat) (req : HostReq) (s : State) : Host.Outcome State Fault Refusal := .next (s.hostAccess fn req)

/-! ## Bindings -/

/-- A function bound to an envelope: the physical function and 63 virtual ones (R390). -/
def execFunctionBinding (fn env : Nat) (s : State) : Host.Outcome State Fault Refusal :=
  .next (if fn < 64 ∧ env < Config.envelopes then
    { s with host := { s.host with fns := (s.host.fns.filter (·.1 != fn)) ++ [(fn, env)] } } else s)

/-- The root table of an envelope (R381). -/
def execRootTableAddress (env root : Nat) (s : State) : Host.Outcome State Fault Refusal :=
  .next (if env < Config.envelopes ∧ root % 65536 = 0 then s.modEnv env fun e => { e with root } else s)

/-- The management plane pays a block's reel: the overdraft first (R360). -/
def State.payReel (s : State) (blk : Nat) (traffic : Bool) (amount : Nat) : State :=
  s.modBlock blk fun b =>
    let r := b.regs
    let debt := if traffic then r.tover.toNat else r.iover.toNat
    let reel := if traffic then r.treel.toNat else r.ireel.toNat
    let left := BitVec.ofNat 64 (debt - amount)
    let new := BitVec.ofNat 64 (min (reel + (amount - debt)) (2 ^ 64 - 1))
    { b with regs := if traffic then { r with treel := new, tover := left } else { r with ireel := new, iover := left } }

def execDirectReelPayment (blk : Nat) (traffic : Bool) (amount : Nat) (s : State) : Host.Outcome State Fault Refusal :=
  .next (s.payReel blk traffic amount)

end Sys2Proof.Machine
end

