-- ==== Sys2Proof/Machine/Management.lean ====
section
/-! DEFINITION. Management, firmware and power (R413, R416, R420 to R436): measurements, freeze, resets, the
commands of R428, sensors, firmware, attestation. -/

namespace Sys2Proof.Machine

/-! ## Replies -/

/-- A message on the side-band port or the function's mailbox: answered while firmware runs (R429). -/
def State.manage (s : State) (f : State → Nat × List Byte × State) : State :=
  if s.fw.running.isNone then s
  else
    let (code, body, s) := f s
    { s with outputs := s.outputs ++ [.reply code body] }

/-- A command with its completion byte alone: done, busy or a bad argument (R428). -/
def State.command (s : State) (busy ok : Bool) (f : State → State) : State :=
  s.manage fun s => if !ok then (2, [], s) else if busy then (1, [], s) else (0, [], f s)

/-- A context is resident on some die that meets a test. -/
def State.someResident (s : State) (p : Nat → Bool) : Bool :=
  s.blocks.any fun b => b.place.resident && !b.ended && p b.die

/-! ## Power (R4, R432) -/

/-- Mean of the measurements of the last millisecond, in whole W. -/
def Clock.average (c : Clock) : Nat := sum c.watts / max 1 c.watts.length

/-- The mean lies above so many percent of the limit, or below. -/
def Clock.above (c : Clock) (percent : Nat) : Bool := decide (percent * c.limit * c.watts.length < 100 * sum c.watts)
def Clock.below (c : Clock) (percent : Nat) : Bool := decide (100 * sum c.watts < percent * c.limit * c.watts.length)

/-- One measurement: the clock steps down while over the limit, and up after 100 µs below 97 % of it; the
count restarts with each step up (log 37). -/
def Clock.measure (c : Clock) (watts : Nat) (hot : Bool) : Clock :=
  let c := { c with watts := (watts :: c.watts).take 100, measured := c.measured + 1 }
  let above := c.above 100 || hot
  let below := c.below 97 && !hot
  let calm := if below then c.calm + 1 else 0
  if above then { c with mhz := max 1000 (c.mhz - 25), calm := 0, hold := decide (c.mhz ≤ 1000) }
  else if 10 ≤ calm then { c with mhz := min 2700 (c.mhz + 25), calm := 0, hold := false }
  else { c with calm, hold := false }

/-- The correction counter of a structure and die. -/
def State.correctionCount (s : State) (store die : Nat) : Nat :=
  ((s.health.counts.find? fun c => c.store == store && c.die == die).map (·.count)).getD 0

/-- The corrected errors of a die. -/
def State.correctedOn (s : State) (die : Nat) : Nat := sum ((List.range 7).map fun k => s.correctionCount k die)

/-- HBM hbmStacks of the package (R2). -/
def hbmStacks : Nat := 16

/-- The sensors that change once a millisecond (R433). -/
def slowSensors : List Sensor :=
  (List.range Config.dies).map .dieTemperature ++ (List.range hbmStacks).map .stackTemperature ++ (List.range Config.dies).map .corrected

/-- Their readings are taken anew. -/
def State.takeReadings (s : State) : State :=
  { s with
    choices := s.choices + slowSensors.length
    fw := { s.fw with readings := slowSensors.zipIdx.map fun x => (x.1, match x.1 with
      | .corrected die => s.correctedOn die
      | _ => Config.temperature (s.choices + x.2)) } }

/-- Power is measured, and every hundredth time the slow sensors are read (R432, R433). -/
def execPowerMeasurement (s : State) : Host.Outcome State Fault Refusal :=
  .next (
    let t : State := { s with choices := s.choices + 1, clock := s.clock.measure (Config.power s.choices) (Config.hot s.choices) }
    if t.clock.measured % 100 = 0 then t.takeReadings else t)

/-- THERMTRIP_N removes module power (R432). -/
def execThermalTrip (s : State) : Host.Outcome State Fault Refusal :=
  .next { s with dark := true, outputs := s.outputs ++ [.thermtrip] }

def State.setLimit (s : State) (watts : Nat) : State :=
  s.command false (decide (1500 ≤ watts ∧ watts ≤ 3200)) fun s => { s with clock := { s.clock with limit := watts } }

def execSetLimit (watts : Nat) (s : State) : Host.Outcome State Fault Refusal := .next (s.setLimit watts)

/-! ## Freeze (R420) -/

/-- A FREEZE event on every die, and every clock but the management domain's stops. -/
def State.freezeAll (s : State) (sideband : Nat) : State :=
  if s.frozen then s
  else
    let s := (List.range Config.dies).foldl (fun s d => s.event d 0x02 0 sideband 0) s
    -- an update in progress stops (R436)
    { s with blocks := s.blocks.map Block.dissolveAll, mate := none, ahead := none, frozen := true
             fw := { s.fw with updating := false } }

def execFreezeInput (s : State) : Host.Outcome State Fault Refusal := .next (s.freezeAll 0)

/-- The side-band's command. -/
def State.freezeCommand (s : State) : State := s.command false true (·.freezeAll 1)

def execFreeze (s : State) : Host.Outcome State Fault Refusal := .next s.freezeCommand

/-! ## Images (R429, R430) -/

/-- An image is accepted: the key, the signature, the body and the version. -/
def Firmware.accepts (f : Firmware) (img : List Byte) : Bool :=
  let part (off n : Nat) : List Byte := (img.drop off).take n
  let len := ofBytesLE (part 0x0C 4)
  decide (0x200 + len ≤ img.length) && Config.sha256 (part 0x30 64) == f.keyHash &&
    Config.ecdsaP256 (ofBytesBE (part 0x30 64)) (part 0 0x70) (ofBytesBE (part 0x70 64)) &&
    Config.sha256 (part 0x200 len) == ofBytesBE (part 0x10 32) && decide (f.rollback ≤ ofBytesLE (part 8 4))

/-- The boot: the slot marked active first, the other second; an image that is accepted raises the rollback
counter to its version. -/
def Firmware.boot (f : Firmware) : Firmware :=
  let first := if f.activeB then f.slotB else f.slotA
  let second := if f.activeB then f.slotA else f.slotB
  let run (img : List Byte) : Firmware :=
    { f with running := some img, revision := ofBytesLE ((img.drop 4).take 4), bootFail := false
             rollback := max f.rollback (ofBytesLE ((img.drop 8).take 4)) }
  if f.accepts first then run first
  else if f.accepts second then run second
  else { f with running := none, bootFail := true }

/-- A firmware update: the inactive slot is written, and is none that could be accepted until the image is whole; a whole image
that is accepted is marked active for the next reset (R430). -/
def Firmware.update (f : Firmware) (img : List Byte) (whole : Bool) : Firmware :=
  let img := if whole then img else []
  let g := if f.activeB then { f with slotA := img, updating := !whole } else { f with slotB := img, updating := !whole }
  if whole && f.accepts img then { g with activeB := !f.activeB } else g

/-- In a frozen package no update goes on (R436). -/
def execFirmwareUpdate (image : List Byte) (whole : Bool) (s : State) : Host.Outcome State Fault Refusal :=
  .next (if s.frozen then s else s.manage fun s => (0, [], { s with fw := s.fw.update image whole }))

/-! ## Resets (R434) -/

/-- The ports and spares as the lane-repair table of flash leaves them (R417). -/
def repairedPorts (repairs : List (Link × Nat)) : List (Nat × Port) :=
  ((repairs.filterMap fun r => match r.1 with
    | .port n => some n
    | .boundary _ _ => none).dedup).map fun n =>
      (n, { lanes := 2 - (repairs.filter fun r => r.1 == .port n).length })

def repairedSpares (repairs : List (Link × Nat)) : List (Nat × Nat × Nat) :=
  ((repairs.filterMap fun r => match r.1 with
    | .port _ => none
    | .boundary n g => some (n, g)).dedup).map fun x =>
      (x.1, x.2, (repairs.filter fun r => r.1 == .boundary x.1 x.2).length)

/-- A RESET event on every die. -/
def State.noteReset (s : State) (arg : Nat) : State := (List.range Config.dies).foldl (fun s d => s.event d 0x01 0 arg 0) s

/-- The memory that is not this package's own: the host's, which package 0 reaches from now on, and the peers'. -/
def State.foreign (s : State) : Memory :=
  let host := s.mem.slice (s.fabric.pkgid * 2 ^ 46 + 2 ^ 45) (2 ^ 45) (2 ^ 45)
  (((s.mem.clear (s.fabric.pkgid * 2 ^ 46) (2 ^ 46)).clear 0 (2 ^ 46)).overlay (2 ^ 45) (2 ^ 45) host).filter fun c => decide (c.1 < deviceBase)

/-- The package accepts launches when it has booted and no die is held in reset (R434). -/
def State.opens (s : State) : State := { s with accepts := s.fw.running.isSome && s.health.held.isEmpty }

/-- Everything that runs is gone: contexts, schedulers, engines, copies of lines. -/
def State.emptied (s : State) : State :=
  { s with
    blocks := [], sched := {}, eng := {}, coh := { rlc := s.coh.rlc }
    envs := s.envs.map fun e => { e with usage := [] }
    fabric := { s.fabric with ports := repairedPorts s.health.repairs, expected := [], sent := [], received := [], next := []
                              waiting := [], parts := [], held := [] }
    frozen := false, agenda := [], cur := none, mate := none, ahead := none, pays := [] }

/-- No image is accepted: the package stays in reset, and steps 2 to 8 are not performed (R429, R434). -/
def State.stayInReset (s : State) (fw : Firmware) : State :=
  { s.emptied with fw, accepts := false, host := { s.host with trained := false, held := [] } }

/-- The cold reset: flash alone is kept, and the memory that is not the package's own. -/
def State.coldBoot (s : State) : State :=
  let fw := { s.fw with alerts := [], updating := false, readings := [] }.boot
  if fw.running.isNone then s.stayInReset fw
  else
    let held := (List.range Config.dies).filter fun d => !Config.trained (s.choices + d)
    let t : State :=
      { clock := {}, mem := s.foreign, fw, choices := s.choices + Config.dies, outputs := s.outputs
        fabric := { ports := repairedPorts s.health.repairs }
        host := { trained := true }
        health := { retired := s.health.retired, repairs := s.health.repairs, spares := repairedSpares s.health.repairs, held } }
    (t.noteReset 0).opens

def execColdReset (s : State) : Host.Outcome State Fault Refusal := .next (if s.dark then s else s.coldBoot)

/-- The warm reset: the management domain, memory and the black boxes stay. The power limit is that of a reset again, for
no rule carries it over (R7); the core-cycle count and the clock start anew (log 66). -/
def State.warmBoot (s : State) : State :=
  let keepUnit (u : ErrUnit) : Bool := match u with
    | .mem _ | .ring _ _ => true
    | _ => false
  let fw := { s.fw with updating := false }.boot
  if fw.running.isNone then s.stayInReset fw
  else
    let t : State :=
      { s.emptied with
        clock := { time := s.clock.time, watts := s.clock.watts, measured := s.clock.measured }
        host := { trained := true, width := s.host.width, rate := s.host.rate, fns := s.host.fns, queues := s.host.queues }
        health := { s.health with
          lost := [], spares := repairedSpares s.health.repairs
          bad := s.health.bad.filter keepUnit, soft := s.health.soft.filter keepUnit }
        fw }
    (t.noteReset 1).opens

def execWarmReset (s : State) : Host.Outcome State Fault Refusal := .next (if s.dark then s else s.warmBoot)

/-- Release of PERST_N resets and trains the host link alone, to a width and a rate of the standard: the MSI-X tables are masked
again, DROPS is 0, and accesses that were held are gone (R390, R391, R435, log 85). -/
def execHostLinkReset (width rate : Nat) (s : State) : Host.Outcome State Fault Refusal :=
  .next (if linkWidths.contains width ∧ linkRates.contains rate then
    { s with host := { s.host with trained := s.fw.running.isSome, width, rate, words := [], drops := [], held := [] } } else s)

/-! ## Commands (R428) -/

/-- Entry k of a ring as it reads: KIND 0xFE alone for one whose check fails (R422). -/
def State.ringEntry (s : State) (die k : Nat) : List Byte :=
  if s.health.bad.contains (.ring die k) then List.replicate 15 0#8 ++ [0xFE#8]
  else ((s.health.boxes.getD die {}).ring).read (16 * k) 16

/-- BBOX_READ: BBIDX, the ring of 64 KiB, BBIDX again; the die's unread events are read. -/
def State.bboxRead (s : State) (die : Nat) : State :=
  s.manage fun s =>
    if Config.dies ≤ die then (2, [], s)
    else
      let n := toBytesLE 8 (s.health.boxes.getD die {}).bbidx
      (0, n ++ ((List.range Config.blackBoxEntries).map (s.ringEntry die)).flatten ++ n,
        { s with fw := { s.fw with alerts := s.fw.alerts.filter (· != die) } })

def execBboxRead (die : Nat) (s : State) : Host.Outcome State Fault Refusal := .next (s.bboxRead die)

/-- The range of a setting (R362). -/
def settingOk (f : EnvField) (x : Nat) : Bool :=
  match f with
  | .memquota => decide (x < 2 ^ 40)
  | .ipool | .tpool | .irefill | .trefill | .debt => decide (x < 2 ^ 64) && f != .debt
  | .landtime => decide (10000 ≤ x ∧ x ≤ 100000000 ∧ x % 10000 = 0)
  | .saveres => decide (x ≤ 2 ^ 40)
  | .rename => decide (x ≤ 2 ^ 20)
  | .captab => decide (x < 2 ^ 57)
  | .capn => decide (x ≤ 1024)
  | .weight => decide (1 ≤ x ∧ x ≤ 255)
  | .hbmmin | .hbmmax => decide (x ≤ 100)

/-- One setting written. -/
def Envelope.put (e : Envelope) (f : EnvField) (x : Nat) : Envelope :=
  match f with
  | .memquota => { e with memquota := x } | .ipool => { e with ipool := x } | .tpool => { e with tpool := x }
  | .irefill => { e with irefill := x } | .trefill => { e with trefill := x } | .debt => { e with debt := x }
  | .landtime => { e with landtime := x } | .saveres => { e with saveres := x } | .rename => { e with rename := x }
  | .captab => { e with captab := x } | .capn => { e with capn := x } | .weight => { e with weight := x }
  | .hbmmin => { e with hbmmin := x } | .hbmmax => { e with hbmmax := x }

/-- ENV_SET; a pool that grows pays the reels that wait for it (R360). -/
def State.envSet (s : State) (env : Nat) (field : EnvField) (value : Nat) : State :=
  s.command false (decide (env < Config.envelopes) && settingOk field value) fun s =>
    (s.modEnv env fun e => e.put field value).refillAll

def execEnvSet (env : Nat) (field : EnvField) (value : Nat) (s : State) : Host.Outcome State Fault Refusal := .next (s.envSet env field value)

/-- The package's own memory under a new %pkgid (R389). -/
def State.renumber (s : State) (new : Nat) : State :=
  let old := s.fabric.pkgid
  if old = new then s
  else
    let own := s.mem.slice (old * 2 ^ 46) (2 ^ 46) (new * 2 ^ 46)
    let unit (u : ErrUnit) : ErrUnit := match u with
      | .mem k => if k / 2 ^ 41 = old then .mem (k % 2 ^ 41 + new * 2 ^ 41) else u
      | _ => u
    { s with
      mem := (s.mem.clear (old * 2 ^ 46) (2 ^ 46)).overlay (new * 2 ^ 46) (2 ^ 46) own
      health := { s.health with bad := s.health.bad.map unit, soft := s.health.soft.map unit } }

/-- POD_SET. -/
def State.podSet (s : State) (members : List Nat) (pkgid : Nat) : State :=
  s.command (s.someResident fun _ => true) (members.all (· < 1024) && decide (pkgid < 1024)) fun s =>
    let s := s.renumber pkgid
    { s with fabric := { s.fabric with members := members.dedup, pkgid } }

def execPodSet (members : List Nat) (pkgid : Nat) (s : State) : Host.Outcome State Fault Refusal := .next (s.podSet members pkgid)

/-- QUAR_CLEAR; of a package that is not in the set nothing is to be cleared, and no event written (log 77). -/
def State.quarClear (s : State) (pkg : Nat) : State :=
  s.command false (decide (pkg < 1024)) fun s =>
    if !s.fabric.quarantine.contains pkg then s
    else
    let t : State := { s with fabric := { s.fabric with quarantine := s.fabric.quarantine.filter (· != pkg) } }
    t.event 0 0x31 0 pkg 0

def execQuarClear (pkg : Nat) (s : State) : Host.Outcome State Fault Refusal := .next (s.quarClear pkg)

/-- A physical address of another package. -/
def State.elsewhere (s : State) (pa : Nat) : Bool := pa / 2 ^ 46 != s.fabric.pkgid && decide (pa < deviceBase)

/-- CACHE_RESET: no copy of another package's line, and no translation to its memory, stays (R425); code lines, which are
named by their virtual addresses, go all. -/
def State.cacheReset (s : State) (pkg : Nat) : State :=
  s.command (s.someResident fun _ => true) (decide (pkg < 1024)) fun s =>
    let away (line : Nat) : Bool := s.elsewhere (128 * line)
    let coh := { s.coh with tokens := s.coh.tokens.filter fun t => !away t.line
                            reqs := s.coh.reqs.filter fun r => !away r.line
                            remote := s.coh.remote.filter fun r => !away r.line }
    let eng := { s.eng with tlb := s.eng.tlb.filter fun e => !s.elsewhere (leafPa e.leaf)
                            consts := s.eng.consts.filter fun l => !away l.pa
                            fetchs := s.eng.fetchs.filter fun l => !away l.pa
                            icache := [], loops := [], fills := [] }
    let t : State := { s with coh, eng }
    t.event 0 0x32 0 pkg 0

def execCacheReset (pkg : Nat) (s : State) : Host.Outcome State Fault Refusal := .next (s.cacheReset pkg)

/-- RETIRE_COMMIT of one candidate: its address reaches nothing from now on (R416). -/
def State.retireCommit (s : State) (die frame : Nat) : State :=
  s.manage fun s =>
    if !s.health.candidates.contains (die, frame) then (2, [], s)
    else if Config.retirementFrames ≤ s.health.retired.length then (3, [], s)
    else
      let t : State := { s with health := { s.health with
        candidates := s.health.candidates.filter (· != (die, frame)), retired := s.health.retired ++ [(die, frame)] } }
      (0, [], t.event die 0x13 (Config.stackOf die frame % 4) frame 0)

def execRetireCommit (die frame : Nat) (s : State) : Host.Outcome State Fault Refusal := .next (s.retireCommit die frame)

def State.setAckto (s : State) (ns : Nat) : State :=
  s.command false (decide (10000 ≤ ns ∧ ns ≤ 10000000 ∧ ns % 10000 = 0)) fun s =>
    { s with fabric := { s.fabric with ackto := ns } }

def execSetAckto (ns : Nat) (s : State) : Host.Outcome State Fault Refusal := .next (s.setAckto ns)

/-- SET_RLC: every remote line of the die is invalidated first (R246, R280). -/
def State.setRlc (s : State) (die mib : Nat) : State :=
  s.command (s.someResident (· == die)) (decide (die < Config.dies ∧ mib ≤ 16 ∧ mib % 2 = 0)) fun s =>
    let far (line : Nat) : Bool := match s.homeOf (128 * line) with
      | some (.die d) => d != die
      | _ => true
    { s with coh := { s.coh with
        tokens := s.coh.tokens.filter fun t => !(t.die == die && far t.line)
        remote := s.coh.remote.filter fun r => r.die != die
        rlc := setAt die mib s.coh.rlc } }

def execSetRlc (die mib : Nat) (s : State) : Host.Outcome State Fault Refusal := .next (s.setRlc die mib)

def State.dbgAttach (s : State) (env : Nat) (attach : Bool) : State :=
  s.command false (decide (env < Config.envelopes)) fun s => s.modEnv env fun e => { e with debug := attach }

def execDbgAttach (env : Nat) (attach : Bool) (s : State) : Host.Outcome State Fault Refusal := .next (s.dbgAttach env attach)

/-- ERR_COUNTS: one 64-bit counter per row of R412 and die. -/
def State.errCounts (s : State) : State :=
  s.manage fun s =>
    (0, ((List.range 7).map fun k => ((List.range Config.dies).map fun d => toBytesLE 8 (s.correctionCount k d)).flatten).flatten, s)

def execErrCounts (s : State) : Host.Outcome State Fault Refusal := .next s.errCounts

def execRetirementThreshold (n : Nat) (s : State) : Host.Outcome State Fault Refusal :=
  .next (if 1 ≤ n ∧ n ≤ 255 then { s with health := { s.health with threshold := n } } else s)

/-- The end of a millisecond of corrections: one entry for those counted in it (R413). -/
def execCorrectionEntryTimer (store die : Nat) (s : State) : Host.Outcome State Fault Refusal :=
  .next (match s.health.counts.find? fun c => c.store == store && c.die == die with
    | none => s
    | some c =>
      if c.pending ≠ 0 ∧ c.entry.any (· + 1000000 ≤ s.clock.time) then
        let counts := s.health.counts.map fun x =>
          if x.store = store ∧ x.die = die then { x with pending := 0, entry := some s.clock.time } else x
        let t : State := { s with health := { s.health with counts } }
        t.event die 0x10 store c.pending 0 (some (c.last, 0))
      else s)

/-! ## Sensors (R433) -/

/-- A die of a boundary: boundary n joins dies n and n + 1 of the ring (log 36). -/
def onBoundary (die n : Nat) : Bool := die == n % Config.dies || die == (n + 1) % Config.dies

/-- A die's state: 0 up, 1 frozen, 2 boundary lost, 3 held in reset. -/
def State.dieState (s : State) (die : Nat) : Nat :=
  if s.health.held.contains die then 3 else if s.health.lost.any (onBoundary die) then 2 else if s.frozen then 1 else 0

/-- A reading that was taken within the last millisecond; before the first it is taken now. -/
def State.reading (s : State) (x : Sensor) (now : Nat × State) : Nat × State :=
  match s.fw.readings.find? (·.1 == x) with
  | some r => (r.2, s)
  | none => now

/-- A reading. -/
def State.sense (s : State) (x : Sensor) : Nat × State :=
  match x with
  | .power => (s.clock.average, s)
  | .limit => (s.clock.limit, s)
  | .clock => (s.clock.mhz, s)
  | .dieTemperature _ | .stackTemperature _ => s.reading x (s.free Config.temperature)
  | .corrected die => s.reading x (s.correctedOn die, s)
  | .bbidx die => ((s.health.boxes.getD die {}).bbidx, s)
  | .dieState die => (s.dieState die, s)

def execPldmSensorRead (sensor : Sensor) (s : State) : Host.Outcome State Fault Refusal :=
  .next (s.manage fun s => (0, toBytesLE 8 (s.sense sensor).1, (s.sense sensor).2))

/-! ## Attestation (R431) -/

/-- A reply whose contents DSP0274 gives. -/
def State.spdm (s : State) (code : Nat) (body : List Byte) : State := s.manage fun s => (0, Config.standardReply code body, s)

def execGetVersion (s : State) : Host.Outcome State Fault Refusal := .next (s.spdm 0x84 [])
def execGetCapabilities (s : State) : Host.Outcome State Fault Refusal := .next (s.spdm 0xE1 [])

/-- ECDSA P-256 (DSP0274 bit 4) and SHA-256 (bit 0) alone are settled on. -/
def execNegotiateAlgorithms (sign hash : Nat) (s : State) : Host.Outcome State Fault Refusal :=
  .next (s.spdm 0xE3 [BitVec.ofNat 8 (if sign.testBit 4 then 16 else 0), BitVec.ofNat 8 (if hash.testBit 0 then 1 else 0)])

def execGetDigests (s : State) : Host.Outcome State Fault Refusal := .next (s.spdm 0x81 [])

/-- The chain of slot 0; an error for any other slot. -/
def execGetCertificate (slot : Nat) (s : State) : Host.Outcome State Fault Refusal :=
  .next (s.spdm (if slot = 0 then 0x82 else 0x7F) [])

/-- A challenge is answered with a signature by the identity key. -/
def execChallenge (slot : Nat) (nonce : List Byte) (s : State) : Host.Outcome State Fault Refusal :=
  .next (if slot = 0 then
      s.manage fun s =>
        let body := Config.standardReply 0x83 nonce
        (0, body ++ toBytesBE 64 (Config.identitySign body), s)
    else s.spdm 0x7F [])

/-- What a measurement hashes: what is in force. -/
def State.measured (s : State) (index : Nat) : Option (List Byte) :=
  match index with
  | 1 => some s.fw.rom
  | 2 => s.fw.running
  | 3 => some (s.health.retired.map fun r => toBytesLE 1 r.1 ++ toBytesLE 4 r.2).flatten
  | 4 => some (s.health.repairs.map fun r => match r.1 with
      | .boundary n g => toBytesLE 1 0 ++ toBytesLE 1 n ++ toBytesLE 1 g ++ toBytesLE 1 r.2
      | .port n => toBytesLE 1 1 ++ toBytesLE 1 n ++ toBytesLE 1 0 ++ toBytesLE 1 r.2).flatten
  | 5 => some ((s.fabric.members.map (toBytesLE 2)).flatten ++ toBytesLE 2 s.fabric.pkgid)
  | _ => none

/-- Every measurement with its index (R431). -/
def State.allMeasurements (s : State) : List Byte :=
  ((List.range 5).map fun k => BitVec.ofNat 8 (k + 1) :: toBytesBE 32 (Config.sha256 ((s.measured (k + 1)).getD []))).flatten

/-- One measurement, their number, or all of them. -/
def execGetMeasurements (index : Nat) (s : State) : Host.Outcome State Fault Refusal :=
  .next (match s.measured index with
    | some bs => s.manage fun s => (0, toBytesBE 32 (Config.sha256 bs), s)
    | none =>
      if index = 0 then s.manage fun s => (0, [5#8], s)
      else if index = 0xFF then s.manage fun s => (0, s.allMeasurements, s)
      else s.spdm 0x7F [])

/-! ## Messages (R427 to R429) -/

/-- An MCTP control message; Set Endpoint ID, command 1, sets the endpoint ID (log 38). It is answered
without firmware too (R429). -/
def State.mctpControl (s : State) (body : List Byte) : State :=
  let b (k : Nat) : Nat := (body.getD k 0#8).toNat
  let fw := if b 1 = 1 ∧ b 2 % 4 ≤ 1 ∧ 4 ≤ body.length then { s.fw with eid := b 3 } else s.fw
  { s with fw, outputs := s.outputs ++ [.reply 0 (Config.standardReply 0 body)] }

/-- The settings that ENV_SET writes, in the order of R362; DEBT is none. -/
def settings : List EnvField :=
  [.memquota, .ipool, .tpool, .irefill, .trefill, .debt, .landtime, .saveres, .rename, .captab, .capn, .weight, .hbmmin, .hbmmax]

/-- An Aelkin command by its code, the first byte; the places of its operands are free (log 77). FREEZE and POD_SET are not
permitted from the mailbox (R428). -/
def State.aelkin (s : State) (mailbox : Bool) (body : List Byte) : State :=
  let x := Config.operand body
  let code := (body.getD 0 0#8).toNat
  if mailbox && (code == 1 || code == 5) then s.manage fun s => (3, [], s)
  else match code with
  | 0x01 => s.freezeCommand
  | 0x02 => s.bboxRead (x 0)
  | 0x03 => s.setLimit (x 0)
  | 0x04 => match settings[x 1]? with
    | some f => s.envSet (x 0) f (x 2)
    | none => s.manage fun s => (2, [], s)
  | 0x05 => s.podSet (Config.operandSet body) (x 0)
  | 0x06 => s.quarClear (x 0)
  | 0x07 => s.cacheReset (x 0)
  | 0x08 => s.retireCommit (x 0) (x 1)
  | 0x09 => s.setAckto (x 0)
  | 0x0A => s.setRlc (x 0) (x 1)
  | 0x0B => s.dbgAttach (x 0) (x 1 != 0)
  | 0x0C => s.errCounts
  | _ => s.manage fun s => (2, [], s)

/-- A message to the controller: a command of the mailbox, or one over the side-band port by its MCTP type; any other type, and
a vendor-defined one of another vendor, is discarded. What PLDM and SPDM messages do beside their answers has events of its own. -/
def execMctpControl (msg : MgmtMsg) (s : State) : Host.Outcome State Fault Refusal :=
  .next (if msg.mailbox then s.aelkin true msg.body
    else match msg.type with
    | 0x00 => s.mctpControl msg.body
    | 0x01 | 0x05 => s.manage fun s => (0, Config.standardReply msg.type msg.body, s)
    | 0x7E => if msg.vendor = 0x1E4A then s.aelkin false msg.body else s
    | _ => s)

def execDynamicAddressAssignment (address : Nat) (s : State) : Host.Outcome State Fault Refusal :=
  .next { s with fw := { s.fw with address := address % 128 } }

end Sys2Proof.Machine
end

