-- ==== Sys2Proof/Machine/Matrix.lean ====
section
/-! DEFINITION. The matrix engine, sparsity, sorting and intersection (R193 to R208). -/

namespace Sys2Proof.Machine

/-! ## Rows and tiles (R193, R194) -/

/-- RowOf (R193): the row of the block, or none beyond the rows allocated. -/
def rowOf (b : Block) (n : Nat) (w : CWord) (v : Nat) : Option Nat :=
  let row := b.ureg n % 2 ^ 32 + w.modF 1 5 + v
  if row < b.cfg.rowAlloc then some row else none

def Block.readRow (b : Block) (row : Nat) : List Byte := b.rows.read (256 * row) 256

def Block.writeRow (b : Block) (row : Nat) (bs : List Byte) : Block := { b with rows := b.rows.write (256 * row) bs }

/-- An uncorrectable error lies in bytes of a row (R199, R414). -/
def State.badRow (s : State) (blk row : Nat) (off : Nat := 0) (n : Nat := 256) : Bool :=
  !s.health.bad.isEmpty && s.health.bad.any fun u => match u with
    | .row k w => k == blk && wordIn (256 * row + off) n w
    | _ => false

/-- Bytes of the rows written whole: their errors end (R415). -/
def State.healRows (s : State) (blk off n : Nat) : State :=
  s.heal fun u => match u with
    | .row k w => k == blk && decide (off ≤ 8 * w ∧ 8 * w + 8 ≤ off + n)
    | _ => false

/-- The stop of a thread at a row or tile with an uncorrectable error: %taddr 0 (R414). -/
def poisonTrap : TrapInfo := { cause := .uncorrectedData }

/-- Before a matrix-engine issue of a thread: a cut transfer goes on at its own PC, any other issue ends
it (R202). The handler's issues leave the register alone. -/
def Block.enterEngine (b : Block) (c : Ctx) : Block :=
  if c.iss.handler || !b.rowprog.valid then b
  else if c.pc = b.codeBase + b.rowprog.pcoff.setWidth 64 then b
  else b.clearCut

/-- The row from which a transfer of this issue goes on, and whether only the side read is left. -/
def Block.resumeRow (b : Block) (c : Ctx) : Nat × Bool :=
  if !c.iss.handler && b.rowprog.valid then (b.rowprog.row, b.rowprog.side) else (0, false)

/-- A fate that leaves the thread inside the engine's issue: it waits there for an answer. -/
def Fate.within : Fate → Bool
  | .stall _ | .remote _ _ | .again => true
  | _ => false

/-- The engine performs an issue of other threads (R195). -/
def Ctx.engineBusy (c : Ctx) : Bool := c.b.engineBusy c.iss

/-- The threads of an issue that the engine has begun and that wait in it. -/
def Block.inEngine (b : Block) (c : Ctx) (fs : List (Nat × Fate)) : Block :=
  if c.iss.handler then b
  else { b with engine := (b.engine.filter fun t => !c.iss.ths.any (·.2 == t)) ++ ((fs.filter (·.2.within)).map (·.1)) }

/-- A matrix-engine issue: one at a time (R195), the register of R202 first. -/
def State.runEngine (s : State) (op : Nat) (w : CWord) (f : Ctx → State → State × List (Nat × Fate)) : State :=
  s.runIssue op w fun c s =>
    if c.engineBusy then (s, c.holdAll)
    else
      let s := s.modBlock c.iss.blk (·.enterEngine c)
      let (s, fs) := f { c with b := (s.block? c.iss.blk).getD c.b } s
      (s.modBlock c.iss.blk (·.inEngine c fs), fs)

def Ctx.all (c : Ctx) (f : Fate) : List (Nat × Fate) := c.on.map fun x => (x.2, f)

/-- A fate of one access that the whole issue makes: a fault stops every active thread (R199, R201). -/
def Fate.whole : Fate → Fate
  | .trap t => .stop t
  | f => f

/-! ## Tile transfers (R201, R202) -/

/-- An issue that stands, from `s`, where its meaning would have come to `t`: what its threads asked for, and the answers that
they wait for. -/
def State.stand (s : State) (c : Ctx) (t : State) (fs : List (Nat × Fate)) : State :=
  (fs.filter (·.2.within)).foldl (fun s f => s.modTh c.iss.blk f.1 (Thread.apply c s.clock.time f.2))
    { s.unmade t with eng := t.eng }

/-- An issue of rows is performed for all of its threads together, in ascending rank: while one of them waits for an answer all
of them stand, masked off or not, with nothing moved (R195, R201). -/
def State.together (s : State) (c : Ctx) (r : State × List (Nat × Fate)) : State × List (Nat × Fate) :=
  if r.2.any (·.2.within) then (s.stand c r.1 r.2, c.holdAll) else s.fitAcks c r

/-- The memory rows of a transfer from a row on, as physical addresses: those before the first that is not
reached, and the fate there. -/
def State.transferRows (s : State) (b : Block) (tid : Nat) (x : DWord) (pitch : Nat) (k : Kind) (all : List Nat) :
    Nat → Nat → State × List (Nat × DWord × Nat) × Option (Nat × Fate)
  | 0, _ => (s, [], none)
  | n + 1, row =>
    let va := x + BitVec.ofNat 64 (row * pitch)
    match s.reach b tid va 64 64 k with
    | (s, .no f) => (s, [], some (row, f))
    | (s, .pa pa) =>
      -- the write is one of every active thread: it waits for their earlier ones to the line (R201, R252)
      if k == .write && all.any fun t => b.holdsLine t (pa / 128) then (s, [], some (row, .again))
      else
        let (s, rest, stop) := s.transferRows b tid x pitch k all n (row + 1)
        (s, (row, va, pa) :: rest, stop)

/-- The register holds how far a transfer has come, so that a fault, or a stop while it waits, cuts it there (R202). -/
def State.noteCut (s : State) (c : Ctx) (row : Nat) (side : Bool) : State :=
  if c.iss.handler then s else s.modBlock c.iss.blk fun b => b.cutTransfer c.pc row side

/-- The transfer of the rows from `from'` on: `put` moves one row. A fault cuts the transfer at its row, and so does a
stop while it waits there; a handler's transfer that waits has moved nothing (R202). -/
def State.transfer64 (s : State) (c : Ctx) (x : DWord) (pitch : Nat) (k : Kind) (from' : Nat)
    (put : State → Nat × DWord × Nat → State) : State × Option Fate :=
  let tid := (c.on.map (·.2)).headD 0
  let (s, rows, stop) := s.transferRows c.b tid x pitch k (c.on.map (·.2)) (64 - from') from'
  match stop with
  | none => (rows.foldl put s, none)
  | some (row, f) => (if c.iss.handler && f.within then s else (rows.foldl put s).noteCut c row false, some f.whole)

/-- A transfer is complete (R202). -/
def State.endTransfer (s : State) (c : Ctx) : State :=
  if c.iss.handler then s else s.modBlock c.iss.blk Block.clearCut

/-- The pitch of R197 and R201: 0 stands for 64. -/
def pitchOf (x : Nat) : Nat := if x % 2 ^ 32 = 0 then 64 else x % 2 ^ 32

/-- TLD and TST: the address and pitch checks, the transfer, the charge of 128 bytes a thread. A misaligned pitch is
reported with X (log 33). -/
def State.moveTile (s : State) (op : Nat) (w : CWord) (k : Kind)
    (put : Ctx → State → Nat × DWord × Nat → State) : State :=
  s.runEngine op w fun c s =>
    let x := BitVec.ofNat 64 (c.rb.ureg w.a.toNat) + w.immS
    let p := pitchOf (c.rb.ureg w.b.toNat)
    if x.toNat % 64 ≠ 0 ∨ p % 64 ≠ 0 then
      (s, c.all (.stop { cause := .misaligned, addr := x, write := k == .write, size := 64, extra := 64#64 }))
    else
      let r := match s.transfer64 c x p k (c.b.resumeRow c).1 (put c) with
        | (s, some f) => (s, c.all f)
        | (s, none) =>
          ((s.endTransfer c).heal fun u => k == .read && u == .tile c.iss.blk w.d.toNat, c.all (.done [] 128))
      s.fitAcks c r

def execTld (w : CWord) (s : State) : Host.Outcome State Fault Refusal :=
  .next (s.moveTile 0x302 w .read fun c s r =>
    let bytes := s.readPa r.2.2 64
    s.modBlock c.iss.blk fun b => { b with tiles := b.tiles.write (4096 * w.d.toNat + 64 * r.1) bytes })

def execTst (w : CWord) (s : State) : Host.Outcome State Fault Refusal :=
  .next (s.moveTile 0x303 w .write fun c s r =>
    (s.writePa r.2.2 (c.b.tiles.read (4096 * w.d.toNat + 64 * r.1) 64)).noteWrite c.b ((c.on.map (·.2)).headD 0) r.2.1 r.2.2
      (c.on.map (·.2)))

/-! ## Rows in and out (R201) -/

def execAclr (w : CWord) (s : State) : Host.Outcome State Fault Refusal :=
  .next (s.runEngine 0x304 w fun c s =>
    let n := if w.bsel = 2#2 then w.imm.toNat else c.b.ureg w.b.toNat % 2 ^ 32
    let row := c.b.ureg w.d.toNat % 2 ^ 32 + w.modF 1 5
    if n = 0 then (s, [])
    else if c.b.cfg.rowAlloc < row + n then (s, c.all (.trap { cause := .regIndex }))
    else ((s.modBlock c.iss.blk fun b => { b with rows := b.rows.clear (256 * row) (256 * n) }).healRows c.iss.blk (256 * row) (256 * n), []))

/-- A thread's row by its index register, or the trap. -/
def Ctx.row (c : Ctx) (tid n : Nat) : Option Nat := rowOf c.rb n c.w ((c.b.th tid).reg c.w.b.toNat 1)

/-- Threads in ascending rank, the masked-off ones in zero mode among them (R201). -/
def State.runRows (s : State) (op : Nat) (w : CWord) (masked : Ctx → State → Nat → State)
    (f : Ctx → State → Nat → State × Fate) : State :=
  s.runEngine op w fun c s =>
    s.together c (c.act.foldl (fun (a : State × List (Nat × Fate)) x =>
      if c.on.contains x then
        let (s, fate) := f c a.1 x.2
        (s, a.2 ++ [(x.2, fate)])
      else (if w.zeroing then masked c a.1 x.2 else a.1, a.2)) (s, []))

/-- The base of ALD and AST (R200). -/
def Ctx.rowAddr (c : Ctx) (tid : Nat) : DWord := BitVec.ofNat 64 ((c.b.th tid).reg c.w.a.toNat 2) + c.w.immS

/-- ALD; the row of a masked-off thread that lies outside the allocation is not written, and no trap is taken for it (log 81). -/
def execAld (w : CWord) (s : State) : Host.Outcome State Fault Refusal :=
  .next (s.runRows 0x305 w
    (fun c s t => match c.row t w.d.toNat with
      | some r => (s.modBlock c.iss.blk fun b => { b with rows := b.rows.clear (256 * r) 256 }).healRows c.iss.blk (256 * r) 256
      | none => s)
    fun c s t => match c.row t w.d.toNat with
      | none => (s, .trap { cause := .regIndex })
      | some r => match s.readSpan c.b t (c.rowAddr t) 256 16 with
        | (s, .inl f) => (s, f)
        | (s, .inr bs) => ((s.modBlock c.iss.blk (·.writeRow r bs)).healRows c.iss.blk (256 * r) 256, .done [] 256))

def execAst (w : CWord) (s : State) : Host.Outcome State Fault Refusal :=
  .next (s.runRows 0x306 w (fun _ s _ => s) fun c s t =>
    match c.row t w.d.toNat with
    | none => (s, .trap { cause := .regIndex })
    | some r =>
      if s.badRow c.iss.blk r then (s.coreError c.b 1 0, .trap poisonTrap)
      else match s.writeSpan c.b t (c.rowAddr t) (c.b.readRow r) 16 with
        | (s, some f) => (s, f)
        | (s, none) => (s, .done [] 256))

def execArd (w : CWord) (s : State) : Host.Outcome State Fault Refusal :=
  .next (s.runRows 0x307 w (fun _ s _ => s) fun c s t =>
    match c.row t w.a.toNat with
    | none => (s, .trap { cause := .regIndex })
    | some r =>
      if s.badRow c.iss.blk r (16 * bits w.imm 0 4) 16 then (s.coreError c.b 1 0, .trap poisonTrap)
      else (s, .done (wrV w.d.toNat 4 (c.b.rows.val (256 * r + 16 * bits w.imm 0 4) 16))))

/-- Four elements of a row written. -/
def State.putQuad (s : State) (blk row c x : Nat) : State :=
  (s.modBlock blk fun b => { b with rows := b.rows.put (256 * row + 16 * c) 16 x }).healRows blk (256 * row + 16 * c) 16

/-- AWR; a masked-off thread's row outside the allocation as for ALD (log 81). -/
def execAwr (w : CWord) (s : State) : Host.Outcome State Fault Refusal :=
  .next (s.runRows 0x308 w
    (fun c s t => match c.row t w.d.toNat with
      | some r => s.putQuad c.iss.blk r (bits w.imm 0 4) 0
      | none => s)
    fun c s t => match c.row t w.d.toNat with
      | none => (s, .trap { cause := .regIndex })
      | some r => (s.putQuad c.iss.blk r (bits w.imm 0 4) ((c.b.th t).reg w.a.toNat 4), .done))

/-! ## Products (R196 to R199) -/

/-- Bits that an element takes in a row or a column (R14, R196). -/
def elemBits : Ty → Nat
  | .f16 | .bf16 => 16
  | .f32 => 32
  | .f64 => 64
  | .i4 | .n4 | .e2m1 | .e2m1x8 => 4
  | _ => 8

def isScaled : Ty → Bool
  | .e2m1x8 | .e2m3x8 | .e3m2x8 | .e4m3x8 | .e5m2x8 | .i8x8 => true
  | _ => false

def isIntTy : Ty → Bool
  | .i4 | .n4 | .i8 | .n8 => true
  | _ => false

/-- K of R196. -/
def depthOf (sparse : Bool) (t : Ty) : Nat :=
  let k := match t with
    | .f16 | .bf16 => 32
    | .f32 | .f64 => 16
    | .i4 | .n4 | .e2m1x8 => 128
    | _ => 64
  if sparse then 2 * k else k

def aRowBytes (sparse : Bool) (t : Ty) : Nat := if sparse || t == .f64 then 128 else 64

def aScaleBytes (sparse : Bool) (t : Ty) : Nat := if isScaled t then depthOf sparse t / 8 else 0

/-- The code of an element of a plane (R14). -/
def elemCode (t : Ty) (m : Memory) (base k : Nat) : Nat :=
  if elemBits t = 4 then (m.get (base + k / 2)).toNat / 16 ^ (k % 2) % 16
  else m.val (base + k * (elemBits t / 8)) (elemBits t / 8)

/-- An element's value under a scale (R16). -/
def elemValue (t : Ty) (code : Nat) (scale : Option Nat) : Fp :=
  let v : Fp := match t with
    | .i8x8 => Fp.ofInt (toSigned 8 code)
    | t => (fmt t).decode (code % 2 ^ (fmt t).width)
  match scale with
  | none => v
  | some s => if s = 0xFF then .nan else v.scale ((s : Int) - 127)

/-- B as an issue reads it: its element plane and its side data (R196). -/
structure BTile where
  elems : Memory
  side  : Memory

/-- The logical element of B, or none where the metadata does not store it (R196, R198). -/
def BTile.code (m : BTile) (sparse : Bool) (t : Ty) (n k : Nat) : Option Nat :=
  let col := n * (if t = .f64 then 128 else 64)
  if !sparse then some (elemCode t m.elems col k)
  else
    let scales := aScaleBytes true t
    let md := (m.side.get (n * sideBytes true t + scales + k / 8)).toNat
    if !md.testBit (k % 8) then none
    else some (elemCode t m.elems col (4 * (k / 8) + countOnes (k % 8) md))

/-- The scale of a column's block (R196). -/
def BTile.scale (m : BTile) (sparse : Bool) (t : Ty) (n j : Nat) : Option Nat :=
  if isScaled t then some (m.side.get (n * sideBytes sparse t + j)).toNat else none

/-- A metadata byte with other than four bits set (R196). -/
def BTile.badMeta (m : BTile) (t : Ty) : Bool :=
  let scales := aScaleBytes true t
  (List.range 64).any fun n => (List.range (depthOf true t / 8)).any fun j =>
    countOnes 8 (m.side.get (n * sideBytes true t + scales + j)).toNat != 4

/-- One k-block of a float form (R34). -/
def kBlockFloat (f : Fmt) (acc : Nat) (ps : List Fp) : Nat :=
  let s := sumFp false ps
  let a := f.decode acc
  let fin : Bool := match a with
    | .fin _ _ _ _ => true
    | _ => false
  if s.isZero && fin then acc else finishFloat f .rn 0 false false (a.add s false)

/-- One column of one thread's product (R198): the new code of the accumulator element. -/
def column (sparse : Bool) (t : Ty) (a : Memory) (aScales : List Nat) (m : BTile) (n acc : Nat) : Nat :=
  (List.range (depthOf sparse t / 8)).foldl (fun acc j =>
    let ks := (List.range 8).map (8 * j + ·)
    if isIntTy t then
      let s : Int := (ks.map fun k => match m.code sparse t n k with
        | none => (0 : Int)
        | some b => valOf t (elemCode t a 0 k) * valOf t b).foldl (· + ·) 0
      wrap 32 (acc + s)
    else
      kBlockFloat (if t = .f64 then .f64 else .f32) acc (ks.map fun k =>
        match m.code sparse t n k with
        | none => Fp.zero false
        | some b =>
          (elemValue t (elemCode t a 0 k) (if isScaled t then some (aScales.getD j 0) else none)).mul
            (elemValue t b (m.scale sparse t n j)))) acc

/-- A thread's row after its product (R198). -/
def productRow (sparse : Bool) (t : Ty) (clear : Bool) (row a : Memory) (aScales : List Nat) (m : BTile) : Memory :=
  let size := if t = .f64 then 8 else 4
  (List.range (256 / size)).foldl (fun out n =>
    out.put (size * n) size (column sparse t a aScales m n (if clear then 0 else row.val (size * n) size))) row

/-- Bytes as memory from address 0. -/
def memOf (bs : List Byte) : Memory := Memory.write [] 0 bs

/-- Where the rows of an issue stand in staging: a handler's apart from those of a cut transfer (R202). -/
def Ctx.stagingBase (c : Ctx) : Nat := if c.iss.handler then 4096 else 0

/-- Check 6 over places that each have their own address, and their bytes: an error is reported with the address of its place
(R199). -/
def State.readChunks (s : State) (b : Block) (tid : Nat) : List (DWord × Nat × Nat) → State × (Fate ⊕ List Byte)
  | [] => (s, .inr [])
  | (va, p) :: rest =>
    match s.readPlaces b tid va [p] with
    | (s, .inl f) => (s, .inl f)
    | (s, .inr xs) =>
      match s.readChunks b tid rest with
      | (s, .inl f) => (s, .inl f)
      | (s, .inr ys) => (s, .inr (xs ++ ys))

/-- The B of a memory-form issue: its rows moved into staging, then its side data (R197, R202). A misaligned pitch is
reported with the base (log 33). -/
def State.readBMem (s : State) (c : Ctx) (sparse : Bool) : State × (Fate ⊕ BTile) :=
  let w := c.w
  let p := pitchOf (c.rb.ureg w.c)
  let side := BitVec.ofNat 64 (c.rb.ureg w.e)
  let nSide := 64 * sideBytes sparse w.ty / (if w.ty = .f64 then 2 else 1)
  let bad (a : DWord) (n : Nat) : Fate := .stop { cause := .misaligned, addr := a, size := 64, extra := BitVec.ofNat 64 n }
  if p % 64 ≠ 0 then (s, .inl (bad (BitVec.ofNat 64 (c.rb.ureg w.b.toNat)) 64))
  else if nSide ≠ 0 ∧ side.toNat % 16 ≠ 0 then (s, .inl (bad side 16))
  else
    let tid := (c.on.map (·.2)).headD 0
    let (from', sideOnly) := c.b.resumeRow c
    let r := if sideOnly then (s, none) else
      s.transfer64 c (BitVec.ofNat 64 (c.rb.ureg w.b.toNat)) p .read from' fun s r =>
        let bytes := s.readPa r.2.2 64
        s.modBlock c.iss.blk fun b => { b with staging := b.staging.write (c.stagingBase + 64 * r.1) bytes }
    match r with
    | (s, some f) => (s, .inl f)
    | (s, none) =>
      let elems : Memory := ((s.block? c.iss.blk).map (·.staging)).getD []
      let elems := elems.slice c.stagingBase 4096 0
      if nSide = 0 then (s.endTransfer c, .inr { elems, side := [] })
      else
        let ranges := ((List.range (nSide / 64)).map fun i => pieces (side + BitVec.ofNat 64 (64 * i)) 64).flatten
        match s.locateSpan c.b tid .read 64 1 ranges with
        | (s, .inr ps) =>
          match s.readChunks c.b tid ((ranges.map (·.1)).zip ps) with
          | (s, .inr bs) => (s.endTransfer c, .inr { elems, side := memOf bs })
          | (s, .inl f) => (s.noteCut c 0 true, .inl f.whole)
        | (s, .inl f) => (s.noteCut c 0 true, .inl f.whole)

/-- B in either form. -/
def State.readB (s : State) (c : Ctx) (sparse : Bool) : State × (Fate ⊕ BTile) :=
  let w := c.w
  if w.bsel = 1#2 then s.readBMem c sparse
  else
    let side : Memory := if sideBytes sparse w.ty = 0 then [] else c.b.tiles.slice (4096 * (w.b.toNat + 1)) 4096 0
    (s, .inr ⟨c.b.tiles.slice (4096 * w.b.toNat) 4096 0, side⟩)

/-- One thread's part of a product (R198 step 5). -/
def State.productOf (s : State) (c : Ctx) (sparse : Bool) (m : BTile) (tid : Nat) : State × Fate :=
  let w := c.w
  let th := c.b.th tid
  match rowOf c.rb w.d.toNat w (th.reg (w.a.toNat + 2) 1) with
  | none => (s, .trap { cause := .regIndex })
  | some row =>
    let addr := BitVec.ofNat 64 (th.reg w.a.toNat 2)
    let nRow := aRowBytes sparse w.ty
    let nScale := aScaleBytes sparse w.ty
    match s.readSpan c.b tid addr nRow 16 with
    | (s, .inl f) => (s, f)
    | (s, .inr a) =>
      let sAddr := addr + (th.v.getD (w.a.toNat + 3) 0#32).signExtend 64
      match if nScale = 0 then (s, .inr []) else s.readSpan c.b tid sAddr nScale 1 with
      | (s, .inl f) => (s, f)
      | (s, .inr sc) =>
        if s.badRow c.iss.blk row then (s.coreError c.b 1 0, .trap poisonTrap)
        else
          let out (b : Block) : Memory := productRow sparse w.ty (w.modF 0 1 == 1) (b.rows.slice (256 * row) 256 0)
            (memOf a) (sc.map (·.toNat)) m
          let put (b : Block) : Block := { b with rows := b.rows.overlay (256 * row) 256 ((out b).slice 0 256 (256 * row)) }
          (s.modBlock c.iss.blk put, .done [] (nRow + nScale + if w.bsel = 1#2 then 128 else 0))

/-- MMA and MMASP (R198). -/
def State.product (s : State) (op : Nat) (w : CWord) (sparse : Bool) : State :=
  s.runEngine op w fun c s =>
    match s.readB c sparse with
      | (s, .inl f) => s.fitAcks c (s, c.all f.whole)
      | (s, .inr m) =>
        if sparse && m.badMeta w.ty then (s, c.all (.trap { cause := .reservedField }))
        else s.together c (s.eachOf c.on fun s x => s.productOf c sparse m x.2)

def execMma (w : CWord) (s : State) : Host.Outcome State Fault Refusal := .next (s.product 0x300 w false)

def execMmasp (w : CWord) (s : State) : Host.Outcome State Fault Refusal := .next (s.product 0x301 w true)

/-! ## Quantising, pruning, packing -/

/-- EMax(TY) (R204). -/
def emaxOf : Ty → Int
  | .e2m1x8 | .e2m3x8 => 2
  | .e3m2x8 => 4
  | .e4m3x8 => 8
  | .e5m2x8 => 15
  | _ => 6

/-- The magnitude of a finite value as an order: floor(log2) and the value compared by cross products. -/
def maxAbs : List Fp → Option (Nat × Nat × Int)
  | [] => none
  | .fin _ n d e :: rest =>
    match maxAbs rest with
    | none => if n = 0 then none else some (n, d, e)
    | some (n', d', e') => if n ≠ 0 ∧ Fp.cmpFin n' d' e' n d e = .lt then some (n, d, e) else some (n', d', e')
  | _ :: rest => maxAbs rest

/-- AQNT's scale and codes (R204). Of no finite element, which e5m2x8 alone can meet, the scale is that of zeros (log 81). -/
def quantise (t : Ty) (xs : List Fp) : Nat × List Nat :=
  let isInf (x : Fp) : Bool := match x with
    | .inf _ => true
    | _ => false
  if xs.any (·.isNan) || (t != .e5m2x8 && xs.any isInf) then (0xFF, xs.map fun _ => 0)
  else
    let s : Int := match maxAbs xs with
      | none => 0
      | some (n, d, e) => min (max (floorLog2 n d + e - emaxOf t + 127) 0) 254
    let code (x : Fp) : Nat := match x.scale (127 - s) with
      | .nan => 0
      | .inf neg => (fmt t).signed neg (fmt t).infCode
      | .fin neg n d e =>
        if t = .i8x8 then (if n = 0 then 0 else wrap 8 (max (-128) (min 127 (roundInt .rn 0 neg n d e))))
        else if n = 0 then (fmt t).signed neg 0
        else satCode (fmt t) true (roundTo (fmt t) .rn 0 neg n d e)
    (s.toNat, xs.map code)

def execAqnt (w : CWord) (s : State) : Host.Outcome State Fault Refusal :=
  .next (s.runRows 0x309 w (fun _ s _ => s) fun c s t =>
    match c.row t w.a.toNat with
    | none => (s, .trap { cause := .regIndex })
    | some r =>
      if s.badRow c.iss.blk r (32 * bits w.imm 0 3) 32 then (s.coreError c.b 1 0, .trap poisonTrap)
      else
        let xs := (List.range 8).map fun i => Fmt.f32.decode (c.b.rows.val (256 * r + 32 * bits w.imm 0 3 + 4 * i) 4)
        let (scale, codes) := quantise w.ty xs
        let bitsOf := if w.ty = .e2m1x8 then 4 else 8
        let x := codes.zipIdx.foldl (fun a y => a + y.1 * 2 ^ (bitsOf * y.2)) 0
        (s, .done (if w.ty = .e2m1x8 then wrV w.d.toNat 2 (x + 2 ^ 32 * scale)
          else wrV w.d.toNat 4 (x + 2 ^ 64 * scale))))

/-- Element i of the eight that PRUNE and SPPACK read (R205, R206). -/
def eighth (t : Ty) (th : Thread) (n i : Nat) : Nat :=
  match t with
  | .f32 => th.reg (n + i) 1
  | .f16 | .bf16 => th.reg n 4 >>> (16 * i) % 65536
  | .e2m1x8 => th.reg n 1 >>> (4 * i) % 16
  | _ => th.reg n 2 >>> (8 * i) % 256

/-- The saliency of R205 as its F32 code: codes of magnitudes stand in the order of their values, the NaN
above them all. -/
def saliency (f : Fmt) (w g : Nat) : Nat :=
  match (f.decode w).mul (f.decode g) with
  | .nan => Fmt.f32.nanCode
  | .inf _ => Fmt.f32.infCode
  | .fin _ n d e => if n = 0 then 0 else roundTo .f32 .rn 0 false n d e

def execPrune (w : CWord) (s : State) : Host.Outcome State Fault Refusal :=
  .next (s.runEach 0x30A w fun c _ t =>
    let th := c.b.th t
    let n := if w.bsel = 1#2 then th.reg w.c 1 else w.imm.toNat
    if 8 < n then .trap { cause := .reservedField }
    else
      let sal := (List.range 8).map fun i => saliency (fmt w.ty) (eighth w.ty th w.a.toNat i) (eighth w.ty th w.b.toNat i)
      let above (i : Nat) : Nat := ((List.range 8).filter fun k =>
        decide (sal.getD i 0 < sal.getD k 0) || (sal.getD i 0 == sal.getD k 0 && decide (k < i))).length
      .done (wrV w.d.toNat 1 (((List.range 8).filter fun i => above i < n).foldl (fun a i => a + 2 ^ i) 0)))

def execSppack (w : CWord) (s : State) : Host.Outcome State Fault Refusal :=
  .next (s.runEach 0x30B w fun c _ t =>
    let th := c.b.th t
    let mask := th.reg w.b.toNat 1 % 256
    if countOnes 8 mask ≠ 4 then .trap { cause := .reservedField }
    else
      let size := if w.ty.isFloat then 16 else if w.ty = .e2m1x8 then 4 else 8
      let kept := ((List.range 8).filter (mask.testBit ·)).map (eighth w.ty th w.a.toNat)
      let x := kept.zipIdx.foldl (fun a y => a + y.1 * 2 ^ (size * y.2)) 0
      .done (wrV w.d.toNat (if w.ty.isFloat then 2 else 1) x))

/-! ## Sort, merge, intersect (R207) -/

/-- A key's place in the order of its type: F32 codes in IEEE total order under b32. -/
def keyOrder (t : Ty) (x : Nat) : Nat :=
  if t = .b32 then (if 2 ^ 31 ≤ x then 2 ^ 32 - 1 - x else x + 2 ^ 31) else x

/-- The sub-segment size of the issue set, and whether the participants disagreed. -/
def Ctx.subSize (c : Ctx) : Nat × Bool :=
  if c.w.bsel ≠ 1#2 then (c.segSize, false)
  else
    let cs := c.act.map fun x => (x.2, (c.b.th x.2).reg c.w.c 1)
    let k := ((maxBy (·.1) cs).map (·.2)).getD 0
    (if k = 0 then c.segSize else min c.segSize (2 ^ k.log2), cs.any (·.2 != k))

/-- The participants of a rank's sub-segment in position order. -/
def Ctx.sub (c : Ctx) (g rank : Nat) : List (Nat × Nat) :=
  sortBy (fun x y => decide (x.1 ≤ y.1)) (c.act.filter fun x => x.1 / g == rank / g)

/-- The value that .kv carries. -/
def Ctx.kvVal (c : Ctx) (tid : Nat) : Nat := (c.b.th tid).reg c.w.b.toNat 1

/-- The merge of two lists: the head of the first while its key does not come after. -/
def mergeBy {α : Type} (le : α → α → Bool) : Nat → List α → List α → List α
  | 0, _, _ => []
  | _ + 1, [], ys => ys
  | _ + 1, xs, [] => xs
  | n + 1, x :: xs, y :: ys =>
    if le x y then x :: mergeBy le n xs (y :: ys) else y :: mergeBy le n (x :: xs) ys

/-- Each participant takes the pair at its own place in an ordered list. -/
def State.runOrdered (s : State) (op : Nat) (w : CWord) (f : Ctx → Nat → Nat → List (Nat × Nat)) : State :=
  s.runIssue op w fun c s =>
    let (g, haz) := c.subSize
    let s := if haz then s.modBlock c.iss.blk fun b => { b with regs := { b.regs with ustat := b.regs.ustat ||| 1#32 } } else s
    (s, c.on.map fun x =>
      let out := f c g x.1
      let j := (c.sub g x.1).idxOf x
      let from' := (out.getD j x).2
      (x.2, .done (wrV w.d.toNat w.ty.regs (c.srcA from') ++
        if w.modF 1 1 = 1 then wrV w.e 1 (c.kvVal from') else [])))

/-- Key order of two participants, ascending or `.desc`. -/
def Ctx.keyLe (c : Ctx) (x y : Nat × Nat) : Bool :=
  let a := keyOrder c.w.ty (c.srcA x.2)
  let b := keyOrder c.w.ty (c.srcA y.2)
  if c.w.modF 0 1 = 1 then decide (b ≤ a) else decide (a ≤ b)

def execBsort (w : CWord) (s : State) : Host.Outcome State Fault Refusal :=
  .next (s.runOrdered 0x30D w fun c g rank => sortBy c.keyLe (c.sub g rank))

def execBmerge (w : CWord) (s : State) : Host.Outcome State Fault Refusal :=
  .next (s.runOrdered 0x30E w fun c g rank =>
    let ps := c.sub g rank
    mergeBy c.keyLe (ps.length + 1) (ps.filter fun x => x.1 % g < g / 2) (ps.filter fun x => !(x.1 % g < g / 2)))

def execIntsect (w : CWord) (s : State) : Host.Outcome State Fault Refusal :=
  .next (s.runIssue 0x30C w fun c s =>
    let (g, haz) := c.subSize
    let s := if haz then s.modBlock c.iss.blk fun b => { b with regs := { b.regs with ustat := b.regs.ustat ||| 1#32 } } else s
    (s, c.on.map fun x =>
      let mine := decide (x.1 % g < g / 2)
      let hit := (c.sub g x.1).find? fun y => decide (y.1 % g < g / 2) != mine && c.srcA y.2 == c.srcA x.2
      let hit := if g = 1 then none else hit
      (x.2, .done (wrV w.d.toNat w.ty.regs ((hit.map (·.1 % c.segSize)).getD 0xFFFFFFFF) ++
        if w.modF 1 1 = 1 then wrV w.e 1 ((hit.map fun y => c.kvVal y.2).getD 0) else []))))

end Sys2Proof.Machine
end

