-- ==== Sys2Proof/Machine/Timers.lean ====
section
/-! DEFINITION. The core's own events: results that arrive (R48, R68), code lines (R65), the former (R214,
R221, R226), timers (R108, R113), the copy engine (R179, R180, R190), and the debugger (R380). -/

namespace Sys2Proof.Machine

/-! ## Results -/

/-- Outstanding result k of a thread, if it meets a test, arrives. -/
def Thread.arriveAt (p : Outst → Bool) (k : Nat) (th : Thread) : Thread :=
  match th.outst[k]? with
  | none => th
  | some o => if p o then ({ th with outst := th.outst.eraseIdx k } : Thread).deliver o else th

/-- The outstanding entry writes a register. -/
def Outst.writes (o : Outst) : Bool := !o.regs.isEmpty || o.pred.isSome

def execResultArrival (blk tid k : Nat) (s : State) : Host.Outcome State Fault Refusal :=
  .next (s.modTh blk tid (Thread.arriveAt (fun _ => true) k))

def execAccessAccepted (blk tid k : Nat) (s : State) : Host.Outcome State Fault Refusal :=
  .next (s.modTh blk tid (Thread.arriveAt (fun o => !o.writes) k))

/-! ## Code lines -/

/-- The line is cached on the core for the launch. -/
def State.lineCached (s : State) (core task line : Nat) : Bool :=
  s.eng.icache.any fun c => c.core == core && c.task == task && c.line == line

/-- A line of the segment that a thread of the block stands in, its handler included. -/
def Block.needsLine (b : Block) (line : Nat) : Bool :=
  b.inCode (BitVec.ofNat 64 line) &&
    (b.threads.any (fun th => th.st != .exited && th.pc.toNat / 64 * 64 == line) || b.handler.pc.toNat / 64 * 64 == line)

/-- The prefetch of the next line: not past the end marker or the bound; a fault is dropped (R65). -/
def State.prefetchLine (s : State) (b : Block) (line : Nat) (bytes : List Byte) : State :=
  let next := line + 64
  if hasEndMarker bytes || decide (b.cfg.bound ≤ next) || s.lineCached b.place.core b.task next then s
  else
    match s.readLine b next with
    | (s', some c) => if c.fault.isSome then s else s'.cacheLine c
    | (_, none) => s

/-- The prefetch goes on after a line that has been fetched, whether a thread has reached it or not (R65). -/
def State.prefetchOn (s : State) (core task line : Nat) : State :=
  match s.blocks.find? fun b => b.place.core == core && b.task == task && b.place.resident && !b.ended,
      s.eng.icache.find? fun c => c.core == core && c.task == task && c.line + 64 == line && c.fault.isNone with
  | some b, some c => s.prefetchLine b c.line c.bytes
  | _, _ => s

/-- The fill of a line that a thread of the launch on the core needs, and the prefetch after it; a line
whose page has to be walked first is filled after the walk (R64, R65). A line that none needs is prefetched. -/
def State.fillLine (s : State) (core task line : Nat) : State :=
  match s.blocks.find? fun b => b.place.core == core && b.task == task && b.place.resident && b.needsLine line with
  | none => s.prefetchOn core task line
  | some b =>
    if line % 64 ≠ 0 ∨ s.lineCached core task line then s
    else
      match s.readLine b line with
      | (s, none) => s
      | (s, some c) =>
        match s.fillWith c with
        | (s, none) => s
        | (s, some c) => if c.fault.isSome then s.cacheLine c else (s.cacheLine c).prefetchLine b line c.bytes

def execLineFill (core launch : Nat) (line : DWord) (s : State) : Host.Outcome State Fault Refusal :=
  .next (s.fillLine core launch line.toNat)

/-- An entry that fails the checks of R54, the end marker, or the bound: every thread of the issue traps
(R54, R61). -/
def execNotAnInstruction (cause : Cause) (s : State) : Host.Outcome State Fault Refusal :=
  .next (match s.cur with
    | none => s
    | some iss =>
      if [Cause.illegalOp, .illegalGuard, .reservedField, .illegalType, .runOffEnd].contains cause then
        s.failThreads iss.blk iss.handler (iss.ths.map fun x => (x.2, { cause }))
      else s)

/-! ## The former -/

/-- A pool is formed once the former takes it (R214). -/
def execPlaitFormation (blk : Nat) (pc : DWord) (group : Option Nat) (s : State) : Host.Outcome State Fault Refusal :=
  .next (
    let s' := s.refreshPools blk
    match s'.block? blk with
    | none => s
    | some b => if s'.hasEntry b pc group && s'.mayForm b pc group then (s'.form blk pc group).refreshPools blk else s)

/-- The plaits of a section of a core, with their blocks, by the order in which they took their slots. -/
def State.sectionPlaits (s : State) (core sect : Nat) : List (Nat × Plait) :=
  sortBy (fun x y => decide (x.2.slot ≤ y.2.slot)) (((s.blocks.filter fun b => b.place.core == core && b.place.resident).map fun b =>
    (b.plaits.filter fun p => p.first && p.onSection sect).map fun p => (b.id, p)).flatten)

/-- Neither the plait nor its other half is inside a clause. -/
def Block.outsideClause (b : Block) (p : Plait) : Bool := b.clauseDepth p == 0 && !b.otherInClause p

/-- The plait has been offered an issue, or cannot take one now. -/
def Block.hadTurn (b : Block) (p : Plait) : Bool := p.served || (b.issueSet p).isEmpty

/-- Rotation (R221): the plait longest in its slot outside a clause dissolves, after one issue if it has had none (R222);
where every one is inside a clause, the first to leave its clause will. -/
def State.rotateSection (s : State) (core sect : Nat) : State :=
  let ps := s.sectionPlaits core sect
  let mark (s : State) (x : Nat × Plait) : State := s.modBlock x.1 fun b => b.modPlait x.2.id fun p => { p with victim := true }
  if ps.any (·.2.victim) then s
  else match ps.find? fun x => (s.block? x.1).any (·.outsideClause x.2) with
  | some (blk, p) =>
    if (s.block? blk).any (·.hadTurn p) then (s.modBlock blk (·.dissolve p.id true)).refreshPools blk else mark s (blk, p)
  | none => ps.foldl mark s

/-- A pool whose oldest thread has been ready for 4,096 cycles is due: formed, after a rotation on each section where it
takes a slot and none is free (R221). -/
def execPoolDue (blk : Nat) (pc : DWord) (group : Option Nat) (s : State) : Host.Outcome State Fault Refusal :=
  .next (
    let s' := s.refreshPools blk
    match s'.block? blk with
    | none => s
    | some b =>
      if s'.isDue b pc group && s'.mayForm b pc group then
        let core := b.place.core
        let full (s : State) (sect : Nat) : Bool := decide (Config.slotsPerSection ≤ s.slotsUsed core sect)
        let s := (b.sectionsOf pc group).foldl (fun s k => if full s k then s.rotateSection core k else s) s'
        (s.form blk pc group).refreshPools blk
      else s)

def execSplitLimit (blk plait : Nat) (s : State) : Host.Outcome State Fault Refusal :=
  .next (match s.block? blk with
    | none => s
    | some b =>
      match b.plaits.find? (·.id == plait) with
      | none => s
      | some p =>
        if p.other.isSome && decide (splitIssues ≤ p.issues) && b.outsideClause p then
          (s.modBlock blk (·.dissolve plait)).refreshPools blk
        else s)

/-! ## Timers -/

/-- The block stands on a core, not stopped. -/
def Block.up (b : Block) : Bool := b.place.resident && !b.ended && b.saved.isNone && b.leaving.isNone && !b.trap.stopped

def execSleepWake (blk tid : Nat) (s : State) : Host.Outcome State Fault Refusal :=
  .next (match s.block? blk with
    | none => s
    | some b =>
      match (b.th tid).wait with
      | some (.sleep target) =>
        let lens := s.waitLen b
        if decide (s.clock.time < target) then s
        else if tid = b.cfg.bsize then
          -- the handler's own sleep: charged nothing (R374)
          if b.trap.level != 0 && b.place.resident && b.saved.isNone then
            s.modTh blk tid fun th => th.resume (lens tid) b.cycles
          else s
        else if b.up && !s.promiseFirst blk target then
          ((s.modTh blk tid fun th => th.resume (lens tid) b.cycles).charge blk (weightOf 0x011) 0).refreshPools blk
        else s
      | _ => s)

def execWatchdog (blk : Nat) (s : State) : Host.Outcome State Fault Refusal :=
  .next (match s.block? blk with
    | none => s
    | some b =>
      if b.up && b.wdPeriod != 0 && decide (b.wdPeriod ≤ b.wdrun) then
        s.trapBlock blk { info := { cause := .watchdog }, thr := b.lowest, pc := (b.th b.lowest).pc }
      else s)

/-! ## Copies -/

/-- The engine has begun a copy (R179). -/
def Copy.begun (c : Copy) : Bool :=
  decide (0 < c.done) || c.fault.isSome || c.stall.isSome || c.record? || c.abandoned

/-- The engine may go on with a copy: no fault, no walk, the copies ordered before it complete, and every copy issued
earlier on its queue begun (R179 to R181). -/
def State.copyRuns (s : State) (c : Copy) : Bool :=
  c.fault.isNone && c.stall.isNone && (!c.after.any fun k => s.eng.copies.any (·.id == k)) &&
    (c.begun || s.eng.copies.all fun k => k.unit != c.unit || k.queue != c.queue || decide (c.id ≤ k.id) || k.begun)

def execCopyBeat (copy : Nat) (s : State) : Host.Outcome State Fault Refusal :=
  .next (match s.copy? copy with
    | none => s
    | some c => if s.copyRuns c then s.copyStep c else s)

/-- A copy whose every byte is written and acknowledged is complete; one whose promised time has passed has missed it first
(R179, R180). -/
def execCopyComplete (copy : Nat) (s : State) : Host.Outcome State Fault Refusal :=
  .next (match s.copy? copy with
    | none => s
    | some c =>
      if c.finished && !c.promise.any (· < s.clock.time) then
        if c.acks.isEmpty then s.dropCopy copy else s.modCopy copy fun x => { x with acks := [] }
      else s)

def execPromiseMissed (copy : Nat) (s : State) : Host.Outcome State Fault Refusal :=
  .next (match s.copy? copy with
    | none => s
    | some c =>
      if c.promise.any (· ≤ s.clock.time) && (s.block? c.blk).any fun b =>
          b.ended || (b.place.resident && b.saved.isNone && b.leaving.isNone) then
        s.missPromise c
      else s)

/-! ## The debugger -/

/-- An attached debugger resumes the block that it holds, as TRET or TRET.skip (R380). -/
def execDebuggerResume (blk : Nat) (skip : Bool) (s : State) : Host.Outcome State Fault Refusal :=
  .next (match s.block? blk with
    | none => s
    | some b =>
      if b.trap.debug && b.trap.debugH then
        s.modBlock blk fun b =>
          { b with trap := { b.trap with debug := false, debugH := false }
                   handler := { b.handler with pc := b.handler.pc + BitVec.ofNat 64 (if skip then s.skipLen b b.handler.pc else 0) } }
      else if b.trap.debug then
        ((s.modBlock blk fun b => { b with trap := { b.trap with debug := false } }).tret1 blk skip).refreshPools blk
      else s)

/-- A debugger's read of a selector of R111, answered as TREAD reads it, and its write of a value; one that TREAD or TWRITE
would trap on, and a write to an exited thread, does nothing. -/
def execDebuggerThreadWrite (blk tid : Nat) (selector : Word) (wide : Bool) (value : Option DWord) (s : State) :
    Host.Outcome State Fault Refusal :=
  .next (match s.block? blk with
    | none => s
    | some b =>
      let kind := bits selector 24 8
      let num := bits selector 0 8
      if !b.trap.debug || !selectorOk selector wide || (selectorFault b tid kind num wide).isSome then s
      else match value with
      | none =>
        let t := s.modTh blk tid (Thread.deliverIf fun _ => true)
        { t with outputs := t.outputs ++ [.debugger (readSelector b (((t.block? blk).getD b).th tid) kind num wide)] }
      | some v =>
        let x := if wide then v.toNat else v.toNat % 2 ^ 32
        if (b.th tid).st != .exited && (writeFault b (b.th tid) kind x).isNone then s.writeSelector blk tid kind num wide x
        else s)

end Sys2Proof.Machine
end

