-- ==== Sys2Proof/Machine/Dispatch.lean ====
section
/-! DEFINITION. The meaning of each constructor of Instr, one arm each (R82, R86 and the rules each meaning
names). -/

namespace Sys2Proof.Machine

/-- One step of the machine that an instruction or an event is. -/
def exec (i : Instr) (s : State) : Host.Outcome State Fault Refusal :=
  match i with
  | .nop w => Sys2Proof.Machine.execNop w s
  | .clause w => Sys2Proof.Machine.execClause w s
  | .bra w => Sys2Proof.Machine.execBra w s
  | .brx w => Sys2Proof.Machine.execBrx w s
  | .call w => Sys2Proof.Machine.execCall w s
  | .callx w => Sys2Proof.Machine.execCallx w s
  | .ret w => Sys2Proof.Machine.execRet w s
  | .ubra w => Sys2Proof.Machine.execUbra w s
  | .arm w => Sys2Proof.Machine.execArm w s
  | .pin w => Sys2Proof.Machine.execPin w s
  | .pinAlign w => Sys2Proof.Machine.execPinAlign w s
  | .width w => Sys2Proof.Machine.execWidth w s
  | .exit w => Sys2Proof.Machine.execExit w s
  | .trigger w => Sys2Proof.Machine.execTrigger w s
  | .land w => Sys2Proof.Machine.execLand w s
  | .yield w => Sys2Proof.Machine.execYield w s
  | .payout w => Sys2Proof.Machine.execPayout w s
  | .sleep w => Sys2Proof.Machine.execSleep w s
  | .sleepuntil w => Sys2Proof.Machine.execSleepuntil w s
  | .trap w => Sys2Proof.Machine.execTrap w s
  | .tret w => Sys2Proof.Machine.execTret w s
  | .tread w => Sys2Proof.Machine.execTread w s
  | .twrite w => Sys2Proof.Machine.execTwrite w s
  | .kill w => Sys2Proof.Machine.execKill w s
  | .bkpt w => Sys2Proof.Machine.execBkpt w s
  | .wdog w => Sys2Proof.Machine.execWdog w s
  | .ifence w => Sys2Proof.Machine.execIfence w s
  | .icinv w => Sys2Proof.Machine.execIcinv w s
  | .srd w => Sys2Proof.Machine.execSrd w s
  | .swr w => Sys2Proof.Machine.execSwr w s
  | .iadd w => Sys2Proof.Machine.execIadd w s
  | .isub w => Sys2Proof.Machine.execIsub w s
  | .imul w => Sys2Proof.Machine.execImul w s
  | .imulhi w => Sys2Proof.Machine.execImulhi w s
  | .imad w => Sys2Proof.Machine.execImad w s
  | .idiv w => Sys2Proof.Machine.execIdiv w s
  | .irem w => Sys2Proof.Machine.execIrem w s
  | .iabs w => Sys2Proof.Machine.execIabs w s
  | .ineg w => Sys2Proof.Machine.execIneg w s
  | .imin w => Sys2Proof.Machine.execImin w s
  | .imax w => Sys2Proof.Machine.execImax w s
  | .iaddsat w => Sys2Proof.Machine.execIaddsat w s
  | .icmp w => Sys2Proof.Machine.execIcmp w s
  | .iset w => Sys2Proof.Machine.execIset w s
  | .and w => Sys2Proof.Machine.execAnd w s
  | .or w => Sys2Proof.Machine.execOr w s
  | .xor w => Sys2Proof.Machine.execXor w s
  | .not w => Sys2Proof.Machine.execNot w s
  | .andn w => Sys2Proof.Machine.execAndn w s
  | .shl w => Sys2Proof.Machine.execShl w s
  | .shr w => Sys2Proof.Machine.execShr w s
  | .sar w => Sys2Proof.Machine.execSar w s
  | .rotl w => Sys2Proof.Machine.execRotl w s
  | .funnel w => Sys2Proof.Machine.execFunnel w s
  | .bfx w => Sys2Proof.Machine.execBfx w s
  | .bfi w => Sys2Proof.Machine.execBfi w s
  | .popc w => Sys2Proof.Machine.execPopc w s
  | .clz w => Sys2Proof.Machine.execClz w s
  | .ctz w => Sys2Proof.Machine.execCtz w s
  | .brev w => Sys2Proof.Machine.execBrev w s
  | .prmt w => Sys2Proof.Machine.execPrmt w s
  | .sel w => Sys2Proof.Machine.execSel w s
  | .mov w => Sys2Proof.Machine.execMov w s
  | .movi w => Sys2Proof.Machine.execMovi w s
  | .lea w => Sys2Proof.Machine.execLea w s
  | .plop w => Sys2Proof.Machine.execPlop w s
  | .fadd w => Sys2Proof.Machine.execFadd w s
  | .fsub w => Sys2Proof.Machine.execFsub w s
  | .fmul w => Sys2Proof.Machine.execFmul w s
  | .ffma w => Sys2Proof.Machine.execFfma w s
  | .fmin w => Sys2Proof.Machine.execFmin w s
  | .fmax w => Sys2Proof.Machine.execFmax w s
  | .fcmp w => Sys2Proof.Machine.execFcmp w s
  | .fset w => Sys2Proof.Machine.execFset w s
  | .fclass w => Sys2Proof.Machine.execFclass w s
  | .frnd w => Sys2Proof.Machine.execFrnd w s
  | .fscale w => Sys2Proof.Machine.execFscale w s
  | .fdiv w => Sys2Proof.Machine.execFdiv w s
  | .fcvt w => Sys2Proof.Machine.execFcvt w s
  | .f2i w => Sys2Proof.Machine.execF2i w s
  | .i2f w => Sys2Proof.Machine.execI2f w s
  | .hadd2 w => Sys2Proof.Machine.execHadd2 w s
  | .hfma2 w => Sys2Proof.Machine.execHfma2 w s
  | .dot4 w => Sys2Proof.Machine.execDot4 w s
  | .rcp w => Sys2Proof.Machine.execRcp w s
  | .rsq w => Sys2Proof.Machine.execRsq w s
  | .sqrt w => Sys2Proof.Machine.execSqrt w s
  | .exp2 w => Sys2Proof.Machine.execExp2 w s
  | .log2 w => Sys2Proof.Machine.execLog2 w s
  | .sin w => Sys2Proof.Machine.execSin w s
  | .cos w => Sys2Proof.Machine.execCos w s
  | .tanh w => Sys2Proof.Machine.execTanh w s
  | .shfl w => Sys2Proof.Machine.execShfl w s
  | .vote w => Sys2Proof.Machine.execVote w s
  | .matchx w => Sys2Proof.Machine.execMatchx w s
  | .red w => Sys2Proof.Machine.execRed w s
  | .scan w => Sys2Proof.Machine.execScan w s
  | .xclr w => Sys2Proof.Machine.execXclr w s
  | .xadd w => Sys2Proof.Machine.execXadd w s
  | .xfma w => Sys2Proof.Machine.execXfma w s
  | .xrnd w => Sys2Proof.Machine.execXrnd w s
  | .xmov w => Sys2Proof.Machine.execXmov w s
  | .xmovWrite w => Sys2Proof.Machine.execXmovWrite w s
  | .binq w => Sys2Proof.Machine.execBinq w s
  | .cross w => Sys2Proof.Machine.execCross w s
  | .tcmp w => Sys2Proof.Machine.execTcmp w s
  | .leaf w => Sys2Proof.Machine.execLeaf w s
  | .ld w => Sys2Proof.Machine.execLd w s
  | .st w => Sys2Proof.Machine.execSt w s
  | .lds w => Sys2Proof.Machine.execLds w s
  | .sts w => Sys2Proof.Machine.execSts w s
  | .ldc w => Sys2Proof.Machine.execLdc w s
  | .stc w => Sys2Proof.Machine.execStc w s
  | .ldk w => Sys2Proof.Machine.execLdk w s
  | .atom w => Sys2Proof.Machine.execAtom w s
  | .atoms w => Sys2Proof.Machine.execAtoms w s
  | .bred w => Sys2Proof.Machine.execBred w s
  | .bupd w => Sys2Proof.Machine.execBupd w s
  | .fence w => Sys2Proof.Machine.execFence w s
  | .waitaddr w => Sys2Proof.Machine.execWaitaddr w s
  | .cctl w => Sys2Proof.Machine.execCctl w s
  | .prefetch w => Sys2Proof.Machine.execPrefetch w s
  | .park w => Sys2Proof.Machine.execPark w s
  | .unpark w => Sys2Proof.Machine.execUnpark w s
  | .acopy w => Sys2Proof.Machine.execAcopy w s
  | .aqfence w => Sys2Proof.Machine.execAqfence w s
  | .fetch w => Sys2Proof.Machine.execFetch w s
  | .fput w => Sys2Proof.Machine.execFput w s
  | .fget w => Sys2Proof.Machine.execFget w s
  | .ftry w => Sys2Proof.Machine.execFtry w s
  | .mbsend w => Sys2Proof.Machine.execMbsend w s
  | .mbrecv w => Sys2Proof.Machine.execMbrecv w s
  | .tspawn w => Sys2Proof.Machine.execTspawn w s
  | .bari w => Sys2Proof.Machine.execBari w s
  | .bara w => Sys2Proof.Machine.execBara w s
  | .barw w => Sys2Proof.Machine.execBarw w s
  | .bsync w => Sys2Proof.Machine.execBsync w s
  | .mma w => Sys2Proof.Machine.execMma w s
  | .mmasp w => Sys2Proof.Machine.execMmasp w s
  | .tld w => Sys2Proof.Machine.execTld w s
  | .tst w => Sys2Proof.Machine.execTst w s
  | .aclr w => Sys2Proof.Machine.execAclr w s
  | .ald w => Sys2Proof.Machine.execAld w s
  | .ast w => Sys2Proof.Machine.execAst w s
  | .ard w => Sys2Proof.Machine.execArd w s
  | .awr w => Sys2Proof.Machine.execAwr w s
  | .aqnt w => Sys2Proof.Machine.execAqnt w s
  | .prune w => Sys2Proof.Machine.execPrune w s
  | .sppack w => Sys2Proof.Machine.execSppack w s
  | .intsect w => Sys2Proof.Machine.execIntsect w s
  | .bsort w => Sys2Proof.Machine.execBsort w s
  | .bmerge w => Sys2Proof.Machine.execBmerge w s
  | .resultArrival blk tid k => Sys2Proof.Machine.execResultArrival blk tid k s
  | .accessAccepted blk tid k => Sys2Proof.Machine.execAccessAccepted blk tid k s
  | .lineFill core launch line => Sys2Proof.Machine.execLineFill core launch line s
  | .plaitFormation blk pc group => Sys2Proof.Machine.execPlaitFormation blk pc group s
  | .poolDue blk pc group => Sys2Proof.Machine.execPoolDue blk pc group s
  | .splitLimit blk plait => Sys2Proof.Machine.execSplitLimit blk plait s
  | .sleepWake blk tid => Sys2Proof.Machine.execSleepWake blk tid s
  | .watchdog blk => Sys2Proof.Machine.execWatchdog blk s
  | .waitaddrWake blk tid => Sys2Proof.Machine.execWaitaddrWake blk tid s
  | .parkedWake blk tid => Sys2Proof.Machine.execParkedWake blk tid s
  | .waitTablePoll blk tid => Sys2Proof.Machine.execWaitTablePoll blk tid s
  | .copyBeat copy => Sys2Proof.Machine.execCopyBeat copy s
  | .copyComplete copy => Sys2Proof.Machine.execCopyComplete copy s
  | .promiseMissed copy => Sys2Proof.Machine.execPromiseMissed copy s
  | .landingSave blk => Sys2Proof.Machine.execLandingSave blk s
  | .forcedSave blk => Sys2Proof.Machine.execForcedSave blk s
  | .restore blk core => Sys2Proof.Machine.execRestore blk core s
  | .turnGroupRotation blk group => Sys2Proof.Machine.execTurnGroupRotation blk group s
  | .registerReturn blk tid => Sys2Proof.Machine.execRegisterReturn blk tid s
  | .debuggerResume blk skip => Sys2Proof.Machine.execDebuggerResume blk skip s
  | .walkComplete walk => Sys2Proof.Machine.execWalkComplete walk s
  | .fqrespMapped die id => Sys2Proof.Machine.execFqrespMapped die id s
  | .fqrespRefused die id => Sys2Proof.Machine.execFqrespRefused die id s
  | .fqrespOverQuota die id => Sys2Proof.Machine.execFqrespOverQuota die id s
  | .fqbaseWrite fn die value => Sys2Proof.Machine.execFqbaseWrite fn die value s
  | .shootdown env va len => Sys2Proof.Machine.execShootdown env va len s
  | .shootdownComplete k => Sys2Proof.Machine.execShootdownComplete k s
  | .migrationStart env va target => Sys2Proof.Machine.execMigrationStart env va target s
  | .migrationOpen k => Sys2Proof.Machine.execMigrationOpen k s
  | .movedAnswer blk tid => Sys2Proof.Machine.execMovedAnswer blk tid s
  | .transientRequest core line write => Sys2Proof.Machine.execTransientRequest core line write s
  | .tokenResponse core line source => Sys2Proof.Machine.execTokenResponse core line source s
  | .transientRetry core line => Sys2Proof.Machine.execTransientRetry core line s
  | .persistentActivation die line => Sys2Proof.Machine.execPersistentActivation die line s
  | .remoteRead reader line => Sys2Proof.Machine.execRemoteRead reader line s
  | .remoteWrite writer line => Sys2Proof.Machine.execRemoteWrite writer line s
  | .invalidation place line => Sys2Proof.Machine.execInvalidation place line s
  | .invalidationAck place line => Sys2Proof.Machine.execInvalidationAck place line s
  | .writeAck blk k => Sys2Proof.Machine.execWriteAck blk k s
  | .fillResponse die line => Sys2Proof.Machine.execFillResponse die line s
  | .regionReclaim region => Sys2Proof.Machine.execRegionReclaim region s
  | .filterReclaim cluster line => Sys2Proof.Machine.execFilterReclaim cluster line s
  | .invalidationTimeout line => Sys2Proof.Machine.execInvalidationTimeout line s
  | .ackTimeout pkg => Sys2Proof.Machine.execAckTimeout pkg s
  | .loadTimeout blk tid pkg => Sys2Proof.Machine.execLoadTimeout blk tid pkg s
  | .flitReceive port flit => Sys2Proof.Machine.execFlitReceive port flit s
  | .replayRequest port seq => Sys2Proof.Machine.execReplayRequest port seq s
  | .remoteAccessArrival source req => Sys2Proof.Machine.execRemoteAccessArrival source req s
  | .revokedAnswer blk tid => Sys2Proof.Machine.execRevokedAnswer blk tid s
  | .laneRepair link lane => Sys2Proof.Machine.execLaneRepair link lane s
  | .boundaryLost boundary => Sys2Proof.Machine.execBoundaryLost boundary s
  | .correctionEntryTimer store die => Sys2Proof.Machine.execCorrectionEntryTimer store die s
  | .doorbell fn die queue value => Sys2Proof.Machine.execDoorbell fn die queue value s
  | .qstatRead fn die queue => Sys2Proof.Machine.execQstatRead fn die queue s
  | .registerWrite fn offset value => Sys2Proof.Machine.execRegisterWrite fn offset value s
  | .hostMemAccess fn req => Sys2Proof.Machine.execHostMemAccess fn req s
  | .queueTake die queue => Sys2Proof.Machine.execQueueTake die queue s
  | .registration task => Sys2Proof.Machine.execRegistration task s
  | .taskReady task => Sys2Proof.Machine.execTaskReady task s
  | .blockPlacement task core => Sys2Proof.Machine.execBlockPlacement task core s
  | .priorityAging task => Sys2Proof.Machine.execPriorityAging task s
  | .pipelineBalance env pipe => Sys2Proof.Machine.execPipelineBalance env pipe s
  | .writeBack env tile => Sys2Proof.Machine.execWriteBack env tile s
  | .gridCompletion task => Sys2Proof.Machine.execGridCompletion task s
  | .hostLinkReset width rate => Sys2Proof.Machine.execHostLinkReset width rate s
  | .mctpControl msg => Sys2Proof.Machine.execMctpControl msg s
  | .bboxRead die => Sys2Proof.Machine.execBboxRead die s
  | .setLimit watts => Sys2Proof.Machine.execSetLimit watts s
  | .envSet env field value => Sys2Proof.Machine.execEnvSet env field value s
  | .podSet members pkgid => Sys2Proof.Machine.execPodSet members pkgid s
  | .quarClear pkg => Sys2Proof.Machine.execQuarClear pkg s
  | .cacheReset pkg => Sys2Proof.Machine.execCacheReset pkg s
  | .retireCommit die frame => Sys2Proof.Machine.execRetireCommit die frame s
  | .setAckto ns => Sys2Proof.Machine.execSetAckto ns s
  | .setRlc die mib => Sys2Proof.Machine.execSetRlc die mib s
  | .dbgAttach env attach => Sys2Proof.Machine.execDbgAttach env attach s
  | .pldmSensorRead sensor => Sys2Proof.Machine.execPldmSensorRead sensor s
  | .firmwareUpdate image whole => Sys2Proof.Machine.execFirmwareUpdate image whole s
  | .negotiateAlgorithms sign hash => Sys2Proof.Machine.execNegotiateAlgorithms sign hash s
  | .getCertificate slot => Sys2Proof.Machine.execGetCertificate slot s
  | .challenge slot nonce => Sys2Proof.Machine.execChallenge slot nonce s
  | .getMeasurements index => Sys2Proof.Machine.execGetMeasurements index s
  | .notAnInstruction cause => Sys2Proof.Machine.execNotAnInstruction cause s
  | .portComesBack port => Sys2Proof.Machine.execPortComesBack port s
  | .hostCompletionTimeout blk tid => Sys2Proof.Machine.execHostCompletionTimeout blk tid s
  | .hostLinkTrainsDown width rate => Sys2Proof.Machine.execHostLinkTrainsDown width rate s
  | .debuggerThreadWrite blk tid selector wide value => Sys2Proof.Machine.execDebuggerThreadWrite blk tid selector wide value s
  | .queueBinding die queue env mailbox => Sys2Proof.Machine.execQueueBinding die queue env mailbox s
  | .rootTableAddress env root => Sys2Proof.Machine.execRootTableAddress env root s
  | .functionBinding fn env => Sys2Proof.Machine.execFunctionBinding fn env s
  | .directReelPayment blk traffic amount => Sys2Proof.Machine.execDirectReelPayment blk traffic amount s
  | .dynamicAddressAssignment address => Sys2Proof.Machine.execDynamicAddressAssignment address s
  | .retirementThreshold n => Sys2Proof.Machine.execRetirementThreshold n s
  | .powerMeasurement => Sys2Proof.Machine.execPowerMeasurement s
  | .thermalTrip => Sys2Proof.Machine.execThermalTrip s
  | .freezeInput => Sys2Proof.Machine.execFreezeInput s
  | .coldReset => Sys2Proof.Machine.execColdReset s
  | .warmReset => Sys2Proof.Machine.execWarmReset s
  | .freeze => Sys2Proof.Machine.execFreeze s
  | .errCounts => Sys2Proof.Machine.execErrCounts s
  | .getVersion => Sys2Proof.Machine.execGetVersion s
  | .getCapabilities => Sys2Proof.Machine.execGetCapabilities s
  | .getDigests => Sys2Proof.Machine.execGetDigests s

end Sys2Proof.Machine
end

