-- ==== Sys2Proof/Machine/Errors.lean ====
section
/-! DEFINITION. How errors of storage come about (R412, R413): a free value says at each choice whether one does, and where. -/

namespace Sys2Proof.Machine

/-- The unit that a free value names, by a kind and its numbers. -/
def unitOf (kind a b c : Nat) : Option ErrUnit :=
  match kind with
  | 0 => some (.mem a)
  | 1 => some (.reg a b c)
  | 2 => some (.ureg a b)
  | 3 => some (.tile a b)
  | 4 => some (.row a b)
  | 5 => some (.xsum a b)
  | 6 => some (.scratch a b)
  | 7 => some (.slot a b)
  | 8 => some (.ring a b)
  | 9 => some (.wait a b)
  | 10 => some (.l1 a b)
  | 11 => some (.l2 a)
  | 12 => some (.dep a b)
  | _ => none

/-- An uncorrectable error comes about in a unit: one of a clean line of an L1 is corrected, for the line is fetched again
(R413). -/
def State.strikeBad (s : State) (u : ErrUnit) : State :=
  match u with
  | .l1 core w =>
    if s.dirtyIn core (8 * w / 128) then { s with health := { s.health with bad := u :: s.health.bad } }
    else s.corrected 1 (dieOfCore core % Config.dies) (8 * w)
  | u => { s with health := { s.health with bad := u :: s.health.bad } }

/-- An error comes about in a parity-protected entry, a clean line of a remote-line cache, or a flit: the entry is dropped or the
flit sent again, and counted (R412, R413). -/
def State.strikeEntry (s : State) (kind a die : Nat) : State :=
  match kind with
  | 0 => ({ s with eng := { s.eng with icache := s.eng.icache.eraseIdx a } } : State).corrected 3 die 0
  | 1 => ({ s with eng := { s.eng with loops := s.eng.loops.eraseIdx a } } : State).corrected 3 die 0
  | 2 => ({ s with eng := { s.eng with consts := s.eng.consts.eraseIdx a } } : State).corrected 3 die 0
  | 3 => ({ s with eng := { s.eng with fetchs := s.eng.fetchs.eraseIdx a } } : State).corrected 3 die 0
  | 4 => ({ s with eng := { s.eng with tlb := s.eng.tlb.eraseIdx a } } : State).corrected 3 die 0
  | 5 => s.corrected 4 die 0
  | 6 => s.corrected 6 die 0
  | _ => match s.coh.remote[a]? with
    | some r => if r.fill then s
      else ({ (s.gather r.die r.line) with coh := { (s.gather r.die r.line).coh with remote := s.coh.remote.eraseIdx a } } : State).corrected 1 r.die (128 * r.line)
    | none => s

/-- An error that comes about, where the free value says so. -/
def State.strike (s : State) (x : Option (Nat × Nat × Nat × Nat × Nat)) : State :=
  match x with
  | none => s
  | some (0, k, a, b, c) => match unitOf k a b c with
    | some u => s.strikeBad u
    | none => s
  | some (1, k, a, b, c) => match unitOf k a b c with
    | some u => { s with health := { s.health with soft := u :: s.health.soft } }
    | none => s
  | some (_, k, a, b, _) => s.strikeEntry k a (b % Config.dies)

end Sys2Proof.Machine
end

