-- ==== Sys2Proof/Machine/Schedule.lean ====
section
/-! DEFINITION. What happens next (log 2): events set to happen, the issue that stands next, and otherwise
one of the steps that can be taken, chosen by a free value, as time passes by a free value within the bounds of
the rules. -/

namespace Sys2Proof.Machine

/-! ## Time (R6, R113, R211, R339) -/

/-- Time passes, to a count of core cycles: the timers of blocks that stand unstopped; the use of each envelope; a task that
does not wait does not age. -/
def State.pass (s : State) (dt kcyc sub : Nat) : State :=
  let dc := kcyc / 1000 - s.clock.kcyc / 1000
  let now := s.clock.time + dt
  let tick (b : Block) : Block := if b.up then { b with cycles := b.cycles + dc, wdrun := b.wdrun + dt } else b
  let resident (env : Nat) : Nat := (s.blocks.filter fun b => b.place.resident && !b.ended && b.cfg.envelope == env).length
  let use (e : Envelope) : Envelope :=
    let n := resident e.id
    if n = 0 then e else { e with usage := (now, n * dc) :: e.usage.filter fun u => decide (now < u.1 + 1000000) }
  let hold (t : Task) : Task := if s.waiting t then t else { t with readyAt := t.readyAt + dt }
  { s with
    clock := { s.clock with time := now, kcyc, sub }
    blocks := s.blocks.map tick
    envs := s.envs.map use
    sched := { s.sched with tasks := s.sched.tasks.map hold } }

/-- ns pass, with the core cycles of the clock's rate; those that the ns has had already are not counted again. -/
def State.advance (s : State) (dt : Nat) : State :=
  if dt = 0 then s
  else s.pass dt (max s.clock.kcyc (s.clock.kcyc + dt * s.clock.mhz - s.clock.sub)) 0

/-- The next core cycle begins: in the same ns where that holds another, else in the next one. -/
def State.nextCycle (s : State) : State :=
  if s.clock.sub + 1000 < s.clock.mhz then s.pass 0 (s.clock.kcyc + 1000) (s.clock.sub + 1000) else s.advance 1

/-- ns that core cycles take, rounded up. -/
def Clock.nsOf (c : Clock) (cycles : Nat) : Nat := (cycles * 1000 + c.mhz - 1) / max 1 c.mhz

/-- The wait of a thread that a time ends: a sleep by 1,000 ns after its target, a poll at its time (R108,
R176). -/
def Thread.deadline (th : Thread) : Option Nat :=
  match th.wait with
  | some (.sleep t) => some (t + 1000)
  | some (.parked q) => if q.polled then some q.pollAt else none
  | _ => none

/-- The times up to which a block lets time pass. -/
def State.blockDeadlines (s : State) (b : Block) : List Nat :=
  let now := s.clock.time
  let threads := (if b.up then b.threads.filterMap Thread.deadline else []) ++
    (if b.trap.level = 0 then [] else b.handler.deadline.toList)
  let wd := if b.up && b.wdPeriod != 0 then [now + (b.wdPeriod - b.wdrun)] else []
  let pools := if b.running then (b.poolKeys.map fun k =>
    [now + s.clock.nsOf (dueAge - b.poolAge k.1 k.2), now + s.clock.nsOf (formDelay - b.poolAge k.1 k.2)]).flatten else []
  let land := match b.due with
    | some d => [d.time + (s.env b.cfg.envelope).landtime]
    | none => []
  let acks := ((s.owed b).filter fun a => (s.farOf a.pa).any (· != 1024)).map fun a => a.time + s.fabric.ackto
  let far := (b.handler :: b.threads).filterMap fun th => th.remote.map fun r => r.2.1 + s.fabric.ackto
  let turns := if b.running then (b.plaits.filter fun p => !(b.issueSet p).isEmpty).map fun p =>
    now + (if p.victim then 1 else s.clock.nsOf (dueAge - (b.cycles - p.last))) else []
  threads ++ wd ++ pools ++ land ++ acks ++ far ++ turns

/-- The times up to which the package lets time pass: power is measured every 10 µs. -/
def State.deadlines (s : State) : List Nat :=
  [10000 * (s.clock.measured + 1)] ++ (s.blocks.map s.blockDeadlines).flatten ++
    (s.eng.copies.filterMap (·.promise)) ++
    (s.health.counts.filterMap fun c => if c.pending = 0 then none else c.entry.map (· + 1000000)) ++
    (s.sched.tasks.map fun t => t.readyAt + ageStep * (t.aged + 1)) ++
    (s.coh.rounds.map fun r => r.since + s.fabric.ackto) ++
    (s.coh.reqs.map fun r => s.clock.time + s.clock.nsOf (r.since + retryCycles - s.cycleNow))

/-- ns to the next of them. -/
def State.slack (s : State) : Nat :=
  (s.deadlines.filter (s.clock.time < ·)).foldl min (s.clock.time + 10000) - s.clock.time

/-! ## What can happen -/

/-- A step that can be taken: an issue, the trap of a handler whose frame faulted (R373), an event. -/
inductive Act where
  | issue (i : Issue)
  | frame (blk : Nat)
  | event (i : Instr)
  deriving DecidableEq, Repr

/-- An event that changes the state now. -/
def State.changes (s : State) (i : Instr) : Bool :=
  match exec i s with
  | .next t => t != s
  | _ => false

/-- The events of a block that its time brings, promises before wakes (R180). -/
def State.blockTimers (s : State) (b : Block) : List Instr :=
  let late := (b.threads.zipIdx ++ [(b.handler, b.cfg.bsize)]).filter fun x => x.1.deadline.any (· ≤ s.clock.time)
  [.watchdog b.id] ++ late.map (fun x => match x.1.wait with
    | some (.sleep _) => .sleepWake b.id x.2
    | _ => .waitTablePoll b.id x.2) ++
    (if b.due.isSome then [.landingSave b.id, .forcedSave b.id] else []) ++
    ((b.handler :: b.threads).filterMap fun th => th.remote).map (fun r => .ackTimeout r.1) ++
    ((s.owed b).filterMap fun a => s.farOf a.pa).dedup.map .ackTimeout

/-- The threads that wait for another package or the host beyond the timeout. -/
def Block.lateAnswers (b : Block) : List Instr :=
  ((b.threads ++ [b.handler]).zipIdx.filterMap fun x => x.1.remote.map fun r =>
    if r.1 = 1024 then .hostCompletionTimeout b.id x.2 else .loadTimeout b.id x.2 r.1)

/-- The pools that the former forms without delay: those that are due, by age; then those that hold a plait's threads or
have waited for 64 cycles, those of blocks of higher launch priority before older ones (R214, R221). -/
def State.formations (s : State) : List Instr :=
  let all := ((s.blocks.filter Block.running).map fun b => b.poolKeys.map fun k =>
    (b, k, b.poolAge k.1 k.2)).flatten
  let due := sortBy (fun x y => decide (y.2.2 ≤ x.2.2)) (all.filter fun x => decide (dueAge ≤ x.2.2))
  let ripe := sortBy (fun x y => decide (y.1.cfg.priority < x.1.cfg.priority) ||
    (x.1.cfg.priority == y.1.cfg.priority && decide (y.2.2 ≤ x.2.2)))
    (all.filter fun x => decide (x.1.width ≤ (x.1.pool x.2.1.1 x.2.1.2).length ∨ formDelay ≤ x.2.2))
  due.map (fun x => .poolDue x.1.id x.2.1.1 x.2.1.2) ++ ripe.map fun x => .plaitFormation x.1.id x.2.1.1 x.2.1.2

/-- The events that come before every other when their time is there. -/
def State.urgent (s : State) : List Instr :=
  (if 10000 * (s.clock.measured + 1) ≤ s.clock.time then [.powerMeasurement] else []) ++
    (s.eng.copies.filter fun c => c.promise.any (· ≤ s.clock.time)).map (fun c => .promiseMissed c.id) ++
    (s.blocks.map s.blockTimers).flatten ++ (s.blocks.map Block.lateAnswers).flatten ++
    (s.coh.rounds.map fun r => .invalidationTimeout r.line) ++
    (List.range s.fabric.held.length).map (fun k => .remoteAccessArrival 0 (.again k)) ++
    (List.range s.host.held.length).map (fun k => .hostMemAccess 0 (.again k)) ++
    (s.health.counts.map fun c => .correctionEntryTimer c.store c.die) ++
    (s.sched.tasks.map fun t => .priorityAging t.id) ++ s.formations

/-- The issues of a block: its handler in trap mode, or its plaits. -/
def Block.issues (b : Block) : List Act :=
  let h := b.handler
  if b.trap.level ≠ 0 then
    if !b.place.resident || b.saved.isSome || b.leaving.isSome || b.ended || h.st != .ready || h.stall.isSome || h.remote.isSome ||
        b.trap.pend.isSome || b.trap.debug then []
    else if b.trap.frame.isSome then [.frame b.id]
    else [.issue { blk := b.id, handler := true, ths := [(0, b.cfg.bsize)] }]
  else if b.running then
    (b.plaits.map fun p => (p.id, b.issueSet p)).filterMap fun x =>
      if x.2.isEmpty then none else some (.issue { blk := b.id, plait := x.1, ths := x.2 })
  else []

/-- The plait of an issue, with its block. -/
def State.plaitOf (s : State) (i : Issue) : Option (Block × Plait) :=
  (s.block? i.blk).bind fun b => (b.plaits.find? (·.id == i.plait)).map fun p => (b, p)

/-- A pool at the kernel's entry finds a slot free. -/
def State.entryPool (s : State) (b : Block) : Bool :=
  b.poolKeys.any fun k => k.1 == b.codeBase &&
    (b.sectionsOf k.1 k.2).all fun n => decide (s.slotsUsed b.place.core n < Config.slotsPerSection)

/-- The issue is in turn: until the first release of a pin, a WIDTH or a barrier, the plaits of a block that can issue do so
in rounds, once its threads at the entry are in plaits (R282, log 79). -/
def State.inTurn (s : State) (a : Act) : Bool :=
  match a with
  | .issue i => i.handler || (s.plaitOf i).all fun x =>
      x.1.epoch != 0 || (!s.entryPool x.1 && x.1.plaits.all fun q => (x.1.issueSet q).isEmpty || decide (x.2.round ≤ q.round))
  | _ => true

/-- The issues that can be made. -/
def State.issues (s : State) : List Act := (s.blocks.map Block.issues).flatten.filter s.inTurn

/-- What can happen to the threads of a block. -/
def Block.threadEvents (b : Block) : List Instr :=
  ((b.threads.zipIdx ++ [(b.handler, b.cfg.bsize)]).map fun x =>
    let th := x.1
    let t := x.2
    (List.range th.outst.length).map (.resultArrival b.id t) ++ (List.range th.outst.length).map (.accessAccepted b.id t) ++
      (match th.wait with
        | some (.sleep _) => [.sleepWake b.id t]
        | some (.parked q) => if q.kind = .waitaddr then [.waitaddrWake b.id t] else [.parkedWake b.id t]
        | _ => []) ++
      (if th.inSlot then [.registerReturn b.id t] else []) ++
      (if th.stall = some 0 then [.movedAnswer b.id t] else [])).flatten

/-- What can happen to a block. -/
def Block.events (b : Block) : List Instr :=
  b.threadEvents ++ b.poolKeys.map (fun k => .plaitFormation b.id k.1 k.2) ++
    (b.plaits.map fun p => .splitLimit b.id p.id) ++ (List.range (b.acks.length + b.records.length)).map (.writeAck b.id) ++
    (if b.cfg.partial? then (List.range ((b.cfg.bsize + 127) / 128)).map (.turnGroupRotation b.id) else []) ++
    (if b.due.isSome then [.landingSave b.id, .forcedSave b.id] else []) ++
    (if b.saved.isSome then (List.range Config.cores).map (.restore b.id) else [])

/-- What can happen in the schedulers. -/
def State.schedEvents (s : State) : List Instr :=
  ((List.range Config.dies).map fun d => (List.range Config.queuesPerDie).map (.queueTake d)).flatten ++
    (s.sched.tasks.map fun t => [.registration t.id, .taskReady t.id, .gridCompletion t.id] ++
      (List.range Config.cores).map (.blockPlacement t.id)).flatten ++
    s.sched.tiles.map fun e => .writeBack e.env e.tile

/-- What can happen in the engines and in the coherence machinery. -/
def State.engineEvents (s : State) : List Instr :=
  (s.eng.copies.map fun c => [.copyBeat c.id, .copyComplete c.id]).flatten ++
    (s.eng.walks.map fun w => .walkComplete w.id) ++
    (List.range s.eng.shoots.length).map .shootdownComplete ++ (List.range s.eng.migrs.length).map .migrationOpen ++
    (s.coh.reqs.map fun r => [.transientRetry r.core r.line, .tokenResponse r.core r.line none,
      .persistentActivation (dieOfCore r.core) r.line] ++
      (s.holders (dieOfCore r.core) r.line).map fun h => .tokenResponse r.core r.line (some h.core)).flatten ++
    (s.coh.reqs.map fun r => .remoteRead (.cluster (clusterOfCore r.core)) r.line) ++
    (s.coh.rounds.map fun r => r.pending.map (.invalidation · r.line) ++ r.acking.map (.invalidationAck · r.line)).flatten ++
    (s.coh.remote.map fun r => .fillResponse r.die r.line) ++
    (s.eng.icache.map fun c => .lineFill c.core c.task (BitVec.ofNat 64 (c.line + 64)))

/-- Everything that can happen now. -/
def State.acts (s : State) : List Act :=
  s.issues ++
    (((s.blocks.map Block.events).flatten ++ s.schedEvents ++ s.engineEvents).filter s.changes).map .event

/-- The balance of each pipeline, every tenth measurement (R341). -/
def State.balances (s : State) : List Instr :=
  if s.clock.measured % 10 = 0 then
    (s.sched.tasks.filterMap fun t => t.pipe.map fun p => (t.cfg.envelope, p.1)).dedup.map fun p => .pipelineBalance p.1 p.2
  else []

/-! ## Two issues in one cycle (R220, R226) -/

/-- The instruction at an issue's PC permits a second one in its cycle (R50). -/
def State.pairHint (s : State) (i : Issue) : Bool :=
  match s.block? i.blk with
  | none => false
  | some b => (s.wordAt b (b.th ((i.ths.map (·.2)).headD 0)).pc).any fun x => x.2.hint.getLsbD 1

/-- Two issues of one section that one cycle can hold: the halves of a split plait, or two plaits at different PCs, both
with PAIR, of 32 lanes together. -/
def State.canPair (s : State) (i j : Issue) : Bool :=
  match s.plaitOf i, s.plaitOf j with
  | some (b, p), some (c, q) =>
    if b.id == c.id && (p.other == some q.id) then true
    else
      b.place.core == c.place.core && p.sect == q.sect && p.other.isNone && q.other.isNone && !p.pair && !q.pair &&
        decide (b.width + c.width ≤ 32) && (b.th ((i.ths.map (·.2)).headD 0)).pc != (c.th ((j.ths.map (·.2)).headD 0)).pc &&
        s.pairHint i && s.pairHint j
  | _, _ => false

/-- The issue made in the same cycle: the other half's whenever it can issue; another plait's where the section takes
it. -/
def State.pairOf (s : State) (i : Issue) : Option Issue :=
  if i.handler then none
  else
    let js := (s.issues.filterMap fun
      | .issue j => if j != i && !j.handler && s.canPair i j then some j else none
      | _ => none)
    match js.find? fun j => (s.plaitOf i).any fun x => j.blk == i.blk && x.2.other == some j.plait with
    | some j => some j
    | none => if Config.coIssue s.choices then js.head? else none

/-- Of two issues of a cycle the one that takes the first port: the primary half's, or the plait's whose slot was filled
earlier. -/
def State.firstPort (s : State) (i j : Issue) : Issue :=
  match s.plaitOf i, s.plaitOf j with
  | some (_, p), some (_, q) => if p.other.isSome then (if p.first then i else j) else if p.slot ≤ q.slot then i else j
  | _, _ => i

/-- Choices for which an issue may be passed over, and in which at least 1 ns passes (R230, log 67). -/
def fairBound : Nat := 65536

/-- The count of choices when an issue's plait, or the handler, last issued. -/
def State.turnOf (s : State) (i : Issue) : Nat :=
  if i.handler then ((s.block? i.blk).map (·.trap.turn)).getD 0 else ((s.plaitOf i).map (·.2.turn)).getD 0

/-- The issue must be made before time passes: a plait that has waited for a slot, or in its pool, for as long as makes a
pool due, and a victim of rotation that has a clause to end (R222, R230); one passed over past the bound of choices. -/
def State.isOverdue (s : State) (i : Issue) : Bool :=
  decide (s.turnOf i + fairBound ≤ s.choices) || (s.plaitOf i).any fun x =>
    !i.handler && (decide (dueAge ≤ x.1.cycles - x.2.last) || (x.2.victim && decide (x.2.last < x.1.cycles)))

/-- Of the issues that must be made the one that has been passed over longest. -/
def State.overdue (s : State) : Option Act :=
  (sortBy (fun x y => decide (x.1 ≤ y.1)) (s.issues.filterMap fun
    | .issue i => if s.isOverdue i then some (s.turnOf i, Act.issue i) else none
    | _ => none)).head?.map (·.2)

/-- The core and the section at which an issue stands in the order of its cycle: a pair at its lower section (R123). -/
def State.sectionOf (s : State) (i : Issue) : Nat × Nat :=
  match s.plaitOf i with
  | some (b, p) => (b.place.core, if i.handler then b.cfg.bsize % 4 else if p.pair then min p.sect (p.sect ^^^ 1) else p.sect)
  | none => match s.block? i.blk with
    | some b => (b.place.core, b.cfg.bsize % 4)
    | none => (0, 0)

/-- A cycle's issues are made by ascending section (R123, R220): another issue on a section at or above has been made in this
cycle of the core. -/
def State.cycleTaken (s : State) (i : Issue) : Bool :=
  let x := s.sectionOf i
  s.eng.issued.any fun e => e.1 == x.1 && e.2.1 == s.cycleNow && decide (x.2 ≤ e.2.2)

/-- The issue is the last of its core's cycle so far. -/
def State.noteCycle (s : State) (i : Issue) : State :=
  let x := s.sectionOf i
  { s with eng := { s.eng with issued := (x.1, s.cycleNow, x.2) :: s.eng.issued.filter (·.1 != x.1) } }

/-- A step that can be taken is taken; an issue whose place in the cycle is past is left to the next one. -/
def State.take (s : State) (a : Act) : Host.Outcome State Fault Refusal :=
  match a with
  | .issue i =>
    .next (if s.cycleTaken i then s.nextCycle
    else match s.pairOf i with
      | none => { s.noteCycle i with cur := some i }
      | some j => { s.noteCycle i with cur := some (s.firstPort i j), mate := some (if s.firstPort i j = i then j else i) })
  | .frame blk => .next (match (s.block? blk).bind (·.trap.frame) with
      | some t => s.handlerTrap blk t
      | none => s)
  | .event i => exec i s

/-- The event that comes first, or an issue that must be made, or one of the steps that can be taken; where there is none,
time passes up to the next event that time brings. -/
def State.choose (s : State) : Host.Outcome State Fault Refusal :=
  match s.urgent.filter s.changes with
  | .powerMeasurement :: _ =>
    match exec .powerMeasurement s with
    | .next s => .next { s with agenda := s.agenda ++ s.balances }
    | r => r
  | i :: _ => exec i s
  | [] =>
    if s.acts.isEmpty then .next (s.advance s.slack)
    else match s.overdue with
    | some a => ({ s with choices := s.choices + 2 } : State).take a
    | none =>
      let dt := min (max (Config.elapse s.choices) (if s.choices % fairBound < 2 then 1 else 0)) s.slack
      let k := Config.pick (s.choices + 1)
      let t := (({ s.advance dt with choices := s.choices + 3 } : State).sweep).strike (Config.strike (s.choices + 2))
      match t.acts[k % max 1 t.acts.length]? with
      | some a => t.take a
      | none => .next t

/-! ## The issue that stands next -/

/-- The issue can still be made: its block runs, its threads are ready at one PC; a handler is in trap mode. -/
def Block.canIssue (b : Block) (iss : Issue) : Bool :=
  if iss.handler then
    b.trap.level != 0 && !b.trap.debug && b.place.resident && !b.ended && b.saved.isNone && b.leaving.isNone && b.handler.st == .ready && iss.ths == [(0, b.cfg.bsize)]
  else
    b.running && !iss.ths.isEmpty && iss.ths.all fun x =>
      (b.th x.2).st == .ready && decide (x.2 < b.cfg.bsize) && (b.th x.2).pc == (b.th ((iss.ths.map (·.2)).headD 0)).pc

/-- The outcome of an issue, with the former's work after it. -/
def settled (iss : Issue) : Host.Outcome State Fault Refusal → Host.Outcome State Fault Refusal
  | .next s => .next (s.close iss)
  | r => r

/-- The instruction of an issue: fetched, decoded and executed; an entry that is none traps; a line is filled
first, or its walk waited for (R54, R60 to R65). -/
def State.runCur (s : State) (iss : Issue) : Host.Outcome State Fault Refusal :=
  let s := s.skipPads iss.blk (iss.ths.map (·.2))
  match s.block? iss.blk with
  | none => .next s.closeNone
  | some b =>
    if !b.canIssue iss then .next s.closeNone
    else
      match s.fetch b iss with
      | (s, .insn i len) =>
        let iss := { iss with len, word := i.opWord }
        settled iss (exec i { s with cur := some iss })
      | (s, .bad c) => settled iss (exec (.notAnInstruction c) s)
      | (s, .fault t) => .next ((s.failThreads iss.blk iss.handler (iss.ths.map fun x => (x.2, t))).close iss)
      | (s, .fill line) =>
        match exec (.lineFill b.place.core b.task (BitVec.ofNat 64 line)) s with
        -- while a fill goes on, other issues may write its bytes (R66)
        | .next s => .next (if s.eng.fills.any (fun c => c.core == b.place.core && c.task == b.task && c.line == line)
            then s.closeNone else s)
        | r => r
      | (s, .wait w) =>
        .next ((iss.ths.foldl (fun s x => s.modTh iss.blk x.2 fun th => { th with stall := some w, retiring := false }) s).close iss)

/-! ## Events while the package is frozen (R420) -/

/-- The management plane's events, which go on in a frozen package. -/
def managed : Instr → Bool
  | .thermalTrip | .freezeInput | .coldReset | .warmReset | .mctpControl _ | .freeze | .bboxRead _ | .setLimit _
  | .envSet _ _ _ | .podSet _ _ | .quarClear _ | .cacheReset _ | .retireCommit _ _ | .setAckto _ | .setRlc _ _
  | .dbgAttach _ _ | .errCounts | .pldmSensorRead _ | .getVersion | .getCapabilities
  | .negotiateAlgorithms _ _ | .getDigests | .getCertificate _ | .challenge _ _ | .getMeasurements _
  | .queueBinding _ _ _ _ | .rootTableAddress _ _ | .functionBinding _ _ | .directReelPayment _ _ _
  | .dynamicAddressAssignment _ | .retirementThreshold _ => true
  | _ => false

/-- The events of a package that stays in reset, for no image was accepted: MCTP control, and the balls (R429, R435). -/
def bootless : Instr → Bool
  | .mctpControl _ | .dynamicAddressAssignment _ | .coldReset | .warmReset | .thermalTrip => true
  | _ => false

/-- The host's events, for which the link has to be trained (R434 step 6). -/
def ofHost : Instr → Bool
  | .doorbell _ _ _ _ | .qstatRead _ _ _ | .registerWrite _ _ _ | .fqbaseWrite _ _ _ | .hostMemAccess _ _
  | .hostLinkTrainsDown _ _ => true
  | _ => false

/-- The event can happen: in a frozen package only the management plane's do. -/
def State.heeds (s : State) (i : Instr) : Bool :=
  (!s.frozen || managed i) && (s.fw.running.isSome || bootless i) && (s.host.trained || !ofHost i)

/-- The next event of the agenda. -/
def State.runAgenda (s : State) (i : Instr) (rest : List Instr) : Host.Outcome State Fault Refusal :=
  if s.heeds i then exec i { s with agenda := rest } else .next { s with agenda := rest }

/-- One step of the package. -/
def State.next (s : State) : Host.Outcome State Fault Refusal :=
  if s.dark then .fault .noPower
  else match s.ahead.bind fun _ => s.cur with
  | some iss => s.runCur iss
  | none =>
    match s.agenda with
    | i :: rest => s.runAgenda i rest
    | [] =>
      if s.frozen then .fault .frozen
      else match s.cur with
        | some iss => s.runCur iss
        | none => s.choose

/-! ## A word placed for the next step -/

/-- The launch of a placed word (log 39): one thread, every register that a launch can have, code at 0x10000. -/
def placedRec : LaunchRec :=
  { version := 0x08000000, code := 0x10000, bound := 0x10040, bsize := 1, levels := [(1, 0)], vregs := 256, uregs := 256
    scratch := 4096, accrows := 32, tiles := 16, xsums := 8, pins := 32, ireel := 2 ^ 40, treel := 2 ^ 40, landbound := 1
    nread := 0, nwrite := 0 }

/-- Its block on core 0, its thread in a plait of width 32. -/
def placedBlock : Block :=
  { id := 1, task := 1, cfg := placedRec
    place := { core := 0, resident := true, grant := 8, dflt := 8 }
    regs := { ireel := BitVec.ofNat 64 (2 ^ 40), treel := BitVec.ofNat 64 (2 ^ 40) }
    threads := [newThread placedRec 0 0 256]
    uregs := List.replicate 256 {}
    xs := List.replicate 8 {}
    plaits := [{ id := 1, ths := [(0, 0)] }] }

/-- An instruction's bytes in the core's instruction cache, its block and task placed, its issue next. -/
def State.place (s : State) (bytes : List Byte) : State :=
  let line : CodeLine := { core := 0, task := 1, line := 0x10000, bytes := (bytes ++ List.replicate 64 0#8).take 64 }
  { s with
    blocks := [placedBlock]
    sched := { s.sched with tasks := [{ id := 1, cfg := placedRec, registered := true, ready := true, next := 1 }], nextTask := 2 }
    eng := { s.eng with icache := [line], loops := [] }
    frozen := false, dark := false, agenda := []
    cur := some { blk := 1, plait := 1, ths := [(0, 0)] }, mate := none, ahead := none }

end Sys2Proof.Machine
end

