-- ==== Sys2Proof/Safety.lean ====
section
/-! DEFINITION. What a good state is: memories in canonical form, settings inside the ranges of their rules. -/

namespace Sys2Proof.Machine

/-- The memories of a block are in canonical form. -/
def Block.memWf (b : Block) : Bool := b.tiles.wf && b.rows.wf && b.scratch.wf && b.staging.wf

/-- Every memory of the package is in canonical form. -/
def State.memWf (s : State) : Bool :=
  s.mem.wf && s.blocks.all Block.memWf && s.health.boxes.all fun x => x.ring.wf

/-- The arithmetic clock and the power limit lie where R4 and R432 keep them. -/
def Clock.inRange (c : Clock) : Prop := 1000 ≤ c.mhz ∧ c.mhz ≤ 2700 ∧ 1500 ≤ c.limit ∧ c.limit ≤ 3200

/-! ## An issue of a word, as the statements speak of it -/

/-- The block has a thread of a number: its handler thread has the number of its size (R374). -/
def Block.has (b : Block) (t : Nat) : Prop := t = b.cfg.bsize ∨ t < b.threads.length

/-- An issue is one of a block, and nothing before the meaning of the word stops it: the threads exist and stand
where a clause allows the word (R70); trap mode does not forbid it (R375), its static operands lie inside the
allocation (R38), no register that it reads holds an error (R414), no completion flag is full (R68). The state
is the one in which the issue's outstanding results have arrived or not (R47). -/
structure State.Runs (s : State) (iss : Issue) (op : Nat) (w : CWord) (b : Block) : Prop where
  found  : s.block? iss.blk = some b
  nodup  : (iss.ths.map (·.2)).Nodup
  has    : ∀ x ∈ iss.ths, b.has x.2
  place  : clauseEnding op w = true → ∀ x ∈ iss.ths, (b.th x.2).inClause ≤ 1
  mode   : (iss.handler && handlerForbids op w) = false
  static : staticOk b.cfg iss.handler op w = true
  sound  : ∀ x ∈ (ctxOf iss op w b).on, s.badReg iss.blk x.2 op w = false
  room   : (ctxOf iss op w b).flagFull = false

/-- A fate after which nothing is left but the thread's own change and the charge: no wait that others can
release, no exit, no trap. -/
def Fate.quiet : Fate → Bool
  | .done _ _ | .masked _ | .paid | .goto _ _ | .header _ _ | .landed _ | .stay | .stall _ | .remote _ _ | .again => true
  | .wait _ | .exit | .trap _ | .stop _ => false

/-- What a meaning gives each active thread of an issue, from the fates of those that are on: zeros or nothing for one
that is masked off (R40). -/
def Ctx.full (c : Ctx) (f : Nat × Nat → Fate) (x : Nat × Nat) : Fate :=
  if c.on.contains x then f x else .masked (if c.w.zeroing then zeroWrites c.op c.w else [])

/-- What the issue comes to for one of its threads: a fate for each active one; nothing for one whose guard is false
(R39). -/
def Ctx.fateOf (c : Ctx) (f : Nat × Nat → Fate) (x : Nat × Nat) : Option Fate :=
  if c.act.contains x then some (f x) else none

/-- A thread of an issue after it: changed by its fate, or one instruction further (R39). -/
def Ctx.after (c : Ctx) (now : Nat) (f : Nat × Nat → Fate) (b : Block) (x : Nat × Nat) : Thread :=
  match c.fateOf f x with
  | some k => (b.th x.2).apply c now k
  | none => (b.th x.2).go c.next

/-- Both reels lowered by a charge, what they lack added to the overdrafts (R88, R348). -/
def BlockRegs.charged (r : BlockRegs) (ci ct : Nat) : BlockRegs :=
  { r with
    ireel := (lower r.ireel r.iover ci).1, iover := (lower r.ireel r.iover ci).2
    treel := (lower r.treel r.tover ct).1, tover := (lower r.treel r.tover ct).2 }

/-- A block without its due point, which a charge may set (R349). -/
def Block.undue (b : Block) : Block := { b with due := none }

/-- The fates of the active threads, by %tid. -/
def Ctx.actFates (c : Ctx) (f : Nat × Nat → Fate) : List (Nat × Fate) := c.act.map fun x => (x.2, f x)

/-- Threads for which the instruction completes, and the bytes they are charged (R88, R164). -/
def Ctx.completed (c : Ctx) (f : Nat × Nat → Fate) : Nat := ((c.actFates f).filter fun k => k.2.completes).length

def Ctx.bytes (c : Ctx) (f : Nat × Nat → Fate) : Nat := ((c.actFates f).map fun k => k.2.bytes).foldl (· + ·) 0

/-- An issue retires from a state in which its meaning has had its own effects, `b` the block there: each
thread of the issue is changed by its fate, the reels are charged, an error ends in a register that the fates write
whole (R415), and NOTHING ELSE changes but due points:
no other thread, no uniform register, no row, tile or scratch byte, no trap register, no byte of memory. -/
structure Retires (s t : State) (c : Ctx) (b : Block) (f : Nat × Nat → Fate) : Prop where
  block : ∃ b', t.block? c.iss.blk = some b' ∧
    (∀ x ∈ c.iss.ths, b'.th x.2 = c.after s.clock.time f b x) ∧
    (∀ n, n ∉ c.iss.ths.map (·.2) → b'.th n = b.th n) ∧
    b'.regs = (if c.iss.handler then b.regs else b.regs.charged (c.completed f * weight c.op c.w) (c.bytes f)) ∧
    { b' with threads := b.threads, handler := b.handler, regs := b.regs, due := b.due } = b
  others : ∀ n, n ≠ c.iss.blk → (t.block? n).map Block.undue = (s.block? n).map Block.undue
  errors : t.health = (s.heal (healed c.iss.blk (c.actFates f))).health
  package : { t with blocks := s.blocks, health := s.health } = s

/-- The fates of the threads that are on, by %tid. -/
def Ctx.onFates (c : Ctx) (f : Nat × Nat → Fate) : List (Nat × Fate) := c.on.map fun x => (x.2, f x)

/-- The state in which a meaning acts: correctable errors of what the issue reads are corrected and counted (R413). -/
def State.ready (s : State) (c : Ctx) : State := s.correctUnits c.b.die c.readsUnit

/-- The state after a meaning's effect: where every fate that it names completes its thread, an error ends in a uniform
register or an exact accumulator that the issue writes whole (R415). -/
def State.wrote (s : State) (c : Ctx) (fs : List (Nat × Fate)) : State :=
  if fs.all fun f => f.2.completes then s.heal c.putsUnit else s

/-- An instruction of a word has its effect: for every issue that nothing stops before the meaning and of which
some thread's guard is true, if `ok` holds of the issue and the state, the instruction ANSWERS A NEXT STATE.
There the state has the effect `eff`, every active thread of the issue the effect of its fate `f`, the reels the
charge, and nothing else has changed; then `conclude` does what a wait, an exit or a trap among the fates
brings about (nothing when all are quiet). The meaning's state is the one in which the issue's outstanding results
have arrived or not (R47). -/
def DoesAll (i : Instr) (op : Nat) (w : CWord) (ok : Ctx → State → Prop) (eff : Ctx → State → State)
    (f : Ctx → State → Nat × Nat → Fate) : Prop :=
  ∀ s iss b, s.cur = some iss → (s.arrive iss op).Runs iss op w b →
    let c := ctxOf iss op w b
    let u := (s.arrive iss op).ready c
    c.act ≠ [] → ok c u →
    ∃ t b1, exec i s = .next (t.conclude c (c.actFates (f c u))) ∧
      (eff c u).block? iss.blk = some b1 ∧
      Retires ((eff c u).wrote c (c.actFates (f c u))) t c b1 (f c u)

/-- An instruction that leaves a masked-off thread to the masking modes of R40. -/
def Does (i : Instr) (op : Nat) (w : CWord) (ok : Ctx → State → Prop) (eff : Ctx → State → State)
    (f : Ctx → State → Nat × Nat → Fate) : Prop :=
  DoesAll i op w ok eff fun c s => c.full (f c s)

/-- The state at a thread's turn, when the threads of an issue act one after another. -/
def turn (xs : List (Nat × Nat)) (g : State → Nat × Nat → State) (s : State) (x : Nat × Nat) : State :=
  (xs.takeWhile (· != x)).foldl g s

/-- The total of unacknowledged writes of an issue's block fits %ackc (R165). -/
def State.acksFit (s : State) (c : Ctx) : Prop := ((s.block? c.iss.blk).map Block.ackc).getD 0 ≤ 65535

/-- A thread's turn: its effect, or, where it is to issue again, what its asking leaves and nothing of its access. -/
def turnOf (g : State → Nat × Nat → State) (f : State → Nat × Nat → Fate) (s : State) (x : Nat × Nat) : State :=
  if f s x = .again then s.unmade (g s x) else g s x

/-- An instruction whose threads act one after another, in an order of them: if `ready` holds of the issue and the writes
that it leaves unacknowledged fit %ackc, each thread at its turn has its effect `g` and its fate `f`. -/
def DoesEach (i : Instr) (op : Nat) (w : CWord) (start : Ctx → State → State × List (Nat × Nat))
    (ready : Ctx → State → Prop) (g : Ctx → State → Nat × Nat → State) (f : Ctx → State → Nat × Nat → Fate) : Prop :=
  let act (c : Ctx) : State → Nat × Nat → State := turnOf (g c) (f c)
  Does i op w
    (fun c s => ready c s ∧ ((start c s).2.foldl (act c) (start c s).1).acksFit c)
    (fun c s => (start c s).2.foldl (act c) (start c s).1)
    fun c s x => f c (turn (start c s).2 (act c) (start c s).1 x) x

/-- A matrix-engine issue begins (R202). -/
def Ctx.enter (c : Ctx) (s : State) : State := s.modBlock c.iss.blk (·.enterEngine c)

/-- The engine's view of an issue: the block as its entry leaves it. -/
def Ctx.entered (c : Ctx) : Ctx := { c with b := c.b.enterEngine c }

/-- It leaves the engine, but for threads that wait in it (R195). -/
def Ctx.leave (c : Ctx) (fs : List (Nat × Fate)) (s : State) : State := s.modBlock c.iss.blk (·.inEngine c fs)

/-- A matrix-engine issue of rows that stands: some of its threads wait for an answer, and none has moved anything. -/
def Ctx.stands (c : Ctx) (fs : List (Nat × Fate)) (t : State) (s : State) : State := c.leave c.holdAll ((c.enter s).stand c.entered t fs)

/-- A matrix-engine instruction whose threads act one after another, those that are masked off among them (R195,
R201). While the engine performs an issue of other threads, or one of the threads waits for an answer, every active
thread issues it again. -/
def DoesRows (i : Instr) (op : Nat) (w : CWord) (g : Ctx → State → Nat × Nat → State)
    (f : Ctx → State → Nat × Nat → Fate) : Prop :=
  let fate (c : Ctx) (s : State) (x : Nat × Nat) : Fate := f c (turn c.act (g c) (c.enter s) x) x
  let all (c : Ctx) (s : State) : State := c.act.foldl (g c) (c.enter s)
  Does i op w
    (fun c s => c.engineBusy = false ∧ (∀ x ∈ c.on, (fate c s x).within = false) ∧ (all c s).acksFit c)
    (fun c s => c.leave (c.onFates (fate c s)) (all c s)) fate ∧
  DoesAll i op w (fun c s => c.engineBusy = false ∧ ∃ x ∈ c.on, (fate c s x).within = true)
    (fun c s => c.stands (c.onFates (fate c s)) (all c s) s) (fun _ _ _ => .again) ∧
  DoesAll i op w (fun c _ => c.engineBusy = true) (fun _ s => s) fun _ _ _ => .again

/-- The threads that are on, in ascending rank, from the state as it is. -/
def Ctx.inOrder (c : Ctx) (s : State) : State × List (Nat × Nat) := (s, c.on)

def Ctx.calm (_ : Ctx) (s : State) (_ : Nat × Nat) : State := s

/-- No condition; no effect beside the threads' own. -/
def Ctx.always (_ : Ctx) (_ : State) : Prop := True

def Ctx.noEffect (_ : Ctx) (s : State) : State := s

/-- The value that an arithmetic instruction gives from uniform sources. -/
def Alu.value : Alu → Nat
  | .val _ x _ => x
  | _ => 0

/-- An arithmetic instruction gives `g`: each thread its own value, predicate or seed; a uniform destination
one value for the plait, by UniformWrite (R39, R83, R123). A thread for which `g` is a trap takes it. -/
def Computes (i : Instr) (op : Nat) (w : CWord) (g : Opnd → Alu) : Prop :=
  Does i op w (fun _ _ => ∀ n, (sig op w).d ≠ .s n)
      Ctx.noEffect (fun c _ x => (g { b := c.b, th := c.b.th x.2 }).fate w.d.toNat) ∧
    Does i op w (fun c _ => (∃ n, (sig op w).d = .s n) ∧ ∃ k v q, g { b := c.b, th := c.b.handler } = .val k v q)
      (fun c s => s.modBlock c.iss.blk (·.uniformWrite c.pc (c.on.map (·.2)) w.d.toNat
        (BitVec.ofNat 64 (g { b := c.b, th := c.b.handler }).value)))
      fun _ _ _ => .done

/-- The rational number that a finite value is (R10); 0 stands for the others. -/
def Fp.toRat : Fp → ℚ
  | .fin neg n d e => (if neg then -1 else 1) * (n / d) * 2 ^ e
  | _ => 0

/-- A finite value, its denominator not 0. -/
def Fp.finite : Fp → Prop
  | .fin _ _ d _ => d ≠ 0
  | _ => False

/-- The largest finite value of a format (R11). -/
def Fmt.top : Fmt → ℚ
  | .f64 => (2 - 2 ^ (-52 : Int)) * 2 ^ 1023
  | .f32 => (2 - 2 ^ (-23 : Int)) * 2 ^ 127
  | .f16 => 65504
  | .bf16 => (2 - 2 ^ (-7 : Int)) * 2 ^ 127
  | .e5m2 => 57344
  | .e4m3 => 448
  | .e3m2 => 28
  | .e2m3 => 15 / 2
  | .e2m1 => 6

/-! ## Accesses -/

def Got.pa? : Got → Option Nat
  | .pa n => some n
  | .no _ => none

/-- The fate of a thread whose access ends so. -/
def Got.fate (g : Got) (f : Nat → Fate) : Fate :=
  match g with
  | .pa n => f n
  | .no k => k

/-- The state after it. -/
def Got.state (g : Got) (s : State) (h : Nat → State) : State :=
  match g with
  | .pa n => h n
  | .no _ => s

/-- The physical address that an access reaches; none when a check of R162 or a walk stops it. -/
def State.placeOf (s : State) (b : Block) (tid : Nat) (va : DWord) (size align : Nat) (k : Kind) (direct : Bool := false) :
    Option Nat :=
  (s.locate b tid va size align k direct).2.pa?

/-- A unit that a read of a range by a core meets (R412): of memory, of an L2 slice, of its L1. -/
def ErrUnit.meets (core pa n : Nat) : ErrUnit → Prop
  | .mem u => u ∈ unitsOf pa n
  | .l2 w => wordIn pa n w = true
  | .l1 k w => k = core ∧ wordIn pa n w = true
  | _ => False

/-- A range of memory of this package that holds no error: a read of it waits for no one and is corrected
nowhere (R397, R413, R414). -/
def State.clean (s : State) (core pa n : Nat) : Prop :=
  s.farOf pa = none ∧ ∀ u ∈ s.health.bad ++ s.health.soft, ¬ u.meets core pa n

/-- A trap handler can start: a vector inside the segment at a lead byte, a frame area aligned to 512 bytes
(R373). -/
def State.canStart (s : State) (b : Block) : Prop :=
  b.trap.tvec ≠ 0#64 ∧ b.trap.tsave.toNat % 512 = 0 ∧ b.inCode b.trap.tvec = true ∧ s.leadByte b b.trap.tvec = true

end Sys2Proof.Machine
end

