-- ==== Sys2Proof/Certificates/Slice0/Obligations.lean ====
section
/-! DEFINITION. The statements for the provers: what the instructions and events of the package do, by the rules of
the manual that each cites. -/

section

open Sys2Proof Sys2Proof.Machine

/-! ### Arithmetic (R119 to R145) -/

/-- R124, R125: the integer instructions give the exact value of their sources, wrapped, or clamped with SAT. -/
def Obligations.IntegerArithmetic : Prop :=
  ∀ w : CWord,
  let a (x : Opnd) : Int := valOf w.ty (x.a w w.ty)
  let b (x : Opnd) : Int := valOf w.ty (x.bb w w.ty)
  let c (x : Opnd) : Int := valOf w.ty (x.c w w.ty)
  let u (x : Opnd) : Int := valOf w.ty (x.un w w.ty)
  let r (sat : Bool) (v : Opnd → Int) : Opnd → Alu := fun x =>
    .val w.ty.regs (wrap w.ty.bits (if sat then max (typeMin w.ty) (min (typeMax w.ty) (v x)) else v x))
  Computes (.iadd w) 0x080 w (r w.sat fun x => a x + b x) ∧
  Computes (.isub w) 0x081 w (r w.sat fun x => a x - b x) ∧
  Computes (.imul w) 0x082 w (r false fun x => a x * b x) ∧
  Computes (.imulhi w) 0x083 w (r false fun x => (a x * b x).fdiv (2 ^ w.ty.bits)) ∧
  Computes (.imad w) 0x084 w (r w.sat fun x => a x * b x + c x) ∧
  Computes (.iabs w) 0x087 w (r w.sat fun x => |u x|) ∧
  Computes (.ineg w) 0x088 w (r w.sat fun x => -u x) ∧
  Computes (.imin w) 0x089 w (r false fun x => min (a x) (b x)) ∧
  Computes (.imax w) 0x08A w (r false fun x => max (a x) (b x)) ∧
  Computes (.iaddsat w) 0x08B w (r true fun x => a x + b x)

/-- R126: with a divisor that is not zero the quotient is rounded towards zero and the remainder takes the sign of
a; the least value divided by −1 gives itself and 0. R126: in a uniform form a divisor of zero gives every active
thread INT_DIV0, and nothing is written. -/
def Obligations.IntegerDivision : Prop :=
  (∀ w : CWord,
  let q (x : Opnd) (rem : Bool) : Alu :=
    let a := valOf w.ty (x.a w w.ty)
    let b := valOf w.ty (x.bb w w.ty)
    if b = 0 then .trap .intDiv0
    else if w.ty.signed = true ∧ a = -(2 ^ (w.ty.bits - 1) : Nat) ∧ b = -1 then
      .val w.ty.regs (if rem then 0 else wrap w.ty.bits a)
    else .val w.ty.regs (wrap w.ty.bits (if rem then a.tmod b else a.tdiv b))
  Computes (.idiv w) 0x085 w (q · false) ∧ Computes (.irem w) 0x086 w (q · true)) ∧
  (∀ w : CWord,
  let ok (op : Nat) (c : Ctx) (_ : State) : Prop :=
    w.uni = true ∧ (∃ n, (sig op w).d = .s n) ∧ valOf w.ty ({ b := c.b, th := c.b.handler : Opnd }.bb w w.ty) = 0
  Does (.idiv w) 0x085 w (ok 0x085) Ctx.noEffect (fun _ _ _ => .trap { cause := .intDiv0 }) ∧
  Does (.irem w) 0x086 w (ok 0x086) Ctx.noEffect (fun _ _ _ => .trap { cause := .intDiv0 }))

/-- R131: POPC counts one bits, CLZ leading and CTZ trailing zeros, W for zero; BREV reverses the bits. -/
def Obligations.BitCounts : Prop :=
  ∀ w : CWord,
  let W := w.ty.bits
  let a (x : Opnd) : Nat := x.a w w.ty
  Computes (.popc w) 0x09A w (fun x => .val w.ty.regs ((List.range W).countP fun i => (a x).testBit i)) ∧
  (∀ g, (∀ x, ∃ n ≤ W, g x = .val w.ty.regs n ∧ a x < 2 ^ (W - n) ∧ (n < W → 2 ^ (W - 1 - n) ≤ a x)) →
    Computes (.clz w) 0x09B w g) ∧
  (∀ g, (∀ x, ∃ n ≤ W, g x = .val w.ty.regs n ∧ 2 ^ n ∣ a x + (if a x = 0 then 2 ^ W else 0) ∧
      (n < W → (a x).testBit n = true)) →
    Computes (.ctz w) 0x09C w g) ∧
  (∀ g, (∀ x, ∃ v < 2 ^ W, g x = .val w.ty.regs v ∧ ∀ i < W, v.testBit i = (a x).testBit (W - 1 - i)) →
    Computes (.brev w) 0x09D w g)

/-- R127, R128: logic on the bits of the type; shifts by a 32-bit count. R127: comparisons write a predicate; ISET
writes W one bits, 1, or a predicate. R129, R130: the bit-field and byte instructions on their descriptors. -/
def Obligations.LogicShiftsAndFields : Prop :=
  (∀ w : CWord,
  let W := w.ty.bits
  let a (x : Opnd) : Nat := x.a w w.ty
  let b (x : Opnd) : Nat := x.bb w w.ty
  let n (x : Opnd) : Nat := x.word w
  let r (v : Opnd → Nat) : Opnd → Alu := fun x => .val w.ty.regs (v x)
  Computes (.and w) 0x08E w (r fun x => a x &&& b x) ∧
  Computes (.or w) 0x08F w (r fun x => a x ||| b x) ∧
  Computes (.xor w) 0x090 w (r fun x => a x ^^^ b x) ∧
  Computes (.not w) 0x091 w (r fun x => 2 ^ W - 1 - a x) ∧
  Computes (.andn w) 0x092 w (r fun x => a x &&& (2 ^ W - 1 - b x)) ∧
  Computes (.shl w) 0x093 w (r fun x => a x * 2 ^ n x % 2 ^ W) ∧
  Computes (.shr w) 0x094 w (r fun x => a x / 2 ^ n x) ∧
  Computes (.sar w) 0x095 w (r fun x => wrap W ((toSigned W (a x)).fdiv (2 ^ n x))) ∧
  Computes (.rotl w) 0x096 w (r fun x => a x * 2 ^ (n x % W) % 2 ^ W + a x / 2 ^ (W - n x % W)) ∧
  Computes (.funnel w) 0x097 w (r fun x => (a x * 2 ^ W + b x) /
    2 ^ ((if w.bsel = 0#2 then w.imm.toNat else if w.bsel = 1#2 then x.cword w else w.mod.toNat) % W) % 2 ^ W)) ∧
  (∀ w : CWord,
  let a (x : Opnd) : Int := valOf w.ty (x.a w w.ty)
  let b (x : Opnd) : Int := valOf w.ty (x.bb w w.ty)
  let holds (x : Opnd) : Prop := match w.modF 0 3 with
    | 0 => a x = b x
    | 1 => a x ≠ b x
    | 2 => a x < b x
    | 3 => a x ≤ b x
    | 4 => a x > b x
    | 5 => a x ≥ b x
    | 6 => x.a w w.ty &&& x.bb w w.ty ≠ 0
    | _ => x.a w w.ty &&& x.bb w w.ty = 0
    (∀ g, (∀ x, ∃ p, g x = .pred p ∧ (p = true ↔ holds x)) → Computes (.icmp w) 0x08C w g) ∧
    (∀ g, (∀ x, ∃ p : Bool, (p = true ↔ holds x) ∧ g x = (match w.modF 3 2 with
        | 0 => .val w.ty.regs (if p then 2 ^ w.ty.bits - 1 else 0)
        | 1 => .val w.ty.regs (if p then 1 else 0)
        | _ => .pred p)) → Computes (.iset w) 0x08D w g)) ∧
  (∀ w : CWord,
  let W := w.ty.bits
  let a (x : Opnd) : Nat := x.a w w.ty
  let p (d : Nat) : Nat := min (d % 256) W
  let l (d : Nat) : Nat := min (d / 256 % 256) (W - p d)
  let dx (x : Opnd) : Nat :=
    let b := x.reg w.uni .b32 w.b.toNat
    if w.bsel = 0#2 then b else if w.bsel = 1#2 then b % 256 + 256 * (x.cword w % 256) else w.imm.toNat
  let di (x : Opnd) : Nat := if w.bsel = 0#2 then w.imm.toNat else if w.bsel = 1#2 then x.cword w else x.reg w.uni .b32 w.e
  (∀ g, (∀ x, ∃ v, g x = .val w.ty.regs v ∧ v < 2 ^ W ∧ ∀ i < W, v.testBit i =
      if i < l (dx x) then (a x).testBit (p (dx x) + i)
      else w.modF 0 1 == 1 && l (dx x) != 0 && (a x).testBit (p (dx x) + l (dx x) - 1)) →
    Computes (.bfx w) 0x098 w g) ∧
  (∀ g, (∀ x, ∃ v, g x = .val w.ty.regs v ∧ v < 2 ^ W ∧ ∀ i < W, v.testBit i =
      if p (di x) ≤ i ∧ i < p (di x) + l (di x) then (x.bb w w.ty).testBit (i - p (di x)) else (a x).testBit i) →
    Computes (.bfi w) 0x099 w g) ∧
  Computes (.prmt w) 0x09E w (fun x =>
    let n := W / 8
    let k := if w.bsel = 1#2 then x.cword w else w.imm.toNat
    let y := if w.bsel = 2#2 then a x else a x + 2 ^ W * x.reg w.uni w.ty w.b.toNat
    let byte (v i : Nat) : Nat := v / 256 ^ i % 256
    if w.modF 0 3 = 1 ∧ k % 4 = 3 ∧ W = 32 then .trap .reservedField
    else .val w.ty.regs (((List.range n).map fun j => 256 ^ j * (match w.modF 0 3 with
      | 0 => byte y (k / 16 ^ j % 16)
      | 1 => byte (a x) (j ^^^ (2 ^ (k % 4) - 1))
      | 2 => byte y (2 * j)
      | 3 => if j % 2 = 0 then byte (a x) (j / 2) else if k % 2 = 1 ∧ 128 ≤ byte (a x) (j / 2) then 255 else 0
      | _ => byte y (k % 16))).sum)))

/-- R132 to R134, R437: selection, moves, addresses and predicate logic. -/
def Obligations.MovesAndAddresses : Prop :=
  ∀ w : CWord,
  Computes (.sel w) 0x09F w (fun x =>
    .val w.ty.regs (if x.th.pred (w.modF 0 3) = (w.modF 3 1 != 1) then x.a w w.ty else x.bb w w.ty)) ∧
  Computes (.mov w) 0x0A0 w (fun x => .val w.ty.regs (if w.uni then
      (x.b.ureg w.a.toNat + if w.ty = .b128 then 2 ^ 64 * x.b.ureg (w.a.toNat + 1) else 0) % 2 ^ w.ty.bits
    else x.th.reg w.a.toNat w.ty.regs)) ∧
  Computes (.movi w) 0x0A1 w (fun _ => .val w.ty.regs (immVal w.ty w.imm % 2 ^ w.ty.bits)) ∧
  Computes (.lea w) 0x0A2 w (fun x =>
    let b := x.reg w.uni .b32 w.b.toNat
    let i : Int := if w.modF 3 1 = 1 then toSigned 32 b else b
    let c : Int := if w.bsel = 1#2 then x.reg w.uni w.ty w.c else w.imm.toInt
    let e : Int := if w.modF 4 1 = 1 then x.b.ureg w.e else 0
    .val w.ty.regs (wrap w.ty.bits (x.a w w.ty + i * 2 ^ w.modF 0 3 + c + e))) ∧
  Computes (.plop w) 0x0A3 w (fun x =>
    let bit (n : Nat) : Nat := (x.th.pred n).toNat
    .pred (w.imm.getLsbD (4 * bit w.a.toNat + 2 * bit w.b.toNat + bit (w.imm.toNat / 256 % 8))))

/-- R136, R141, R143, R144: the float instructions give the exact value of their flushed sources, finished once
(FinishFloat, `Opnd.finish`); packed pairs element by element, element 0 first. R13, R33: sums and products are exact, and
an exact zero sum is signed. R18, R21, R23: a nonzero value is rounded to one of its two neighbours in the format by the
mode, and beyond the largest finite value by the overflow table. R22, R24, R136: FinishFloat of a NaN, an infinity, a
zero, and of a nonzero value, flushed and then saturated. -/
def Obligations.FloatArithmetic : Prop :=
  (∀ w : CWord,
  let f := fmt w.ty
  let v (x : Opnd) (code : Nat) : Fp := readFloat f (ftzOf x.b w f) code
  let a (x : Opnd) : Fp := v x (x.a w w.ty)
  let b (x : Opnd) : Fp := v x (x.bb w w.ty)
  let ai (x : Opnd) (i : Nat) : Nat := x.a w w.ty / 65536 ^ i % 65536
  let bi (x : Opnd) (i : Nat) : Nat := x.bb w w.ty / 65536 ^ i % 65536
  let ci (x : Opnd) (i : Nat) : Nat := x.c w w.ty / 65536 ^ i % 65536
  Computes (.fadd w) 0x100 w (fun x => x.finish w w.ty.regs f fun m => (a x).add (b x) (m == .rd)) ∧
  Computes (.fsub w) 0x101 w (fun x => x.finish w w.ty.regs f fun m => (a x).add (b x).neg (m == .rd)) ∧
  Computes (.fmul w) 0x102 w (fun x => x.finish w w.ty.regs f fun _ => (a x).mul (b x)) ∧
  Computes (.ffma w) 0x103 w (fun x => x.finish w w.ty.regs f fun m =>
    ((a x).mul (b x)).add (v x (x.c w w.ty)) (m == .rd)) ∧
  Computes (.fdiv w) 0x10B w (fun x => x.finish w w.ty.regs f fun _ => (a x).div (b x)) ∧
  Computes (.fscale w) 0x10A w (fun x => x.finish w w.ty.regs f fun _ => (a x).scale (toSigned 32 (x.word w))) ∧
  Computes (.hadd2 w) 0x10F w (fun x => x.pair2 w fun m _ i => (v x (ai x i)).add (v x (bi x i)) (m == .rd)) ∧
  Computes (.hfma2 w) 0x110 w (fun x => x.pair2 w fun m _ i =>
    ((v x (ai x i)).mul (v x (bi x i))).add (v x (ci x i)) (m == .rd)) ∧
  Computes (.dot4 w) 0x111 w (fun x =>
    let e (r i : Nat) : Nat := x.reg false .b32 r / 256 ^ i % 256
    if w.ty = .i8 ∨ w.ty = .n8 ∨ w.ty.signed = true then
      .val 1 (wrap 32 (x.c w .b32 + ((List.range 4).map fun i => valOf w.ty (e w.a.toNat i) * valOf w.ty (e w.b.toNat i)).sum))
    else x.finish w 1 .f32 fun m => sumFp (m == .rd) (readFloat .f32 (ftzOf x.b w .f32) (x.c w .b32) ::
      (List.range 4).map fun i => (f.decode (e w.a.toNat i)).mul (f.decode (e w.b.toNat i))))) ∧
  (∀ (a b : Fp) (rd : Bool), a.finite → b.finite →
  (a.mul b).finite ∧ (a.mul b).toRat = a.toRat * b.toRat ∧
  (a.add b rd).finite ∧ (a.add b rd).toRat = a.toRat + b.toRat ∧
  (a.toRat + b.toRat = 0 → (a.add b rd).sign = (if a.isZero = true ∧ b.isZero = true ∧ a.sign = b.sign then a.sign else rd))) ∧
  (∀ (x : Opnd) (w : CWord) (k : Nat) (f : Fmt) (v : Mode → Fp), modeOf x.b w ≠ .sr →
  x.finish w k f v = .val k (finishFloat f (modeOf x.b w) 0 (ftzOf x.b w f) w.sat (v (modeOf x.b w)))) ∧
  (∀ (f : Fmt) (mode : Mode) (sr : Nat) (neg : Bool) (n d : Nat) (e : Int), n ≠ 0 → d ≠ 0 →
  let x : ℚ := n / d * 2 ^ e
  let out := roundTo f mode sr neg n d e
  ∃ (E : Int) (k y : Nat), f.emin ≤ E ∧ x < 2 ^ (E + 1) ∧ (f.emin < E → 2 ^ E ≤ x) ∧
    let q : ℚ := 2 ^ (E - f.man)
    let r : ℚ := x / q - k
    0 ≤ r ∧ r < 1 ∧
    let up : Prop := match mode with
      | .rn => 1 / 2 < r ∨ (r = 1 / 2 ∧ k % 2 = 1)
      | .rna => 1 / 2 ≤ r
      | .rz => False
      | .ru => 0 < r ∧ neg = false
      | .rd => 0 < r ∧ neg = true
      | .sr => (sr + 1 : ℚ) ≤ r * 65536
    (up → y = k + 1) ∧ (¬ up → y = k) ∧
    (y * q ≤ f.top → ∃ n' e', f.decode out = .fin neg n' 1 e' ∧ (n' : ℚ) * 2 ^ e' = y * q) ∧
    (f.top < y * q → if f.hasInf = true ∧ (mode = .rn ∨ mode = .rna ∨ mode = .sr ∨ mode = (if neg then .rd else .ru))
      then f.decode out = .inf neg
      else ∃ n' e', f.decode out = .fin neg n' 1 e' ∧ (n' : ℚ) * 2 ^ e' = f.top)) ∧
  (∀ (f : Fmt) (mode : Mode) (sr : Nat) (ftz sat : Bool),
  finishFloat f mode sr ftz sat .nan = f.nanCode ∧
  (∀ neg, finishFloat f mode sr ftz sat (.inf neg) = f.signed neg (if f.hasInf = true ∧ sat = false then f.infCode else f.maxCode)) ∧
  (∀ neg d e, finishFloat f mode sr ftz sat (.fin neg 0 d e) = f.signed neg 0) ∧
  (∀ neg n d e, n ≠ 0 → finishFloat f mode sr ftz sat (.fin neg n d e) =
    let r := roundTo f mode sr neg n d e
    if ftz = true ∧ 0 < r % f.signBit ∧ r % f.signBit < 2 ^ f.man then f.signed neg 0
    else if sat = true ∧ f.hasInf = true ∧ r = f.signed neg f.infCode then f.signed neg f.maxCode
    else r))

/-- R137 to R140: choices, conditions, classes and integral values. R138: for sources that are not NaN the six order
conditions are those of the order of values; one NaN makes them false, or true with .u. -/
def Obligations.FloatSelection : Prop :=
  (∀ w : CWord,
  let f := fmt w.ty
  let z (x : Opnd) : Bool := ftzOf x.b w f
  let v (x : Opnd) (code : Nat) : Fp := readFloat f (z x) code
  let a (x : Opnd) : Nat := flushCode f (z x) (x.a w w.ty)
  let b (x : Opnd) : Nat := flushCode f (z x) (x.bb w w.ty)
  let pick (isMax : Bool) (x : Opnd) : Nat :=
    if (f.decode (a x)).isNan ∧ (f.decode (b x)).isNan then f.nanCode
    else if (f.decode (a x)).isNan then b x
    else if (f.decode (b x)).isNan then a x
    else match (f.decode (a x)).cmp (f.decode (b x)) with
      | .lt => if isMax then b x else a x
      | .gt => if isMax then a x else b x
      | .eq => if (f.decode (a x)).sign = isMax then b x else a x
  let cond (x : Opnd) : Bool := condFloat (w.modF 0 3) (w.modF 3 1 == 1) (v x (x.a w w.ty)) (v x (x.bb w w.ty))
  Computes (.fmin w) 0x104 w (fun x => .val w.ty.regs (satCode f w.sat (pick false x))) ∧
  Computes (.fmax w) 0x105 w (fun x => .val w.ty.regs (satCode f w.sat (pick true x))) ∧
  Computes (.fcmp w) 0x106 w (fun x => .pred (cond x)) ∧
  Computes (.fset w) 0x107 w (fun x => .val w.ty.regs
    (if cond x then (if w.modF 4 1 = 1 then f.one else 2 ^ w.ty.bits - 1) else 0)) ∧
  Computes (.fclass w) 0x108 w (fun x => .pred ((x.word w).testBit (classBit f (z x) (x.a w w.ty)))) ∧
  Computes (.frnd w) 0x109 w (fun x =>
    let m := modeOf x.b w
    let (seed, sr) := draw m x.th.seed
    .val w.ty.regs (satCode f w.sat (match v x (x.un w w.ty) with
        | .nan => f.nanCode
        | .inf s => f.signed s f.infCode
        | .fin s n d e =>
          if n = 0 ∨ roundInt m sr s n d e = 0 then f.signed s 0
          else roundTo f .rz 0 s (roundInt m sr s n d e).natAbs 1 0))
      (if m = .sr then some seed else none))) ∧
  (∀ (u : Bool) (a b : Fp),
  (a.isNan = false → b.isNan = false →
    (condFloat 0 u a b = true ↔ a.cmp b = .eq) ∧ (condFloat 1 u a b = true ↔ a.cmp b ≠ .eq) ∧
    (condFloat 2 u a b = true ↔ a.cmp b = .lt) ∧ (condFloat 3 u a b = true ↔ a.cmp b ≠ .gt) ∧
    (condFloat 4 u a b = true ↔ a.cmp b = .gt) ∧ (condFloat 5 u a b = true ↔ a.cmp b ≠ .lt) ∧
    condFloat 6 u a b = true ∧ condFloat 7 u a b = false) ∧
  (a.isNan = true ∨ b.isNan = true →
    (∀ k < 6, condFloat k u a b = u) ∧ condFloat 6 u a b = false ∧ condFloat 7 u a b = true))

/-- R142: conversions by R26: exact pairs consult no mode, the others are finished once; F2I clamps. -/
def Obligations.Conversions : Prop :=
  ∀ w : CWord,
  let src := (Ty.ofCode w.mod).getD .f32
  let v (x : Opnd) : Fp := readFloat (fmt src) (ftzOf x.b w (fmt src)) (x.a w src)
  Computes (.fcvt w) 0x10C w (fun x =>
    if exactCvt (fmt src) (fmt w.ty) then .val w.ty.regs (finishFloat (fmt w.ty) .rn 0 (ftzOf x.b w (fmt w.ty)) w.sat (v x))
    else x.finish w w.ty.regs (fmt w.ty) fun _ => v x) ∧
  Computes (.f2i w) 0x10D w (fun x =>
    let m := modeOf x.b w
    let (seed, sr) := draw m x.th.seed
    let y : Int := match v x with
      | .nan => 0
      | .inf s => if s then typeMin w.ty else typeMax w.ty
      | .fin s n d e => max (typeMin w.ty) (min (typeMax w.ty) (roundInt m sr s n d e))
    .val w.ty.regs (placeInt w.ty y) (if m = .sr then some seed else none)) ∧
  Computes (.i2f w) 0x10E w (fun x => x.finish w w.ty.regs (fmt w.ty) fun _ => Fp.ofInt (valOf src (x.a w src)))

/-- R145: the special functions, rounded in RN whatever the mode, flushed on both sides. R145: the special operands
of its table, in f32 and in f16; RCP of a finite value is its reciprocal rounded once. -/
def Obligations.SpecialFunctions : Prop :=
  (∀ w : CWord,
  let f := fmt w.ty
  let r (g : Fn) : Opnd → Alu := fun x =>
    let z := ftzOf x.b w f
    .val 1 (satCode f w.sat (flushResult f z (specialFn f g (readFloat f z (x.a w w.ty)))))
  Computes (.rcp w) 0x180 w (r .rcp) ∧ Computes (.rsq w) 0x181 w (r .rsq) ∧ Computes (.sqrt w) 0x182 w (r .sqrt) ∧
  Computes (.exp2 w) 0x183 w (r .exp2) ∧ Computes (.log2 w) 0x184 w (r .log2) ∧ Computes (.sin w) 0x185 w (r .sin) ∧
  Computes (.cos w) 0x186 w (r .cos) ∧ Computes (.tanh w) 0x187 w (r .tanh)) ∧
  (∀ f, f = Fmt.f32 ∨ f = Fmt.f16 →
  let at' (g : Fn) (x : Fp) : Nat := specialFn f g x
  let inf (s : Bool) : Nat := f.signed s f.infCode
  let zero (s : Bool) : Nat := f.signed s 0
  (∀ g, at' g .nan = f.nanCode) ∧
  (∀ s d e, at' .rcp (.fin s 0 d e) = inf s ∧ at' .rsq (.fin s 0 d e) = inf s ∧ at' .sqrt (.fin s 0 d e) = zero s ∧
    at' .exp2 (.fin s 0 d e) = f.one ∧ at' .log2 (.fin s 0 d e) = inf true ∧ at' .sin (.fin s 0 d e) = zero s ∧
    at' .cos (.fin s 0 d e) = f.one ∧ at' .tanh (.fin s 0 d e) = zero s) ∧
  (at' .rcp (.inf false) = zero false ∧ at' .rsq (.inf false) = zero false ∧ at' .sqrt (.inf false) = inf false ∧
    at' .exp2 (.inf false) = inf false ∧ at' .log2 (.inf false) = inf false ∧ at' .sin (.inf false) = f.nanCode ∧
    at' .cos (.inf false) = f.nanCode ∧ at' .tanh (.inf false) = f.one) ∧
  (at' .rcp (.inf true) = zero true ∧ at' .rsq (.inf true) = f.nanCode ∧ at' .sqrt (.inf true) = f.nanCode ∧
    at' .exp2 (.inf true) = zero false ∧ at' .log2 (.inf true) = f.nanCode ∧ at' .sin (.inf true) = f.nanCode ∧
    at' .cos (.inf true) = f.nanCode ∧ at' .tanh (.inf true) = f.signed true f.one) ∧
  (∀ n d e, n ≠ 0 → at' .rsq (.fin true n d e) = f.nanCode ∧ at' .sqrt (.fin true n d e) = f.nanCode ∧
    at' .log2 (.fin true n d e) = f.nanCode) ∧
  (∀ s n d e, n ≠ 0 → at' .rcp (.fin s n d e) = roundTo f .rn 0 s d n (-e)))

/-! ### Threads together, exact sums, ensembles (R146 to R157) -/

/-- R146 to R150: the cross-thread instructions on the participants of a thread's segment. R33, R150: a reduction of
integers does not depend on the order of its values, and .add is their sum modulo 2^W; PairSum of four floats adds
the sums of its halves. -/
def Obligations.CrossThread : Prop :=
  (∀ w : CWord,
  let each (i : Instr) (op : Nat) (v : Ctx → Nat × Nat → Alu) : Prop :=
    Does i op w Ctx.always Ctx.noEffect fun c _ x => (v c x).fate w.d.toNat
  let S (c : Ctx) : Nat := max 1 c.b.widthReg
  let a (c : Ctx) (t : Nat) : Nat := (c.b.th t).reg w.a.toNat w.ty.regs % 2 ^ w.ty.bits
  let ps (c : Ctx) (x : Nat × Nat) : List (Nat × Nat) := c.act.filter fun y => y.1 / S c == x.1 / S c
  let mask (c : Ctx) (k : Nat) (xs : List (Nat × Nat)) (m : Nat) : Prop :=
    ∀ q, m.testBit q = true ↔ q < 32 * k ∧ ∃ y ∈ xs, y.1 % S c = q
  each (.shfl w) 0x188 (fun c x =>
    let g := if w.modF 2 3 = 0 then S c else min (S c) (2 ^ w.modF 2 3)
    let q := x.1 % g
    let d := if w.bsel = 2#2 then w.imm.toNat else (c.b.th x.2).reg w.b.toNat 1
    let j := match w.modF 0 2 with
      | 0 => d
      | 1 => (q + d) % g
      | 2 => (g - 1 - q + d) % g
      | _ => q ^^^ d
    let u := if j < g then c.act.find? fun y => y.1 == x.1 - q + j else none
    .val w.ty.regs (match u with
      | some y => a c y.2
      | none => if w.bsel = 1#2 then (c.b.th x.2).reg w.c w.ty.regs % 2 ^ w.ty.bits else a c x.2)) ∧
  (∀ v : Ctx → Nat × Nat → Alu, (∀ c x,
      let n := (ps c x).length
      let yes := (ps c x).filter fun y => (c.b.th y.2).pred w.a.toNat
      match w.modF 0 3 with
      | 0 => v c x = .pred (yes.length == n)
      | 1 => v c x = .pred (yes.length != 0)
      | 2 => v c x = .pred (yes.length == 0 || yes.length == n)
      | 3 => v c x = .pred (decide (n - yes.length < yes.length))
      | 4 => v c x = .val 1 yes.length
      | 5 => v c x = .val 1 (yes.countP fun y => decide (y.1 % S c < x.1 % S c))
      | _ => ∃ m, v c x = .val (2 ^ w.modF 3 2) m ∧ mask c (2 ^ w.modF 3 2) yes m) →
    each (.vote w) 0x189 v) ∧
  (∀ v : Ctx → Nat × Nat → Alu, (∀ c x,
      let same := (ps c x).filter fun y => a c y.2 == a c x.2
      match w.modF 0 2 with
      | 0 => ∃ m, v c x = .val (2 ^ w.modF 3 2) m ∧
          if w.modF 2 1 = 1 ∧ same.length ≠ (ps c x).length then m = 0 else mask c (2 ^ w.modF 3 2) same m
      | 1 => ∃ m, v c x = .val 1 m ∧ (x ∈ ps c x → (∃ y ∈ same, y.1 % S c = m) ∧ ∀ y ∈ same, m ≤ y.1 % S c)
      | _ => v c x = .val 1 same.length) →
    each (.matchx w) 0x18A v) ∧
  each (.red w) 0x18B (fun c x =>
    let k := combineOf c.b w
    .val w.ty.regs (k.reduce ((c.segment x.1).map fun y => k.read (a c y.2)))) ∧
  each (.scan w) 0x18C (fun c x =>
    let k := combineOf c.b w
    let up := (c.segment x.1).filter fun y => if w.modF 3 1 = 1 then decide (y.1 < x.1) else decide (y.1 ≤ x.1)
    .val w.ty.regs (if up = [] then k.ident else k.scan (up.map fun y => k.read (a c y.2))))) ∧
  ((∀ (k : Combine) (xs ys : List Nat), k.ty.isFloat = false → (∀ x ∈ xs, x < 2 ^ k.ty.bits) → xs.Perm ys →
    k.reduce xs = k.reduce ys) ∧
  (∀ (k : Combine) (xs : List Nat), k.ty.isFloat = false → k.op = 0 → (∀ x ∈ xs, x < 2 ^ k.ty.bits) →
    k.reduce xs = xs.sum % 2 ^ k.ty.bits) ∧
  (∀ (k : Combine) (a b c d : Nat), k.ty.isFloat = true → k.op = 0 →
    k.reduce [a, b, c, d] = k.two (k.two (k.one a) (k.one b)) (k.two (k.one c) (k.one d))))

/-- R27 to R31, R152 to R154: the exact accumulators. R30: N and the sticky bits of NaN and of both infinities do
not depend on the order of contributions. -/
def Obligations.ExactSums : Prop :=
  (∀ w : CWord,
  let f := fmt w.ty
  let setX (c : Ctx) (s : State) (g : XAcc → XAcc) : State :=
    s.modBlock c.iss.blk fun b => { b with xs := b.xs.modify w.d.toNat g }
  let src (c : Ctx) (x : Nat × Nat) : Opnd := { b := c.b, th := c.b.th x.2 }
  Does (.xclr w) 0x190 w Ctx.always (fun c s => setX c s fun _ => { n := 0, st := 0 }) (fun _ _ _ => .done) ∧
  Does (.xadd w) 0x191 w Ctx.always (fun c s => setX c s fun acc =>
    (c.on.map fun x => f.decode ((src c x).a w w.ty)).foldl XAcc.add acc) (fun _ _ _ => .done) ∧
  Does (.xfma w) 0x192 w Ctx.always (fun c s => setX c s fun acc =>
    (c.on.map fun x => (f.decode ((src c x).a w w.ty)).mul (f.decode ((src c x).bb w w.ty))).foldl XAcc.add acc)
    (fun _ _ _ => .done) ∧
  Computes (.xrnd w) 0x193 w (fun x =>
    let m := modeOf x.b w
    let (seed, sr) := draw m x.th.seed
    .val w.ty.regs (satCode f w.sat ((x.b.xs.getD w.a.toNat {}).round f m sr)) (if m = .sr then some seed else none)) ∧
  Computes (.xmov w) 0x194 w (fun x =>
    let j := if w.bsel = 2#2 then w.imm.toNat else x.th.reg w.b.toNat 1
    let acc := x.b.xs.getD w.a.toNat {}
    if j < 10 then .val 2 (acc.n.toNat / 2 ^ (64 * j) % 2 ^ 64)
    else if j = 10 then .val 2 acc.st.toNat
    else .trap .reservedField) ∧
  (∀ top : Ctx → Nat, Does (.xmovWrite w) 0x194 w
    (fun c _ => top c ∈ c.on.map (·.2) ∧ (∀ y ∈ c.on, y.2 ≤ top c) ∧
      (w.imm = 10#32 → (c.b.th (top c)).reg w.b.toNat 2 < 16))
    (fun c s => setX c s fun acc => acc.setChunk w.imm.toNat ((c.b.th (top c)).reg w.b.toNat 2))
    (fun _ _ _ => .done) ∧
  Does (.xmovWrite w) 0x194 w
    (fun c _ => top c ∈ c.on.map (·.2) ∧ (∀ y ∈ c.on, y.2 ≤ top c) ∧ w.imm = 10#32 ∧
      16 ≤ (c.b.th (top c)).reg w.b.toNat 2)
    Ctx.noEffect (fun _ _ _ => .trap { cause := .reservedField }))) ∧
  (∀ (acc : XAcc) (xs ys : List Fp), xs.Perm ys →
  (xs.foldl XAcc.add acc).n = (ys.foldl XAcc.add acc).n ∧
  ∀ k < 3, (xs.foldl XAcc.add acc).st.getLsbD k = (ys.foldl XAcc.add acc).st.getLsbD k)

/-- R155 to R157: the direction at a node and the four instructions that use it. -/
def Obligations.Ensembles : Prop :=
  ∀ w : CWord,
  let f := fmt w.ty
  let right (x t : Nat) (miss : Bool) : Bool :=
    if (f.decode (x % 2 ^ f.width)).isNan then miss
    else !((f.decode (t % 2 ^ f.width)).isNan == false && (f.decode (x % 2 ^ f.width)).cmp (f.decode (t % 2 ^ f.width)) == .lt)
  let a (x : Opnd) : Nat := x.a w w.ty
  let node (x : Opnd) (n : Nat) : BitVec 64 := BitVec.ofNat 64 (x.th.reg n 2)
  let c (x : Opnd) : Nat := if w.bsel = 1#2 then x.th.reg w.c 1 else w.imm.toNat
  let val (n : BitVec 64) : Nat := n.toNat % 2 ^ 32
  Computes (.binq w) 0x198 w (fun x =>
    let start := c x % 4096
    let count := c x / 4096 % 256
    let per := w.ty.bits / 8
    if 4096 < (start + count) * per then .trap .regIndex
    else if (f.decode (a x)).isNan then .val 1 0xFFFFFFFF
    else .val 1 ((List.range count).countP fun i =>
      right (a x) (x.b.tiles.val (4096 * w.b.toNat + (start + i) * per) per) false)) ∧
  Computes (.tcmp w) 0x19A w (fun x =>
    let n := node x w.b.toNat
    .val 1 ((2 * c x + (right (a x) (val n) (n.getLsbD 48)).toNat) % 2 ^ 32)) ∧
  Computes (.cross w) 0x199 w (fun x =>
    let n := node x w.b.toNat
    let i := x.th.reg w.a.toNat 1
    .val 1 (if n.getLsbD 49 then i
      else (i + (n.extractLsb' 50 14).toNat + (right (c x % 2 ^ w.ty.bits) (val n) (n.getLsbD 48)).toNat) % 2 ^ 32)) ∧
  Computes (.leaf w) 0x19B w (fun x =>
    let n := node x w.a.toNat
    let v (y : Nat) : Fp := readFloat f (ftzOf x.b w f) (y % 2 ^ w.ty.bits)
    let score := x.th.reg w.b.toNat 1
    if n.getLsbD 49 then x.finish w 1 f fun m => (v score).add ((v (val n)).mul (v (c x))) (m == .rd)
    else .val 1 score)

/-! ### Control (R39, R67, R93 to R118) -/

/-- R39: an issue in which no guard is true changes nothing but the PC of its threads, whatever the instruction (a
TSPAWN for a block whose child does not run inline). R38, R81: an issue of which a static operand lies outside the
allocation gives every thread whose guard is true REG_INDEX, masked off or not, whatever the instruction; the others
go on. -/
def Obligations.IssuesWithoutEffect : Prop :=
  (∀ i op w, i.opWord = some (op, w) →
  ∀ s iss b, (op = 0x288 → b.inline = none) → s.cur = some iss → (s.arrive iss op).Runs iss op w b → (ctxOf iss op w b).act = [] →
    ∃ t, exec i s = .next t ∧ Retires (s.arrive iss op) t (ctxOf iss op w b) b fun _ => .done) ∧
  (∀ i op w, i.opWord = some (op, w) →
  ∀ s iss b, (op = 0x288 → b.inline = none) → s.cur = some iss → (s.arrive iss op).block? iss.blk = some b →
    (iss.ths.map (·.2)).Nodup → (∀ x ∈ iss.ths, b.has x.2) →
    (clauseEnding op w = true → ∀ x ∈ iss.ths, (b.th x.2).inClause ≤ 1) → (iss.handler && handlerForbids op w) = false →
    (ctxOf iss op w b).flagFull = false → staticOk b.cfg iss.handler op w = false →
    let c := { ctxOf iss op w b with on := (ctxOf iss op w b).act }
    ∃ t, exec i s = .next (t.conclude c (c.onFates fun _ => .trap { cause := .regIndex })) ∧
      Retires (s.arrive iss op) t c b fun _ => .trap { cause := .regIndex })

/-- R93 to R95: a transfer to a lead byte inside the segment takes the thread there; CALL and CALLX write the link
offset to v0. Out of the segment it traps with ACCESS_VIOLATION, at no lead byte with ILLEGAL_OP, each with the
target as its address. UBRA transfers by its uniform source, once for the plait. A thread whose target's line needs
a walk stands at the transfer until that is answered. -/
def Obligations.Transfers : Prop :=
  ∀ w : CWord,
  let disp (c : Ctx) (_ : Nat) : DWord := c.pc + w.imm.signExtend 64
  let off (n : Nat) (c : Ctx) (t : Nat) : DWord :=
    BitVec.ofNat 64 c.b.cfg.code + ((c.b.th t).v.getD n 0#32).setWidth 64
  let link (c : Ctx) : List Wr := [.v 0 ((c.next - BitVec.ofNat 64 c.b.cfg.code).setWidth 32)]
  let goes (target : Ctx → Nat → DWord) (ws : Ctx → List Wr) (c : Ctx) (s : State) (x : Nat × Nat) : Fate :=
    let a := target c x.2
    if a.toNat < c.b.cfg.code ∨ c.b.cfg.bound ≤ a.toNat then .trap { cause := .accessViolation, addr := a }
    else if s.leadByte c.b a then .goto a (ws c) else .trap { cause := .illegalOp, addr := a }
  let inside (target : Ctx → Nat → DWord) (c : Ctx) (t : Nat) : Prop :=
    c.b.cfg.code ≤ (target c t).toNat ∧ (target c t).toNat < c.b.cfg.bound
  let near (target : Ctx → Nat → DWord) (c : Ctx) (s : State) : Prop :=
    ∀ x ∈ c.on, inside target c x.2 → s.lineWalk c x.2 (target c x.2) = none
  let moves (i : Instr) (op : Nat) (taken : Ctx → Bool) (target : Ctx → Nat → DWord) (ws : Ctx → List Wr) : Prop :=
    Does i op w (fun c s => taken c = true ∧ near target c s) Ctx.noEffect (goes target ws) ∧
    ∀ line : Ctx → State → DWord, Does i op w
      (fun c s => taken c = true ∧ ∃ x, c.on = [x] ∧ inside target c x.2 ∧ s.lineWalk c x.2 (target c x.2) = some (line c s))
      (fun c s => (s.startWalk c.b.die c.b.cfg.envelope (line c s) .fetch).1)
      (fun c s _ => .stall (s.startWalk c.b.die c.b.cfg.envelope (line c s) .fetch).2)
  let all (_ : Ctx) : Bool := true
  let taken (c : Ctx) : Bool := decide (c.b.ureg w.a.toNat = 0 ↔ w.modF 0 1 = 1)
  moves (.bra w) 0x002 all disp (fun _ => []) ∧ moves (.brx w) 0x003 all (off w.a.toNat) (fun _ => []) ∧
  moves (.call w) 0x004 all disp link ∧ moves (.callx w) 0x005 all (off w.a.toNat) link ∧
  moves (.ret w) 0x006 all (off 0) (fun _ => []) ∧ moves (.ubra w) 0x007 taken disp (fun _ => []) ∧
  Does (.ubra w) 0x007 w (fun c _ => taken c = false) Ctx.noEffect (fun _ _ _ => .done)

/-- R67, R96, R98, R104, R106: the instructions that only change their threads' own bookkeeping. A CLAUSE holds its
plait while a flag that it waits on is not clear. -/
def Obligations.Bookkeeping : Prop :=
  ∀ w : CWord,
  let each (f : Thread → Thread) (c : Ctx) (s : State) : State := c.on.foldl (fun s x => s.modTh c.iss.blk x.2 f) s
  let mask (k : Nat) : Bool := w.imm.getLsbD (20 + k)
  let arrived : Ctx → State → State := each (Thread.deliverIf fun o => o.flag.any mask)
  let held (c : Ctx) (s : State) : Prop :=
    ∃ b, (arrived c s).block? c.iss.blk = some b ∧ ∃ x ∈ c.on, ∃ k < 12, mask k = true ∧ (b.th x.2).pend k ≠ 0
  Does (.nop w) 0x000 w Ctx.always Ctx.noEffect (fun _ _ _ => .done) ∧
  Does (.clause w) 0x001 w (fun c s => ¬ held c s) arrived (fun _ _ _ => .header w.d.toNat
    (if w.imm.getLsbD 15 then some (w.imm.extractLsb' 16 4).toNat else none,
     if w.imm.getLsbD 10 then some (w.imm.extractLsb' 11 4).toNat else none)) ∧
  Does (.clause w) 0x001 w held arrived (fun _ _ _ => .stay) ∧
  Does (.arm w) 0x008 w Ctx.always (each fun th => { th with armed := th.armed ||| (1#32 <<< w.imm.toNat) }) (fun _ _ _ => .done) ∧
  Does (.trigger w) 0x00D w Ctx.always (fun c s => (each (fun th => { th with triggered := true }) c s).noteTrigger c.iss.blk)
    (fun _ _ _ => .done) ∧
  Does (.yield w) 0x00F w Ctx.always (fun c s => s.modBlock c.iss.blk fun b =>
    (c.on.foldl (fun b x => b.modTh x.2 fun th => { th with order := 1 }) b).endPlait c.iss.plait) (fun _ _ _ => .done) ∧
  Does (.land w) 0x00E w (fun c _ => c.b.due = none) Ctx.noEffect (fun _ _ _ => .done) ∧
  Does (.land w) 0x00E w (fun c _ => c.b.due ≠ none) (each (Thread.deliverIf fun _ => true))
    (fun c _ _ => .landed (.landed (BitVec.ofNat 64 c.b.cfg.code + w.imm.signExtend 64) false))

/-- R99, R101, R103, R108, R191: the instructions at which threads wait, and EXIT; a PIN whose thread is not armed,
a SLEEP whose target has come, go on at once. R109, R380: TRAP and BKPT take their traps with the immediate as the
address; under an attached debugger a BKPT stops the block where it stands, one of the handler at its level, and the
debugger is told. R99 to R102, R191: a pin is released when every thread armed for it waits there, WIDTH when every
live thread does, BSYNC when as many wait as the count asks: the threads released are ready behind their
instruction, charged for it, armed no more; a width that R102 grants becomes the block's, with no plait left. -/
def Obligations.WaitsAndExit : Prop :=
  (∀ w : CWord,
  let pin (align : Bool) : Ctx → State → Nat × Nat → Fate := fun c _ x =>
    if (c.b.th x.2).armed.getLsbD w.imm.toNat then .wait (.pin w.imm.toNat align) else .done
  let sleep (now target : Nat) : Fate := if target ≤ now then .done else .wait (.sleep target)
  let q (c : Ctx) : Nat := if w.bsel = 2#2 then w.imm.toNat else c.b.ureg w.b.toNat % 2 ^ 32
  let legal (n : Nat) : Prop := n = 0 ∨ n = 4 ∨ n = 8 ∨ n = 16 ∨ n = 32 ∨ n = 64 ∨ n = 128
  Does (.pin w) 0x009 w Ctx.always Ctx.noEffect (pin false) ∧
  Does (.pinAlign w) 0x00A w Ctx.always Ctx.noEffect (pin true) ∧
  Does (.width w) 0x00B w (fun c _ => legal (q c)) Ctx.noEffect (fun c _ _ => .wait (.width (q c))) ∧
  Does (.width w) 0x00B w (fun c _ => ¬ legal (q c)) Ctx.noEffect (fun _ _ _ => .trap { cause := .reservedField }) ∧
  Does (.bsync w) 0x28C w Ctx.always Ctx.noEffect
    (fun _ _ _ => .wait (.bsync (if w.bsel = 2#2 then some w.imm.toNat else none))) ∧
  Does (.exit w) 0x00C w Ctx.always Ctx.noEffect (fun _ _ _ => .exit) ∧
  Does (.sleep w) 0x011 w Ctx.always Ctx.noEffect (fun c s x => sleep s.clock.time
    (s.clock.time + if w.bsel = 2#2 then w.imm.toNat else ((c.b.th x.2).v.getD w.b.toNat 0#32).toNat)) ∧
  Does (.sleepuntil w) 0x012 w Ctx.always Ctx.noEffect (fun c s x =>
    if w.bsel = 2#2 then
      if w.imm = 0 then .done
      else sleep s.clock.time ((s.clock.time + w.imm.toNat - 1) / w.imm.toNat * w.imm.toNat)
    else sleep s.clock.time ((c.b.th x.2).reg w.b.toNat 2))) ∧
  (∀ w : CWord,
  let attached (h : Bool) (c : Ctx) (s : State) : Prop := (s.env c.b.cfg.envelope).debug = true ∧ c.iss.handler = h
  let on (c : Ctx) : List Nat := c.on.map (·.2)
  let told (c : Ctx) (s : State) (f : Block → Block) : State :=
    { s.modBlock c.iss.blk f with outputs := s.outputs ++ [.bkpt c.b.task c.b.bid (on c) w.imm] }
  Does (.trap w) 0x013 w Ctx.always Ctx.noEffect (fun _ _ _ => .trap { cause := .swTrap, addr := w.imm.setWidth 64 }) ∧
  Does (.bkpt w) 0x018 w (fun c s => (s.env c.b.cfg.envelope).debug = false) Ctx.noEffect
    (fun _ _ _ => .trap { cause := .bkpt, addr := w.imm.setWidth 64 }) ∧
  Does (.bkpt w) 0x018 w (attached false) (fun c s => told c s fun b =>
    { b.stop (on c) with trap := { (b.stop (on c)).trap with debug := true, stopSet := on c } }) (fun _ _ _ => .stay) ∧
  Does (.bkpt w) 0x018 w (attached true) (fun c s => told c s fun b =>
    { b with trap := { b.trap with debug := true, debugH := true } }) (fun _ _ _ => .stay)) ∧
  (∀ (s : State) (blk : Nat) (b : Block), s.block? blk = some b → b.threads.length ≤ b.cfg.bsize →
  let all := (List.range b.threads.length).filter fun t => (b.th t).st != .exited
  let free (u : State) (ts : List Nat) (op : Nat) (haz : Bool) (armed : Word → Word) (group : Nat → Option Nat) (b' : Block) : Prop :=
    u.block? blk = some b' ∧ u.mem = s.mem ∧ b'.epoch = b.epoch + 1 ∧ b'.uregs = b.uregs ∧
    b'.regs = ({ b.regs with ustat := if haz then b.regs.ustat ||| 1#32 else b.regs.ustat } : BlockRegs).charged
      (ts.length * weightOf op) 0 ∧
    (∀ t ∈ ts, (b'.th t).st = .ready ∧ (b'.th t).wait = none ∧ (b'.th t).v = (b.th t).v ∧ (b'.th t).group = group t ∧
      (b'.th t).armed = armed (b.th t).armed ∧ (b'.th t).pc = (b.th t).pc + BitVec.ofNat 64 (s.waitLen b t)) ∧
    (∀ t < b.threads.length, t ∉ ts → (b'.th t).st = (b.th t).st ∧ (b'.th t).wait = (b.th t).wait ∧
      (b'.th t).v = (b.th t).v ∧ (b'.th t).armed = (b.th t).armed ∧ (b'.th t).pc = (b.th t).pc)
  (∀ n,
    let at' := (List.range b.threads.length).filter fun t =>
      (b.th t).wait == some (.pin n true) || (b.th t).wait == some (.pin n false)
    let armed := all.filter fun t => (b.th t).armed.getLsbD n
    (at' = [] ∨ at'.length ≠ armed.length → s.releasePin blk n = s) ∧
    (at' ≠ [] → at'.length = armed.length → ∃ b', b'.place = b.place ∧
      free (s.releasePin blk n) at' 0x009 false (fun m => m &&& ~~~(1#32 <<< n))
        (fun t => if (b.th t).wait = some (.pin n true) then some (b.alignedGroup t) else none) b')) ∧
  (∀ (q : Nat → Nat) (top : Nat), top ∈ all → (∀ t ∈ all, t ≤ top ∧ (b.th t).wait = some (.width (q t))) →
    (∀ g c, grantOf b.cfg b.place.dflt (q top) = some (g, c) → ∃ b', b'.plaits = [] ∧
      b'.place = { b.place with grant := g, confined := c, request := q top } ∧
      free (s.completeWidth blk) all 0x00B (all.any fun t => q t != q top) id (fun _ => none) b') ∧
    (grantOf b.cfg b.place.dflt (q top) = none → ∃ (v : State) (b2 : Block),
      s.completeWidth blk = v.trapThreads blk (all.map fun t => (t, { cause := .reservedField })) ∧ v.mem = s.mem ∧
      v.block? blk = some b2 ∧ b2.place = b.place ∧ ∀ t ∈ all, (b2.th t).st = .ready ∧ (b2.th t).pc = (b.th t).pc)) ∧
  ((∃ t ∈ all, ∀ r, (b.th t).wait ≠ some (.width r)) → s.completeWidth blk = s) ∧
  (∀ (q : Nat → Option Nat) (ws : List Nat) (top : Nat), ws = all.filter (fun t => (b.th t).wait matches some (.bsync _)) →
    top ∈ ws → (∀ t ∈ ws, t ≤ top ∧ (b.th t).wait = some (.bsync (q t))) →
    let target := ((q top).map fun k => min k all.length).getD all.length
    (ws.length < target → s.completeBsync blk = s) ∧
    (target ≤ ws.length → ∃ b', b'.place = b.place ∧
      free (s.completeBsync blk) ws 0x28C (ws.any fun t => q t != q top) id (fun _ => none) b'))) ∧
  (∀ (cfg : LaunchRec) (dflt : Nat), grantOf cfg dflt 0 = some (dflt, false) ∧
  (∀ r, r = 8 ∨ r = 16 ∨ r = 32 ∨ r = 64 → grantOf cfg dflt r = some (r, false)) ∧
  grantOf cfg dflt 4 = (if cfg.flag 6 then some (8, true) else if cfg.flag 4 then none else some (8, false)) ∧
  grantOf cfg dflt 128 = (if cfg.flag 5 then some (128, false) else if cfg.flag 4 then none else some (64, false)))

/-! ### Traps and the handler (R107 to R117, R368 to R378) -/

/-- R107: a PAYOUT by a handler or in a supervisor launch, of no more than the pool holds, is charged and then moves
its amount; without the right, or beyond the pool, it traps and moves nothing. R107, R348: what a payout moves
leaves the pool and enters the reel, which stops at 2^64 − 1; the other reel and the other pool stay. R118: beside a
second issue of the block in its cycle the amount leaves the pool at once, and enters the reel once that issue's charge
has applied. -/
def Obligations.Payouts : Prop :=
  (∀ w : CWord,
  let t := w.modF 0 1 == 1
  let x (c : Ctx) : Nat := if w.bsel = 2#2 then w.imm.toNat else c.b.ureg w.b.toNat
  let may (c : Ctx) : Prop := c.privileged = true ∨ c.b.cfg.super = true
  let charged (c : Ctx) (s : State) : State :=
    if c.iss.handler then s else s.charge c.iss.blk (c.on.length * weightOf 0x010) 0
  let pool (c : Ctx) (s : State) : Nat := (s.env c.b.cfg.envelope).pool t
  let beside (c : Ctx) (s : State) : Prop := ∃ m, s.mate = some m ∧ m.blk = c.iss.blk
  Does (.payout w) 0x010 w (fun c s => may c ∧ x c ≤ pool c s ∧ ¬ beside c s)
    (fun c s => (charged c s).payout c.iss.blk t (x c)) (fun _ _ _ => .paid) ∧
  Does (.payout w) 0x010 w (fun c s => may c ∧ x c ≤ pool c s ∧ beside c s)
    (fun c s => { (charged c s).modEnv c.b.cfg.envelope (fun e => e.setPool t (e.pool t - x c)) with
      pays := s.pays ++ [(c.iss.blk, t, x c)] }) (fun _ _ _ => .paid) ∧
  Does (.payout w) 0x010 w (fun c _ => ¬ may c) Ctx.noEffect (fun _ _ _ => .trap { cause := .accessViolation }) ∧
  Does (.payout w) 0x010 w (fun c s => may c ∧ pool c s < x c) Ctx.noEffect (fun _ _ _ => .trap { cause := .envelopeQuota })) ∧
  (∀ (s : State) (blk : Nat) (b : Block) (t : Bool) (x : Nat),
  s.block? blk = some b → x ≤ (s.env b.cfg.envelope).pool t →
  ∃ b', (s.payout blk t x).block? blk = some b' ∧
    (b'.reel t).toNat = min ((b.reel t).toNat + x) (2 ^ 64 - 1) ∧ b'.reel (!t) = b.reel (!t) ∧
    ((s.payout blk t x).env b.cfg.envelope).pool t + (b'.reel t).toNat =
      (s.env b.cfg.envelope).pool t + (b.reel t).toNat ∧
    ((s.payout blk t x).env b.cfg.envelope).pool (!t) = (s.env b.cfg.envelope).pool (!t)) ∧
  (∀ (s : State) (blk : Nat) (b : Block) (t : Bool) (x : Nat), s.block? blk = some b → s.pays = [(blk, t, x)] →
  ∃ b', s.payAll.block? blk = some b' ∧ s.payAll.pays = [] ∧
    (b'.reel t).toNat = min ((b.reel t).toNat + x) (2 ^ 64 - 1) ∧ b'.reel (!t) = b.reel (!t) ∧
    (s.payAll.env b.cfg.envelope).pool t + (b'.reel t).toNat = (s.env b.cfg.envelope).pool t + x + (b.reel t).toNat)

/-- R368, R371, R373: threads of one cause stop their block: level 1, the cause with the number of threads, the PC
and the number of the lowest, the address; the handler stands at %tvec. R220, R368: of two issues of one cycle the
first only marks its threads and holds its cause, and the other is made. R376: a trap of the handler at level 1
enters level 2 with the second bank, its HELD set while causes are held (R371), and leaves the first; one at level 2
kills the context with TRAP_OVERFLOW. -/
def Obligations.TrapEntry : Prop :=
  (∀ (s : State) (blk : Nat) (b : Block) (info : TrapInfo) (t0 : Nat) (ts : List Nat),
  s.block? blk = some b → (t0 :: ts).Pairwise (· < ·) → (∀ t ∈ t0 :: ts, t < b.threads.length ∧ t ≠ b.cfg.bsize) →
  b.trap.stopped = false → b.trap.held = [] → s.coIssued blk = false → s.canStart b →
  ∃ b', (s.trapThreads blk ((t0 :: ts).map fun t => (t, info))).block? blk = some b' ∧
    b'.trap.level = 1 ∧ b'.trap.stopped = true ∧ b'.trap.stopSet = t0 :: ts ∧ b'.trap.held = [] ∧
    b'.trap.bank0 = { cause := BitVec.ofNat 32 (causeCode info.cause + 256 * (ts.length + 1) + 2 ^ 21 * (info.xlev % 4) +
                        (if info.write then 2 ^ 23 else 0))
                      pc := (b.th t0).pc, addr := info.addr, thr := BitVec.ofNat 32 t0 } ∧
    b'.trap.bank1 = b.trap.bank1 ∧ b'.trap.tvec = b.trap.tvec ∧ b'.trap.tsave = b.trap.tsave ∧
    b'.handler.pc = b.trap.tvec ∧ b'.handler.st = .ready ∧ b'.handler.v = b.handler.v ∧
    (∀ t ∈ t0 :: ts, (b'.th t).st = .trapped ∧ (b'.th t).pc = (b.th t).pc ∧ (b'.th t).v = (b.th t).v) ∧
    b'.plaits = [] ∧ b'.regs = b.regs ∧ b'.uregs = b.uregs) ∧
  (∀ (s : State) (blk : Nat) (b : Block) (info : TrapInfo) (t : Nat),
  s.block? blk = some b → t < b.threads.length → t ≠ b.cfg.bsize → b.trap.stopped = false → s.coIssued blk = true →
  ∃ b', (s.trapThreads blk [(t, info)]).block? blk = some b' ∧ (b'.th t).st = .trapped ∧
    b'.trap = { b.trap with held := b.trap.held ++ [{ info, tids := [t], thr := t, pc := (b.th t).pc }] } ∧
    b'.plaits = b.plaits ∧ b'.regs = b.regs ∧ ∀ n, n ≠ t → b'.th n = b.th n) ∧
  (∀ (s : State) (blk : Nat) (b : Block) (info : TrapInfo), s.block? blk = some b →
  (b.trap.level ≤ 1 → s.canStart b → ∃ b', (s.handlerTrap blk info).block? blk = some b' ∧
    b'.trap.level = 2 ∧ b'.trap.bank0 = b.trap.bank0 ∧ b'.trap.stopSet = b.trap.stopSet ∧
    b'.trap.bank1 = { cause := BitVec.ofNat 32 (causeCode info.cause + 256 + (if b.trap.held = [] then 0 else 2 ^ 20) +
                        2 ^ 21 * (info.xlev % 4) + (if info.write then 2 ^ 23 else 0))
                      pc := b.handler.pc, addr := info.addr, thr := BitVec.ofNat 32 b.cfg.bsize } ∧
    b'.handler.pc = b.trap.tvec ∧ b'.handler.v = b.handler.v) ∧
  (2 ≤ b.trap.level → s.handlerTrap blk info =
    s.killContext b (causeCode .trapOverflow) info.addr (b.handler.pc - b.codeBase).toNat (causeCode info.cause)))

/-- R378, R347: a killed context has ended: every block of its launch has ended and left its core, its copies are
dropped, and the launch holds the cause. -/
def Obligations.ContextKill : Prop :=
  ∀ (s : State) (b : Block) (cause : Nat) (addr : DWord) (off third : Nat) (t : Task),
  s.task? b.task = some t → t.ending = none →
  let u := s.killContext b cause addr off third
  (∃ t', u.task? b.task = some t' ∧ t'.ending = some (.context cause)) ∧
  (∀ x ∈ u.blocks, x.task = b.task → x.ended = true ∧ x.place.resident = false ∧ x.plaits = []) ∧
  (∀ k ∈ u.eng.copies, k.task ≠ b.task) ∧ u.clock = s.clock

/-- R110, R377: TRET of level 2 goes back to the handler's own instruction at level 1; TRET of level 1 ends the
stop; outside trap mode it traps. R377: at the end of level 1 with no cause held the block runs again: a trapped
thread of the stop set is ready at its instruction, or with .skip behind it unless the handler wrote its PC; the
watchdog restarts after its own trap. R370: at the end of the segment a skip acts as TRET. -/
def Obligations.TrapReturn : Prop :=
  (∀ w : CWord,
  let skip := w.modF 0 1 == 1
  Does (.tret w) 0x014 w (fun c _ => c.privileged = true ∧ c.b.trap.level = 2)
    (fun c s => s.modBlock c.iss.blk fun b => { b with trap := { b.trap with level := 1 } })
    (fun c s _ => .goto (c.b.trap.bank1.pc + if skip then BitVec.ofNat 64 (s.skipLen c.b c.b.trap.bank1.pc) else 0#64)) ∧
  Does (.tret w) 0x014 w (fun c _ => c.privileged = true ∧ c.b.trap.level ≠ 2)
    (fun c s => (match c.b.trap.copy with
      | some id => s.copyResume id skip
      | none => s).tret1 c.iss.blk skip) (fun _ _ _ => .stay) ∧
  Does (.tret w) 0x014 w (fun c _ => c.privileged = false) Ctx.noEffect (fun _ _ _ => .trap { cause := .accessViolation })) ∧
  (∀ (s : State) (blk : Nat) (b : Block) (skip : Bool),
  s.block? blk = some b → b.trap.held = [] → b.trap.stopSet.Nodup →
  (∀ t ∈ b.trap.stopSet, t < b.threads.length ∧ t ≠ b.cfg.bsize ∧ (b.th t).st = .trapped) →
  ∃ b', (s.tret1 blk skip).block? blk = some b' ∧ b'.trap.level = 0 ∧ b'.trap.stopped = false ∧
    b'.trap.stopSet = [] ∧ b'.wdrun = (if b.trap.wdstop then 0 else b.wdrun) ∧ b'.regs = b.regs ∧ b'.uregs = b.uregs ∧
    (∀ t ∈ b.trap.stopSet, (b'.th t).st = .ready ∧ (b'.th t).v = (b.th t).v ∧
      (b'.th t).pc = (b.th t).pc +
        (if skip ∧ (b.th t).written = false then BitVec.ofNat 64 (s.skipLen b (b.th t).pc) else 0#64)) ∧
    b'.handler = b.handler ∧
    ∀ t, t ≠ b.cfg.bsize → t ∉ b.trap.stopSet → b'.th t = { b.th t with written := false }) ∧
  (∀ (s : State) (b : Block) (pc : DWord), (b.inCode pc = false → s.skipLen b pc = 0) ∧
  ∀ bytes e, b.inCode pc = true → s.codeLine b (pc.toNat / 64 * 64) = some bytes → entryAt bytes (pc.toNat % 64) = some e →
    s.skipLen b pc = (match e with
      | .bad .runOffEnd _ _ => 0
      | e => e.len))

/-- R111, R414: TREAD and TWRITE in trap mode through a selector, on a thread and a register of the block; a TREAD of
a register that holds an uncorrectable error traps, with its event. R111, R25, R69: what each selector reads, which
values a write takes, and what it changes of its thread; every other thread of the block stays as it is. -/
def Obligations.ThreadAccess : Prop :=
  (∀ w : CWord,
  let kind := w.imm.toNat / 2 ^ 24
  let num := w.imm.toNat % 256
  let wide := w.ty == .b64
  let n := if wide then 2 else 1
  let target (c : Ctx) (x : Nat × Nat) : Nat := ((c.b.th x.2).v.getD w.a.toNat 0#32).toNat
  let legal (c : Ctx) (x : Nat × Nat) : Bool :=
    decide (target c x < c.b.cfg.bsize) && (kind != 0 || decide (num + n ≤ c.b.cfg.vAlloc))
  let value (c : Ctx) (x : Nat × Nat) : Nat := (c.b.th x.2).reg w.b.toNat w.ty.regs
  let arrived (c : Ctx) (s : State) : State :=
    c.on.foldl (fun s x => if target c x < c.b.cfg.bsize then
      s.modTh c.iss.blk (target c x) (Thread.deliverIf fun _ => true) else s) s
  let bad (c : Ctx) (s : State) (x : Nat × Nat) : Bool :=
    legal c x && kind == 0 && (List.range n).any fun k => (arrived c s).health.bad.contains (.reg c.iss.blk (target c x) (num + k))
  let one (c : Ctx) (p : Nat × Nat → Prop) : Prop := ∃ x, c.on = [x] ∧ p x
  Does (.tread w) 0x015 w (fun c _ => c.privileged = true)
    (fun c s => if c.on.any (bad c s) then (arrived c s).coreError c.b 2 0 else arrived c s)
    (fun c s x => if legal c x = false then .trap { cause := .regIndex }
      else if bad c s x then .trap { cause := .uncorrectedData }
      else .done (((arrived c s).block? c.iss.blk).elim [] fun b =>
        wrV w.d.toNat w.ty.regs (readSelector b (b.th (target c x)) kind num wide))) ∧
  Does (.twrite w) 0x016 w (fun c _ => c.privileged = true ∧ one c fun x => legal c x = true ∧
      (c.b.th (target c x)).st ≠ .exited ∧ writeFault c.b (c.b.th (target c x)) kind (value c x) = none)
    (fun c s => c.on.foldl (fun s x => s.writeSelector c.iss.blk (target c x) kind num wide (value c x)) s)
    (fun _ _ _ => .done) ∧
  Does (.twrite w) 0x016 w (fun c _ => c.privileged = true ∧ one c fun x => legal c x = true ∧
      (c.b.th (target c x)).st = .exited) Ctx.noEffect (fun _ _ _ => .done) ∧
  (∀ k a, Does (.twrite w) 0x016 w (fun c _ => c.privileged = true ∧ one c fun x => legal c x = true ∧
      (c.b.th (target c x)).st ≠ .exited ∧ writeFault c.b (c.b.th (target c x)) kind (value c x) = some (k, a))
    Ctx.noEffect (fun _ _ _ => .trap { cause := k, addr := a })) ∧
  Does (.twrite w) 0x016 w (fun c _ => c.privileged = true ∧ one c fun x => legal c x = false)
    Ctx.noEffect (fun _ _ _ => .trap { cause := .regIndex }) ∧
  Does (.tread w) 0x015 w (fun c _ => c.privileged = false) Ctx.noEffect (fun _ _ _ => .trap { cause := .accessViolation }) ∧
  Does (.twrite w) 0x016 w (fun c _ => c.privileged = false) Ctx.noEffect (fun _ _ _ => .trap { cause := .accessViolation })) ∧
  (∀ (b : Block) (th : Thread) (num x : Nat) (wide : Bool),
  readSelector b th 0 num wide = th.reg num (if wide then 2 else 1) ∧
  (∀ k, (readSelector b th 1 num wide).testBit k = (decide (k < 7) && th.p.getLsbD k || k == 7)) ∧
  readSelector b th 2 num wide = (th.pc - BitVec.ofNat 64 b.cfg.code).toNat % 2 ^ 32 ∧
  readSelector b th 3 num wide = (match th.st with
    | .ready => 0 | .waiting => 1 | .parked => 2 | .trapped => 3 | .exited => 4) ∧
  readSelector b th 4 num wide = th.seed.toNat ∧
  (∀ k, (readSelector b th 5 num wide).testBit k = (decide (k < 12) && th.pend k != 0)) ∧
  let pc := BitVec.ofNat 64 b.cfg.code + BitVec.ofNat 64 (x % 2 ^ 32)
  writeFault b th 0 x = none ∧ writeFault b th 1 x = none ∧ writeFault b th 4 x = none ∧
  writeFault b th 2 x = (if b.cfg.code ≤ pc.toNat ∧ pc.toNat < b.cfg.bound then none else some (.accessViolation, pc)) ∧
  writeFault b th 3 x = (if (x = 0 ∧ th.st = .trapped) ∨ x = 4 then none else some (.reservedField, 0#64)) ∧
  writeFault b th 5 x = (if x < 2 ^ 12 then none else some (.reservedField, 0#64))) ∧
  (∀ (s : State) (blk tid kind num x : Nat) (wide : Bool) (b : Block), s.block? blk = some b →
  tid < b.threads.length → tid < b.cfg.bsize → kind < 6 → ¬ (kind = 3 ∧ x = 4) →
  let n := if wide then 2 else 1
  let th := b.th tid
  ∃ b', (s.writeSelector blk tid kind num wide x).block? blk = some b' ∧ (s.writeSelector blk tid kind num wide x).mem = s.mem ∧
    b'.regs = b.regs ∧ b'.uregs = b.uregs ∧ b'.trap = b.trap ∧ (∀ t, t ≠ tid → b'.th t = b.th t) ∧
    let th' := b'.th tid
    (if kind = 0 then num + n ≤ th.v.length → th'.reg num n = x % 2 ^ (32 * n) ∧
        ∀ m, m < num ∨ num + n ≤ m → th'.v.getD m 0#32 = th.v.getD m 0#32 else th'.v = th.v) ∧
    th'.p = (if kind = 1 then BitVec.ofNat 7 x else th.p) ∧
    th'.pc = (if kind = 2 then BitVec.ofNat 64 b.cfg.code + BitVec.ofNat 64 (x % 2 ^ 32) else th.pc) ∧
    th'.st = (if kind = 3 then .ready else th.st) ∧
    th'.seed = (if kind ≠ 4 then th.seed else if x % 2 ^ 32 = 0 then 1#32 else BitVec.ofNat 32 x) ∧
    ∀ k < 12, th'.pend k = (if kind = 5 ∧ x.testBit k = false then 0 else th.pend k)) ∧
  (∀ (s : State) (blk tid num : Nat) (wide : Bool), s.writeSelector blk tid 3 num wide 4 = s.exitThreads blk [tid])

/-- R112 to R114: KILL ends the launch: every block of it ends and leaves its core, its copies are dropped, and the
launch holds the code. WDOG sets the watchdog, IFENCE empties the core's loop buffers. R114: ICINV drops the launch's
entries of its range and scope from the instruction caches and the fetch units; a loop buffer may go on holding a line
that was cached. With %ackc not zero, .pkg waits. KILL, WDOG, IFENCE and ICINV each answer a next state under
conditions on the state and the operands alone. -/
def Obligations.KillWatchdogAndCode : Prop :=
  (∀ w : CWord,
  let x (c : Ctx) : Word := if w.bsel = 2#2 then w.imm else BitVec.ofNat 32 (c.b.ureg w.b.toNat)
  Does (.kill w) 0x017 w Ctx.always (fun c s => s.endTask c.b.task (.kill (w.imm.toNat % 256))) (fun _ _ _ => .done) ∧
  Does (.wdog w) 0x019 w (fun c _ => (x c).toNat < 2 ^ 28)
    (fun c s => s.modBlock c.iss.blk fun b => { b with regs := { b.regs with wdog := x c }, wdrun := 0 }) (fun _ _ _ => .done) ∧
  Does (.wdog w) 0x019 w (fun c _ => 2 ^ 28 ≤ (x c).toNat) Ctx.noEffect (fun _ _ _ => .trap { cause := .reservedField }) ∧
  Does (.ifence w) 0x01A w Ctx.always
    (fun c s => { s with eng := { s.eng with loops := s.eng.loops.filter fun l => l.2.2.core != c.b.place.core } })
    (fun _ _ _ => .done)) ∧
  (∀ (s : State) (task code : Nat) (t : Task), s.task? task = some t → t.ending = none →
  let u := s.endTask task (.kill code)
  (∃ t', u.task? task = some t' ∧ t'.ending = some (.kill code)) ∧
  (∀ x ∈ u.blocks, x.task = task → x.ended = true ∧ x.place.resident = false ∧ x.plaits = []) ∧
  (∀ k ∈ u.eng.copies, k.task ≠ task) ∧ u.clock = s.clock) ∧
  (∀ w : CWord,
  let scope := w.modF 0 2
  let base (c : Ctx) : Nat := c.b.ureg w.a.toNat
  let len (c : Ctx) : Nat := c.b.ureg w.b.toNat
  let hit (c : Ctx) (l : CodeLine) : Prop := l.task = c.b.task ∧ inScope scope c.b.place.core l.core = true ∧
    (len c = 0 ∨ (base c < l.line + 64 ∧ l.line < base c + len c))
  let drains (c : Ctx) (s : State) : Prop := s.mustDrain c true (scope + 1) = true
  (∃ eff : Ctx → State → State,
    (∀ c s, { eff c s with eng := s.eng } = s ∧
      { (eff c s).eng with icache := s.eng.icache, fills := s.eng.fills, loops := s.eng.loops, fetchs := s.eng.fetchs } = s.eng ∧
      (∀ l, l ∈ (eff c s).eng.icache ↔ l ∈ s.eng.icache ∧ ¬ hit c l) ∧
      (∀ l, l ∈ (eff c s).eng.fills ↔ l ∈ s.eng.fills ∧ ¬ hit c l) ∧
      (∀ l ∈ (eff c s).eng.loops, l ∈ s.eng.loops ∨ (l.2.2 ∈ s.eng.icache ∧ hit c l.2.2)) ∧
      (∀ l ∈ s.eng.loops, l ∈ (eff c s).eng.loops) ∧
      (∀ l, l ∈ (eff c s).eng.fetchs ↔ l ∈ s.eng.fetchs ∧ ¬ (l.task = c.b.task ∧ clusterIn scope c.b.place.core l.unit = true ∧
        (len c = 0 ∨ (base c < (l.va + 128) / 64 * 64 ∧ l.va < base c + len c))))) ∧
    Does (.icinv w) 0x01B w (fun c s => ¬ drains c s) eff (fun _ _ _ => .done)) ∧
  Does (.icinv w) 0x01B w drains Ctx.noEffect (fun _ _ _ => .again))

/-- R41, R43, R117, R264: SRD reads a special register that its thread may read; the others trap, a number that names no
register that can be read among them. R41, R43: the
special registers of identity, rank and time, of the block and of the trap banks. -/
def Obligations.SpecialReads : Prop :=
  (∀ w : CWord,
  let n := w.a.toNat
  let who : Option Access := (Sys2Proof.special n).map (·.read)
  let may (c : Ctx) : Prop := who = some .all ∨ (who = some .handler ∧ c.privileged = true)
  Does (.srd w) 0x01C w (fun c s => may c ∧ ¬ (n = 0x31 ∧ s.uncheckedPromise c.iss.blk = true)) Ctx.noEffect
    (fun c s x => .done (wrV w.d.toNat w.ty.regs (s.special c x.1 x.2 n))) ∧
  Does (.srd w) 0x01C w (fun c s => may c ∧ n = 0x31 ∧ s.uncheckedPromise c.iss.blk = true) Ctx.noEffect (fun _ _ _ => .again) ∧
  Does (.srd w) 0x01C w (fun c _ => who = some .handler ∧ c.privileged = false) Ctx.noEffect
    (fun _ _ _ => .trap { cause := .accessViolation }) ∧
  Does (.srd w) 0x01C w (fun _ _ => who = some .nobody ∨ who = none) Ctx.noEffect
    (fun _ _ _ => .trap { cause := .reservedField })) ∧
  (∀ (s : State) (c : Ctx) (rank tid : Nat),
  s.special c rank tid 0x00 = tid ∧ s.special c rank tid 0x01 = rank ∧ s.special c rank tid 0x04 = (c.b.th tid).seed.toNat ∧
  s.special c rank tid 0x10 = c.b.bid ∧ s.special c rank tid 0x18 = c.b.cfg.bsize ∧
  s.special c rank tid 0x20 = c.b.regs.ireel.toNat ∧ s.special c rank tid 0x21 = c.b.regs.treel.toNat ∧
  s.special c rank tid 0x23 = c.b.acks.length ∧ s.special c rank tid 0x29 = c.b.regs.fmode.toNat ∧
  s.special c rank tid 0x30 = s.clock.kcyc / 1000 ∧ s.special c rank tid 0x31 = s.clock.time ∧
  s.special c rank tid 0x32 = c.b.place.core % 24 ∧ s.special c rank tid 0x34 = c.b.place.core / 192 ∧
  s.special c rank tid 0x35 = s.fabric.pkgid ∧ s.special c rank tid 0x36 = c.b.cfg.envelope ∧
  s.special c rank tid 0x40 = (if c.iss.handler then c.b.trap.level else 0) ∧
  s.special c rank tid 0x41 = c.b.trap.bank0.cause.toNat ∧ s.special c rank tid 0x44 = c.b.trap.bank1.pc.toNat ∧
  s.special c rank tid 0x49 = c.b.trap.tvec.toNat ∧ s.special c rank tid 0x4A = c.b.trap.tsave.toNat)

/-- R25, R41, R43, R69, R117, R350: SWR of a register of each thread, of a register of the block by its highest
thread, and of a reel by the handler; one that nobody writes traps. R20, R28, R43, R113, R371: the values that each register of the block takes, and
what a write changes. R350: a reel written above what it holds draws the increase from the pool, or none where the
pool holds less; one written below gives the decrease back. -/
def Obligations.SpecialWrites : Prop :=
  (∀ (w : CWord) (r : Special), Sys2Proof.special w.d.toNat = some r →
  let n := w.d.toNat
  let may (c : Ctx) : Prop := r.write = .all ∨ (r.write = .handler ∧ c.privileged = true)
  let v (c : Ctx) (t : Nat) : Nat :=
    let x := if w.bsel = 2#2 then w.imm.toNat else (c.b.th t).reg w.b.toNat w.ty.regs
    if r.wide then x else x % 2 ^ 32
  let top (c : Ctx) (t : Nat) : Prop := t ∈ c.on.map (·.2) ∧ ∀ y ∈ c.on, y.2 ≤ t
  (n = 0x04 → Does (.swr w) 0x01D w (fun c _ => may c) Ctx.noEffect
    (fun c _ x => .done [.seed (if v c x.2 = 0 then 1#32 else BitVec.ofNat 32 (v c x.2))])) ∧
  (n = 0x05 → Does (.swr w) 0x01D w (fun c _ => may c)
    (fun c s => c.on.foldl (fun s x => if v c x.2 < 4096 then
      s.modTh c.iss.blk x.2 fun th => th.setFlags (BitVec.ofNat 32 (v c x.2)) else s) s)
    (fun c _ x => if v c x.2 < 4096 then .done else .trap { cause := .reservedField })) ∧
  (n ≠ 0x04 → n ≠ 0x05 → n ≠ 0x20 → n ≠ 0x21 → ∀ t : Ctx → Nat,
    Does (.swr w) 0x01D w (fun c _ => may c ∧ top c (t c) ∧ fieldRule n (v c (t c)) = true)
      (fun c s => s.modBlock c.iss.blk (·.swr n (v c (t c)))) (fun _ _ _ => .done) ∧
    Does (.swr w) 0x01D w (fun c _ => may c ∧ top c (t c) ∧ fieldRule n (v c (t c)) = false) Ctx.noEffect
      (fun _ _ _ => .trap { cause := .reservedField })) ∧
  (n = 0x20 ∨ n = 0x21 → ∀ (t : Ctx → Nat) (after : Ctx → State → State),
    Does (.swr w) 0x01D w (fun c s => may c ∧ top c (t c) ∧ s.setReel c.iss.blk (n == 0x21) (v c (t c)) = some (after c s))
      after (fun _ _ _ => .done) ∧
    Does (.swr w) 0x01D w (fun c s => may c ∧ top c (t c) ∧ s.setReel c.iss.blk (n == 0x21) (v c (t c)) = none)
      Ctx.noEffect (fun _ _ _ => .trap { cause := .envelopeQuota })) ∧
  Does (.swr w) 0x01D w (fun c _ => r.write = .handler ∧ c.privileged = false) Ctx.noEffect
    (fun _ _ _ => .trap { cause := .accessViolation })) ∧
  (∀ w : CWord, (Sys2Proof.special w.d.toNat).all (·.write == .nobody) = true →
    Does (.swr w) 0x01D w Ctx.always Ctx.noEffect (fun _ _ _ => .trap { cause := .reservedField })) ∧
  (∀ (b : Block) (x : Nat),
  let w := BitVec.ofNat 32 x
  let d := BitVec.ofNat 64 x
  (fieldRule 0x25 x = true ↔ x ≤ 8) ∧ (fieldRule 0x26 x = true ↔ x < 2) ∧
  (fieldRule 0x29 x = true ↔ x < 32 ∧ x % 8 ∉ [0, 7]) ∧ (fieldRule 0x2A x = true ↔ x < 2 ^ 28) ∧
  (fieldRule 0x41 x = true ↔ x < 2 ^ 24) ∧ (fieldRule 0x42 x = true ↔ x < 2 ^ 24) ∧
  (∀ n ∈ [0x27, 0x2C, 0x43, 0x44, 0x45, 0x46, 0x47, 0x48, 0x49, 0x4A], fieldRule n x = true) ∧
  b.swr 0x25 x = { b with regs := { b.regs with inlmax := w } } ∧
  b.swr 0x26 x = { b with regs := { b.regs with ustat := w } } ∧
  (b.swr 0x27 x = { b with xs := (b.swr 0x27 x).xs } ∧ (b.swr 0x27 x).xs.length = 8 ∧ ∀ k < 8,
    (b.swr 0x27 x).xs.getD k {} = { n := (b.xs.getD k {}).n, st := BitVec.ofNat 4 (x / 16 ^ k) }) ∧
  b.swr 0x29 x = { b with regs := { b.regs with fmode := w } } ∧
  b.swr 0x2A x = { b with regs := { b.regs with wdog := w }, wdrun := 0 } ∧
  b.swr 0x2C x = { b with regs := { b.regs with wtovf := w } } ∧
  b.swr 0x41 x = { b with trap := { b.trap with bank0 := { b.trap.bank0 with cause := w } } } ∧
  b.swr 0x42 x = { b with trap := { b.trap with bank1 := { b.trap.bank1 with cause := w } } } ∧
  b.swr 0x43 x = { b with trap := { b.trap with bank0 := { b.trap.bank0 with pc := d } } } ∧
  b.swr 0x44 x = { b with trap := { b.trap with bank1 := { b.trap.bank1 with pc := d } } } ∧
  b.swr 0x45 x = { b with trap := { b.trap with bank0 := { b.trap.bank0 with addr := d } } } ∧
  b.swr 0x46 x = { b with trap := { b.trap with bank1 := { b.trap.bank1 with addr := d } } } ∧
  b.swr 0x47 x = { b with trap := { b.trap with bank0 := { b.trap.bank0 with thr := w } } } ∧
  b.swr 0x48 x = { b with trap := { b.trap with bank1 := { b.trap.bank1 with thr := w } } } ∧
  b.swr 0x49 x = { b with trap := { b.trap with tvec := d } } ∧
  b.swr 0x4A x = { b with trap := { b.trap with tsave := d } }) ∧
  (∀ (s : State) (blk : Nat) (b : Block) (t : Bool) (v : Nat), s.block? blk = some b → v < 2 ^ 64 →
  let reel := (b.reel t).toNat
  let pool (u : State) (t : Bool) : Nat := (u.env b.cfg.envelope).pool t
  (reel + pool s t < v → s.setReel blk t v = none) ∧
  (v ≤ reel + pool s t → ∃ u b', s.setReel blk t v = some u ∧ u.block? blk = some b' ∧ u.mem = s.mem ∧
    (b'.reel t).toNat = v ∧ b'.reel (!t) = b.reel (!t) ∧ pool u t + v = pool s t + reel ∧ pool u (!t) = pool s (!t) ∧
    (v = 0 → 0 < reel → ∃ d, b'.due = some d ∧ (if t then d.treel else d.ireel) = true)))

/-! ### Memory (R159 to R177, R241, R242, R381 to R384, R413 to R415) -/

/-- R162, R334, R384: the checks of an access in their order: canonical, aligned, not a write of a capability table by a
kernel without SUPER (its cause is the model's reading of R344, log 76), the task's tiles, the answer of an earlier walk,
the translation; a page in no TLB starts a walk. R382, R383: an entry of a walk that is not valid
faults at its level, or asks for service when it is replayable; a valid leaf above level 3 ends the walk;
permissions are those of the leaf. R162 check 6, R413, R414: a read of a range that holds an uncorrectable error
traps, with its event and a frame to retire; of a clean range nothing changes. A far home answers or the thread
waits for it (R397): the host's answer may be an error (R394), and another package is reached by a port that is up (R396). -/
def Obligations.AccessChecks : Prop :=
  (∀ (s : State) (b : Block) (tid : Nat) (va : DWord) (size align : Nat) (k : Kind) (direct : Bool),
  let write := k == .write || k == .atomic
  let low := va.toNat < 2 ^ 57
  let none' := ((s.task? b.task).bind (·.locate va write direct)) = none
  let plain := none' ∧ (b.th tid).faultAt (va.toNat / 2 ^ 16 % 2 ^ 41) = none
  let e := s.env b.cfg.envelope
  let caps := write = true ∧ b.cfg.super = false ∧ 0 < e.capn ∧ va.toNat < e.captab + 8 * min e.capn 1024 ∧ e.captab < va.toNat + size
  let r := s.locate b tid va size align k direct
  (¬ low → r = (s, .no (.trap { cause := .accessViolation, addr := va, write, size, extra := 1#64 }))) ∧
  (low → va.toNat % align ≠ 0 →
    r = (s, .no (.trap { cause := .misaligned, addr := va, write, size, extra := BitVec.ofNat 64 align }))) ∧
  (low → va.toNat % align = 0 → caps →
    r = (s, .no (.trap { cause := .accessViolation, addr := va, write, size, extra := 2#64 }))) ∧
  let ok := low ∧ va.toNat % align = 0 ∧ ¬ caps
  (ok → ∀ pa, (s.task? b.task).bind (·.locate va write direct) = some (.inl pa) → r = (s, .pa pa)) ∧
  (ok → plain → ∀ pa, s.translate b.place.core b.cfg.envelope va k = .ok pa → r = (s, .pa pa)) ∧
  (ok → plain → ∀ t, s.translate b.place.core b.cfg.envelope va k = .bad t →
    r = (s, .no (.trap { t with write, size }))) ∧
  (ok → plain → s.translate b.place.core b.cfg.envelope va k = .miss →
    ∃ id, r = ((s.startWalk b.die b.cfg.envelope va k).1, .no (.stall id)) ∧ ∃ w ∈ r.1.eng.walks, w.id = id) ∧
  (ok → plain → s.translate b.place.core b.cfg.envelope va k = .moved →
    r = (s, (s.lastAccess b tid va).elim (.no (.stall 0)) .pa)) ∧
  (ok → none' →
    ∀ t, (b.th tid).faultAt (va.toNat / 2 ^ 16 % 2 ^ 41) = some t → r = (s, .no (.trap { t with addr := va, write, size })))) ∧
  (∀ (s : State) (va : DWord) (level table : Nat) (e : BitVec 64),
  let pa := table + 8 * (va.toNat / 2 ^ levelShift level % 2 ^ levelBits level)
  s.homeOf table ≠ none → s.poisoned pa 8 = false → e = BitVec.ofNat 64 (s.valPa pa 8) →
  (e.getLsbD 0 = false → e.getLsbD 5 = false → s.walkEntry va level table = .inl (.fault (xlateFault va level))) ∧
  (e.getLsbD 0 = false → e.getLsbD 5 = true → s.walkEntry va level table = .inl (.replay level)) ∧
  (e.getLsbD 0 = true → e.getLsbD 1 = true → e.getLsbD 6 = false → e.toNat < 2 ^ 56 → level < 3 →
    leafPa e % 2 ^ levelShift level = 0 → s.homeOf (leafPa e) ≠ none →
    s.walkEntry va level table = .inl (.leaf e (levelShift level))) ∧
  (s.fabric.quarantine.contains (leafPa e / 2 ^ 46) = false →
    (s.leafFault e va .read = none ↔ e.getLsbD 2 = true) ∧ (s.leafFault e va .write = none ↔ e.getLsbD 3 = true) ∧
    (s.leafFault e va .fetch = none ↔ e.getLsbD 4 = true) ∧
    (s.leafFault e va .atomic = none ↔ e.getLsbD 2 = true ∧ e.getLsbD 3 = true))) ∧
  (∀ (s : State) (b : Block) (va : DWord) (pa size : Nat) (write : Bool),
  (s.clean b.place.core pa size → s.consume b va pa size write = (s, .pa pa)) ∧
  (s.poisoned pa size = true ∨ s.l1Bad b.place.core pa size = true → s.consume b va pa size write =
    (s.uncorrected b.die pa b.task b.cfg.envelope 0, .no (.trap { cause := .uncorrectedData, addr := va, write, size }))) ∧
  (∀ n, s.farOf pa = some n → s.health.bad = [] → s.health.soft = [] →
    let waits : Fate := .remote n { cause := .accessRevoked, addr := va, write, size, extra := BitVec.ofNat 64 n }
    let told := s.tell n write pa
    s.consume b va pa size write =
      if n = 1024 then ({ s with choices := s.choices + 2 },
        if Config.arrived s.choices = false then .no waits
        else if Config.hostError (s.choices + 1) then .no (.trap { cause := .uncorrectedData, addr := va, write, size })
        else .pa pa)
      else if Config.arrived told.choices = true ∧ ((told.route n).isSome = true) then
        (State.acked { told with choices := told.choices + 1 } n, .pa pa)
      else ({ told with choices := told.choices + 1 }, .no waits)))

/-- A memory in its canonical form stays so under every operation, reads what was written, and keeps every other
byte. R167, R174, R415: a thread's store writes its bytes at its address and no other byte of the package's memory;
it changes no register, ends the errors that it covers whole, and is counted when its home is off the die (R165). -/
def Obligations.CanonicalMemory : Prop :=
  (∀ (m : Memory), m.wf = true →
  (∀ a x, (m.set a x).wf = true ∧ ∀ q, (m.set a x).get q = if q = a then x else m.get q) ∧
  (∀ a bs, (m.write a bs).wf = true ∧
    ∀ q, (m.write a bs).get q = if a ≤ q ∧ q < a + bs.length then bs.getD (q - a) 0#8 else m.get q) ∧
  (∀ a n, (m.clear a n).wf = true ∧ ∀ q, (m.clear a n).get q = if a ≤ q ∧ q < a + n then 0#8 else m.get q) ∧
  (∀ a n b, (m.slice a n b).wf = true ∧
    ∀ q, (m.slice a n b).get q = if b ≤ q ∧ q < b + n then m.get (q - b + a) else 0#8) ∧
  (∀ a n, ∀ k : Memory, k.wf = true → (∀ c ∈ k, a ≤ c.1 ∧ c.1 < a + n) → (m.overlay a n k).wf = true ∧
    ∀ q, (m.overlay a n k).get q = if a ≤ q ∧ q < a + n then k.get q else m.get q)) ∧
  (∀ (s : State) (b : Block) (tid : Nat) (va : DWord) (pa : Nat) (bs : List Byte),
  s.mem.wf = true →
  let t := s.storeAt b tid va pa bs
  t.mem.wf = true ∧
  (∀ a, a < pa ∨ pa + bs.length ≤ a → t.mem.get a = s.mem.get a) ∧ t.mem.read pa bs.length = bs ∧
  t.clock = s.clock ∧ t.sched = s.sched ∧ t.eng = s.eng ∧ t.envs = s.envs ∧
  (∀ e ∈ t.health.bad, e ∈ s.health.bad) ∧
  (∀ u, pa ≤ 32 * u → 32 * u + 32 ≤ pa + bs.length → ErrUnit.mem u ∉ t.health.bad ∧ ErrUnit.mem u ∉ t.health.soft) ∧
  (∀ u, ErrUnit.mem u ∈ s.health.bad → 32 * u < pa ∨ pa + bs.length < 32 * u + 32 → ErrUnit.mem u ∈ t.health.bad) ∧
  (∀ x, s.block? b.id = some x → ∃ y, t.block? b.id = some y ∧
    y.acks = x.acks ++ (if s.isFar b pa then [{ tid, va, pa, time := s.clock.time }] else [])) ∧
  (∀ n x, t.block? n = some x → ∃ y, s.block? n = some y ∧ x.regs = y.regs ∧ x.scratch = y.scratch ∧ x.uregs = y.uregs ∧
    x.threads.length = y.threads.length ∧ ∀ i, (x.th i).v = (y.th i).v ∧ (x.th i).p = (y.th i).p ∧ (x.th i).pc = (y.th i).pc))

/-- R159 to R162, R167 to R169: the loads. Each thread in turn reads at its effective address, or has the fate of
the check that fails; a loaded value narrower than a register is extended by its type. -/
def Obligations.Loads : Prop :=
  ∀ w : CWord,
  let n := w.ty.bits / 8
  let r (c : Ctx) (s : State) (x : Nat × Nat) : State × Got := s.reach c.b x.2 (effAddr (c.opnd x.2) w true false) n n .read
  let off (c : Ctx) (x : Nat × Nat) : Nat := (effAddr (c.opnd x.2) w false false).toNat
  let ca (c : Ctx) (x : Nat × Nat) : DWord := effAddr (c.opnd x.2) w false false
  let own (c : Ctx) (s : State) (x : Nat × Nat) : State × Option TrapInfo :=
    s.scratchConsume c.b c.iss.blk (off c x) n (BitVec.ofNat 64 (off c x))
  let ka (c : Ctx) (x : Nat × Nat) : DWord := constAddr (c.opnd x.2) w
  let rk (c : Ctx) (s : State) (x : Nat × Nat) : State × Got := s.readHome c.b x.2 (ka c x) n n
  let line (c : Ctx) (s : State) (x : Nat × Nat) (pa : Nat) : State × List Byte :=
    (rk c s x).1.staleRead true c.b.place.core c.b.task (ka c x).toNat pa n
  DoesEach (.ld w) 0x200 w Ctx.inOrder Ctx.always (fun c s x => (r c s x).1)
    (fun c s x => (r c s x).2.fate fun pa => .done (loadWr w.ty w.d.toNat ((r c s x).1.valPa pa n)) n) ∧
  DoesEach (.lds w) 0x202 w Ctx.inOrder Ctx.always
    (fun c s x => (scratchFault c.b (off c x) n n false).elim (own c s x).1 fun _ => s)
    (fun c s x => (scratchFault c.b (off c x) n n false).elim
      ((own c s x).2.elim (.done (loadWr w.ty w.d.toNat (c.b.scratch.val (off c x) n))) .trap) .trap) ∧
  DoesEach (.ldc w) 0x204 w Ctx.inOrder Ctx.always
    (fun c s x => match s.member c.b (ca c x) n false with
      | .error _ => s
      | .ok (m, o) => (s.scratchConsume c.b m.id o n (ca c x)).1)
    (fun c s x => match s.member c.b (ca c x) n false with
      | .error t => .trap t
      | .ok (m, o) => (s.scratchConsume c.b m.id o n (ca c x)).2.elim (.done (loadWr w.ty w.d.toNat (m.scratch.val o n)) n) .trap) ∧
  DoesEach (.ldk w) 0x206 w Ctx.inOrder Ctx.always
    (fun c s x => (rk c s x).2.state (rk c s x).1 fun pa => (line c s x pa).1)
    (fun c s x => (rk c s x).2.fate fun pa => .done (loadWr w.ty w.d.toNat (ofBytesLE (line c s x pa).2)) n)

/-- R159 to R162, R165, R167, R168: the stores, once a release has drained. -/
def Obligations.Stores : Prop :=
  ∀ w : CWord,
  let n := w.ty.bits / 8
  let va (c : Ctx) (x : Nat × Nat) : DWord := effAddr (c.opnd x.2) w true true
  let l (c : Ctx) (s : State) (x : Nat × Nat) : State × Got := s.reach c.b x.2 (va c x) n n .write
  let bytes (c : Ctx) (x : Nat × Nat) : List Byte := toBytesLE n ((c.b.th x.2).reg w.b.toNat w.ty.regs)
  let off (c : Ctx) (x : Nat × Nat) : DWord := effAddr (c.opnd x.2) w false true
  DoesEach (.st w) 0x201 w Ctx.inOrder (fun c s => s.mustDrain c (w.modF 0 2 != 0) (immScope w) = false)
    (fun c s x => (l c s x).2.state (l c s x).1 fun pa => (l c s x).1.storeAt c.b x.2 (va c x) pa (bytes c x))
    (fun c s x => (l c s x).2.fate fun _ => .done [] n) ∧
  DoesEach (.sts w) 0x203 w Ctx.inOrder Ctx.always
    (fun c s x => (scratchFault c.b (off c x).toNat n n true).elim (s.scratchWrite c.iss.blk (off c x).toNat (bytes c x)) fun _ => s)
    (fun c _ x => (scratchFault c.b (off c x).toNat n n true).elim .done .trap) ∧
  DoesEach (.stc w) 0x205 w Ctx.inOrder Ctx.always
    (fun c s x => match s.member c.b (off c x) n true with
      | .error _ => s
      | .ok (m, o) => s.scratchWrite m.id o (bytes c x))
    (fun c s x => match s.member c.b (off c x) n true with
      | .error t => .trap t
      | .ok _ => .done [] n)

/-- R161, R241: the checks of a scratchpad offset, and those of a cluster member's. R170, R171: ATOMS on the block's
scratchpad, in an arrival order of the threads. R162 check 6: bytes that hold an uncorrectable error trap their reader. -/
def Obligations.Scratchpads : Prop :=
  (∀ (b : Block) (off size align : Nat) (write : Bool),
  (scratchFault b off size align write = none ↔ off % align = 0 ∧ off + size ≤ b.cfg.scratch) ∧
  (∀ t, scratchFault b off size align write = some t →
    t.cause = (if off % align ≠ 0 then .misaligned else .scratchBounds) ∧ t.addr = BitVec.ofNat 64 off ∧
    t.write = write ∧ t.size = size) ∧
  ∀ (s : State) (addr : DWord) (m : Block) (o : Nat), s.member b addr size write = .ok (m, o) →
    addr.toNat % size = 0 ∧ m ∈ s.blocks ∧ m.task = b.task ∧ o = addr.toNat % 2 ^ 21 ∧ o + size ≤ m.cfg.scratch ∧
    m.bid = b.bid / b.cfg.groupSize * b.cfg.groupSize + addr.toNat / 2 ^ 24 % 32) ∧
  (∀ w : CWord,
  let n := w.ty.bits / 8
  let off (c : Ctx) (x : Nat × Nat) : Nat :=
    (BitVec.ofNat 32 ((c.b.th x.2).reg w.a.toNat 1) + (offsetOf (w.modF 3 3 != 0) w.imm).setWidth 32).toNat
  let start (c : Ctx) (s : State) : State × List (Nat × Nat) :=
    State.inArrival (fun x => BitVec.ofNat 64 (off c x)) c.on.length s c.on
  let old (c : Ctx) (s : State) (x : Nat × Nat) : Nat := ((s.block? c.iss.blk).map fun b => b.scratch.val (off c x) n).getD 0
  let b (c : Ctx) (x : Nat × Nat) (k : Nat) : Nat := (c.b.th x.2).reg k w.ty.regs
  let new (c : Ctx) (s : State) (x : Nat × Nat) : Nat :=
    atomicNew (w.modF 0 3) w.ty (old c s x) (b c x w.b.toNat) (b c x w.e)
  let read (c : Ctx) (s : State) (x : Nat × Nat) : State × Option TrapInfo :=
    s.scratchConsume c.b c.iss.blk (off c x) n (BitVec.ofNat 64 (off c x))
  DoesEach (.atoms w) 0x208 w start Ctx.always
    (fun c s x => (scratchFault c.b (off c x) n n true).elim ((read c s x).2.elim
      ((read c s x).1.scratchWrite c.iss.blk (off c x) (toBytesLE n (new c (read c s x).1 x))) fun _ => (read c s x).1) fun _ => s)
    (fun c s x => (scratchFault c.b (off c x) n n true).elim
      ((read c s x).2.elim (.done (wrV w.d.toNat w.ty.regs (old c (read c s x).1 x))) .trap) .trap)) ∧
  (∀ (s : State) (b : Block) (blk off n : Nat) (addr : DWord),
  ((∀ k, off < 8 * k + 8 → 8 * k < off + n → ErrUnit.scratch blk k ∉ s.health.bad) →
    (s.scratchConsume b blk off n addr).2 = none ∧ (s.scratchConsume b blk off n addr).1.blocks = s.blocks ∧
    (s.scratchConsume b blk off n addr).1.mem = s.mem ∧
    ((∀ k, off < 8 * k + 8 → 8 * k < off + n → ErrUnit.scratch blk k ∉ s.health.soft) → s.scratchConsume b blk off n addr = (s, none))) ∧
  (∀ k, off < 8 * k + 8 → 8 * k < off + n → ErrUnit.scratch blk k ∈ s.health.bad →
    (s.scratchConsume b blk off n addr).2 = some { cause := .uncorrectedData, addr, size := n } ∧
    (s.scratchConsume b blk off n addr).1.blocks = s.blocks ∧ (s.scratchConsume b blk off n addr).1.mem = s.mem))

/-- R170 to R172: the updates at the bank: thread after thread in an arrival order, each reads the old value, writes
the new one at its home, and ATOM answers the old one; the host may have performed one that it does not answer, or answers
with an error (R394). R170 to R172: the operations on integers of W bits, and on
floats one rounding of each exact result; an arrival order is one of the issue's threads. ATOM, BRED and BUPD each
answer a next state under conditions on the state and the operands alone. -/
def Obligations.BankUpdates : Prop :=
  (∀ w : CWord,
  let n := w.ty.bits / 8
  let ord := w.modF 3 3
  let va (c : Ctx) (x : Nat × Nat) : DWord := pairAddr (c.opnd x.2) w (ord != 0)
  let start (c : Ctx) (s : State) : State × List (Nat × Nat) := State.inArrival (va c) c.on.length s c.on
  let ready (c : Ctx) (s : State) : Prop := s.mustDrain c (ord == 2 || ord == 3 || ord == 4) (immScope w) = false
  let r (op : Nat) (host : Bool) (c : Ctx) (s : State) (x : Nat × Nat) : State × Got :=
    let l := s.locate c.b x.2 (va c x) n n .atomic
    match l.2 with
    | .no k => (l.1, .no k)
    | .pa pa => if l.1.homeOf pa = some .host ∧ host = false then
        (l.1, .no (.trap { cause := .accessViolation, addr := va c x, write := true, size := n, extra := 2#64 }))
      else l.1.consumeBank c op x.2 (va c x) pa n
  -- where it asks its home, and what the host may do for an atomic that it does not answer (R394)
  let asked (host : Bool) (c : Ctx) (s : State) (x : Nat × Nat) : Option Nat :=
    let l := s.locate c.b x.2 (va c x) n n .atomic
    l.2.pa?.filter fun pa => l.1.homeOf pa != some .host || host
  let late (op : Nat) (host : Bool) (new : Ctx → Nat × Nat → Nat → Nat) (c : Ctx) (s : State) (x : Nat × Nat) : State :=
    let u := (r op host c s x).1
    match asked host c s x with
    | none => u
    | some pa => if u.homeOf pa = some .host ∧ (r op host c s x).2.fate (fun _ => .done) ≠ .again then
        (if (u.free Config.arrived).1 then (u.free Config.arrived).2.writePa pa (toBytesLE n (new c x (u.valPa pa n)))
         else (u.free Config.arrived).2)
      else u
  let b (c : Ctx) (x : Nat × Nat) (k : Nat) : Nat := (c.b.th x.2).reg k w.ty.regs
  let does (i : Instr) (op : Nat) (host : Bool) (bytes : Nat) (new : Ctx → Nat × Nat → Nat → Nat) (ws : Nat → List Wr) : Prop :=
    DoesEach i op w start ready
      (fun c s x => (r op host c s x).2.state (late op host new c s x) fun pa =>
        (r op host c s x).1.storeAt c.b x.2 (va c x) pa (toBytesLE n (new c x ((r op host c s x).1.valPa pa n))))
      (fun c s x => (r op host c s x).2.fate fun pa => .done (ws ((r op host c s x).1.valPa pa n)) bytes)
  does (.atom w) 0x207 (hostAtomic (w.modF 0 3) w.ty) ((if w.modF 0 3 = 7 then 3 else 2) * n)
    (fun c x m => atomicNew (w.modF 0 3) w.ty m (b c x w.b.toNat) (b c x w.e)) (fun m => wrV w.d.toNat w.ty.regs m) ∧
  does (.bred w) 0x209 false n (fun c x m => atomicNew (w.modF 0 3) w.ty m (b c x w.b.toNat) 0) (fun _ => []) ∧
  does (.bupd w) 0x20A false ((if w.modF 0 3 = 0 then 1 else 2) * n)
    (fun c x m => match w.modF 0 3 with
      | 0 => mulElem w.ty m (b c x w.b.toNat)
      | 1 => axpyElem w.ty m (b c x w.b.toNat) (b c x (w.b.toNat + w.ty.regs))
      | _ => minElem w.ty (maxElem w.ty m (b c x w.b.toNat)) (b c x (w.b.toNat + w.ty.regs))) (fun _ => [])) ∧
  ((∀ (t : Ty) (m b e : Nat), t.isFloat = false → t ≠ .f16x2 → t ≠ .bf16x2 →
    atomicNew 0 t m b e = wrap t.bits (valOf t m + valOf t b) ∧
    atomicNew 1 t m b e = wrap t.bits (min (valOf t m) (valOf t b)) ∧
    atomicNew 2 t m b e = wrap t.bits (max (valOf t m) (valOf t b)) ∧
    atomicNew 3 t m b e = m &&& b ∧ atomicNew 4 t m b e = m ||| b ∧ atomicNew 5 t m b e = m ^^^ b ∧
    atomicNew 6 t m b e = b ∧ atomicNew 7 t m b e = if m = e then b else m) ∧
  (∀ (m b e : Nat), atomicNew 0 .f32 m b e =
    finishFloat .f32 .rn 0 false false ((Fmt.f32.decode m).add (Fmt.f32.decode b) false) ∧
    mulElem .f32 m b = finishFloat .f32 .rn 0 false false ((Fmt.f32.decode m).mul (Fmt.f32.decode b)) ∧
    axpyElem .f32 m b e = finishFloat .f32 .rn 0 false false
      (((Fmt.f32.decode m).mul (Fmt.f32.decode b)).add (Fmt.f32.decode e) false)) ∧
  (∀ (key : Nat × Nat → DWord) (s : State) (xs : List (Nat × Nat)), xs.Nodup →
    (State.inArrival key xs.length s xs).2.Perm xs ∧
    { (State.inArrival key xs.length s xs).1 with choices := s.choices } = s))

/-- R165, R173, R258: a fence or another release at .pkg or wider stands while writes of the block are
unacknowledged; any other fence completes at once. -/
def Obligations.ReleasesDrain : Prop :=
  ∀ w : CWord,
  let waits (i : Instr) (op : Nat) (rel : Bool) (scope : Nat) : Prop :=
    Does i op w (fun c s => s.mustDrain c rel scope = true) Ctx.noEffect (fun _ _ _ => .again)
  let ord := w.modF 3 3
  let bank := ord == 2 || ord == 3 || ord == 4
  Does (.fence w) 0x20B w (fun c s => s.mustDrain c (w.modF 0 3 != 1) (w.modF 3 3) = false) Ctx.noEffect (fun _ _ _ => .done) ∧
  waits (.fence w) 0x20B (w.modF 0 3 != 1) (w.modF 3 3) ∧
  waits (.st w) 0x201 (w.modF 0 2 != 0) (immScope w) ∧
  waits (.atom w) 0x207 bank (immScope w) ∧ waits (.bred w) 0x209 bank (immScope w) ∧ waits (.bupd w) 0x20A bank (immScope w) ∧
  waits (.unpark w) 0x210 true (w.modF 1 3) ∧ waits (.fput w) 0x283 true (w.modF 1 3) ∧ waits (.bara w) 0x28A true (w.modF 0 3) ∧
  ∀ (s : State) (c : Ctx) (rel : Bool) (scope : Nat) (b : Block), s.block? c.iss.blk = some b →
    (s.mustDrain c rel scope = true ↔ rel = true ∧ 3 ≤ scope ∧ b.acks ≠ [])

/-- R174 to R177: WAITADDR and PARK complete when their condition holds and else park, charged once; UNPARK wakes the earliest
thread parked on its key, or with .all every one; CCTL drops its line; PREFETCH only goes on. R176: a thread that
parks enters its cluster's wait table while that has room; past 1,024 threads it polls, and %wtovf counts it. -/
def Obligations.MemoryWaits : Prop :=
  (∀ w : CWord,
  let n := w.ty.bits / 8
  let va (c : Ctx) (x : Nat × Nat) : DWord := pairAddr (c.opnd x.2) w false
  let r (k : Nat) (c : Ctx) (s : State) (x : Nat × Nat) : State × Got := s.readHome c.b x.2 (va c x) k k
  let paid (c : Ctx) (x : Nat × Nat) (k : Nat) : Nat := if (c.b.th x.2).prepaid then 0 else k
  let want (c : Ctx) (x : Nat × Nat) : DWord := BitVec.ofNat 64 ((c.b.th x.2).reg w.b.toNat w.ty.regs)
  let hit (c : Ctx) (s : State) (x : Nat × Nat) (pa : Nat) : Bool :=
    (BitVec.ofNat 64 ((r n c s x).1.valPa pa n) == want c x) != (w.modF 0 1 == 1)
  let wq (c : Ctx) (s : State) (x : Nat × Nat) (pa : Nat) : State × Fate :=
    if hit c s x pa then ((r n c s x).1, .done [.p w.d.toNat true] (paid c x n))
    else (r n c s x).1.park c x.2 none { kind := .waitaddr, va := va c x, pa, val := want c x, bytes := paid c x n }
  let key (c : Ctx) (x : Nat × Nat) : DWord := ((c.b.th x.2).v.getD w.b.toNat 0#32).setWidth 64
  let pq (c : Ctx) (s : State) (x : Nat × Nat) (pa : Nat) : State × Fate :=
    if BitVec.ofNat 64 ((r 4 c s x).1.valPa pa 4) ≠ key c x then ((r 4 c s x).1, .done [] (paid c x 4))
    else (r 4 c s x).1.park c x.2 none
      { kind := .park, va := va c x, pa, val := key c x, scope := w.modF 1 3, bytes := paid c x 4 }
  let u (c : Ctx) (s : State) (x : Nat × Nat) : State × Got := s.locate c.b x.2 (va c x) 4 1 .read
  let woken (c : Ctx) (s : State) (x : Nat × Nat) (pa : Nat) : List (Nat × Nat × Nat) :=
    if w.modF 0 1 = 1 then (u c s x).1.parkedOn c.b pa (w.modF 1 3) else ((u c s x).1.parkedOn c.b pa (w.modF 1 3)).take 1
  DoesEach (.waitaddr w) 0x20C w Ctx.inOrder Ctx.always
    (fun c s x => (r n c s x).2.state (r n c s x).1 fun pa => (wq c s x pa).1)
    (fun c s x => (r n c s x).2.fate fun pa => (wq c s x pa).2) ∧
  DoesEach (.park w) 0x20F w Ctx.inOrder Ctx.always
    (fun c s x => (r 4 c s x).2.state (r 4 c s x).1 fun pa => (pq c s x pa).1)
    (fun c s x => (r 4 c s x).2.fate fun pa => (pq c s x pa).2) ∧
  DoesEach (.unpark w) 0x210 w Ctx.inOrder (fun c s => s.mustDrain c true (w.modF 1 3) = false)
    (fun c s x => (u c s x).2.state (u c s x).1 fun pa =>
      (woken c s x pa).foldl (fun s y => s.modTh y.2.1 y.2.2 Thread.wakeNow) (u c s x).1)
    (fun c s x => (u c s x).2.fate fun _ => .done) ∧
  DoesEach (.cctl w) 0x20D w Ctx.inOrder Ctx.always
    (fun c s x => (s.quietPa c.b (va c x)).elim s (s.dropLine c.b w.mod.toNat)) (fun _ _ _ => .done) ∧
  Does (.prefetch w) 0x20E w Ctx.always Ctx.noEffect (fun _ _ _ => .done)) ∧
  (∀ (s : State) (c : Ctx) (tid : Nat) (q : Parked) (b : Block),
  s.block? c.iss.blk = some b →
  let r := s.park c tid none q
  let p : Parked := { q with op := c.op, w := c.w, seq := s.choices }
  r.1.choices = s.choices + 1 ∧ r.1.mem = s.mem ∧
  (s.waitTableUse c.b.cluster < 1024 → r.2 = .wait (.parked p) ∧
    r.1.block? c.iss.blk = some (b.modTh tid fun th => { th with st := .parked, wait := some (.parked p) })) ∧
  (1024 ≤ s.waitTableUse c.b.cluster → r.2 = .wait (.parked { p with polled := true, pollAt := s.clock.time + 2000 }) ∧
    ∃ b', r.1.block? c.iss.blk = some b' ∧ b'.threads = b.threads ∧
      b'.regs.wtovf.toNat = min (b.regs.wtovf.toNat + 1) (2 ^ 32 - 1)))

/-! ### Copies, the fetch unit, objects (R178 to R191, R327, R342 to R345) -/

/-- R185, R186: FPUT fills an empty future, FGET answers a full one or parks, FTRY answers either; .take empties.
R186, R345: the fill of a future stores its value and makes it full; a take answers the value, empties it and
advances its generation; a count of waiters stops at 65,535. -/
def Obligations.Futures : Prop :=
  (∀ w : CWord,
  let take := w.modF 0 1 == 1
  let kind : Kind := if take then .atomic else .read
  let p := w.imm.toNat % 8
  let v (c : Ctx) (x : Nat × Nat) : Nat := (c.b.th x.2).reg w.b.toNat 2
  let rp (c : Ctx) (s : State) (x : Nat × Nat) : State × (Fate ⊕ Nat) := s.reachFuture c x.2 (c.objAddr x.2) .atomic
  let rg (c : Ctx) (s : State) (x : Nat × Nat) : State × (Fate ⊕ Nat) := s.reachFuture c x.2 (c.objAddr x.2) kind
  let noted (c : Ctx) (s : State) (x : Nat × Nat) (pa : Nat) : State :=
    if take then s.noteWrite c.b x.2 (c.objAddr x.2) pa else s
  let taken (c : Ctx) (s : State) (x : Nat × Nat) (pa : Nat) : State × Nat :=
    (noted c ((rg c s x).1.takeFuture pa take).1 x pa, ((rg c s x).1.takeFuture pa take).2)
  let full (s : State) (pa : Nat) : Prop := s.futureState pa = 1
  let parked (c : Ctx) (s : State) (x : Nat × Nat) (pa : Nat) : State × Fate :=
    ((noted c (rg c s x).1 x pa).addWaiter (pa + 10)).park c x.2 none { kind := .fget, va := c.objAddr x.2, pa }
  DoesEach (.fput w) 0x283 w Ctx.inOrder (fun c s => s.mustDrain c true (w.modF 1 3) = false)
    (fun c s x => (rp c s x).2.elim (fun _ => (rp c s x).1) fun pa => if full (rp c s x).1 pa then
        (rp c s x).1.noteWrite c.b x.2 (c.objAddr x.2) pa
      else ((rp c s x).1.fillFuture pa (v c x)).noteWrite c.b x.2 (c.objAddr x.2) pa)
    (fun c s x => (rp c s x).2.elim id fun pa => if full (rp c s x).1 pa then
        (if take then .trap { cause := .futureDouble, addr := c.objAddr x.2, write := true, size := 16 } else .done [.p p false] 16)
      else .done [.p p true] 16) ∧
  DoesEach (.fget w) 0x284 w Ctx.inOrder Ctx.always
    (fun c s x => (rg c s x).2.elim (fun _ => (rg c s x).1) fun pa =>
      if full (rg c s x).1 pa then (taken c s x pa).1 else (parked c s x pa).1)
    (fun c s x => (rg c s x).2.elim id fun pa =>
      if full (rg c s x).1 pa then .done (wrV w.d.toNat 2 (taken c s x pa).2) 16 else (parked c s x pa).2) ∧
  DoesEach (.ftry w) 0x285 w Ctx.inOrder Ctx.always
    (fun c s x => (rg c s x).2.elim (fun _ => (rg c s x).1) fun pa =>
      if full (rg c s x).1 pa then (taken c s x pa).1 else noted c (rg c s x).1 x pa)
    (fun c s x => (rg c s x).2.elim id fun pa =>
      if full (rg c s x).1 pa then .done (.p p true :: wrV w.d.toNat 2 (taken c s x pa).2) 16 else .done [.p p false] 16)) ∧
  (∀ (s : State) (pa v : Nat), s.mem.wf = true →
  (s.fillFuture pa v).valPa pa 8 = v % 2 ^ 64 ∧ (s.fillFuture pa v).futureState pa = 1 ∧
  (s.fillFuture pa v).valPa (pa + 12) 4 = s.valPa (pa + 12) 4 ∧
  (s.takeFuture pa true).2 = s.valPa pa 8 ∧ (s.takeFuture pa true).1.futureState pa = 0 ∧
  (s.takeFuture pa true).1.valPa (pa + 12) 4 = (s.valPa (pa + 12) 4 + 1) % 2 ^ 32 ∧
  s.takeFuture pa false = (s, s.valPa pa 8) ∧
  (s.addWaiter pa).valPa pa 2 = min (s.valPa pa 2 + 1) 65535)

/-- R187, R342 to R344: each thread of an MBSEND or MBRECV acts in turn. One that finds room sends its 64 bytes,
raises TAIL and answers true, one that finds none answers false; one that finds a message takes it into the
scratchpad, raises HEAD and answers true, and with .try one that finds none answers false. -/
def Obligations.Mailboxes : Prop :=
  ∀ w : CWord,
  DoesEach (.mbsend w) 0x286 w Ctx.inOrder Ctx.always (fun c s x => (s.mbsendAct c x).1) (fun c s x => (s.mbsendAct c x).2) ∧
  DoesEach (.mbrecv w) 0x287 w Ctx.inOrder Ctx.always (fun c s x => (State.mbrecvAct none c s x).1)
    (fun c s x => (State.mbrecvAct none c s x).2) ∧
  ∀ (c : Ctx) (s u : State) (x : Nat × Nat) (pa : Nat), c.w = w →
    let va := c.objAddr x.2
    let off := (c.b.th x.2).reg w.b.toNat 1
    let p := w.imm.toNat % 8
    let slot (n : Nat) : DWord := BitVec.ofNat 64 (va.toNat + 64 + 64 * (n % u.mbCap pa))
    (c.messageFault va off false = none → s.reachMailbox c x.2 va .atomic 0 false = (u, .inr pa) →
      (u.mbCap pa ≤ u.mbUsed pa → s.mbsendAct c x = (u.noteWrite c.b x.2 va pa, .done [.p p false] 64)) ∧
      (∀ (v : State) (spa : Nat), u.mbUsed pa < u.mbCap pa → w.modF 1 3 < 3 ∨ c.b.acks = [] →
        u.reach c.b x.2 (slot (u.mbTail pa)) 64 64 .write true = (v, .pa spa) → v.health.bad = [] → v.health.soft = [] →
        s.mbsendAct c x = ((((v.writePa spa (c.b.scratch.read off 64)).putPa (pa + 8) 8
            ((v.writePa spa (c.b.scratch.read off 64)).mbTail pa + 1)).noteWrite c.b x.2 va pa [] [spa / 128]).wake
            (fun q => q.kind == .mbrecv && q.pa == pa), .done [.p p true] 64))) ∧
    (c.messageFault va off true = none → s.reachMailbox c x.2 va .atomic 0 true = (u, .inr pa) →
      (u.mbUsed pa = 0 → w.modF 0 1 = 1 → State.mbrecvAct none c s x = (u.noteWrite c.b x.2 va pa, .done [.p p false] 64)) ∧
      (u.mbUsed pa = 0 → w.modF 0 1 = 0 → State.mbrecvAct none c s x =
        ((u.noteWrite c.b x.2 va pa).addWaiter (pa + 0x16)).park c x.2 none
          { kind := .mbrecv, va, pa, arg := BitVec.ofNat 64 off }) ∧
      (∀ (v : State) (spa : Nat), u.mbUsed pa ≠ 0 → u.reach c.b x.2 (slot (u.mbHead pa)) 64 64 .read true = (v, .pa spa) →
        let got := v.scratchWrite c.iss.blk off (v.readPa spa 64)
        State.mbrecvAct none c s x =
          ((got.putPa pa 8 (got.mbHead pa + 1)).noteWrite c.b x.2 va pa, .done [.p p true] 64)))

/-- R188, R326, R327: each thread of a TSPAWN acts in turn, while no child starts inline; one whose queue has room
moves the portions that its task record names, sends the task and answers true; one that finds no room runs the child
inline, where the depth allows it and the child is ready at once, and else parks. A child that starts is registered and
ready at its producer's priority, and the producer's block stands until it has ended. R327: a thread's portions leave its block's reels, a supervisor's its envelope's pools,
and no more than they hold. -/
def Obligations.TaskSpawns : Prop :=
  (∀ w : CWord,
  DoesEach (.tspawn w) 0x288 w Ctx.inOrder
    (fun c s => ∀ b, (c.on.foldl (turnOf (fun s x => (State.tspawnAct none c s x).1) fun s x => (State.tspawnAct none c s x).2) s).block?
      c.iss.blk = some b → b.inline = none)
    (fun c s x => (State.tspawnAct none c s x).1) (fun c s x => (State.tspawnAct none c s x).2) ∧
  ∀ (c : Ctx) (s s0 u v : State) (x : Nat × Nat) (b : Block) (rp rpa pa : Nat), c.w = w →
    let record := c.objAddr x.2
    let queue := BitVec.ofNat 64 ((c.b.th x.2).reg w.b.toNat 2)
    s.block? c.iss.blk = some b → b.inline = none → record.toNat < 2 ^ 57 → queue.toNat < 2 ^ 57 →
    record.toNat % 128 = 0 → queue.toNat % 64 = 0 →
    s.locate c.b x.2 record 128 128 .read true = (s0, .pa rp) → s0.reachMailbox c x.2 queue .read 1 false = (u, .inr pa) →
    u.letIn c.b x.2 record rp 128 .read = (v, .pa rpa) →
    let i := v.valPa (rpa + 0x48) 8
    let t := v.valPa (rpa + 0x50) 8
    let prio := ((v.task? c.b.task).map (·.priority)).getD 0
    (∀ (v' y : State) (sp spa : Nat), v.mbUsed pa < v.mbCap pa → c.b.acks = [] →
      let slot := BitVec.ofNat 64 (slotOf queue.toNat (v.mbTail pa) (v.mbCap pa))
      v.locate c.b x.2 slot 64 64 .read true = (v, .pa sp) → v.letIn c.b x.2 slot sp 64 .write = (v', .pa spa) →
      v'.movePortions c.b i t = .inl y →
      State.tspawnAct none c s x =
        (((y.writePa spa (spawnMsg c.b prio record i t).bytes).putPa (pa + 8) 8
          (y.mbTail pa + 1)).noteWrite c.b x.2 queue pa [] [spa / 128],
          .done [.p (w.imm.toNat % 8) true] 128)) ∧
    (v.mbCap pa ≤ v.mbUsed pa → c.b.regs.inlmax.toNat ≤ c.b.regs.inldepth.toNat → State.tspawnAct none c s x =
      ((v.noteWrite c.b x.2 queue pa).addWaiter (pa + 0x18)).park c x.2 none { kind := .tspawn, va := queue, pa, arg := record }) ∧
    (v.mbCap pa ≤ v.mbUsed pa → c.b.regs.inldepth.toNat < c.b.regs.inlmax.toNat →
      (c.b.acks ≠ [] → State.tspawnAct none c s x = (v, .again)) ∧
      (c.b.acks = [] → State.tspawnAct none c s x = match v.runInline c.b x.2 (w.imm.toNat % 8) (spawnMsg c.b prio record i t) with
        | .started y => (y, .stay)
        | .failed y => (y.modBlock c.iss.blk fun b => { b with inline := some (0, w.imm.toNat % 8), failedBy := some x.2 }, .stay)
        | .trap k => (v, .trap { cause := k, addr := record, size := 128 })
        | .stall y k => (y, .stall k)
        | .notReady => ((v.noteWrite c.b x.2 queue pa).addWaiter (pa + 0x18)).park c x.2 none
            { kind := .tspawn, va := queue, pa, arg := record }))) ∧
  (∀ (s u : State) (b b0 : Block) (tid p : Nat) (m : Msg), s.block? b.id = some b0 → s.runInline b tid p m = .started u →
    (∀ t ∈ s.sched.tasks, t.id ≠ s.sched.nextTask) → ∃ child b', child ∈ u.sched.tasks ∧ child.id = s.sched.nextTask ∧ child.record = m.task ∧ child.parent = some (b.id, tid) ∧
      child.registered = true ∧ child.ready = true ∧ child.priority = m.prio ∧
      u.block? b.id = some b' ∧ b'.inline = some (child.id, p)) ∧
  (∀ (s : State) (b b0 : Block) (i t : Nat), s.block? b.id = some b0 →
  (b.cfg.super = false → b0.regs.ireel.toNat < i ∨ b0.regs.treel.toNat < t → s.movePortions b i t = .inr .reelOverdraft) ∧
  (b.cfg.super = true → (s.env b.cfg.envelope).ipool < i ∨ (s.env b.cfg.envelope).tpool < t →
    s.movePortions b i t = .inr .envelopeQuota) ∧
  (b.cfg.super = false → i ≤ b0.regs.ireel.toNat → t ≤ b0.regs.treel.toNat → ∃ u b1, s.movePortions b i t = .inl u ∧
    u.block? b.id = some b1 ∧ b1.regs.ireel.toNat + i = b0.regs.ireel.toNat ∧ b1.regs.treel.toNat + t = b0.regs.treel.toNat ∧
    u.envs = s.envs ∧ u.mem = s.mem) ∧
  (b.cfg.super = true → i ≤ (s.env b.cfg.envelope).ipool → t ≤ (s.env b.cfg.envelope).tpool → ∃ u, s.movePortions b i t = .inl u ∧
    (u.env b.cfg.envelope).ipool + i = (s.env b.cfg.envelope).ipool ∧
    (u.env b.cfg.envelope).tpool + t = (s.env b.cfg.envelope).tpool ∧ u.blocks = s.blocks ∧ u.mem = s.mem))

/-- R189, R191: BARI sets a record's count, BARA adds to it and answers the generation, BARW completes when the
generation has moved on and else parks. R189: a record whose arrivals have reached its count, with no beats
outstanding, advances its generation and starts again at no arrivals; any other stays as it is. -/
def Obligations.BarrierRecords : Prop :=
  (∀ w : CWord,
  let r (k : Kind) (c : Ctx) (s : State) (x : Nat × Nat) : State × Got :=
    s.reach c.b x.2 (BitVec.ofNat 64 (c.rb.ureg w.a.toNat)) 16 16 k (k == .atomic)
  let a := r .atomic
  let q := r .read
  let count (c : Ctx) : Nat := if w.bsel = 2#2 then w.imm.toNat else c.rb.ureg w.b.toNat % 2 ^ 32
  let n (c : Ctx) (x : Nat × Nat) : Nat := if w.bsel = 2#2 then w.imm.toNat else (c.b.th x.2).reg w.b.toNat 1
  let at' (c : Ctx) : DWord := BitVec.ofNat 64 (c.rb.ureg w.a.toNat)
  let wait (c : Ctx) (s : State) (x : Nat × Nat) (pa : Nat) : State × Fate :=
    (q c s x).1.park c x.2 none { kind := .barw, va := at' c, pa, val := BitVec.ofNat 64 (n c x) }
  DoesEach (.bari w) 0x289 w Ctx.inOrder Ctx.always
    (fun c s x => (a c s x).2.state (a c s x).1 fun pa =>
      (((a c s x).1.putPa (pa + 4) 4 (count c)).putPa (pa + 8) 4 0).noteWrite c.b x.2 (at' c) pa)
    (fun c s x => (a c s x).2.fate fun _ => .done [] 16) ∧
  DoesEach (.bara w) 0x28A w Ctx.inOrder (fun c s => s.mustDrain c true (w.modF 0 3) = false)
    (fun c s x => (a c s x).2.state (a c s x).1 fun pa => (((a c s x).1.putPa (pa + 8) 4
      (min ((a c s x).1.valPa (pa + 8) 4 + n c x) (2 ^ 32 - 1))).checkBarrier pa).noteWrite c.b x.2 (at' c) pa)
    (fun c s x => (a c s x).2.fate fun pa => .done (wrV w.d.toNat 1 ((a c s x).1.valPa pa 4)) 16) ∧
  DoesEach (.barw w) 0x28B w Ctx.inOrder Ctx.always
    (fun c s x => (q c s x).2.state (q c s x).1 fun pa => if (q c s x).1.valPa pa 4 ≠ n c x then
      (q c s x).1.modBlock c.iss.blk (fun b => { b with epoch := b.epoch + 1 }) else (wait c s x pa).1)
    (fun c s x => (q c s x).2.fate fun pa => if (q c s x).1.valPa pa 4 ≠ n c x then .done [] 16 else (wait c s x pa).2)) ∧
  (∀ (s : State) (pa : Nat), s.mem.wf = true →
  let met := s.valPa (pa + 4) 4 ≤ s.valPa (pa + 8) 4 ∧ s.valPa (pa + 12) 4 = 0
  (met → (s.checkBarrier pa).valPa pa 4 = (s.valPa pa 4 + 1) % 2 ^ 32 ∧ (s.checkBarrier pa).valPa (pa + 8) 4 = 0 ∧
    (s.checkBarrier pa).valPa (pa + 4) 4 = s.valPa (pa + 4) 4) ∧
  (¬ met → s.checkBarrier pa = s) ∧
  (∀ a, a < pa ∨ pa + 16 ≤ a → (s.checkBarrier pa).mem.get a = s.mem.get a))

/-- R178, R190: each thread of an ACOPY acts in turn. With legal operands the copy is accepted under a promise of
its own, its bytes are charged, its beats added to the linked record; one of no bytes is complete at once. R181:
AQFENCE.wait stands until the thread's copies on the masked queues are complete; AQFENCE.order notes the copies that
later ones of the thread on these queues follow. -/
def Obligations.CopiesAccepted : Prop :=
  (∀ w : CWord,
  DoesEach (.acopy w) 0x280 w Ctx.inOrder Ctx.always (fun c s x => (s.acopyAct c x).1) (fun c s x => (s.acopyAct c x).2) ∧
  ∀ (c : Ctx) (s : State) (x : Nat × Nat), c.w = w →
    let th := c.b.th x.2
    let r (n : Nat) : DWord := BitVec.ofNat 64 (th.reg n 2)
    let src := r w.a.toNat
    let dst := r (w.a.toNat + 2)
    let len := th.reg w.b.toNat 1
    let link := r (w.b.toNat + 2)
    let kind := w.modF 3 2
    let inside (a : DWord) : Prop := a.toNat < 2 ^ 32 ∧ a.toNat + len ≤ c.b.cfg.scratch
    th.reg (w.b.toNat + 1) 1 = 0 → (if kind = 2 then inside src else src.toNat < 2 ^ 57) →
    (if kind = 1 then inside dst else dst.toNat < 2 ^ 57) → c.b.acks = [] →
    let copy (s : State) : Copy := { id := s.eng.nextCopy, blk := c.iss.blk, task := c.b.task, env := c.b.cfg.envelope, tid := x.2
                                     pc := c.pc, queue := w.modF 0 3, unit := c.b.cluster, kind, src, dst, len, beats := (len + 63) / 64, record := link
                                     promise := some (s.clock.time + Config.promise s.choices)
                                     after := ((th.fences.filter fun f => f.1.testBit (w.modF 0 3)).map (·.2)).flatten }
    let accepted (s : State) : State × Fate :=
      ({ s with eng := { s.eng with copies := s.eng.copies ++ [copy s], nextCopy := s.eng.nextCopy + 1 }, choices := s.choices + 1 },
        .done (wrV w.d.toNat 2 (s.clock.time + Config.promise s.choices)) len)
    (link = 0#64 → len = 0 → s.acopyAct c x = (s, .done (wrV w.d.toNat 2 s.clock.time) 0)) ∧
    (link = 0#64 → len ≠ 0 → s.acopyAct c x = accepted s) ∧
    (∀ u pa, link ≠ 0#64 → link.toNat < 2 ^ 57 → link.toNat % 16 = 0 → s.reach c.b x.2 link 16 16 .atomic = (u, .pa pa) →
      u.valPa (pa + 12) 4 + (len + 63) / 64 < 2 ^ 32 → len ≠ 0 →
      s.acopyAct c x = accepted (u.putPa (pa + 12) 4 (u.valPa (pa + 12) 4 + (len + 63) / 64)))) ∧
  (∀ w : CWord,
  let mask := w.imm.toNat % 256
  let own (c : Ctx) (s : State) (x : Nat × Nat) : List Nat :=
    (s.eng.copies.filter fun k => k.blk == c.iss.blk && k.tid == x.2 && mask.testBit k.queue).map (·.id)
  Does (.aqfence w) 0x281 w (fun _ _ => w.modF 0 1 = 1) Ctx.noEffect (fun c s x => if own c s x = [] then .done else .stay) ∧
  Does (.aqfence w) 0x281 w (fun _ _ => w.modF 0 1 = 0)
    (fun c s => c.on.foldl (fun s x => if own c s x = [] then s
      else s.modTh c.iss.blk x.2 fun th => { th with fences := th.fences ++ [(mask, own c s x)] }) s) (fun _ _ _ => .done))

/-- R182, R183: each thread of a FETCH acts in turn. Inside its array, or clamped to it, an element of a plain
format is read at its row and column and converted; outside, edge 0 gives zero and edge 2 traps; another descriptor
traps. -/
def Obligations.Fetches : Prop :=
  ∀ w : CWord,
  DoesEach (.fetch w) 0x282 w Ctx.inOrder Ctx.always (fun c s x => (s.fetchAct c x).1) (fun c s x => (s.fetchAct c x).2) ∧
  ∀ (c : Ctx) (s u : State) (x : Nat × Nat) (bs : List Byte), c.w = w →
    let handle := BitVec.ofNat 64 (c.rb.ureg w.a.toNat)
    let px := (c.b.th x.2).reg w.b.toNat 1
    let py := (c.b.th x.2).reg (w.b.toNat + 1) 1
    let raw := w.ty == .b32 || w.ty == .b64
    s.unitRead c.b x.2 handle 64 64 = (u, .inr bs) →
    (Desc.ofBytes bs = none → s.fetchAct c x = (u, .trap { cause := .reservedField, addr := handle })) ∧
    ∀ d t, Desc.ofBytes bs = some d → d.ty = some t → (raw = true → d.bits ≤ w.ty.bits) →
      let out := d.width ≤ px ∨ d.height ≤ py
      let ex := min px (d.width - 1)
      let ey := min py (d.height - 1)
      (out → d.edge = 0 → s.fetchAct c x = (u, .done (wrV w.d.toNat w.ty.regs 0) (4 * w.ty.regs))) ∧
      (out → d.edge = 2 → s.fetchAct c x = (u, .trap { cause := .accessViolation, addr := handle })) ∧
      (∀ v eb, ¬ out ∨ d.edge = 1 → (unscaled t).isNone ∨ raw = true →
        u.unitRead c.b x.2 (BitVec.ofNat 64 (d.base + ey * d.pitch + ex * d.bits / 8)) (max 1 (d.bits / 8)) 1 = (v, .inr eb) →
        s.fetchAct c x = (v, .done (wrV w.d.toNat w.ty.regs (elemResult w.ty (some t) (nibbleOr d.bits ex eb) none)) (4 * w.ty.regs)))

/-! ### The matrix engine, sparsity, sorting (R193 to R208) -/

/-- R201, R202: TLD and TST move the 64 rows of a tile, each at its multiple of the pitch, in order, and end any cut
transfer; a misaligned address or pitch stops every thread, and moves nothing. R202: a fault at a row stops every
thread there with the rows before it moved, and the transfer is cut at that row; so it is where a row waits for an
answer. R202: reissued at its own place, a cut transfer goes on from its row, and any other issue begins at row 0.
R415: a tile loaded whole holds no error. R195: while the engine performs an issue of other threads, an instruction
of the engine waits. -/
def Obligations.TileTransfers : Prop :=
  (∀ w : CWord,
  let b (c : Ctx) : Block := c.b.enterEngine c
  let addr (c : Ctx) : DWord := BitVec.ofNat 64 (c.rb.ureg w.a.toNat) + w.imm.signExtend 64
  let pitch (c : Ctx) : Nat := if c.rb.ureg w.b.toNat % 2 ^ 32 = 0 then 64 else c.rb.ureg w.b.toNat % 2 ^ 32
  let aligned (c : Ctx) : Prop := (addr c).toNat % 64 = 0 ∧ pitch c % 64 = 0
  let on (c : Ctx) : List Nat := c.on.map (·.2)
  let tid (c : Ctx) : Nat := (on c).headD 0
  let va (c : Ctx) (r : Nat) : DWord := addr c + BitVec.ofNat 64 (r * pitch c)
  -- the rows from `m` to `n` are reached, from the state that the engine's entry leaves; no thread's earlier write to
  -- their lines waits for its acknowledgement
  let reached (k : Kind) (m n : Nat) (st : Nat → Ctx → State → State) (pa : Ctx → Nat → Nat) (c : Ctx) (s : State) : Prop :=
    c.engineBusy = false ∧ aligned c ∧ ((b c).resumeRow c).1 = m ∧ st m c s = c.enter s ∧
    ∀ r, m ≤ r → r < n → (st r c s).reach (b c) (tid c) (va c r) 64 64 k = (st (r + 1) c s, .pa (pa c r)) ∧
      (k = .write → ∀ t ∈ on c, (b c).holdsLine t (pa c r / 128) = false)
  let rows (m n : Nat) : List Nat := (List.range (n - m)).map (m + ·)
  let loaded (m n : Nat) (pa : Ctx → Nat → Nat) (c : Ctx) (s : State) : State := s.modBlock c.iss.blk fun x => { x with
    tiles := (rows m n).foldl (fun t r => t.write (4096 * w.d.toNat + 64 * r) (s.readPa (pa c r) 64)) x.tiles }
  let stored (m n : Nat) (pa : Ctx → Nat → Nat) (c : Ctx) (s : State) : State := (rows m n).foldl (fun s r =>
    (s.writePa (pa c r) ((b c).tiles.read (4096 * w.d.toNat + 64 * r) 64)).noteWrite (b c) (tid c) (va c r) (pa c r) (on c)) s
  let ended (k : Kind) (c : Ctx) (s : State) : State := (if c.iss.handler then s else s.modBlock c.iss.blk fun x =>
    { x with rowprog := { x.rowprog with valid := false, side := false }, staging := [] }).heal fun u =>
      k == .read && u == .tile c.iss.blk w.d.toNat
  let cut (c : Ctx) (n : Nat) (s : State) : State := if c.iss.handler then s else s.modBlock c.iss.blk fun x =>
    { x with rowprog := { pcoff := (c.pc - BitVec.ofNat 64 x.cfg.code).setWidth 32, valid := true, side := false, row := n } }
  let moves (i : Instr) (op : Nat) (k : Kind) (put : Nat → Nat → (Ctx → Nat → Nat) → Ctx → State → State) : Prop :=
    (∀ m ≤ 64, ∀ st pa, Does i op w (fun c s => reached k m 64 st pa c s ∧ (put m 64 pa c (st 64 c s)).acksFit c)
      (fun c s => c.leave [] (ended k c (put m 64 pa c (st 64 c s)))) (fun _ _ _ => .done [] 128)) ∧
    (∀ n < 64, ∀ m ≤ n, ∀ st pa t, Does i op w (fun c s => reached k m n st pa c s ∧ (put m n pa c (st (n + 1) c s)).acksFit c ∧
        (st n c s).reach (b c) (tid c) (va c n) 64 64 k = (st (n + 1) c s, .no (.trap t)))
      (fun c s => c.leave [] (cut c n (put m n pa c (st (n + 1) c s)))) (fun _ _ _ => .stop t)) ∧
    (∀ n < 64, ∀ m ≤ n, ∀ st pa, ∀ wait : Fate, wait.within = true →
      Does i op w (fun c s => c.iss.handler = false ∧ reached k m n st pa c s ∧ (put m n pa c (st (n + 1) c s)).acksFit c ∧
        (st n c s).reach (b c) (tid c) (va c n) 64 64 k = (st (n + 1) c s, .no wait))
      (fun c s => c.leave (c.onFates fun _ => wait) (cut c n (put m n pa c (st (n + 1) c s)))) (fun _ _ _ => wait)) ∧
    Does i op w (fun c _ => c.engineBusy = false ∧ ¬ aligned c) (fun c s => c.leave [] (c.enter s))
      (fun c _ _ => .stop { cause := .misaligned, addr := addr c, write := k == .write, size := 64, extra := 64#64 })
  let busy (i : Instr) (op : Nat) : Prop := DoesAll i op w (fun c _ => c.engineBusy = true) Ctx.noEffect (fun _ _ _ => .again)
  moves (.tld w) 0x302 .read loaded ∧ moves (.tst w) 0x303 .write stored ∧
  busy (.tld w) 0x302 ∧ busy (.tst w) 0x303 ∧ busy (.mma w) 0x300 ∧ busy (.mmasp w) 0x301 ∧ busy (.aclr w) 0x304 ∧
  busy (.ald w) 0x305 ∧ busy (.ast w) 0x306 ∧ busy (.ard w) 0x307 ∧ busy (.awr w) 0x308 ∧ busy (.aqnt w) 0x309) ∧
  (∀ c : Ctx, (c.b.enterEngine c).resumeRow c =
    if c.iss.handler = false ∧ c.b.rowprog.valid = true ∧ c.pc = BitVec.ofNat 64 c.b.cfg.code + c.b.rowprog.pcoff.setWidth 64
    then (c.b.rowprog.row, c.b.rowprog.side) else (0, false))

/-- R193, R201: ACLR clears rows of the block; ALD and AST move a row of each thread from and to memory, ARD and AWR
four elements of it from and to registers; a row outside the allocation traps. R195, R201: while a thread waits for an
answer the issue stands for all of its threads, with nothing moved. R414, R415: a row that is read in error traps its
thread, with its event; the errors of what is written whole end. -/
def Obligations.AccumulatorRows : Prop :=
  (∀ w : CWord,
  let e (c : Ctx) : Block := c.b.enterEngine c
  let row (k : Nat) (c : Ctx) (t : Nat) : Option Nat :=
    let r := c.rb.ureg k % 2 ^ 32 + w.modF 1 5 + (c.b.th t).reg w.b.toNat 1
    if r < c.b.cfg.rowAlloc then some r else none
  let addr (c : Ctx) (t : Nat) : DWord := BitVec.ofNat 64 ((c.b.th t).reg w.a.toNat 2) + w.imm.signExtend 64
  let none' : Fate := .trap { cause := .regIndex }
  let off (c : Ctx) (x : Nat × Nat) : Prop := c.on.contains x = false
  let n (c : Ctx) : Nat := if w.bsel = 2#2 then w.imm.toNat else c.b.ureg w.b.toNat % 2 ^ 32
  let first (c : Ctx) : Nat := c.b.ureg w.d.toNat % 2 ^ 32 + w.modF 1 5
  let q := w.imm.toNat % 16
  let put (c : Ctx) (s : State) (at' size : Nat) (f : Memory → Memory) : State :=
    (s.modBlock c.iss.blk fun b => { b with rows := f b.rows }).healRows c.iss.blk at' size
  let clear (c : Ctx) (s : State) (at' size : Nat) : State := put c s at' size (·.clear at' size)
  let met (c : Ctx) (s : State) : State := s.coreError c.b 1 0
  Does (.aclr w) 0x304 w (fun c _ => c.engineBusy = false ∧ (n c = 0 ∨ first c + n c ≤ c.b.cfg.rowAlloc))
    (fun c s => c.leave [] (if n c = 0 then c.enter s else clear c (c.enter s) (256 * first c) (256 * n c))) (fun _ _ _ => .done) ∧
  Does (.aclr w) 0x304 w (fun c _ => c.engineBusy = false ∧ n c ≠ 0 ∧ c.b.cfg.rowAlloc < first c + n c)
    (fun c s => c.leave [] (c.enter s)) (fun _ _ _ => none') ∧
  DoesRows (.ald w) 0x305 w
    (fun c s x => (row w.d.toNat c x.2).elim s fun r => if off c x then
        (if w.zeroing then clear c s (256 * r) 256 else s)
      else let a := s.readSpan (e c) x.2 (addr c x.2) 256 16
        a.2.elim (fun _ => a.1) fun bs => put c a.1 (256 * r) 256 (·.write (256 * r) bs))
    (fun c s x => (row w.d.toNat c x.2).elim none' fun _ =>
      (s.readSpan (e c) x.2 (addr c x.2) 256 16).2.elim id fun _ => .done [] 256) ∧
  DoesRows (.ast w) 0x306 w
    (fun c s x => (row w.d.toNat c x.2).elim s fun r => if off c x then s
      else if s.badRow c.iss.blk r then met c s
      else (s.writeSpan (e c) x.2 (addr c x.2) (c.b.rows.read (256 * r) 256) 16).1)
    (fun c s x => (row w.d.toNat c x.2).elim none' fun r => if s.badRow c.iss.blk r then .trap { cause := .uncorrectedData }
      else (s.writeSpan (e c) x.2 (addr c x.2) (c.b.rows.read (256 * r) 256) 16).2.getD (.done [] 256)) ∧
  DoesRows (.ard w) 0x307 w
    (fun c s x => (row w.a.toNat c x.2).elim s fun r =>
      if ¬ off c x ∧ s.badRow c.iss.blk r (16 * q) 16 = true then met c s else s)
    (fun c s x => (row w.a.toNat c x.2).elim none' fun r => if s.badRow c.iss.blk r (16 * q) 16 then .trap { cause := .uncorrectedData }
      else .done (wrV w.d.toNat 4 (c.b.rows.val (256 * r + 16 * q) 16))) ∧
  DoesRows (.awr w) 0x308 w
    (fun c s x => (row w.d.toNat c x.2).elim s fun r => if off c x ∧ w.zeroing = false then s
      else put c s (256 * r + 16 * q) 16 (·.put (256 * r + 16 * q) 16 (if off c x then 0 else (c.b.th x.2).reg w.a.toNat 4)))
    (fun c _ x => (row w.d.toNat c x.2).elim none' fun _ => .done)) ∧
  (∀ (s : State) (blk row off n : Nat), s.badRow blk row off n = true ↔
    ∃ k, ErrUnit.row blk k ∈ s.health.bad ∧ 256 * row + off < 8 * k + 8 ∧ 8 * k < 256 * row + off + n) ∧
  (∀ (s : State) (blk at' n : Nat) (u : ErrUnit), u ∈ (s.healRows blk at' n).health.bad ↔
    u ∈ s.health.bad ∧ ¬ ∃ k, u = .row blk k ∧ at' ≤ 8 * k ∧ 8 * k + 8 ≤ at' + n)

/-- R196 to R198: MMA and MMASP. B comes from its tiles, or from memory, whose rows are moved into staging first; each
thread in turn multiplies its row of A by B onto its accumulator row; a metadata byte with other than four bits set
traps every thread, a fault in the read of B stops them all. R34, R198: a float column is built k-block by k-block, each the
exact sum of its eight products, added with one rounding; a sum of zero leaves a finite element as it is. -/
def Obligations.MatrixProducts : Prop :=
  (∀ w : CWord,
  let c' (c : Ctx) : Ctx := c.entered
  let product (i : Instr) (op : Nat) (sparse : Bool) : Prop := ∀ (u : Ctx → State → State) (m : Ctx → State → BTile),
    let one (c : Ctx) (s v : State) (x : Nat × Nat) : State × Fate := v.productOf (c' c) sparse (m c s) x.2
    let go (c : Ctx) (s : State) : State → Nat × Nat → State := turnOf (fun v x => (one c s v x).1) (fun v x => (one c s v x).2)
    let f (c : Ctx) (s : State) (x : Nat × Nat) : Fate := (one c s (turn c.on (go c s) (u c s) x) x).2
    let read (c : Ctx) (s : State) : Prop := c.engineBusy = false ∧ (c.enter s).readB (c' c) sparse = (u c s, .inr (m c s)) ∧
      (sparse = true → (m c s).badMeta w.ty = false) ∧
      ∃ b1, (u c s).block? c.iss.blk = some b1 ∧ b1.cfg = c.b.cfg ∧ b1.threads.length = c.b.threads.length
    let all (c : Ctx) (s : State) : State := c.on.foldl (go c s) (u c s)
    Does i op w (fun c s => read c s ∧ (∀ x ∈ c.on, (f c s x).within = false) ∧ (all c s).acksFit c)
      (fun c s => c.leave (c.onFates (f c s)) (all c s)) f ∧
    DoesAll i op w (fun c s => read c s ∧ ∃ x ∈ c.on, (f c s x).within = true)
      (fun c s => c.leave c.holdAll ((u c s).stand (c' c) (all c s) (c.onFates (f c s)))) (fun _ _ _ => .again) ∧
    (sparse = true → Does i op w (fun c s => c.engineBusy = false ∧
        (c.enter s).readB (c' c) sparse = (u c s, .inr (m c s)) ∧ (m c s).badMeta w.ty = true ∧
        ∃ b1, (u c s).block? c.iss.blk = some b1 ∧ b1.cfg = c.b.cfg ∧ b1.threads.length = c.b.threads.length)
      (fun c s => c.leave [] (u c s)) (fun _ _ _ => .trap { cause := .reservedField })) ∧
    ∀ k : Fate, Does i op w (fun c s => c.engineBusy = false ∧ (c.enter s).readB (c' c) sparse = (u c s, .inl k) ∧
        (u c s).acksFit c ∧
        ∃ b1, (u c s).block? c.iss.blk = some b1 ∧ b1.cfg = c.b.cfg ∧ b1.threads.length = c.b.threads.length)
      (fun c s => c.leave (c.onFates fun _ => k.whole) (u c s)) (fun _ _ _ => k.whole)
  product (.mma w) 0x300 false ∧ product (.mmasp w) 0x301 true ∧
  (w.bsel ≠ 1#2 → ∀ (c : Ctx) (s : State) (sparse : Bool), c.w = w → s.readB c sparse = (s, .inr
    ⟨c.b.tiles.slice (4096 * w.b.toNat) 4096 0,
      if sideBytes sparse w.ty = 0 then [] else c.b.tiles.slice (4096 * (w.b.toNat + 1)) 4096 0⟩)) ∧
  (w.bsel = 1#2 → ∀ (c : Ctx) (s : State) (sparse : Bool) (m : Nat) (st : Nat → State) (pa : Nat → Nat) (b : Block),
    c.w = w → c.iss.handler = false → sideBytes sparse w.ty = 0 → c.b.resumeRow c = (m, false) → m ≤ 64 → st m = s →
    let p := if c.rb.ureg w.c % 2 ^ 32 = 0 then 64 else c.rb.ureg w.c % 2 ^ 32
    p % 64 = 0 → (∀ r, m ≤ r → r < 64 → (st r).reach c.b ((c.on.map (·.2)).headD 0)
      (BitVec.ofNat 64 (c.rb.ureg w.b.toNat) + BitVec.ofNat 64 (r * p)) 64 64 .read = (st (r + 1), .pa (pa r))) →
    (st 64).block? c.iss.blk = some b →
    s.readB c sparse = ((st 64).modBlock c.iss.blk Block.clearCut, .inr
      ⟨(((List.range (64 - m)).map (m + ·)).foldl (fun x r => x.write (64 * r) ((st 64).readPa (pa r) 64)) b.staging).slice 0 4096 0, []⟩)) ∧
  ∀ (c : Ctx) (s u v : State) (sparse : Bool) (m : BTile) (x : Nat × Nat) (row : Nat) (a sc : List Byte), c.w = w →
    let th := c.b.th x.2
    let addr := BitVec.ofNat 64 (th.reg w.a.toNat 2)
    let n := aScaleBytes sparse w.ty
    rowOf c.rb w.d.toNat w (th.reg (w.a.toNat + 2) 1) = some row →
    s.readSpan c.b x.2 addr (aRowBytes sparse w.ty) 16 = (u, .inr a) →
    (if n = 0 then v = u ∧ sc = [] else
      u.readSpan c.b x.2 (addr + (th.v.getD (w.a.toNat + 3) 0#32).signExtend 64) n 1 = (v, .inr sc)) →
    v.badRow c.iss.blk row = false →
    let out (b : Block) : Memory :=
      productRow sparse w.ty (w.modF 0 1 == 1) (b.rows.slice (256 * row) 256 0) (memOf a) (sc.map (·.toNat)) m
    let put (b : Block) : Block := { b with rows := b.rows.overlay (256 * row) 256 ((out b).slice 0 256 (256 * row)) }
    s.productOf c sparse m x.2 =
      (v.modBlock c.iss.blk put, .done [] (aRowBytes sparse w.ty + n + if w.bsel = 1#2 then 128 else 0))) ∧
  (∀ (sparse : Bool) (t : Ty) (a : Memory) (sc : List Nat) (m : BTile) (n acc : Nat), isIntTy t = false →
  let f : Fmt := if t = .f64 then .f64 else .f32
  let p (k : Nat) : Fp := match m.code sparse t n k with
    | none => Fp.zero false
    | some b => (elemValue t (elemCode t a 0 k) (if isScaled t then some (sc.getD (k / 8) 0) else none)).mul
        (elemValue t b (m.scale sparse t n (k / 8)))
  let block (acc j : Nat) : Nat :=
    let s := sumFp false ((List.range 8).map fun i => p (8 * j + i))
    if s.isZero = true ∧ f.decode acc ∉ [.nan, .inf false, .inf true] then acc else finishFloat f .rn 0 false false ((f.decode acc).add s false)
  column sparse t a sc m n acc = (List.range (depthOf sparse t / 8)).foldl block acc) ∧
  (∀ xs : List Fp,
  ((∀ x ∈ xs, x.finite) → (sumFp false xs).finite ∧ (sumFp false xs).toRat = (xs.map Fp.toRat).sum) ∧
  (Fp.nan ∈ xs → sumFp false xs = .nan) ∧
  (Fp.inf false ∈ xs → Fp.inf true ∈ xs → sumFp false xs = .nan) ∧
  (∀ neg, Fp.inf neg ∈ xs → Fp.inf (!neg) ∉ xs → Fp.nan ∉ xs → sumFp false xs = .inf neg))

/-- R33, R198: an integer column is the accumulator plus the exact sum of products, wrapped to 32 bits; a sparse one
sums the elements that the metadata stores. -/
def Obligations.IntegerColumns : Prop :=
  ∀ (sparse : Bool) (t : Ty) (a : Memory) (sc : List Nat) (m : BTile) (n acc : Nat),
  isIntTy t = true → acc < 2 ^ 32 →
  column sparse t a sc m n acc = wrap 32 (acc + ((List.range (depthOf sparse t)).map fun k =>
    match m.code sparse t n k with
    | none => (0 : Int)
    | some b => valOf t (elemCode t a 0 k) * valOf t b).sum)

/-- R204 to R206: AQNT quantises eight elements of a row under one scale, PRUNE marks the most salient of eight,
SPPACK packs the four that its mask keeps. R207: BSORT gives each participant the pair at its place in the stable
order of its sub-segment's keys, BMERGE that of the merge of its halves, INTSECT the position of the other half's
equal key; threads that disagree on the size leave the hazard mark. -/
def Obligations.SparsityAndSets : Prop :=
  (∀ w : CWord,
  let row (c : Ctx) (t : Nat) : Option Nat :=
    let r := c.rb.ureg w.a.toNat % 2 ^ 32 + w.modF 1 5 + (c.b.th t).reg w.b.toNat 1
    if r < c.b.cfg.rowAlloc then some r else none
  let bad (c : Ctx) (s : State) (r : Nat) : Bool := s.badRow c.iss.blk r (32 * (w.imm.toNat % 8)) 32
  let xs (c : Ctx) (r : Nat) : List Fp := (List.range 8).map fun i =>
    Fmt.f32.decode (c.b.rows.val (256 * r + 32 * (w.imm.toNat % 8) + 4 * i) 4)
  let bits := if w.ty = .e2m1x8 then 4 else 8
  let packed (size : Nat) (ys : List Nat) : Nat := ys.zipIdx.foldl (fun a y => a + y.1 * 2 ^ (size * y.2)) 0
  let th (c : Ctx) (x : Nat × Nat) : Thread := c.b.th x.2
  let keep (c : Ctx) (x : Nat × Nat) : Nat := if w.bsel = 1#2 then (th c x).reg w.c 1 else w.imm.toNat
  let sal (c : Ctx) (x : Nat × Nat) (i : Nat) : Nat :=
    saliency (fmt w.ty) (eighth w.ty (th c x) w.a.toNat i) (eighth w.ty (th c x) w.b.toNat i)
  let before (c : Ctx) (x : Nat × Nat) (i k : Nat) : Prop := sal c x i < sal c x k ∨ (sal c x i = sal c x k ∧ k < i)
  let mask (c : Ctx) (x : Nat × Nat) : Nat := (th c x).reg w.b.toNat 1 % 256
  DoesRows (.aqnt w) 0x309 w
    (fun c s x => (row c x.2).elim s fun r =>
      if c.on.contains x = true ∧ bad c s r = true then s.coreError c.b 1 0 else s)
    (fun c s x => (row c x.2).elim (.trap { cause := .regIndex }) fun r =>
      if bad c s r then .trap { cause := .uncorrectedData }
      else .done (wrV w.d.toNat (if w.ty = .e2m1x8 then 2 else 4)
        (packed bits (quantise w.ty (xs c r)).2 + 2 ^ (8 * bits) * (quantise w.ty (xs c r)).1))) ∧
  (∀ out : Ctx → Nat × Nat → Nat, (∀ c x, out c x < 256 ∧
      ∀ i < 8, (out c x).testBit i = true ↔ ((List.range 8).countP fun k => decide (before c x i k)) < keep c x) →
    Does (.prune w) 0x30A w Ctx.always Ctx.noEffect
      (fun c _ x => if 8 < keep c x then .trap { cause := .reservedField } else .done (wrV w.d.toNat 1 (out c x)))) ∧
  Does (.sppack w) 0x30B w Ctx.always Ctx.noEffect (fun c _ x =>
    if ((List.range 8).countP fun i => (mask c x).testBit i) ≠ 4 then .trap { cause := .reservedField }
    else .done (wrV w.d.toNat (if w.ty.isFloat then 2 else 1)
      (packed (if w.ty.isFloat then 16 else if w.ty = .e2m1x8 then 4 else 8)
        (((List.range 8).filter fun i => (mask c x).testBit i).map (eighth w.ty (th c x) w.a.toNat)))))) ∧
  (∀ w : CWord,
  let g (c : Ctx) : Nat := c.subSize.1
  let eff (c : Ctx) (s : State) : State := if c.subSize.2 then s.modBlock c.iss.blk fun b =>
    { b with regs := { b.regs with ustat := b.regs.ustat ||| 1#32 } } else s
  let ps (c : Ctx) (x : Nat × Nat) : List (Nat × Nat) := c.sub (g c) x.1
  let val (c : Ctx) (y : Nat × Nat) : List Wr := wrV w.d.toNat w.ty.regs (c.srcA y.2) ++
    if w.modF 1 1 = 1 then wrV w.e 1 ((c.b.th y.2).reg w.b.toNat 1) else []
  let pick (c : Ctx) (x : Nat × Nat) (out : List (Nat × Nat)) : Fate := .done (val c (out.getD ((ps c x).idxOf x) x))
  let low (c : Ctx) (y : Nat × Nat) : Bool := decide (y.1 % g c < g c / 2)
  let hit (c : Ctx) (x : Nat × Nat) : Option (Nat × Nat) := if g c = 1 then none
    else (ps c x).find? fun y => low c y != low c x && c.srcA y.2 == c.srcA x.2
  (∀ out : Ctx → Nat × Nat → List (Nat × Nat), (∀ c x, (out c x).Perm (ps c x) ∧
      (out c x).Pairwise fun y z => c.keyLe y z = true ∧ (c.keyLe z y = true → y.1 ≤ z.1)) →
    Does (.bsort w) 0x30D w (fun c _ => (c.act.map (·.1)).Nodup) eff (fun c _ x => pick c x (out c x))) ∧
  Does (.bmerge w) 0x30E w Ctx.always eff (fun c _ x => pick c x (mergeBy c.keyLe ((ps c x).length + 1)
    ((ps c x).filter (low c)) ((ps c x).filter fun y => !low c y))) ∧
  Does (.intsect w) 0x30C w Ctx.always eff (fun c _ x => .done (wrV w.d.toNat w.ty.regs
      (((hit c x).map (·.1 % c.segSize)).getD 0xFFFFFFFF) ++
    if w.modF 1 1 = 1 then wrV w.e 1 (((hit c x).map fun y => (c.b.th y.2).reg w.b.toNat 1).getD 0) else [])))

/-! ### Events of a core (R48, R54, R65, R108, R113, R174 to R180, R210 to R226) -/

/-- R48, R54, R65, R68, R212, R214, R221, R226: results arrive and lower their flag; a code line that a thread needs is
filled; an entry that is no instruction traps; pools of the table that are not overtaken form, a due one after a
rotation of each section that is full; halves that have issued 64 times dissolve. A plait that forms holds its pool's
oldest threads, by rank. R221, R224: rotation dissolves the plait that is longest in its slot, and its threads keep
their registers and enter pools with age zero. Each of the seven events answers a next state under conditions on the
state and the event's operands alone. -/
def Obligations.CoreEvents : Prop :=
  ∀ (s : State) (blk : Nat) (b : Block), s.block? blk = some b →
  (∀ tid k o, (b.th tid).outst[k]? = some o → b.has tid →
    ∃ t b', exec (.resultArrival blk tid k) s = .next t ∧ t.block? blk = some b' ∧
      b'.th tid = ({ b.th tid with outst := (b.th tid).outst.eraseIdx k } : Thread).deliver o ∧
      (∀ n, n ≠ tid → b'.th n = b.th n) ∧ { t with blocks := s.blocks } = s ∧
      (o.regs = [] → o.pred = none → exec (.accessAccepted blk tid k) s = .next t)) ∧
  (∀ (u : State) (line : Nat) (c : CodeLine), line % 64 = 0 → line < 2 ^ 64 → s.lineCached b.place.core b.task line = false →
    (s.blocks.find? fun x => x.place.core == b.place.core && x.task == b.task && x.place.resident && x.needsLine line) = some b →
    s.readLine b line = (u, some c) →
    (∀ v d, u.fillWith c = (v, some d) → exec (.lineFill b.place.core b.task (BitVec.ofNat 64 line)) s =
      .next (if d.fault.isSome then v.cacheLine d else (v.cacheLine d).prefetchLine b line d.bytes)) ∧
    (∀ v, u.fillWith c = (v, none) → exec (.lineFill b.place.core b.task (BitVec.ofNat 64 line)) s = .next v)) ∧
  (∀ iss (k : Cause), s.cur = some iss → (k = .illegalOp ∨ k = .illegalGuard ∨ k = .reservedField ∨ k = .illegalType ∨ k = .runOffEnd) →
    exec (.notAnInstruction k) s = .next (s.failThreads iss.blk iss.handler (iss.ths.map fun x => (x.2, { cause := k })))) ∧
  (let u := s.refreshPools blk
   (∀ pc group, u.hasEntry b pc group = true → u.mayForm b pc group = true →
    exec (.plaitFormation blk pc group) s = .next ((u.form blk pc group).refreshPools blk)) ∧
   (∀ pc group, u.isDue b pc group = true → u.mayForm b pc group = true → exec (.poolDue blk pc group) s =
    .next ((((b.sectionsOf pc group).foldl (fun v k => if v.slotsUsed b.place.core k < 16 then v else v.rotateSection b.place.core k)
      u).form blk pc group).refreshPools blk))) ∧
  (∀ p, (b.plaits.find? (·.id == p.id)) = some p → p.other.isSome = true → 64 ≤ p.issues → b.outsideClause p = true →
    exec (.splitLimit blk p.id) s = .next ((s.modBlock blk (·.dissolve p.id)).refreshPools blk)) ∧
  (∀ pc t rest, b.pool pc none = t :: rest → b.running = true → 1 ≤ b.place.grant → b.place.grant ≤ 64 →
    s.slotsUsed b.place.core (t % 4) < 16 → ∃ p b', (s.form blk pc none).block? blk = some b' ∧ b'.plaits = b.plaits ++ [p] ∧
      p.ths.map (·.1) = List.range p.ths.length ∧ p.ths.length = min (rest.length + 1) b.place.grant ∧
      (p.ths.map (·.2)).Pairwise (· < ·) ∧ (∀ x ∈ p.ths, x.2 ∈ t :: rest) ∧ t ∈ p.ths.map (·.2) ∧ p.sect = t % 4 ∧
      ∀ n, b'.th n = if n ∈ p.ths.map (·.2) then { b.th n with order := 0, asks := false } else b.th n) ∧
  (∀ core sect p rest, s.sectionPlaits core sect = (blk, p) :: rest → (∀ x ∈ (blk, p) :: rest, x.2.victim = false) →
    b.outsideClause p = true → b.hadTurn p = true → (b.plaits.find? (·.id == p.id)) = some p → p.other = none →
    (∀ x ∈ p.ths, x.2 < b.threads.length ∧ x.2 ≠ b.cfg.bsize) → (b.plaits.map (·.id)).Nodup →
    ∃ b', (s.rotateSection core sect).block? blk = some b' ∧ b'.plaits = b.plaits.filter (·.id != p.id) ∧
      ∀ n, b'.th n = if n ∈ p.ths.map (·.2) then { b.th n with age := b.cycles } else b.th n)

/-- R108, R113, R174 to R176, R339, R413: what time and wakes bring to threads, blocks and tasks. R179, R180, R190:
a copy that nothing stops moves a segment of its bytes; one that is finished, acknowledged by
the packages it wrote to and has kept its promise is gone; one that has missed it stops its block, and its promise is
void; that of a block that has ended lapses (log 64). -/
def Obligations.TimersAndCopies : Prop :=
  (∀ (s : State) (blk : Nat) (b : Block), s.block? blk = some b →
  let now := s.clock.time
  let free (q : Parked) : Prop := b.place.resident = true ∧ b.ended = false ∧ b.saved = none ∧ b.trap.stopped = false ∧
    ∃ tid, (b.th tid).wait = some (.parked q)
  (∀ tid target, (b.th tid).wait = some (.sleep target) → tid ≠ b.cfg.bsize → b.up = true → target ≤ now →
    s.promiseFirst blk target = false →
    exec (.sleepWake blk tid) s = .next (((s.modTh blk tid fun th => th.resume (s.waitLen b tid) b.cycles).charge blk
      (weightOf 0x011) 0).refreshPools blk)) ∧
  (∀ target, b.handler.wait = some (.sleep target) → b.trap.level ≠ 0 → b.place.resident = true → b.saved = none → target ≤ now →
    exec (.sleepWake blk b.cfg.bsize) s =
      .next (s.modTh blk b.cfg.bsize fun th => th.resume (s.waitLen b b.cfg.bsize) b.cycles)) ∧
  (b.up = true → b.regs.wdog.toNat ≠ 0 → b.regs.wdog.toNat * 1024 ≤ b.wdrun → exec (.watchdog blk) s =
    .next (s.trapBlock blk { info := { cause := .watchdog }, thr := b.lowest, pc := (b.th b.lowest).pc })) ∧
  (∀ tid q, (b.th tid).wait = some (.parked q) → free q → q.woken = true →
    (q.kind = .waitaddr → exec (.waitaddrWake blk tid) s = .next (s.reperform blk tid q)) ∧
    (q.kind ≠ .waitaddr → exec (.parkedWake blk tid) s = .next (s.reperform blk tid q))) ∧
  (∀ tid q, (b.th tid).wait = some (.parked q) → free q → q.polled = true → q.pollAt ≤ now →
    exec (.waitTablePoll blk tid) s = .next (s.reperform blk tid q)) ∧
  (∀ c x q, q.woken = true → State.parkAct (some q) c s x = (s, .done [] 0)) ∧
  (∀ id (t : Task), s.task? id = some t → s.waiting t = true → t.readyAt + 10000000 * (t.aged + 1) ≤ now →
    exec (.priorityAging id) s = .next (s.modTask id fun t => { t with aged := t.aged + 1 })) ∧
  (∀ store die (c : Corrections), (s.health.counts.find? fun c => c.store == store && c.die == die) = some c →
    c.pending ≠ 0 → (∀ t0 ∈ c.entry, t0 + 1000000 ≤ now) → c.entry.isSome = true →
    ∃ t, exec (.correctionEntryTimer store die) s = .next t ∧
      (t.health.counts.find? fun c => c.store == store && c.die == die) = some { c with pending := 0, entry := some now } ∧
      t.health.boxes = (s.event die 0x10 store c.pending 0 (some (c.last, 0))).health.boxes ∧ t.mem = s.mem)) ∧
  (∀ (s : State) (c : Copy), s.copy? c.id = some c →
  (s.copyRuns c = true → exec (.copyBeat c.id) s = .next (s.copyStep c)) ∧
  (∀ (b : Block) (p q : Nat), s.block? c.blk = some b → c.record? = false → c.abandoned = false → c.done < c.len →
    s.copyEnd b c true = .pa p → s.copyEnd b c false = .pa q →
    let v := (s.tellAt false p).correctRead p (c.segment b)
    v.poisoned p (c.segment b) = false → (c.done + c.segment b) % 64 ≠ 0 → c.done + c.segment b ≠ c.len →
    let u := ((v.tellAt true q).takeLines q (c.segment b)).writePa q (s.readPa p (c.segment b))
    s.copyStep c = u.modCopy c.id fun x => { x with done := x.done + c.segment b, acks := x.acks ++ u.owes c q }) ∧
  (c.finished = true → (∀ t ∈ c.promise, s.clock.time ≤ t) → exec (.copyComplete c.id) s =
    .next (if c.acks = [] then s.dropCopy c.id else s.modCopy c.id fun x => { x with acks := [] })) ∧
  (∀ (b : Block) (t : Nat), s.block? c.blk = some b → c.promise = some t → t ≤ s.clock.time →
    let void : State := s.modCopy c.id fun x => { x with promise := none }
    (b.ended = true → exec (.promiseMissed c.id) s = .next void) ∧
    (b.place.resident = true → b.saved = none → b.leaving = none → b.ended = false → exec (.promiseMissed c.id) s =
      .next (void.trapBlock c.blk
        { info := { cause := .promiseMissed, addr := BitVec.ofNat 64 t }, thr := c.tid, pc := c.pc, copy := some c.id }))))

/-- R238, R321, R349, R354, R360, R380: the saves and restores of blocks, turn groups that rotate, registers that
return, and what a debugger and the management plane do to a block. R352, R353, R356 to R358: the image of a save, read back,
gives the block's own registers, its status registers and its storage, and each thread's registers, predicates, PC, seed
and waits, as far as the liveness records name them, and zeros for the rest; a save that its area takes leaves the block out,
with its reels. R361: what a restored thread does next. R360: a reel that is out is refilled from the pool, its overdraft
paid first. -/
def Obligations.SaveEvents : Prop :=
  ∀ (s : State) (blk : Nat) (b : Block), s.block? blk = some b →
  (b.hasLanded = true → (s.standing b).all Block.hasLanded = true → exec (.landingSave blk) s = .next (s.leave b)) ∧
  (b.place.resident = true → b.saved = none → b.inline = none → b.ended = false →
    (∃ d, b.due = some d ∧ (2 * b.cfg.landbound * d.n < d.weight ∨
      d.time + (s.env b.cfg.envelope).landtime ≤ s.clock.time)) → exec (.forcedSave blk) s = .next (s.leave b)) ∧
  (∀ core b' t, (s.refill blk).block? blk = some b' → (s.refill blk).task? b'.task = some t → (s.refill blk).chosen t core = true →
    exec (.restore blk core) s = .next ((s.refill blk).restoreAt b' core)) ∧
  (∀ g next, b.running = true → b.cfg.partial? = true → (∀ x ∈ b.out, x.1 ≠ g) → 128 * g < b.cfg.bsize → b.groupIdle g = true →
    b.nextGroup = some next → (∀ t ∈ b.groupLive g, (b.th t).inSlot = false) →
    exec (.turnGroupRotation blk g) s = .next (s.rotate b g next)) ∧
  (∀ tid, (b.th tid).inSlot = true → s.borrowerOf (b.th tid) = none → b.place.resident = true →
    s.bankUse b.place.core (tid % 4) + b.cfg.vAlloc * 4 ≤ 131072 → ErrUnit.slot blk tid ∉ s.health.bad →
    exec (.registerReturn blk tid) s = .next (s.modTh blk tid fun th => { th with inSlot := false })) ∧
  (∀ tid, (b.th tid).inSlot = true → s.borrowerOf (b.th tid) = none → b.place.resident = true → b.trap.stopped = false →
    s.bankUse b.place.core (tid % 4) + b.cfg.vAlloc * 4 ≤ 131072 → ErrUnit.slot blk tid ∈ s.health.bad → ∃ (u : State) (b' : Block),
      exec (.registerReturn blk tid) s = .next ((u.modTh blk tid fun th => { th.leave b.cycles with inSlot := false }).trapThreads blk
        [(tid, { cause := .uncorrectedData })]) ∧ u.block? blk = some b' ∧ b'.regs = b.regs ∧
        ∀ n, (b'.th n).v = (b.th n).v ∧ (b'.th n).p = (b.th n).p ∧ (b'.th n).pc = (b.th n).pc) ∧
  (∀ skip, b.trap.debug = true → b.trap.debugH = false → exec (.debuggerResume blk skip) s = .next
    (((s.modBlock blk fun b => { b with trap := { b.trap with debug := false } }).tret1 blk skip).refreshPools blk)) ∧
  (∀ skip, b.trap.debug = true → b.trap.debugH = true → ∃ t b', exec (.debuggerResume blk skip) s = .next t ∧
    t.block? blk = some b' ∧ b'.trap.debug = false ∧ b'.threads = b.threads ∧
    b'.handler = { b.handler with pc := b.handler.pc + BitVec.ofNat 64 (if skip then s.skipLen b b.handler.pc else 0) }) ∧
  (∀ tid (sel : Word) wide, b.trap.debug = true → selectorOk sel wide = true →
    let kind := sel.toNat / 2 ^ 24
    let num := sel.toNat % 256
    tid < b.cfg.bsize → (kind = 0 → num + (if wide then 2 else 1) ≤ b.cfg.vAlloc) →
    (∀ value : DWord,
      let x := if wide then value.toNat else value.toNat % 2 ^ 32
      (b.th tid).st ≠ .exited → writeFault b (b.th tid) kind x = none →
      exec (.debuggerThreadWrite blk tid sel wide (some value)) s = .next (s.writeSelector blk tid kind num wide x)) ∧
    ((b.th tid).outst = [] → ∃ t, exec (.debuggerThreadWrite blk tid sel wide none) s = .next t ∧
      t.outputs = s.outputs ++ [.debugger (readSelector b (b.th tid) kind num wide)] ∧ t.mem = s.mem ∧
      ∃ b', t.block? blk = some b' ∧ ∀ n, b'.th n = b.th n)) ∧
  -- the image of a save
  (b.tiles.wf = true → b.rows.wf = true → b.scratch.wf = true → b.rowprog.row < 64 → b.wdrun ≤ b.wdPeriod → b.place.parkn < 2 ^ 16 →
    ∀ (kind : Nat) (live : Live) (stopped : Bool) (recs : Nat → Option (DWord × Live)),
    let parts := b.blockParts kind live stopped ++ ((List.range b.cfg.bsize).map fun t => b.threadParts t kind (recs t)).flatten
    let m := parts.foldl (fun (m : Memory) p => m.overlay p.off p.len p.m) ([] : Memory)
    let c := b.stateOf m
    c.regs = b.regs ∧ c.rowprog = b.rowprog ∧ c.wdrun = b.wdrun ∧ c.place = b.place ∧ c.epoch = b.epoch + 1 ∧
    (∀ n < b.cfg.uAlloc, c.ureg n = if live.u.testBit n then b.ureg n else 0) ∧
    (∀ k < 8, (c.xs.getD k {}).st = (if live.x.testBit k then (b.xs.getD k {}).st else 0#4) ∧
      (k < b.cfg.xsums → (c.xs.getD k {}).n = if live.x.testBit k then (b.xs.getD k {}).n else 0#640)) ∧
    (∀ a < 4096 * b.cfg.tiles, c.tiles.get a = if live.t.testBit (a / 4096) then b.tiles.get a else 0#8) ∧
    (∀ a < 256 * b.cfg.rowAlloc, c.rows.get a = if live.acc then b.rows.get a else 0#8) ∧
    (∀ a < b.cfg.scratch, c.scratch.get a = b.scratch.get a) ∧
    ∀ t < b.cfg.bsize,
      let th := b.th t
      let th' := b.threadOf m t kind
      th'.wait = th.wait ∧ th'.seed = th.seed ∧ th'.armed = th.armed ∧ th'.triggered = th.triggered ∧
      th'.st = (if th.st = .trapped then .ready else th.st) ∧ th'.group = (if kind = 1 then none else th.group) ∧
      ((th.pc - b.codeBase).toNat < 2 ^ 32 → th'.pc = th.pc) ∧
      (∀ n < 7, th'.p.getLsbD n = (th.p.getLsbD n && (recs t).all (·.2.p.testBit n))) ∧
      (th.st ≠ .exited → ∀ n < b.cfg.vAlloc, th'.v.getD n 0#32 = if (recs t).all (·.2.v.testBit n) then th.v.getD n 0#32 else 0#32)) ∧
  -- a save is made
  (∀ (kind : Nat) (u : State), b.acks = [] → b.saved = none → b.out = [] → (∀ th ∈ b.threads, th.outst = []) → s.health.bad = [] →
    b.trap.copy = none → b.trap.missed = none → b.trap.held = [] →
    let masks := s.liveMasks b kind
    let live := if masks.any (·.2.isNone) then Live.all else (masks.filterMap fun m => m.2.map (·.2)).foldl Live.or {}
    let parts := b.blockParts kind live b.trap.stopped ++
      ((List.range b.cfg.bsize).map fun t => b.threadParts t kind (((masks.find? (·.1 == t)).map (·.2)).getD none)).flatten
    s.putRanges b.saveDest (parts.map fun p => (p.off, p.len)) (parts.map (·.m)).flatten = (u, none) →
    (s.saveBlock blk kind).mem = u.mem ∧ ∃ b', (s.saveBlock blk kind).block? blk = some b' ∧
      b'.saved = some { kind, depth := b.regs.inldepth.toNat, since := s.clock.time, ranges := parts.map fun p => (p.off, p.len) } ∧
      b'.regs = b.regs ∧ b'.plaits = [] ∧ b'.due = none ∧ b'.place.resident = false ∧ b'.ended = b.ended ∧
      ∀ n < b.threads.length, n ≠ b.cfg.bsize → (b'.th n).v = [] ∧ (b'.th n).pc = (b.th n).pc ∧
        ((∀ q, (b.th n).wait ≠ some (.parked q)) → (b'.th n).wait = (b.th n).wait)) ∧
  -- its image is back in the block
  (∀ (k : Saved) (m : Memory), b.saved = some k → k.stops = [] → k.spawn = none → b.cfg.partial? = false → b.out = [] →
    b.threads.length = b.cfg.bsize → (∀ c ∈ s.eng.copies, c.blk = blk → c.promise = none) →
    let img := b.stateOf m
    ∃ b', (s.fillRestored b m).block? blk = some b' ∧ b'.saved = none ∧ b'.acks = [] ∧ b'.uregs = img.uregs ∧ b'.xs = img.xs ∧
      b'.tiles = img.tiles ∧ b'.rows = img.rows ∧ b'.scratch = img.scratch ∧ b'.rowprog = img.rowprog ∧ b'.epoch = b.epoch + 1 ∧
      b'.wdrun = img.wdrun ∧ b'.regs.ustat = img.regs.ustat ∧ b'.regs.fmode = img.regs.fmode ∧ b'.regs.wdog = img.regs.wdog ∧
      b'.regs.inlmax = img.regs.inlmax ∧ b'.regs.wtovf = img.regs.wtovf ∧
      ∀ n < b.cfg.bsize,
        let th := b.threadOf m n k.kind
        let t := b'.th n
        t.v = th.v ∧ t.seed = th.seed ∧ t.armed = th.armed ∧ t.flags = List.replicate 12 0 ∧ t.outst = [] ∧
        ((b.th n).wait = none → t.pc = th.pc ∧ t.p = th.p ∧ t.st = if (b.th n).st = .exited then .exited else th.st) ∧
        ((b.th n).st ≠ .exited →
          (∀ r j, (b.th n).wait = some (.landed r j) → t.st = .ready ∧ t.wait = none ∧ t.pc = th.pc ∧ t.p = th.p) ∧
          (∀ j, (b.th n).wait = some (.sleep j) → s.clock.time < j → t.wait = some (.sleep j) ∧ t.st = th.st ∧ t.pc = th.pc) ∧
          (∀ q, (b.th n).wait = some (.parked q) → q.kind = .waitaddr ∨ q.kind = .park →
            t.st = .ready ∧ t.wait = none) ∧
          (∀ q, (b.th n).wait = some (.parked q) → q.kind ≠ .waitaddr → q.kind ≠ .park →
            t.wait = some (.parked { q with woken := true, polled := false, away := true }) ∧ t.st = th.st))) ∧
  (∀ traffic,
    let debt := if traffic then b.regs.tover.toNat else b.regs.iover.toNat
    let e := s.env b.cfg.envelope
    let grant := if traffic then e.trefill else e.irefill
    b.reel traffic = 0#64 → 0 < grant → grant < 2 ^ 64 → debt + grant ≤ e.pool traffic → ∃ b', (s.refillReel b traffic).block? blk = some b' ∧
      (b'.reel traffic).toNat = grant ∧ (if traffic then b'.regs.tover else b'.regs.iover) = 0#64 ∧ b'.reel (!traffic) = b.reel (!traffic) ∧
      ((s.refillReel b traffic).env b.cfg.envelope).pool traffic + debt + grant = e.pool traffic) ∧
  (∀ traffic n, ∃ t b', exec (.directReelPayment blk traffic n) s = .next t ∧ t.block? blk = some b' ∧
    let debt := if traffic then b.regs.tover.toNat else b.regs.iover.toNat
    (b'.reel traffic).toNat = min ((b.reel traffic).toNat + (n - debt)) (2 ^ 64 - 1) ∧
    (if traffic then b'.regs.tover.toNat else b'.regs.iover.toNat) = debt - n ∧
    b'.reel (!traffic) = b.reel (!traffic) ∧ b'.threads = b.threads ∧ { t with blocks := s.blocks } = s)

/-! ### Events of the package (R269 to R281, R326 to R347, R381 to R399, R416 to R436) -/

/-- R2, R277, R384 to R386, R388, R393: a walk that has one of the die's walkers ends in a leaf that the TLBs take, in a fault
for its waiters, or posted; the servicer's answers free or fault them, or, during a shootdown of the page, send them to walk
again after it; a shootdown drops its range once no write through it is outstanding; a page migrates, and an access answered
MOVED is made again. R414: an uncorrectable error in an entry refuses all who wait, with its event. -/
def Obligations.WalkEvents : Prop :=
  ∀ s : State,
  (∀ w : Walk, (s.eng.walks.find? (·.id == w.id)) = some w → w.post = none → s.shooting w.env w.page = false → s.hasWalker w = true →
    let u := s.correctWalk w.env (pageVa w.page)
    (s.health.soft = [] → u = s) ∧ u.mem = s.mem ∧ u.blocks = s.blocks ∧
    (∀ l, u.walk w.env (pageVa w.page) = .replay l → exec (.walkComplete w.id) s = .next (u.post w l)) ∧
    (∀ e log, u.walk w.env (pageVa w.page) = .leaf e log → exec (.walkComplete w.id) s =
      .next ((u.fillTlbs w (u.waitingCores w.id) e log).answerWalk w none)) ∧
    (∀ t, u.walk w.env (pageVa w.page) = .fault t → t.cause ≠ .uncorrectedData →
      exec (.walkComplete w.id) s = .next (u.answerWalk w (some t))) ∧
    (∀ t, u.walk w.env (pageVa w.page) = .fault t → t.cause = .uncorrectedData → ∃ pa, exec (.walkComplete w.id) s =
      .next ((u.uncorrected w.die pa 0 w.env 0).refuse w t))) ∧
  (∀ die id w, s.posted die id = some w → s.shooting w.env w.page = true →
    let again := Host.Outcome.next { s with eng := { s.eng with
      walks := updFirst (·.id == w.id) (fun x => { x with post := none }) s.eng.walks } }
    exec (.fqrespMapped die id) s = again ∧ exec (.fqrespRefused die id) s = again ∧ exec (.fqrespOverQuota die id) s = again) ∧
  (∀ die id w, s.posted die id = some w → s.shooting w.env w.page = false →
    exec (.fqrespMapped die id) s = .next (s.answerWalk w none) ∧
    exec (.fqrespRefused die id) s = .next (s.refuse w (xlateFault (pageVa w.page) (s.missingLevel w))) ∧
    exec (.fqrespOverQuota die id) s = .next (s.refuse w { cause := .envelopeQuota, addr := pageVa w.page })) ∧
  (∀ fn die (v : DWord) q, s.reachesDie fn die = true → s.host.fqs[die]? = some q → ∃ t, exec (.fqbaseWrite fn die v) s = .next t ∧
    t.host.fqs[die]? = some { q with base := v.toNat / 4096 * 4096, tail := 0, head := 0 } ∧ { t with host := s.host } = s) ∧
  (∀ env (va : DWord) len, exec (.shootdown env va len) s = .next { s with eng := { s.eng with
    shoots := s.eng.shoots ++ [{ env, va := va.toNat, len }] } }) ∧
  (∀ k x, s.eng.shoots[k]? = some x → s.shootWaits x = false → ∃ t, exec (.shootdownComplete k) s = .next t ∧
    t.eng.shoots = s.eng.shoots.eraseIdx k ∧ t.mem = s.mem ∧ t.blocks = s.blocks ∧
    ∀ e, e ∈ t.eng.tlb ↔ e ∈ s.eng.tlb ∧ ¬ (e.env = x.env ∧ x.va < e.va + 2 ^ e.log ∧ e.va < x.va + x.len)) ∧
  (∀ env (va : DWord) target e log, s.walk env va = .leaf e log →
    let old := leafPa e / 2 ^ log * 2 ^ log
    s.moving old = false → target % 2 ^ log = 0 → s.homeOf target ≠ none → ∃ t, exec (.migrationStart env va target) s = .next t ∧
      t.mem = (if s.pageBusy old (2 ^ log) then s.mem else
        ((s.gatherPage old (2 ^ log)).putRange target 0 (2 ^ log) (s.mem.slice old (2 ^ log) 0)).mem) ∧
      t.eng.migrs = s.eng.migrs ++ [{ env, va := va.toNat / 2 ^ log * 2 ^ log, old, target, len := 2 ^ log
                                      copied := !s.pageBusy old (2 ^ log) }]) ∧
  (∀ k m, s.eng.migrs[k]? = some m →
    let opened (s : State) : State := { s with eng := { s.eng with
      migrs := s.eng.migrs.modify k fun m => { m with copied := true, open' := true } } }
    (m.copied = true → exec (.migrationOpen k) s = .next (opened s)) ∧
    (m.copied = false → s.pageBusy m.old m.len = false → exec (.migrationOpen k) s = .next (opened (s.copyPage m))) ∧
    (m.copied = false → s.pageBusy m.old m.len = true → exec (.migrationOpen k) s = .next s)) ∧
  (∀ blk tid b, s.block? blk = some b → (b.th tid).stall = some 0 → b.has tid →
    ∃ t b', exec (.movedAnswer blk tid) s = .next t ∧ t.block? blk = some b' ∧ (b'.th tid).stall = none ∧
      (b'.th tid).pc = (b.th tid).pc ∧ t.mem = s.mem ∧ ∀ e ∈ t.eng.tlb, e ∈ s.eng.tlb)

/-- R269 to R276, R280: tokens, rounds, acknowledgements, filters and directory entries; no step of the coherence
machinery writes memory. R252, R269 to R271, R274: what an access needs of it: a load one token of a line of its die, a
store all 256; an atomic at the home die no recorded copy elsewhere; a write off the die that its thread's earlier ones
to the line are acknowledged. Accesses change the machinery's own state alone. -/
def Obligations.CoherenceEvents : Prop :=
  ∀ s : State,
  let moves (i : Instr) : Prop := ∃ t, exec i s = .next t ∧ t.mem = s.mem ∧ t.blocks = s.blocks ∧ t.sched = s.sched ∧
    t.envs = s.envs ∧ t.clock = s.clock
  (∀ core line write, moves (.transientRequest core line write)) ∧ (∀ core line src, moves (.tokenResponse core line src)) ∧
  (∀ core line, moves (.transientRetry core line)) ∧ (∀ die line, moves (.persistentActivation die line)) ∧
  (∀ place line, moves (.remoteRead place line) ∧ moves (.remoteWrite place line) ∧ moves (.invalidation place line) ∧
    moves (.invalidationAck place line)) ∧
  (∀ die line, moves (.fillResponse die line)) ∧ (∀ region, moves (.regionReclaim region)) ∧
  (∀ cluster line, moves (.filterReclaim cluster line)) ∧ (∀ line, moves (.invalidationTimeout line)) ∧
  (∀ core line write, core < 768 → s.req? core line = none → s.lineDie line = some (dieOfCore core) →
    s.satisfied core line write true = false → ∃ t, exec (.transientRequest core line write) s = .next t ∧
      t.coh.reqs = s.coh.reqs ++ [{ core, line, write, since := s.cycleNow }]) ∧
  (∀ core line r, s.req? core line = some r → r.persist = false → r.since + 256 ≤ s.cycleNow → s.holds core line r.write = false →
    (r.retries < 4 → exec (.transientRetry core line) s =
      .next (s.modReq core line fun r => { r with retries := r.retries + 1, since := s.cycleNow })) ∧
    (4 ≤ r.retries → ∃ t, exec (.transientRetry core line) s = .next t ∧ t.coh.reqs =
      (s.coh.reqs.filter fun x => !(x.core == core && x.line == line)) ++ [{ r with persist := true }])) ∧
  (∀ reader line d, s.lineDie line = some d → s.offDie reader line = true → s.regionRoom (line / 4) = true →
    line / 4 ∉ s.coh.reclaim → (∀ r, s.region? (line / 4) = some r → r.ls.length = 4) →
    (∀ p, reader = .package p → Config.mapsPage p (line / 512) = true) → s.homeServes d line ≠ none →
    ∃ t r, exec (.remoteRead reader line) s = .next t ∧ t.region? (line / 4) = some r ∧ reader ∈ t.places r ∧
      r.ls.getD (line % 4) 0 ≠ 0) ∧
  (∀ blk b k a, s.block? blk = some b → b.acks[k]? = some a → s.reached a.pa = true →
    (∀ r ∈ s.coh.rounds, r.line = a.pa / 128 ∨ r.line ∈ a.lines → r.writer ≠ some (.cluster b.cluster)) →
    let u := (s.ackedAt a.pa).modBlock blk fun b => { b with acks := b.acks.eraseIdx k }
    (b.threads.all (·.triggered) = false → exec (.writeAck blk k) s = .next u) ∧
    (b.threads.all (·.triggered) = true → b.triggering = true → (∀ x ∈ b.acks.eraseIdx k, x.before = false) →
      exec (.writeAck blk k) s = .next (u.trigger { b with acks := b.acks.eraseIdx k }))) ∧
  (∀ b tid pa n k, let r := s.gate b tid pa n k
    { r.1 with coh := s.coh } = s ∧
    (0 < n → pa % 128 + n ≤ 128 → s.lineDie (pa / 128) = some b.die → (∀ q ∈ s.coh.reqs, q.core = b.place.core → q.line = pa / 128 → q.served = false) →
      let held := (r.1.l1 b.place.core (pa / 128)).n
      (k = .read → r.2 = true → 1 ≤ held) ∧ (k = .write → r.2 = true → held = 256) ∧
      (b.place.core < 768 → s.holders b.die (pa / 128) = [] → s.req? b.place.core (pa / 128) = none → s.lineLs (pa / 128) = 0 →
        (k = .read → r.2 = true ∧ held = 1) ∧ (k = .write → r.2 = true ∧ held = 256 ∧ (r.1.l1 b.place.core (pa / 128)).dirty = true ∧
          (r.1.l1 b.place.core (pa / 128)).owner = true)))) ∧
  (∀ d line, (s.homeWrite d line none).2 = true ↔ s.lineLs line = 0 ∧
    ∀ r ∈ s.coh.reqs, r.line = line → dieOfCore r.core = d → r.active = false) ∧
  (∀ b tid line k a, a ∈ b.acks → a.tid = tid ∨ tid ∈ a.tids → a.pa / 128 = line ∨ line ∈ a.lines → s.lineDie line ≠ some b.die → k = .write ∨ k = .atomic →
    (s.gateLine b tid line k).2 = false)

/-- R278, R279, R394 to R399, R417, R418: flits are performed once and in order, a port falls at the sixteenth
failure and its messages go by another or wait, a package that does not answer is quarantined, a lost boundary closes the
package. R396: a flit whose CRC fails is asked for again, one performed already is dropped, and a message that is whole is
served, or held; a port that comes back sends what waits for it. R397: a write of another package is performed at its home
here. -/
def Obligations.FabricEvents : Prop :=
  ∀ s : State,
  (∀ port flit, (s.port port).up = true → flitGood flit = true → flit.dest = s.fabric.pkgid →
    flit.seq = s.expectedSeq flit.source flit.channel →
    let once (t : State) : Prop := t.fabric.received = s.fabric.received ++ [flit] ∧ (t.port port).fails = 0 ∧
      t.expectedSeq flit.source flit.channel = (flit.seq + 1) % 2 ^ 24 ∧ { t with fabric := s.fabric } = s
    (Config.request flit.kind (s.partOf flit) = none → ∃ t, exec (.flitReceive port flit) s = .next t ∧ once t ∧
      (flit.source, flit.channel, s.partOf flit) ∈ t.fabric.parts) ∧
    ∀ req, Config.request flit.kind (s.partOf flit) = some req → ∃ u, once u ∧ exec (.flitReceive port flit) s =
      .next (u.receive flit.source req)) ∧
  (∀ port flit, (s.port port).up = true → flitGood flit = true → flit.dest ≠ s.fabric.pkgid ∨
      flit.seq ≠ s.expectedSeq flit.source flit.channel →
    exec (.flitReceive port flit) s = .next (s.setPort port { s.port port with fails := 0 })) ∧
  -- a port that has failed: its event, and what it keeps goes by another port, or waits
  (let fallen (port : Nat) (t : State) : Prop := (t.port port).up = false ∧ (t.port port).kept = [] ∧ dieOfPort port ∈ t.fw.alerts ∧
     ∀ f ∈ (s.port port).kept, f ∈ t.fabric.waiting ∨ ∃ k, k ≠ port ∧ (s.port k).up = true ∧ (k, f) ∈ t.fabric.sent
   (∀ port flit, (s.port port).up = true → flitGood flit = false → ∃ t, exec (.flitReceive port flit) s = .next t ∧
     t.outputs = s.outputs ++ [.replay port flit.source flit.channel (s.expectedSeq flit.source flit.channel)] ∧
     t.fabric.received = s.fabric.received ∧ t.fabric.expected = s.fabric.expected ∧ t.mem = s.mem ∧ t.blocks = s.blocks ∧
     ((s.port port).fails < 15 → (t.port port).fails = (s.port port).fails + 1 ∧ (t.port port).up = true) ∧
     (15 ≤ (s.port port).fails → fallen port t)) ∧
   (∀ port (from' : Nat × Nat × Nat), (s.port port).up = true →
     let again := ((s.port port).kept.filter fun f => f.dest == from'.1 && f.channel == from'.2.1).dropWhile (·.seq != from'.2.2)
     let times := if (s.port port).reject = some from' then (s.port port).resent + 1 else 1
     ∃ t, exec (.replayRequest port from') s = .next t ∧
     (times < 16 → t.fabric.sent = s.fabric.sent ++ again.map (fun f => (port, f)) ∧ (t.port port).up = true ∧
       (t.port port).reject = some from' ∧ (t.port port).resent = times) ∧
     (16 ≤ times → fallen port t))) ∧
  (∀ port, ∃ t, exec (.portComesBack port) s = .next t ∧ (t.port port).up = true ∧ (t.port port).fails = 0 ∧
    t.fabric.sent = s.fabric.sent ++ (s.fabric.waiting.filter fun f => Config.toward port f.dest).map (fun f => (port, f)) ∧
    t.fabric.waiting = (s.fabric.waiting.filter fun f => !Config.toward port f.dest) ∧ t.mem = s.mem ∧
    ∀ blk b tid pkg since info, s.block? blk = some b → (b.th tid).remote = some (pkg, since, info) → pkg ≠ 1024 →
      Config.toward port pkg = true → ∃ b', t.block? blk = some b' ∧ (b'.th tid).remote = none) ∧
  (∀ source req, (∀ k, req ≠ .again k) → exec (.remoteAccessArrival source req) s = .next
    (if s.fabric.members.contains source && !s.fabric.quarantine.contains source then
      (if (s.serveRemote source req).2 then (s.serveRemote source req).1
       else { (s.serveRemote source req).1 with fabric := { (s.serveRemote source req).1.fabric with
         held := (s.serveRemote source req).1.fabric.held ++ [(source, req)] } })
     else { s with outputs := s.outputs ++ [.revoked source] })) ∧
  (∀ source pa data d, s.homeOf pa = some (.die d) → s.eng.migrs = [] →
    (∀ l ∈ linesOf pa data.length, ∀ d, s.lineDie l = some d → s.canGather d l = true) →
    (s.serveRemote source (.write pa data)).2 = true ∧ (s.serveRemote source (.write pa data)).1.mem = s.mem.write pa data) ∧
  (∀ pkg b, (s.blocks.find? fun b => (s.owed b).any fun a => s.ackTo pkg a && decide (a.time + s.fabric.ackto ≤ s.clock.time)) = some b →
    exec (.ackTimeout pkg) s = .next (s.giveUp b.die pkg)) ∧
  (∀ blk tid b pkg since info, s.block? blk = some b → (b.th tid).remote = some (pkg, since, info) →
    (pkg ≠ 1024 → since + s.fabric.ackto ≤ s.clock.time → exec (.loadTimeout blk tid pkg) s =
      .next ((s.giveUp b.die pkg).failRemote blk tid .accessRevoked)) ∧
    (pkg ≠ 1024 → exec (.revokedAnswer blk tid) s = .next (s.failRemote blk tid .accessRevoked)) ∧
    (pkg = 1024 → since + s.fabric.ackto ≤ s.clock.time → exec (.hostCompletionTimeout blk tid) s =
      .next (s.failRemote blk tid .uncorrectedData))) ∧
  (∀ n group lane, s.sparesUsed n group < 2 → ∃ t, exec (.laneRepair (.boundary n group) lane) s = .next t ∧
    t.sparesUsed n group = s.sparesUsed n group + 1 ∧ t.health.repairs = s.health.repairs ++ [(.boundary n group, lane)] ∧
    t.mem = s.mem ∧ t.blocks = s.blocks) ∧
  (∀ n, n ∉ s.health.lost → ∃ t, exec (.boundaryLost n) s = .next t ∧ t.accepts = false ∧ n ∈ t.health.lost ∧
    ((s.sched.tasks.map (·.id)).Nodup → ∀ x ∈ t.sched.tasks, x.ending ≠ none)) ∧
  (∀ width rate, width ∈ [16, 8, 4, 1] → rate ∈ [128, 64, 32, 16, 8, 5, 2] →
    (width ≤ s.host.width → rate ≤ s.host.rate → exec (.hostLinkTrainsDown width rate) s =
      .next { s with host := { s.host with width, rate } }) ∧
    exec (.hostLinkReset width rate) s = .next { s with host := { s.host with
      trained := s.fw.running.isSome, width, rate, words := [], drops := [], held := [] } })

/-- R326, R381, R390 to R394: doorbells, QSTAT, BAR0 reads and writes, host accesses, AtomicOps among them, bindings. An access
to a page on the move is held (R277). -/
def Obligations.HostEvents : Prop :=
  ∀ s : State,
  (∀ fn die queue (v : DWord) env mb pa spa, s.reachesQueue fn die queue = true → v.toNat % 128 = 0 → s.accepts = true →
    s.host.held = [] → s.queueOnMove die queue = false → s.queueHeader die queue = some (env, mb, pa) → s.queueSlot die env mb pa (s.mbTail pa) = some spa → s.mbUsed pa < s.mbCap pa →
    exec (.doorbell fn die queue v) s =
      .next ((((s.takeLines spa 64).takeLines pa 64).writePa spa (hostMsg env v.toNat).bytes).putPa (pa + 8) 8 (s.mbTail pa + 1))) ∧
  (∀ fn die queue (v : DWord), s.reachesQueue fn die queue = true → v.toNat % 128 = 0 → s.accepts = true → s.queueOnMove die queue = true →
    exec (.doorbell fn die queue v) s = .next { s with host := { s.host with held := s.host.held ++ [(fn, .ring die queue v)] } }) ∧
  (∀ fn die queue (v : DWord), s.reachesQueue fn die queue = true → s.host.held = [] → v.toNat % 128 ≠ 0 ∨ s.accepts = false →
    exec (.doorbell fn die queue v) s = .next ((s.setDrops die queue (min 0xFFFF (s.dropsOf die queue + 1))).fire fn 0)) ∧
  (∀ fn die queue, s.reachesQueue fn die queue = true → ∃ t, exec (.qstatRead fn die queue) s = .next t ∧
    t.dropsOf die queue = 0 ∧ t.mem = s.mem ∧
    let free := (s.queueHeader die queue).elim 0 fun q => s.mbCap q.2.2 - s.mbUsed q.2.2
    t.outputs = s.outputs ++ [.host true (toBytesLE 8 (min 0xFFFF free + 65536 * s.dropsOf die queue))]) ∧
  (∀ fn off (v : DWord), 0x60000 ≤ off → off < 0x60400 → off % 8 = 0 → ∃ t, exec (.registerWrite fn off v) s = .next t ∧
    (t.host.words.find? fun w => w.1 == fn && w.2.1 == off) = some (fn, off, v) ∧ { t with host := s.host } = s) ∧
  (∀ fn off (v : DWord) die, fqAt off = some (die, 0x18) → s.reachesDie fn die = true → exec (.registerWrite fn off v) s =
    .next { s with host := { s.host with fqs := s.host.fqs.modify die fun q => { q with head := v.toNat } } }) ∧
  (∀ fn addr size (u : State) pa, s.hostReach fn addr .read size = (u, .at pa) → u.poisoned pa size = false →
    exec (.hostMemAccess fn (.read addr size)) s = .next ((u.correctRead pa size).hostReply true (u.readPa pa size))) ∧
  (∀ fn addr data (u : State) pa, s.hostReach fn addr .write data.length = (u, .at pa) →
    exec (.hostMemAccess fn (.write addr data)) s = .next (((u.takeLines pa data.length).writePa pa data).hostReply true [])) ∧
  (∀ fn (op : BitVec 2) wide addr (b e : DWord) (u : State) pa,
    let n := if wide then 8 else 4
    let new (m : Nat) : Nat := match op.toNat with
      | 0 => (m + b.toNat) % 2 ^ (8 * n)
      | 1 => b.toNat % 2 ^ (8 * n)
      | _ => if m = e.toNat % 2 ^ (8 * n) then b.toNat % 2 ^ (8 * n) else m
    op ≠ 3#2 → addr % n = 0 → s.hostReach fn addr .atomic n = (u, .at pa) → u.poisoned pa n = false → u.health.soft = [] →
    exec (.hostMemAccess fn (.atomic op wide addr b e)) s =
      .next (((u.takeLines pa n).putPa pa n (new (u.valPa pa n))).hostReply true (u.readPa pa n))) ∧
  (∀ fn (u : State) req, (∃ addr size, req = .read addr size ∧ s.hostReach fn addr .read size = (u, .error)) ∨
      (∃ addr data, req = .write addr data ∧ s.hostReach fn addr .write data.length = (u, .error)) →
    exec (.hostMemAccess fn req) s = .next (u.hostReply false [])) ∧
  (∀ fn, exec (.hostMemAccess fn (.bar 0)) s =
    .next (s.hostReply true (toBytesLE 8 (2 ^ 32 * 0x07680008 + s.fw.revision % 2 ^ 32)))) ∧
  (∀ fn die q, s.reachesDie fn die = true → s.host.fqs[die]? = some q → die < 4 →
    let reads (off x : Nat) : Prop := exec (.hostMemAccess fn (.bar (0x50000 + 256 * die + off))) s =
      .next (s.hostReply true (toBytesLE 8 x))
    reads 0x00 q.base ∧ reads 0x08 q.log ∧ reads 0x10 q.tail ∧ reads 0x18 q.head) ∧
  (∀ fn off, (∀ die, s.reachesDie fn die = false) → 0x50000 ≤ off → off < 0x50400 →
    exec (.hostMemAccess fn (.bar off)) s = .next (s.hostReply true (toBytesLE 8 0))) ∧
  (∀ die queue env (mb : DWord), die < 4 → queue < 64 → env < 4096 → mb.toNat % 64 = 0 →
    ∃ t, exec (.queueBinding die queue env mb) s = .next t ∧ t.binding die queue = some (env, mb.toNat)) ∧
  (∀ env root, env < 4096 → root % 65536 = 0 → ∃ t, exec (.rootTableAddress env root) s = .next t ∧ (t.env env).root = root ∧
    t.mem = s.mem ∧ t.blocks = s.blocks) ∧
  (∀ fn env, fn < 64 → env < 4096 → ∃ t, exec (.functionBinding fn env) s = .next t ∧ t.fnEnv fn = some env ∧
    { t with host := s.host } = s)

/-- R265, R317, R325 to R346: the schedulers take queues in turn, register, start, place, balance, write back, complete. A
launch whose report's page has to be serviced waits for it (the model's reading of R346 and R385, log 78); a task whose entry
of the dependence table holds an uncorrectable error is killed (log 86). Acceptance makes a task of the message, with the next
identifier, and takes its reels from its envelope's pools; a failed one goes with its message. Registration gives each tile
its entry, its reader and its version, and takes the buffers; the start fills a buffer from the version that the task reads; a
placement creates the task's next block, with new registers, and its reels come out of the task's funds; completion drops the
task, its blocks and its place among the readers, gives back what it has not spent, and fills its future. -/
def Obligations.SchedulerEvents : Prop :=
  ∀ s : State,
  (∀ die queue, s.accepts = true → s.tableRoom die = true → s.queueTurn die = some queue →
    exec (.queueTake die queue) s = .next (s.visitQueue die queue)) ∧
  (∀ id t, s.task? id = some t →
    (s.registerTurn t = true → t.buffers ≤ (s.env t.cfg.envelope).rename → s.canRegister t = true →
      exec (.registration id) s = .next (s.register t)) ∧
    (s.registerTurn t = true → (s.env t.cfg.envelope).rename < t.buffers → s.failurePage t.die t.srcenv (some t.cfg) = none →
      exec (.registration id) s = .next (s.failTask t)) ∧
    (t.ready = false → s.isReady t = true → s.badEntry t = false → exec (.taskReady id) s = .next (s.startTask t)) ∧
    (t.ready = false → t.ending = none → t.registered = true → s.badEntry t = true → exec (.taskReady id) s = .next (s.killTask t)) ∧
    (∀ core u, s.chosen t core = true → s.placeNext t core = some u → exec (.blockPlacement id core) s = .next (u.endMoves id core)) ∧
    (s.canComplete t = true → s.reportPage t.die t.cfg.envelope t.cfg.future = none →
      exec (.gridCompletion id) s = .next (s.complete t)) ∧
    (∀ va, s.canComplete t = true → s.reportPage t.die t.cfg.envelope t.cfg.future = some va →
      exec (.gridCompletion id) s = .next (s.startWalk t.die t.cfg.envelope va .write).1) ∧
    (s.canComplete t = false → exec (.gridCompletion id) s = .next s)) ∧
  (∀ env tile e v, s.tile? env tile = some e → e.due = some v → v.loc ≠ 0 → exec (.writeBack env tile) s =
    .next (((s.putRange e.homePa 0 4096 (s.mem.slice v.loc 4096 0)).modTile env tile fun e => { e with atHome := v.n }).tidyTile env tile)) ∧
  (∀ env pipe full a empty b x, s.sched.moves = [] → maxBy (·.2) (s.stages env pipe) = some (full, a) →
    minBy (·.2) (s.stages env pipe) = some (empty, b) → 49152 ≤ a → b ≤ 16384 → 2 ≤ (s.residentOf empty.id).length →
    full.unplaced = true → maxBy (·.place.seq) (s.residentOf empty.id) = some x → (∀ d, x.due = some d → d.recalled = false) →
    exec (.pipelineBalance env pipe) s = .next { s.recall x.id with sched := { (s.recall x.id).sched with
      moves := (s.recall x.id).sched.moves ++ [(env, pipe, x.id, full.id)] } }) ∧
  -- acceptance
  (∀ die queue pa m, s.peek die queue = some (pa, m) → s.badSlot die queue = none →
    let s0 : State := { s with sched := { s.sched with robin := s.sched.robin.set die ((queue + 1) % 64) } }
    (s.mem.wf = true → (s0.popQueue pa).mbHead pa = (s.mbHead pa + 1) % 2 ^ 64) ∧
    (∀ va k, s0.judge die m = .walk va k → s.visitQueue die queue = (s0.startWalk die m.srcenv va k).1) ∧
    (s0.judge die m = .wait → s.visitQueue die queue = s0) ∧
    (∀ a, s0.judge die m = .ok (.inl a) → s.visitQueue die queue = ((s0.popQueue pa).accept die m (.inl a) none).1) ∧
    (∀ r, s0.judge die m = .ok (.inr r) → s0.failurePage die m.srcenv r.cfg = none →
      s.visitQueue die queue = ((s0.popQueue pa).accept die m (.inr r) none).1)) ∧
  (∀ die m parent,
    (∀ a, let u := (s.accept die m (.inl a) parent).1
      ∃ t, u.sched.tasks = s.sched.tasks ++ [t] ∧ t.id = s.sched.nextTask ∧ t.cfg = a.cfg ∧ t.record = m.task ∧ t.die = die ∧
        t.parent = parent ∧ t.seq = s.sched.accepted + 1 ∧ t.registered = false ∧ t.ready = false ∧ t.ending = none ∧ t.next = 0 ∧
        t.priority = (if m.src = .thread then min a.cfg.priority m.prio else a.cfg.priority) ∧
        (m.src = .thread ∨ m.src = .supervisor → t.ifund = m.ifund ∧ t.tfund = m.tfund ∧ u.envs = s.envs) ∧
        (m.src ≠ .thread → m.src ≠ .supervisor → t.ifund = a.cfg.grid * a.cfg.ireel ∧ t.tfund = a.cfg.grid * a.cfg.treel ∧
          (u.env a.cfg.envelope).ipool = (s.env a.cfg.envelope).ipool - t.ifund ∧
          (u.env a.cfg.envelope).tpool = (s.env a.cfg.envelope).tpool - t.tfund)) ∧
    (∀ r, (s.accept die m (.inr r) parent).1.sched.tasks = s.sched.tasks) ∧
    ∀ x, (s.accept die m x parent).2 = s.sched.nextTask) ∧
  -- registration and start
  (∀ t : Task, s.task? t.id = some t → (t.locs.map (·.1)).Nodup →
    let u := s.register t
    (∃ y, u.task? t.id = some y ∧ y.registered = true) ∧
    u.buffersUsed t.cfg.envelope = s.buffersUsed t.cfg.envelope + t.buffers ∧ u.mem = s.mem ∧ u.blocks = s.blocks ∧
    ∀ x ∈ t.locs,
      let old := (s.tile? t.cfg.envelope x.1).getD { env := t.cfg.envelope, tile := x.1, homePa := x.2 }
      ∃ e l, u.tile? t.cfg.envelope x.1 = some e ∧ e.homePa = old.homePa ∧ e.atHome = old.atHome ∧
        ((t.uses x.1).2.1 = false → l = old.newest.loc) ∧ ((t.uses x.1).2.1 = true → (l, t.cfg.envelope) ∈ u.sched.buffers) ∧
        e.readers = old.readers ++ (if (t.uses x.1).2.2 then [(t.id, old.newest.n)] else []) ∧
        e.versions = old.versions ++
          (if (t.uses x.1).1 then [{ n := old.top + 1, writer := t.id, loc := l, home := l == 0 }] else [])) ∧
  (∀ t : Task, s.task? t.id = some t → ∃ y, (s.startTask t).task? t.id = some y ∧ y.ready = true ∧ y.readyAt = s.clock.time ∧
    ∀ tile base e, s.mem.wf = true → t.locs = [(tile, base)] → s.tile? t.cfg.envelope tile = some e → (t.uses tile).2.1 = true →
      ((t.uses tile).2.2 = false → (s.startTask t).mem.read base 4096 = List.replicate 4096 0#8) ∧
      (∀ n, (t.uses tile).2.2 = true → e.readers.find? (·.1 == t.id) = some (t.id, n) →
        (s.startTask t).mem.read base 4096 = s.mem.read (e.place (e.version n).loc) 4096)) ∧
  -- placement
  (∀ (t : Task) core u, t.cfg.groupSize = 1 → s.task? t.id = some t → s.placeNext t core = some u →
    (∀ b ∈ s.blocks, b.id ≠ s.sched.nextBlk) →
    t.ready = true ∧ t.ending = none ∧ t.next < t.cfg.grid ∧ u.mem = s.mem ∧ u.sched.nextBlk = s.sched.nextBlk + 1 ∧
    (∃ y, u.task? t.id = some y ∧ y.next = t.next + 1 ∧ y.ifund = t.ifund - t.cfg.ireel ∧ y.tfund = t.tfund - t.cfg.treel) ∧
    ∃ b, u.block? s.sched.nextBlk = some b ∧ b.task = t.id ∧ b.bid = t.next ∧ b.cfg = t.cfg ∧ b.place.core = core ∧
      b.place.resident = true ∧ b.ended = false ∧ b.saved = none ∧ b.due = none ∧ b.plaits = [] ∧
      b.regs.ireel = BitVec.ofNat 64 t.cfg.ireel ∧ b.regs.treel = BitVec.ofNat 64 t.cfg.treel ∧
      b.threads.length = t.cfg.bsize ∧ (∀ n < t.cfg.bsize, b.th n = newThread t.cfg t.next n t.cfg.vAlloc) ∧
      b.scratch = [] ∧ b.tiles = [] ∧ b.rows = [] ∧ ∀ n, b.ureg n = 0) ∧
  -- completion
  (∀ t : Task, t.parent = none → let u := s.complete t
    (∀ x ∈ u.sched.tasks, x.id ≠ t.id) ∧ (∀ b ∈ u.blocks, b.task ≠ t.id) ∧
    (∀ e ∈ u.sched.tiles, e.env = t.cfg.envelope → ∀ r ∈ e.readers, r.1 ≠ t.id)) ∧
  (∀ t : Task, t.parent = none → (∀ b ∈ s.blocks, b.saved = none ∧ (b.task = t.id → b.regs.iover = 0#64 ∧ b.regs.tover = 0#64)) →
    let bs := s.blocks.filter (·.task == t.id)
    let u := s.settleReels t
    (u.env t.cfg.envelope).ipool = min ((s.env t.cfg.envelope).ipool + (t.ifund + (bs.map (·.regs.ireel.toNat)).sum)) (2 ^ 64 - 1) ∧
    (u.env t.cfg.envelope).tpool = min ((s.env t.cfg.envelope).tpool + (t.tfund + (bs.map (·.regs.treel.toNat)).sum)) (2 ^ 64 - 1) ∧
    u.blocks = s.blocks) ∧
  (∀ die env future task kind value r pa, s.mem.wf = true → future ≠ 0 → future < 2 ^ 57 → s.engineXlate (dieCore die) env (BitVec.ofNat 64 future) .write = (r, some pa) →
    s.poisoned pa 16 = false → s.valPa (pa + 8) 1 = 0 → s.valPa (pa + 9) 1 = 0 → value < 2 ^ 64 → let u := s.report die env future task kind value
    u.valPa pa 8 = value % 2 ^ 64 ∧ u.valPa (pa + 8) 1 = 1)

/-- R413, R416, R427 to R433, R436: the commands and messages of management, answered while firmware runs. A message of another
type, or of another vendor, is discarded; a command is named by its code, and FREEZE and POD_SET are refused to the mailbox; no
update goes on in a frozen package. The places of a command's operands are free (log 77). -/
def Obligations.ManagementEvents : Prop :=
  ∀ s : State, s.fw.running ≠ none →
  let answers (i : Instr) (body : List Byte) (u : State) : Prop :=
    exec i s = .next { u with outputs := u.outputs ++ [.reply 0 body] }
  let bad (i : Instr) (code : Nat) : Prop := exec i s = .next { s with outputs := s.outputs ++ [.reply code []] }
  let busy : Bool := s.blocks.any fun b => b.place.resident && !b.ended
  (∀ watts, 1500 ≤ watts → watts ≤ 3200 → answers (.setLimit watts) [] { s with clock := { s.clock with limit := watts } }) ∧
  (∀ watts, watts < 1500 ∨ 3200 < watts → bad (.setLimit watts) 2) ∧
  (∀ env f x, env < 4096 → settingOk f x = true → answers (.envSet env f x) [] ((s.modEnv env fun e => e.put f x).refillAll)) ∧
  (∀ ms pkg, (∀ m ∈ ms, m < 1024) → pkg < 1024 → busy = false → answers (.podSet ms pkg) []
    { s.renumber pkg with fabric := { (s.renumber pkg).fabric with members := ms.dedup, pkgid := pkg } }) ∧
  (∀ ms pkg, (∀ m ∈ ms, m < 1024) → pkg < 1024 → busy = true → bad (.podSet ms pkg) 1) ∧
  (∀ pkg, pkg ∈ s.fabric.quarantine → pkg < 1024 → ∃ t, exec (.quarClear pkg) s = .next t ∧ pkg ∉ t.fabric.quarantine ∧
    (∀ q ∈ s.fabric.quarantine, q ≠ pkg → q ∈ t.fabric.quarantine) ∧ t.mem = s.mem) ∧
  (∀ pkg, pkg < 1024 → busy = false → ∃ t, exec (.cacheReset pkg) s = .next t ∧ t.mem = s.mem ∧
    (∀ e ∈ t.eng.tlb, s.elsewhere (leafPa e.leaf) = false) ∧ (∀ r ∈ t.coh.remote, s.elsewhere (128 * r.line) = false)) ∧
  (∀ die frame, (die, frame) ∈ s.health.candidates → s.health.retired.length < 8192 → ∃ t,
    exec (.retireCommit die frame) s = .next t ∧ t.health.retired = s.health.retired ++ [(die, frame)] ∧
    (die, frame) ∉ t.health.candidates ∧ t.mem = s.mem) ∧
  (∀ ns, 10000 ≤ ns → ns ≤ 10000000 → ns % 10000 = 0 → answers (.setAckto ns) [] { s with fabric := { s.fabric with ackto := ns } }) ∧
  (∀ die mib, die < 4 → mib ≤ 16 → mib % 2 = 0 → (∀ b ∈ s.blocks, b.place.resident = true → b.ended = false → b.die ≠ die) →
    die < s.coh.rlc.length → ∃ t, exec (.setRlc die mib) s = .next t ∧ t.coh.rlc.getD die 0 = mib ∧
      (∀ r ∈ t.coh.remote, r.die ≠ die) ∧ t.mem = s.mem) ∧
  (∀ env attach, env < 4096 → answers (.dbgAttach env attach) [] (s.modEnv env fun e => { e with debug := attach })) ∧
  (∀ x, answers (.pldmSensorRead x) (toBytesLE 8 (s.sense x).1) (s.sense x).2) ∧
  (∀ img whole, (s.frozen = false → answers (.firmwareUpdate img whole) [] { s with fw := s.fw.update img whole }) ∧
    (s.frozen = true → exec (.firmwareUpdate img whole) s = .next s)) ∧
  answers .getVersion (Config.standardReply 0x84 []) s ∧ answers .getCapabilities (Config.standardReply 0xE1 []) s ∧
  answers .getDigests (Config.standardReply 0x81 []) s ∧
  (∀ sign hash, answers (.negotiateAlgorithms sign hash) (Config.standardReply 0xE3
    [BitVec.ofNat 8 (if sign.testBit 4 then 16 else 0), BitVec.ofNat 8 (if hash.testBit 0 then 1 else 0)]) s) ∧
  (∀ slot, answers (.getCertificate slot) (Config.standardReply (if slot = 0 then 0x82 else 0x7F) []) s) ∧
  (∀ nonce, answers (.challenge 0 nonce) (Config.standardReply 0x83 nonce ++
    toBytesBE 64 (Config.identitySign (Config.standardReply 0x83 nonce))) s) ∧
  (∀ k bs, s.measured k = some bs → answers (.getMeasurements k) (toBytesBE 32 (Config.sha256 bs)) s) ∧
  answers (.getMeasurements 0) [5#8] s ∧ answers (.getMeasurements 0xFF)
    ((List.range 5).map fun k => BitVec.ofNat 8 (k + 1) :: toBytesBE 32 (Config.sha256 ((s.measured (k + 1)).getD []))).flatten s ∧
  answers .errCounts ((List.range 7).map fun k => ((List.range 4).map fun d => toBytesLE 8 (s.correctionCount k d)).flatten).flatten s ∧
  (∀ die, die < 4 → ∃ t, exec (.bboxRead die) s = .next t ∧ die ∉ t.fw.alerts ∧ { t with fw := s.fw, outputs := s.outputs } = s ∧
    ∃ body, t.outputs = s.outputs ++ [.reply 0 body] ∧ body.take 8 = toBytesLE 8 (s.health.boxes.getD die {}).bbidx) ∧
  (∀ msg, msg.mailbox = false → (msg.type = 0 → ∃ fw, exec (.mctpControl msg) s =
      .next { s with fw, outputs := s.outputs ++ [.reply 0 (Config.standardReply 0 msg.body)] } ∧ { fw with eid := s.fw.eid } = s.fw ∧
      (msg.body.length = 4 → msg.body[1]? = some 1#8 → (msg.body.getD 2 0#8).toNat % 4 ≤ 1 → fw.eid = (msg.body.getD 3 0#8).toNat)) ∧
    (msg.type = 1 ∨ msg.type = 5 → answers (.mctpControl msg) (Config.standardReply msg.type msg.body) s) ∧
    (msg.type ∉ [0, 1, 5, 0x7E] ∨ (msg.type = 0x7E ∧ msg.vendor ≠ 0x1E4A) → exec (.mctpControl msg) s = .next s)) ∧
  (∀ msg, msg.mailbox = true ∨ (msg.type = 0x7E ∧ msg.vendor = 0x1E4A) →
    let code := (msg.body.getD 0 0#8).toNat
    let x := Config.operand msg.body
    let does (c : Nat) (i : Instr) : Prop := code = c → exec (.mctpControl msg) s = exec i s
    (msg.mailbox = true → code = 1 ∨ code = 5 → bad (.mctpControl msg) 3) ∧
    (msg.mailbox = false → does 1 .freeze ∧ does 5 (.podSet (Config.operandSet msg.body) (x 0))) ∧
    does 2 (.bboxRead (x 0)) ∧ does 3 (.setLimit (x 0)) ∧ does 6 (.quarClear (x 0)) ∧ does 7 (.cacheReset (x 0)) ∧
    does 8 (.retireCommit (x 0) (x 1)) ∧ does 9 (.setAckto (x 0)) ∧ does 0x0A (.setRlc (x 0) (x 1)) ∧
    does 0x0B (.dbgAttach (x 0) (x 1 != 0)) ∧ does 0x0C .errCounts ∧ (∀ f, settings[x 1]? = some f → does 4 (.envSet (x 0) f (x 2))) ∧
    (code = 0 ∨ 0x0C < code → bad (.mctpControl msg) 2)) ∧
  (∀ a, exec (.dynamicAddressAssignment a) s = .next { s with fw := { s.fw with address := a % 128 } }) ∧
  (∀ n, 1 ≤ n → n ≤ 255 → exec (.retirementThreshold n) s = .next { s with health := { s.health with threshold := n } })

/-- R420, R432, R434: the thermal trip removes power; a freeze stops the package, dissolves every plait and changes no
thread's registers; a cold reset leaves the values of R434, its memory zero; a reset that no image survives leaves the package in reset
(R429); a warm reset keeps memory, time and the management settings
(its clock and power limit are those of a cold reset: the model's choice, log 66). R4, R432: a measurement lowers the
arithmetic clock by 25 MHz while the mean of the last hundred is above the limit or a sensor is hot, raises it by 25 MHz at the
tenth in a row below 97 % of the limit, and keeps it from 1,000 to 2,700 MHz. -/
def Obligations.ResetsAndPower : Prop :=
  (∀ s : State,
  exec .thermalTrip s = .next { s with dark := true, outputs := s.outputs ++ [.thermtrip] } ∧
  (let stands (t : State) : Prop := t.frozen = true ∧ t.mem = s.mem ∧ t.clock = s.clock ∧ (∀ b ∈ t.blocks, b.plaits = []) ∧
    t.blocks.map (fun b => (b.id, b.regs, b.uregs, b.trap, b.threads.map fun th => (th.v, th.p, th.pc, th.st))) =
      s.blocks.map (fun b => (b.id, b.regs, b.uregs, b.trap, b.threads.map fun th => (th.v, th.p, th.pc, th.st)))
   s.frozen = false → ∃ t, exec .freezeInput s = .next t ∧ stands t ∧
    (s.fw.running ≠ none → ∃ u, exec .freeze s = .next u ∧ stands u)) ∧
  (s.dark = false → ({ s.fw with alerts := [], updating := false, readings := [] } : Firmware).boot.running ≠ none →
    ∃ t, exec .coldReset s = .next t ∧ t.frozen = false ∧ t.blocks = [] ∧ t.sched = {} ∧ t.envs = [] ∧ t.eng = {} ∧
    t.clock = {} ∧ t.agenda = [] ∧ t.cur = none ∧ t.fabric.quarantine = [] ∧ t.health.retired = s.health.retired ∧
    t.health.boxes = [resetBox, resetBox, resetBox, resetBox] ∧
    t.fabric.pkgid = 0 ∧ t.host.trained = true ∧ (∀ a, s.mem.wf = true → a < 2 ^ 45 ∨
      (s.fabric.pkgid ≠ 0 ∧ s.fabric.pkgid * 2 ^ 46 ≤ a ∧ a < (s.fabric.pkgid + 1) * 2 ^ 46) → t.mem.get a = 0#8) ∧
    (t.accepts = true ↔ t.health.held = [])) ∧
  (s.dark = false → ({ s.fw with alerts := [], updating := false, readings := [] } : Firmware).boot.running = none →
    ∃ t, exec .coldReset s = .next t ∧ t.accepts = false ∧ t.host.trained = false ∧ t.blocks = [] ∧ t.sched = {} ∧ t.agenda = [] ∧
      t.cur = none ∧ t.fw.running = none ∧ t.fw.bootFail = true ∧ t.health.boxes = s.health.boxes) ∧
  (s.dark = false → ({ s.fw with updating := false } : Firmware).boot.running ≠ none → ∃ t, exec .warmReset s = .next t ∧ t.frozen = false ∧ t.blocks = [] ∧ t.sched = {} ∧ t.eng = {} ∧
    t.mem = s.mem ∧ t.clock.time = s.clock.time ∧ t.clock.limit = 3000 ∧ t.clock.mhz = 2700 ∧
    t.host.fns = s.host.fns ∧ t.host.queues = s.host.queues ∧ t.fabric.members = s.fabric.members ∧
    t.fabric.quarantine = s.fabric.quarantine ∧ t.health.retired = s.health.retired ∧ t.agenda = [] ∧ t.cur = none)) ∧
  ((∀ s : State, ∃ t, exec .powerMeasurement s = .next t ∧ { t with clock := s.clock, choices := s.choices, fw := s.fw } = s ∧
    { t.fw with readings := s.fw.readings } = s.fw ∧ (t.clock.measured % 100 ≠ 0 → t.fw = s.fw) ∧
    t.clock.time = s.clock.time ∧ t.clock.kcyc = s.clock.kcyc ∧
    ∃ watts hot, t.clock = s.clock.measure watts hot) ∧
  ∀ (c : Clock) (watts : Nat) (hot : Bool), c.inRange →
    let d := c.measure watts hot
    let n := d.watts.length
    let sum := d.watts.sum
    d.inRange ∧ d.limit = c.limit ∧ d.watts = (watts :: c.watts).take 100 ∧
    (n * c.limit < sum ∨ hot = true → d.mhz = max 1000 (c.mhz - 25)) ∧
    (sum ≤ n * c.limit → hot = false → (100 * sum < 97 * n * c.limit ∧ 9 ≤ c.calm → d.mhz = min 2700 (c.mhz + 25)) ∧
      (¬ (100 * sum < 97 * n * c.limit ∧ 9 ≤ c.calm) → d.mhz = c.mhz)) ∧
    (d.hold = true → d.mhz = 1000))

/-! ### The whole machine -/

/-- R88, R123, R348, R349: a charge lowers both reels, what they lack goes to the overdrafts, and a reel that it
brings to zero makes the block due; a uniform write stores its value, and marks the hazard when an earlier one of
the same instruction and epoch, by another thread, left another value. -/
def Obligations.BlockAccounting : Prop :=
  (∀ (s : State) (blk ci ct : Nat) (b : Block), s.block? blk = some b → ∃ b', (s.charge blk ci ct).block? blk = some b' ∧
    b'.regs.ireel.toNat = b.regs.ireel.toNat - ci ∧ b'.regs.treel.toNat = b.regs.treel.toNat - ct ∧
    b'.regs.iover.toNat = min (b.regs.iover.toNat + (ci - b.regs.ireel.toNat)) (2 ^ 64 - 1) ∧
    b'.regs.tover.toNat = min (b.regs.tover.toNat + (ct - b.regs.treel.toNat)) (2 ^ 64 - 1) ∧
    ((ci ≠ 0 ∧ b.regs.ireel.toNat ≤ ci) ∨ (ct ≠ 0 ∧ b.regs.treel.toNat ≤ ct) → b'.due ≠ none) ∧
    b'.threads = b.threads ∧ b'.trap = b.trap ∧ (s.charge blk ci ct).mem = s.mem) ∧
  ∀ (b : Block) (pc : DWord) (ts : List Nat) (n : Nat) (v : DWord), n < b.uregs.length →
    let b' := b.uniformWrite pc ts n v
    let u := b.uregs.getD n {}
    b'.ureg n = v.toNat ∧ (∀ k, k ≠ n → b'.ureg k = b.ureg k) ∧ b'.threads = b.threads ∧ b'.epoch = b.epoch ∧
    (u.pc = some pc → u.epoch = b.epoch → u.val ≠ v → u.tid ∉ ts → b'.regs.ustat = b.regs.ustat ||| 1#32) ∧
    (u.pc ≠ some pc ∨ u.epoch ≠ b.epoch ∨ u.val = v ∨ u.tid ∈ ts → b'.regs = b.regs)

/-- Every step keeps the memory of the package in its canonical form, whatever the instruction or the event: a read
of a byte is the same whichever way its memory came about (R235, R434: an unlisted byte reads 0). -/
def Obligations.MemoryStaysCanonical : Prop :=
  ∀ s t : State, s.mem.wf = true → step s = .next t → t.mem.wf = true

/-- R420: in a frozen package every step that is one leaves it frozen, with no time passed, and changes no thread's
registers, predicates, PC or state: only the management plane's events happen, until a reset. No second issue of a
cycle stands open in a frozen package: a freeze closes it. -/
def Obligations.FrozenPackage : Prop :=
  ∀ s t : State,
  s.frozen = true → s.ahead = none → (∀ i ∈ s.agenda, i ≠ .coldReset ∧ i ≠ .warmReset) → step s = .next t →
  t.frozen = true ∧ t.ahead = none ∧ (∀ i ∈ t.agenda, i ≠ .coldReset ∧ i ≠ .warmReset) ∧ t.clock.time = s.clock.time ∧
  t.clock.kcyc = s.clock.kcyc ∧
  t.blocks.map (fun b => (b.id, b.threads.map fun th => (th.v, th.p, th.pc, th.st))) =
    s.blocks.map (fun b => (b.id, b.threads.map fun th => (th.v, th.p, th.pc, th.st)))

/-- R49, R54 to R59, R77: the bytes of a well-formed instruction decode to it, every operand at its value, with
nothing left; they are at most 18. -/
def Obligations.EncodeDecode : Prop :=
  ∀ i : Instr, i.WellFormed = true → i.opWord ≠ none →
  decode (encode i) = some (i, []) ∧ (encode i).length ≤ 18

/-- R53, R60 to R65: the step of a package whose issue stands next fetches the line of its PC, and where an
instruction stands there, it is that instruction's `exec`, with the former's work after it (`settled`). An
instruction that decodes from the first byte of a line stands there. -/
def Obligations.StepRuns : Prop :=
  (∀ (s u : State) (iss : Issue) (b : Block) (c : CodeLine) (i : Instr) (len : Nat),
    s.dark = false → s.frozen = false → s.agenda = [] → s.cur = some iss →
    s.skipPads iss.blk (iss.ths.map (·.2)) = s → s.block? iss.blk = some b → b.canIssue iss = true →
    let pc := (b.th ((iss.ths.map (·.2)).headD 0)).pc
    b.inCode pc = true →
    s.cachedLine b (((b.plaits.find? (·.id == iss.plait)).map (·.sect)).getD 0) (pc.toNat / 64 * 64) (pc.toNat % 64) = (u, some c) →
    c.fault = none → entryAt c.bytes (pc.toNat % 64) = some (.insn i len) →
    step s = settled { iss with len, word := i.opWord } (exec i { u with cur := some { iss with len, word := i.opWord } })) ∧
  ∀ (bs rest : List Byte) (i : Instr), decode bs = some (i, rest) → bs.length ≤ 64 →
    entryAt bs 0 = some (.insn i (bs.length - rest.length))

/-- R56 to R59, R90, R157, R169, R206, R281: words of the manual, byte by byte, and the instructions that they stand
for; IADD in its three forms. -/
def Obligations.DecodeWords : Prop :=
  decode [0x11#8, 0x10#8, 0x50#8, 0x3D#8] =
    some (.iadd { d := 4#8, a := 5#8, imm := 0xFFFFFFFD#32, bsel := 2#2, ty := .i32 }, []) ∧
  decode [0x88#8, 0x07#8, 0x04#8, 0x05#8, 0x00#8, 0x03#8, 0xFF#8, 0xFD#8] =
    some (.iadd { d := 4#8, a := 5#8, imm := 0xFFFFFFFD#32, bsel := 2#2, ty := .i32 }, []) ∧
  decode [0xC0#8, 0x20#8, 0x1C#8, 0x10#8, 0x14#8, 0x00#8, 0xB0#8, 0x00#8, 0x02#8, 0xFF#8, 0xFF#8, 0xFF#8, 0xFD#8] =
    some (.iadd { d := 4#8, a := 5#8, imm := 0xFFFFFFFD#32, bsel := 2#2, ty := .i32 }, []) ∧
  decode [0x35#8, 0x14#8, 0x20#8, 0xC6#8] =
    some (.ffma { d := 5#8, a := 2#8, b := 3#8, imm := 6#32, bsel := 1#2, ty := .f32 }, []) ∧
  decode [0x99#8, 0x27#8, 0x00#8, 0x02#8, 0x03#8, 0x00#8, 0x00#8, 0x00#8] =
    some (.xfma { a := 2#8, b := 3#8, ty := .f32 }, []) ∧
  decode [0x98#8, 0x87#8, 0x0A#8, 0x04#8, 0x08#8, 0x0C#8, 0x00#8, 0x00#8] =
    some (.shfl { d := 10#8, a := 4#8, b := 8#8, mod := 3#6, ty := .b32 }, []) ∧
  decode [0x80#8, 0x2A#8, 0x00#8, 0x00#8, 0x00#8, 0x01#8, 0x23#8, 0x40#8] =
    some (.bra { g := 10#4, imm := 0x12340#32 }, []) ∧
  decode [0x80#8, 0xA7#8, 0x00#8, 0x00#8, 0x00#8, 0x00#8, 0x00#8, 0x03#8] =
    some (.pinAlign { imm := 3#32 }, []) ∧
  decode [0xA0#8, 0x07#8, 0x02#8, 0x00#8, 0x01#8, 0xA0#8, 0x00#8, 0x00#8] =
    some (.ld { d := 2#8, b := 1#8, mod := 0x28#6, ty := .b32 }, []) ∧
  decode [0xC0#8, 0x80#8, 0x1C#8, 0x28#8, 0x20#8, 0x00#8, 0x30#8, 0x40#8, 0x00#8, 0x40#8, 0x00#8, 0x00#8, 0x10#8] =
    some (.ld { d := 10#8, a := 8#8, mod := 1#6, imm := 0x40000010#32, ty := .b32 }, []) ∧
  decode [0xC0#8, 0x66#8, 0x5C#8, 0x28#8, 0x28#8, 0x31#8, 0xA0#8, 0x00#8, 0x01#8, 0x00#8, 0x00#8, 0x00#8, 0x0E#8] =
    some (.cross { d := 10#8, a := 10#8, b := 12#8, bsel := 1#2, imm := 14#32, ty := .f32 }, []) ∧
  decode [0xC0#8, 0xC0#8, 0x5C#8, 0x10#8, 0x20#8, 0x0A#8, 0x80#8, 0x00#8, 0x00#8, 0x00#8, 0x00#8, 0x00#8, 0x00#8] =
    some (.mmasp { d := 4#8, a := 8#8, b := 2#8, ty := .e2m1x8 }, [])

/-- R434: after a cold reset %time is 0, no context and no launch is known, no launch queue and no envelope is
bound, the clock runs at its highest step, launches are accepted, and each black box holds its RESET event. Memory
is in its canonical form and reads 0; clock and limit lie in their ranges. -/
def Obligations.ResetState : Prop :=
  State.reset.clock.time = 0 ∧ State.reset.clock.mhz = 2700 ∧ State.reset.blocks = [] ∧ State.reset.sched.tasks = [] ∧
  State.reset.envs = [] ∧ State.reset.host.queues = [] ∧ State.reset.eng = {} ∧ State.reset.frozen = false ∧
  State.reset.accepts = true ∧ State.reset.memWf = true ∧ State.reset.clock.inRange ∧ (∀ a, State.reset.mem.get a = 0#8) ∧
  State.reset.health.boxes.length = 4 ∧
  ∀ x ∈ State.reset.health.boxes, x.bbidx = 1 ∧ x.ring.read 0 16 = List.replicate 15 0#8 ++ [1#8]

end
end

