-- ==== Sys2Proof/Laws/State.lean ====
section
/-! SUPPORT. The named updates of State: one lemma for each field that an update leaves alone. -/

namespace Sys2Proof.Machine.State

variable (s : State)

@[simp] theorem modBlock_clock (n : Nat) (f : Block → Block) : (s.modBlock n f).clock = s.clock := rfl
@[simp] theorem modBlock_mem (n : Nat) (f : Block → Block) : (s.modBlock n f).mem = s.mem := rfl
@[simp] theorem modBlock_sched (n : Nat) (f : Block → Block) : (s.modBlock n f).sched = s.sched := rfl
@[simp] theorem modBlock_eng (n : Nat) (f : Block → Block) : (s.modBlock n f).eng = s.eng := rfl
@[simp] theorem modBlock_coh (n : Nat) (f : Block → Block) : (s.modBlock n f).coh = s.coh := rfl
@[simp] theorem modBlock_envs (n : Nat) (f : Block → Block) : (s.modBlock n f).envs = s.envs := rfl
@[simp] theorem modBlock_fabric (n : Nat) (f : Block → Block) : (s.modBlock n f).fabric = s.fabric := rfl
@[simp] theorem modBlock_host (n : Nat) (f : Block → Block) : (s.modBlock n f).host = s.host := rfl
@[simp] theorem modBlock_health (n : Nat) (f : Block → Block) : (s.modBlock n f).health = s.health := rfl
@[simp] theorem modBlock_fw (n : Nat) (f : Block → Block) : (s.modBlock n f).fw = s.fw := rfl
@[simp] theorem modBlock_frozen (n : Nat) (f : Block → Block) : (s.modBlock n f).frozen = s.frozen := rfl
@[simp] theorem modBlock_dark (n : Nat) (f : Block → Block) : (s.modBlock n f).dark = s.dark := rfl
@[simp] theorem modBlock_accepts (n : Nat) (f : Block → Block) : (s.modBlock n f).accepts = s.accepts := rfl
@[simp] theorem modBlock_choices (n : Nat) (f : Block → Block) : (s.modBlock n f).choices = s.choices := rfl
@[simp] theorem modBlock_agenda (n : Nat) (f : Block → Block) : (s.modBlock n f).agenda = s.agenda := rfl
@[simp] theorem modBlock_cur (n : Nat) (f : Block → Block) : (s.modBlock n f).cur = s.cur := rfl
@[simp] theorem modBlock_outputs (n : Nat) (f : Block → Block) : (s.modBlock n f).outputs = s.outputs := rfl

@[simp] theorem modTh_clock (n t : Nat) (f : Thread → Thread) : (s.modTh n t f).clock = s.clock := rfl
@[simp] theorem modTh_mem (n t : Nat) (f : Thread → Thread) : (s.modTh n t f).mem = s.mem := rfl
@[simp] theorem modTh_sched (n t : Nat) (f : Thread → Thread) : (s.modTh n t f).sched = s.sched := rfl
@[simp] theorem modTh_eng (n t : Nat) (f : Thread → Thread) : (s.modTh n t f).eng = s.eng := rfl
@[simp] theorem modTh_coh (n t : Nat) (f : Thread → Thread) : (s.modTh n t f).coh = s.coh := rfl
@[simp] theorem modTh_envs (n t : Nat) (f : Thread → Thread) : (s.modTh n t f).envs = s.envs := rfl
@[simp] theorem modTh_fabric (n t : Nat) (f : Thread → Thread) : (s.modTh n t f).fabric = s.fabric := rfl
@[simp] theorem modTh_host (n t : Nat) (f : Thread → Thread) : (s.modTh n t f).host = s.host := rfl
@[simp] theorem modTh_health (n t : Nat) (f : Thread → Thread) : (s.modTh n t f).health = s.health := rfl
@[simp] theorem modTh_fw (n t : Nat) (f : Thread → Thread) : (s.modTh n t f).fw = s.fw := rfl
@[simp] theorem modTh_frozen (n t : Nat) (f : Thread → Thread) : (s.modTh n t f).frozen = s.frozen := rfl
@[simp] theorem modTh_dark (n t : Nat) (f : Thread → Thread) : (s.modTh n t f).dark = s.dark := rfl
@[simp] theorem modTh_accepts (n t : Nat) (f : Thread → Thread) : (s.modTh n t f).accepts = s.accepts := rfl
@[simp] theorem modTh_choices (n t : Nat) (f : Thread → Thread) : (s.modTh n t f).choices = s.choices := rfl
@[simp] theorem modTh_agenda (n t : Nat) (f : Thread → Thread) : (s.modTh n t f).agenda = s.agenda := rfl
@[simp] theorem modTh_cur (n t : Nat) (f : Thread → Thread) : (s.modTh n t f).cur = s.cur := rfl
@[simp] theorem modTh_outputs (n t : Nat) (f : Thread → Thread) : (s.modTh n t f).outputs = s.outputs := rfl

@[simp] theorem modTask_clock (n : Nat) (f : Task → Task) : (s.modTask n f).clock = s.clock := rfl
@[simp] theorem modTask_mem (n : Nat) (f : Task → Task) : (s.modTask n f).mem = s.mem := rfl
@[simp] theorem modTask_blocks (n : Nat) (f : Task → Task) : (s.modTask n f).blocks = s.blocks := rfl
@[simp] theorem modTask_eng (n : Nat) (f : Task → Task) : (s.modTask n f).eng = s.eng := rfl
@[simp] theorem modTask_coh (n : Nat) (f : Task → Task) : (s.modTask n f).coh = s.coh := rfl
@[simp] theorem modTask_envs (n : Nat) (f : Task → Task) : (s.modTask n f).envs = s.envs := rfl
@[simp] theorem modTask_fabric (n : Nat) (f : Task → Task) : (s.modTask n f).fabric = s.fabric := rfl
@[simp] theorem modTask_host (n : Nat) (f : Task → Task) : (s.modTask n f).host = s.host := rfl
@[simp] theorem modTask_health (n : Nat) (f : Task → Task) : (s.modTask n f).health = s.health := rfl
@[simp] theorem modTask_fw (n : Nat) (f : Task → Task) : (s.modTask n f).fw = s.fw := rfl
@[simp] theorem modTask_frozen (n : Nat) (f : Task → Task) : (s.modTask n f).frozen = s.frozen := rfl
@[simp] theorem modTask_dark (n : Nat) (f : Task → Task) : (s.modTask n f).dark = s.dark := rfl
@[simp] theorem modTask_accepts (n : Nat) (f : Task → Task) : (s.modTask n f).accepts = s.accepts := rfl
@[simp] theorem modTask_choices (n : Nat) (f : Task → Task) : (s.modTask n f).choices = s.choices := rfl
@[simp] theorem modTask_agenda (n : Nat) (f : Task → Task) : (s.modTask n f).agenda = s.agenda := rfl
@[simp] theorem modTask_cur (n : Nat) (f : Task → Task) : (s.modTask n f).cur = s.cur := rfl
@[simp] theorem modTask_outputs (n : Nat) (f : Task → Task) : (s.modTask n f).outputs = s.outputs := rfl

@[simp] theorem modCopy_clock (n : Nat) (f : Copy → Copy) : (s.modCopy n f).clock = s.clock := rfl
@[simp] theorem modCopy_mem (n : Nat) (f : Copy → Copy) : (s.modCopy n f).mem = s.mem := rfl
@[simp] theorem modCopy_blocks (n : Nat) (f : Copy → Copy) : (s.modCopy n f).blocks = s.blocks := rfl
@[simp] theorem modCopy_sched (n : Nat) (f : Copy → Copy) : (s.modCopy n f).sched = s.sched := rfl
@[simp] theorem modCopy_coh (n : Nat) (f : Copy → Copy) : (s.modCopy n f).coh = s.coh := rfl
@[simp] theorem modCopy_envs (n : Nat) (f : Copy → Copy) : (s.modCopy n f).envs = s.envs := rfl
@[simp] theorem modCopy_fabric (n : Nat) (f : Copy → Copy) : (s.modCopy n f).fabric = s.fabric := rfl
@[simp] theorem modCopy_host (n : Nat) (f : Copy → Copy) : (s.modCopy n f).host = s.host := rfl
@[simp] theorem modCopy_health (n : Nat) (f : Copy → Copy) : (s.modCopy n f).health = s.health := rfl
@[simp] theorem modCopy_fw (n : Nat) (f : Copy → Copy) : (s.modCopy n f).fw = s.fw := rfl
@[simp] theorem modCopy_frozen (n : Nat) (f : Copy → Copy) : (s.modCopy n f).frozen = s.frozen := rfl
@[simp] theorem modCopy_dark (n : Nat) (f : Copy → Copy) : (s.modCopy n f).dark = s.dark := rfl
@[simp] theorem modCopy_accepts (n : Nat) (f : Copy → Copy) : (s.modCopy n f).accepts = s.accepts := rfl
@[simp] theorem modCopy_choices (n : Nat) (f : Copy → Copy) : (s.modCopy n f).choices = s.choices := rfl
@[simp] theorem modCopy_agenda (n : Nat) (f : Copy → Copy) : (s.modCopy n f).agenda = s.agenda := rfl
@[simp] theorem modCopy_cur (n : Nat) (f : Copy → Copy) : (s.modCopy n f).cur = s.cur := rfl
@[simp] theorem modCopy_outputs (n : Nat) (f : Copy → Copy) : (s.modCopy n f).outputs = s.outputs := rfl

@[simp] theorem dropCopy_clock (n : Nat) : (s.dropCopy n).clock = s.clock := rfl
@[simp] theorem dropCopy_mem (n : Nat) : (s.dropCopy n).mem = s.mem := rfl
@[simp] theorem dropCopy_blocks (n : Nat) : (s.dropCopy n).blocks = s.blocks := rfl
@[simp] theorem dropCopy_sched (n : Nat) : (s.dropCopy n).sched = s.sched := rfl
@[simp] theorem dropCopy_coh (n : Nat) : (s.dropCopy n).coh = s.coh := rfl
@[simp] theorem dropCopy_envs (n : Nat) : (s.dropCopy n).envs = s.envs := rfl
@[simp] theorem dropCopy_fabric (n : Nat) : (s.dropCopy n).fabric = s.fabric := rfl
@[simp] theorem dropCopy_host (n : Nat) : (s.dropCopy n).host = s.host := rfl
@[simp] theorem dropCopy_health (n : Nat) : (s.dropCopy n).health = s.health := rfl
@[simp] theorem dropCopy_fw (n : Nat) : (s.dropCopy n).fw = s.fw := rfl
@[simp] theorem dropCopy_frozen (n : Nat) : (s.dropCopy n).frozen = s.frozen := rfl
@[simp] theorem dropCopy_dark (n : Nat) : (s.dropCopy n).dark = s.dark := rfl
@[simp] theorem dropCopy_accepts (n : Nat) : (s.dropCopy n).accepts = s.accepts := rfl
@[simp] theorem dropCopy_choices (n : Nat) : (s.dropCopy n).choices = s.choices := rfl
@[simp] theorem dropCopy_agenda (n : Nat) : (s.dropCopy n).agenda = s.agenda := rfl
@[simp] theorem dropCopy_cur (n : Nat) : (s.dropCopy n).cur = s.cur := rfl
@[simp] theorem dropCopy_outputs (n : Nat) : (s.dropCopy n).outputs = s.outputs := rfl

@[simp] theorem wake_clock (p : Parked → Bool) : (s.wake p).clock = s.clock := rfl
@[simp] theorem wake_mem (p : Parked → Bool) : (s.wake p).mem = s.mem := rfl
@[simp] theorem wake_sched (p : Parked → Bool) : (s.wake p).sched = s.sched := rfl
@[simp] theorem wake_eng (p : Parked → Bool) : (s.wake p).eng = s.eng := rfl
@[simp] theorem wake_coh (p : Parked → Bool) : (s.wake p).coh = s.coh := rfl
@[simp] theorem wake_envs (p : Parked → Bool) : (s.wake p).envs = s.envs := rfl
@[simp] theorem wake_fabric (p : Parked → Bool) : (s.wake p).fabric = s.fabric := rfl
@[simp] theorem wake_host (p : Parked → Bool) : (s.wake p).host = s.host := rfl
@[simp] theorem wake_health (p : Parked → Bool) : (s.wake p).health = s.health := rfl
@[simp] theorem wake_fw (p : Parked → Bool) : (s.wake p).fw = s.fw := rfl
@[simp] theorem wake_frozen (p : Parked → Bool) : (s.wake p).frozen = s.frozen := rfl
@[simp] theorem wake_dark (p : Parked → Bool) : (s.wake p).dark = s.dark := rfl
@[simp] theorem wake_accepts (p : Parked → Bool) : (s.wake p).accepts = s.accepts := rfl
@[simp] theorem wake_choices (p : Parked → Bool) : (s.wake p).choices = s.choices := rfl
@[simp] theorem wake_agenda (p : Parked → Bool) : (s.wake p).agenda = s.agenda := rfl
@[simp] theorem wake_cur (p : Parked → Bool) : (s.wake p).cur = s.cur := rfl
@[simp] theorem wake_outputs (p : Parked → Bool) : (s.wake p).outputs = s.outputs := rfl

@[simp] theorem event_clock (d k c a i : Nat) (x : Option (Nat × Nat)) : (s.event d k c a i x).clock = s.clock := rfl
@[simp] theorem event_mem (d k c a i : Nat) (x : Option (Nat × Nat)) : (s.event d k c a i x).mem = s.mem := rfl
@[simp] theorem event_blocks (d k c a i : Nat) (x : Option (Nat × Nat)) : (s.event d k c a i x).blocks = s.blocks := rfl
@[simp] theorem event_sched (d k c a i : Nat) (x : Option (Nat × Nat)) : (s.event d k c a i x).sched = s.sched := rfl
@[simp] theorem event_eng (d k c a i : Nat) (x : Option (Nat × Nat)) : (s.event d k c a i x).eng = s.eng := rfl
@[simp] theorem event_coh (d k c a i : Nat) (x : Option (Nat × Nat)) : (s.event d k c a i x).coh = s.coh := rfl
@[simp] theorem event_envs (d k c a i : Nat) (x : Option (Nat × Nat)) : (s.event d k c a i x).envs = s.envs := rfl
@[simp] theorem event_fabric (d k c a i : Nat) (x : Option (Nat × Nat)) : (s.event d k c a i x).fabric = s.fabric := rfl
@[simp] theorem event_host (d k c a i : Nat) (x : Option (Nat × Nat)) : (s.event d k c a i x).host = s.host := rfl
@[simp] theorem event_fw (d k c a i : Nat) (x : Option (Nat × Nat)) : (s.event d k c a i x).fw = s.fw := rfl
@[simp] theorem event_frozen (d k c a i : Nat) (x : Option (Nat × Nat)) : (s.event d k c a i x).frozen = s.frozen := rfl
@[simp] theorem event_dark (d k c a i : Nat) (x : Option (Nat × Nat)) : (s.event d k c a i x).dark = s.dark := rfl
@[simp] theorem event_accepts (d k c a i : Nat) (x : Option (Nat × Nat)) : (s.event d k c a i x).accepts = s.accepts := rfl
@[simp] theorem event_choices (d k c a i : Nat) (x : Option (Nat × Nat)) : (s.event d k c a i x).choices = s.choices := rfl
@[simp] theorem event_agenda (d k c a i : Nat) (x : Option (Nat × Nat)) : (s.event d k c a i x).agenda = s.agenda := rfl
@[simp] theorem event_cur (d k c a i : Nat) (x : Option (Nat × Nat)) : (s.event d k c a i x).cur = s.cur := rfl
@[simp] theorem event_outputs (d k c a i : Nat) (x : Option (Nat × Nat)) : (s.event d k c a i x).outputs = s.outputs := rfl

@[simp] theorem modEnv_clock (n : Nat) (f : Envelope → Envelope) : (s.modEnv n f).clock = s.clock := by unfold State.modEnv; split <;> rfl
@[simp] theorem modEnv_mem (n : Nat) (f : Envelope → Envelope) : (s.modEnv n f).mem = s.mem := by unfold State.modEnv; split <;> rfl
@[simp] theorem modEnv_blocks (n : Nat) (f : Envelope → Envelope) : (s.modEnv n f).blocks = s.blocks := by unfold State.modEnv; split <;> rfl
@[simp] theorem modEnv_sched (n : Nat) (f : Envelope → Envelope) : (s.modEnv n f).sched = s.sched := by unfold State.modEnv; split <;> rfl
@[simp] theorem modEnv_eng (n : Nat) (f : Envelope → Envelope) : (s.modEnv n f).eng = s.eng := by unfold State.modEnv; split <;> rfl
@[simp] theorem modEnv_coh (n : Nat) (f : Envelope → Envelope) : (s.modEnv n f).coh = s.coh := by unfold State.modEnv; split <;> rfl
@[simp] theorem modEnv_fabric (n : Nat) (f : Envelope → Envelope) : (s.modEnv n f).fabric = s.fabric := by unfold State.modEnv; split <;> rfl
@[simp] theorem modEnv_host (n : Nat) (f : Envelope → Envelope) : (s.modEnv n f).host = s.host := by unfold State.modEnv; split <;> rfl
@[simp] theorem modEnv_health (n : Nat) (f : Envelope → Envelope) : (s.modEnv n f).health = s.health := by unfold State.modEnv; split <;> rfl
@[simp] theorem modEnv_fw (n : Nat) (f : Envelope → Envelope) : (s.modEnv n f).fw = s.fw := by unfold State.modEnv; split <;> rfl
@[simp] theorem modEnv_frozen (n : Nat) (f : Envelope → Envelope) : (s.modEnv n f).frozen = s.frozen := by unfold State.modEnv; split <;> rfl
@[simp] theorem modEnv_dark (n : Nat) (f : Envelope → Envelope) : (s.modEnv n f).dark = s.dark := by unfold State.modEnv; split <;> rfl
@[simp] theorem modEnv_accepts (n : Nat) (f : Envelope → Envelope) : (s.modEnv n f).accepts = s.accepts := by unfold State.modEnv; split <;> rfl
@[simp] theorem modEnv_choices (n : Nat) (f : Envelope → Envelope) : (s.modEnv n f).choices = s.choices := by unfold State.modEnv; split <;> rfl
@[simp] theorem modEnv_agenda (n : Nat) (f : Envelope → Envelope) : (s.modEnv n f).agenda = s.agenda := by unfold State.modEnv; split <;> rfl
@[simp] theorem modEnv_cur (n : Nat) (f : Envelope → Envelope) : (s.modEnv n f).cur = s.cur := by unfold State.modEnv; split <;> rfl
@[simp] theorem modEnv_outputs (n : Nat) (f : Envelope → Envelope) : (s.modEnv n f).outputs = s.outputs := by unfold State.modEnv; split <;> rfl

@[simp] theorem raiseAlert_clock (d : Nat) : (s.raiseAlert d).clock = s.clock := by unfold State.raiseAlert; split <;> rfl
@[simp] theorem raiseAlert_mem (d : Nat) : (s.raiseAlert d).mem = s.mem := by unfold State.raiseAlert; split <;> rfl
@[simp] theorem raiseAlert_blocks (d : Nat) : (s.raiseAlert d).blocks = s.blocks := by unfold State.raiseAlert; split <;> rfl
@[simp] theorem raiseAlert_sched (d : Nat) : (s.raiseAlert d).sched = s.sched := by unfold State.raiseAlert; split <;> rfl
@[simp] theorem raiseAlert_eng (d : Nat) : (s.raiseAlert d).eng = s.eng := by unfold State.raiseAlert; split <;> rfl
@[simp] theorem raiseAlert_coh (d : Nat) : (s.raiseAlert d).coh = s.coh := by unfold State.raiseAlert; split <;> rfl
@[simp] theorem raiseAlert_envs (d : Nat) : (s.raiseAlert d).envs = s.envs := by unfold State.raiseAlert; split <;> rfl
@[simp] theorem raiseAlert_fabric (d : Nat) : (s.raiseAlert d).fabric = s.fabric := by unfold State.raiseAlert; split <;> rfl
@[simp] theorem raiseAlert_host (d : Nat) : (s.raiseAlert d).host = s.host := by unfold State.raiseAlert; split <;> rfl
@[simp] theorem raiseAlert_health (d : Nat) : (s.raiseAlert d).health = s.health := by unfold State.raiseAlert; split <;> rfl
@[simp] theorem raiseAlert_frozen (d : Nat) : (s.raiseAlert d).frozen = s.frozen := by unfold State.raiseAlert; split <;> rfl
@[simp] theorem raiseAlert_dark (d : Nat) : (s.raiseAlert d).dark = s.dark := by unfold State.raiseAlert; split <;> rfl
@[simp] theorem raiseAlert_accepts (d : Nat) : (s.raiseAlert d).accepts = s.accepts := by unfold State.raiseAlert; split <;> rfl
@[simp] theorem raiseAlert_choices (d : Nat) : (s.raiseAlert d).choices = s.choices := by unfold State.raiseAlert; split <;> rfl
@[simp] theorem raiseAlert_agenda (d : Nat) : (s.raiseAlert d).agenda = s.agenda := by unfold State.raiseAlert; split <;> rfl
@[simp] theorem raiseAlert_cur (d : Nat) : (s.raiseAlert d).cur = s.cur := by unfold State.raiseAlert; split <;> rfl
@[simp] theorem raiseAlert_outputs (d : Nat) : (s.raiseAlert d).outputs = s.outputs := by unfold State.raiseAlert; split <;> rfl

@[simp] theorem heal_clock (p : ErrUnit → Bool) : (s.heal p).clock = s.clock := by unfold State.heal; split <;> rfl
@[simp] theorem heal_mem (p : ErrUnit → Bool) : (s.heal p).mem = s.mem := by unfold State.heal; split <;> rfl
@[simp] theorem heal_blocks (p : ErrUnit → Bool) : (s.heal p).blocks = s.blocks := by unfold State.heal; split <;> rfl
@[simp] theorem heal_sched (p : ErrUnit → Bool) : (s.heal p).sched = s.sched := by unfold State.heal; split <;> rfl
@[simp] theorem heal_eng (p : ErrUnit → Bool) : (s.heal p).eng = s.eng := by unfold State.heal; split <;> rfl
@[simp] theorem heal_coh (p : ErrUnit → Bool) : (s.heal p).coh = s.coh := by unfold State.heal; split <;> rfl
@[simp] theorem heal_envs (p : ErrUnit → Bool) : (s.heal p).envs = s.envs := by unfold State.heal; split <;> rfl
@[simp] theorem heal_fabric (p : ErrUnit → Bool) : (s.heal p).fabric = s.fabric := by unfold State.heal; split <;> rfl
@[simp] theorem heal_host (p : ErrUnit → Bool) : (s.heal p).host = s.host := by unfold State.heal; split <;> rfl
@[simp] theorem heal_fw (p : ErrUnit → Bool) : (s.heal p).fw = s.fw := by unfold State.heal; split <;> rfl
@[simp] theorem heal_frozen (p : ErrUnit → Bool) : (s.heal p).frozen = s.frozen := by unfold State.heal; split <;> rfl
@[simp] theorem heal_dark (p : ErrUnit → Bool) : (s.heal p).dark = s.dark := by unfold State.heal; split <;> rfl
@[simp] theorem heal_accepts (p : ErrUnit → Bool) : (s.heal p).accepts = s.accepts := by unfold State.heal; split <;> rfl
@[simp] theorem heal_choices (p : ErrUnit → Bool) : (s.heal p).choices = s.choices := by unfold State.heal; split <;> rfl
@[simp] theorem heal_agenda (p : ErrUnit → Bool) : (s.heal p).agenda = s.agenda := by unfold State.heal; split <;> rfl
@[simp] theorem heal_cur (p : ErrUnit → Bool) : (s.heal p).cur = s.cur := by unfold State.heal; split <;> rfl
@[simp] theorem heal_outputs (p : ErrUnit → Bool) : (s.heal p).outputs = s.outputs := by unfold State.heal; split <;> rfl

@[simp] theorem writePa_clock (pa : Nat) (bs : List Byte) : (s.writePa pa bs).clock = s.clock := by unfold State.writePa State.heal; simp only [wake_clock]; split <;> rfl
@[simp] theorem writePa_sched (pa : Nat) (bs : List Byte) : (s.writePa pa bs).sched = s.sched := by unfold State.writePa State.heal; simp only [wake_sched]; split <;> rfl
@[simp] theorem writePa_eng (pa : Nat) (bs : List Byte) : (s.writePa pa bs).eng = s.eng := by unfold State.writePa State.heal; simp only [wake_eng]; split <;> rfl
@[simp] theorem writePa_coh (pa : Nat) (bs : List Byte) : (s.writePa pa bs).coh = s.coh := by unfold State.writePa State.heal; simp only [wake_coh]; split <;> rfl
@[simp] theorem writePa_envs (pa : Nat) (bs : List Byte) : (s.writePa pa bs).envs = s.envs := by unfold State.writePa State.heal; simp only [wake_envs]; split <;> rfl
@[simp] theorem writePa_fabric (pa : Nat) (bs : List Byte) : (s.writePa pa bs).fabric = s.fabric := by unfold State.writePa State.heal; simp only [wake_fabric]; split <;> rfl
@[simp] theorem writePa_host (pa : Nat) (bs : List Byte) : (s.writePa pa bs).host = s.host := by unfold State.writePa State.heal; simp only [wake_host]; split <;> rfl
@[simp] theorem writePa_fw (pa : Nat) (bs : List Byte) : (s.writePa pa bs).fw = s.fw := by unfold State.writePa State.heal; simp only [wake_fw]; split <;> rfl
@[simp] theorem writePa_frozen (pa : Nat) (bs : List Byte) : (s.writePa pa bs).frozen = s.frozen := by unfold State.writePa State.heal; simp only [wake_frozen]; split <;> rfl
@[simp] theorem writePa_dark (pa : Nat) (bs : List Byte) : (s.writePa pa bs).dark = s.dark := by unfold State.writePa State.heal; simp only [wake_dark]; split <;> rfl
@[simp] theorem writePa_accepts (pa : Nat) (bs : List Byte) : (s.writePa pa bs).accepts = s.accepts := by unfold State.writePa State.heal; simp only [wake_accepts]; split <;> rfl
@[simp] theorem writePa_choices (pa : Nat) (bs : List Byte) : (s.writePa pa bs).choices = s.choices := by unfold State.writePa State.heal; simp only [wake_choices]; split <;> rfl
@[simp] theorem writePa_agenda (pa : Nat) (bs : List Byte) : (s.writePa pa bs).agenda = s.agenda := by unfold State.writePa State.heal; simp only [wake_agenda]; split <;> rfl
@[simp] theorem writePa_cur (pa : Nat) (bs : List Byte) : (s.writePa pa bs).cur = s.cur := by unfold State.writePa State.heal; simp only [wake_cur]; split <;> rfl
@[simp] theorem writePa_outputs (pa : Nat) (bs : List Byte) : (s.writePa pa bs).outputs = s.outputs := by unfold State.writePa State.heal; simp only [wake_outputs]; split <;> rfl

@[simp] theorem putPa_clock (pa n x : Nat) : (s.putPa pa n x).clock = s.clock := writePa_clock s pa _
@[simp] theorem putPa_sched (pa n x : Nat) : (s.putPa pa n x).sched = s.sched := writePa_sched s pa _
@[simp] theorem putPa_eng (pa n x : Nat) : (s.putPa pa n x).eng = s.eng := writePa_eng s pa _
@[simp] theorem putPa_coh (pa n x : Nat) : (s.putPa pa n x).coh = s.coh := writePa_coh s pa _
@[simp] theorem putPa_envs (pa n x : Nat) : (s.putPa pa n x).envs = s.envs := writePa_envs s pa _
@[simp] theorem putPa_fabric (pa n x : Nat) : (s.putPa pa n x).fabric = s.fabric := writePa_fabric s pa _
@[simp] theorem putPa_host (pa n x : Nat) : (s.putPa pa n x).host = s.host := writePa_host s pa _
@[simp] theorem putPa_fw (pa n x : Nat) : (s.putPa pa n x).fw = s.fw := writePa_fw s pa _
@[simp] theorem putPa_frozen (pa n x : Nat) : (s.putPa pa n x).frozen = s.frozen := writePa_frozen s pa _
@[simp] theorem putPa_dark (pa n x : Nat) : (s.putPa pa n x).dark = s.dark := writePa_dark s pa _
@[simp] theorem putPa_accepts (pa n x : Nat) : (s.putPa pa n x).accepts = s.accepts := writePa_accepts s pa _
@[simp] theorem putPa_choices (pa n x : Nat) : (s.putPa pa n x).choices = s.choices := writePa_choices s pa _
@[simp] theorem putPa_agenda (pa n x : Nat) : (s.putPa pa n x).agenda = s.agenda := writePa_agenda s pa _
@[simp] theorem putPa_cur (pa n x : Nat) : (s.putPa pa n x).cur = s.cur := writePa_cur s pa _
@[simp] theorem putPa_outputs (pa n x : Nat) : (s.putPa pa n x).outputs = s.outputs := writePa_outputs s pa _

/-- Of the package, taking lines changes the coherence machinery alone. -/
theorem takeLines_frame (pa n : Nat) : { s.takeLines pa n with coh := s.coh, outputs := s.outputs } = s := by
  unfold State.takeLines; split <;> rfl

@[simp] theorem takeLines_mem (pa n : Nat) : (s.takeLines pa n).mem = s.mem := by
  have h := congrArg State.mem (s.takeLines_frame pa n); exact h
@[simp] theorem takeLines_blocks (pa n : Nat) : (s.takeLines pa n).blocks = s.blocks := by
  have h := congrArg State.blocks (s.takeLines_frame pa n); exact h

/-- A message changes the links alone. -/
theorem tell_frame (dest : Nat) (write : Bool) (pa : Nat) : { s.tell dest write pa with fabric := s.fabric } = s := by
  unfold State.tell State.sendTo; dsimp only; split <;> rfl

@[simp] theorem tell_mem (dest : Nat) (write : Bool) (pa : Nat) : (s.tell dest write pa).mem = s.mem := by
  have h := congrArg State.mem (s.tell_frame dest write pa); exact h
@[simp] theorem tell_blocks (dest : Nat) (write : Bool) (pa : Nat) : (s.tell dest write pa).blocks = s.blocks := by
  have h := congrArg State.blocks (s.tell_frame dest write pa); exact h

theorem tellAt_frame (write : Bool) (pa : Nat) : { s.tellAt write pa with fabric := s.fabric } = s := by
  unfold State.tellAt; split
  · exact s.tell_frame _ _ _
  · rfl

@[simp] theorem tellAt_mem (write : Bool) (pa : Nat) : (s.tellAt write pa).mem = s.mem := by
  have h := congrArg State.mem (s.tellAt_frame write pa); exact h
@[simp] theorem tellAt_blocks (write : Bool) (pa : Nat) : (s.tellAt write pa).blocks = s.blocks := by
  have h := congrArg State.blocks (s.tellAt_frame write pa); exact h

theorem acked_frame (dest : Nat) : { s.acked dest with fabric := s.fabric } = s := by
  unfold State.acked; split <;> rfl

@[simp] theorem acked_mem (dest : Nat) : (s.acked dest).mem = s.mem := by
  have h := congrArg State.mem (s.acked_frame dest); exact h
@[simp] theorem acked_blocks (dest : Nat) : (s.acked dest).blocks = s.blocks := by
  have h := congrArg State.blocks (s.acked_frame dest); exact h

end Sys2Proof.Machine.State
end

