-- ==== Sys2Proof/Laws/Block.lean ====
section
/-! SUPPORT. Blocks and threads: what is found after an update of one block or of one thread. -/

namespace Sys2Proof.Machine

/-! ## The first element of a list that meets a test -/

theorem find?_updFirst_same {α : Type} (p : α → Bool) (f : α → α) (hf : ∀ x, p x = true → p (f x) = true) (xs : List α) :
    (updFirst p f xs).find? p = (xs.find? p).map f := by
  induction xs with
  | nil => rfl
  | cons x xs ih =>
    by_cases h : p x = true
    · simp [updFirst, h, hf x h]
    · simp [updFirst, h, ih]

theorem find?_updFirst_other {α : Type} (p q : α → Bool) (f : α → α) (hf : ∀ x, p x = true → q x = false ∧ q (f x) = false)
    (xs : List α) : (updFirst p f xs).find? q = xs.find? q := by
  induction xs with
  | nil => rfl
  | cons x xs ih =>
    by_cases h : p x = true
    · simp [updFirst, h, hf x h]
    · by_cases hq : q x = true <;> simp [updFirst, h, hq, ih]

theorem updFirst_updFirst {α : Type} (p : α → Bool) (f g : α → α) (hf : ∀ x, p x = true → p (f x) = true) (xs : List α) :
    updFirst p g (updFirst p f xs) = updFirst p (fun x => g (f x)) xs := by
  induction xs with
  | nil => rfl
  | cons x xs ih =>
    by_cases h : p x = true
    · simp [updFirst, h, hf x h]
    · simp [updFirst, h, ih]

theorem updFirst_congr {α : Type} (p : α → Bool) (f g : α → α) (xs : List α) (h : ∀ x, xs.find? p = some x → f x = g x) :
    updFirst p f xs = updFirst p g xs := by
  induction xs with
  | nil => rfl
  | cons x xs ih =>
    by_cases hx : p x = true
    · simp [updFirst, hx, h x (by simp [hx])]
    · have := ih fun y hy => h y (by simpa [hx] using hy)
      simp [updFirst, hx, this]

theorem updFirst_id {α : Type} (p : α → Bool) (xs : List α) : updFirst p (fun x => x) xs = xs := by
  induction xs with
  | nil => rfl
  | cons x xs ih => by_cases h : p x = true <;> simp [updFirst, h, ih]

/-! ## Blocks -/

theorem State.block?_id {s : State} {n : Nat} {b : Block} (h : s.block? n = some b) : b.id = n := by
  simpa using List.find?_some h

/-- The block found after an update that keeps its number. -/
theorem State.block?_modBlock {s : State} {n : Nat} {f : Block → Block}
    (hf : ∀ b, b.id = n → (f b).id = n := by intro b h; exact h) : (s.modBlock n f).block? n = (s.block? n).map f := by
  unfold State.block? State.modBlock
  exact find?_updFirst_same _ f (fun x hx => by simpa using hf x (by simpa using hx)) _

theorem State.block?_modBlock_other {s : State} {n m : Nat} {f : Block → Block} (h : m ≠ n)
    (hf : ∀ b, b.id = n → (f b).id = n := by intro b h; exact h) : (s.modBlock n f).block? m = s.block? m := by
  unfold State.block? State.modBlock
  refine find?_updFirst_other _ _ f (fun x hx => ?_) _
  have hx : x.id = n := by simpa using hx
  simp only [hf x hx, hx, beq_eq_false_iff_ne, ne_eq]
  exact ⟨h.symm, h.symm⟩

theorem State.modBlock_modBlock {s : State} {n : Nat} {f g : Block → Block}
    (hf : ∀ b, b.id = n → (f b).id = n := by intro b h; exact h) :
    (s.modBlock n f).modBlock n g = s.modBlock n fun b => g (f b) := by
  simp only [State.modBlock]
  rw [updFirst_updFirst]
  intro x hx
  simpa using hf x (by simpa using hx)

theorem State.modBlock_congr {s : State} {n : Nat} {f g : Block → Block} (h : ∀ b, s.block? n = some b → f b = g b) :
    s.modBlock n f = s.modBlock n g := by
  have := updFirst_congr (fun x : Block => x.id == n) f g s.blocks h
  simp only [State.modBlock, this]

theorem State.modBlock_id {s : State} {n : Nat} : (s.modBlock n fun b => b) = s := by
  simp [State.modBlock, updFirst_id]

/-- An update of a block whose result is known. -/
theorem State.modBlock_const {s : State} {n : Nat} {f : Block → Block} {b : Block} (h : s.block? n = some b) :
    s.modBlock n f = s.modBlock n fun _ => f b :=
  State.modBlock_congr fun x hx => by rw [h] at hx; cases hx; rfl

/-! ## Threads -/

@[simp] theorem Block.modTh_id (b : Block) (t : Nat) (f : Thread → Thread) : (b.modTh t f).id = b.id := by
  unfold Block.modTh; split <;> rfl
@[simp] theorem Block.modTh_cfg (b : Block) (t : Nat) (f : Thread → Thread) : (b.modTh t f).cfg = b.cfg := by
  unfold Block.modTh; split <;> rfl
@[simp] theorem Block.modTh_regs (b : Block) (t : Nat) (f : Thread → Thread) : (b.modTh t f).regs = b.regs := by
  unfold Block.modTh; split <;> rfl
@[simp] theorem Block.modTh_due (b : Block) (t : Nat) (f : Thread → Thread) : (b.modTh t f).due = b.due := by
  unfold Block.modTh; split <;> rfl
@[simp] theorem Block.modTh_trap (b : Block) (t : Nat) (f : Thread → Thread) : (b.modTh t f).trap = b.trap := by
  unfold Block.modTh; split <;> rfl
@[simp] theorem Block.modTh_place (b : Block) (t : Nat) (f : Thread → Thread) : (b.modTh t f).place = b.place := by
  unfold Block.modTh; split <;> rfl
@[simp] theorem Block.modTh_len (b : Block) (t : Nat) (f : Thread → Thread) :
    (b.modTh t f).threads.length = b.threads.length := by
  unfold Block.modTh; split <;> simp

/-- A thread update touches threads and the handler alone. -/
theorem Block.modTh_frame (b : Block) (t : Nat) (f : Thread → Thread) :
    { b.modTh t f with threads := b.threads, handler := b.handler } = b := by
  unfold Block.modTh; split <;> rfl

theorem Block.th_modTh_same (b : Block) (t : Nat) (f : Thread → Thread) (h : b.has t) : (b.modTh t f).th t = f (b.th t) := by
  unfold Block.modTh Block.th
  split
  · simp_all
  · rename_i hne
    rcases h with h | h
    · exact absurd h hne
    · simp [List.getD_eq_getElem?_getD, h]

theorem Block.th_modTh_other (b : Block) (t u : Nat) (f : Thread → Thread) (h : u ≠ t) : (b.modTh t f).th u = b.th u := by
  unfold Block.modTh Block.th
  split
  · rename_i ht
    have : u ≠ b.cfg.bsize := fun e => h (e.trans ht.symm)
    simp [this]
  · simp [List.getD_eq_getElem?_getD, Ne.symm h]

@[simp] theorem Block.has_modTh (b : Block) (t u : Nat) (f : Thread → Thread) : (b.modTh t f).has u ↔ b.has u := by
  simp [Block.has]

/-- Updates of distinct threads, one after another. -/
def Block.modThs {α : Type} (b : Block) (xs : List α) (key : α → Nat) (f : α → Thread → Thread) : Block :=
  xs.foldl (fun b x => b.modTh (key x) (f x)) b

section
variable {α : Type} (key : α → Nat) (f : α → Thread → Thread)

theorem Block.modThs_frame (xs : List α) (b : Block) :
    { b.modThs xs key f with threads := b.threads, handler := b.handler } = b := by
  induction xs generalizing b with
  | nil => rfl
  | cons x xs ih =>
    have h1 := ih (b.modTh (key x) (f x))
    have h2 := b.modTh_frame (key x) (f x)
    unfold Block.modThs at h1 ⊢
    rw [List.foldl_cons]
    generalize (xs.foldl _ _ : Block) = c at h1 ⊢
    rw [← h2, ← h1]

@[simp] theorem Block.modThs_id (xs : List α) (b : Block) : (b.modThs xs key f).id = b.id := by
  have h := congrArg Block.id (b.modThs_frame key f xs); exact h
@[simp] theorem Block.modThs_cfg (xs : List α) (b : Block) : (b.modThs xs key f).cfg = b.cfg := by
  have h := congrArg Block.cfg (b.modThs_frame key f xs); exact h
@[simp] theorem Block.modThs_regs (xs : List α) (b : Block) : (b.modThs xs key f).regs = b.regs := by
  have h := congrArg Block.regs (b.modThs_frame key f xs); exact h
@[simp] theorem Block.modThs_due (xs : List α) (b : Block) : (b.modThs xs key f).due = b.due := by
  have h := congrArg Block.due (b.modThs_frame key f xs); exact h
@[simp] theorem Block.modThs_trap (xs : List α) (b : Block) : (b.modThs xs key f).trap = b.trap := by
  have h := congrArg Block.trap (b.modThs_frame key f xs); exact h

@[simp] theorem Block.has_modThs (xs : List α) (b : Block) (u : Nat) : (b.modThs xs key f).has u ↔ b.has u := by
  induction xs generalizing b with
  | nil => rfl
  | cons x xs ih =>
    have := ih (b.modTh (key x) (f x))
    unfold Block.modThs at this ⊢
    rw [List.foldl_cons, this, Block.has_modTh]

theorem Block.th_modThs_other (xs : List α) (b : Block) (u : Nat) (h : ∀ x ∈ xs, key x ≠ u) :
    (b.modThs xs key f).th u = b.th u := by
  induction xs generalizing b with
  | nil => rfl
  | cons x xs ih =>
    have := ih (b.modTh (key x) (f x)) fun y hy => h y (List.mem_cons_of_mem _ hy)
    unfold Block.modThs at this ⊢
    rw [List.foldl_cons, this]
    exact b.th_modTh_other _ _ _ (Ne.symm (h x List.mem_cons_self))

theorem Block.th_modThs (xs : List α) (b : Block) (hn : (xs.map key).Nodup) (x : α) (hx : x ∈ xs) (hb : b.has (key x)) :
    (b.modThs xs key f).th (key x) = f x (b.th (key x)) := by
  induction xs generalizing b with
  | nil => cases hx
  | cons y ys ih =>
    simp only [List.map_cons, List.nodup_cons, List.mem_map, not_exists, not_and] at hn
    rcases List.mem_cons.mp hx with rfl | hx
    · have h1 := Block.th_modThs_other key f ys (b.modTh (key x) (f x)) (key x) fun z hz => hn.1 z hz
      unfold Block.modThs at h1 ⊢
      rw [List.foldl_cons, h1]
      exact b.th_modTh_same _ _ hb
    · have h1 := ih (b.modTh (key y) (f y)) hn.2 hx (by simpa using hb)
      unfold Block.modThs at h1 ⊢
      rw [List.foldl_cons, h1, b.th_modTh_other _ _ _ (hn.1 x hx)]

end

end Sys2Proof.Machine
end

