-- ==== Sys2Proof/Laws/Issue.lean ====
section
/-! SUPPORT. What a charge and an issue come to. -/

namespace Sys2Proof.Machine

/-! ## The charge (R88, R348, R349) -/

theorem Block.makeDue_frame (b : Block) (i t r : Bool) (now : Nat) : { b.makeDue i t r now with due := b.due } = b := by
  unfold Block.makeDue; split <;> rfl

@[simp] theorem Block.makeDue_id (b : Block) (i t r : Bool) (now : Nat) : (b.makeDue i t r now).id = b.id := by
  unfold Block.makeDue; split <;> rfl

@[simp] theorem Block.makeDue_undue (b : Block) (i t r : Bool) (now : Nat) : (b.makeDue i t r now).undue = b.undue := by
  unfold Block.makeDue; split <;> rfl

/-- Two states differ in due points alone. -/
def SameButDue (s t : State) : Prop :=
  (∀ n, (t.block? n).map Block.undue = (s.block? n).map Block.undue) ∧ { t with blocks := s.blocks } = s

theorem SameButDue.refl (s : State) : SameButDue s s := ⟨fun _ => rfl, rfl⟩

theorem SameButDue.trans {s t u : State} (h : SameButDue s t) (k : SameButDue t u) : SameButDue s u := by
  refine ⟨fun n => (k.1 n).trans (h.1 n), ?_⟩
  have h2 := h.2; have k2 := k.2
  rw [← h2, ← k2]

theorem sameButDue_makeDue (s : State) (n : Nat) (i t r : Bool) (now : Nat) :
    SameButDue s (s.modBlock n (·.makeDue i t r now)) := by
  refine ⟨fun m => ?_, rfl⟩
  by_cases h : m = n
  · subst h
    rw [State.block?_modBlock (fun b h => by simpa using h)]
    cases s.block? m <;> simp
  · rw [State.block?_modBlock_other h (fun b h => by simpa using h)]

theorem sameButDue_recallGroup (s : State) (b : Block) : SameButDue s (s.recallGroup b) := by
  unfold State.recallGroup
  split
  · exact .refl s
  · generalize s.group b = xs
    suffices ∀ (u : State), SameButDue s u → SameButDue s (xs.foldl (fun s x =>
        if x.ended ∨ !x.place.resident ∨ (x.due.any (·.recalled)) then s
        else s.modBlock x.id (·.makeDue false false true s.clock.time)) u) from this s (.refl s)
    induction xs with
    | nil => exact fun u h => h
    | cons x xs ih =>
      intro u h
      rw [List.foldl_cons]
      refine ih _ ?_
      split
      · exact h
      · exact h.trans (sameButDue_makeDue _ _ _ _ _ _)

/-- A charge lowers the block's reels; nothing else changes but due points. -/
theorem State.charge_block (s : State) (n ci ct : Nat) (b : Block) (h : s.block? n = some b) :
    SameButDue (s.modBlock n fun b => { b with regs := b.regs.charged ci ct }) (s.charge n ci ct) := by
  unfold State.charge
  split
  · rename_i h0
    obtain ⟨rfl, rfl⟩ := h0
    have : (s.modBlock n fun b => { b with regs := b.regs.charged 0 0 }) = s := by
      rw [State.modBlock_congr (g := fun b => b) (fun b _ => by simp [BlockRegs.charged, lower])]
      exact State.modBlock_id
    rw [this]; exact .refl s
  · simp only [h]
    set d := b.due.map fun d => { d with weight := d.weight + ci } with hd
    set b1 : Block := { b with regs := b.regs.charged ci ct, due := d } with hb1
    have hregs : b.regs.charged ci ct = { b.regs with
        ireel := (lower b.regs.ireel b.regs.iover ci).1, treel := (lower b.regs.treel b.regs.tover ct).1
        iover := (lower b.regs.ireel b.regs.iover ci).2, tover := (lower b.regs.treel b.regs.tover ct).2 } := rfl
    simp only [← hregs, ← hb1]
    have key (b2 : Block) (h2 : b2.undue = b1.undue) :
        SameButDue (s.modBlock n fun b => { b with regs := b.regs.charged ci ct }) (s.modBlock n fun _ => b2) := by
      have hid : b2.id = n := by
        have h3 : b2.undue.id = b1.undue.id := by rw [h2]
        have h4 : b2.id = b.id := h3
        rw [h4]; exact State.block?_id h
      refine ⟨fun m => ?_, rfl⟩
      by_cases hm : m = n
      · subst hm
        have e1 := State.block?_modBlock (s := s) (n := m) (f := fun _ => b2) fun _ _ => hid
        have e2 := State.block?_modBlock (s := s) (n := m) (f := fun b => { b with regs := b.regs.charged ci ct })
        rw [e1, e2, h]
        simp only [Option.map_some, h2]; rfl
      · have e1 := State.block?_modBlock_other (s := s) (f := fun _ => b2) hm fun _ _ => hid
        have e2 := State.block?_modBlock_other (s := s) (f := fun b => { b with regs := b.regs.charged ci ct }) hm
        rw [e1, e2]
    split
    · split
      · exact (key _ (by simp)).trans (sameButDue_recallGroup _ _)
      · exact (key _ rfl).trans (sameButDue_recallGroup _ _)
    · split
      · exact key _ (by simp)
      · exact key _ rfl

/-! ## The end of an issue (R88) -/

@[simp] theorem State.exitThreads_nil (s : State) (n : Nat) : s.exitThreads n [] = s := rfl

@[simp] theorem State.retireThreads_nil (s : State) (n : Nat) : s.retireThreads n [] = s := rfl

@[simp] theorem State.haltThreads_nil (s : State) (n : Nat) (h : Bool) : s.haltThreads n h [] = s := rfl

@[simp] theorem State.trapThreads_nil (s : State) (n : Nat) : s.trapThreads n [] = s := by
  unfold State.trapThreads; cases s.block? n <;> rfl

theorem pickFates_eq_nil {α : Type} (p : Fate → Option α) (fs : List (Nat × Fate)) (h : ∀ f ∈ fs, p f.2 = none) :
    pickFates p fs = [] := by
  unfold pickFates
  rw [List.filterMap_eq_nil_iff]
  intro f hf; simp [h f hf]

/-- The threads of an issue that no fate names. -/
def Ctx.idle (c : Ctx) (fs : List (Nat × Fate)) : List (Nat × Nat) := c.iss.ths.filter fun x => !fs.any fun f => f.1 == x.2

/-- What the fates of an issue do to its block. -/
def Ctx.settleBlock (c : Ctx) (now : Nat) (fs : List (Nat × Fate)) (b : Block) : Block :=
  (b.modThs fs (·.1) fun f => Thread.apply c now f.2).modThs (c.idle fs) (·.2) fun _ => Thread.go c.next

/-- The state of an issue whose threads have changed and whose reels are charged. -/
def State.settle1 (s : State) (c : Ctx) (fs : List (Nat × Fate)) : State :=
  if c.iss.handler then s.modBlock c.iss.blk (c.settleBlock s.clock.time fs)
  else (s.modBlock c.iss.blk (c.settleBlock s.clock.time fs)).charge c.iss.blk
    ((fs.filter fun k => k.2.completes).length * weight c.op c.w) ((fs.map fun k => k.2.bytes).foldl (· + ·) 0)

theorem State.finish_eq (s : State) (c : Ctx) (fs : List (Nat × Fate)) :
    s.finish c fs = ((s.heal (healed c.iss.blk fs)).settle1 c fs).conclude c fs := by
  simp only [State.finish, State.settle1, State.heal_clock]; rfl

/-- The order in which the fates of different threads are named does not matter. -/
theorem State.conclude_perm (s : State) (c : Ctx) {fs gs : List (Nat × Fate)} (h : fs.Perm gs) (hn : (gs.map (·.1)).Nodup) :
    s.conclude c fs = s.conclude c gs := by
  have key : c.ranked fs = c.ranked gs := by
    unfold Ctx.ranked
    congr 1
    funext x
    have one (as : List (Nat × Fate)) (hn : (as.map (·.1)).Nodup) (k : Nat × Fate) :
        (as.find? fun f => f.1 == x.2) = some k ↔ k ∈ as ∧ k.1 = x.2 := by
      constructor
      · intro h; exact ⟨List.mem_of_find?_eq_some h, by simpa using List.find?_some h⟩
      · rintro ⟨hk, he⟩
        induction as with
        | nil => cases hk
        | cons a as ih =>
          simp only [List.map_cons, List.nodup_cons, List.mem_map, not_exists, not_and] at hn
          rcases List.mem_cons.mp hk with rfl | hk
          · simp [he]
          · have : a.1 ≠ x.2 := fun e => hn.1 k hk (he.trans e.symm)
            rw [List.find?_cons_of_neg (by simpa using this)]
            exact ih hn.2 hk
    have hn' : (fs.map (·.1)).Nodup := (h.map _).nodup_iff.mpr hn
    cases hf : fs.find? fun f => f.1 == x.2 with
    | some k => exact ((one gs hn k).mpr ⟨h.mem_iff.mp ((one fs hn' k).mp hf).1, ((one fs hn' k).mp hf).2⟩).symm
    | none =>
      cases hg : gs.find? fun f => f.1 == x.2 with
      | none => rfl
      | some k =>
        have := (one fs hn' k).mpr ⟨h.mem_iff.mpr ((one gs hn k).mp hg).1, ((one gs hn k).mp hg).2⟩
        rw [hf] at this; cases this
  unfold State.conclude
  rw [key]

theorem foldl_add_perm {xs ys : List Nat} (h : xs.Perm ys) : xs.foldl (· + ·) 0 = ys.foldl (· + ·) 0 :=
  h.foldl_eq 0

/-- The threads of an issue change by their fates, and nothing else. -/
theorem State.settle1_settles {s : State} {c : Ctx} {b : Block} {f : Nat × Nat → Fate} {fs : List (Nat × Fate)}
    (hb : s.block? c.iss.blk = some b) (hn : (c.iss.ths.map (·.2)).Nodup) (hh : ∀ x ∈ c.iss.ths, b.has x.2)
    (hs : c.act.Sublist c.iss.ths) (hp : fs.Perm (c.actFates f)) :
    (∃ b', (s.settle1 c fs).block? c.iss.blk = some b' ∧
      (∀ x ∈ c.iss.ths, b'.th x.2 = c.after s.clock.time f b x) ∧
      (∀ n, n ∉ c.iss.ths.map (·.2) → b'.th n = b.th n) ∧
      b'.regs = (if c.iss.handler then b.regs else b.regs.charged (c.completed f * weight c.op c.w) (c.bytes f)) ∧
      { b' with threads := b.threads, handler := b.handler, regs := b.regs, due := b.due } = b) ∧
    (∀ n, n ≠ c.iss.blk → ((s.settle1 c fs).block? n).map Block.undue = (s.block? n).map Block.undue) ∧
    { s.settle1 c fs with blocks := s.blocks } = s := by
  have hmem (x : Nat × Nat) (hx : x ∈ c.iss.ths) (k : Fate) : (x.2, k) ∈ fs ↔ c.fateOf f x = some k := by
    rw [hp.mem_iff]
    simp only [Ctx.actFates, Ctx.fateOf, List.mem_map, Option.ite_none_right_eq_some, List.contains_iff_mem]
    constructor
    · rintro ⟨y, hy, he⟩
      obtain ⟨h1, rfl⟩ := Prod.mk.inj he
      have : y = x := List.inj_on_of_nodup_map hn (hs.subset hy) hx h1
      exact ⟨this ▸ hy, this ▸ rfl⟩
    · rintro ⟨h, he⟩; exact ⟨x, h, by rw [Option.some.inj he]⟩
  have hnf : (fs.map (·.1)).Nodup := by
    refine (hp.map _).nodup_iff.mpr ?_
    have : ((c.actFates f).map (·.1)).Sublist (c.iss.ths.map (·.2)) := by
      rw [Ctx.actFates, List.map_map]; exact hs.map _
    exact this.nodup hn
  have hidle : ∀ x ∈ c.iss.ths, (x ∈ c.idle fs ↔ c.fateOf f x = none) := by
    intro x hx
    simp only [Ctx.idle, List.mem_filter, hx, true_and, Bool.not_eq_true', List.any_eq_false, beq_iff_eq]
    constructor
    · intro h
      cases hk : c.fateOf f x with
      | none => rfl
      | some k => exact absurd rfl (h _ ((hmem x hx k).mpr hk))
    · rintro h ⟨n, k⟩ hk rfl
      rw [hmem x hx k, h] at hk; cases hk
  have hni : ((c.idle fs).map (·.2)).Nodup := (List.filter_sublist.map _).nodup hn
  set b' := c.settleBlock s.clock.time fs b with hb'
  have hfr : { b' with threads := b.threads, handler := b.handler } = b := by
    have h1 := (b.modThs fs (·.1) fun f => Thread.apply c s.clock.time f.2).modThs_frame (α := Nat × Nat)
      (·.2) (fun _ => Thread.go c.next) (c.idle fs)
    have h2 := b.modThs_frame (·.1) (fun f => Thread.apply c s.clock.time f.2) fs
    rw [hb', Ctx.settleBlock]
    generalize (Block.modThs (b.modThs fs _ _) _ _ _) = d at h1 ⊢
    rw [← h2, ← h1]
  have hth : ∀ x ∈ c.iss.ths, b'.th x.2 = c.after s.clock.time f b x := by
    intro x hx
    rw [hb', Ctx.settleBlock, Ctx.after]
    cases hk : c.fateOf f x with
    | none =>
      rw [Block.th_modThs (·.2) _ _ _ hni x ((hidle x hx).mpr hk) (by simpa using hh x hx)]
      rw [Block.th_modThs_other]
      rintro ⟨n, k⟩ hm rfl
      rw [hmem x hx k, hk] at hm; cases hm
    | some k =>
      rw [Block.th_modThs_other]
      · exact Block.th_modThs (·.1) _ fs b hnf (x.2, k) ((hmem x hx k).mpr hk) (hh x hx)
      · intro y hy he
        have hy' : y ∈ c.iss.ths := List.mem_of_mem_filter hy
        have : y = x := List.inj_on_of_nodup_map hn hy' hx he
        rw [this, hidle x hx, hk] at hy; cases hy
  have hot : ∀ n, n ∉ c.iss.ths.map (·.2) → b'.th n = b.th n := by
    intro n hn'
    rw [hb', Ctx.settleBlock, Block.th_modThs_other, Block.th_modThs_other]
    · rintro ⟨m, k⟩ hm rfl
      refine hn' ?_
      obtain ⟨y, hy, he⟩ := List.mem_map.mp (hp.mem_iff.mp hm)
      exact List.mem_map.mpr ⟨y, hs.subset hy, (Prod.mk.inj he).1⟩
    · intro y hy he
      exact hn' (List.mem_map.mpr ⟨y, List.mem_of_mem_filter hy, he⟩)
  rw [State.settle1]
  have hid : ∀ x, x.id = c.iss.blk → (c.settleBlock s.clock.time fs x).id = c.iss.blk := by
    intro x hx; simpa [Ctx.settleBlock] using hx
  have hs1 : (s.modBlock c.iss.blk (c.settleBlock s.clock.time fs)).block? c.iss.blk = some b' := by
    rw [State.block?_modBlock hid, hb]; rfl
  have hregs : b'.regs = b.regs := by rw [← hfr]
  split
  · rename_i hh'
    refine ⟨⟨b', hs1, hth, hot, by simp [hregs], by rw [← hfr]⟩, fun n h => ?_, rfl⟩
    rw [State.block?_modBlock_other h hid]
  · rename_i hh'
    have hcount : (fs.filter fun k => k.2.completes).length = c.completed f := ((hp.filter _).length_eq)
    have hbytes : (fs.map fun k => k.2.bytes).foldl (· + ·) 0 = c.bytes f := foldl_add_perm (hp.map _)
    rw [hcount, hbytes]
    set s1 := s.modBlock c.iss.blk (c.settleBlock s.clock.time fs)
    have hc := State.charge_block s1 c.iss.blk (c.completed f * weight c.op c.w) (c.bytes f) b' hs1
    have h1 := hc.1 c.iss.blk
    rw [State.block?_modBlock, hs1] at h1
    simp only [Option.map_some, Option.map_eq_some_iff] at h1
    obtain ⟨b2, h2, h3⟩ := h1
    have h4 : { b2 with due := b'.due } = { b' with regs := b'.regs.charged (c.completed f * weight c.op c.w) (c.bytes f) } := by
      have := congrArg (fun x : Block => { x with due := b'.due }) h3
      exact this
    have ht2 : ∀ n, b2.th n = b'.th n := by
      intro n
      have := congrArg (fun x : Block => x.th n) h4
      exact this
    refine ⟨⟨b2, h2, ?_, ?_, ?_, ?_⟩, fun n h => ?_, ?_⟩
    · intro x hx; rw [ht2, hth x hx]
    · intro n hn'; rw [ht2, hot n hn']
    · have := congrArg Block.regs h4
      rw [← hregs]; exact this
    · have k1 := congrArg (fun x : Block =>
        { x with threads := b.threads, handler := b.handler, regs := b.regs, due := b.due }) h4
      have k2 := congrArg (fun x : Block => { x with regs := b.regs, due := b.due }) hfr
      exact k1.trans k2
    · rw [hc.1 n, State.block?_modBlock_other h, State.block?_modBlock_other h hid]
    · exact congrArg (fun x : State => { x with blocks := s.blocks }) hc.2

theorem healed_perm (blk : Nat) {fs gs : List (Nat × Fate)} (h : fs.Perm gs) : healed blk fs = healed blk gs := by
  funext u
  cases u with
  | reg k t n =>
    simp only [healed]
    congr 1
    rw [Bool.eq_iff_iff, List.any_eq_true, List.any_eq_true]
    simp only [h.mem_iff]
  | _ => rfl

theorem State.heal_block? (s : State) (p : ErrUnit → Bool) (n : Nat) : (s.heal p).block? n = s.block? n := by
  unfold State.block?; rw [State.heal_blocks]

/-- Of the package, the end of errors changes their record alone. -/
theorem State.heal_frame (s : State) (p : ErrUnit → Bool) : { s.heal p with health := s.health } = s := by
  unfold State.heal; split <;> rfl

/-- The threads of an issue change by their fates, the errors that these end are gone, and nothing else changes. -/
theorem State.settle1_retires {s : State} {c : Ctx} {b : Block} {f : Nat × Nat → Fate} {fs : List (Nat × Fate)}
    (hb : s.block? c.iss.blk = some b) (hn : (c.iss.ths.map (·.2)).Nodup) (hh : ∀ x ∈ c.iss.ths, b.has x.2)
    (hs : c.act.Sublist c.iss.ths) (hp : fs.Perm (c.actFates f)) :
    Retires s ((s.heal (healed c.iss.blk fs)).settle1 c fs) c b f := by
  set u := s.heal (healed c.iss.blk fs) with hu
  have hbl (n : Nat) : u.block? n = s.block? n := s.heal_block? _ n
  obtain ⟨h1, h2, h3⟩ := State.settle1_settles (s := u) ((hbl _).trans hb) hn hh hs hp
  have ht : u.clock.time = s.clock.time := by rw [hu, State.heal_clock]
  rw [ht] at h1
  refine ⟨h1, fun n hn => by rw [h2 n hn, hbl], ?_, ?_⟩
  · have h4 := congrArg State.health h3
    rw [← healed_perm c.iss.blk hp]; exact h4
  · have h4 := congrArg (fun x : State => { x with blocks := s.blocks, health := s.health }) h3
    have h5 : ({ u with health := s.health } : State) = s := s.heal_frame _
    have h6 : u.blocks = s.blocks := s.heal_blocks _
    refine h4.trans ?_
    rw [← h6]; exact h5

/-! ## Corrections before the meaning (R413) -/

theorem State.correctUnits_bad (s : State) (die : Nat) (p : ErrUnit → Bool) : (s.correctUnits die p).health.bad.Sublist s.health.bad := by
  have hcand (s : State) (pa : Nat) : (s.candidate pa).health.bad.Sublist s.health.bad := by
    unfold State.candidate
    extract_lets f own
    generalize own = own
    split
    · exact .refl _
    · split
      · exact .refl _
      · rw [State.raiseAlert_health]; exact List.filter_sublist
  have hcor (s : State) (store die addr : Nat) : (s.corrected store die addr).health.bad.Sublist s.health.bad := by
    unfold State.corrected
    dsimp only
    split
    · exact .refl _
    · exact List.filter_sublist
  have hhbm (s : State) (pa : Nat) : (s.correctedHbm pa).health.bad.Sublist s.health.bad := by
    unfold State.correctedHbm
    dsimp only
    split
    · exact (hcand _ _).trans (hcor s 0 (frameOf pa).1 pa)
    · exact hcor s 0 (frameOf pa).1 pa
  unfold State.correctUnits
  generalize s.health.soft.filter p = us
  induction us generalizing s with
  | nil => exact .refl _
  | cons u us ih =>
    refine (ih _).trans ?_
    dsimp only
    split
    · exact hhbm _ _
    · exact hcor _ _ _ _

theorem State.correctUnits_blocks (s : State) (die : Nat) (p : ErrUnit → Bool) : (s.correctUnits die p).blocks = s.blocks := by
  have hcand (s : State) (pa : Nat) : (s.candidate pa).blocks = s.blocks := by
    unfold State.candidate
    extract_lets f own
    generalize own = own
    split
    · rfl
    · split
      · rfl
      · rw [State.raiseAlert_blocks]; rfl
  have hcor (s : State) (store die addr : Nat) : (s.corrected store die addr).blocks = s.blocks := by
    unfold State.corrected
    dsimp only
    split <;> rfl
  have hhbm (s : State) (pa : Nat) : (s.correctedHbm pa).blocks = s.blocks := by
    unfold State.correctedHbm
    dsimp only
    split
    · exact (hcand _ _).trans (hcor s 0 (frameOf pa).1 pa)
    · exact hcor s 0 (frameOf pa).1 pa
  unfold State.correctUnits
  generalize s.health.soft.filter p = us
  induction us generalizing s with
  | nil => rfl
  | cons u us ih =>
    refine (ih _).trans ?_
    dsimp only
    split
    · exact hhbm _ _
    · exact hcor _ _ _ _

/-- Corrections leave an issue as sound as it was. -/
theorem State.Runs.ready {s : State} {iss : Issue} {op : Nat} {w : CWord} {b : Block} (h : s.Runs iss op w b) (c : Ctx) :
    (s.ready c).Runs iss op w b := by
  have hb : (s.ready c).blocks = s.blocks := State.correctUnits_blocks _ _ _
  have hsub := (State.correctUnits_bad s c.b.die c.readsUnit).subset
  refine ⟨by unfold State.block?; rw [hb]; exact h.found, h.nodup, h.has, h.place, h.mode, h.static, fun x hx => ?_, h.room⟩
  have h1 := h.sound x hx
  have key (u : ErrUnit) : (s.ready c).health.bad.contains u = true → s.health.bad.contains u = true := by
    simp only [List.contains_iff_mem]; exact fun h => hsub h
  rw [← Bool.not_eq_true] at h1 ⊢
  refine fun h2 => h1 ?_
  simp only [State.badReg, State.badFile, Bool.and_eq_true, Bool.or_eq_true, List.any_eq_true, Bool.not_eq_true',
    List.isEmpty_eq_false_iff] at h2 ⊢
  obtain ⟨h3, h2⟩ := h2
  refine ⟨fun e => h3 (List.sublist_nil.mp (e ▸ State.correctUnits_bad s c.b.die c.readsUnit)), ?_⟩
  rcases h2 with ((⟨n, hn, k⟩ | ⟨n, hn, k⟩) | ⟨n, hn, k⟩) | ⟨n, hn, k⟩
  · exact .inl (.inl (.inl ⟨n, hn, key _ k⟩))
  · exact .inl (.inl (.inr ⟨n, hn, key _ k⟩))
  · exact .inl (.inr ⟨n, hn, key _ k⟩)
  · exact .inr ⟨n, hn, key _ k⟩

/-! ## Before the meaning (R38, R47, R70, R375) -/

theorem State.modBlock_self {s : State} {n : Nat} {f : Block → Block} (h : ∀ b, s.block? n = some b → f b = b) :
    s.modBlock n f = s := by
  rw [State.modBlock_congr (g := fun b => b) h, State.modBlock_id]

/-- What becomes of the active threads that a meaning does not name: one that is on completes, one that is masked off
goes on as R40 has it. -/
def Ctx.rest (c : Ctx) (fs : List (Nat × Fate)) : List (Nat × Fate) :=
  ((c.on.filter fun x => !fs.any (·.1 == x.2)).map fun x => (x.2, Fate.done)) ++
    ((c.act.filter fun x => !c.on.contains x).filter fun x => !fs.any (·.1 == x.2)).map fun x =>
      (x.2, Fate.masked (if c.w.zeroing then zeroWrites c.op c.w else []))

namespace State.Runs

variable {s : State} {iss : Issue} {op : Nat} {w : CWord} {b : Block}

theorem arrive_eq {s : State} {iss : Issue} {b : Block} (found : s.block? iss.blk = some b)
    (h1 : ∀ x ∈ iss.ths, (b.th x.2).outst = []) : s.arrive iss op = s := by
  unfold State.arrive
  split
  · rfl
  generalize iss.ths = xs at h1
  induction xs with
  | nil => rfl
  | cons x xs ih =>
    have h2 := h1 x List.mem_cons_self
    rw [List.foldl_cons]
    simp only [found, h2, List.isEmpty_nil, if_true]
    exact ih fun y hy => h1 y (List.mem_cons_of_mem _ hy)

theorem early_eq (h : s.Runs iss op w b) : s.early (ctxOf iss op w b) = [] := by
  set c := ctxOf iss op w b with hc
  have hpos : c.iss.ths.filter (fun x => clauseEnding c.op c.w && decide (1 < (c.b.th x.2).inClause)) = [] := by
    rw [List.filter_eq_nil_iff]
    intro x hx
    show ¬(clauseEnding op w && decide (1 < (b.th x.2).inClause)) = true
    cases hce : clauseEnding op w with
    | false => simp
    | true => have := h.place hce x hx; simp; omega
  have hm : (c.iss.handler && handlerForbids c.op c.w) = false := h.mode
  have hst : staticOk c.b.cfg c.iss.handler c.op c.w = true := h.static
  have hbad (x : Nat × Nat) : (c.on.contains x && s.badReg c.iss.blk x.2 c.op c.w) = false := by
    cases ho : c.on.contains x with
    | false => rfl
    | true => exact h.sound x (List.contains_iff_mem.mp ho)
  unfold State.early
  simp only [hpos, hm, hst, hbad, List.map_nil, List.nil_append, Bool.false_eq_true, if_false, Bool.not_true,
    Option.map_none]
  rw [List.filterMap_eq_nil_iff]
  intro x _; rfl

theorem on_sub (h : x ∈ (ctxOf iss op w b).on) : x ∈ (ctxOf iss op w b).act := List.mem_of_mem_filter h

theorem act_sub (h : x ∈ (ctxOf iss op w b).act) : x ∈ iss.ths := List.mem_of_mem_filter h

/-- The issue is its meaning's answer, finished. -/
theorem runIssue_eq (hcur : s.cur = some iss) (h : (s.arrive iss op).Runs iss op w b)
    (act : Ctx → State → State × List (Nat × Fate)) :
    s.runIssue op w act =
      let c := ctxOf iss op w b
      let u := (s.arrive iss op).ready c
      let r := if c.act.isEmpty then (u, []) else act c u
      (r.1.wrote c r.2).finish c (r.2 ++ c.rest r.2) := by
  unfold State.runIssue State.runIssueOf
  simp only [hcur, h.found, h.room, h.early_eq, State.noteEarly, List.any_nil, Bool.false_eq_true, if_false,
    List.map_nil, List.append_nil, Bool.not_false, List.filter_true, Ctx.rest, List.append_assoc]
  rfl

theorem nodup_ths (h : s.Runs iss op w b) : iss.ths.Nodup := List.Nodup.of_map _ h.nodup

theorem act_sublist (iss : Issue) (op : Nat) (w : CWord) (b : Block) : (ctxOf iss op w b).act.Sublist (ctxOf iss op w b).iss.ths :=
  List.filter_sublist

/-- The fates of the threads that are on, with those of the threads masked off, are those of the active threads. -/
theorem fates_perm (iss : Issue) (op : Nat) (w : CWord) (b : Block) (f : Nat × Nat → Fate) :
    (((ctxOf iss op w b).onFates f) ++
      (((ctxOf iss op w b).act.filter fun x => !(ctxOf iss op w b).on.contains x).map fun x =>
        (x.2, Fate.masked (if w.zeroing then zeroWrites op w else [])))).Perm
      ((ctxOf iss op w b).actFates ((ctxOf iss op w b).full f)) := by
  set c := ctxOf iss op w b with hc
  let p (x : Nat × Nat) : Bool := !w.maskEn || (b.th x.2).pred w.maskPred
  have hon : c.on = c.act.filter p := rfl
  have hcon : ∀ x ∈ c.act, c.on.contains x = p x := by
    intro x hx
    rw [Bool.eq_iff_iff, List.contains_iff_mem, hon, List.mem_filter]
    simp [hx]
  have hoff : c.act.filter (fun x => !c.on.contains x) = c.act.filter fun x => !p x :=
    List.filter_congr fun x hx => by rw [hcon x hx]
  have e1 : c.onFates f = c.on.map fun x => (x.2, c.full f x) :=
    List.map_congr_left fun x hx => by simp only [Ctx.full, List.contains_iff_mem.mpr hx, if_true]
  have e2 : ((c.act.filter fun x => !c.on.contains x).map fun x =>
        (x.2, Fate.masked (if w.zeroing then zeroWrites op w else []))) =
      (c.act.filter fun x => !c.on.contains x).map fun x => (x.2, c.full f x) := by
    refine List.map_congr_left fun x hx => ?_
    have hno : c.on.contains x = false := by simpa using (List.mem_filter.mp hx).2
    simp only [Ctx.full, hno, Bool.false_eq_true, if_false]; rfl
  rw [e1, e2, ← List.map_append, hoff, hon]
  exact (List.filter_append_perm p c.act).map _

/-- Named fates that every thread of a list finds. -/
theorem unnamed_nil {xs : List (Nat × Nat)} {fs : List (Nat × Fate)} (h : ∀ x ∈ xs, ∃ k, (x.2, k) ∈ fs) :
    (xs.filter fun x => !fs.any (·.1 == x.2)) = [] := by
  rw [List.filter_eq_nil_iff]
  intro x hx
  obtain ⟨k, hk⟩ := h x hx
  simp only [Bool.not_eq_true', Bool.not_eq_false, List.any_eq_true]
  exact ⟨_, hk, by simp⟩

/-- A meaning whose fates, with those of the threads that it does not name, are a fate for each active thread. -/
theorem retires_all (hcur : s.cur = some iss) (h : (s.arrive iss op).Runs iss op w b)
    (hne : (ctxOf iss op w b).act ≠ []) {act : Ctx → State → State × List (Nat × Fate)}
    {s1 : State} {b1 : Block} {f : Nat × Nat → Fate} {fs : List (Nat × Fate)}
    (ha : act (ctxOf iss op w b) ((s.arrive iss op).ready (ctxOf iss op w b)) = (s1, fs))
    (hp : (fs ++ (ctxOf iss op w b).rest fs).Perm ((ctxOf iss op w b).actFates f))
    (hb : s1.block? iss.blk = some b1) (hh : ∀ x ∈ iss.ths, b1.has x.2) :
    ∃ t, s.runIssue op w act = t.conclude (ctxOf iss op w b) ((ctxOf iss op w b).actFates f) ∧
      Retires (s1.wrote (ctxOf iss op w b) ((ctxOf iss op w b).actFates f)) t (ctxOf iss op w b) b1 f := by
  set c := ctxOf iss op w b with hc
  have hsub := act_sublist iss op w b
  have hw : s1.wrote c fs = s1.wrote c (c.actFates f) := by
    have e : (fs.all fun f => f.2.completes) = ((c.actFates f).all fun f => f.2.completes) := by
      have hrest : ((c.rest fs).all fun f => f.2.completes) = true := by
        simp [Ctx.rest, List.all_append, List.all_map, Fate.completes, Function.comp_def]
      have h1 : ((fs ++ c.rest fs).all fun f => f.2.completes) = ((c.actFates f).all fun f => f.2.completes) := by
        rw [Bool.eq_iff_iff, List.all_eq_true, List.all_eq_true]
        simp only [hp.mem_iff]
      rw [← h1, List.all_append, hrest, Bool.and_true]
    unfold State.wrote; rw [e]
  have hb' : (s1.wrote c (c.actFates f)).block? iss.blk = some b1 := by
    unfold State.wrote
    split
    · rw [State.heal_block?]; exact hb
    · exact hb
  have hnd : ((c.actFates f).map (·.1)).Nodup := by
    rw [Ctx.actFates, List.map_map]; exact (hsub.map _).nodup h.nodup
  rw [runIssue_eq hcur h]
  simp only [← hc, List.isEmpty_iff, if_neg hne, ha]
  rw [State.finish_eq, State.conclude_perm _ _ hp hnd, hw]
  exact ⟨_, rfl, State.settle1_retires hb' h.nodup hh hsub hp⟩

/-- A meaning that gives every thread that is on a fate, in some order of them. -/
theorem retires (hcur : s.cur = some iss) (h : (s.arrive iss op).Runs iss op w b)
    (hne : (ctxOf iss op w b).act ≠ []) {act : Ctx → State → State × List (Nat × Fate)}
    {s1 : State} {b1 : Block} {f : Nat × Nat → Fate} {fs : List (Nat × Fate)}
    (ha : act (ctxOf iss op w b) ((s.arrive iss op).ready (ctxOf iss op w b)) = (s1, fs))
    (hp : fs.Perm ((ctxOf iss op w b).onFates f))
    (hb : s1.block? iss.blk = some b1) (hh : ∀ x ∈ iss.ths, b1.has x.2) :
    ∃ t, s.runIssue op w act = t.conclude (ctxOf iss op w b) ((ctxOf iss op w b).actFates ((ctxOf iss op w b).full f)) ∧
      Retires (s1.wrote (ctxOf iss op w b) ((ctxOf iss op w b).actFates ((ctxOf iss op w b).full f))) t (ctxOf iss op w b) b1
        ((ctxOf iss op w b).full f) := by
  refine retires_all hcur h hne ha ?_ hb hh
  refine .trans ?_ (fates_perm iss op w b f)
  refine (hp.append_right _).trans (.append_left _ (.of_eq ?_))
  rw [Ctx.rest, unnamed_nil fun x hx => ⟨f x, hp.mem_iff.mpr (List.mem_map_of_mem hx)⟩, List.map_nil, List.nil_append]
  refine congrArg (List.map _) ?_
  refine List.filter_eq_self.mpr fun x hx => ?_
  obtain ⟨hx1, hx2⟩ := List.mem_filter.mp hx
  simp only [Bool.not_eq_true', List.any_eq_false, beq_iff_eq]
  intro k hk e
  obtain ⟨y, hy, rfl⟩ := List.mem_map.mp (hp.mem_iff.mp hk)
  have : y = x := List.inj_on_of_nodup_map h.nodup (act_sub (on_sub hy)) (act_sub hx1) e
  subst this
  exact absurd (List.contains_iff_mem.mpr hy) (by simpa using hx2)

/-- A meaning that names no thread: every thread that is on completes. -/
theorem retires_done (hcur : s.cur = some iss) (h : (s.arrive iss op).Runs iss op w b)
    (hne : (ctxOf iss op w b).act ≠ []) {act : Ctx → State → State × List (Nat × Fate)} {s1 : State} {b1 : Block}
    (ha : act (ctxOf iss op w b) ((s.arrive iss op).ready (ctxOf iss op w b)) = (s1, []))
    (hb : s1.block? iss.blk = some b1) (hh : ∀ x ∈ iss.ths, b1.has x.2) :
    ∃ t, s.runIssue op w act = t.conclude (ctxOf iss op w b)
        ((ctxOf iss op w b).actFates ((ctxOf iss op w b).full fun _ => .done)) ∧
      Retires (s1.wrote (ctxOf iss op w b) ((ctxOf iss op w b).actFates ((ctxOf iss op w b).full fun _ => .done))) t
        (ctxOf iss op w b) b1 ((ctxOf iss op w b).full fun _ => .done) := by
  refine retires_all hcur h hne ha ?_ hb hh
  refine .trans (.of_eq ?_) (fates_perm iss op w b fun _ => .done)
  simp only [Ctx.rest, List.nil_append, List.any_nil, Bool.not_false, List.filter_true]; rfl

end State.Runs

/-! ## What an instruction does -/

/-- Quiet fates end an issue with nothing more. -/
theorem State.conclude_quiet (s : State) (c : Ctx) (fs : List (Nat × Fate)) (hq : ∀ f ∈ fs, f.2.quiet = true) :
    s.conclude c fs = s := by
  have hr : ∀ f ∈ c.ranked fs, f.2.quiet = true := by
    intro f hf
    simp only [Ctx.ranked, List.mem_filterMap] at hf
    obtain ⟨x, -, hx⟩ := hf
    exact hq f (List.mem_of_find?_eq_some hx)
  have h1 : ((c.ranked fs).any fun f => f.2.waits) = false := by
    rw [List.any_eq_false]
    intro f hf; have := hr f hf; cases h : f.2 <;> simp_all [Fate.quiet, Fate.waits]
  have h2 : ((c.ranked fs).filter fun f => f.2 == .exit) = [] := by
    rw [List.filter_eq_nil_iff]
    intro f hf; have := hr f hf; cases h : f.2 <;> simp_all [Fate.quiet]
  have h3 (off : Bool) : pickFates (Fate.retires? off) (c.ranked fs) = [] := pickFates_eq_nil _ _ fun f hf => by
    have := hr f hf; cases h : f.2 <;> simp_all [Fate.quiet, Fate.retires?]
  have h4 (off : Bool) : pickFates (Fate.halts? off) (c.ranked fs) = [] := pickFates_eq_nil _ _ fun f hf => by
    have := hr f hf; cases h : f.2 <;> simp_all [Fate.quiet, Fate.halts?]
  unfold State.conclude
  simp only [h1, h2, h3, h4, Bool.false_eq_true, if_false, List.map_nil, State.exitThreads_nil, State.retireThreads_nil,
    State.haltThreads_nil]

/-- A thread that is masked off ends nothing. -/
theorem Ctx.full_quiet {c : Ctx} {f : Nat × Nat → Fate} (h : ∀ x ∈ c.on, (f x).quiet = true) :
    ∀ k ∈ c.actFates (c.full f), k.2.quiet = true := by
  intro k hk
  obtain ⟨x, -, rfl⟩ := List.mem_map.mp hk
  simp only [Ctx.full]
  split
  · rename_i hx; exact h x (List.contains_iff_mem.mp hx)
  · rfl

/-- An instruction whose meaning answers an effect and a fate for each active thread. -/
theorem doesAll_of_runIssue {i : Instr} {op : Nat} {w : CWord} {ok : Ctx → State → Prop} {eff : Ctx → State → State}
    {f : Ctx → State → Nat × Nat → Fate} {act : Ctx → State → State × List (Nat × Fate)}
    (hi : ∀ s, exec i s = .next (s.runIssue op w act))
    (ha : ∀ s iss b, s.Runs iss op w b → ok (ctxOf iss op w b) s →
      act (ctxOf iss op w b) s = (eff (ctxOf iss op w b) s, (ctxOf iss op w b).actFates (f (ctxOf iss op w b) s)))
    (hb : ∀ s iss b, s.Runs iss op w b → ok (ctxOf iss op w b) s →
      ∃ b1, (eff (ctxOf iss op w b) s).block? iss.blk = some b1 ∧ ∀ t, b.has t → b1.has t) : DoesAll i op w ok eff f := by
  intro s iss b hcur h c u hact hok
  obtain ⟨b1, hb1, hh⟩ := hb _ iss b (h.ready c) hok
  have hnamed : ∀ x ∈ c.act, ∃ k, (x.2, k) ∈ c.actFates (f c u) := fun x hx =>
    ⟨f c u x, List.mem_map_of_mem (f := fun x => (x.2, f c u x)) hx⟩
  have hrest : c.rest (c.actFates (f c u)) = [] := by
    rw [Ctx.rest, State.Runs.unnamed_nil fun x hx => hnamed x (State.Runs.on_sub hx),
      State.Runs.unnamed_nil fun x hx => hnamed x (List.mem_of_mem_filter hx)]
    rfl
  obtain ⟨t, ht, hr⟩ := State.Runs.retires_all (act := act) hcur h hact (ha _ iss b (h.ready c) hok)
    (by rw [hrest, List.append_nil]) hb1 (fun x hx => hh _ (h.has x hx))
  exact ⟨t, b1, by rw [hi, ht], hb1, hr⟩

/-- An instruction whose meaning answers an effect and a fate for each thread that is on. -/
theorem does_of_runIssue {i : Instr} {op : Nat} {w : CWord} {ok : Ctx → State → Prop} {eff : Ctx → State → State}
    {f : Ctx → State → Nat × Nat → Fate} {act : Ctx → State → State × List (Nat × Fate)}
    (hi : ∀ s, exec i s = .next (s.runIssue op w act))
    (ha : ∀ s iss b, s.Runs iss op w b → ok (ctxOf iss op w b) s →
      act (ctxOf iss op w b) s = (eff (ctxOf iss op w b) s, (ctxOf iss op w b).onFates (f (ctxOf iss op w b) s)))
    (hb : ∀ s iss b, s.Runs iss op w b → ok (ctxOf iss op w b) s →
      ∃ b1, (eff (ctxOf iss op w b) s).block? iss.blk = some b1 ∧ ∀ t, b.has t → b1.has t) : Does i op w ok eff f := by
  intro s iss b hcur h c u hact hok
  obtain ⟨b1, hb1, hh⟩ := hb _ iss b (h.ready c) hok
  obtain ⟨t, ht, hr⟩ := State.Runs.retires (act := act) hcur h hact (ha _ iss b (h.ready c) hok) (.refl _) hb1
    (fun x hx => hh _ (h.has x hx))
  exact ⟨t, b1, by rw [hi, ht], hb1, hr⟩

/-- An instruction whose meaning answers an effect alone. -/
theorem does_of_effect {i : Instr} {op : Nat} {w : CWord} {ok : Ctx → State → Prop} {eff : Ctx → State → State}
    {act : Ctx → State → State × List (Nat × Fate)}
    (hi : ∀ s, exec i s = .next (s.runIssue op w act))
    (ha : ∀ s iss b, s.Runs iss op w b → ok (ctxOf iss op w b) s →
      act (ctxOf iss op w b) s = (eff (ctxOf iss op w b) s, []))
    (hb : ∀ s iss b, s.Runs iss op w b → ok (ctxOf iss op w b) s →
      ∃ b1, (eff (ctxOf iss op w b) s).block? iss.blk = some b1 ∧ ∀ t, b.has t → b1.has t) :
    Does i op w ok eff fun _ _ _ => .done := by
  intro s iss b hcur h c u hact hok
  obtain ⟨b1, hb1, hh⟩ := hb _ iss b (h.ready c) hok
  obtain ⟨t, ht, hr⟩ := State.Runs.retires_done (act := act) hcur h hact (ha _ iss b (h.ready c) hok) hb1
    (fun x hx => hh _ (h.has x hx))
  exact ⟨t, b1, by rw [hi, ht], hb1, hr⟩

/-- Conditions, effects and fates of the same meaning, for the contexts of its word. -/
theorem DoesAll.congr {i : Instr} {op : Nat} {w : CWord} {ok ok' : Ctx → State → Prop} {eff eff' : Ctx → State → State}
    {f f' : Ctx → State → Nat × Nat → Fate} (h : DoesAll i op w ok eff f)
    (hc : ∀ c s, c.w = w → c.op = op → ok' c s → ok c s ∧ eff' c s = eff c s ∧ f' c s = f c s) :
    DoesAll i op w ok' eff' f' := by
  intro s iss b hcur hr c u hact hok
  obtain ⟨h1, h2, h3⟩ := hc c u rfl rfl hok
  rw [h2, h3]
  exact h s iss b hcur hr hact h1

theorem Does.congr {i : Instr} {op : Nat} {w : CWord} {ok ok' : Ctx → State → Prop} {eff eff' : Ctx → State → State}
    {f f' : Ctx → State → Nat × Nat → Fate} (h : Does i op w ok eff f)
    (hc : ∀ c s, c.w = w → c.op = op → ok' c s → ok c s ∧ eff' c s = eff c s ∧ ∀ x ∈ c.on, f' c s x = f c s x) :
    Does i op w ok' eff' f' := by
  refine DoesAll.congr h fun c s hw ho hok => ?_
  obtain ⟨h1, h2, h3⟩ := hc c s hw ho hok
  refine ⟨h1, h2, funext fun x => ?_⟩
  unfold Ctx.full
  split
  · rename_i hx; exact h3 x (List.contains_iff_mem.mp hx)
  · rfl

@[simp] theorem Block.uniformWrite_id (b : Block) (pc : DWord) (ts : List Nat) (n : Nat) (v : DWord) :
    (b.uniformWrite pc ts n v).id = b.id := rfl

/-- An instruction of the arithmetic shape computes its function. -/
theorem computes_of_runAlu {i : Instr} {op : Nat} {w : CWord} {g : Opnd → Alu}
    (hi : ∀ s, exec i s = .next (s.runAlu op w g)) : Computes i op w g := by
  constructor
  · refine does_of_runIssue hi ?_ (fun s iss b h _ => ⟨b, h.found, fun _ k => k⟩)
    rintro s iss b h hd
    unfold State.aluAct
    cases hc : (sig op w).d with
    | s n => exact absurd hc (hd n)
    | _ => simp only; rfl
  · refine does_of_effect hi ?_ ?_
    · rintro s iss b h ⟨⟨n, hd⟩, k, v, q, hv⟩
      have hv' : g { b := (ctxOf iss op w b).b, th := (ctxOf iss op w b).b.handler } = .val k v q := hv
      simp only [State.aluAct, hd, hv', Alu.value]
    · rintro s iss b h ⟨⟨n, hd⟩, k, v, q, hv⟩
      refine ⟨b.uniformWrite (ctxOf iss op w b).pc ((ctxOf iss op w b).on.map (·.2)) w.d.toNat
        (BitVec.ofNat 64 (g { b := b, th := b.handler }).value), ?_, fun t ht => ht⟩
      show (s.modBlock iss.blk _).block? iss.blk = _
      rw [State.block?_modBlock, h.found]
      · rfl

/-- Every instruction but TSPAWN, whose inline child may stop the block, is one issue of its word. -/
theorem exec_runIssue {i : Instr} {op : Nat} {w : CWord} (h : i.opWord = some (op, w)) (ht : op ≠ 0x288) :
    ∃ act, ∀ s, exec i s = .next (s.runIssue op w act) := by
  cases i <;> first
    | (cases h; exact ⟨_, fun _ => rfl⟩)
    | (cases h; exact absurd rfl ht)
    | (cases h)

end Sys2Proof.Machine
end

