-- ==== Sys2Proof/Laws/Keeps.lean ====
section
/-! SUPPORT. What the shared operations keep: every block stays, with its launch record and its number of threads.
So the effect of an instruction has a block for its issue to retire from. -/

namespace Sys2Proof.Machine

/-- What no operation on a block changes. -/
def Block.shape (b : Block) : Nat × LaunchRec × Nat := (b.id, b.cfg, b.threads.length)

/-- A change of a block that keeps its shape. -/
def Block.Same (f : Block → Block) : Prop := ∀ b, (f b).shape = b.shape

/-- Every block of one state is a block of the other, of the same shape. -/
def Keeps (s t : State) : Prop := ∀ n b, s.block? n = some b → ∃ b', t.block? n = some b' ∧ b'.shape = b.shape

theorem Keeps.refl (s : State) : Keeps s s := fun _ b h => ⟨b, h, rfl⟩

theorem Keeps.trans {s t u : State} (h : Keeps s t) (k : Keeps t u) : Keeps s u := by
  intro n b hb
  obtain ⟨b1, h1, e1⟩ := h n b hb
  obtain ⟨b2, h2, e2⟩ := k n b1 h1
  exact ⟨b2, h2, e2.trans e1⟩

theorem Keeps.after {s t u : State} (k : Keeps t u) (h : Keeps s t) : Keeps s u := h.trans k

/-- A block of the same shape has the same threads. -/
theorem Block.has_of_shape {b b' : Block} (h : b'.shape = b.shape) (t : Nat) : b'.has t ↔ b.has t := by
  obtain ⟨h1, h2, h3⟩ : b'.id = b.id ∧ b'.cfg = b.cfg ∧ b'.threads.length = b.threads.length := by
    simpa [Block.shape] using h
  simp [Block.has, h2, h3]

/-- The block that an issue retires from, after an effect that keeps blocks. -/
theorem Keeps.block {s t : State} (h : Keeps s t) {n : Nat} {b : Block} (hb : s.block? n = some b) :
    ∃ b1, t.block? n = some b1 ∧ ∀ u, b.has u → b1.has u := by
  obtain ⟨b1, h1, e⟩ := h n b hb
  exact ⟨b1, h1, fun u hu => (Block.has_of_shape e u).mpr hu⟩

theorem Keeps.of_blocks {s t : State} (h : t.blocks = s.blocks) : Keeps s t := by
  intro n b hb
  exact ⟨b, by unfold State.block? at hb ⊢; rw [h]; exact hb, rfl⟩

theorem Keeps.foldl {α : Type} {f : State → α → State} (h : ∀ s x, Keeps s (f s x)) (xs : List α) (s : State) :
    Keeps s (xs.foldl f s) := by
  induction xs generalizing s with
  | nil => exact .refl s
  | cons x xs ih => exact (h s x).trans (ih _)

theorem Block.shape_id {b b' : Block} (h : b'.shape = b.shape) : b'.id = b.id := congrArg (·.1) h

theorem keeps_modBlock {s : State} {n : Nat} {f : Block → Block}
    (hf : ∀ b, s.block? n = some b → (f b).shape = b.shape) : Keeps s (s.modBlock n f) := by
  intro m b hb
  by_cases hm : m = n
  · subst hm
    have : s.modBlock m f = s.modBlock m fun _ => f b := State.modBlock_const hb
    have hid := State.block?_id hb
    refine ⟨f b, ?_, hf b hb⟩
    rw [this, State.block?_modBlock fun _ _ => (Block.shape_id (hf b hb)).trans hid, hb]
    rfl
  · cases hn : s.block? n with
    | none =>
      refine ⟨b, ?_, rfl⟩
      have : s.modBlock n f = s.modBlock n fun b => b :=
        State.modBlock_congr fun c hc => absurd hc (by simp [hn])
      rw [this, State.modBlock_id]
      exact hb
    | some c =>
      have hid := State.block?_id hn
      refine ⟨b, ?_, rfl⟩
      rw [State.modBlock_const hn, State.block?_modBlock_other hm fun _ _ => (Block.shape_id (hf c hn)).trans hid]
      exact hb

theorem keeps_mapBlocks {s t : State} {f : Block → Block} (ht : t.blocks = s.blocks.map f)
    (hf : Block.Same f) : Keeps s t := by
  intro n b hb
  refine ⟨f b, ?_, hf b⟩
  unfold State.block? at hb ⊢
  rw [ht]
  generalize s.blocks = xs at hb
  induction xs with
  | nil => cases hb
  | cons x xs ih =>
    have hid : (f x).id = x.id := Block.shape_id (hf x)
    by_cases hx : x.id = n
    · simp only [List.find?_cons, hx, beq_self_eq_true] at hb
      cases hb
      simp [hid, hx]
    · simp only [List.find?_cons, beq_eq_false_iff_ne.mpr hx] at hb
      simp only [List.map_cons, List.find?_cons, hid, beq_eq_false_iff_ne.mpr hx]
      exact ih hb

/-! ## Blocks -/

@[simp] theorem Block.shape_modTh (b : Block) (t : Nat) (f : Thread → Thread) : (b.modTh t f).shape = b.shape := by
  simp [Block.shape]

@[simp] theorem Block.shape_mapTh (b : Block) (f : Nat → Thread → Thread) : (b.mapTh f).shape = b.shape := by
  simp [Block.shape, Block.mapTh]

theorem Block.shape_foldl {α : Type} {f : Block → α → Block} (h : ∀ b x, (f b x).shape = b.shape) (xs : List α) (b : Block) :
    (xs.foldl f b).shape = b.shape := by
  induction xs generalizing b with
  | nil => rfl
  | cons x xs ih => exact (ih _).trans (h b x)

@[simp] theorem Block.shape_foldl_modTh {α : Type} (key : α → Nat) (f : α → Thread → Thread) (xs : List α) (b : Block) :
    (xs.foldl (fun b x => b.modTh (key x) (f x)) b).shape = b.shape :=
  Block.shape_foldl (fun b _ => b.shape_modTh _ _) xs b

@[simp] theorem Block.shape_dissolveAll (b : Block) : b.dissolveAll.shape = b.shape := by
  have h := b.shape_mapTh
  unfold Block.dissolveAll
  exact h _

@[simp] theorem Block.shape_dissolve (b : Block) (id : Nat) (r : Bool) : (b.dissolve id r).shape = b.shape := by
  unfold Block.dissolve
  split
  · rfl
  · exact Block.shape_foldl (f := fun b t => b.modTh t _) (fun b t => Block.shape_modTh b t _) _ b

@[simp] theorem Block.shape_modPlait (b : Block) (id : Nat) (f : Plait → Plait) : (b.modPlait id f).shape = b.shape := rfl

@[simp] theorem Block.shape_endPlait (b : Block) (id : Nat) : (b.endPlait id).shape = b.shape := by
  unfold Block.endPlait
  split
  · rfl
  · split
    · rfl
    · exact Block.shape_dissolve _ _ _

@[simp] theorem Block.shape_quit (b : Block) (ts : List Nat) : (b.quit ts).shape = b.shape := by
  unfold Block.quit
  exact (Block.shape_foldl (f := fun (b : Block) (p : Plait) => b.endPlait p.id) (fun b p => b.shape_endPlait _) _ _).trans
    (Block.shape_foldl_modTh (fun t => t) _ ts b)

@[simp] theorem Block.shape_finish (b : Block) : b.finish.shape = b.shape := rfl

@[simp] theorem Block.shape_stop (b : Block) (ts : List Nat) : (b.stop ts).shape = b.shape := by
  unfold Block.stop
  exact (Block.shape_dissolveAll _).trans (Block.shape_foldl_modTh (fun t => t) _ ts b)

@[simp] theorem Block.shape_release (b : Block) (lens : Nat → Nat) (ts : List Nat) (f : Nat → Thread → Thread) :
    (b.release lens ts f).shape = b.shape := by
  unfold Block.release
  exact (Block.shape_foldl (f := fun b t => b.modTh t _) (fun b t => Block.shape_modTh b t _) ts _).trans (Block.shape_quit _ _)

@[simp] theorem Block.shape_makeDue (b : Block) (i t r : Bool) (now : Nat) : (b.makeDue i t r now).shape = b.shape := by
  unfold Block.makeDue; split <;> rfl

@[simp] theorem Block.shape_uniformWrite (b : Block) (pc : DWord) (ts : List Nat) (n : Nat) (v : DWord) :
    (b.uniformWrite pc ts n v).shape = b.shape := rfl

/-! ## States -/

theorem keeps_modTh (s : State) (n t : Nat) (f : Thread → Thread) : Keeps s (s.modTh n t f) :=
  keeps_modBlock fun _ _ => Block.shape_modTh _ _ _

theorem keeps_event (s : State) (die kind src arg info : Nat) (cont : Option (Nat × Nat)) :
    Keeps s (s.event die kind src arg info cont) := .of_blocks rfl

theorem keeps_modTask (s : State) (n : Nat) (f : Task → Task) : Keeps s (s.modTask n f) := .of_blocks rfl

theorem keeps_modEnv (s : State) (n : Nat) (f : Envelope → Envelope) : Keeps s (s.modEnv n f) := by
  unfold State.modEnv; split <;> exact .of_blocks rfl

theorem keeps_wake (s : State) (p : Parked → Bool) : Keeps s (s.wake p) :=
  keeps_mapBlocks (f := fun b => { b with threads := b.threads.map (Thread.wake p) }) rfl fun b => by simp [Block.shape]

theorem keeps_heal (s : State) (p : ErrUnit → Bool) : Keeps s (s.heal p) := .of_blocks (by simp)

theorem keeps_writePa (s : State) (pa : Nat) (bs : List Byte) : Keeps s (s.writePa pa bs) := by
  unfold State.writePa
  refine .after (keeps_wake _ _) (.after (keeps_heal _ _) ?_)
  exact .of_blocks rfl

theorem keeps_putPa (s : State) (pa n x : Nat) : Keeps s (s.putPa pa n x) := keeps_writePa _ _ _

theorem keeps_raiseAlert (s : State) (die : Nat) : Keeps s (s.raiseAlert die) := by
  unfold State.raiseAlert; split <;> exact .of_blocks rfl

theorem keeps_candidate (s : State) (pa : Nat) : Keeps s (s.candidate pa) := by
  unfold State.candidate
  extract_lets f own
  generalize own = own
  split
  · exact .refl s
  · split
    · exact .refl s
    · refine .after (keeps_raiseAlert _ _) ?_
      exact .of_blocks rfl

theorem keeps_uncorrected (s : State) (die pa task env c : Nat) : Keeps s (s.uncorrected die pa task env c) := by
  unfold State.uncorrected
  split
  · exact (keeps_event _ _ _ _ _ _ _).trans (keeps_candidate _ _)
  · exact keeps_event _ _ _ _ _ _ _

theorem keeps_corrected (s : State) (store die addr : Nat) : Keeps s (s.corrected store die addr) := by
  unfold State.corrected
  dsimp only
  split <;> exact .of_blocks rfl

theorem keeps_correctedHbm (s : State) (pa : Nat) : Keeps s (s.correctedHbm pa) := by
  unfold State.correctedHbm
  dsimp only
  have h := keeps_corrected s 0 (frameOf pa).1 pa
  split
  · refine .trans (h.trans ?_) (keeps_candidate _ _)
    exact .of_blocks rfl
  · exact h.trans (.of_blocks rfl)

theorem keeps_correctUnits (s : State) (die : Nat) (p : ErrUnit → Bool) : Keeps s (s.correctUnits die p) := by
  refine .foldl (fun s u => ?_) _ s
  dsimp only
  split
  · refine .after (keeps_correctedHbm _ _) ?_
    exact .of_blocks rfl
  · refine .after (keeps_corrected _ _ _ _) ?_
    exact .of_blocks rfl

theorem keeps_correctRead (s : State) (pa n : Nat) : Keeps s (s.correctRead pa n) := keeps_correctUnits _ _ _

theorem keeps_startWalk (s : State) (die env : Nat) (va : DWord) (k : Kind) : Keeps s (s.startWalk die env va k).1 := by
  unfold State.startWalk
  dsimp only
  split <;> exact .of_blocks rfl

theorem keeps_recallGroup (s : State) (b : Block) : Keeps s (s.recallGroup b) := by
  unfold State.recallGroup
  split
  · exact .refl s
  · refine .foldl (fun s x => ?_) _ s
    split
    · exact .refl s
    · exact keeps_modBlock fun _ _ => Block.shape_makeDue _ _ _ _ _

theorem keeps_charge (s : State) (n ci ct : Nat) : Keeps s (s.charge n ci ct) := by
  unfold State.charge
  split
  · exact .refl s
  · split
    · exact .refl s
    · rename_i b hb
      dsimp only
      have key (b2 : Block) (h : b2.shape = b.shape) : Keeps s (s.modBlock n fun _ => b2) :=
        keeps_modBlock fun x hx => by rw [hb] at hx; cases hx; exact h
      split <;> split
      · refine .trans ?_ (keeps_recallGroup _ _)
        exact key _ (Block.shape_makeDue _ _ _ _ _)
      · refine .trans ?_ (keeps_recallGroup _ _)
        exact key _ rfl
      · exact key _ (Block.shape_makeDue _ _ _ _ _)
      · exact key _ rfl

theorem keeps_unwait (s : State) (th : Thread) : Keeps s (s.unwait th) := by
  unfold State.unwait
  split
  · dsimp only
    split
    · exact .refl s
    · split
      all_goals first
        | exact .refl s
        | (split
           · exact .refl s
           · exact keeps_putPa _ _ _ _)
  all_goals exact .refl s

theorem keeps_endTask (s : State) (task : Nat) (e : Ending) : Keeps s (s.endTask task e) := by
  unfold State.endTask
  dsimp only
  have h1 := Keeps.foldl (f := State.unwait) keeps_unwait
    ((s.blocks.filter fun b => (s.family 9 task).contains b.task && !b.ended).map (·.threads)).flatten s
  refine (h1.trans (Keeps.foldl (f := fun s t => s.modTask t _) (fun s t => keeps_modTask s t _) (s.family 9 task) _)).trans
    (keeps_mapBlocks rfl fun b => ?_)
  split <;> rfl

theorem keeps_killContext (s : State) (b : Block) (cause : Nat) (addr : DWord) (off third : Nat) (die : Option Nat) :
    Keeps s (s.killContext b cause addr off third die) := by
  unfold State.killContext
  split
  · exact .refl s
  · split
    · exact .refl s
    · exact .trans (keeps_event _ _ _ _ _ _ _) (keeps_endTask _ _ _)

theorem keeps_takeLines (s : State) (pa n : Nat) : Keeps s (s.takeLines pa n) := .of_blocks (by simp)

theorem keeps_tellAt (s : State) (write : Bool) (pa : Nat) : Keeps s (s.tellAt write pa) := .of_blocks (by simp)

theorem keeps_writePlaces (s : State) (ps : List (DWord × Nat × List Byte)) : Keeps s (s.writePlaces ps) := by
  unfold State.writePlaces
  refine Keeps.foldl (fun s p => ?_) ps s
  exact (keeps_takeLines s p.2.1 p.2.2.length).trans (keeps_writePa _ p.2.1 p.2.2)

theorem keeps_engineWrite (bss : List (List Byte)) (s : State) (core env : Nat) (va : DWord) (eats : Bool) :
    Keeps s (s.engineWrite core env va eats bss).1 := by
  unfold State.engineWrite
  split
  · exact keeps_writePlaces _ _
  · exact .refl s

theorem keeps_of_engineWrite {bss : List (List Byte)} {s : State} {core env : Nat} {va : DWord} {eats : Bool}
    {r : State × Option WalkEnd} (h : s.engineWrite core env va eats bss = r) : Keeps s r.1 :=
  h ▸ keeps_engineWrite bss s core env va eats

theorem keeps_putFrame (s : State) (n level : Nat) (bs : List Byte) : Keeps s (s.putFrame n level bs) := by
  unfold State.putFrame
  split
  · exact .refl s
  · dsimp only
    split
    · exact keeps_modBlock fun _ _ => rfl
    · split
      · rename_i he
        exact (keeps_of_engineWrite he).trans (keeps_modBlock fun _ _ => rfl)
      · rename_i he
        exact (keeps_of_engineWrite he).trans (keeps_modBlock fun _ _ => rfl)
      · rename_i he
        refine (keeps_of_engineWrite he).trans (.trans (keeps_startWalk _ _ _ _ _) (keeps_modBlock fun _ _ => rfl))

theorem keeps_writeFrame (s : State) (n level : Nat) : Keeps s (s.writeFrame n level) := by
  unfold State.writeFrame
  split
  · exact .refl s
  · exact keeps_putFrame _ _ _ _

theorem keeps_startHandler (s : State) (n level : Nat) : Keeps s (s.startHandler n level) := by
  unfold State.startHandler
  split
  · exact .refl s
  · dsimp only
    split
    · exact keeps_killContext _ _ _ _ _ _ _
    · exact .after (keeps_writeFrame _ _ _) (keeps_modBlock fun _ _ => rfl)

theorem keeps_enter1 (s : State) (n : Nat) (h : Held) : Keeps s (s.enter1 n h) :=
  .after (keeps_startHandler _ _ _) (keeps_modBlock fun _ _ => rfl)

theorem keeps_handlerTrap (s : State) (n : Nat) (t : TrapInfo) : Keeps s (s.handlerTrap n t) := by
  unfold State.handlerTrap
  split
  · exact .refl s
  · split
    · exact .after (keeps_startHandler _ _ _) (keeps_modBlock fun _ _ => rfl)
    · exact keeps_killContext _ _ _ _ _ _ _

theorem keeps_enterHeld (s : State) (n : Nat) : Keeps s (s.enterHeld n) := by
  unfold State.enterHeld
  split
  · exact .refl s
  · split
    · exact .refl s
    · split
      · exact .refl s
      · exact .after (keeps_enter1 _ _ _) (keeps_modBlock fun b _ => Block.shape_stop b _)

theorem keeps_trapThreads (s : State) (n : Nat) (ts : List (Nat × TrapInfo)) : Keeps s (s.trapThreads n ts) := by
  unfold State.trapThreads
  split
  · exact .refl s
  · exact .refl s
  · dsimp only
    have h : ∀ xs, Keeps s (s.modBlock n (·.stop xs)) := fun xs => keeps_modBlock fun _ _ => Block.shape_stop _ _
    split
    · exact keeps_modBlock fun b _ => (Block.shape_foldl (f := fun b t => b.modTh t _) (fun b t => Block.shape_modTh b t _) _ b :)
    split
    · exact h _
    · split
      · exact (h _).trans (keeps_modBlock fun _ _ => rfl)
      · exact .after (keeps_enter1 _ _ _) ((h _).trans (keeps_modBlock fun _ _ => rfl))

theorem keeps_trapBlock (s : State) (n : Nat) (h : Held) : Keeps s (s.trapBlock n h) := by
  unfold State.trapBlock
  split
  · exact .refl s
  · split
    · exact keeps_modBlock fun _ _ => rfl
    · exact .after (keeps_enter1 _ _ _) (keeps_modBlock fun _ _ => Block.shape_stop _ _)

theorem keeps_releasePin (s : State) (n p : Nat) : Keeps s (s.releasePin n p) := by
  unfold State.releasePin
  split
  · exact .refl s
  · rename_i b hb
    dsimp only
    split
    · exact .refl s
    · refine .trans (keeps_modBlock fun x hx => ?_) (keeps_charge _ _ _ _)
      rw [hb] at hx; cases hx
      exact Block.shape_release _ _ _ _

theorem keeps_completeWidth (s : State) (n : Nat) : Keeps s (s.completeWidth n) := by
  unfold State.completeWidth
  split
  · exact .refl s
  · rename_i b hb
    dsimp only
    split
    · exact .refl s
    · have hz : ∀ p : Prop, [Decidable p] → ∀ r, (if p then { b with regs := r } else b : Block).shape = b.shape := by
        intro p _ r; split <;> rfl
      split
      · refine .trans (keeps_modBlock fun x hx => ?_) (keeps_trapThreads _ _ _)
        rw [hb] at hx; cases hx
        exact (Block.shape_foldl (f := fun b t => b.modTh t _) (fun b t => Block.shape_modTh b t _) _ _).trans (hz _ _)
      · refine .trans (keeps_modBlock fun x hx => ?_) (keeps_charge _ _ _ _)
        rw [hb] at hx; cases hx
        refine (Block.shape_release _ _ _ _).trans ?_
        exact hz _ _

theorem keeps_completeBsync (s : State) (n : Nat) : Keeps s (s.completeBsync n) := by
  unfold State.completeBsync
  split
  · exact .refl s
  · rename_i b hb
    dsimp only
    split
    · exact .refl s
    · split
      all_goals
        split
        · exact .refl s
        · refine .trans (keeps_modBlock fun x hx => ?_) (keeps_charge _ _ _ _)
          rw [hb] at hx; cases hx
          refine (Block.shape_release _ _ _ _).trans ?_
          split <;> rfl

theorem keeps_releases (s : State) (n : Nat) : Keeps s (s.releases n) := by
  unfold State.releases
  split
  · exact .refl s
  · exact ((Keeps.foldl (fun s k => keeps_releasePin s n k) _ s).trans (keeps_completeWidth _ _)).trans
      (keeps_completeBsync _ _)

theorem keeps_commitVersions (s : State) (task : Nat) : Keeps s (s.commitVersions task) := .of_blocks rfl

theorem keeps_trigger (s : State) (b : Block) : Keeps s (s.trigger b) := by
  unfold State.trigger
  dsimp only
  split
  · split
    · exact .after (keeps_commitVersions _ _) (keeps_modTask _ _ _)
    · exact keeps_modTask _ _ _
  · exact keeps_modTask _ _ _

theorem keeps_noteTrigger (s : State) (n : Nat) : Keeps s (s.noteTrigger n) := by
  unfold State.noteTrigger
  split
  · exact .refl s
  · split
    · exact .refl s
    · split
      · split
        · exact .refl s
        · exact keeps_trigger _ _
      · split
        · exact keeps_trigger _ _
        · exact keeps_modBlock fun _ _ => rfl

theorem keeps_noteEnd (s : State) (n : Nat) : Keeps s (s.noteEnd n) := by
  unfold State.noteEnd
  split
  · exact .refl s
  · rename_i b _
    split
    · dsimp only
      have h : ∀ f, Keeps s ((s.modBlock n Block.finish).modTask b.task f) := fun f =>
        .after (keeps_modTask _ _ f) (keeps_modBlock fun _ _ => Block.shape_finish _)
      split
      · exact (h _).trans (keeps_mapBlocks rfl fun b => by split <;> rfl)
      · exact h _
    · exact .refl s

theorem keeps_exitThreads (s : State) (n : Nat) (ts : List Nat) : Keeps s (s.exitThreads n ts) := by
  unfold State.exitThreads
  split
  · exact .refl s
  · dsimp only
    refine .after (keeps_noteEnd _ _) (.after (keeps_releases _ _) (.after (keeps_noteTrigger _ _) ?_))
    refine .after (keeps_modBlock fun _ _ => Block.shape_foldl_modTh (fun t => t) _ ts _) ?_
    exact Keeps.foldl (fun s t => keeps_unwait s _) ts s

theorem keeps_retire (s : State) (n t : Nat) : Keeps s (s.retire n t) :=
  .after (keeps_exitThreads _ _ _) (keeps_modBlock fun b _ => Block.shape_modTh b _ _)

theorem keeps_noteRecord (s : State) (b : Block) (t : Nat) (ps : List (DWord × Nat × List Byte)) :
    Keeps s (s.noteRecord b t ps) := by
  unfold State.noteRecord
  refine .after (keeps_modBlock fun _ _ => rfl) ?_
  exact Keeps.foldl (f := fun s (p : DWord × Nat × List Byte) => s.tellAt true p.2.1) (fun s p => keeps_tellAt s true p.2.1) _ s

theorem keeps_retireThreads (fs : List (Nat × TrapInfo)) (s : State) (n : Nat) : Keeps s (s.retireThreads n fs) := by
  induction fs generalizing s with
  | nil => exact .refl s
  | cons f rest ih =>
    unfold State.retireThreads
    split
    · exact .refl s
    · split
      · exact (keeps_retire _ _ _).trans (ih _)
      · dsimp only
        split
        · exact (((keeps_writePlaces _ _).trans (keeps_noteRecord _ _ _ _)).trans (keeps_retire _ _ _)).trans (ih _)
        · refine .trans (.after (keeps_killContext _ _ _ _ _ _ _) (.after (keeps_retire _ _ _) ?_)) (ih _)
          split
          · exact keeps_uncorrected _ _ _ _ _ _
          · exact .refl _
        · exact ((keeps_startWalk _ _ _ _ _).trans (keeps_modTh _ _ _ _)).trans (ih _)

theorem keeps_haltThreads (s : State) (n : Nat) (h : Bool) (fs : List (Nat × TrapInfo)) : Keeps s (s.haltThreads n h fs) := by
  unfold State.haltThreads
  split
  · exact .refl s
  · split
    · exact keeps_handlerTrap _ _ _
    · exact keeps_trapThreads _ _ _

theorem keeps_failThreads (s : State) (n : Nat) (h : Bool) (fs : List (Nat × TrapInfo)) : Keeps s (s.failThreads n h fs) := by
  unfold State.failThreads
  split
  · exact .refl s
  · exact (keeps_retireThreads _ _ _).trans (keeps_haltThreads _ _ _ _)

theorem keeps_tret1 (s : State) (n : Nat) (skip : Bool) : Keeps s (s.tret1 n skip) := by
  unfold State.tret1
  split
  · exact .refl s
  · dsimp only
    generalize hu : s.modBlock n _ = u
    have h : Keeps s u := by
      rw [← hu]
      exact keeps_modBlock fun b _ => (Block.shape_mapTh _ _).trans (Block.shape_foldl (f := fun b t => b.modTh t _) (fun b t => Block.shape_modTh b t _) _ b)
    exact h.trans (keeps_enterHeld _ _)

end Sys2Proof.Machine
end

