-- ==== Sys2Proof/Laws/Access.lean ====
section
/-! SUPPORT. The instructions whose threads act one after another, and what their accesses keep. -/

namespace Sys2Proof.Machine

/-! ## Threads one after another -/

theorem turn_nil (g : State → Nat × Nat → State) (s : State) (x : Nat × Nat) : turn [] g s x = s := rfl

/-- A thread's turn by a meaning that answers its effect and its fate together. -/
def turnBy (f : State → Nat × Nat → State × Fate) : State → Nat × Nat → State :=
  turnOf (fun s x => (f s x).1) (fun s x => (f s x).2)

/-- The threads of an issue one after another: the state after all of them, and each thread's fate at its turn. -/
theorem State.eachOf_eq {xs : List (Nat × Nat)} (hn : xs.Nodup) (f : State → Nat × Nat → State × Fate) (s : State) :
    s.eachOf xs f = (xs.foldl (turnBy f) s, xs.map fun x => (x.2, (f (turn xs (turnBy f) s x) x).2)) := by
  set g : State → Nat × Nat → State := turnBy f with hg
  suffices ∀ (ys zs : List (Nat × Nat)) (t : State) (acc : List (Nat × Fate)), ys ++ zs = xs → t = ys.foldl g s →
      zs.foldl (fun (a : State × List (Nat × Fate)) x => (g a.1 x, a.2 ++ [(x.2, (f a.1 x).2)])) (t, acc) =
      (zs.foldl g t, acc ++ zs.map fun x => (x.2, (f (turn xs g s x) x).2)) by
    have h := this [] xs s [] (by simp) rfl
    rw [List.nil_append] at h
    exact h
  intro ys zs
  induction zs generalizing ys with
  | nil => intro t acc _ _; simp
  | cons z zs ih =>
    intro t acc h ht
    have hz : z ∉ ys := by
      intro hz
      rw [← h] at hn
      exact (List.disjoint_of_nodup_append hn hz) List.mem_cons_self
    have hturn : turn xs g s z = t := by
      unfold turn
      rw [← h, List.takeWhile_append_of_pos (by
        intro y hy
        simp only [bne_iff_ne, ne_eq]
        rintro rfl; exact hz hy), ht]
      simp
    have := ih (ys ++ [z]) (g t z) (acc ++ [(z.2, (f t z).2)]) (by simp [h]) (by simp [ht])
    simp only [List.foldl_cons, this, List.map_cons, hturn, List.append_assoc, List.singleton_append]

/-- Unacknowledged writes that fit stand. -/
theorem State.fitAcks_eq {s : State} {c : Ctx} {r : State × List (Nat × Fate)} (hfit : r.1.acksFit c) : s.fitAcks c r = r :=
  if_pos hfit

theorem keeps_turnBy {f : State → Nat × Nat → State × Fate} (h : ∀ s x, Keeps s (f s x).1) (s : State) (x : Nat × Nat) :
    Keeps s (turnBy f s x) := by
  unfold turnBy turnOf
  split
  · exact .of_blocks rfl
  · exact h s x

/-- An instruction whose threads act one after another, in an order of those that are on. -/
theorem does_each_of_runIssue {i : Instr} {op : Nat} {w : CWord} {act : Ctx → State → State × List (Nat × Fate)}
    {start : Ctx → State → State × List (Nat × Nat)} {ready : Ctx → State → Prop}
    {f : Ctx → State → Nat × Nat → State × Fate}
    (hi : ∀ s, exec i s = .next (s.runIssue op w act))
    (hs : ∀ c s, c.on.Nodup → ready c s → (start c s).2.Perm c.on ∧ Keeps s (start c s).1)
    (hk : ∀ c s x, Keeps s (f c s x).1)
    (ha : ∀ c s, ready c s → (((start c s).1.eachOf (start c s).2 (f c)).1).acksFit c →
      act c s = (start c s).1.eachOf (start c s).2 (f c)) :
    DoesEach i op w start ready (fun c s x => (f c s x).1) (fun c s x => (f c s x).2) := by
  intro s iss b hcur h c u hact ⟨hr, hfit⟩
  have hn : c.on.Nodup := (h.nodup_ths.filter _).filter _
  obtain ⟨hp, hk0⟩ := hs c u hn hr
  have hn' : (start c u).2.Nodup := hp.nodup_iff.mpr hn
  have he := State.eachOf_eq hn' (f c) (start c u).1
  have hact' := ha c u hr (by rw [he]; exact hfit)
  rw [he] at hact'
  obtain ⟨b1, hb1, hh⟩ := (hk0.trans (Keeps.foldl (keeps_turnBy (hk c)) (start c u).2 _)).block (h.ready c).found
  obtain ⟨t, ht, hret⟩ := State.Runs.retires (act := act) hcur h hact hact'
    (f := fun x => (f c (turn (start c u).2 (turnBy (f c)) (start c u).1 x) x).2) (hp.map _) hb1 (fun x hx => hh _ (h.has x hx))
  exact ⟨t, b1, by rw [hi, ht]; rfl, hb1, hret⟩

/-- A memory instruction. -/
theorem does_each_of_runMem {i : Instr} {op : Nat} {w : CWord} {rel : Bool} {scope : Nat}
    {f : Ctx → State → Nat × Nat → State × Fate}
    (hi : ∀ s, exec i s = .next (s.runMem op w rel scope f)) (hk : ∀ c s x, Keeps s (f c s x).1) :
    DoesEach i op w Ctx.inOrder (fun c s => s.mustDrain c rel scope = false)
      (fun c s x => (f c s x).1) (fun c s x => (f c s x).2) := by
  refine does_each_of_runIssue hi (fun c s _ _ => ⟨.refl _, .refl _⟩) hk ?_
  intro c s hr hfit
  rw [hr, if_neg (by simp)]
  exact State.fitAcks_eq hfit

/-- One that no release makes wait. -/
theorem does_each_of_plainMem {i : Instr} {op : Nat} {w : CWord} {f : Ctx → State → Nat × Nat → State × Fate}
    (hi : ∀ s, exec i s = .next (s.runMem op w false 0 f)) (hk : ∀ c s x, Keeps s (f c s x).1) :
    DoesEach i op w Ctx.inOrder Ctx.always (fun c s x => (f c s x).1) (fun c s x => (f c s x).2) := by
  intro s iss b hcur h c u hact hok
  exact does_each_of_runMem hi hk s iss b hcur h hact ⟨by simp [State.mustDrain], hok.2⟩

/-- Orders, conditions, effects and fates of the same meaning, for the contexts of its word. -/
theorem DoesEach.congr {i : Instr} {op : Nat} {w : CWord} {start start' : Ctx → State → State × List (Nat × Nat)}
    {ready ready' : Ctx → State → Prop} {g g' : Ctx → State → Nat × Nat → State} {f f' : Ctx → State → Nat × Nat → Fate}
    (h : DoesEach i op w start ready g f)
    (hc : ∀ c, c.w = w → c.op = op → start' c = start c ∧ (∀ s, ready' c s → ready c s) ∧ g' c = g c ∧ f' c = f c) :
    DoesEach i op w start' ready' g' f' := by
  refine Does.congr h fun c s hw ho => ?_
  obtain ⟨h1, h2, h3, h4⟩ := hc c hw ho
  simp only [h1, h3, h4]
  rintro ⟨k1, k2⟩
  exact ⟨⟨h2 s k1, k2⟩, trivial, fun _ _ => trivial⟩

/-! ## What accesses keep -/

theorem keeps_locate (s : State) (b : Block) (tid : Nat) (va : DWord) (size align : Nat) (k : Kind) (direct : Bool) :
    Keeps s (s.locate b tid va size align k direct).1 := by
  unfold State.locate
  dsimp only
  split
  · exact .refl s
  · split
    · exact .refl s
    · split
      · exact .refl s
      · split
        · exact .refl s
        · exact .refl s
        · split
          · exact .refl s
          · split
            · exact .refl s
            · exact .refl s
            · split <;> exact .refl s
            · exact keeps_startWalk _ _ _ _ _

theorem keeps_answered (s : State) (n : Nat) (va : DWord) (pa size : Nat) (write : Bool) :
    Keeps s (s.answered n va pa size write).1 := by
  refine .of_blocks ?_
  unfold State.answered State.free
  dsimp only
  split
  · split
    · rfl
    · split <;> rfl
  · split <;> simp

theorem keeps_correctL1 (s : State) (core pa n : Nat) : Keeps s (s.correctL1 core pa n) :=
  (keeps_correctRead _ _ _).trans (keeps_correctUnits _ _ _)

theorem keeps_consume (s : State) (b : Block) (va : DWord) (pa size : Nat) (write here : Bool) :
    Keeps s (s.consume b va pa size write here).1 := by
  unfold State.consume
  split
  · exact keeps_uncorrected _ _ _ _ _ _
  · dsimp only
    split
    · exact keeps_correctL1 _ _ _ _
    · split
      · exact keeps_correctL1 _ _ _ _
      · exact (keeps_correctL1 _ _ _ _).trans (keeps_answered _ _ _ _ _ _)

/-- The coherence machinery changes its own state alone. -/
theorem keeps_gate (s : State) (b : Block) (tid pa n : Nat) (k : Kind) (nc : Bool) : Keeps s (s.gate b tid pa n k nc).1 := .of_blocks rfl

theorem keeps_sweep (s : State) : Keeps s s.sweep := by
  unfold State.sweep
  split
  · exact .refl s
  · refine Keeps.foldl (fun s x => ?_) _ s
    exact .of_blocks rfl

theorem keeps_letIn (s : State) (b : Block) (tid : Nat) (va : DWord) (pa size : Nat) (k : Kind) :
    Keeps s (s.letIn b tid va pa size k).1 := by
  unfold State.letIn
  dsimp only
  have h := keeps_gate s b tid pa size k (s.uncached b va pa)
  split
  · rename_i e; rw [e] at h; exact h.trans (keeps_sweep _)
  · rename_i t e; rw [e] at h
    have h := h.trans (keeps_sweep _)
    split
    · exact h
    · have h2 := h.trans (keeps_consume t.sweep b va pa size (k == .atomic)
        (k == .read && !s.uncached b va pa && s.cachedRead b pa size))
      split
      · rename_i e2; rw [e2] at h2
        refine h2.trans ?_
        exact .of_blocks rfl
      · exact h2

theorem keeps_readHome (s : State) (b : Block) (tid : Nat) (va : DWord) (size align : Nat) :
    Keeps s (s.readHome b tid va size align).1 := by
  unfold State.readHome
  have h := keeps_locate s b tid va size align .read false
  split
  · rename_i e; rw [e] at h; exact h
  · rename_i e; rw [e] at h
    exact h.trans (keeps_consume _ _ _ _ _ _ _)

theorem keeps_placeFor (s : State) (b : Block) (tid : Nat) (va : DWord) (n size align : Nat) :
    Keeps s (s.placeFor b tid va n size align).1 := by
  unfold State.placeFor
  have h := keeps_locate s b tid va n align .write false
  split
  · rename_i e; rw [e] at h; exact h
  · rename_i e; rw [e] at h; exact h
  · rename_i e; rw [e] at h
    exact h.trans (keeps_letIn _ _ _ _ _ _ _)

theorem keeps_reach (s : State) (b : Block) (tid : Nat) (va : DWord) (size align : Nat) (k : Kind) (direct : Bool) :
    Keeps s (s.reach b tid va size align k direct).1 := by
  unfold State.reach
  have h := keeps_locate s b tid va size align k direct
  split
  · rename_i e; rw [e] at h; exact h
  · rename_i e; rw [e] at h
    exact h.trans (keeps_letIn _ _ _ _ _ _ _)

theorem keeps_noteWrite (s : State) (b : Block) (tid : Nat) (va : DWord) (pa : Nat) (ts ls : List Nat) :
    Keeps s (s.noteWrite b tid va pa ts ls) := by
  unfold State.noteWrite
  split
  · exact (keeps_tellAt _ _ _).trans (keeps_modBlock fun _ _ => rfl)
  · exact .refl s

theorem keeps_storeAt (s : State) (b : Block) (tid : Nat) (va : DWord) (pa : Nat) (bs : List Byte) :
    Keeps s (s.storeAt b tid va pa bs) := .after (keeps_noteWrite _ _ _ _ _ _ _) (keeps_writePa _ _ _)

theorem keeps_scratchWrite (s : State) (n off : Nat) (bs : List Byte) : Keeps s (s.scratchWrite n off bs) := by
  unfold State.scratchWrite
  exact .after (keeps_heal _ _) (keeps_modBlock fun _ _ => rfl)

theorem keeps_staleLine (s : State) (k : Bool) (unit task line va : Nat) : Keeps s (s.staleLine k unit task line va).1 := by
  unfold State.staleLine
  dsimp only
  split
  · exact .of_blocks rfl
  · split
    · exact .refl s
    · split <;> exact .of_blocks rfl

theorem keeps_staleRead (s : State) (k : Bool) (unit task va pa n : Nat) : Keeps s (s.staleRead k unit task va pa n).1 := by
  unfold State.staleRead
  dsimp only
  split
  · exact keeps_staleLine _ _ _ _ _ _
  · exact .after (keeps_staleLine _ _ _ _ _ _) (keeps_staleLine _ _ _ _ _ _)

theorem keeps_inArrival (key : Nat × Nat → DWord) (k : Nat) (s : State) (xs : List (Nat × Nat)) :
    Keeps s (State.inArrival key k s xs).1 := by
  induction k generalizing s xs with
  | zero => exact .refl s
  | succ k ih =>
    cases xs with
    | nil => exact .refl s
    | cons x xs =>
      unfold State.inArrival
      dsimp only
      split
      · exact ih _ _
      · exact .after (ih _ _) (.of_blocks rfl)

/-! ## The matrix engine (R195, R202) -/

@[simp] theorem Block.enterEngine_id (b : Block) (c : Ctx) : (b.enterEngine c).id = b.id := by
  unfold Block.enterEngine Block.clearCut
  split
  · rfl
  · split <;> rfl

@[simp] theorem Block.inEngine_id (b : Block) (c : Ctx) (fs : List (Nat × Fate)) : (b.inEngine c fs).id = b.id := by
  unfold Block.inEngine
  split <;> rfl

theorem keeps_enter (c : Ctx) (s : State) : Keeps s (c.enter s) := by
  refine keeps_modBlock fun b _ => ?_
  unfold Block.enterEngine Block.clearCut
  split
  · rfl
  · split <;> rfl

theorem keeps_leave (c : Ctx) (fs : List (Nat × Fate)) (s : State) : Keeps s (c.leave fs s) := by
  refine keeps_modBlock fun b _ => ?_
  unfold Block.inEngine
  split <;> rfl

/-- The block as the engine's entry of an issue leaves it. -/
theorem enter_block? {s : State} {iss : Issue} {op : Nat} {w : CWord} {b : Block} (h : s.block? iss.blk = some b) :
    ((ctxOf iss op w b).enter s).block? iss.blk = some (b.enterEngine (ctxOf iss op w b)) := by
  show (s.modBlock iss.blk _).block? iss.blk = _
  rw [State.block?_modBlock fun x hx => (Block.enterEngine_id x _).trans hx, h]; rfl

/-- What a matrix-engine issue comes to while the engine is free. -/
theorem runEngine_free {s : State} {iss : Issue} {op : Nat} {w : CWord} {b : Block} (h : s.block? iss.blk = some b)
    (act : Ctx → State → State × List (Nat × Fate)) (hf : (ctxOf iss op w b).engineBusy = false) :
    (if (ctxOf iss op w b).engineBusy then (s, (ctxOf iss op w b).holdAll)
      else
        let t := s.modBlock (ctxOf iss op w b).iss.blk (·.enterEngine (ctxOf iss op w b))
        let r := act { ctxOf iss op w b with b := (t.block? (ctxOf iss op w b).iss.blk).getD (ctxOf iss op w b).b } t
        (r.1.modBlock (ctxOf iss op w b).iss.blk (·.inEngine (ctxOf iss op w b) r.2), r.2)) =
      let r := act (ctxOf iss op w b).entered ((ctxOf iss op w b).enter s)
      ((ctxOf iss op w b).leave r.2 r.1, r.2) := by
  have h3 : ({ ctxOf iss op w b with b := (((ctxOf iss op w b).enter s).block? iss.blk).getD (ctxOf iss op w b).b } : Ctx) =
      (ctxOf iss op w b).entered := by rw [enter_block? h]; rfl
  rw [hf, if_neg (by simp)]
  exact congrArg (fun c => ((ctxOf iss op w b).leave (act c ((ctxOf iss op w b).enter s)).2
    (act c ((ctxOf iss op w b).enter s)).1, (act c ((ctxOf iss op w b).enter s)).2)) h3

/-- A matrix-engine instruction whose meaning answers an effect and a fate for each thread that is on. -/
theorem does_of_runEngine {i : Instr} {op : Nat} {w : CWord} {ok : Ctx → State → Prop} {eff : Ctx → State → State}
    {f : Ctx → State → Nat × Nat → Fate} {act : Ctx → State → State × List (Nat × Fate)}
    (hi : ∀ s, exec i s = .next (s.runEngine op w act))
    (ha : ∀ s iss b, s.Runs iss op w b → ok (ctxOf iss op w b) s → (ctxOf iss op w b).engineBusy = false ∧
      act (ctxOf iss op w b).entered ((ctxOf iss op w b).enter s) =
        (eff (ctxOf iss op w b) s, (ctxOf iss op w b).onFates (f (ctxOf iss op w b) s)))
    (hb : ∀ s iss b, s.Runs iss op w b → ok (ctxOf iss op w b) s → Keeps s (eff (ctxOf iss op w b) s)) :
    Does i op w ok (fun c s => c.leave (c.onFates (f c s)) (eff c s)) f := by
  refine does_of_runIssue hi (fun s iss b h hok => ?_) fun s iss b h hok => ?_
  · obtain ⟨h1, h2⟩ := ha s iss b h hok
    refine (runEngine_free h.found act h1).trans ?_
    simp only [h2]
  · exact ((hb s iss b h hok).trans (keeps_leave _ _ _)).block h.found

/-- The same, where it answers a fate for every active thread. -/
theorem doesAll_of_runEngine {i : Instr} {op : Nat} {w : CWord} {ok : Ctx → State → Prop} {eff : Ctx → State → State}
    {f : Ctx → State → Nat × Nat → Fate} {act : Ctx → State → State × List (Nat × Fate)}
    (hi : ∀ s, exec i s = .next (s.runEngine op w act))
    (ha : ∀ s iss b, s.Runs iss op w b → ok (ctxOf iss op w b) s → (ctxOf iss op w b).engineBusy = false ∧
      act (ctxOf iss op w b).entered ((ctxOf iss op w b).enter s) =
        (eff (ctxOf iss op w b) s, (ctxOf iss op w b).actFates (f (ctxOf iss op w b) s)))
    (hb : ∀ s iss b, s.Runs iss op w b → ok (ctxOf iss op w b) s → Keeps s (eff (ctxOf iss op w b) s)) :
    DoesAll i op w ok (fun c s => c.leave (c.actFates (f c s)) (eff c s)) f := by
  refine doesAll_of_runIssue hi (fun s iss b h hok => ?_) fun s iss b h hok => ?_
  · obtain ⟨h1, h2⟩ := ha s iss b h hok
    refine (runEngine_free h.found act h1).trans ?_
    simp only [h2]
  · exact ((hb s iss b h hok).trans (keeps_leave _ _ _)).block h.found

/-- The engine waits while it performs an issue of other threads. -/
theorem does_busy_of_runEngine {i : Instr} {op : Nat} {w : CWord} {act : Ctx → State → State × List (Nat × Fate)}
    (hi : ∀ s, exec i s = .next (s.runEngine op w act)) :
    DoesAll i op w (fun c _ => c.engineBusy = true) (fun _ s => s) fun _ _ _ => .again := by
  refine doesAll_of_runIssue hi (fun s iss b h hok => ?_) fun s iss b h _ => ⟨b, h.found, fun _ k => k⟩
  rw [hok, if_pos rfl]; rfl

theorem keeps_stand (s : State) (c : Ctx) (t : State) (fs : List (Nat × Fate)) : Keeps s (s.stand c t fs) := by
  unfold State.stand
  refine .after (Keeps.foldl (fun s f => keeps_modTh _ _ _ _) _ _) ?_
  exact .of_blocks rfl

/-- Threads of an issue one after another, those masked off among them: the state after all of them, and the fate of
each that is on at its turn. -/
theorem foldl_rows {xs : List (Nat × Nat)} (hn : xs.Nodup) (on : Nat × Nat → Bool) (g : State → Nat × Nat → State)
    (f : State → Nat × Nat → State × Fate) (h : ∀ s x, on x = true → (f s x).1 = g s x) (s : State) :
    xs.foldl (fun (a : State × List (Nat × Fate)) x =>
      if on x then
        let (s, fate) := f a.1 x
        (s, a.2 ++ [(x.2, fate)])
      else (g a.1 x, a.2)) (s, []) =
    (xs.foldl g s, (xs.filter on).map fun x => (x.2, (f (turn xs g s x) x).2)) := by
  suffices ∀ (ys zs : List (Nat × Nat)) (acc : List (Nat × Fate)), ys ++ zs = xs →
      zs.foldl (fun (a : State × List (Nat × Fate)) x =>
        if on x then
          let (s, fate) := f a.1 x
          (s, a.2 ++ [(x.2, fate)])
        else (g a.1 x, a.2)) (ys.foldl g s, acc) =
      (zs.foldl g (ys.foldl g s), acc ++ (zs.filter on).map fun x => (x.2, (f (turn xs g s x) x).2)) by
    simpa using this [] xs [] rfl
  intro ys zs
  induction zs generalizing ys with
  | nil => intro acc _; simp
  | cons z zs ih =>
    intro acc he
    have hz : z ∉ ys := by
      intro hz
      rw [← he] at hn
      exact (List.disjoint_of_nodup_append hn hz) List.mem_cons_self
    have hturn : turn xs g s z = ys.foldl g s := by
      unfold turn
      rw [← he, List.takeWhile_append_of_pos (by
        intro y hy
        simp only [bne_iff_ne, ne_eq]
        rintro rfl; exact hz hy)]
      simp
    have hstep : g (ys.foldl g s) z = (ys ++ [z]).foldl g s := by simp
    rw [List.foldl_cons, List.foldl_cons, List.filter_cons]
    cases ho : on z with
    | true =>
      have := ih (ys ++ [z]) (acc ++ [(z.2, (f (ys.foldl g s) z).2)]) (by simp [he])
      simp only [if_true, h _ _ ho, hstep, this, List.map_cons, hturn, List.append_assoc, List.singleton_append]
    | false =>
      have := ih (ys ++ [z]) acc (by simp [he])
      simp only [Bool.false_eq_true, if_false, hstep, this]

/-- A matrix-engine instruction on rows. -/
theorem does_rows_of_runRows {i : Instr} {op : Nat} {w : CWord} {masked : Ctx → State → Nat → State}
    {m : Ctx → State → Nat → State × Fate} {g : Ctx → State → Nat × Nat → State} {f : Ctx → State → Nat × Nat → Fate}
    (hi : ∀ s, exec i s = .next (s.runRows op w masked m))
    (hg : ∀ c s x, c.w = w → c.op = op → g c s x = if c.on.contains x then (m c.entered s x.2).1
      else if w.zeroing then masked c.entered s x.2 else s)
    (hf : ∀ c s x, c.w = w → c.op = op → f c s x = (m c.entered s x.2).2)
    (hk : ∀ c s x, c.w = w → c.op = op → Keeps s (g c s x)) : DoesRows i op w g f := by
  have hrows (s : State) (iss : Issue) (b : Block) (h : s.Runs iss op w b) :
      let c := ctxOf iss op w b
      c.act.foldl (fun (a : State × List (Nat × Fate)) x =>
        if c.on.contains x then
          let (s, fate) := m c.entered a.1 x.2
          (s, a.2 ++ [(x.2, fate)])
        else (if w.zeroing then masked c.entered a.1 x.2 else a.1, a.2)) (c.enter s, []) =
        (c.act.foldl (g c) (c.enter s), c.onFates fun x => f c (turn c.act (g c) (c.enter s) x) x) := by
    intro c
    have hnd : c.act.Nodup := h.nodup_ths.filter _
    have hfold := foldl_rows hnd (fun x => c.on.contains x) (g c) (fun s x => m c.entered s x.2)
      (fun s x hx => by rw [hg c s x rfl rfl, if_pos hx]) (c.enter s)
    have hon : c.act.filter (fun x => c.on.contains x) = c.on := by
      show c.act.filter (fun x => (c.act.filter _).contains x) = c.act.filter _
      refine List.filter_congr fun x hx => ?_
      rw [Bool.eq_iff_iff, List.contains_iff_mem, List.mem_filter]
      simp [hx]
    rw [show (c.onFates fun x => f c (turn c.act (g c) (c.enter s) x) x) =
      (c.act.filter fun x => c.on.contains x).map fun x => (x.2, (m c.entered (turn c.act (g c) (c.enter s) x) x.2).2) by
        rw [hon]; exact List.map_congr_left fun x _ => congrArg (x.2, ·) (hf c _ x rfl rfl)]
    rw [← hfold]
    congr 1
    funext a x
    cases hx : c.on.contains x with
    | true => rfl
    | false => simp only [Bool.false_eq_true, if_false]; rw [hg c a.1 x rfl rfl, hx]; simp
  have hkeep (s : State) (iss : Issue) (b : Block) :
      Keeps s ((ctxOf iss op w b).act.foldl (g (ctxOf iss op w b)) ((ctxOf iss op w b).enter s)) :=
    (keeps_enter _ _).trans (Keeps.foldl (fun s x => hk _ s x rfl rfl) _ _)
  refine ⟨?_, ?_, does_busy_of_runEngine hi⟩
  · refine does_of_runEngine hi (eff := fun c s => c.act.foldl (g c) (c.enter s))
      (f := fun c s x => f c (turn c.act (g c) (c.enter s) x) x)
      (fun s iss b h ⟨hbusy, hgr, hfit⟩ => ⟨hbusy, ?_⟩) fun s iss b _ _ => hkeep s iss b
    refine Eq.trans (congrArg (((ctxOf iss op w b).enter s).together (ctxOf iss op w b).entered) (hrows s iss b h)) ?_
    unfold State.together
    rw [if_neg]
    · exact State.fitAcks_eq hfit
    · simp only [List.any_eq_true, not_exists, not_and, Bool.not_eq_true]
      intro y hy
      obtain ⟨x, hx, rfl⟩ := List.mem_map.mp hy
      exact hgr x hx
  · refine doesAll_of_runEngine hi (f := fun _ _ _ => .again) (fun s iss b h ⟨hbusy, x, hx, hw⟩ => ⟨hbusy, ?_⟩)
      (eff := fun c s => (c.enter s).stand c.entered (c.act.foldl (g c) (c.enter s))
        (c.onFates fun x => f c (turn c.act (g c) (c.enter s) x) x))
      fun s iss b _ _ => (keeps_enter _ _).trans (keeps_stand _ _ _ _)
    refine Eq.trans (congrArg (((ctxOf iss op w b).enter s).together (ctxOf iss op w b).entered) (hrows s iss b h)) ?_
    unfold State.together
    rw [if_pos]
    · rfl
    · exact List.any_eq_true.mpr ⟨_, List.mem_map_of_mem hx, hw⟩

end Sys2Proof.Machine
end

