-- ==== Sys2Proof/Laws/Memory.lean ====
section
/-! SUPPORT. The canonical form of a memory, and that every operation on memory keeps it. -/

namespace Sys2Proof.Machine

theorem Memory.wf_cons {c : Host.Cell} {m : Memory} :
    Memory.wf (c :: m) = true ↔ c.2 ≠ 0#8 ∧ (∀ x ∈ m, c.1 < x.1) ∧ m.wf = true := by
  obtain ⟨k, b⟩ := c
  simp [Memory.wf, and_assoc]

/-- An entry of a memory after a byte is written is the new one or an old one. -/
theorem Memory.mem_set {m : Memory} {a : Nat} {x : Byte} {c : Host.Cell} (h : c ∈ m.set a x) : c = (a, x) ∨ c ∈ m := by
  induction m with
  | nil =>
    simp only [Memory.set] at h
    split at h <;> simp_all
  | cons d m ih =>
    obtain ⟨k, b⟩ := d
    simp only [Memory.set] at h
    split at h
    · split at h <;> simp_all
    · split at h
      · split at h <;> (simp_all; try tauto)
      · rcases List.mem_cons.mp h with h | h
        · exact .inr (by simp [h])
        · exact (ih h).imp id (List.mem_cons_of_mem _)

theorem Memory.wf_set {m : Memory} (h : m.wf = true) (a : Nat) (x : Byte) : (m.set a x).wf = true := by
  induction m with
  | nil =>
    simp only [Memory.set]
    split
    · rfl
    · simp_all [Memory.wf]
  | cons c m ih =>
    obtain ⟨k, b⟩ := c
    obtain ⟨h1, h2, h3⟩ := Memory.wf_cons.mp h
    simp only [Memory.set]
    split
    · rename_i hk
      split
      · exact h
      · refine Memory.wf_cons.mpr ⟨by assumption, fun y hy => ?_, h⟩
        rcases List.mem_cons.mp hy with rfl | hy
        · exact hk
        · exact hk.trans (h2 y hy)
    · split
      · rename_i hk
        subst hk
        split
        · exact h3
        · exact Memory.wf_cons.mpr ⟨by assumption, h2, h3⟩
      · refine Memory.wf_cons.mpr ⟨h1, fun y hy => ?_, ih h3⟩
        rcases Memory.mem_set hy with rfl | hy
        · show k < a
          omega
        · exact h2 y hy

theorem Memory.wf_write {m : Memory} (h : m.wf = true) (a : Nat) (bs : List Byte) : (m.write a bs).wf = true := by
  induction bs generalizing m a with
  | nil => exact h
  | cons b bs ih => exact ih (Memory.wf_set h a b) (a + 1)

theorem Memory.wf_put {m : Memory} (h : m.wf = true) (a n x : Nat) : (m.put a n x).wf = true := Memory.wf_write h a _

theorem Memory.wf_filter {m : Memory} (h : m.wf = true) (p : Host.Cell → Bool) : Memory.wf (m.filter p) = true := by
  induction m with
  | nil => rfl
  | cons c m ih =>
    obtain ⟨h1, h2, h3⟩ := Memory.wf_cons.mp h
    rw [List.filter_cons]
    split
    · exact Memory.wf_cons.mpr ⟨h1, fun y hy => h2 y (List.mem_filter.mp hy).1, ih h3⟩
    · exact ih h3

theorem Memory.wf_clear {m : Memory} (h : m.wf = true) (a n : Nat) : (m.clear a n).wf = true := Memory.wf_filter h _

theorem Memory.wf_slice {m : Memory} (h : m.wf = true) (a n b : Nat) : (m.slice a n b).wf = true := by
  unfold Memory.slice
  induction m with
  | nil => rfl
  | cons c m ih =>
    obtain ⟨h1, h2, h3⟩ := Memory.wf_cons.mp h
    rw [List.filter_cons]
    split
    · rename_i hc
      have hc := of_decide_eq_true hc
      refine Memory.wf_cons.mpr ⟨h1, fun y hy => ?_, ih h3⟩
      obtain ⟨z, hz, rfl⟩ := List.mem_map.mp hy
      have := h2 z (List.mem_filter.mp hz).1
      show c.1 - a + b < z.1 - a + b
      omega
    · exact ih h3

theorem Memory.wf_overlay {m : Memory} (h : m.wf = true) (a n : Nat) (sl : Memory) : (m.overlay a n sl).wf = true := by
  unfold Memory.overlay
  have := Memory.wf_clear h a n
  generalize m.clear a n = k at this
  induction sl generalizing k with
  | nil => exact this
  | cons c sl ih => exact ih _ (Memory.wf_set this c.1 c.2)

end Sys2Proof.Machine
end

