-- ==== Sys2Proof/Laws/Canon.lean ====
section
/-! SUPPORT. The shared operations on the state keep the memory of the package in its canonical form. -/

namespace Sys2Proof.Machine

/-- From a canonical memory to a canonical memory. -/
def Canon (s t : State) : Prop := s.mem.wf = true → t.mem.wf = true

theorem Canon.refl (s : State) : Canon s s := id

theorem Canon.trans {s t u : State} (h : Canon s t) (k : Canon t u) : Canon s u := fun x => k (h x)

theorem Canon.after {s t u : State} (k : Canon t u) (h : Canon s t) : Canon s u := h.trans k

theorem Canon.of_mem {s t : State} (h : t.mem = s.mem) : Canon s t := fun x => h ▸ x

theorem Canon.foldl {α : Type} {f : State → α → State} (h : ∀ s x, Canon s (f s x)) (xs : List α) (s : State) :
    Canon s (xs.foldl f s) := by
  induction xs generalizing s with
  | nil => exact .refl s
  | cons x xs ih => exact (h s x).trans (ih _)

/-! ## Ops -/

theorem canon_modBlock (s : State) (n : Nat) (f : Block → Block) : Canon s (s.modBlock n f) := .refl s

theorem canon_modTh (s : State) (n t : Nat) (f : Thread → Thread) : Canon s (s.modTh n t f) := .refl s

theorem canon_modTask (s : State) (n : Nat) (f : Task → Task) : Canon s (s.modTask n f) := .refl s

theorem canon_modEnv (s : State) (n : Nat) (f : Envelope → Envelope) : Canon s (s.modEnv n f) := by
  unfold State.modEnv; split <;> exact .refl s

theorem canon_event (s : State) (die kind src arg info : Nat) (cont : Option (Nat × Nat)) :
    Canon s (s.event die kind src arg info cont) := .refl s

theorem canon_raiseAlert (s : State) (die : Nat) : Canon s (s.raiseAlert die) := by
  unfold State.raiseAlert; split <;> exact .refl s

theorem canon_wake (s : State) (p : Parked → Bool) : Canon s (s.wake p) := .refl s

theorem canon_heal (s : State) (p : ErrUnit → Bool) : Canon s (s.heal p) := .of_mem (by simp)

theorem canon_writePa (s : State) (pa : Nat) (bs : List Byte) : Canon s (s.writePa pa bs) := by
  unfold State.writePa
  exact .after (canon_wake _ _) (.after (canon_heal _ _) fun h => Memory.wf_write h pa bs)

theorem canon_putPa (s : State) (pa n x : Nat) : Canon s (s.putPa pa n x) := canon_writePa _ _ _

theorem canon_candidate (s : State) (pa : Nat) : Canon s (s.candidate pa) := by
  unfold State.candidate
  extract_lets f own
  generalize own = own
  split
  · exact .refl s
  · split
    · exact .refl s
    · exact .after (canon_raiseAlert _ _) (.of_mem rfl)

theorem canon_uncorrected (s : State) (die pa task env c : Nat) : Canon s (s.uncorrected die pa task env c) := by
  unfold State.uncorrected
  split
  · exact (canon_event _ _ _ _ _ _ _).trans (canon_candidate _ _)
  · exact canon_event _ _ _ _ _ _ _

theorem canon_corrected (s : State) (store die addr : Nat) : Canon s (s.corrected store die addr) := by
  unfold State.corrected
  dsimp only
  split <;> exact .of_mem rfl

theorem canon_correctedHbm (s : State) (pa : Nat) : Canon s (s.correctedHbm pa) := by
  unfold State.correctedHbm
  dsimp only
  have h := canon_corrected s 0 (frameOf pa).1 pa
  split
  · exact .after (canon_candidate _ _) (h.trans (.of_mem rfl))
  · exact h.trans (.of_mem rfl)

theorem canon_correctUnits (s : State) (die : Nat) (p : ErrUnit → Bool) : Canon s (s.correctUnits die p) := by
  refine .foldl (fun s u => ?_) _ s
  dsimp only
  split
  · exact .after (canon_correctedHbm _ _) (.of_mem rfl)
  · exact .after (canon_corrected _ _ _ _) (.of_mem rfl)

theorem canon_correctRead (s : State) (pa n : Nat) : Canon s (s.correctRead pa n) := canon_correctUnits _ _ _

theorem canon_startWalk (s : State) (die env : Nat) (va : DWord) (k : Kind) : Canon s (s.startWalk die env va k).1 := by
  unfold State.startWalk
  dsimp only
  split <;> exact .of_mem rfl

theorem canon_recallGroup (s : State) (b : Block) : Canon s (s.recallGroup b) := by
  unfold State.recallGroup
  split
  · exact .refl s
  · refine .foldl (fun s x => ?_) _ s
    split <;> exact .refl s

theorem canon_charge (s : State) (n ci ct : Nat) : Canon s (s.charge n ci ct) := by
  unfold State.charge
  split
  · exact .refl s
  · split
    · exact .refl s
    · dsimp only
      split
      · exact .after (canon_recallGroup _ _) (canon_modBlock _ _ _)
      · exact canon_modBlock _ _ _

theorem canon_unwait (s : State) (th : Thread) : Canon s (s.unwait th) := by
  unfold State.unwait
  split
  · dsimp only
    split
    · exact .refl s
    · split
      all_goals first
        | exact .refl s
        | (split
           · exact .refl s
           · exact canon_putPa _ _ _ _)
  all_goals exact .refl s

theorem canon_endTask (s : State) (task : Nat) (e : Ending) : Canon s (s.endTask task e) := by
  unfold State.endTask
  dsimp only
  have h1 := Canon.foldl (f := State.unwait) canon_unwait
    ((s.blocks.filter fun b => (s.family 9 task).contains b.task && !b.ended).map (·.threads)).flatten s
  exact .after (.of_mem rfl) (h1.trans (Canon.foldl (f := fun s t => s.modTask t _)
    (fun s t => canon_modTask s t _) (s.family 9 task) _))

theorem canon_killContext (s : State) (b : Block) (cause : Nat) (addr : DWord) (off third : Nat) (die : Option Nat) :
    Canon s (s.killContext b cause addr off third die) := by
  unfold State.killContext
  split
  · exact .refl s
  · split
    · exact .refl s
    · exact .trans (canon_event _ _ _ _ _ _ _) (canon_endTask _ _ _)

theorem canon_takeLines (s : State) (pa n : Nat) : Canon s (s.takeLines pa n) := .of_mem (by simp)

theorem canon_tellAt (s : State) (write : Bool) (pa : Nat) : Canon s (s.tellAt write pa) := .of_mem (by simp)

theorem canon_writePlaces (s : State) (ps : List (DWord × Nat × List Byte)) : Canon s (s.writePlaces ps) := by
  unfold State.writePlaces
  refine Canon.foldl (fun s p => ?_) ps s
  exact (canon_takeLines s p.2.1 p.2.2.length).trans (canon_writePa _ p.2.1 p.2.2)

theorem canon_engineWrite (bss : List (List Byte)) (s : State) (core env : Nat) (va : DWord) (eats : Bool) :
    Canon s (s.engineWrite core env va eats bss).1 := by
  unfold State.engineWrite
  split
  · exact canon_writePlaces _ _
  · exact .refl s

theorem canon_of_engineWrite {bss : List (List Byte)} {s : State} {core env : Nat} {va : DWord} {eats : Bool}
    {r : State × Option WalkEnd} (h : s.engineWrite core env va eats bss = r) : Canon s r.1 :=
  h ▸ canon_engineWrite bss s core env va eats

theorem canon_putFrame (s : State) (n level : Nat) (bs : List Byte) : Canon s (s.putFrame n level bs) := by
  unfold State.putFrame
  split
  · exact .refl s
  · dsimp only
    split
    · exact canon_modBlock _ _ _
    · split
      · rename_i he
        exact (canon_of_engineWrite he).trans (canon_modBlock _ _ _)
      · rename_i he
        exact (canon_of_engineWrite he).trans (canon_modBlock _ _ _)
      · rename_i he
        exact (canon_of_engineWrite he).trans (.trans (canon_startWalk _ _ _ _ _) (canon_modBlock _ _ _))

theorem canon_writeFrame (s : State) (n level : Nat) : Canon s (s.writeFrame n level) := by
  unfold State.writeFrame
  split
  · exact .refl s
  · exact canon_putFrame _ _ _ _

theorem canon_startHandler (s : State) (n level : Nat) : Canon s (s.startHandler n level) := by
  unfold State.startHandler
  split
  · exact .refl s
  · dsimp only
    split
    · exact canon_killContext _ _ _ _ _ _ _
    · exact .after (canon_writeFrame _ _ _) (canon_modBlock _ _ _)

theorem canon_enter1 (s : State) (n : Nat) (h : Held) : Canon s (s.enter1 n h) :=
  .after (canon_startHandler _ _ _) (canon_modBlock _ _ _)

theorem canon_handlerTrap (s : State) (n : Nat) (t : TrapInfo) : Canon s (s.handlerTrap n t) := by
  unfold State.handlerTrap
  split
  · exact .refl s
  · split
    · exact .after (canon_startHandler _ _ _) (canon_modBlock _ _ _)
    · exact canon_killContext _ _ _ _ _ _ _

theorem canon_enterHeld (s : State) (n : Nat) : Canon s (s.enterHeld n) := by
  unfold State.enterHeld
  split
  · exact .refl s
  · split
    · exact .refl s
    · split
      · exact .refl s
      · exact .after (canon_enter1 _ _ _) (canon_modBlock _ _ _)

theorem canon_trapThreads (s : State) (n : Nat) (ts : List (Nat × TrapInfo)) : Canon s (s.trapThreads n ts) := by
  unfold State.trapThreads
  split
  · exact .refl s
  · exact .refl s
  · dsimp only
    split
    · exact canon_modBlock _ _ _
    split
    · exact .refl s
    · split
      · exact .of_mem rfl
      · exact .after (canon_enter1 _ _ _) (.of_mem rfl)

theorem canon_trapBlock (s : State) (n : Nat) (h : Held) : Canon s (s.trapBlock n h) := by
  unfold State.trapBlock
  split
  · exact .refl s
  · split
    · exact canon_modBlock _ _ _
    · exact .after (canon_enter1 _ _ _) (canon_modBlock _ _ _)

theorem canon_releasePin (s : State) (n p : Nat) : Canon s (s.releasePin n p) := by
  unfold State.releasePin
  split
  · exact .refl s
  · dsimp only
    split
    · exact .refl s
    · exact .after (canon_charge _ _ _ _) (canon_modBlock _ _ _)

theorem canon_completeWidth (s : State) (n : Nat) : Canon s (s.completeWidth n) := by
  unfold State.completeWidth
  split
  · exact .refl s
  · dsimp only
    split
    · exact .refl s
    · split
      · exact .after (canon_trapThreads _ _ _) (canon_modBlock _ _ _)
      · exact .after (canon_charge _ _ _ _) (canon_modBlock _ _ _)

theorem canon_completeBsync (s : State) (n : Nat) : Canon s (s.completeBsync n) := by
  unfold State.completeBsync
  split
  · exact .refl s
  · dsimp only
    split
    · exact .refl s
    · split
      all_goals
        split
        · exact .refl s
        · exact .after (canon_charge _ _ _ _) (canon_modBlock _ _ _)

theorem canon_releases (s : State) (n : Nat) : Canon s (s.releases n) := by
  unfold State.releases
  split
  · exact .refl s
  · exact ((Canon.foldl (fun s k => canon_releasePin s n k) _ s).trans (canon_completeWidth _ _)).trans
      (canon_completeBsync _ _)

theorem canon_commitVersions (s : State) (task : Nat) : Canon s (s.commitVersions task) := .of_mem rfl

theorem canon_trigger (s : State) (b : Block) : Canon s (s.trigger b) := by
  unfold State.trigger
  dsimp only
  split
  · split
    · exact .after (canon_commitVersions _ _) (canon_modTask _ _ _)
    · exact canon_modTask _ _ _
  · exact canon_modTask _ _ _

theorem canon_noteTrigger (s : State) (n : Nat) : Canon s (s.noteTrigger n) := by
  unfold State.noteTrigger
  split
  · exact .refl s
  · split
    · exact .refl s
    · split
      · split
        · exact .refl s
        · exact canon_trigger _ _
      · split
        · exact canon_trigger _ _
        · exact canon_modBlock _ _ _

theorem canon_noteEnd (s : State) (n : Nat) : Canon s (s.noteEnd n) := by
  unfold State.noteEnd
  split
  · exact .refl s
  · split
    · dsimp only
      split <;> exact .of_mem rfl
    · exact .refl s

theorem canon_exitThreads (s : State) (n : Nat) (ts : List Nat) : Canon s (s.exitThreads n ts) := by
  unfold State.exitThreads
  split
  · exact .refl s
  · dsimp only
    refine .after (canon_noteEnd _ _) (.after (canon_releases _ _) (.after (canon_noteTrigger _ _) ?_))
    exact .after (canon_modBlock _ _ _) (Canon.foldl (fun s t => canon_unwait s _) ts s)

theorem canon_retire (s : State) (n t : Nat) : Canon s (s.retire n t) :=
  .after (canon_exitThreads _ _ _) (canon_modBlock _ _ _)

theorem canon_noteRecord (s : State) (b : Block) (t : Nat) (ps : List (DWord × Nat × List Byte)) :
    Canon s (s.noteRecord b t ps) :=
  .after (canon_modBlock _ _ _)
    (Canon.foldl (f := fun s (p : DWord × Nat × List Byte) => s.tellAt true p.2.1) (fun s p => canon_tellAt s true p.2.1) _ s)

theorem canon_retireThreads (fs : List (Nat × TrapInfo)) (s : State) (n : Nat) : Canon s (s.retireThreads n fs) := by
  induction fs generalizing s with
  | nil => exact .refl s
  | cons f rest ih =>
    unfold State.retireThreads
    split
    · exact .refl s
    · split
      · exact (canon_retire _ _ _).trans (ih _)
      · dsimp only
        split
        · exact (((canon_writePlaces _ _).trans (canon_noteRecord _ _ _ _)).trans (canon_retire _ _ _)).trans (ih _)
        · refine .trans (.after (canon_killContext _ _ _ _ _ _ _) (.after (canon_retire _ _ _) ?_)) (ih _)
          split
          · exact canon_uncorrected _ _ _ _ _ _
          · exact .refl _
        · exact ((canon_startWalk _ _ _ _ _).trans (canon_modTh _ _ _ _)).trans (ih _)

theorem canon_haltThreads (s : State) (n : Nat) (h : Bool) (fs : List (Nat × TrapInfo)) : Canon s (s.haltThreads n h fs) := by
  unfold State.haltThreads
  split
  · exact .refl s
  · split
    · exact canon_handlerTrap _ _ _
    · exact canon_trapThreads _ _ _

theorem canon_failThreads (s : State) (n : Nat) (h : Bool) (fs : List (Nat × TrapInfo)) : Canon s (s.failThreads n h fs) := by
  unfold State.failThreads
  split
  · exact .refl s
  · exact (canon_retireThreads _ _ _).trans (canon_haltThreads _ _ _ _)

theorem canon_tret1 (s : State) (n : Nat) (skip : Bool) : Canon s (s.tret1 n skip) := by
  unfold State.tret1
  split
  · exact .refl s
  · dsimp only
    exact (canon_modBlock _ _ _).trans (canon_enterHeld _ _)

/-! ## Accesses -/

theorem canon_locate (s : State) (b : Block) (tid : Nat) (va : DWord) (size align : Nat) (k : Kind) (direct : Bool) :
    Canon s (s.locate b tid va size align k direct).1 := by
  unfold State.locate
  dsimp only
  split
  · exact .refl s
  · split
    · exact .refl s
    · split
      · exact .refl s
      · split
        · exact .refl s
        · exact .refl s
        · split
          · exact .refl s
          · split
            · exact .refl s
            · exact .refl s
            · split <;> exact .refl s
            · exact canon_startWalk _ _ _ _ _

theorem canon_answered (s : State) (n : Nat) (va : DWord) (pa size : Nat) (write : Bool) :
    Canon s (s.answered n va pa size write).1 := by
  refine .of_mem ?_
  unfold State.answered State.free
  dsimp only
  split
  · split
    · rfl
    · split <;> rfl
  · split <;> simp

theorem canon_correctL1 (s : State) (core pa n : Nat) : Canon s (s.correctL1 core pa n) :=
  (canon_correctRead _ _ _).trans (canon_correctUnits _ _ _)

theorem canon_consume (s : State) (b : Block) (va : DWord) (pa size : Nat) (write here : Bool) :
    Canon s (s.consume b va pa size write here).1 := by
  unfold State.consume
  split
  · exact canon_uncorrected _ _ _ _ _ _
  · dsimp only
    split
    · exact canon_correctL1 _ _ _ _
    · split
      · exact canon_correctL1 _ _ _ _
      · exact (canon_correctL1 _ _ _ _).trans (canon_answered _ _ _ _ _ _)

/-- The coherence machinery changes its own state alone. -/
theorem canon_gate (s : State) (b : Block) (tid pa n : Nat) (k : Kind) (nc : Bool) : Canon s (s.gate b tid pa n k nc).1 := .of_mem rfl

theorem canon_sweep (s : State) : Canon s s.sweep := by
  unfold State.sweep
  split
  · exact .refl s
  · refine Canon.foldl (fun s x => ?_) _ s
    exact .of_mem rfl

theorem canon_letIn (s : State) (b : Block) (tid : Nat) (va : DWord) (pa size : Nat) (k : Kind) :
    Canon s (s.letIn b tid va pa size k).1 := by
  unfold State.letIn
  dsimp only
  have h := canon_gate s b tid pa size k (s.uncached b va pa)
  split
  · rename_i e; rw [e] at h; exact h.trans (canon_sweep _)
  · rename_i t e; rw [e] at h
    have h := h.trans (canon_sweep _)
    split
    · exact h
    · have h2 := h.trans (canon_consume t.sweep b va pa size (k == .atomic)
        (k == .read && !s.uncached b va pa && s.cachedRead b pa size))
      split
      · rename_i e2; rw [e2] at h2; exact h2
      · exact h2

theorem canon_readHome (s : State) (b : Block) (tid : Nat) (va : DWord) (size align : Nat) :
    Canon s (s.readHome b tid va size align).1 := by
  unfold State.readHome
  have h := canon_locate s b tid va size align .read false
  split
  · rename_i e; rw [e] at h; exact h
  · rename_i e; rw [e] at h
    exact h.trans (canon_consume _ _ _ _ _ _ _)

theorem canon_placeFor (s : State) (b : Block) (tid : Nat) (va : DWord) (n size align : Nat) :
    Canon s (s.placeFor b tid va n size align).1 := by
  unfold State.placeFor
  have h := canon_locate s b tid va n align .write false
  split
  · rename_i e; rw [e] at h; exact h
  · rename_i e; rw [e] at h; exact h
  · rename_i e; rw [e] at h
    exact h.trans (canon_letIn _ _ _ _ _ _ _)

theorem canon_reach (s : State) (b : Block) (tid : Nat) (va : DWord) (size align : Nat) (k : Kind) (direct : Bool) :
    Canon s (s.reach b tid va size align k direct).1 := by
  unfold State.reach
  have h := canon_locate s b tid va size align k direct
  split
  · rename_i e; rw [e] at h; exact h
  · rename_i e; rw [e] at h
    exact h.trans (canon_letIn _ _ _ _ _ _ _)

theorem canon_noteWrite (s : State) (b : Block) (tid : Nat) (va : DWord) (pa : Nat) (ts ls : List Nat) :
    Canon s (s.noteWrite b tid va pa ts ls) := by
  unfold State.noteWrite
  split
  · exact (canon_tellAt _ _ _).trans (canon_modBlock _ _ _)
  · exact .refl s

theorem canon_storeAt (s : State) (b : Block) (tid : Nat) (va : DWord) (pa : Nat) (bs : List Byte) :
    Canon s (s.storeAt b tid va pa bs) := .after (canon_noteWrite _ _ _ _ _ _ _) (canon_writePa _ _ _)

theorem canon_scratchWrite (s : State) (n off : Nat) (bs : List Byte) : Canon s (s.scratchWrite n off bs) :=
  (canon_modBlock _ _ _).trans (canon_heal _ _)

theorem canon_staleLine (s : State) (k : Bool) (unit task line va : Nat) : Canon s (s.staleLine k unit task line va).1 := by
  unfold State.staleLine
  dsimp only
  split
  · exact .of_mem rfl
  · split
    · exact .refl s
    · split <;> exact .of_mem rfl

theorem canon_staleRead (s : State) (k : Bool) (unit task va pa n : Nat) : Canon s (s.staleRead k unit task va pa n).1 := by
  unfold State.staleRead
  dsimp only
  split
  · exact canon_staleLine _ _ _ _ _ _
  · exact .after (canon_staleLine _ _ _ _ _ _) (canon_staleLine _ _ _ _ _ _)

theorem canon_inArrival (key : Nat × Nat → DWord) (k : Nat) (s : State) (xs : List (Nat × Nat)) :
    Canon s (State.inArrival key k s xs).1 := by
  induction k generalizing s xs with
  | zero => exact .refl s
  | succ k ih =>
    cases xs with
    | nil => exact .refl s
    | cons x xs =>
      unfold State.inArrival
      dsimp only
      split
      · exact ih _ _
      · exact .after (ih _ _) (.of_mem rfl)

/-! ## Issues -/

theorem canon_conclude (s : State) (c : Ctx) (fs : List (Nat × Fate)) : Canon s (s.conclude c fs) := by
  unfold State.conclude
  dsimp only
  refine .after (canon_haltThreads _ _ _ _) (.after (canon_retireThreads _ _ _) (.after (canon_exitThreads _ _ _) ?_))
  split
  · exact canon_releases _ _
  · exact .refl s

theorem canon_finish (s : State) (c : Ctx) (fs : List (Nat × Fate)) : Canon s (s.finish c fs) := by
  unfold State.finish
  dsimp only
  refine .after (canon_conclude _ _ _) ?_
  split
  · exact (canon_heal _ _).trans (canon_modBlock _ _ _)
  · exact .after (canon_charge _ _ _ _) ((canon_heal _ _).trans (canon_modBlock _ _ _))

theorem canon_arrive (s : State) (iss : Issue) (op : Nat) : Canon s (s.arrive iss op) := by
  unfold State.arrive
  split
  · exact .refl s
  refine .foldl (fun s x => ?_) _ s
  split
  · exact .refl s
  · dsimp only
    split
    · exact .refl s
    · split <;> exact .of_mem rfl

theorem canon_noteEarly (s : State) (c : Ctx) (ts : List (Nat × TrapInfo)) : Canon s (s.noteEarly c ts) := by
  unfold State.noteEarly
  split
  · exact canon_event _ _ _ _ _ _ _
  · exact .refl s

/-- An issue keeps the canonical form where its meaning does. -/
theorem canon_runIssue (s : State) (op : Nat) (w : CWord) {act : Ctx → State → State × List (Nat × Fate)}
    (h : ∀ c s, Canon s (act c s).1) : Canon s (s.runIssue op w act) := by
  unfold State.runIssue State.runIssueOf
  split
  · exact .refl s
  · split
    · exact .refl s
    · dsimp only
      split
      · exact canon_arrive _ _ _
      · refine .after (canon_finish _ _ _) ?_
        rename_i iss _ _ b _ _
        have := fun p => ((canon_arrive s iss op).trans (canon_noteEarly _ (ctxOf iss op w b)
          ((s.arrive iss op).early (ctxOf iss op w b)))).trans (canon_correctUnits _ b.die p)
        split
        · split
          · exact (this _).trans (canon_heal _ _)
          · exact this _
        · split
          · exact ((this _).trans (h _ _)).trans (canon_heal _ _)
          · exact (this _).trans (h _ _)

theorem canon_runAlu (s : State) (op : Nat) (w : CWord) (f : Opnd → Alu) : Canon s (s.runAlu op w f) := by
  unfold State.runAlu
  refine canon_runIssue s op w fun c s => ?_
  unfold State.aluAct
  dsimp only
  split
  · split
    · exact canon_modBlock _ _ _
    · exact .refl s
  · exact .refl s

theorem canon_eachOf {f : State → Nat × Nat → State × Fate} (h : ∀ s x, Canon s (f s x).1) (xs : List (Nat × Nat)) (s : State) :
    Canon s (s.eachOf xs f).1 := by
  unfold State.eachOf
  suffices ∀ a : State × List (Nat × Fate), Canon a.1 (xs.foldl (fun a x =>
      (if (f a.1 x).2 = .again then a.1.unmade (f a.1 x).1 else (f a.1 x).1, a.2 ++ [(x.2, (f a.1 x).2)])) a).1 from
    this (s, [])
  intro a
  induction xs generalizing a with
  | nil => exact .refl _
  | cons x xs ih =>
    refine .trans ?_ (ih (if (f a.1 x).2 = .again then a.1.unmade (f a.1 x).1 else (f a.1 x).1, a.2 ++ [(x.2, (f a.1 x).2)]))
    dsimp only
    split
    · exact .of_mem rfl
    · exact h a.1 x

theorem canon_fitAcks {s : State} {c : Ctx} {r : State × List (Nat × Fate)} (h : Canon s r.1) : Canon s (s.fitAcks c r).1 := by
  unfold State.fitAcks
  split
  · exact h
  · exact .refl s

theorem canon_runMem (s : State) (op : Nat) (w : CWord) (rel : Bool) (scope : Nat)
    {f : Ctx → State → Nat × Nat → State × Fate} (h : ∀ c s x, Canon s (f c s x).1) : Canon s (s.runMem op w rel scope f) := by
  unfold State.runMem
  refine canon_runIssue s op w fun c s => ?_
  split
  · exact .refl s
  · exact canon_fitAcks (canon_eachOf (h c) _ s)

end Sys2Proof.Machine
end

