-- ==== Sys2Proof/Tests/Slice0.lean ====
section
/-! SUPPORT. Tests: terms that WellFormed refuses, words of the manual, single steps, and states that meet the
hypotheses of the obligations. Expected values are the manual's worked examples, or computed from its rules by hand. -/

namespace Sys2Proof.Tests

open Machine

/-! ## Well-formedness (R54) -/

theorem test_wf_accepts : (Instr.iadd { d := 4#8, a := 5#8, imm := 3#32, bsel := 2#2, ty := .i32 }).WellFormed = true := by decide
/-- A word of the write form under the constructor of the read form. -/
theorem test_wf_constructor : (Instr.xmov { d := 1#8, b := 12#8, mod := 1#6, ty := .b64 }).WellFormed = false := by decide
theorem test_wf_guard : (Instr.nop { g := 15#4 }).WellFormed = false := by decide
theorem test_wf_reserved : (Instr.nop { d := 1#8 }).WellFormed = false := by decide
theorem test_wf_bsel : (Instr.ld { d := 4#8, a := 8#8, bsel := 3#2, ty := .b32 }).WellFormed = false := by decide
theorem test_wf_ext : (Instr.iadd { d := 4#8, ext := 1#32, ty := .i32 }).WellFormed = false := by decide
theorem test_wf_type : (Instr.ffma { d := 5#8, a := 2#8, bsel := 1#2, ty := .i32 }).WellFormed = false := by decide
theorem test_wf_core : (Instr.restore 0 768).WellFormed = false ∧ (Instr.restore 0 767).WellFormed = true := by decide
theorem test_wf_source : (Instr.tokenResponse 0 0 (some 768)).WellFormed = false := by decide
theorem test_wf_line : (Instr.lineFill 0 0 32#64).WellFormed = false := by decide
theorem test_wf_die : (Instr.fillResponse 4 0).WellFormed = false := by decide
theorem test_wf_id : (Instr.fqrespMapped 0 4294967296).WellFormed = false := by decide
theorem test_wf_place : (Instr.remoteRead (.cluster 32) 0).WellFormed = false := by decide
theorem test_wf_port : (Instr.portComesBack 128).WellFormed = false ∧ (Instr.portComesBack 127).WellFormed = true := by decide
theorem test_wf_queue : (Instr.queueTake 0 64).WellFormed = false := by decide
theorem test_wf_envelope : (Instr.functionBinding 0 4096).WellFormed = false := by decide

/-! ## Decoding: one short word of each opcode, from R57, R86 and R87; words that the manual works out -/

def shortWords (xs : List (Nat × Instr)) : Bool := xs.all fun p => decode (toBytesBE 8 p.1) == some (p.2, [])

def control1Words : List (Nat × Instr) := [
    (0x8007000000000000, .nop {}),
    (0x8017040000000000, .clause { d := 4#8 }),
    (0x8027000000000005, .bra { imm := 5#32 }),
    (0x8037000800000000, .brx { a := 8#8 }),
    (0x8047000000000005, .call { imm := 5#32 }),
    (0x8057000800000000, .callx { a := 8#8 }),
    (0x8067000000000000, .ret {}),
    (0x8077000800000005, .ubra { a := 8#8, imm := 5#32 }),
    (0x8087000000000005, .arm { imm := 5#32 }),
    (0x8097000000000005, .pin { imm := 5#32 }),
    (0x80A7000000000005, .pinAlign { imm := 5#32 }),
    (0x80B700000C000000, .width { b := 12#8 }),
    (0x80C7000000000000, .exit {}),
    (0x80D7000000000000, .trigger {}),
    (0x80E7000000000040, .land { imm := 64#32 }),
    (0x80F7000000000000, .yield {})]

theorem test_decode_control_1 : shortWords control1Words = true := by decide

def control2Words : List (Nat × Instr) := [
    (0x810700000C000000, .payout { b := 12#8 }),
    (0x811700000C000000, .sleep { b := 12#8 }),
    (0x812700000C000000, .sleepuntil { b := 12#8 }),
    (0x8137000000000005, .trap { imm := 5#32 }),
    (0x8147000000000000, .tret {}),
    (0x8157040800000005, .tread { d := 4#8, a := 8#8, ty := .b32, imm := 5#32 }),
    (0x816700080C000005, .twrite { a := 8#8, b := 12#8, ty := .b32, imm := 5#32 }),
    (0x8177000000000005, .kill { imm := 5#32 }),
    (0x8187000000000005, .bkpt { imm := 5#32 }),
    (0x819700000C000000, .wdog { b := 12#8 }),
    (0x81A7000000000000, .ifence {}),
    (0x81B700080C000000, .icinv { a := 8#8, b := 12#8 }),
    (0x81C7040000000000, .srd { d := 4#8, ty := .b32 }),
    (0x81D704000C000000, .swr { d := 4#8, b := 12#8, ty := .b32 })]

theorem test_decode_control_2 : shortWords control2Words = true := by decide

def integer1Words : List (Nat × Instr) := [
    (0x8807040800000005, .iadd { d := 4#8, a := 8#8, ty := .i32, bsel := 2#2, imm := 5#32 }),
    (0x8817040800000005, .isub { d := 4#8, a := 8#8, ty := .i32, bsel := 2#2, imm := 5#32 }),
    (0x8827040800000005, .imul { d := 4#8, a := 8#8, ty := .i32, bsel := 2#2, imm := 5#32 }),
    (0x8837040800000005, .imulhi { d := 4#8, a := 8#8, ty := .i32, bsel := 2#2, imm := 5#32 }),
    (0x884704080C000005, .imad { d := 4#8, a := 8#8, b := 12#8, ty := .i32, imm := 5#32 }),
    (0x8857040800000005, .idiv { d := 4#8, a := 8#8, ty := .i32, bsel := 2#2, imm := 5#32 }),
    (0x8867040800000005, .irem { d := 4#8, a := 8#8, ty := .i32, bsel := 2#2, imm := 5#32 }),
    (0x8877040000000005, .iabs { d := 4#8, ty := .i32, bsel := 2#2, imm := 5#32 }),
    (0x8887040000000005, .ineg { d := 4#8, ty := .i32, bsel := 2#2, imm := 5#32 }),
    (0x8897040800000005, .imin { d := 4#8, a := 8#8, ty := .i32, bsel := 2#2, imm := 5#32 }),
    (0x88A7040800000005, .imax { d := 4#8, a := 8#8, ty := .i32, bsel := 2#2, imm := 5#32 }),
    (0x88B7040800000005, .iaddsat { d := 4#8, a := 8#8, ty := .i32, bsel := 2#2, imm := 5#32 }),
    (0x88C7040800000005, .icmp { d := 4#8, a := 8#8, ty := .i32, bsel := 2#2, imm := 5#32 }),
    (0x88D7040800000005, .iset { d := 4#8, a := 8#8, ty := .i32, bsel := 2#2, imm := 5#32 }),
    (0x88E7040800000005, .and { d := 4#8, a := 8#8, ty := .b32, bsel := 2#2, imm := 5#32 }),
    (0x88F7040800000005, .or { d := 4#8, a := 8#8, ty := .b32, bsel := 2#2, imm := 5#32 })]

theorem test_decode_integer_1 : shortWords integer1Words = true := by decide

def integer2Words : List (Nat × Instr) := [
    (0x8907040800000005, .xor { d := 4#8, a := 8#8, ty := .b32, bsel := 2#2, imm := 5#32 }),
    (0x8917040800000000, .not { d := 4#8, a := 8#8, ty := .b32 }),
    (0x8927040800000005, .andn { d := 4#8, a := 8#8, ty := .b32, bsel := 2#2, imm := 5#32 }),
    (0x8937040800000005, .shl { d := 4#8, a := 8#8, ty := .b32, bsel := 2#2, imm := 5#32 }),
    (0x8947040800000005, .shr { d := 4#8, a := 8#8, ty := .b32, bsel := 2#2, imm := 5#32 }),
    (0x8957040800000005, .sar { d := 4#8, a := 8#8, ty := .i32, bsel := 2#2, imm := 5#32 }),
    (0x8967040800000005, .rotl { d := 4#8, a := 8#8, ty := .b32, bsel := 2#2, imm := 5#32 }),
    (0x8977040800000005, .funnel { d := 4#8, a := 8#8, ty := .b32, bsel := 2#2, imm := 5#32 }),
    (0x8987040800000005, .bfx { d := 4#8, a := 8#8, ty := .b32, bsel := 2#2, imm := 5#32 }),
    (0x8997040800000005, .bfi { d := 4#8, a := 8#8, ty := .b32, bsel := 2#2, imm := 5#32 }),
    (0x89A7040800000000, .popc { d := 4#8, a := 8#8, ty := .b32 }),
    (0x89B7040800000000, .clz { d := 4#8, a := 8#8, ty := .b32 }),
    (0x89C7040800000000, .ctz { d := 4#8, a := 8#8, ty := .b32 }),
    (0x89D7040800000000, .brev { d := 4#8, a := 8#8, ty := .b32 }),
    (0x89E7040800000005, .prmt { d := 4#8, a := 8#8, ty := .b32, bsel := 2#2, imm := 5#32 }),
    (0x89F7040800000005, .sel { d := 4#8, a := 8#8, ty := .b32, bsel := 2#2, imm := 5#32 })]

theorem test_decode_integer_2 : shortWords integer2Words = true := by decide

def integer3Words : List (Nat × Instr) := [
    (0x8A07040800000000, .mov { d := 4#8, a := 8#8, ty := .b32 }),
    (0x8A17040000000005, .movi { d := 4#8, ty := .b32, bsel := 2#2, imm := 5#32 }),
    (0x8A2704080C000005, .lea { d := 4#8, a := 8#8, b := 12#8, ty := .n64, imm := 5#32 }),
    (0x8A37040000000005, .plop { d := 4#8, imm := 5#32 })]

theorem test_decode_integer_3 : shortWords integer3Words = true := by decide

def float1Words : List (Nat × Instr) := [
    (0x9007040800000005, .fadd { d := 4#8, a := 8#8, ty := .f32, bsel := 2#2, imm := 5#32 }),
    (0x9017040800000005, .fsub { d := 4#8, a := 8#8, ty := .f32, bsel := 2#2, imm := 5#32 }),
    (0x9027040800000005, .fmul { d := 4#8, a := 8#8, ty := .f32, bsel := 2#2, imm := 5#32 }),
    (0x903704080C000005, .ffma { d := 4#8, a := 8#8, b := 12#8, ty := .f32, imm := 5#32 }),
    (0x9047040800000005, .fmin { d := 4#8, a := 8#8, ty := .f32, bsel := 2#2, imm := 5#32 }),
    (0x9057040800000005, .fmax { d := 4#8, a := 8#8, ty := .f32, bsel := 2#2, imm := 5#32 }),
    (0x9067040800000005, .fcmp { d := 4#8, a := 8#8, ty := .f32, bsel := 2#2, imm := 5#32 }),
    (0x9077040800000005, .fset { d := 4#8, a := 8#8, ty := .f32, bsel := 2#2, imm := 5#32 }),
    (0x9087040800000005, .fclass { d := 4#8, a := 8#8, ty := .f32, bsel := 2#2, imm := 5#32 }),
    (0x9097040000000005, .frnd { d := 4#8, ty := .f32, bsel := 2#2, imm := 5#32 }),
    (0x90A7040800000005, .fscale { d := 4#8, a := 8#8, ty := .f32, bsel := 2#2, imm := 5#32 }),
    (0x90B7040800000005, .fdiv { d := 4#8, a := 8#8, ty := .f32, bsel := 2#2, imm := 5#32 }),
    (0x90C7040800680000, .fcvt { d := 4#8, a := 8#8, ty := .f32, mod := 26#6 }),
    (0x90D7040800680000, .f2i { d := 4#8, a := 8#8, ty := .i32, mod := 26#6 }),
    (0x90E70408002C0000, .i2f { d := 4#8, a := 8#8, ty := .f32, mod := 11#6 }),
    (0x90F7040800000005, .hadd2 { d := 4#8, a := 8#8, ty := .f16x2, bsel := 2#2, imm := 5#32 })]

theorem test_decode_float_1 : shortWords float1Words = true := by decide

def float2Words : List (Nat × Instr) := [
    (0x910704080C000005, .hfma2 { d := 4#8, a := 8#8, b := 12#8, ty := .f16x2, imm := 5#32 }),
    (0x911704080C000005, .dot4 { d := 4#8, a := 8#8, b := 12#8, ty := .i8, imm := 5#32 })]

theorem test_decode_float_2 : shortWords float2Words = true := by decide

def crossThread1Words : List (Nat × Instr) := [
    (0x9807040800000000, .rcp { d := 4#8, a := 8#8, ty := .f32 }),
    (0x9817040800000000, .rsq { d := 4#8, a := 8#8, ty := .f32 }),
    (0x9827040800000000, .sqrt { d := 4#8, a := 8#8, ty := .f32 }),
    (0x9837040800000000, .exp2 { d := 4#8, a := 8#8, ty := .f32 }),
    (0x9847040800000000, .log2 { d := 4#8, a := 8#8, ty := .f32 }),
    (0x9857040800000000, .sin { d := 4#8, a := 8#8, ty := .f32 }),
    (0x9867040800000000, .cos { d := 4#8, a := 8#8, ty := .f32 }),
    (0x9877040800000000, .tanh { d := 4#8, a := 8#8, ty := .f32 }),
    (0x988704080C000000, .shfl { d := 4#8, a := 8#8, b := 12#8, ty := .b32 }),
    (0x9897040000000000, .vote { d := 4#8 }),
    (0x98A7040800000000, .matchx { d := 4#8, a := 8#8, ty := .b32 }),
    (0x98B7040800000000, .red { d := 4#8, a := 8#8, ty := .i32 }),
    (0x98C7040800000000, .scan { d := 4#8, a := 8#8, ty := .i32 }),
    (0x9907040000000000, .xclr { d := 4#8 }),
    (0x9917040800000000, .xadd { d := 4#8, a := 8#8, ty := .f32 }),
    (0x992704080C000000, .xfma { d := 4#8, a := 8#8, b := 12#8, ty := .f32 })]

theorem test_decode_cross_thread_1 : shortWords crossThread1Words = true := by decide

def crossThread2Words : List (Nat × Instr) := [
    (0x9937040000000000, .xrnd { d := 4#8, ty := .f32 }),
    (0x994704000C000000, .xmov { d := 4#8, b := 12#8, ty := .b64 }),
    (0x998704080C000005, .binq { d := 4#8, a := 8#8, b := 12#8, ty := .f32, imm := 5#32 }),
    (0x999704080C000005, .cross { d := 4#8, a := 8#8, b := 12#8, ty := .f32, imm := 5#32 }),
    (0x99A704080C000005, .tcmp { d := 4#8, a := 8#8, b := 12#8, ty := .f32, imm := 5#32 }),
    (0x99B704080C000005, .leaf { d := 4#8, a := 8#8, b := 12#8, ty := .f32, imm := 5#32 })]

theorem test_decode_cross_thread_2 : shortWords crossThread2Words = true := by decide

def memory1Words : List (Nat × Instr) := [
    (0xA007040800000005, .ld { d := 4#8, a := 8#8, ty := .b32, imm := 5#32 }),
    (0xA01700080C000005, .st { a := 8#8, b := 12#8, ty := .b32, imm := 5#32 }),
    (0xA027040800000005, .lds { d := 4#8, a := 8#8, ty := .b32, imm := 5#32 }),
    (0xA03700080C000005, .sts { a := 8#8, b := 12#8, ty := .b32, imm := 5#32 }),
    (0xA047040800000005, .ldc { d := 4#8, a := 8#8, ty := .b32, imm := 5#32 }),
    (0xA05700080C000005, .stc { a := 8#8, b := 12#8, ty := .b32, imm := 5#32 }),
    (0xA067040800000005, .ldk { d := 4#8, a := 8#8, ty := .b32, imm := 5#32 }),
    (0xA07704080C000005, .atom { d := 4#8, a := 8#8, b := 12#8, ty := .i32, imm := 5#32 }),
    (0xA08704080C000005, .atoms { d := 4#8, a := 8#8, b := 12#8, ty := .i32, imm := 5#32 }),
    (0xA09700080C000005, .bred { a := 8#8, b := 12#8, ty := .i32, imm := 5#32 }),
    (0xA0A700080C000005, .bupd { a := 8#8, b := 12#8, ty := .i32, imm := 5#32 }),
    (0xA0B7000000040000, .fence { mod := 1#6 }),
    (0xA0C704080C000005, .waitaddr { d := 4#8, a := 8#8, b := 12#8, ty := .b32, imm := 5#32 }),
    (0xA0D7000800000005, .cctl { a := 8#8, imm := 5#32 }),
    (0xA0E7000800000005, .prefetch { a := 8#8, imm := 5#32 }),
    (0xA0F700080C080005, .park { a := 8#8, b := 12#8, mod := 2#6, imm := 5#32 })]

theorem test_decode_memory_1 : shortWords memory1Words = true := by decide

def memory2Words : List (Nat × Instr) := [
    (0xA107000800080005, .unpark { a := 8#8, mod := 2#6, imm := 5#32 })]

theorem test_decode_memory_2 : shortWords memory2Words = true := by decide

def objects1Words : List (Nat × Instr) := [
    (0xA80704080C000000, .acopy { d := 4#8, a := 8#8, b := 12#8 }),
    (0xA817000000000005, .aqfence { imm := 5#32 }),
    (0xA82704080C000000, .fetch { d := 4#8, a := 8#8, b := 12#8, ty := .b32 }),
    (0xA83700080C000005, .fput { a := 8#8, b := 12#8, ty := .b64, imm := 5#32 }),
    (0xA847040800000000, .fget { d := 4#8, a := 8#8, ty := .b64 }),
    (0xA857040800000005, .ftry { d := 4#8, a := 8#8, ty := .b64, imm := 5#32 }),
    (0xA86700080C000005, .mbsend { a := 8#8, b := 12#8, imm := 5#32 }),
    (0xA87700080C000005, .mbrecv { a := 8#8, b := 12#8, imm := 5#32 }),
    (0xA88700080C000005, .tspawn { a := 8#8, b := 12#8, imm := 5#32 }),
    (0xA89700080C000000, .bari { a := 8#8, b := 12#8 }),
    (0xA8A704080C000000, .bara { d := 4#8, a := 8#8, b := 12#8 }),
    (0xA8B700080C000000, .barw { a := 8#8, b := 12#8 }),
    (0xA8C7000000000000, .bsync {})]

theorem test_decode_objects_1 : shortWords objects1Words = true := by decide

def matrix1Words : List (Nat × Instr) := [
    (0xB00704080C000000, .mma { d := 4#8, a := 8#8, b := 12#8, ty := .f16 }),
    (0xB01704080C000000, .mmasp { d := 4#8, a := 8#8, b := 12#8, ty := .f16 }),
    (0xB02704080C000005, .tld { d := 4#8, a := 8#8, b := 12#8, imm := 5#32 }),
    (0xB03704080C000005, .tst { d := 4#8, a := 8#8, b := 12#8, imm := 5#32 }),
    (0xB04704000C000000, .aclr { d := 4#8, b := 12#8 }),
    (0xB05704080C000005, .ald { d := 4#8, a := 8#8, b := 12#8, ty := .f32, imm := 5#32 }),
    (0xB06704080C000005, .ast { d := 4#8, a := 8#8, b := 12#8, ty := .f32, imm := 5#32 }),
    (0xB07704080C000005, .ard { d := 4#8, a := 8#8, b := 12#8, ty := .f32, imm := 5#32 }),
    (0xB08704080C000005, .awr { d := 4#8, a := 8#8, b := 12#8, ty := .f32, imm := 5#32 }),
    (0xB09704080C000005, .aqnt { d := 4#8, a := 8#8, b := 12#8, ty := .e2m1x8, imm := 5#32 }),
    (0xB0A7040800000005, .prune { d := 4#8, a := 8#8, ty := .f32, imm := 5#32 }),
    (0xB0B704080C000000, .sppack { d := 4#8, a := 8#8, b := 12#8, ty := .e2m1x8 }),
    (0xB0C7040800000000, .intsect { d := 4#8, a := 8#8, ty := .n32 }),
    (0xB0D7040800000000, .bsort { d := 4#8, a := 8#8, ty := .n32 }),
    (0xB0E7040800000000, .bmerge { d := 4#8, a := 8#8, ty := .n32 })]

theorem test_decode_matrix_1 : shortWords matrix1Words = true := by decide

def xmovWriteWords : List (Nat × Instr) := [
    (0x994701000C040003, .xmovWrite { d := 1#8, b := 12#8, ty := .b64, mod := 1#6, imm := 3#32 })]

theorem test_decode_xmov_write : shortWords xmovWriteWords = true := by decide

/-- R96: a branch back of 24 bytes. R67: two clause headers. R169: a load in the compact form. -/
theorem test_decode_manual :
    decode [0x51#8, 0#8, 0#8, 0x28#8] = some (.bra { imm := 0xFFFFFFE8#32 }, []) ∧
    decode [0xC0#8, 0#8, 0x5C#8, 0x0C#8, 0#8, 0#8, 0#8, 0#8, 0#8, 2#8, 0x40#8, 0xBC#8, 0#8] =
      some (.clause { d := 3#8, imm := 0x0240BC00#32 }, []) ∧
    decode [0x80#8, 0x17#8, 2#8, 0#8, 0#8, 1#8, 0x80#8, 0#8] = some (.clause { d := 2#8, imm := 0x18000#32 }, []) ∧
    decode [0x40#8, 0x28#8, 0x80#8, 0x10#8] = some (.ld { d := 10#8, a := 8#8, imm := 16#32, ty := .b32 }, []) := by decide

/-- R90: what is no instruction. -/
theorem test_decode_refuses :
    decode [0xF0#8] = none ∧ decode [0xFF#8] = none ∧ decode [0x4F#8, 0#8, 0#8, 0#8] = none ∧
    decodeEntry [0xC1#8] = .bad .illegalOp 1 true ∧ decodeEntry [0x80#8, 0x0F#8, 0#8, 0#8, 0#8, 0#8, 0#8, 0#8] = .bad .illegalGuard 8 false := by
  decide

/-! ## Single steps -/

/-- A state in which an instruction of four bytes stands next for one thread, alone in a block. -/
def alone (b : Block) : State :=
  { State.reset.place [] with blocks := [b], cur := some { blk := 1, plait := 1, ths := [(0, 0)], len := 4 } }

/-- The placed block with vector and uniform registers of its thread set. -/
def regs (vs : List (Nat × Word)) (us : List (Nat × DWord) := []) : Block :=
  let b := { placedBlock with trap := { tvec := 0x10000#64 }, uregs := us.foldl (fun (l : List UReg) (x : Nat × DWord) => l.set x.1 { val := x.2 }) placedBlock.uregs }
  b.modTh 0 fun th => { th with v := vs.foldl (fun (l : List Word) (x : Nat × Word) => l.set x.1 x.2) th.v }

/-- The block after an instruction. -/
def after (s : State) (i : Instr) : Option Block :=
  match exec i s with
  | .next t => t.block? 1
  | _ => none

/-- A vector register after an instruction, as a number. -/
def v (s : State) (i : Instr) (n : Nat) : Option Nat := (after s i).map fun b => ((b.th 0).v.getD n 0#32).toNat

def pc (s : State) (i : Instr) : Option Nat := (after s i).map fun b => (b.th 0).pc.toNat

/-- Code of the trap taken, and the number of threads trapped. -/
def trapOf (s : State) (i : Instr) : Option (Nat × Bool) := (after s i).map fun b => (b.trap.bank0.cause.toNat % 256, b.trap.stopped)

/-- Two registers 4 and 5, a word that names them, and the result of its instruction. -/
def bin (i : CWord → Instr) (t : Ty) (x y : Nat) (mod : Nat := 0) : Option Nat :=
  v (alone (regs [(8, BitVec.ofNat 32 x), (12, BitVec.ofNat 32 y)])) (i { d := 4#8, a := 8#8, b := 12#8, ty := t, mod := BitVec.ofNat 6 mod }) 4

theorem test_step_places : (match step (State.reset.withFetchWord 32 0x3D501011) with
    | .next t => (t.block? 1).map fun b => ((b.th 0).v.getD 4 0#32, (b.th 0).pc, b.regs.ireel.toNat)
    | _ => none) = some (0xFFFFFFFD#32, 0x10004#64, 2 ^ 40 - 1) := by decide

theorem test_iadd_wraps : bin .iadd .i32 0xFFFFFFFF 2 = some 1 := by decide
theorem test_isub_wraps : bin .isub .i32 1 2 = some 0xFFFFFFFF := by decide
theorem test_imulhi_signed : bin .imulhi .i32 0xFFFFFFFF 2 = some 0xFFFFFFFF := by decide
theorem test_idiv_truncates : bin .idiv .i32 0xFFFFFFF9 2 = some 0xFFFFFFFD := by decide
theorem test_irem_sign : bin .irem .i32 0xFFFFFFF9 2 = some 0xFFFFFFFF := by decide
theorem test_idiv_least : bin .idiv .i32 0x80000000 0xFFFFFFFF = some 0x80000000 := by decide
theorem test_imin_signed : bin .imin .i32 0xFFFFFFFF 1 = some 0xFFFFFFFF ∧ bin .imin .n32 0xFFFFFFFF 1 = some 1 := by decide
theorem test_iaddsat : bin .iaddsat .i32 0x7FFFFFFF 1 = some 0x7FFFFFFF := by decide
theorem test_shl_width : bin .shl .b32 3 32 = some 0 ∧ bin .shl .b32 3 31 = some 0x80000000 := by decide
theorem test_sar_sign : bin .sar .i32 0x80000000 31 = some 0xFFFFFFFF := by decide
theorem test_rotl_modulo : bin .rotl .b32 0x80000001 33 = some 3 := by decide
theorem test_andn : bin .andn .b32 0xFF 0x0F = some 0xF0 := by decide
theorem test_popc_clz : bin .popc .b32 0xF0 0 = some 4 ∧ bin .clz .b32 0 0 = some 32 ∧ bin .ctz .b32 8 0 = some 3 := by decide
theorem test_brev : bin .brev .b32 1 0 = some 0x80000000 := by decide
theorem test_fadd_even : bin .fadd .f32 0x4B800000 0x3F800000 = some 0x4B800000 := by decide
theorem test_fmul : bin .fmul .f32 0x40000000 0x40400000 = some 0x40C00000 := by decide
theorem test_fmin_zero : bin .fmin .f32 0x80000000 0 = some 0x80000000 := by decide
theorem test_fdiv_third : bin .fdiv .f32 0x3F800000 0x40400000 = some 0x3EAAAAAB := by decide
theorem test_i2f : bin .i2f .f32 16777217 0 0x0B = some 0x4B800000 := by decide
theorem test_fcvt_half : bin .fcvt .f16 0x3F800000 0 0x1A = some 0x3C00 := by decide
theorem test_sqrt : bin .sqrt .f32 0x40800000 0 = some 0x40000000 := by decide

/-- R126: a divisor of zero. -/
theorem test_idiv_zero : trapOf (alone (regs [(8, 7#32)])) (.idiv { d := 4#8, a := 8#8, b := 12#8, ty := .i32 }) =
    some (causeCode .intDiv0, true) := by decide

/-- R38: a register beyond the allocation. -/
theorem test_reg_index : trapOf (alone (regs [])) (.mov { d := 255#8, a := 254#8, ty := .b64 }) =
    some (causeCode .regIndex, true) := by decide

/-- R39: a false guard changes the PC alone. -/
theorem test_false_guard : v (alone (regs [(8, 7#32)])) (.mov { g := 0#4, d := 4#8, a := 8#8, ty := .b32 }) 4 = some 0 ∧
    pc (alone (regs [])) (.mov { g := 0#4, d := 4#8, a := 8#8, ty := .b32 }) = some 0x10004 := by decide

/-- R132: the displacement of LEA; R83: a uniform destination. -/
theorem test_lea : v (alone (regs [(8, 0x1000#32), (12, 3#32)])) (.lea { d := 4#8, a := 8#8, b := 12#8, mod := 2#6, imm := 16#32, ty := .n32 }) 4 =
    some 0x101C := by decide
theorem test_uniform : (after (alone (regs [] [(2, 5#64)])) (.iadd { uni := true, d := 1#8, a := 2#8, imm := 3#32, bsel := 2#2, ty := .i32 })).map
    (·.ureg 1) = some 8 := by decide

/-- R157: the worked tree. Thread A at index 0 goes right at an equal threshold, to index 2. -/
theorem test_cross_tree : v (alone (regs [(10, 0#32), (12, 0x3F000000#32), (13, 0x00050000#32), (14, 0x3F000000#32)]))
    (.cross { d := 10#8, a := 10#8, b := 12#8, bsel := 1#2, imm := 14#32, ty := .f32 }) 10 = some 2 := by decide
/-- R157: the leaf 2.0 under the weight 0.5. -/
theorem test_leaf_tree : v (alone (regs [(12, 0x40000000#32), (13, 0x00020000#32)]))
    (.leaf { d := 10#8, a := 12#8, b := 16#8, imm := 0x3F000000#32, ty := .f32 }) 10 = some 0x3F800000 := by decide

/-- R205, R206: the worked example of one sparse k-block. -/
theorem test_prune_example : v (alone (regs [(20, 0xC0003800#32), (21, 0x38003C00#32), (22, 0x4200BC00#32), (23, 0xB8003E00#32),
    (24, 0x38004000#32), (25, 0x4000BC00#32), (26, 0x34003C00#32), (27, 0x3C00BC00#32)]))
    (.prune { d := 30#8, a := 20#8, b := 24#8, imm := 4#32, ty := .f16 }) 30 = some 0x47 := by decide
theorem test_sppack_example : v (alone (regs [(30, 0x47#32), (32, 0x935A12C1#32)]))
    (.sppack { d := 31#8, a := 32#8, b := 30#8, ty := .e2m1x8 }) 31 = some 0x32C1 := by decide

/-- R30, R153: 2^100 + 1 − 2^100, exact, is 1. -/
theorem test_exact_sum :
    let s0 := alone (regs [(8, 0x71800000#32), (9, 0x3F800000#32), (10, 0xF1800000#32)])
    let add (n : Nat) (s : State) : State := match exec (.xadd { a := BitVec.ofNat 8 n, ty := .f32 }) s with
      | .next t => { t with cur := s0.cur }
      | _ => s
    v (add 10 (add 9 (add 8 s0))) (.xrnd { d := 4#8, ty := .f32 }) 4 = some 0x3F800000 := by decide +kernel

/-- R97, R99: an armed thread waits at its pin, one that is not goes on. -/
theorem test_pin : ((after (alone (placedBlock.modTh 0 fun th => { th with armed := 8#32 })) (.pinAlign { imm := 3#32 })).map fun b =>
      ((b.th 0).group, (b.th 0).pc.toNat)) = some (some 0, 0x10004) ∧
    pc (alone placedBlock) (.pin { imm := 3#32 }) = some 0x10004 := by decide

/-- R94: CALL leaves the offset of the next instruction in v0. -/
theorem test_call : v (alone placedBlock) (.call { imm := 0#32 }) 0 = some 4 ∧ pc (alone placedBlock) (.call { imm := 0#32 }) = some 0x10000 := by
  decide
/-- R93: a target at the bound traps, the address the target. -/
theorem test_bra_bound : (after (alone placedBlock) (.bra { imm := 0x40#32 })).map (fun b => (b.trap.bank0.cause.toNat % 256, b.trap.bank0.addr)) =
    some (causeCode .accessViolation, 0x10040#64) := by decide

/-- R109, R371: TRAP stops the block, with the immediate as the address, one thread, and the PC. -/
theorem test_trap : (after (alone { placedBlock with trap := { tvec := 0x10000#64 } }) (.trap { imm := 77#32 })).map (fun b =>
    (b.trap.level, b.trap.bank0.cause.toNat / 256 % 2048, b.trap.bank0.addr, b.trap.bank0.pc, b.handler.pc)) =
    some (1, 1, 77#64, 0x10000#64, 0x10000#64) := by decide

/-- R110, R377: TRET.skip of level 1 resumes the thread behind its instruction. -/
theorem test_tret_skip :
    let b := { placedBlock.modTh 0 (fun th => { th with st := .trapped }) with
      trap := { level := 1, stopped := true, stopSet := [0], tvec := 0x10000#64 } }
    let s := { alone b with cur := some { blk := 1, handler := true, ths := [(0, 1)], len := 4 } }
    ((after s (.tret { mod := 1#6 })).map fun b => (b.trap.level, (b.th 0).st, (b.th 0).pc.toNat)) = some (0, .ready, 0x10004) := by decide

/-- R117: a program reads %bsize; a write of %tvec takes a privilege that it has not. -/
theorem test_srd_swr : v (alone placedBlock) (.srd { d := 4#8, a := 0x18#8, ty := .b32 }) 4 = some 1 ∧
    trapOf (alone (regs [])) (.swr { d := 0x49#8, a := 0#8, ty := .b64 }) = some (causeCode .accessViolation, true) := by decide

/-- R167, R168: a stored word comes back by bytes, the lowest first; beyond the allocation is SCRATCH_BOUNDS. -/
theorem test_scratch :
    let s := alone (regs [(8, 4092#32), (12, 0x11223344#32)])
    ((after s (.sts { a := 8#8, b := 12#8, ty := .b32 })).map fun b => (b.scratch.get 4092, b.scratch.get 4095)) = some (0x44#8, 0x11#8) ∧
    trapOf s (.sts { a := 8#8, b := 12#8, imm := 4#32, ty := .b32 }) = some (causeCode .scratchBounds, true) := by decide
theorem test_lds_sign : v (alone { regs [] with scratch := [(0, 0x80#8)] }) (.lds { d := 4#8, a := 8#8, ty := .i8 }) 4 = some 0xFFFFFF80 := by
  decide
theorem test_atoms_add : (after (alone { regs [(12, 2#32)] with scratch := [(0, 5#8)] }) (.atoms { d := 4#8, a := 8#8, b := 12#8, ty := .i32 })).map
    (fun b => ((b.th 0).v.getD 4 0#32, b.scratch.get 0)) = some (5#32, 7#8) := by decide

/-- R162, R384: a load of a page in no TLB waits for its walk. -/
theorem test_ld_walk : (after (alone (regs [(8, 0x20000#32)])) (.ld { d := 4#8, a := 8#8, ty := .b32 })).map (fun b =>
    ((b.th 0).stall.isSome, (b.th 0).pc.toNat)) = some (true, 0x10000) := by decide

/-- A page of the package, mapped readable and writable in the core's TLB: VA 0x20000 at PA 0x40000. -/
def mapped (b : Block) (mem : Memory) : State :=
  let s := alone b
  { s with mem, eng := { s.eng with tlb := [{ unit := 0, env := 0, va := 0x20000, log := 16, leaf := 0x4000F#64 }] } }

theorem test_ld_st : v (mapped (regs [(8, 0x20000#32)]) [(0x40000, 9#8)]) (.ld { d := 4#8, a := 8#8, ty := .b32 }) 4 = some 9 ∧
    (match exec (.st { a := 8#8, b := 12#8, ty := .b16 }) (mapped (regs [(8, 0x20000#32), (12, 0xABCD#32)]) []) with
      | .next t => (t.mem.get 0x40000, t.mem.get 0x40001, t.mem.get 0x40002)
      | _ => (0#8, 0#8, 1#8)) = (0xCD#8, 0xAB#8, 0#8) := by decide
theorem test_ld_misaligned : trapOf (mapped (regs [(8, 0x20002#32)]) []) (.ld { d := 4#8, a := 8#8, ty := .b32 }) =
    some (causeCode .misaligned, true) := by decide

/-- R186: FPUT fills an empty future; R185, R345: a full one is taken. -/
theorem test_fput : (match exec (.fput { a := 8#8, b := 12#8, ty := .b64 }) (mapped (regs [(8, 0x20000#32), (12, 7#32)]) []) with
    | .next t => (t.mem.get 0x40000, t.mem.get 0x40008)
    | _ => (0#8, 0#8)) = (7#8, 1#8) := by decide

/-- R193: ACLR of row 1. -/
theorem test_aclr : (after (alone { regs [] with rows := [(255, 1#8), (256, 2#8), (511, 3#8), (512, 4#8)] })
    (.aclr { d := 0#8, imm := 1#32, bsel := 2#2, mod := 2#6 })).map (·.rows) = some [(255, 1#8), (512, 4#8)] := by decide

/-- R432: a measurement above the limit steps the clock down. -/
theorem test_power : let c := ({} : Clock).measure 4000 false; c.mhz = 2675 ∧ (c.measure 0 true).mhz = 2650 := by decide

/-- R391, R392: a doorbell write of a record that is not aligned is dropped and counted. -/
theorem test_doorbell_dropped :
    let s := { State.reset with host := { State.reset.host with fns := [(1, 2)], queues := [(0, 0, 2, 0x1000)] } }
    (match exec (.doorbell 1 0 0 1#64) s with
      | .next t => t.dropsOf 0 0
      | _ => 0) = 1 := by decide


/-! ## States that meet the hypotheses of the obligations, one after another -/

set_option Elab.async false

/-- The hypotheses of `Does` hold of some issue that stands next. -/
def Meets (s : State) (op : Nat) (w : CWord) (ok : Ctx → State → Prop) : Prop :=
  ∃ iss b, s.cur = some iss ∧ (s.arrive iss op).Runs iss op w b ∧ (ctxOf iss op w b).act ≠ [] ∧
    ok (ctxOf iss op w b) ((s.arrive iss op).ready (ctxOf iss op w b))

/-- As a test. -/
def meets (s : State) (op : Nat) (w : CWord) (ok : Ctx → State → Bool) : Bool :=
  match s.cur with
  | none => false
  | some iss => match (s.arrive iss op).block? iss.blk with
    | none => false
    | some b =>
      let c := ctxOf iss op w b
      (decide (iss.ths.map (·.2)).Nodup && iss.ths.all fun x => decide (x.2 = b.cfg.bsize ∨ x.2 < b.threads.length)) &&
      (decide (clauseEnding op w = true → ∀ x ∈ iss.ths, (b.th x.2).inClause ≤ 1) && (iss.handler && handlerForbids op w) == false) &&
      (staticOk b.cfg iss.handler op w && c.on.all fun x => (s.arrive iss op).badReg iss.blk x.2 op w == false) &&
      (c.flagFull == false && !c.act.isEmpty && ok c ((s.arrive iss op).ready c))

theorem meets_of (s : State) (op : Nat) (w : CWord) (ok : Ctx → State → Bool) (h : meets s op w ok = true) :
    Meets s op w fun c s => ok c s = true := by
  unfold meets at h
  split at h
  · simp at h
  · rename_i iss hc
    split at h
    · simp at h
    · rename_i b hb
      simp only [Bool.and_eq_true, decide_eq_true_eq, beq_iff_eq, List.all_eq_true, Bool.not_eq_true', List.isEmpty_eq_false_iff] at h
      obtain ⟨⟨⟨⟨h1, h2⟩, h3, h4⟩, h5, h6⟩, ⟨h7, h8⟩, h9⟩ := h
      exact ⟨iss, b, hc, ⟨hb, h1, h2, h3, h4, h5, h6, h7⟩, h8, h9⟩

def always (_ : Ctx) (_ : State) : Bool := true

/-- Every instruction meets them in the placed block, and its writes fit %ackc. -/
def meetsEach (s : State) (xs : List (Nat × Instr)) : Bool := xs.all fun p => match p.2.opWord with
  | some (op, w) => meets s op w always && (after s p.2).any fun b => decide (b.ackc ≤ 65535)
  | none => false

theorem test_meets_control : meetsEach (alone (regs [])) control1Words = true ∧ meetsEach (alone (regs [])) control2Words = true := by decide
theorem test_meets_integer : meetsEach (alone (regs [])) (integer1Words ++ integer2Words ++ integer3Words) = true := by decide
theorem test_meets_float : meetsEach (alone (regs [])) (float1Words ++ float2Words) = true := by decide
theorem test_meets_cross_thread : meetsEach (alone (regs [])) (crossThread1Words ++ crossThread2Words ++ xmovWriteWords) = true := by decide
theorem test_meets_memory : meetsEach (alone (regs [])) (memory1Words ++ memory2Words) = true := by decide
theorem test_meets_objects : meetsEach (alone (regs [])) objects1Words = true := by decide
theorem test_meets_matrix : meetsEach (alone (regs [])) matrix1Words = true := by decide +kernel

/-- An arithmetic instruction with a uniform destination meets them and gives a value. -/
def meetsUniform (i : Instr) : Bool := match i.opWord with
  | none => false
  | some (op, w) =>
    let u := { w with uni := true }
    match (sig op u).d, Instr.ofOp op u with
    | .s _, some j => meets (alone (regs [])) op u always && (after (alone (regs [])) j).any fun b => (b.uregs.getD w.d.toNat {}).pc.isSome
    | _, _ => false

/-- All but those with a predicate, a packed pair or a vector destination alone. -/
theorem test_meets_uniform : (integer1Words ++ integer2Words ++ integer3Words ++ float1Words).all (fun p => meetsUniform p.2 ||
    [0x08C, 0x0A0, 0x0A3, 0x106, 0x108, 0x10F].contains ((p.2.opWord.map (·.1)).getD 0)) = true := by decide

/-- R126: a uniform division by zero. -/
theorem test_meets_division : ∀ op ∈ [0x085, 0x086], Meets (alone (regs [] [(2, 7#64)])) op { uni := true, d := 1#8, a := 2#8, b := 3#8, ty := .i32 }
    fun c _ => (decide (valOf .i32 ({ b := c.b, th := c.b.handler : Opnd }.bb { uni := true, d := 1#8, a := 2#8, b := 3#8, ty := .i32 } .i32) = 0) &&
      decide ((sig op { uni := true, d := 1#8, a := 2#8, b := 3#8, ty := .i32 }).d = .s 1)) = true := by
  intro op h
  refine meets_of _ _ _ _ ?_
  revert op
  decide

/-! Functions that the bit-wise clauses assume exist: for each operand there is such a result. -/

theorem test_meets_mask (W : Nat) (p : Nat → Bool) : ∃ v < 2 ^ W, ∀ i, v.testBit i = (decide (i < W) && p i) := by
  induction W with
  | zero => exact ⟨0, by simp, by simp⟩
  | succ n ih =>
    obtain ⟨v, hv, h⟩ := ih
    by_cases hp : p n = true
    · refine ⟨v ||| 2 ^ n, Nat.or_lt_two_pow (by omega) (Nat.pow_lt_pow_right (by omega) (by omega)), fun i => ?_⟩
      rw [Nat.testBit_or, h, Nat.testBit_two_pow]
      by_cases hi : i < n
      · simp [hi, Nat.lt_succ_of_lt hi, Nat.ne_of_gt hi]
      · by_cases he : n = i
        · subst he; simp [hp]
        · simp [hi, he]; omega
    · refine ⟨v, by omega, fun i => ?_⟩
      rw [h]
      by_cases hi : i < n
      · simp [hi, Nat.lt_succ_of_lt hi]
      · by_cases he : i = n
        · subst he; simp [hp]
        · have : ¬ i < n + 1 := by omega
          simp [hi, this]

theorem test_meets_leading (W a : Nat) (h : a < 2 ^ W) : ∃ n ≤ W, a < 2 ^ (W - n) ∧ (n < W → 2 ^ (W - 1 - n) ≤ a) := by
  by_cases h0 : a = 0
  · exact ⟨W, Nat.le_refl _, by simp [h0], by omega⟩
  · have hl : Nat.log2 a < W := (Nat.log2_lt h0).2 h
    refine ⟨W - 1 - Nat.log2 a, by omega, ?_, fun _ => ?_⟩
    · rw [show W - (W - 1 - Nat.log2 a) = Nat.log2 a + 1 by omega]; exact Nat.lt_log2_self
    · rw [show W - 1 - (W - 1 - Nat.log2 a) = Nat.log2 a by omega]; exact Nat.log2_self_le h0

theorem test_meets_trailing (W a : Nat) (h : a < 2 ^ W) :
    ∃ n ≤ W, 2 ^ n ∣ a + (if a = 0 then 2 ^ W else 0) ∧ (n < W → a.testBit n = true) := by
  by_cases h0 : a = 0
  · exact ⟨W, Nat.le_refl _, by simp [h0], by omega⟩
  · obtain ⟨k, m, ho, rfl⟩ := Nat.exists_eq_two_pow_mul_odd h0
    have hm : 0 < m := ho.pos
    have hk : k < W := (Nat.pow_lt_pow_iff_right (by omega : 1 < 2)).1 (Nat.lt_of_le_of_lt (Nat.le_mul_of_pos_right _ hm) h)
    refine ⟨k, hk.le, by simp [h0], fun _ => ?_⟩
    rw [Nat.testBit_two_pow_mul]
    simp [Nat.odd_iff.1 ho]

/-- The hypotheses of an instruction's clause, its condition `ok` among them. -/
def need (s : State) (i : Instr) (ok : Ctx → State → Bool) : Bool := match i.opWord with
  | some (op, w) => meets s op w ok
  | none => false

/-- The issue of the handler thread of a block of one thread. -/
def handled (b : Block) : State := { alone b with cur := some { blk := 1, handler := true, ths := [(0, 1)], len := 4 } }

def threadOf (f : Thread → Thread) : Block := (regs []).modTh 0 f

theorem test_meets_xmov_write :
    need (alone (regs [(12, 15#32)])) (.xmovWrite { d := 1#8, b := 12#8, ty := .b64, mod := 1#6, imm := 10#32 })
      (fun c _ => c.on.map (·.2) == [0] && decide ((c.b.th 0).reg 12 2 < 16)) = true ∧
    need (alone (regs [(12, 16#32)])) (.xmovWrite { d := 1#8, b := 12#8, ty := .b64, mod := 1#6, imm := 10#32 })
      (fun c _ => c.on.map (·.2) == [0] && decide (16 ≤ (c.b.th 0).reg 12 2)) = true ∧
    need (alone (regs [])) (.xmovWrite { d := 1#8, b := 12#8, ty := .b64, mod := 1#6, imm := 9#32 }) (fun c _ => c.on.map (·.2) == [0]) = true := by
  decide

/-- Guard p0, false; a register beyond the allocation of 248. -/
theorem test_meets_without_effect :
    (let s := alone (regs [])
     match s.cur, (s.arrive { blk := 1, plait := 1, ths := [(0, 0)], len := 4 } 0x080).block? 1 with
     | some iss, some b => (ctxOf iss 0x080 { g := 0#4, d := 4#8 } b).act == [] && b.inline == none
     | _, _ => false) = true ∧
    meets (alone (regs [])) 0x080 { d := 4#8, ty := .i32 } always = true ∧
    (let b := { regs [] with cfg := { placedRec with vregs := 248 } }
     staticOk b.cfg false 0x0A0 { d := 248#8, ty := .b32 } == false && staticOk b.cfg false 0x0A0 { d := 247#8, ty := .b32 } &&
       decide (∀ x ∈ [(0, 0)], (b.th x.2).inClause ≤ 1)) = true := by
  decide

theorem test_meets_clause :
    let i : Instr := .clause { d := 4#8, imm := 0x00100000#32 }
    let held (c : Ctx) (s : State) : Bool := (s.block? c.iss.blk).any fun b => c.on.any fun x => (b.th x.2).pend 0 != 0
    need (alone (threadOf fun th => { th with flags := [1] })) i held = true ∧
    need (alone (threadOf fun th => { th with flags := [0] })) i (fun c s => !held c s) = true := by
  decide

theorem test_meets_land :
    need (alone { regs [] with due := some {} }) (.land { imm := 64#32 }) (fun c _ => c.b.due != none) = true ∧
    need (alone (regs [])) (.land { imm := 64#32 }) (fun c _ => c.b.due == none) = true := by
  decide

theorem test_meets_width :
    let i (n : Nat) : Instr := .width { imm := BitVec.ofNat 32 n, bsel := 2#2 }
    (∀ n ∈ [0, 4, 128], need (alone (regs [])) (i n) always = true) ∧ (∀ n ∈ [1, 129], need (alone (regs [])) (i n) always = true) := by
  decide

theorem test_meets_bkpt :
    let attached (c : Ctx) (s : State) : Bool := (s.env c.b.cfg.envelope).debug && !c.iss.handler
    let s := alone (regs [])
    need { s with envs := [{ id := 0, debug := true }] } (.bkpt {}) attached = true ∧
    need s (.bkpt {}) (fun c s => !attached c s) = true ∧
    need { handled (regs []) with envs := [{ id := 0, debug := true }] } (.bkpt {}) (fun c s => !attached c s) = true := by
  decide

theorem test_meets_payout :
    let i (n : Nat) : Instr := .payout { imm := BitVec.ofNat 32 n, bsel := 2#2 }
    let b : Block := { regs [] with trap := { level := 1 } }
    let s : State := { handled b with envs := [{ id := 0, ipool := 5 }] }
    let super : Block := { regs [] with cfg := { placedRec with flags := 128 } }
    let may (c : Ctx) : Bool := c.privileged || c.b.cfg.super
    need s (i 5) (fun c s => may c && decide (5 ≤ (s.env c.b.cfg.envelope).pool false)) = true ∧
    need { alone super with envs := [{ id := 0, ipool := 5 }] } (i 5) (fun c s => may c && decide (5 ≤ (s.env c.b.cfg.envelope).pool false)) = true ∧
    need s (i 6) (fun c s => may c && decide ((s.env c.b.cfg.envelope).pool false < 6)) = true ∧
    need (alone (regs [])) (i 5) (fun c _ => !may c) = true ∧
    s.block? 1 = some b ∧ 5 ≤ (s.env 0).pool false := by
  decide +kernel

/-- A block whose vector stands at the lead byte of its code. -/
def handlerBlock (t : TrapState) : Block := { regs [] with trap := { t with tvec := 0x10000#64 } }

def canStart (s : State) (b : Block) : Bool :=
  b.trap.tvec != 0#64 && b.trap.tsave.toNat % 512 == 0 && b.inCode b.trap.tvec && s.leadByte b b.trap.tvec

theorem test_meets_trap_entry :
    (let b := handlerBlock {}
     let s := alone b
     s.block? 1 == some b && canStart s b && !b.trap.stopped && b.trap.held == [] && decide (0 < b.threads.length ∧ 0 ≠ b.cfg.bsize)) = true ∧
    (∀ n ∈ [0, 1], (let b := handlerBlock { level := n }
      (alone b).block? 1 == some b && canStart (alone b) b) = true) ∧
    ((alone (handlerBlock {})).coIssued 1 = false ∧
      ({ alone (handlerBlock {}) with mate := some { blk := 1, plait := 2, ths := [(0, 0)] } } : State).coIssued 1 = true) ∧
    (alone (handlerBlock { level := 2 })).block? 1 = some (handlerBlock { level := 2 }) := by
  decide +kernel

theorem test_meets_context_kill : ∃ t, (alone (regs [])).task? (regs []).task = some t ∧ t.ending = none :=
  ⟨{ id := 1, cfg := placedRec, registered := true, ready := true, next := 1 }, by decide⟩

theorem test_meets_tret :
    need (handled (handlerBlock { level := 2, stopped := true })) (.tret {}) (fun c _ => c.privileged && c.b.trap.level == 2) = true ∧
    need (handled (handlerBlock { level := 1, stopped := true })) (.tret {}) (fun c _ => c.privileged && c.b.trap.level != 2) = true ∧
    need (alone (regs [])) (.tret {}) (fun c _ => !c.privileged) = true ∧
    (let b := threadOf fun th => { th with st := .trapped }
     let b := { b with trap := { level := 1, stopped := true, stopSet := [0] } }
     (alone b).block? 1 == some b && b.trap.held == [] && decide (b.trap.stopSet.Nodup) &&
       b.trap.stopSet.all fun t => decide (t < b.threads.length ∧ t ≠ b.cfg.bsize) && (b.th t).st == .trapped) = true := by
  decide +kernel

theorem test_meets_thread_access :
    let sel (kind num : Nat) : BitVec 32 := BitVec.ofNat 32 (2 ^ 24 * kind + num)
    let rd (n : Nat) : Instr := .tread { d := 4#8, a := 8#8, ty := .b32, imm := sel 0 n }
    let wr (kind n : Nat) : Instr := .twrite { a := 8#8, b := 12#8, ty := .b32, imm := sel kind n }
    let b : Block := { regs [] with cfg := { placedRec with vregs := 248 }, trap := { level := 1 } }
    let legal (n : Nat) (c : Ctx) : Bool := c.on == [(0, 1)] && decide (((c.b.th 1).v.getD 8 0#32).toNat < c.b.cfg.bsize ∧ n + 1 ≤ c.b.cfg.vAlloc)
    let dead : Block := b.modTh 0 fun th => { th with st := .exited }
    need (handled b) (rd 247) (fun c _ => c.privileged && legal 247 c) = true ∧
    need (handled b) (rd 248) (fun c _ => c.privileged && !legal 248 c) = true ∧
    need (handled b) (wr 0 247) (fun c _ => c.privileged && legal 247 c && (c.b.th 0).st != .exited && writeFault c.b (c.b.th 0) 0 0 == none) = true ∧
    need (handled dead) (wr 0 247) (fun c _ => c.privileged && legal 247 c && (c.b.th 0).st == .exited) = true ∧
    need (handled b) (wr 0 248) (fun c _ => c.privileged && !legal 248 c) = true ∧
    need (alone b) (rd 0) (fun c _ => !c.privileged) = true ∧ need (alone b) (wr 0 0) (fun c _ => !c.privileged) = true := by
  decide

theorem test_meets_watchdog :
    let i (n : Nat) : Instr := .wdog { imm := BitVec.ofNat 32 n, bsel := 2#2 }
    need (alone (regs [])) (i (2 ^ 28 - 1)) always = true ∧ need (alone (regs [])) (i (2 ^ 28)) always = true := by
  decide

theorem test_meets_icinv :
    let i : Instr := .icinv { a := 8#8, b := 12#8, mod := 2#6 }
    let b : Block := { regs [] with acks := [{ tid := 0, va := 0#64, pa := 0, time := 0 }] }
    let drains (c : Ctx) (s : State) : Bool := s.mustDrain c true 3
    need (alone b) i drains = true ∧ need (alone (regs [])) i (fun c s => !drains c s) = true := by
  decide

theorem test_meets_twrite_faults :
    let b : Block := { regs [] with trap := { level := 1 } }
    let i (kind : Nat) : Instr := .twrite { a := 8#8, b := 12#8, ty := .b32, imm := BitVec.ofNat 32 (2 ^ 24 * kind) }
    let th (c : Ctx) : Thread := c.b.th 0
    let at' (x : Nat) (b : Block) : Block := b.modTh 1 fun h => { h with v := (List.replicate 32 0#32).set 12 (BitVec.ofNat 32 x) }
    (∀ p ∈ [(2, 0x40), (3, 1), (5, 4096)], need (handled (at' p.2 b)) (i p.1) (fun c _ => c.on == [(0, 1)] && c.privileged &&
      (th c).st != .exited && (writeFault c.b (th c) p.1 ((c.b.th 1).reg 12 1)).isSome) = true) ∧
    (∀ p ∈ [(2, 0x3F), (3, 4), (5, 4095)], need (handled (at' p.2 b)) (i p.1) (fun c _ => c.privileged &&
      (writeFault c.b (th c) p.1 ((c.b.th 1).reg 12 1)).isNone) = true) := by
  decide

theorem test_meets_srd :
    let i (n : Nat) : Instr := .srd { d := 4#8, a := BitVec.ofNat 8 n, ty := .b32 }
    let who (n : Nat) (c : Ctx) : Bool := (Sys2Proof.special n).any fun r => r.read == .all || (r.read == .handler && c.privileged)
    let s := alone (regs [])
    let k : Copy := { id := 1, blk := 1, task := 1, env := 0, tid := 0, pc := 0#64, queue := 0, kind := 0, src := 0#64, dst := 0#64, len := 64, promise := some 0 }
    let due : State := { s with eng := { s.eng with copies := [k] } }
    need s (i 0x18) (fun c _ => who 0x18 c) = true ∧
    need (handled { regs [] with trap := { level := 1 } }) (i 0x41) (fun c _ => who 0x41 c) = true ∧
    need s (i 0x41) (fun c _ => (Sys2Proof.special 0x41).any (·.read == .handler) && !c.privileged) = true ∧
    need s (i 0x31) (fun c s => who 0x31 c && !s.uncheckedPromise c.iss.blk) = true ∧
    need due (i 0x31) (fun c s => who 0x31 c && s.uncheckedPromise c.iss.blk) = true := by
  decide

theorem test_meets_swr :
    let i (n x : Nat) : Instr := .swr { d := BitVec.ofNat 8 n, imm := BitVec.ofNat 32 x, bsel := 2#2, ty := .b32 }
    let may (n : Nat) (c : Ctx) : Bool := (Sys2Proof.special n).any fun r => r.write == .all || (r.write == .handler && c.privileged)
    let h : State := handled { regs [] with trap := { level := 1 } }
    let rich : State := { h with envs := [{ id := 0, ipool := 3 }] }
    let reel (_ : Nat) : Instr := .swr { d := 0x20#8, b := 8#8, ty := .b64 }
    need (alone (regs [])) (i 0x04 0) (fun c _ => may 0x04 c) = true ∧ need h (i 0x05 4095) (fun c _ => may 0x05 c) = true ∧
    (∀ p ∈ [(0x25, 8), (0x26, 1), (0x29, 30), (0x2A, 2 ^ 28 - 1)],
      need (alone (regs [])) (i p.1 p.2) (fun c _ => may p.1 c && fieldRule p.1 p.2 && c.on.map (·.2) == [0]) = true) ∧
    (∀ p ∈ [(0x25, 9), (0x26, 2), (0x29, 31), (0x2A, 2 ^ 28)],
      need (alone (regs [])) (i p.1 p.2) (fun c _ => may p.1 c && !fieldRule p.1 p.2 && c.on.map (·.2) == [0]) = true) ∧
    need rich (reel 0) (fun c s => may 0x20 c && (s.setReel c.iss.blk false (2 ^ 40 + 3)).isSome) = true ∧
    need rich (reel 0) (fun c s => may 0x20 c && (s.setReel c.iss.blk false (2 ^ 40 + 4)).isNone) = true ∧
    need (alone (regs [])) (i 0x49 0) (fun c _ => (Sys2Proof.special 0x49).any (·.write == .handler) && !c.privileged) = true := by
  decide

/-- An 8-byte unit of a scratchpad holds an error. -/
theorem test_meets_scratch_error :
    let s : State := { alone (regs []) with health := { (alone (regs [])).health with bad := [.scratch 1 2] } }
    ErrUnit.scratch 1 2 ∈ s.health.bad ∧ (23 < 8 * 2 + 8 ∧ 8 * 2 < 23 + 1) ∧ ¬ (24 < 8 * 2 + 8) := by
  decide

/-- The checks of an access, each at its boundary: VA 0x20000 is mapped, 0x30000 is not. -/
theorem test_meets_access :
    let s := mapped (regs []) []
    let b := regs []
    let ro : State := { s with eng := { s.eng with tlb := [{ unit := 0, env := 0, va := 0x20000, log := 16, leaf := 0x40007#64 }] } }
    let moved : State := { s with eng := { s.eng with migrs := [{ env := 0, va := 0x20000, old := 0x40000, target := 0x50000, copied := true }] } }
    let tiled : Task := { id := 1, cfg := placedRec, locs := [(0x20000, 0x40000)] }
    (s.task? b.task).bind (·.locate 0x2FFFC#64 false false) = none ∧ (b.th 0).fault = none ∧
    (0x200000000000000#64).toNat = 2 ^ 57 ∧ (0x20002#64).toNat % 4 ≠ 0 ∧
    (s.translate b.place.core b.cfg.envelope 0x2FFFC#64 .read matches .ok 0x4FFFC) = true ∧
    (ro.translate b.place.core b.cfg.envelope 0x20000#64 .write matches .bad _) = true ∧
    (s.translate b.place.core b.cfg.envelope 0x30000#64 .read matches .miss) = true ∧
    (moved.translate b.place.core b.cfg.envelope 0x20000#64 .read matches .moved) = true ∧ ((b.th 0).faultAt 2).isNone = true ∧
    (({ b.th 0 with fault := some (2, { cause := .accessRevoked }) } : Thread).faultAt 2).isSome = true ∧
    tiled.locate 0x20004#64 false false = some (.inl 0x40004) := by
  decide

/-- A capability table of one entry, and the first and the last access of 4 bytes that meets it. -/
theorem test_meets_capability_table :
    let s := (mapped (regs []) []).modEnv 0 fun e => { e with captab := 0x20008, capn := 1 }
    let meets (va : Nat) : Bool := decide (va < 0x20008 + 8 * 1 ∧ 0x20008 < va + 4)
    ((s.env 0).captab, (s.env 0).capn) = (0x20008, 1) ∧ (regs []).cfg.super = false ∧
    [0x20004, 0x20008, 0x2000C, 0x20010].map meets = [false, true, true, false] ∧
    [0x20004, 0x20008, 0x2000C, 0x20010].map (s.inCaps 0 · 4) = [false, true, true, false] := by
  decide

theorem test_meets_walk_entry :
    let s (e : Nat) : State := { State.reset with mem := Memory.put [] 0x100 8 e }
    let e (x : Nat) : BitVec 64 := BitVec.ofNat 64 ((s x).valPa 0x100 8)
    (∀ x ∈ [0, 0x20, 0x200007, 0x20001F], (s x).homeOf 0x100 ≠ none ∧ (s x).poisoned 0x100 8 = false) ∧
    (e 0).getLsbD 0 = false ∧ (e 0).getLsbD 5 = false ∧ (e 0x20).getLsbD 5 = true ∧
    ((e 0x200007).getLsbD 0 = true ∧ (e 0x200007).getLsbD 1 = true ∧ (e 0x200007).getLsbD 6 = false ∧ (e 0x200007).toNat < 2 ^ 56 ∧
      leafPa (e 0x200007) % 2 ^ levelShift 1 = 0 ∧ (s 0x200007).homeOf (leafPa (e 0x200007)) ≠ none) ∧
    (s 0).fabric.quarantine.contains (leafPa (e 0x20001F) / 2 ^ 46) = false := by
  decide

theorem test_meets_consume :
    let s := mapped (regs []) []
    let bad : State := { s with health := { s.health with bad := [.mem 0x2000] } }
    let far : State := { s with fabric := { s.fabric with members := [0, 5] } }
    (s.farOf 0x40000 = none ∧ ∀ u ∈ unitsOf 0x40000 4, ErrUnit.mem u ∉ s.health.bad ∧ ErrUnit.mem u ∉ s.health.soft) ∧
    (bad.farOf 0x40020 = none ∧ ∀ u ∈ unitsOf 0x40020 4, ErrUnit.mem u ∉ bad.health.bad ∧ ErrUnit.mem u ∉ bad.health.soft) ∧
    bad.poisoned 0x4001F 1 = true ∧ far.farOf (5 * 2 ^ 46) = some 5 ∧ s.farOf (2 ^ 45) = some 1024 ∧ far.health.bad = [] ∧ far.health.soft = [] := by
  decide

theorem test_meets_canonical : Memory.wf [] = true ∧ Memory.wf [(4, 1#8), (5, 2#8)] = true ∧
    (∀ c ∈ ([(8, 1#8), (15, 1#8)] : Memory), 8 ≤ c.1 ∧ c.1 < 8 + 8) ∧ Memory.wf [(8, 1#8), (15, 1#8)] = true ∧
    Memory.wf [(4, 0#8)] = false ∧ Memory.wf [(5, 1#8), (4, 1#8)] = false ∧ (mapped (regs []) [(0x40000, 9#8)]).mem.wf = true := by
  decide

/-- A block with an unacknowledged write drains before a release at .pkg; without one, or within the die, it goes on. -/
theorem test_meets_drains :
    let b : Block := { regs [] with acks := [{ tid := 0, va := 0#64, pa := 0, time := 0 }] }
    let far : Word := 0x60000000#32
    let w : List (Instr × Bool × Nat) := [(.fence { mod := 24#6 }, true, 3), (.st { a := 8#8, b := 12#8, ty := .b32, mod := 1#6, imm := far }, true, 3),
      (.atom { d := 4#8, a := 8#8, b := 12#8, ty := .i32, mod := 16#6, imm := far }, true, 3), (.bred { a := 8#8, b := 12#8, ty := .i32, mod := 16#6, imm := far }, true, 3),
      (.bupd { a := 8#8, b := 12#8, ty := .i32, mod := 16#6, imm := far }, true, 3), (.unpark { a := 8#8, mod := 6#6 }, true, 3),
      (.fput { a := 8#8, b := 12#8, ty := .b64, mod := 6#6 }, true, 3), (.bara { d := 4#8, a := 8#8, b := 12#8, mod := 3#6 }, true, 3)]
    (∀ x ∈ w, need (alone b) x.1 (fun c s => s.mustDrain c x.2.1 x.2.2) = true) ∧
    (∀ x ∈ w, need (alone (regs [])) x.1 (fun c s => !s.mustDrain c x.2.1 x.2.2) = true) ∧
    need (alone b) (.fence { mod := 16#6 }) (fun c s => !s.mustDrain c true 2) = true := by
  decide

/-- Two pages mapped to one, the page of address 0 among them. -/
def mappedLow : State :=
  let s := mapped (regs [(8, 0x20000#32)]) []
  { s with eng := { s.eng with tlb := s.eng.tlb ++ [{ unit := 0, env := 0, va := 0, log := 16, leaf := 0x4000F#64 }] } }

/-- The accesses that are granted and complete, park or trap: a word in a mapped page. -/
theorem test_meets_mapped : (memory1Words ++ memory2Words ++ objects1Words).all (fun p => match p.2.opWord with
    | some (op, w) => match Instr.ofOp op { w with imm := 0#32 } with
      | some i => need mappedLow i always && (after mappedLow i).any fun b =>
          decide (b.ackc ≤ 65535) && ((b.th 0).pc != 0x10000#64 || (b.th 0).st != .ready)
      | none => false
    | none => false) = true := by decide

theorem test_meets_wait_table :
    let q : Wait := .parked { kind := .park, va := 0#64, pa := 0 }
    let b (n : Nat) : Block := { regs [] with cfg := { placedRec with bsize := n }, threads := List.replicate n { wait := some q, st := .parked } }
    (alone (b 1023)).waitTableUse (b 1023).cluster < 1024 ∧ 1024 ≤ (alone (b 1024)).waitTableUse (b 1024).cluster := by
  decide +kernel

theorem test_meets_bank : (Ty.i32).isFloat = false ∧ Ty.i32 ≠ .f16x2 ∧ Ty.i32 ≠ .bf16x2 ∧ [(0, 0), (1, 1)].Nodup ∧
    [(1 : Nat), 2].Perm [2, 1] ∧ [Fp.nan, .inf true].Perm [.inf true, .nan] := by
  refine ⟨rfl, by decide, by decide, by decide, .swap .., .swap ..⟩

/-- The context of the issue that stands next, for a word. -/
def cOf (s : State) (op : Nat) (w : CWord) : Ctx := ctxOf { blk := 1, plait := 1, ths := [(0, 0)], len := 4 } op w ((s.block? 1).getD {})

/-- A mailbox's header, all zeros, holds one slot; TAIL 1 fills it. -/
theorem test_meets_mailbox :
    let w : CWord := { a := 8#8, b := 12#8 }
    let s (m : Memory) : State := mapped (regs [(8, 0x20000#32)]) m
    let c (m : Memory) : Ctx := cOf (s m) 0x286 w
    (c []).messageFault 0x20000#64 0 false = none ∧ (c []).messageFault 0x20000#64 0 true = none ∧
    let u (m : Memory) (recv : Bool) : State × (Fate ⊕ Nat) := (s m).reachMailbox (c m) 0 0x20000#64 .atomic 0 recv
    let one : Memory := [(0x40008, 1#8)]
    (∀ m ∈ [[], one], (u m false).2 = .inr 0x40000 ∧ (u m true).2 = .inr 0x40000) ∧
    (u [] false).1.mbCap 0x40000 = 1 ∧ (u [] false).1.mbUsed 0x40000 = 0 ∧ (u one false).1.mbUsed 0x40000 = 1 ∧ (c []).b.acks = [] ∧
    (u [] true).1.mbUsed 0x40000 = 0 ∧ (u one true).1.mbUsed 0x40000 = 1 ∧
    ((u [] false).1.reach (c []).b 0 0x20040#64 64 64 .write true).2 = .pa 0x40040 ∧ (s []).health.bad = []∧ (s []).health.soft = [] ∧
    ((u one true).1.reach (c []).b 0 0x20040#64 64 64 .read true).2 = .pa 0x40040 := by
  decide +kernel

/-- Reaching a mapped, clean place of the home die is granted, and changes only what the L1s hold (R270). -/
theorem test_meets_reach : let s := mapped (regs [(8, 0x20000#32)]) []
    let r := s.reach (regs []) 0 0x20040#64 64 64 .read true
    r.2 = .pa 0x40040 ∧ ({ r.1 with coh := s.coh } == s) = true ∧ (r.1.l1 0 (0x40040 / 128)).n ≠ 0 := by decide +kernel

theorem test_meets_tspawn :
    let w : CWord := { a := 8#8, b := 12#8 }
    let full (n : Nat) : Memory := Memory.put [(0x40048, 5#8), (0x40050, 7#8), (0x40111, 1#8)] 0x40108 8 n
    let s (n : Nat) (b : Block) : State := mapped b (full n)
    let b : Block := regs [(8, 0x20000#32), (12, 0x20100#32)]
    let last : Block := { b with regs := { b.regs with inlmax := 0#32 } }
    let c (n : Nat) (b : Block) : Ctx := cOf (s n b) 0x288 w
    let s0 (n : Nat) : State × Got := (s n b).locate (c n b).b 0 0x20000#64 128 128 .read true
    let u (n : Nat) : State × (Fate ⊕ Nat) := (s0 n).1.reachMailbox (c n b) 0 0x20100#64 .read 1 false
    let y (n : Nat) : State × Got := (u n).1.letIn (c n b).b 0 0x20000#64 0x40000 128 .read
    let slot : State × Got := (y 0).1.locate (c 0 b).b 0 0x20140#64 64 64 .read true
    let z : State × Got := slot.1.letIn (c 0 b).b 0 0x20140#64 0x40140 64 .write
    b.inline = none ∧ ((c 0 b).objAddr 0).toNat = 0x20000 ∧ (c 0 b).b.acks = [] ∧
    (∀ n ∈ [0, 1], (s0 n).2 = .pa 0x40000 ∧ (u n).2 = .inr 0x40100 ∧ (y n).2 = .pa 0x40000) ∧
    (y 0).1.mbUsed 0x40100 < (y 0).1.mbCap 0x40100 ∧ (y 1).1.mbCap 0x40100 ≤ (y 1).1.mbUsed 0x40100 ∧
    (slot.1 == (y 0).1) = true ∧ slot.2 = .pa 0x40140 ∧ z.2 = .pa 0x40140 ∧ (z.1.movePortions (c 0 b).b 5 7).isLeft = true ∧
    last.regs.inlmax.toNat ≤ last.regs.inldepth.toNat ∧
    ((after (s 0 b) (.tspawn w)).map fun b => b.inline) = some none := by
  decide +kernel

/-- A portion of all that a reel holds, and one more. -/
theorem test_meets_portions :
    let b := regs []
    let super : Block := { b with cfg := { placedRec with flags := 128 } }
    let s (b : Block) : State := { alone b with envs := [{ id := 0, ipool := 5 }] }
    b.cfg.super = false ∧ super.cfg.super = true ∧ ((s b).block? b.id).isSome = true ∧
    b.regs.ireel.toNat < 2 ^ 40 + 1 ∧ 2 ^ 40 ≤ b.regs.ireel.toNat ∧ 2 ^ 40 ≤ b.regs.treel.toNat ∧
    ((s super).env 0).ipool < 6 ∧ 5 ≤ ((s super).env 0).ipool ∧ 0 ≤ ((s super).env 0).tpool := by
  decide

theorem test_meets_barrier :
    let s (n : Nat) : State := mapped (regs []) (Memory.put [] 0x40004 1 n)
    let met (s : State) : Prop := s.valPa (0x40000 + 4) 4 ≤ s.valPa (0x40000 + 8) 4 ∧ s.valPa (0x40000 + 12) 4 = 0
    (s 0).mem.wf = true ∧ (s 1).mem.wf = true ∧ met (s 0) ∧ ¬ met (s 1) := by
  decide

/-- A future that is empty, and one that is full. -/
theorem test_meets_future :
    let w : CWord := { a := 8#8, b := 12#8, ty := .b64 }
    let s (n : Nat) : State := mapped (regs [(8, 0x20000#32)]) (Memory.put [] 0x40008 1 n)
    (∀ n ∈ [0, 1], ((s n).reachFuture (cOf (s n) 0x283 w) 0 0x20000#64 .atomic).2 = .inr 0x40000 ∧ (s n).futureState 0x40000 = n ∧ (s n).mem.wf = true) := by
  decide

/-- Copies of no bytes, of one, of one under a record; the scratchpad's last byte. -/
theorem test_meets_copies :
    let w : CWord := { d := 4#8, a := 8#8, b := 12#8 }
    let s (len rec' : Nat) : State := mapped (regs [(12, BitVec.ofNat 32 len), (14, BitVec.ofNat 32 rec')]) []
    let c (len rec' : Nat) : Ctx := cOf (s len rec') 0x280 w
    (∀ x ∈ [(0, 0), (1, 0), (64, 0x20000)], (c x.1 x.2).w = w ∧ ((c x.1 x.2).b.th 0).reg 13 1 = 0 ∧ (c x.1 x.2).b.acks = [] ∧
      ((c x.1 x.2).b.th 0).reg 12 1 = x.1 ∧ ((c x.1 x.2).b.th 0).reg 14 2 = x.2) ∧
    ((s 64 0x20000).reach (c 64 0x20000).b 0 0x20000#64 16 16 .atomic true).2 = .pa 0x40000 ∧
    (s 64 0x20000).valPa 0x4000C 4 + (64 + 63) / 64 < 2 ^ 32 ∧ 4095 < 2 ^ 32 ∧ 4095 + 1 ≤ (regs []).cfg.scratch := by
  decide

/-- A descriptor of two elements of b32 at 0x20040, and one that is none. -/
theorem test_meets_fetch :
    let w : CWord := { d := 4#8, a := 8#8, b := 12#8, ty := .b32 }
    let mem (edge : Nat) : Memory := ([(0x40000, 8, 0x20040), (0x40010, 4, 2), (0x40014, 4, 1), (0x40018, 4, 8), (0x4001C, 1, Ty.b32.code.toNat), (0x4001D, 1, edge)] : List (Nat × Nat × Nat)).foldl
      (fun (m : Memory) (x : Nat × Nat × Nat) => m.put x.1 x.2.1 x.2.2) []
    let s (edge : Nat) : State := mapped (regs [(12, 2#32)] [(8, 0x20000#64)]) (mem edge)
    let c (edge : Nat) : Ctx := cOf (s edge) 0x282 w
    let desc (edge : Nat) : Option Desc := ((s edge).unitRead (c edge).b 0 0x20000#64 64 64).2.elim (fun _ => none) Desc.ofBytes
    (∀ e ∈ [0, 1, 2], (desc e).map (fun d => (d.width, d.height, d.edge, d.bits, d.ty)) = some (2, 1, e, 32, some .b32)) ∧
    ((mapped (regs []) []).unitRead (regs []) 0 0x20000#64 64 64).2 = .inr (List.replicate 64 0#8) ∧ Desc.ofBytes (List.replicate 64 0#8) = none ∧
    (unscaled .b32).isNone = true ∧
    (((s 1).unitRead (c 1).b 0 0x20000#64 64 64).1.unitRead (c 1).b 0 (0x20044 : DWord) 4 1).2 = .inr [0#8, 0#8, 0#8, 0#8] := by
  decide +kernel

/-- The 64 rows of a tile in one page, at the pitch 64; a base that is not aligned. -/
theorem test_meets_tile_transfer :
    let i (n : Nat) (op : BitVec 8 → CWord → Instr) : Instr := op 0#8 { d := 4#8, a := 8#8, b := 12#8, imm := BitVec.ofNat 32 n }
    let s := mapped (regs [] [(8, 0x20000#64)]) []
    let row (k : Kind) (base : Nat) (c : Ctx) (a : State × Bool) (r : Nat) : State × Bool :=
      let x := a.1.reach c.b 0 (BitVec.ofNat 64 (base + 64 * r)) 64 64 k
      (x.1, a.2 && x.2 == .pa (base + 0x20000 + 64 * r))
    let rows (k : Kind) (n base : Nat) (c : Ctx) (s : State) : State × Bool := (List.range n).foldl (row k base c) (c.enter s, true)
    let reached (k : Kind) (n base : Nat) (c : Ctx) (s : State) : Bool :=
      !c.engineBusy && (c.b.enterEngine c).resumeRow c == (0, false) && (rows k n base c s).2
    -- a page without rights after the last row of the page: the transfer is cut at row 1
    let edge : State := { mapped (regs [] [(8, 0x2FFC0#64)]) [] with eng := { s.eng with tlb := s.eng.tlb ++
      [{ unit := 0, env := 0, va := 0x30000, log := 16, leaf := 0x50003#64 }] } }
    let cut (k : Kind) (n base : Nat) (c : Ctx) (s : State) : Bool := reached k n base c s &&
      (match ((rows k n base c s).1.reach c.b 0 (BitVec.ofNat 64 (base + 64 * n)) 64 64 k).2 with
        | .no (.trap _) => true
        | _ => false)
    need s (i 0 fun _ w => .tld w) (reached .read 64 0x20000) = true ∧ need s (i 0 fun _ w => .tst w) (reached .write 64 0x20000) = true ∧
    need edge (i 0 fun _ w => .tld w) (cut .read 1 0x2FFC0) = true ∧ need edge (i 0 fun _ w => .tst w) (cut .write 1 0x2FFC0) = true ∧
    need s (i 32 fun _ w => .tld w) (fun c _ => !c.engineBusy && decide ((c.b.ureg 8 + 32) % 64 ≠ 0)) = true ∧
    need s (i 32 fun _ w => .tst w) (fun c _ => !c.engineBusy && decide ((c.b.ureg 8 + 32) % 64 ≠ 0)) = true := by
  decide +kernel

/-- The engine is free; an instruction that finds it with an issue of thread 5 waits. -/
theorem test_meets_engine : matrix1Words.all (fun p => match p.2.opWord with
    | some (op, w) => meets (alone (regs [])) op w (fun c _ => !c.engineBusy) && meets (alone { regs [] with engine := [5] }) op w fun c _ => c.engineBusy
    | none => false) = true := by decide +kernel

theorem test_meets_aclr :
    let i (n : Nat) : Instr := .aclr { d := 0#8, imm := BitVec.ofNat 32 n, bsel := 2#2 }
    let fits (n : Nat) (c : Ctx) (_ : State) : Bool := decide (c.b.ureg 0 % 2 ^ 32 + n ≤ c.b.cfg.rowAlloc)
    (∀ n ∈ [0, 32], need (alone (regs [])) (i n) (fits n) = true) ∧ need (alone (regs [])) (i 33) (fun c s => !fits 33 c s) = true := by
  decide

/-- A block whose tile 3 holds one byte in its first 512 places, the metadata of a sparse f16 form. -/
def sided (side : Byte) : Block := { regs [(8, 0x20000#32)] with tiles := (List.range' 12288 512).map fun i => (i, side) }

def productWord (t : Ty) : CWord := { d := 4#8, a := 8#8, b := 2#8, ty := t }

def tileOf (sparse : Bool) (t : Ty) (side : Byte) : Option BTile :=
  ((mapped (sided side) []).readB (cOf (mapped (sided side) []) 0x300 (productWord t)) sparse).2.elim (fun _ => none) some

theorem get_ramp (n base a : Nat) (x : Byte) (h : base ≤ a) (h' : a < base + n) : Memory.get ((List.range' base n).map fun i => (i, x)) a = x := by
  induction n generalizing base with
  | zero => omega
  | succ n ih =>
    simp only [List.range'_succ, List.map_cons, Memory.get]
    by_cases e : base = a
    · simp [e]
    · rw [if_neg e, if_neg (by omega)]
      exact ih _ (by omega) (by omega)

/-- Metadata of four bits, and of none. -/
theorem test_meets_metadata : (∃ m, tileOf true .f16 0x0F#8 = some m ∧ m.badMeta .f16 = false) ∧
    (tileOf true .f16 0#8).map (·.badMeta .f16) = some true := by
  refine ⟨?_, by decide⟩
  have h : (tileOf true .f16 0x0F#8).map (·.side) = some ((List.range' 0 512).map fun i => (i, 0x0F#8)) := by decide +kernel
  obtain ⟨m, hm, hs⟩ := Option.map_eq_some_iff.1 h
  refine ⟨m, hm, ?_⟩
  simp only [BTile.badMeta, hs, List.any_eq_false, List.mem_range]
  intro n hn
  simp only [Bool.not_eq_true, List.any_eq_false, List.mem_range]
  intro j hj
  have hj : j < 8 := hj
  rw [get_ramp _ _ _ _ (by omega) (by simp only [show sideBytes true .f16 = 8 from rfl, show aScaleBytes true .f16 = 0 from rfl]; omega)]
  decide

/-- Products that complete: the accumulator row inside, the row of A in a mapped page. -/
theorem test_meets_product : let s := mapped (regs [(8, 0x20000#32)]) []
    ((tileOf false .f16 0#8).map fun m => (s.productOf (cOf s 0x300 (productWord .f16)) false m 0).2.completes) = some true := by
  decide +kernel

theorem test_meets_product_row : let s := mapped (regs [(8, 0x20000#32)]) []
    rowOf (regs []) 4 (productWord .f16) 0 = some 0 ∧ rowOf (regs []) 4 (productWord .f16) 31 = some 31 ∧ rowOf (regs []) 4 (productWord .f16) 32 = none ∧
    (s.readSpan (regs []) 0 0x20000#64 (aRowBytes false .f16) 16).2.isRight = true ∧ aScaleBytes false .f16 = 0 ∧
    aScaleBytes false .i8x8 ≠ 0 ∧ ((s.readSpan (regs []) 0 0x20000#64 (aRowBytes false .i8x8) 16).1.readSpan (regs []) 0 0x20001#64
      (aScaleBytes false .i8x8) 1).2.isRight = true := by
  decide +kernel

theorem test_meets_column : isIntTy .i8 = true ∧ isIntTy .n4 = true ∧ 2 ^ 32 - 1 < 2 ^ 32 := by decide

/-- An order of the participants as BSORT's clause asks for it exists. -/
theorem test_meets_bsort (c : Ctx) (xs : List (Nat × Nat)) :
    ∃ out : List (Nat × Nat), out.Perm xs ∧ out.Pairwise fun y z => c.keyLe y z = true ∧ (c.keyLe z y = true → y.1 ≤ z.1) := by
  classical
  let le (y z : Nat × Nat) : Prop := c.keyLe y z = true ∧ (c.keyLe z y = true → y.1 ≤ z.1)
  have tot : ∀ y z, c.keyLe y z = true ∨ c.keyLe z y = true := by
    intro y z; unfold Ctx.keyLe; simp only; split <;> simp <;> omega
  have tr : ∀ x y z, c.keyLe x y = true → c.keyLe y z = true → c.keyLe x z = true := by
    intro x y z; unfold Ctx.keyLe; simp only; split <;> simp <;> omega
  have : Std.Total le := ⟨fun y z => by
    rcases tot y z with h | h <;> by_cases h' : c.keyLe y z = true <;> by_cases h'' : c.keyLe z y = true <;> simp_all [le] <;> omega⟩
  have : IsTrans (Nat × Nat) le := ⟨fun x y z h1 h2 => ⟨tr _ _ _ h1.1 h2.1, fun h =>
    Nat.le_trans (h1.2 (tr _ _ _ h2.1 h)) (h2.2 (tr _ _ _ h h1.1))⟩⟩
  exact ⟨xs.insertionSort le, xs.perm_insertionSort le, List.pairwise_insertionSort le xs⟩

/-! Events: small packages that meet what each clause asks. -/

/-- Two tables that map the first 2 GiB of envelope 0 as they stand, readable, writable and executable. -/
def tables : Memory := (Memory.put [] 0x10000 8 0x20001).put 0x20000 8 0x1F

def walkable (b : Block) (mem : Memory) : State := { alone b with mem, envs := [{ id := 0, root := 0x10000 }], eng := {} }

/-- A target whose line is cached, and one whose page the servicer has yet to map. -/
theorem test_meets_transfer :
    need (alone (regs [])) (.bra { imm := 0#32 }) (fun c s => s.lineWalk c 0 c.pc == none) = true ∧
    need (walkable (regs []) (Memory.put [] 0x10000 8 0x20)) (.bra { imm := 0#32 })
      (fun c s => c.on == [(0, 0)] && s.lineWalk c 0 c.pc == some 0x10000#64) = true := by
  decide

theorem test_meets_core_events :
    let o : Outst := {}
    let b := threadOf fun th => { th with outst := [o] }
    let ready : Block := { regs [] with plaits := [] }
    let old (n : Nat) : Block := { ready with cycles := n }
    let p : Plait := { id := 1, ths := [(0, 0)], other := some 2, issues := 64 }
    (b.th 0).outst[0]? = some o ∧ 0 < b.threads.length ∧ 0 ≠ b.cfg.bsize ∧ o.regs = [] ∧ o.pred = none ∧
    (walkable (regs []) tables).lineCached 0 1 0x10000 = false ∧ ((walkable (regs []) tables).readLine (regs []) 0x10000).2.isSome = true ∧
    ((walkable (regs []) tables).blocks.find? fun x => x.place.core == 0 && x.task == 1 && x.place.resident && x.needsLine 0x10000).isSome = true ∧
    (alone (regs [])).cur.isSome = true ∧ (alone ready).mayForm ready 0x10000#64 none = true ∧
    (alone (old 4096)).mayForm (old 4096) 0x10000#64 none = true ∧ 4096 ≤ (old 4096).poolAge 0x10000#64 none ∧
    ({ regs [] with plaits := [p] } : Block).plaits.find? (·.id == 1) = some p ∧ ({ regs [] with plaits := [p] } : Block).outsideClause p = true ∧
    ((alone ready).refreshPools 1).hasEntry ready 0x10000#64 none = true ∧ ((alone ready).refreshPools 1).mayForm ready 0x10000#64 none = true ∧
    (((alone (old 4096)).refreshPools 1).isDue (old 4096) 0x10000#64 none = true ∧
      ((alone (old 4096)).refreshPools 1).mayForm (old 4096) 0x10000#64 none = true) ∧
    ((alone (regs [])).sectionPlaits 0 0 = ((regs []).plaits.map fun p => (1, p)) ∧ (regs []).plaits.length = 1 ∧
      (regs []).plaits.all fun p => !p.victim && (regs []).outsideClause p && ({ regs [] with plaits := [{ p with served := true }] } : Block).hadTurn
        { p with served := true } && p.other == none) ∧
    (let l : CodeLine := { core := 0, task := 1, line := 0x10000, bytes := [] }
     ({ alone (regs []) with eng := { (alone (regs [])).eng with fills := [l] } } : State).fillWith l |>.2.isSome) = true ∧
    ready.pool 0x10000#64 none = [0] ∧ ready.running = true ∧ 1 ≤ ready.place.grant ∧ ready.place.grant ≤ 64 ∧
    (alone ready).slotsUsed ready.place.core 0 < 16 := by
  decide

theorem test_meets_timers :
    let asleep := threadOf fun th => { th with wait := some (.sleep 0), st := .waiting }
    let dog : Block := { regs [] with regs := { wdog := 1#32 }, wdrun := 1024 }
    let t : Task := { id := 1, cfg := placedRec, ready := true }
    let aged : State := { alone (regs []) with sched := { tasks := [t] }, clock := { time := 10000000 } }
    (let h : Block := { regs [] with trap := { level := 1, stopped := true }, handler := { (regs []).handler with wait := some (.sleep 0) } }
     h.handler.wait = some (.sleep 0) ∧ h.trap.level ≠ 0 ∧ h.place.resident = true ∧ h.saved = none) ∧
    (asleep.th 0).wait = some (.sleep 0) ∧ asleep.up = true ∧ (alone asleep).promiseFirst 1 0 = false ∧
    dog.up = true ∧ dog.regs.wdog.toNat ≠ 0 ∧ dog.regs.wdog.toNat * 1024 ≤ dog.wdrun ∧
    aged.task? 1 = some t ∧ aged.waiting t = true ∧ t.readyAt + 10000000 * (t.aged + 1) ≤ aged.clock.time := by
  decide

theorem test_meets_parked (q : Parked) : let b := threadOf fun th => { th with wait := some (.parked q), st := .parked }
    (b.th 0).wait = some (.parked q) ∧ b.place.resident = true ∧ b.ended = false ∧ b.saved = none ∧ b.trap.stopped = false :=
  ⟨rfl, rfl, rfl, rfl, rfl⟩

theorem test_meets_corrections : let k : Corrections := { store := 0, die := 0, pending := 1, entry := some 0 }
    ([k].find? fun c => c.store == 0 && c.die == 0) = some k ∧ k.pending ≠ 0 ∧ k.entry = some 0 ∧ 0 + 1000000 ≤ 1000000 := by
  decide

/-- A copy of 64 bytes from 0x30000 to 0x40000 that has moved none, and one that has moved all. -/
theorem test_meets_copy_events :
    let k : Copy := { id := 1, blk := 1, task := 1, env := 0, tid := 0, pc := 0#64, queue := 0, kind := 0, src := 0x30010#64, dst := 0x40000#64
                      len := 64, beats := 1, promise := some 5 }
    let part : Copy := { k with src := 0x30FF0#64 }
    let s (k : Copy) : State := { walkable (regs []) tables with eng := { copies := [k] } }
    (s k).copy? 1 = some k ∧ (s k).copyRuns k = true ∧ k.record? = false ∧ k.abandoned = false ∧ k.done < k.len ∧
    ((s part).copyEnd (regs []) part true matches .pa 0x30FF0) = true ∧ ((s part).copyEnd (regs []) part false matches .pa 0x40000) = true ∧
    (s part).poisoned 0x30FF0 (part.segment (regs [])) = false ∧ part.segment (regs []) = 16 ∧
    (let f : Copy := { k with done := 64 }
     f.finished = true ∧ f.promise = some 5 ∧ (s f).clock.time ≤ 5) ∧
    (let late : State := { s k with clock := { time := 5 } }
     (late.block? 1).any (fun b => b.place.resident && b.saved.isNone && !b.ended) = true ∧ 5 ≤ late.clock.time) := by
  decide

theorem test_meets_walk_events :
    let w : Walk := { id := 1, die := 0, env := 0, page := 3, kind := .read }
    let s (m : Memory) : State := { walkable (regs []) m with eng := { walks := [w] } }
    let posted : Walk := { w with post := some 7 }
    let bound : State := { alone (regs []) with host := { fns := [(1, 2)], queues := [(0, 0, 2, 0)] } }
    let x : Shootdown := { env := 0, va := 0, len := 4096 }
    let stalled := threadOf fun th => { th with stall := some 0 }
    ((s tables).hasWalker w = true ∧
      ({ s tables with coh := { rounds := [{ line := 2 ^ 24, pending := [.cluster 9], since := 0 }] } } : State).pageBusy (2 ^ 31) (2 ^ 31) = true) ∧
    (let m : Migration := { env := 0, va := 0x20000, old := 0x40000, target := 0x50000 }
     ({ s tables with eng := { migrs := [m, { m with copied := true }] } } : State).eng.migrs[1]? = some { m with copied := true } ∧
       (s tables).pageBusy m.old m.len = false) ∧
    ((s tables).eng.walks.find? (·.id == 1)) = some w ∧ w.post = none ∧ (s tables).shooting 0 3 = false ∧
    ((s tables).walk 0 (pageVa 3) matches .leaf _ 31) = true ∧ ((s []).walk 0 (pageVa 3) matches .fault _) = true ∧
    ((s (Memory.put [] 0x10000 8 0x20)).walk 0 (pageVa 3) matches .replay 3) = true ∧
    ({ s tables with eng := { walks := [posted] } } : State).posted 0 7 = some posted ∧
    bound.reachesDie 1 0 = true ∧ (bound.host.fqs[0]?).isSome = true ∧ ([x][0]?) = some x ∧ (alone (regs [])).shootWaits x = false ∧
    ((s tables).pageBusy 0 (2 ^ 31) = false ∧ (s tables).moving 0 = false ∧ 2 ^ 31 % 2 ^ 31 = 0 ∧ (s tables).homeOf (2 ^ 31) ≠ none) ∧
    (stalled.th 0).stall = some 0 := by
  decide

theorem test_meets_coherence_events :
    let s := State.reset
    let r : TokenReq := { core := 767, line := 5, write := true, retries := 3 }
    let asked : State := { s with coh := { s.coh with reqs := [r] }, clock := { kcyc := 256000 } }
    let acked : Block := { regs [] with acks := [{ tid := 0, va := 0#64, pa := 128, time := 0 }] }
    (s.req? 0 5 = none ∧ s.lineDie 5 = some (dieOfCore 0) ∧ s.satisfied 0 5 false true = false) ∧
    (asked.req? 767 5 = some r ∧ r.persist = false ∧ r.since + 256 ≤ asked.cycleNow ∧ r.retries < 4) ∧
    (s.offDie (.cluster 31) 5 = true ∧ 5 / 4 ∉ s.coh.reclaim ∧ (∀ r, s.region? (5 / 4) = some r → r.ls.length = 4)) ∧
    ((alone acked).block? 1).any (fun b => b.acks.length == 1) = true ∧ (alone acked).coh.rounds = [] := by
  refine ⟨by decide, by decide, ⟨by decide, by decide, fun r h => ?_⟩, by decide, by decide⟩
  simp [State.region?, State.reset] at h

/-- What an access needs: nothing held, nothing recorded; a line that another core's active request waits for; an earlier
write of the thread. -/
theorem test_meets_gates :
    let s := mapped (regs []) []
    let b := regs []
    let line := 0x40000 / 128
    let busy : State := { s with coh := { s.coh with
      tokens := [{ die := 0, line, l1 := [{ core := 3, n := 1 }] }], reqs := [{ core := 3, line, write := true, persist := true, active := true }] } }
    let far := 5 * 2 ^ 39
    let late : Block := { b with acks := [{ tid := 0, va := 0#64, pa := 128 * far, time := 0 }] }
    (0x40000 % 128 + 4 ≤ 128 ∧ s.lineDie line = some b.die ∧ b.place.core < 768 ∧ s.holders b.die line = [] ∧
      s.req? b.place.core line = none ∧ s.lineLs line = 0) ∧
    ((s.homeWrite 0 line none).2 = true ∧ (busy.homeWrite 0 line none).2 = false) ∧
    (late.acks.any (fun a => a.tid == 0 && a.pa / 128 == far) = true ∧ s.lineDie far ≠ some late.die ∧
      (s.gateLine late 0 far .write).2 = false ∧ (s.gateLine b 0 far .write).2 = true) := by
  decide +kernel

/-- The directory has room while it has no entry. -/
theorem test_meets_region_room : State.reset.regionRoom 1 = true := by
  simp [State.regionRoom, State.slice, State.reset, Config.regionEntries]

theorem test_meets_fabric_events :
    let s : State := { alone { regs [] with acks := [{ tid := 0, va := 0#64, pa := 5 * 2 ^ 46, time := 0 }] } with clock := { time := 100000 } }
    let away (pkg : Nat) := threadOf fun th => { th with remote := some (pkg, 0, { cause := .accessRevoked }) }
    (State.reset.port 127).up = true ∧ (State.reset.port 127).fails < 15 ∧ ({ fails := 14 } : Port).fails < 15 ∧
    (s.blocks.find? fun b => b.acks.any fun a => s.ackTo 5 a && decide (a.time + s.fabric.ackto ≤ s.clock.time)).isSome = true ∧
    ((away 5).th 0).remote = some (5, 0, { cause := .accessRevoked }) ∧ (5 : Nat) ≠ 1024 ∧ 0 + s.fabric.ackto ≤ s.clock.time ∧
    ((away 1024).th 0).remote = some (1024, 0, { cause := .accessRevoked }) ∧
    State.reset.sparesUsed 0 0 < 2 ∧ 3 ∉ State.reset.health.lost ∧ ((alone (regs [])).sched.tasks.map (·.id)).Nodup := by
  decide

/-- Queue 63 of die 3, bound to envelope 0, whose mailbox of one slot lies at 0x30000. -/
def bound (tail : Nat) : State :=
  { walkable (regs []) ((tables.put 0x30008 8 tail).put 0x30011 1 1) with host := { fns := [(1, 0)], queues := [(3, 63, 0, 0x30000)] } }

theorem test_meets_host_events :
    let s := bound 0
    s.reachesQueue 1 3 63 = true ∧ 128 % 128 = 0 ∧ 129 % 128 ≠ 0 ∧ s.accepts = true ∧ s.queueHeader 3 63 = some (0, 0x30000, 0x30000) ∧
    s.queueSlot 3 0 0x30000 0x30000 (s.mbTail 0x30000) = some 0x30040 ∧ s.mbUsed 0x30000 < s.mbCap 0x30000 ∧
    (0x60000 ≤ 0x603F8 ∧ 0x603F8 < 0x60400 ∧ 0x603F8 % 8 = 0) ∧ fqAt 0x50318 = some (3, 0x18) ∧ s.reachesDie 1 3 = true ∧
    s.host.held = [] ∧ s.queueOnMove 3 63 = false ∧
    s.hostReach 1 0x40000 .read 8 = (s, .at 0x40000) ∧ s.poisoned 0x40000 8 = false ∧ s.hostReach 0 0x40000 .write 1 = (s, .at 0x40000) ∧
    s.hostReach 1 0x40000 .atomic 8 = (s, .at 0x40000) ∧ s.health.soft = [] ∧ s.reachesDie 0 3 = false := by
  decide +kernel

theorem test_meets_queue_take : let s := bound 1
    s.tableRoom 3 = true ∧ s.queueTurn 3 = some 63 := by
  decide +kernel

theorem test_meets_tasks :
    let t : Task := { id := 1, cfg := { placedRec with csave := 4096 } }
    let one (t : Task) : State := { alone (regs []) with blocks := [], sched := { tasks := [t] } }
    let tile : Task := { t with locs := [(0, 1)], writes := [(0, true)] }
    let reg : Task := { t with registered := true }
    let run : Task := { reg with ready := true }
    let done : Task := { run with next := 1, done := [0] }
    ((one t).task? 1 = some t ∧ (one t).registerTurn t = true ∧ t.buffers ≤ ((one t).env 0).rename ∧ (one t).canRegister t = true) ∧
    ((one tile).registerTurn tile = true ∧ ((one tile).env 0).rename < tile.buffers) ∧
    (reg.ready = false ∧ (one reg).isReady reg = true) ∧
    ((one run).chosen run 767 = true ∧ ((one run).placeNext run 767).isSome = true) ∧
    (one done).canComplete done = true ∧ (one run).canComplete run = false ∧
    (one tile).failurePage 0 0 (some tile.cfg) = none ∧ (one done).reportPage 0 0 done.cfg.future = none ∧
    ({ one done with mem := [(0, 0x20#8)] } : State).reportPage 0 0 0x30000 = some 0x30000#64 := by
  decide

theorem test_meets_write_back : let v : Version := { n := 1, writer := 1, loc := renameBase, committed := true }
    let e : TileEntry := { env := 0, tile := 4096, homePa := 4096, versions := [v] }
    let s : State := { State.reset with sched := { tiles := [e] } }
    s.tile? 0 4096 = some e ∧ e.due = some v ∧ v.loc ≠ 0 := by
  decide

/-- A pipeline of two stages, one inbox of four slots with three messages, one empty. -/
theorem test_meets_balance :
    let t (id inbox : Nat) : Task := { id, cfg := placedRec, ready := true, pipe := some (1, id, inbox) }
    let full : Task := { t 1 0x30000 with cfg := { placedRec with levels := [(1, 0), (4, 0)] }, next := 1 }
    let b (id task : Nat) : Block := { regs [] with id, task, place := { resident := true, seq := id } }
    let s : State := { walkable (regs []) (tables ++ [(0x30008, 3#8), (0x30010, 2#8), (0x30110, 2#8)]) with
      blocks := [b 1 1, b 2 2, b 3 2], sched := { tasks := [full, t 2 0x30100] } }
    s.sched.moves = [] ∧ ((maxBy (·.2) (s.stages 0 1)).map fun x => (x.1.id, x.2)) = some (1, 49152) ∧
    ((minBy (·.2) (s.stages 0 1)).map fun x => (x.1.id, x.2)) = some (2, 0) ∧ 2 ≤ (s.residentOf 2).length ∧ full.unplaced = true ∧
    (maxBy (·.place.seq) (s.residentOf 2)).map (·.id) = some 3 := by
  decide

theorem test_meets_management :
    let s := State.reset
    let run : State := alone (regs [])
    let b : Block := { regs [] with place := { core := 0, resident := true } }
    let q : State := { s with fabric := { s.fabric with quarantine := [5, 6] } }
    let h : State := { s with health := { s.health with candidates := [(3, 9)] } }
    (s.fw.running ≠ none ∧ run.fw.running ≠ none) ∧ ((1500 ≤ 1500 ∧ 3200 ≤ 3200) ∧ 1499 < 1500 ∧ 3200 < 3201) ∧
    (settingOk .landtime 10000 = true ∧ settingOk .weight 255 = true ∧ settingOk .hbmmax 100 = true ∧ settingOk .rename (2 ^ 20) = true) ∧
    ((s.blocks.any fun b => b.place.resident && !b.ended) = false ∧ (run.blocks.any fun b => b.place.resident && !b.ended) = true) ∧
    5 ∈ q.fabric.quarantine ∧ ((3, 9) ∈ h.health.candidates ∧ h.health.retired.length < 8192) ∧
    (10000 % 10000 = 0 ∧ 10000000 % 10000 = 0) ∧ 3 < s.coh.rlc.length ∧ 16 % 2 = 0 ∧ b.die ≠ 3 ∧ (∀ k ∈ [1, 2, 3, 4, 5], (s.measured k).isSome = true) := by
  decide

theorem test_meets_resets : State.reset.frozen = false ∧ State.reset.fw.running ≠ none ∧ State.reset.dark = false ∧ State.reset.mem.wf = true ∧ State.reset.clock.inRange ∧
    ({ mhz := 1000, limit := 3200 } : Clock).inRange ∧ (let c : Clock := { limit := 1500 }; c.limit < 1501 ∧ 100 * 1454 < 97 * c.limit ∧ 9 ≤ 9) := by
  unfold Clock.inRange; decide

theorem test_meets_power_hold : let c : Clock := { mhz := 1000 }
    (c.measure 4000 false).hold = true := by decide

/-- Sources and modes of the float statement: finite values, a zero, values to both sides of the largest one of f16. -/
theorem test_meets_rounding :
    (Fp.fin false 1 1 0).finite ∧ (Fp.fin true 0 1 0).finite ∧ ¬ (Fp.inf true).finite ∧ (Fp.fin true 0 1 0).isZero = true ∧
    modeOf (regs []) { ty := .f32 } ≠ .sr ∧ (65520 : Nat) ≠ 0 ∧ (1 : Nat) ≠ 0 ∧
    (65504 : ℚ) ≤ Fmt.f16.top ∧ Fmt.f16.top < (65504 + 32 : ℚ) ∧ Fmt.f16.hasInf = true ∧ Fmt.e4m3.hasInf = false := by
  refine ⟨?_, ?_, ?_, by decide, by decide, by decide, by decide, ?_, ?_, by decide, by decide⟩ <;>
    norm_num [Fmt.top, Fp.finite]

/-- Two threads of a block, of which `n` wait for the same. -/
def waiting (q : Wait) (n : Nat) (f : Thread → Thread := id) : Block :=
  { regs [] with
    cfg := { placedRec with bsize := 2 }
    threads := (List.range 2).map fun i => f (if i < n then { wait := some q, st := .waiting } else {}) }

theorem test_meets_releases :
    let all (b : Block) : List Nat := (List.range b.threads.length).filter fun t => (b.th t).st != .exited
    let armed := waiting (.pin 31 true) 2 fun th => { th with armed := 2 ^ 31 }
    let late := waiting (.pin 31 true) 1 fun th => { th with armed := 2 ^ 31 }
    let at' (b : Block) : List Nat := (List.range b.threads.length).filter fun t =>
      (b.th t).wait == some (.pin 31 true) || (b.th t).wait == some (.pin 31 false)
    let who (b : Block) : List Nat := (all b).filter fun t => (b.th t).armed.getLsbD 31
    let wide (q : Nat) := waiting (.width q) 2
    let sync (q : Option Nat) (n : Nat) := waiting (.bsync q) n
    (∀ b ∈ [armed, late, wide 4, wide 8, sync none 2, sync none 1, sync (some 1) 1], (alone b).block? 1 = some b ∧ b.threads.length ≤ b.cfg.bsize) ∧
    (at' armed ≠ [] ∧ (at' armed).length = (who armed).length) ∧ (at' late).length ≠ (who late).length ∧ at' (wide 4) = [] ∧
    (∀ q ∈ [4, 8], 1 ∈ all (wide q) ∧ ∀ t ∈ all (wide q), t ≤ 1 ∧ ((wide q).th t).wait = some (.width q)) ∧
    grantOf (wide 8).cfg (wide 8).place.dflt 8 = some (8, false) ∧ grantOf { (wide 4).cfg with flags := 16 } 8 4 = none ∧
    (∃ t ∈ all late, ∀ r, (late.th t).wait ≠ some (.width r)) ∧
    (let ws (b : Block) : List Nat := (all b).filter fun t => (b.th t).wait matches some (.bsync _)
     ws (sync none 2) = [0, 1] ∧ ws (sync none 1) = [0] ∧ (ws (sync none 1)).length < 2 ∧ min 1 2 ≤ (ws (sync (some 1) 1)).length) := by
  refine ⟨by decide +kernel, by decide, by decide, by decide, by decide, by decide, by decide,
    ⟨0, by decide, fun r => ?_⟩, by decide⟩
  rw [show ((waiting (.pin 31 true) 1 fun th => { th with armed := 2 ^ 31 }).th 0).wait = some (.pin 31 true) by decide]
  simp

/-- A PAYOUT beside another issue of its block in its cycle, and its payment after that. -/
theorem test_meets_payout_beside :
    let b : Block := { regs [] with cfg := { placedRec with flags := 128 } }
    let s : State := { alone b with envs := [{ id := 0, ipool := 5 }], mate := some { blk := 1, plait := 2, ths := [(0, 0)] } }
    need s (.payout { imm := 5#32, bsel := 2#2 }) (fun c s => c.b.cfg.super && decide (5 ≤ (s.env c.b.cfg.envelope).pool false) &&
      s.mate.any (·.blk == c.iss.blk)) = true ∧
    ({ s with pays := [(1, false, 5)] } : State).pays = [(1, false, 5)] ∧ s.block? 1 = some b := by
  decide +kernel

/-- The code of the smoke instruction, and the segment's end. -/
theorem test_meets_skip :
    let s := State.reset.withFetchWord 32 0x3D501011
    let b := (s.block? 1).getD {}
    b.inCode 0x10040#64 = false ∧ b.inCode 0x10000#64 = true ∧
    ((s.codeLine b 0x10000).bind fun bytes => entryAt bytes 0).any (fun e => e matches .insn _ 4) = true := by
  decide +kernel

/-- A thread write of each kind, at the last register. -/
theorem test_meets_thread_write : (alone (regs [])).block? 1 = some (regs []) ∧ 0 < (regs []).threads.length ∧ 0 < (regs []).cfg.bsize ∧
    255 + 1 ≤ ((regs []).th 0).v.length ∧ ¬ (5 = 3 ∧ 4 = 4) := by
  decide +kernel

/-- A special register that nobody reads, one that nobody writes, a number of none. -/
theorem test_meets_special_refused :
    let s := alone (regs [])
    let h : State := handled { regs [] with trap := { level := 1 } }
    let rd (n : Nat) (ok : Option Access → Bool) (s : State) : Bool := need s (.srd { d := 4#8, a := BitVec.ofNat 8 n, ty := .b32 })
      fun _ _ => ok ((Sys2Proof.special n).map (·.read))
    let wr (n : Nat) (s : State) : Bool := need s (.swr { d := BitVec.ofNat 8 n, b := 12#8, ty := .b32 })
      fun _ _ => (Sys2Proof.special n).all (·.write == .nobody)
    rd 0xFF (· == none) s = true ∧ rd 0xFF (· == none) h = true ∧ wr 0x18 s = true ∧ wr 0xFF s = true ∧ wr 0x18 h = true := by
  decide +kernel

/-- A reel set to all that it and the pool hold, to one more, and to nothing. -/
theorem test_meets_reel :
    let b := regs []
    let s : State := { alone b with envs := [{ id := 0, ipool := 3 }] }
    s.block? 1 = some b ∧ 2 ^ 40 + 3 < 2 ^ 64 ∧ (b.reel false).toNat + (s.env 0).pool false = 2 ^ 40 + 3 ∧ 0 < (b.reel false).toNat := by
  decide +kernel

/-- A store that covers one unit in error and half of the next, at home and far. -/
theorem test_meets_store :
    let s : State := { mapped (regs []) [] with health := { State.reset.health with bad := [.mem 0x2000, .mem 0x2001] } }
    let b := regs []
    s.mem.wf = true ∧ (0x40000 ≤ 32 * 0x2000 ∧ 32 * 0x2000 + 32 ≤ 0x40000 + 48) ∧ ErrUnit.mem 0x2001 ∈ s.health.bad ∧
    0x40000 + 48 < 32 * 0x2001 + 32 ∧ s.block? b.id = some b ∧ s.isFar b 0x40000 = false ∧ s.isFar b (2 ^ 45) = true := by
  decide +kernel

theorem test_meets_clean :
    let s := mapped (regs []) []
    let bad : State := { s with health := { s.health with bad := [.l1 0 (0x40000 / 8)] } }
    (s.farOf 0x40000 = none ∧ s.health.bad ++ s.health.soft = []) ∧ bad.l1Bad 0 0x40000 4 = true ∧
    (∀ x ∈ [(1024 : Nat)], s.farOf (2 ^ 45) = some x) := by
  decide +kernel

/-- A transfer of which row 1 waits for a walk, and one cut there that goes on. -/
theorem test_meets_tile_waits :
    let word : CWord := { d := 4#8, a := 8#8, b := 12#8 }
    let b := regs [] [(8, 0x2FFC0#64)]
    let s := mapped b []
    let at1 (k : Kind) (c : Ctx) (s : State) : Bool :=
      let r0 := (c.enter s).reach c.b 0 0x2FFC0#64 64 64 k
      r0.2 == .pa 0x4FFC0 && ((r0.1.reach c.b 0 0x30000#64 64 64 k).2.fate fun _ => .done).within
    let cut : Block := { b with rowprog := { pcoff := 0#32, valid := true, side := false, row := 1 } }
    need s (.tld word) (fun c s => !c.iss.handler && !c.engineBusy && at1 .read c s && (c.b.enterEngine c).resumeRow c == (0, false)) = true ∧
    need s (.tst word) (fun c s => at1 .write c s) = true ∧
    need (alone cut) (.tld word) (fun c _ => c.pc == BitVec.ofNat 64 c.b.cfg.code + c.b.rowprog.pcoff.setWidth 64 &&
      (c.b.enterEngine c).resumeRow c == (1, false)) = true ∧
    (let moved : Block := { cut with rowprog := { cut.rowprog with pcoff := 8#32 } }
     need (alone moved) (.tld word) (fun c _ => (c.b.enterEngine c).resumeRow c == (0, false)) = true) ∧
    (b.holdsLine 0 (0x4FFC0 / 128) = false ∧ (b.th 0).outst = []) := by
  decide +kernel

/-- A row of a thread whose page needs a walk, one in error, one that completes. -/
theorem test_meets_rows :
    let w : CWord := { d := 4#8, a := 8#8, b := 12#8, ty := .f32 }
    let s (va : Nat) : State := mapped (regs [(8, BitVec.ofNat 32 va)]) []
    let c (va : Nat) : Ctx := cOf (s va) 0x305 w
    let load (va : Nat) : State × (Fate ⊕ List Byte) := ((c va).enter (s va)).readSpan (c va).entered.b 0 (BitVec.ofNat 64 va) 256 16
    let q (va : Nat) : State × Option Fate := ((c va).enter (s va)).writeSpan (c va).entered.b 0 (BitVec.ofNat 64 va) (List.replicate 256 0#8) 16
    let bad : State := { s 0x20000 with health := { (s 0x20000).health with bad := [.row 1 31] } }
    ((load 0x20000).2.isRight = true ∧ (load 0x30000).2.elim Fate.within (fun _ => false) = true) ∧
    ((q 0x20000).2 = none ∧ (q 0x30000).2.any Fate.within = true) ∧
    (bad.badRow 1 0 = true ∧ bad.badRow 1 1 = false ∧ bad.badRow 1 0 240 16 = true ∧ bad.badRow 1 0 224 16 = false) ∧
    (s 0x20000).badRow 1 0 = false := by
  decide +kernel

/-- Products: the row of A waits for a walk; the accumulator row is in error; B in memory, with a page for all its rows. -/
theorem test_meets_product_waits :
    let s (va : Nat) : State := mapped (regs [(8, BitVec.ofNat 32 va)] [(2, 0x20000#64)]) []
    let c (va : Nat) : Ctx := cOf (s va) 0x300 (productWord .f16)
    let m : BTile := ⟨[], []⟩
    ((s 0x30000).productOf (c 0x30000) false m 0).2.within = true ∧ ((s 0x20000).productOf (c 0x20000) false m 0).2.within = false ∧
    (let mem : CWord := { productWord .f16 with bsel := 1#2, imm := 9#32 }
     let c := cOf (s 0x20000) 0x300 mem
     let rows := (List.range 64).foldl (fun (a : State × Bool) r =>
       let x := a.1.reach c.b 0 (0x20000#64 + BitVec.ofNat 64 (r * 64)) 64 64 .read
       (x.1, a.2 && x.2 == .pa (0x40000 + 64 * r))) (s 0x20000, true)
     rows.2 = true ∧ c.iss.handler = false ∧ sideBytes false .f16 = 0 ∧ c.b.resumeRow c = (0, false) ∧
       c.rb.ureg c.w.c % 2 ^ 32 = 0 ∧ (rows.1.block? 1).isSome = true ∧ (c.rb.ureg c.w.b.toNat) = 0x20000) := by
  decide +kernel

theorem test_meets_float_column : isIntTy .f16 = false ∧ isIntTy .f64 = false ∧ isIntTy .e2m1x8 = false ∧
    (∀ x ∈ [Fp.fin false 1 1 0, .fin true 3 1 (-2)], x.isNan = false) ∧ Fp.nan ∈ [Fp.nan, .inf true] ∧
    (Fp.inf true ∈ [Fp.inf true, .zero false] ∧ Fp.inf (!true) ∉ [Fp.inf true, .zero false] ∧ Fp.nan ∉ [Fp.inf true, .zero false]) := by
  decide

/-- A task record at 0x38000 and its launch record, of one block of one thread. -/
def launchAt (ireel : Nat) (mem : Memory) : Memory :=
  ([(0x38000, 8, 0x38100), (0x38048, 8, 1), (0x38050, 8, 1), (0x38100, 4, 0x08000000), (0x38108, 8, 0x10000), (0x38110, 8, 0x10040),
    (0x38128, 4, 1), (0x3812E, 2, 1), (0x38130, 2, 8), (0x38140, 4, 1), (0x38180, 8, ireel), (0x38188, 8, 1), (0x38190, 4, 1)] :
    List (Nat × Nat × Nat)).foldl (fun (m : Memory) (x : Nat × Nat × Nat) => m.put x.1 x.2.1 x.2.2) mem

/-- A child that starts inline; its producer's writes acknowledged or not. -/
theorem test_meets_inline :
    let b := regs []
    let s := walkable b (launchAt 1 tables)
    let late : Block := { b with acks := [{ tid := 0, va := 0#64, pa := 0, time := 0 }] }
    s.block? b.id = some b ∧ ((s.runInline b 0 0 (spawnMsg b 0 0x38000#64 1 1)) matches .started _) = true ∧
    (∀ t ∈ s.sched.tasks, t.id ≠ s.sched.nextTask) ∧ b.regs.inldepth.toNat < ({ b.regs with inlmax := 8#32 } : BlockRegs).inlmax.toNat ∧
    b.acks = [] ∧ late.acks ≠ [] := by
  decide +kernel

/-- The state from which a copied segment is read; a block that has ended with a copy past its promise. -/
theorem test_meets_copy_step :
    let k : Copy := { id := 1, blk := 1, task := 1, env := 0, tid := 0, pc := 0#64, queue := 0, kind := 0, src := 0x30FF0#64, dst := 0x40000#64
                      len := 64, beats := 1, promise := some 5 }
    let s (b : Block) : State := { walkable b tables with eng := { copies := [k] } }
    let b := regs []
    let v := ((s b).tellAt false 0x30FF0).correctRead 0x30FF0 16
    v.poisoned 0x30FF0 16 = false ∧ (k.done + 16) % 64 ≠ 0 ∧ k.done + 16 ≠ k.len ∧
    (let gone : Block := { b with ended := true }
     (s gone).block? k.blk = some gone ∧ gone.ended = true ∧ k.promise = some 5) ∧ b.leaving = none := by
  decide +kernel

theorem test_meets_save_events :
    let b := threadOf fun th => { th with wait := some (.pin 0 false), st := .waiting }
    let landed : Block := { b with due := some {} }
    let late : Block := { b with due := some { n := 1, weight := 3 } }
    let out : Block := { regs [] with saved := some {}, place := { core := 0, resident := false } }
    let many : Block := { regs [] with cfg := { placedRec with bsize := 1025 } }
    let turned : Block := { many with out := [(1, 5, [])], threads := (List.replicate 128 { st := .exited }) ++ [{}] }
    let slot := threadOf fun th => { th with inSlot := true, lentTo := 1 }
    landed.hasLanded = true ∧ ((alone landed).standing landed).all Block.hasLanded = true ∧
    (late.place.resident = true ∧ late.saved = none ∧ late.inline = none ∧ late.ended = false ∧ 2 * late.cfg.landbound * 1 < 3) ∧
    (let u := (alone out).refill 1
     (u.block? 1).any (fun b => (u.task? b.task).any fun t => u.chosen t 0) = true) ∧
    (turned.running = true ∧ turned.cfg.partial? = true ∧ (∀ x ∈ turned.out, x.1 ≠ 0) ∧ 128 * 0 < turned.cfg.bsize ∧ turned.groupIdle 0 = true ∧
      turned.nextGroup.isSome = true ∧ (turned.groupLive 0).all (fun t => !(turned.th t).inSlot) = true) ∧
    (slot.trap.stopped = false ∧ ErrUnit.slot 1 0 ∈ ({ (alone slot).health with bad := [.slot 1 0] } : Health).bad ∧ (alone slot).health.bad = []) ∧
    ((slot.th 0).inSlot = true ∧ (alone slot).borrowerOf (slot.th 0) = none ∧ (alone slot).bankUse slot.place.core 0 + slot.cfg.vAlloc * 4 ≤ 131072) := by
  decide +kernel

/-- Blocks that an attached debugger has stopped: a thread of theirs, or the handler. -/
theorem test_meets_debugger :
    let dbg : Block := { regs [] with trap := { debug := true } }
    let dbgH : Block := { regs [] with trap := { level := 1, debug := true, debugH := true } }
    (dbg.trap.debug = true ∧ dbg.trap.debugH = false) ∧ (dbgH.trap.debug = true ∧ dbgH.trap.debugH = true) ∧ selectorOk 0xFF#32 false = true ∧
    0 < dbg.cfg.bsize ∧ 255 + 1 ≤ dbg.cfg.vAlloc ∧ (dbg.th 0).st ≠ .exited ∧ writeFault dbg (dbg.th 0) 0 0 = none ∧ (dbg.th 0).outst = [] := by
  decide +kernel

/-- A block that saves into the reserve, and one whose image is back. -/
theorem test_meets_save_image :
    let b := regs []
    let s := alone b
    (b.tiles.wf = true ∧ b.rows.wf = true ∧ b.scratch.wf = true ∧ b.rowprog.row < 64 ∧ b.wdrun ≤ b.wdPeriod ∧ b.place.parkn < 2 ^ 16) ∧
    ((b.th 0).pc - b.codeBase).toNat < 2 ^ 32 ∧
    (b.acks = [] ∧ b.saved = none ∧ b.out = [] ∧ (∀ th ∈ b.threads, th.outst = []) ∧ s.health.bad = [] ∧
      b.trap.copy = none ∧ b.trap.missed = none ∧ b.trap.held = []) ∧
    (∀ kind ∈ [1, 2],
      let masks := s.liveMasks b kind
      let live := if masks.any (·.2.isNone) then Live.all else (masks.filterMap fun m => m.2.map (·.2)).foldl Live.or {}
      let parts := b.blockParts kind live b.trap.stopped ++
        ((List.range b.cfg.bsize).map fun t => b.threadParts t kind (((masks.find? (·.1 == t)).map (·.2)).getD none)).flatten
      (s.putRanges b.saveDest (parts.map fun p => (p.off, p.len)) (parts.map (·.m)).flatten).2 = none) ∧
    (let k : Saved := {}
     let out (th : Thread) : Block := { regs [] with saved := some k, threads := [th] }
     let q : Parked := { kind := .park, va := 0#64, pa := 0 }
     k.stops = [] ∧ k.spawn = none ∧ (out {}).cfg.partial? = false ∧ (out {}).out = [] ∧ (out {}).threads.length = (out {}).cfg.bsize ∧
     (∀ c ∈ (alone (out {})).eng.copies, c.blk = 1 → c.promise = none) ∧
     (∀ w ∈ [Wait.landed 0#64 false, .sleep 5, .parked q, .parked { q with kind := .fget }], ((out { wait := some w, st := .waiting }).th 0).wait = some w)) := by
  decide +kernel

/-- A reel at zero whose pool pays its overdraft and the grant, to the last unit. -/
theorem test_meets_refill :
    let b : Block := { regs [] with regs := { ireel := 0#64, treel := 0#64, iover := 2#64, tover := 0#64 } }
    let s : State := { alone b with envs := [{ id := 0, irefill := 5, trefill := 1, ipool := 7, tpool := 1 }] }
    let e := s.env 0
    (b.reel false = 0#64 ∧ 0 < e.irefill ∧ e.irefill < 2 ^ 64 ∧ 2 + e.irefill ≤ e.pool false) ∧ (b.reel true = 0#64 ∧ 0 + e.trefill ≤ e.pool true) := by
  decide

/-- A walk whose page is being shot down, and one whose table entry holds an error. -/
theorem test_meets_walk_answers :
    let w : Walk := { id := 1, die := 0, env := 0, page := 3, kind := .read, post := some 7 }
    let s : State := { walkable (regs []) tables with eng := { walks := [w], shoots := [{ env := 0, va := 0x20000, len := 0x20000 }] } }
    let bad : State := { walkable (regs []) tables with health := { (alone (regs [])).health with bad := [.mem (0x10000 / 32)] } }
    s.posted 0 7 = some w ∧ s.shooting w.env w.page = true ∧ s.health.soft = [] ∧
    (bad.walk 0 (pageVa 3) matches .fault { cause := .uncorrectedData, .. }) = true := by
  decide +kernel

/-- A request sent again for the fourth time; a reader off the die whose home serves it; a write whose block has triggered. -/
theorem test_meets_tokens :
    let s : State := { State.reset with clock := { kcyc := 256000 } }
    let req (n : Nat) : TokenReq := { core := 767, line := 5, write := true, retries := n }
    let asked (n : Nat) : State := { s with coh := { s.coh with reqs := [req n] } }
    (∀ n ∈ [3, 4], (asked n).req? 767 5 = some (req n) ∧ (req n).since + 256 ≤ (asked n).cycleNow ∧ (asked n).holds 767 5 (req n).write = false) ∧
    ((s.homeServes 0 5).isSome = true ∧ ∀ p, Sys2Proof.Place.cluster 31 ≠ .package p) ∧
    (let a : Ack := { tid := 0, va := 0#64, pa := 5 * 2 ^ 7, time := 0, before := true }
     let b (t : Bool) : Block := { threadOf (fun th => { th with triggered := t }) with acks := [a], triggering := t }
     ∀ t ∈ [true, false], (alone (b t)).reached a.pa = true ∧ (b t).acks[0]? = some a ∧ (alone (b t)).coh.rounds = [] ∧
       (b t).threads.all (·.triggered) = t ∧ ∀ x ∈ (b t).acks.eraseIdx 0, x.before = false) := by
  refine ⟨by decide +kernel, ⟨by decide +kernel, fun p => by simp⟩, by decide +kernel⟩

/-- What a write needs of its line: no served request of the core; a write to the line, by its thread or by another, among
several lines. -/
theorem test_meets_lines :
    let s := mapped (regs []) []
    let a : Ack := { tid := 5, va := 0#64, pa := 0, time := 0, tids := [0], lines := [5 * 2 ^ 39] }
    (∀ q ∈ s.coh.reqs, q.core = 0 → q.line = 0x40000 / 128 → q.served = false) ∧
    (0 ∈ a.tids ∧ 5 * 2 ^ 39 ∈ a.lines ∧ s.lineDie (5 * 2 ^ 39) ≠ some 0) := by
  decide

def flitOf (seq : Nat) (n : Nat) : Flit :=
  let f : Flit := { dest := 0, source := 1, channel := 0, seq, kind := 0, payload := List.replicate n 0#8, crc := 0#64 }
  { f with crc := crc64 (flitBytes f) }

theorem flitOf_good (seq n : Nat) (h : n ≤ 112) : flitGood (flitOf seq n) = true := by simp [flitGood, flitOf, flitBytes, h]

/-- A flit in its place, one that has been performed already, one whose CRC is wrong; a rejection before the sixteenth and
the sixteenth. -/
theorem test_meets_flit :
    (State.reset.port 0).up = true ∧ (flitOf 0 112).dest = State.reset.fabric.pkgid ∧
    (flitOf 0 112).seq = State.reset.expectedSeq 1 0 ∧ (flitOf 7 112).seq ≠ State.reset.expectedSeq 1 0 ∧
    flitGood { flitOf 0 112 with crc := (flitOf 0 112).crc + 1#64 } = false ∧
    ((State.reset.port 0).fails < 15 ∧ 15 ≤ ({ fails := 15 } : Port).fails) ∧
    (∀ n ∈ [0, 14, 15], let p : Port := { kept := [flitOf 0 112], reject := some (0, 0, 0), resent := n }
      p.up = true ∧ (n = 15 ↔ 16 ≤ p.resent + 1)) := by
  refine ⟨by decide, rfl, by decide, by decide, ?_, by decide, by decide⟩
  have h : ∀ c : BitVec 64, c + 1#64 ≠ c := fun c hc => by bv_omega
  simp [flitGood, flitOf, flitBytes, h]

theorem test_meets_served :
    let s : State := { State.reset with mem := [] }
    s.homeOf 0x40000 = some (.die 0) ∧ s.eng.migrs = [] ∧
    (∀ l ∈ linesOf 0x40000 16, ∀ d ∈ [0, 1, 2, 3], s.lineDie l = some d → s.canGather d l = true) ∧
    (∀ k, RemoteReq.read 0x40000 16 ≠ .again k) ∧ (16 ≤ s.host.width ∧ 128 ≤ s.host.rate) := by
  refine ⟨by decide, by decide, by decide +kernel, fun k => by simp, by decide⟩

/-- A page of the host's that is on the move; AtomicOps; what the tables do not map. -/
theorem test_meets_host_accesses :
    let s := bound 0
    let m : Migration := { env := 0, va := 0, old := 0, target := 2 ^ 31, len := 2 ^ 31 }
    let moved : State := { s with eng := { s.eng with migrs := [m] } }
    moved.queueOnMove 3 63 = true ∧ moved.reachesQueue 1 3 63 = true ∧ moved.accepts = true ∧
    (∀ op ∈ [0#2, 1#2, 2#2], op ≠ 3#2) ∧ 0x40000 % 8 = 0 ∧ s.hostReach 1 (2 ^ 32) .read 8 = (s, .error) ∧
    s.hostReach 1 (2 ^ 32) .write 8 = (s, .error) ∧ (s.host.fqs[3]?).isSome = true ∧
    s.reachesDie 1 3 = true ∧ (∀ die < 4, s.reachesDie 5 die = false) := by
  decide +kernel

/-- The message of a host's doorbell for the task record at 0x38000, in the slot of queue 63 of die 3. -/
def sent (src ifund task : Nat) : State :=
  let mem := ([(0x30040, 8, task), (0x3004A, 1, src), (0x30050, 8, ifund), (0x30058, 8, 1)] : List (Nat × Nat × Nat)).foldl
    (fun (m : Memory) (x : Nat × Nat × Nat) => m.put x.1 x.2.1 x.2.2) (launchAt 1 ((tables.put 0x20008 8 0x20).put 0x30008 8 1 |>.put 0x30011 1 1))
  { walkable (regs []) mem with host := { fns := [(1, 0)], queues := [(3, 63, 0, 0x30000)] } }

/-- Messages that are accepted, failed, that wait for a pool or for a page. -/
theorem test_meets_acceptance :
    let s (k : Nat × Nat × Nat) : State := sent k.1 k.2.1 k.2.2
    let judged (k : Nat × Nat × Nat) : Option (Judged (Accepted ⊕ Refused)) := ((s k).peek 3 63).map fun x => (s k).judge 3 x.2
    (∀ k ∈ [(0, 1, 0x38000), (0, 0, 0x38000), (2, 1, 0x38000), (0, 1, 2 ^ 31)], ((s k).peek 3 63).isSome = true ∧
      (s k).badSlot 3 63 = none ∧ (s k).mem.wf = true) ∧
    (judged (0, 1, 0x38000) matches some (.ok (.inl _))) = true ∧ (judged (0, 0, 0x38000) matches some (.ok (.inr _))) = true ∧
    (judged (2, 1, 0x38000) matches some .wait) = true ∧ (judged (0, 1, 2 ^ 31) matches some (.walk _ _)) = true ∧
    (s (0, 0, 0x38000)).failurePage 3 0 (some placedRec) = none := by
  decide +kernel

/-- A task of two tiles that registers, starts, places its first block, and ends. -/
theorem test_meets_task_life :
    let t : Task := { id := 1, cfg := placedRec, locs := [(0, 0), (0x1000, 0x1000)], reads := [0], writes := [(0x1000, false)] }
    let one (t : Task) : State := { alone (regs []) with blocks := [], sched := { tasks := [t], nextTask := 2, nextBlk := 2 } }
    let run : Task := { id := 1, cfg := { placedRec with csave := 4096 }, registered := true, ready := true, ifund := 2 ^ 40, tfund := 2 ^ 40 }
    let e : TileEntry := { env := 0, tile := 0, homePa := 0, readers := [(1, 0)] }
    let go : Task := { t with cfg := { placedRec with flags := 1 }, locs := [(0, 0x5000)], reads := [0], writes := [(0, false)], registered := true }
    ((one t).task? 1 = some t ∧ (t.locs.map (·.1)).Nodup) ∧ (one go).badEntry go = false ∧
    (run.cfg.groupSize = 1 ∧ ((one run).placeNext run 767).isSome = true ∧ ∀ b ∈ (one run).blocks, b.id ≠ 2) ∧
    run.parent = none ∧ (alone (regs [])).blocks.all (fun b => b.saved.isNone && b.regs.iover == 0#64 && b.regs.tover == 0#64) = true ∧
    (let s : State := { one go with sched := { (one go).sched with tiles := [e] } }
     s.tile? 0 0 = some e ∧ e.readers.find? (·.1 == go.id) = some (1, 0) ∧ (go.uses 0).2.1 = true ∧ (go.uses 0).2.2 = true) := by
  decide +kernel

theorem test_meets_report : let s := walkable (regs []) tables
    s.mem.wf = true ∧ (s.engineXlate (dieCore 0) 0 0x30000#64 .write).2 = some 0x30000 ∧ s.poisoned 0x30000 16 = false ∧
    s.valPa 0x30008 1 = 0 ∧ s.valPa 0x30009 1 = 0 ∧ 0x30000 < 2 ^ 57 := by
  decide +kernel

/-- Messages of each type; a command of the mailbox. -/
theorem test_meets_messages :
    let m (type vendor : Nat) (mailbox : Bool) (body : List Byte) : MgmtMsg := { type, vendor, mailbox, body }
    (∀ k ∈ [0, 1, 5], (m k 0 false []).mailbox = false ∧ (m k 0 false []).type = k) ∧ (m 3 0 false []).type ∉ [0, 1, 5, 0x7E] ∧
    ((m 0x7E 7 false []).type = 0x7E ∧ (m 0x7E 7 false []).vendor ≠ 0x1E4A) ∧
    (m 0x7E 0x1E4A false [1#8]).vendor = 0x1E4A ∧ (m 0 0 true [5#8]).mailbox = true ∧
    (let body : List Byte := [0#8, 1#8, 1#8, 9#8]
     body.length = 4 ∧ body[1]? = some 1#8 ∧ (body.getD 2 0#8).toNat % 4 ≤ 1) ∧
    State.reset.frozen = false ∧ settings[0]?.isSome = true := by
  decide

/-- Firmware whose image boots, and firmware without one. -/
theorem test_meets_boot : let s := State.reset
    s.dark = false ∧ s.mem.wf = true ∧ ({} : Firmware).boot.running = none ∧ s.health.held = [] := by
  decide

/-- The whole machine: a step that is one, with memory canonical; a frozen package with a command on its agenda. -/
theorem test_meets_step : (State.reset.withFetchWord 32 0x3D501011).mem.wf = true ∧
    (match step (State.reset.withFetchWord 32 0x3D501011) with
      | .next _ => true
      | _ => false) = true := by
  decide

theorem test_meets_frozen : let s : State := { State.reset with frozen := true, agenda := [.errCounts] }
    s.frozen = true ∧ s.ahead = none ∧ (∀ i ∈ s.agenda, i ≠ .coldReset ∧ i ≠ .warmReset) ∧ (match step s with
      | .next _ => true
      | _ => false) = true := by
  decide

theorem test_meets_encode : let i : Instr := .iadd { d := 4#8, a := 5#8, imm := 0xFFFFFFFD#32, bsel := 2#2, ty := .i32 }
    i.WellFormed = true ∧ i.opWord ≠ none := by decide

theorem test_meets_step_runs :
    let s := State.reset.withFetchWord 32 0x3D501011
    let iss : Issue := { blk := 1, plait := 1, ths := [(0, 0)] }
    s.dark = false ∧ s.frozen = false ∧ s.agenda = [] ∧ s.cur = some iss ∧ (s.block? 1).any (fun b => b.canIssue iss && b.inCode 0x10000#64) = true ∧
    ((s.block? 1).bind fun b => (s.cachedLine b 0 0x10000 0).2).any (fun c => c.fault == none && (entryAt c.bytes 0 matches some (.insn (.iadd _) 4))) = true := by
  decide

theorem test_meets_pads : let s := State.reset.withFetchWord 32 0x3D501011
    (s.skipPads 1 [0] == s) = true := by decide +kernel

theorem test_meets_accounting :
    let b := regs []
    (alone b).block? 1 = some b ∧ 1 < b.uregs.length ∧
    (let old : Block := b.uniformWrite 0x10000#64 [3] 1 5#64
     let u := old.uregs.getD 1 {}
     u.pc = some 0x10000#64 ∧ u.epoch = old.epoch ∧ u.val ≠ 6#64 ∧ u.tid ∉ [0] ∧ u.tid ∈ [3]) := by
  decide +kernel

theorem test_meets_values : (Fp.inf true).isNan = false ∧ (Fp.fin false 0 1 0).isNan = false ∧ Fp.nan.isNan = true ∧ (1 : Nat) ≠ 0 ∧
    ({ ty := .i32, op := 0, mode := .rn, ftz := false } : Combine).ty.isFloat = false ∧ ({ ty := .f32, op := 0, mode := .rn, ftz := false } : Combine).ty.isFloat = true := by decide

end Sys2Proof.Tests
end

section
/-! SUPPORT. Walks, corrections met by a read, shootdowns and migrations; O47. -/

namespace Sys2Proof.Machine

/-! ## What error events and corrections leave alone (R413, R416, R423) -/

/-- The second state is the first but for its error records, its alerts and the firmware's own fields. -/
def HealthOnly (s t : State) : Prop := { t with health := s.health, fw := s.fw } = s

theorem HealthOnly.refl (s : State) : HealthOnly s s := rfl

theorem HealthOnly.trans {s t u : State} (h : HealthOnly s t) (k : HealthOnly t u) : HealthOnly s u := by
  unfold HealthOnly at h k ⊢
  rw [← h, ← k]

theorem HealthOnly.foldl {α : Type} {f : State → α → State} (h : ∀ s x, HealthOnly s (f s x)) (xs : List α) (s : State) :
    HealthOnly s (xs.foldl f s) := by
  induction xs generalizing s with
  | nil => exact .refl s
  | cons x xs ih => exact (h s x).trans (ih _)

theorem HealthOnly.mem {s t : State} (h : HealthOnly s t) : t.mem = s.mem := by
  have := congrArg State.mem h; exact this

theorem HealthOnly.blocks {s t : State} (h : HealthOnly s t) : t.blocks = s.blocks := by
  have := congrArg State.blocks h; exact this

theorem healthOnly_health (s : State) (x : Health) : HealthOnly s { s with health := x } := rfl

theorem healthOnly_event (s : State) (die kind src arg info : Nat) (cont : Option (Nat × Nat)) :
    HealthOnly s (s.event die kind src arg info cont) := rfl

theorem healthOnly_raiseAlert (s : State) (die : Nat) : HealthOnly s (s.raiseAlert die) := by
  unfold State.raiseAlert; split <;> rfl

theorem healthOnly_candidate (s : State) (pa : Nat) : HealthOnly s (s.candidate pa) := by
  unfold State.candidate
  extract_lets f own
  split
  · exact .refl s
  · split
    · exact .refl s
    · exact ((healthOnly_health s _).trans (healthOnly_event _ _ _ _ _ _ _)).trans (healthOnly_raiseAlert _ _)

theorem healthOnly_corrected (s : State) (store die addr : Nat) : HealthOnly s (s.corrected store die addr) := by
  unfold State.corrected
  extract_lets
  split
  · exact healthOnly_health s _
  · exact (healthOnly_health s _).trans (healthOnly_event _ _ _ _ _ _ _)

theorem healthOnly_correctedHbm (s : State) (pa : Nat) : HealthOnly s (s.correctedHbm pa) := by
  have h := healthOnly_corrected s 0 (frameOf pa).1 pa
  unfold State.correctedHbm
  dsimp only
  split
  · exact (h.trans (healthOnly_health _ _)).trans (healthOnly_candidate _ _)
  · exact h.trans (healthOnly_health _ _)

theorem healthOnly_correctUnits (s : State) (die : Nat) (p : ErrUnit → Bool) : HealthOnly s (s.correctUnits die p) := by
  refine .foldl (fun s u => ?_) _ s
  dsimp only
  split
  · exact (healthOnly_health s _).trans (healthOnly_correctedHbm _ _)
  · exact (healthOnly_health s _).trans (healthOnly_corrected _ _ _ _)

theorem healthOnly_correctRead (s : State) (pa n : Nat) : HealthOnly s (s.correctRead pa n) := healthOnly_correctUnits _ _ _

theorem healthOnly_correctWalk (s : State) (env : Nat) (va : DWord) : HealthOnly s (s.correctWalk env va) :=
  .foldl (fun s pa => healthOnly_correctRead s pa 8) _ s

/-- Without a unit in a correctable error there is nothing to correct. -/
theorem State.correctUnits_of_soft_nil {s : State} (h : s.health.soft = []) (die : Nat) (p : ErrUnit → Bool) :
    s.correctUnits die p = s := by
  simp [State.correctUnits, h]

theorem State.correctRead_of_soft_nil {s : State} (h : s.health.soft = []) (pa n : Nat) : s.correctRead pa n = s :=
  s.correctUnits_of_soft_nil h _ _

theorem State.correctWalk_of_soft_nil {s : State} (h : s.health.soft = []) (env : Nat) (va : DWord) : s.correctWalk env va = s :=
  List.foldl_fixed' (fun pa => s.correctRead_of_soft_nil h pa 8) _

/-! ## The end of a walk (R384, R385, R414) -/

section
variable {s : State} {w : Walk} (hw : s.eng.walks.find? (·.id == w.id) = some w) (hp : w.post = none)
  (hs : s.shooting w.env w.page = false) (hk : s.hasWalker w = true)
include hw hp hs hk

theorem exec_walkComplete_replay {l : Nat}
    (h : (s.correctWalk w.env (pageVa w.page)).walk w.env (pageVa w.page) = .replay l) :
    exec (.walkComplete w.id) s = .next ((s.correctWalk w.env (pageVa w.page)).post w l) := by
  show execWalkComplete w.id s = _
  simp [execWalkComplete, hw, hp, hs, hk, h]

theorem exec_walkComplete_leaf {e : BitVec 64} {log : Nat}
    (h : (s.correctWalk w.env (pageVa w.page)).walk w.env (pageVa w.page) = .leaf e log) :
    let u := s.correctWalk w.env (pageVa w.page)
    exec (.walkComplete w.id) s = .next ((u.fillTlbs w (u.waitingCores w.id) e log).answerWalk w none) := by
  show execWalkComplete w.id s = _
  simp [execWalkComplete, hw, hp, hs, hk, h]

theorem exec_walkComplete_fault {t : TrapInfo}
    (h : (s.correctWalk w.env (pageVa w.page)).walk w.env (pageVa w.page) = .fault t) (ht : t.cause ≠ .uncorrectedData) :
    exec (.walkComplete w.id) s = .next ((s.correctWalk w.env (pageVa w.page)).answerWalk w (some t)) := by
  show execWalkComplete w.id s = _
  simp [execWalkComplete, hw, hp, hs, hk, h, ht]

/-- The event names the entry at which the walk ends (R414). -/
theorem exec_walkComplete_uncorrected {t : TrapInfo}
    (h : (s.correctWalk w.env (pageVa w.page)).walk w.env (pageVa w.page) = .fault t) (ht : t.cause = .uncorrectedData) :
    let u := s.correctWalk w.env (pageVa w.page)
    exec (.walkComplete w.id) s = .next
      ((u.uncorrected w.die (u.walkStop (pageVa w.page) 3 (u.env w.env).root) 0 w.env 0).refuse w t) := by
  show execWalkComplete w.id s = _
  simp [execWalkComplete, hw, hp, hs, hk, h, ht]

end

/-! ## The servicer's answers (R385, R388, R393) -/

theorem exec_fqrespMapped (die id : Nat) (s : State) : exec (.fqrespMapped die id) s = .next (s.fqAnswer die id 1) := rfl
theorem exec_fqrespRefused (die id : Nat) (s : State) : exec (.fqrespRefused die id) s = .next (s.fqAnswer die id 2) := rfl
theorem exec_fqrespOverQuota (die id : Nat) (s : State) : exec (.fqrespOverQuota die id) s = .next (s.fqAnswer die id 3) := rfl

section
variable {s : State} {die id : Nat} {w : Walk}

/-- During a shootdown of the page each of the three answers puts the walk back among those not posted. -/
theorem State.fqAnswer_of_shooting (hw : s.posted die id = some w) (hs : s.shooting w.env w.page = true) {answer : Nat}
    (ha : 1 ≤ answer ∧ answer ≤ 3) :
    s.fqAnswer die id answer =
      { s with eng := { s.eng with walks := updFirst (·.id == w.id) (fun x => { x with post := none }) s.eng.walks } } := by
  simp [State.fqAnswer, hw, hs, ha]

theorem State.fqAnswer_mapped (hw : s.posted die id = some w) (hs : s.shooting w.env w.page = false) :
    s.fqAnswer die id 1 = s.answerWalk w none := by
  simp [State.fqAnswer, hw, hs]

theorem State.fqAnswer_refused (hw : s.posted die id = some w) (hs : s.shooting w.env w.page = false) :
    s.fqAnswer die id 2 = s.refuse w (xlateFault (pageVa w.page) (s.missingLevel w)) := by
  simp [State.fqAnswer, hw, hs]

theorem State.fqAnswer_overQuota (hw : s.posted die id = some w) (hs : s.shooting w.env w.page = false) :
    s.fqAnswer die id 3 = s.refuse w { cause := .envelopeQuota, addr := pageVa w.page } := by
  simp [State.fqAnswer, hw, hs]

end

theorem exec_fqbaseWrite {s : State} {fn die : Nat} (h : s.reachesDie fn die = true) (v : DWord) :
    exec (.fqbaseWrite fn die v) s = .next (s.setFqBase die v) := by
  show execFqbaseWrite fn die v s = _
  simp [execFqbaseWrite, h]

theorem State.setFqBase_fqs {s : State} {die : Nat} {q : FaultQueue} (hq : s.host.fqs[die]? = some q) (v : DWord) :
    (s.setFqBase die v).host.fqs[die]? = some { q with base := v.toNat / 4096 * 4096, tail := 0, head := 0 } := by
  simp [State.setFqBase, hq]

/-! ## Shootdowns (R386) -/

theorem exec_shootdownComplete {s : State} {k : Nat} {x : Shootdown} (hx : s.eng.shoots[k]? = some x) (hw : s.shootWaits x = false) :
    exec (.shootdownComplete k) s =
      .next { s.dropRange x with eng := { (s.dropRange x).eng with shoots := s.eng.shoots.eraseIdx k } } := by
  show execShootdownComplete k s = _
  simp only [execShootdownComplete, hx, hw]
  rfl

/-- The entries that stay are those of other envelopes and those outside the range. -/
theorem State.mem_dropRange_tlb {s : State} {x : Shootdown} {e : TlbEntry} :
    e ∈ (s.dropRange x).eng.tlb ↔ e ∈ s.eng.tlb ∧ ¬ (e.env = x.env ∧ x.va < e.va + 2 ^ e.log ∧ e.va < x.va + x.len) := by
  simp [State.dropRange, List.mem_filter, imp_iff_not_or]

/-! ## Page migration (R277) -/

theorem State.putRange_eng (s : State) (pa off len : Nat) (m : Memory) : (s.putRange pa off len m).eng = s.eng := by
  have h := congrArg State.eng (s.takeLines_frame pa len); exact h

theorem State.copyPage_mem (s : State) (m : Migration) :
    (s.copyPage m).mem = ((s.gatherPage m.old m.len).putRange m.target 0 m.len (s.mem.slice m.old m.len 0)).mem := rfl

theorem State.copyPage_eng (s : State) (m : Migration) : (s.copyPage m).eng = s.eng :=
  (s.gatherPage m.old m.len).putRange_eng m.target 0 m.len (s.mem.slice m.old m.len 0)

/-- The migration that MIGRATION_START begins: the whole page of the leaf, copied at once unless its lines are busy. -/
def State.newMigration (s : State) (env : Nat) (va : DWord) (target : Nat) (e : BitVec 64) (log : Nat) : Migration :=
  { env, va := va.toNat / 2 ^ log * 2 ^ log, old := leafPa e / 2 ^ log * 2 ^ log, target, len := 2 ^ log
    copied := !s.pageBusy (leafPa e / 2 ^ log * 2 ^ log) (2 ^ log) }

def State.addMigration (s : State) (m : Migration) : State := { s with eng := { s.eng with migrs := s.eng.migrs ++ [m] } }

theorem exec_migrationStart {s : State} {env target : Nat} {va : DWord} {e : BitVec 64} {log : Nat} (hl : s.walk env va = .leaf e log)
    (hm : s.moving (leafPa e / 2 ^ log * 2 ^ log) = false) (ht : target % 2 ^ log = 0) (hh : s.homeOf target ≠ none) :
    exec (.migrationStart env va target) s =
      let m := s.newMigration env va target e log
      .next ((if m.copied then s.copyPage m else s).addMigration m) := by
  show execMigrationStart env va target s = _
  simp only [execMigrationStart, hl, hm, ht, Option.isNone_eq_false_iff.mpr (Option.isSome_iff_ne_none.mpr hh)]
  rfl

/-- The new home opens the page. -/
def State.openMigration (s : State) (k : Nat) : State :=
  { s with eng := { s.eng with migrs := s.eng.migrs.modify k fun m => { m with copied := true, open' := true } } }

theorem exec_migrationOpen {s : State} {k : Nat} {m : Migration} (h : s.eng.migrs[k]? = some m) :
    exec (.migrationOpen k) s = .next (if !m.copied && s.pageBusy m.old m.len then s
      else (if m.copied then s else s.copyPage m).openMigration k) := by
  show execMigrationOpen k s = _
  simp only [execMigrationOpen, h]
  rfl

/-- The entry leads a thread of the block into a page on the move. -/
def State.movedEntry (s : State) (b : Block) (t : TlbEntry) : Bool :=
  (t.unit == b.place.core || t.unit == 1024 + b.cluster) && t.env == b.cfg.envelope &&
    s.eng.migrs.any fun m => decide (m.old < leafPa t.leaf + 2 ^ t.log ∧ leafPa t.leaf < m.old + m.len)

def State.dropMoved (s : State) (b : Block) : State :=
  { s with eng := { s.eng with tlb := s.eng.tlb.filter (!s.movedEntry b ·) } }

theorem exec_movedAnswer {s : State} {blk tid : Nat} {b : Block} (hb : s.block? blk = some b) (ht : (b.th tid).stall = some 0) :
    exec (.movedAnswer blk tid) s = .next ((s.dropMoved b).modTh blk tid fun th => { th with stall := none }) := by
  show execMovedAnswer blk tid s = _
  simp only [execMovedAnswer, hb, ht]
  rfl

/-- Settles O47: each event is given by its equation above; the memory and the blocks stand because corrections change
the error records alone. -/
theorem walkEvents : Obligations.WalkEvents := by
  intro s
  refine ⟨fun w hw hp hs hk => ?walkEnds, fun die id w hw hs => ?walksAgain, fun die id w hw hs => ?answered,
    fun fn die v q hr hq => ?fqbase, fun env va len => rfl, fun k x hx hw => ?dropped,
    fun env va target e log hl hm ht hh => ?migrates, fun k m hm => ?opens, fun blk tid b hb ht hh => ?moved⟩
  case walkEnds =>
    intro u
    have hu : HealthOnly s u := healthOnly_correctWalk s w.env (pageVa w.page)
    exact ⟨fun h => s.correctWalk_of_soft_nil h _ _, hu.mem, hu.blocks, fun _ h => exec_walkComplete_replay hw hp hs hk h,
      fun _ _ h => exec_walkComplete_leaf hw hp hs hk h, fun _ h ht => exec_walkComplete_fault hw hp hs hk h ht,
      fun _ h ht => ⟨_, exec_walkComplete_uncorrected hw hp hs hk h ht⟩⟩
  case walksAgain =>
    intro again
    rw [exec_fqrespMapped, exec_fqrespRefused, exec_fqrespOverQuota, s.fqAnswer_of_shooting hw hs (by decide),
      s.fqAnswer_of_shooting hw hs (by decide), s.fqAnswer_of_shooting hw hs (by decide)]
    exact ⟨rfl, rfl, rfl⟩
  case answered =>
    rw [exec_fqrespMapped, exec_fqrespRefused, exec_fqrespOverQuota, s.fqAnswer_mapped hw hs, s.fqAnswer_refused hw hs,
      s.fqAnswer_overQuota hw hs]
    exact ⟨rfl, rfl, rfl⟩
  case fqbase => exact ⟨_, exec_fqbaseWrite hr v, s.setFqBase_fqs hq v, rfl⟩
  case dropped => exact ⟨_, exec_shootdownComplete hx hw, rfl, rfl, rfl, fun e => s.mem_dropRange_tlb⟩
  case migrates =>
    refine ⟨_, exec_migrationStart hl hm ht hh, ?_, ?_⟩
    · cases hb : s.pageBusy (leafPa e / 2 ^ log * 2 ^ log) (2 ^ log) <;>
        simp [State.newMigration, State.addMigration, State.copyPage_mem, hb]
    · cases hb : s.pageBusy (leafPa e / 2 ^ log * 2 ^ log) (2 ^ log) <;>
        simp [State.newMigration, State.addMigration, State.copyPage_eng, hb]
  case opens =>
    intro opened
    rw [exec_migrationOpen hm]
    refine ⟨fun hc => ?_, fun hc hb => ?_, fun hc hb => ?_⟩
    · simp [hc, opened, State.openMigration]
    · simp [hc, hb, opened, State.openMigration]
    · simp [hc, hb]
  case moved =>
    have hu : (s.dropMoved b).block? blk = some b := hb
    refine ⟨_, b.modTh tid fun th => { th with stall := none }, exec_movedAnswer hb ht, ?_, ?_, ?_, rfl, fun e he => ?_⟩
    · rw [State.modTh, State.block?_modBlock (fun _ h => by simpa using h), hu, Option.map_some]
    · rw [Block.th_modTh_same _ _ _ hh]
    · rw [Block.th_modTh_same _ _ _ hh]
    · exact (List.mem_filter.mp he).1

end Sys2Proof.Machine
end

section
/-! SUPPORT. Power, freeze and resets; O53. -/

namespace Sys2Proof.Machine

/-! ## The arithmetic clock (R4, R432) -/

theorem sum_eq_list_sum (xs : List Nat) : sum xs = xs.sum := List.sum_eq_foldl.symm

theorem Clock.above_iff (c : Clock) : c.above 100 = true ↔ c.watts.length * c.limit < c.watts.sum := by
  rw [Clock.above, decide_eq_true_iff, sum_eq_list_sum, mul_assoc, mul_comm c.limit]
  omega

theorem Clock.below_iff (c : Clock) : c.below 97 = true ↔ 100 * c.watts.sum < 97 * c.watts.length * c.limit := by
  rw [Clock.below, decide_eq_true_iff, sum_eq_list_sum, mul_right_comm]

/-- The clock with one more measurement kept. -/
def Clock.note (c : Clock) (watts : Nat) : Clock :=
  { c with watts := (watts :: c.watts).take 100, measured := c.measured + 1 }

/-- The mean of the measurements kept lies above the limit, or a sensor is hot. -/
def Clock.TooMuch (c : Clock) (watts : Nat) (hot : Bool) : Prop :=
  (c.note watts).watts.length * c.limit < (c.note watts).watts.sum ∨ hot = true

/-- The tenth measurement in a row whose mean lies below 97 % of the limit. -/
def Clock.Low (c : Clock) (watts : Nat) : Prop :=
  100 * (c.note watts).watts.sum < 97 * (c.note watts).watts.length * c.limit ∧ 9 ≤ c.calm

section
variable {c : Clock} {watts : Nat} {hot : Bool}

theorem Clock.tooMuch_iff : c.TooMuch watts hot ↔ ((c.note watts).above 100 || hot) = true := by
  rw [Bool.or_eq_true, Clock.above_iff]; rfl

theorem Clock.low_iff (h : ¬ c.TooMuch watts hot) :
    c.Low watts ↔ 10 ≤ if (c.note watts).below 97 && !hot then c.calm + 1 else 0 := by
  have hh : hot = false := by simpa using fun e => h (.inr e)
  have hb := (c.note watts).below_iff
  change _ ↔ 100 * (c.note watts).watts.sum < 97 * (c.note watts).watts.length * c.limit at hb
  rw [Clock.Low, ← hb, hh]
  cases (c.note watts).below 97 <;> simp

/-- The step down, and the hold once the floor is reached. -/
theorem Clock.measure_of_tooMuch (h : c.TooMuch watts hot) : c.measure watts hot =
    { c.note watts with mhz := max 1000 (c.mhz - 25), calm := 0, hold := decide (c.mhz ≤ 1000) } :=
  if_pos (Clock.tooMuch_iff.mp h)

/-- The step up; the count starts again (log 37). -/
theorem Clock.measure_of_low (h : ¬ c.TooMuch watts hot) (hl : c.Low watts) : c.measure watts hot =
    { c.note watts with mhz := min 2700 (c.mhz + 25), calm := 0, hold := false } :=
  (if_neg (mt Clock.tooMuch_iff.mpr h)).trans (if_pos ((Clock.low_iff h).mp hl))

theorem Clock.measure_of_steady (h : ¬ c.TooMuch watts hot) (hl : ¬ c.Low watts) : ∃ calm, c.measure watts hot =
    { c.note watts with calm, hold := false } :=
  ⟨_, (if_neg (mt Clock.tooMuch_iff.mpr h)).trans (if_neg (mt (Clock.low_iff h).mpr hl))⟩

/-- A measurement moves the frequency, the count of low measurements and the hold of HBM requests alone. -/
theorem Clock.measure_frame (c : Clock) (watts : Nat) (hot : Bool) :
    { c.measure watts hot with mhz := c.mhz, calm := c.calm, hold := c.hold } = c.note watts := by
  by_cases h : c.TooMuch watts hot
  · rw [Clock.measure_of_tooMuch h]; rfl
  · by_cases hl : c.Low watts
    · rw [Clock.measure_of_low h hl]; rfl
    · obtain ⟨calm, hm⟩ := Clock.measure_of_steady h hl
      rw [hm]; rfl

theorem Clock.measure_watts (c : Clock) (watts : Nat) (hot : Bool) : (c.measure watts hot).watts = (c.note watts).watts := by
  have h := congrArg Clock.watts (c.measure_frame watts hot); exact h

theorem Clock.measure_limit (c : Clock) (watts : Nat) (hot : Bool) : (c.measure watts hot).limit = c.limit := by
  have h := congrArg Clock.limit (c.measure_frame watts hot); exact h

theorem Clock.measure_time (c : Clock) (watts : Nat) (hot : Bool) : (c.measure watts hot).time = c.time := by
  have h := congrArg Clock.time (c.measure_frame watts hot); exact h

theorem Clock.measure_kcyc (c : Clock) (watts : Nat) (hot : Bool) : (c.measure watts hot).kcyc = c.kcyc := by
  have h := congrArg Clock.kcyc (c.measure_frame watts hot); exact h

theorem Clock.mhz_measure_of_tooMuch (h : c.TooMuch watts hot) : (c.measure watts hot).mhz = max 1000 (c.mhz - 25) := by
  rw [Clock.measure_of_tooMuch h]

theorem Clock.mhz_measure_of_low (h : ¬ c.TooMuch watts hot) (hl : c.Low watts) :
    (c.measure watts hot).mhz = min 2700 (c.mhz + 25) := by
  rw [Clock.measure_of_low h hl]

theorem Clock.mhz_measure_of_steady (h : ¬ c.TooMuch watts hot) (hl : ¬ c.Low watts) : (c.measure watts hot).mhz = c.mhz := by
  obtain ⟨calm, hm⟩ := Clock.measure_of_steady h hl
  rw [hm]; rfl

theorem Clock.inRange_measure (hc : c.inRange) : (c.measure watts hot).inRange := by
  obtain ⟨h1, h2, h3, h4⟩ := hc
  have hl := c.measure_limit watts hot
  have hm : 1000 ≤ (c.measure watts hot).mhz ∧ (c.measure watts hot).mhz ≤ 2700 := by
    by_cases h : c.TooMuch watts hot
    · rw [Clock.mhz_measure_of_tooMuch h]; omega
    · by_cases hl : c.Low watts
      · rw [Clock.mhz_measure_of_low h hl]; omega
      · rw [Clock.mhz_measure_of_steady h hl]; omega
  exact ⟨hm.1, hm.2, hl ▸ h3, hl ▸ h4⟩

/-- HBM requests are held at the floor of the clock only. -/
theorem Clock.mhz_of_hold (hc : c.inRange) (h : (c.measure watts hot).hold = true) : (c.measure watts hot).mhz = 1000 := by
  by_cases hm : c.TooMuch watts hot
  · obtain ⟨h1, -, -, -⟩ := hc
    rw [Clock.measure_of_tooMuch hm, decide_eq_true_iff] at h
    rw [Clock.mhz_measure_of_tooMuch hm]
    omega
  · by_cases hl : c.Low watts
    · rw [Clock.measure_of_low hm hl] at h
      cases h
    · obtain ⟨calm, hs⟩ := Clock.measure_of_steady hm hl
      rw [hs] at h
      cases h

end

/-- A measurement changes the clock, the readings of the slow sensors and the free values drawn alone; the readings every
hundredth time. -/
theorem exec_powerMeasurement (s : State) : ∃ t, exec .powerMeasurement s = .next t ∧
    t.clock = s.clock.measure (Config.power s.choices) (Config.hot s.choices) ∧
    { t with clock := s.clock, choices := s.choices, fw := s.fw } = s ∧ { t.fw with readings := s.fw.readings } = s.fw ∧
    (t.clock.measured % 100 ≠ 0 → t.fw = s.fw) := by
  refine ⟨_, rfl, ?_⟩
  dsimp only
  split
  · exact ⟨rfl, rfl, rfl, fun h => absurd ‹_› h⟩
  · exact ⟨rfl, rfl, rfl, fun _ => rfl⟩

/-! ## Freeze (R420) -/

theorem Block.dissolveAll_threads {α : Type} (b : Block) (f : Thread → α)
    (hf : ∀ th ic sl as he ag, f { th with inClause := ic, slots := sl, asks := as, held := he, age := ag } = f th) :
    b.dissolveAll.threads.map f = b.threads.map f := by
  apply List.ext_getElem <;> simp [Block.dissolveAll, Block.mapTh, hf]

/-- What a frozen package keeps, as the manual's scan read-out finds it (R420). -/
def State.StandsFrozen (s t : State) : Prop :=
  t.frozen = true ∧ t.mem = s.mem ∧ t.clock = s.clock ∧ (∀ b ∈ t.blocks, b.plaits = []) ∧
    t.blocks.map (fun b => (b.id, b.regs, b.uregs, b.trap, b.threads.map fun th => (th.v, th.p, th.pc, th.st))) =
      s.blocks.map (fun b => (b.id, b.regs, b.uregs, b.trap, b.threads.map fun th => (th.v, th.p, th.pc, th.st)))

theorem State.freezeAll_frame {s : State} (h : s.frozen = false) (sideband : Nat) :
    { s.freezeAll sideband with health := s.health } =
      { s with blocks := s.blocks.map Block.dissolveAll, mate := none, ahead := none, frozen := true
               fw := { s.fw with updating := false } } := by
  rw [State.freezeAll, if_neg (by simp [h])]
  rfl

theorem State.freezeAll_stands {s : State} (h : s.frozen = false) (sideband : Nat) : s.StandsFrozen (s.freezeAll sideband) := by
  have hf := s.freezeAll_frame h sideband
  have hb : (s.freezeAll sideband).blocks = s.blocks.map Block.dissolveAll := by have k := congrArg State.blocks hf; exact k
  refine ⟨?_, ?_, ?_, ?_, ?_⟩
  · have k := congrArg State.frozen hf; exact k
  · have k := congrArg State.mem hf; exact k
  · have k := congrArg State.clock hf; exact k
  · simp [hb, Block.dissolveAll]
  · rw [hb, List.map_map]
    refine List.map_congr_left fun b _ => ?_
    have ht := b.dissolveAll_threads (fun th => (th.v, th.p, th.pc, th.st)) fun _ _ _ _ _ _ => rfl
    exact congrArg (fun x => (b.id, b.regs, b.uregs, b.trap, x)) ht

theorem exec_freeze {s : State} (h : s.fw.running ≠ none) :
    exec .freeze s = .next { s.freezeAll 1 with outputs := (s.freezeAll 1).outputs ++ [.reply 0 []] } := by
  show Host.Outcome.next s.freezeCommand = _
  simp [State.freezeCommand, State.command, State.manage, h]

/-! ## What a cold reset leaves of memory (R434) -/

theorem Memory.get_eq_zero {m : Memory} {a : Nat} (h : ∀ c ∈ m, c.1 ≠ a) : m.get a = 0#8 := by
  induction m with
  | nil => rfl
  | cons c m ih =>
    obtain ⟨k, b⟩ := c
    have hk : k ≠ a := h (k, b) List.mem_cons_self
    simp [Memory.get, hk, ih fun c hc => h c (List.mem_cons_of_mem _ hc)]

theorem Memory.mem_clear {m : Memory} {a n : Nat} {c : Host.Cell} :
    c ∈ m.clear a n ↔ c ∈ m ∧ ¬ (a ≤ c.1 ∧ c.1 < a + n) := by
  simp [Memory.clear, List.mem_filter, imp_iff_not_or]

theorem Memory.bounds_of_mem_slice {m : Memory} {a n b : Nat} {c : Host.Cell} (h : c ∈ m.slice a n b) :
    b ≤ c.1 ∧ c.1 < b + n := by
  obtain ⟨d, hd, rfl⟩ := List.mem_map.mp h
  have hd := of_decide_eq_true (List.mem_filter.mp hd).2
  dsimp only
  omega

theorem Memory.mem_overlay {m sl : Memory} {a n : Nat} {c : Host.Cell} (h : c ∈ m.overlay a n sl) :
    c ∈ sl ∨ c ∈ m.clear a n := by
  unfold Memory.overlay at h
  generalize m.clear a n = k at h ⊢
  induction sl generalizing k with
  | nil => exact .inr h
  | cons d sl ih =>
    rcases ih _ h with h | h
    · exact .inl (List.mem_cons_of_mem _ h)
    · rcases Memory.mem_set h with rfl | h
      · exact .inl List.mem_cons_self
      · exact .inr h

/-- A byte that a cold reset keeps lies in the window of the host, or in memory of another package. -/
theorem State.mem_foreign {s : State} {c : Host.Cell} (h : c ∈ s.foreign) :
    (2 ^ 45 ≤ c.1 ∧ c.1 < 2 ^ 46) ∨
      (2 ^ 46 ≤ c.1 ∧ ¬ (s.fabric.pkgid * 2 ^ 46 ≤ c.1 ∧ c.1 < (s.fabric.pkgid + 1) * 2 ^ 46)) := by
  unfold State.foreign at h
  rcases Memory.mem_overlay (List.mem_filter.mp h).1 with h | h
  · have := Memory.bounds_of_mem_slice h
    omega
  · obtain ⟨h, -⟩ := Memory.mem_clear.mp h
    obtain ⟨h, h0⟩ := Memory.mem_clear.mp h
    obtain ⟨-, hp⟩ := Memory.mem_clear.mp h
    omega

/-- Every byte of the package's own memory is zero, whichever number it had. -/
theorem State.foreign_get {s : State} {a : Nat} (h : a < 2 ^ 45 ∨
    (s.fabric.pkgid ≠ 0 ∧ s.fabric.pkgid * 2 ^ 46 ≤ a ∧ a < (s.fabric.pkgid + 1) * 2 ^ 46)) : s.foreign.get a = 0#8 := by
  refine Memory.get_eq_zero fun c hc e => ?_
  have := State.mem_foreign hc
  subst e
  omega

/-! ## Resets (R434) -/

/-- A boot that finds no image says so (R429). -/
theorem Firmware.bootFail_of_running_none {f : Firmware} : f.boot.running = none → f.boot.bootFail = true := by
  unfold Firmware.boot
  extract_lets first second run
  by_cases h1 : f.accepts first = true
  · simp [h1, run]
  · by_cases h2 : f.accepts second = true
    · simp [h1, h2, run]
    · simp [h1, h2]

theorem exec_coldReset {s : State} (h : s.dark = false) : exec .coldReset s = .next s.coldBoot := by
  show execColdReset s = _
  simp [execColdReset, h]

theorem exec_warmReset {s : State} (h : s.dark = false) : exec .warmReset s = .next s.warmBoot := by
  show execWarmReset s = _
  simp [execWarmReset, h]

/-- Launches are accepted by a package that has booted and holds no die in reset. -/
theorem State.accepts_opens {s : State} (h : s.fw.running ≠ none) : s.opens.accepts = true ↔ s.health.held = [] := by
  simp [State.opens, Option.isSome_iff_ne_none, h]

/-- The firmware that boots at a cold reset, and at a warm one. -/
def State.coldFw (s : State) : Firmware := ({ s.fw with alerts := [], updating := false, readings := [] } : Firmware).boot
def State.warmFw (s : State) : Firmware := ({ s.fw with updating := false } : Firmware).boot

theorem State.coldBoot_of_none {s : State} (h : s.coldFw.running = none) : s.coldBoot = s.stayInReset s.coldFw :=
  if_pos (Option.isNone_iff_eq_none.mpr h)

/-- A cold reset whose image boots, before its events and the opening of the queues (R434). -/
def State.coldState (s : State) : State :=
  { clock := {}, mem := s.foreign, fw := s.coldFw, choices := s.choices + Config.dies, outputs := s.outputs
    fabric := { ports := repairedPorts s.health.repairs }
    host := { trained := true }
    health :=
      { retired := s.health.retired, repairs := s.health.repairs, spares := repairedSpares s.health.repairs
        held := (List.range Config.dies).filter fun d => !Config.trained (s.choices + d) } }

theorem State.coldBoot_of_some {s : State} (h : s.coldFw.running ≠ none) : s.coldBoot = (s.coldState.noteReset 0).opens :=
  if_neg (mt Option.isNone_iff_eq_none.mp h)

/-- A warm reset whose image boots, before its events and the opening of the queues (R434, log 66). -/
def State.warmState (s : State) : State :=
  let keepUnit (u : ErrUnit) : Bool := match u with
    | .mem _ | .ring _ _ => true
    | _ => false
  { s.emptied with
    clock := { time := s.clock.time, watts := s.clock.watts, measured := s.clock.measured }
    host := { trained := true, width := s.host.width, rate := s.host.rate, fns := s.host.fns, queues := s.host.queues }
    health := { s.health with
      lost := [], spares := repairedSpares s.health.repairs
      bad := s.health.bad.filter keepUnit, soft := s.health.soft.filter keepUnit }
    fw := s.warmFw }

theorem State.warmBoot_of_some {s : State} (h : s.warmFw.running ≠ none) : s.warmBoot = (s.warmState.noteReset 1).opens :=
  if_neg (mt Option.isNone_iff_eq_none.mp h)

/-- The black box of each die after a cold reset holds the RESET event alone (R421, R434). -/
theorem State.coldState_boxes (s : State) : (s.coldState.noteReset 0).health.boxes = [resetBox, resetBox, resetBox, resetBox] := by
  have h : ({} : BlackBox).push (toBytesLE 8 0 ++ toBytesLE 4 0 ++ toBytesLE 2 0 ++ toBytesLE 1 0 ++ toBytesLE 1 1) = resetBox := by
    decide
  have e : (s.coldState.noteReset 0).health.boxes = List.replicate 4
      (({} : BlackBox).push (toBytesLE 8 0 ++ toBytesLE 4 0 ++ toBytesLE 2 0 ++ toBytesLE 1 0 ++ toBytesLE 1 1)) := rfl
  rw [e, h]
  rfl

/-- Settles O53: the equations of the resets and of a measurement above, field by field. -/
theorem resetsAndPower : Obligations.ResetsAndPower := by
  refine ⟨fun s => ⟨rfl, fun hf => ?freeze, fun hd hr => ?cold, fun hd hr => ?noImage, fun hd hr => ?warm⟩,
    fun s => ?measurement, fun c watts hot hc => ?clock⟩
  case freeze =>
    exact ⟨_, rfl, s.freezeAll_stands hf 0, fun hr => ⟨_, exec_freeze hr, s.freezeAll_stands hf 1⟩⟩
  case cold =>
    have ha : (s.coldState.noteReset 0).fw.running ≠ none := hr
    exact ⟨_, (exec_coldReset hd).trans (congrArg _ (s.coldBoot_of_some hr)), rfl, rfl, rfl, rfl, rfl, rfl, rfl, rfl, rfl, rfl,
      s.coldState_boxes, rfl, rfl, fun a _ h => s.foreign_get h, State.accepts_opens ha⟩
  case noImage =>
    exact ⟨_, (exec_coldReset hd).trans (congrArg _ (s.coldBoot_of_none hr)), rfl, rfl, rfl, rfl, rfl, rfl, hr,
      Firmware.bootFail_of_running_none hr, rfl⟩
  case warm =>
    exact ⟨_, (exec_warmReset hd).trans (congrArg _ (s.warmBoot_of_some hr)), rfl, rfl, rfl, rfl, rfl, rfl, rfl, rfl, rfl, rfl, rfl,
      rfl, rfl, rfl, rfl⟩
  case measurement =>
    obtain ⟨t, ht, hc, hs, hfw, hr⟩ := exec_powerMeasurement s
    exact ⟨t, ht, hs, hfw, hr, hc ▸ s.clock.measure_time _ _, hc ▸ s.clock.measure_kcyc _ _, _, _, hc⟩
  case clock =>
    intro d n sum
    have hw : d.watts = (c.note watts).watts := c.measure_watts watts hot
    have hm : n * c.limit < sum ∨ hot = true ↔ c.TooMuch watts hot := by simp only [n, sum, hw]; rfl
    have hl : 100 * sum < 97 * n * c.limit ∧ 9 ≤ c.calm ↔ c.Low watts := by simp only [n, sum, hw]; rfl
    rw [hm, hl]
    refine ⟨Clock.inRange_measure hc, c.measure_limit watts hot, hw, Clock.mhz_measure_of_tooMuch, fun hs hh => ?_,
      Clock.mhz_of_hold hc⟩
    have hn : ¬ c.TooMuch watts hot := fun h => by
      rcases hm.mpr h with h | h
      · omega
      · simp [hh] at h
    exact ⟨Clock.mhz_measure_of_low hn, Clock.mhz_measure_of_steady hn⟩

end Sys2Proof.Machine
end

section
/-! SUPPORT. Integer columns of a matrix product (R33, R198); O42. -/

namespace Sys2Proof.Machine

/-- The product at a place of the depth of a column; 0 where the metadata stores no element. -/
def intProduct (sparse : Bool) (t : Ty) (a : Memory) (m : BTile) (n k : Nat) : Int :=
  match m.code sparse t n k with
  | none => 0
  | some b => valOf t (elemCode t a 0 k) * valOf t b

/-- A number that fits is its own remainder. -/
theorem wrap_of_lt {w x : Nat} (h : x < 2 ^ w) : wrap w x = x := by
  rw [wrap, ← Int.natCast_mod, Int.toNat_natCast, Nat.mod_eq_of_lt h]

theorem wrap_lt (w : Nat) (x : Int) : wrap w x < 2 ^ w := by
  have h : (0 : Int) < (2 ^ w : Nat) := by exact_mod_cast Nat.two_pow_pos w
  have h1 := Int.emod_nonneg x h.ne'
  have h2 := Int.emod_lt_of_pos x h
  unfold wrap
  omega

/-- Wrapping before an addition is undone by wrapping after it. -/
theorem wrap_wrap_add (w : Nat) (x y : Int) : wrap w (wrap w x + y) = wrap w (x + y) := by
  have h : (0 : Int) < (2 ^ w : Nat) := by exact_mod_cast Nat.two_pow_pos w
  have hx : (wrap w x : Int) = x % (2 ^ w : Nat) := Int.toNat_of_nonneg (Int.emod_nonneg x h.ne')
  rw [hx, wrap, wrap, Int.emod_add_emod]

/-- An accumulator wrapped at each step is the exact sum wrapped once. -/
theorem foldl_wrap_add {w : Nat} (p : Nat → Int) (js : List Nat) {acc : Nat} (h : acc < 2 ^ w) :
    js.foldl (fun acc j => wrap w (acc + p j)) acc = wrap w (acc + (js.map p).sum) := by
  induction js generalizing acc with
  | nil => simp [wrap_of_lt h]
  | cons j js ih => rw [List.foldl_cons, ih (wrap_lt w _), wrap_wrap_add, List.map_cons, List.sum_cons, add_assoc]

/-- A sum over a depth is the sum of its blocks' sums. -/
theorem sum_range_blocks (p : Nat → Int) (b n : Nat) :
    ((List.range n).map fun j => ((List.range b).map fun i => p (b * j + i)).sum).sum = ((List.range (b * n)).map p).sum := by
  induction n with
  | zero => rfl
  | succ n ih =>
    rw [List.range_succ, Nat.mul_succ, List.range_add, List.map_append, List.sum_append, ih, List.map_append,
      List.sum_append, List.map_map]
    simp [Function.comp_def]

theorem depthOf_blocks (sparse : Bool) (t : Ty) : 8 * (depthOf sparse t / 8) = depthOf sparse t := by
  cases sparse <;> cases t <;> rfl

/-- An integer column adds block after block, wrapping at each (R198). -/
theorem column_of_int {sparse : Bool} {t : Ty} (ht : isIntTy t = true) (a : Memory) (sc : List Nat) (m : BTile) (n acc : Nat) :
    column sparse t a sc m n acc = (List.range (depthOf sparse t / 8)).foldl
      (fun acc j => wrap 32 (acc + ((List.range 8).map fun i => intProduct sparse t a m n (8 * j + i)).sum)) acc := by
  simp only [column, ht, if_true, List.map_map, List.sum_eq_foldl]
  rfl

/-- Settles O42: the blocks' sums, each wrapped, are the exact sum over the depth, wrapped once. -/
theorem integerColumns : Obligations.IntegerColumns := by
  intro sparse t a sc m n acc ht hacc
  have h := sum_range_blocks (intProduct sparse t a m n) 8 (depthOf sparse t / 8)
  rw [depthOf_blocks] at h
  rw [column_of_int ht, foldl_wrap_add _ _ hacc, h]
  rfl

end Sys2Proof.Machine
end

section
/-! SUPPORT. Conversions (R26, R142); O8. -/

namespace Sys2Proof.Machine

/-- Settles O8: each conversion is of the arithmetic shape, and its function is the one stated. -/
theorem conversions : Obligations.Conversions := by
  intro w
  exact ⟨computes_of_runAlu fun _ => rfl, computes_of_runAlu fun _ => rfl, computes_of_runAlu fun _ => rfl⟩

end Sys2Proof.Machine
end

section
/-! SUPPORT. Meanings that act once for the plait: an effect on the block of the issue, or a trap of all its threads. -/

namespace Sys2Proof.Machine

/-! ## The greatest of a list -/

theorem maxBy_cons (t : Nat) (ts : List Nat) :
    ∃ m, maxBy (fun t : Nat => t) (t :: ts) = some m ∧ m ∈ t :: ts ∧ ∀ u ∈ t :: ts, u ≤ m := by
  induction ts generalizing t with
  | nil => exact ⟨t, rfl, by simp, by simp⟩
  | cons v vs ih =>
    obtain ⟨m, hm, hmem, hle⟩ := ih v
    by_cases h : t < m
    · exact ⟨m, by rw [maxBy, hm]; exact if_pos h, List.mem_cons_of_mem _ hmem, List.forall_mem_cons.mpr ⟨h.le, hle⟩⟩
    · exact ⟨t, by rw [maxBy, hm]; exact if_neg h, List.mem_cons_self,
        List.forall_mem_cons.mpr ⟨le_rfl, fun u hu => (hle u hu).trans (not_lt.mp h)⟩⟩

/-- The greatest element that a list has. -/
theorem maxBy_of_top {t : Nat} {ts : List Nat} (ht : t ∈ ts) (hle : ∀ u ∈ ts, u ≤ t) :
    maxBy (fun t : Nat => t) ts = some t := by
  cases ts with
  | nil => cases ht
  | cons v vs =>
    obtain ⟨m, hm, hmem, hmax⟩ := maxBy_cons v vs
    rw [hm, Nat.le_antisymm (hle m hmem) (hmax t ht)]

/-- The highest %tid of an issue's threads that are on. -/
theorem Ctx.maxBy_on {c : Ctx} {t : Nat} (ht : t ∈ c.on.map (·.2)) (hle : ∀ y ∈ c.on, y.2 ≤ t) :
    maxBy (fun t : Nat => t) (c.on.map (·.2)) = some t :=
  maxBy_of_top ht (List.forall_mem_map.mpr hle)

/-! ## Once for the plait -/

section
variable {i : Instr} {op : Nat} {w : CWord} {ok : Ctx → State → Prop} {act : Ctx → State → State × List (Nat × Fate)}

/-- An instruction whose meaning changes the block of the issue and names no thread. -/
theorem does_of_modBlock {g : Ctx → Block → Block} (hi : ∀ s, exec i s = .next (s.runIssue op w act))
    (ha : ∀ s iss b, s.Runs iss op w b → ok (ctxOf iss op w b) s →
      act (ctxOf iss op w b) s = (s.modBlock iss.blk (g (ctxOf iss op w b)), []))
    (hg : ∀ c b, (g c b).shape = b.shape) : Does i op w ok (fun c s => s.modBlock c.iss.blk (g c)) fun _ _ _ => .done :=
  does_of_effect hi ha fun _ _ _ h _ => (keeps_modBlock fun _ _ => hg _ _).block h.found

/-- An instruction that every thread that is on takes a trap of. -/
theorem does_of_allTrap {k : Cause} (hi : ∀ s, exec i s = .next (s.runIssue op w act))
    (ha : ∀ s iss b, s.Runs iss op w b → ok (ctxOf iss op w b) s →
      act (ctxOf iss op w b) s = (s, (ctxOf iss op w b).allTrap k)) :
    Does i op w ok Ctx.noEffect fun _ _ _ => .trap { cause := k } :=
  does_of_runIssue hi ha fun _ _ b h _ => ⟨b, h.found, fun _ k => k⟩

end

end Sys2Proof.Machine
end

section
/-! SUPPORT. The exact accumulators (R27 to R31, R152 to R154); O11. -/

namespace Sys2Proof.Machine

/-! ## An accumulator of a block -/

theorem Block.modX_modX (b : Block) (k : Nat) (f g : XAcc → XAcc) :
    (b.modX k f).modX k g = b.modX k fun x => g (f x) := by
  simp only [Block.modX, List.modify_modify_eq]; rfl

theorem Block.modX_id (b : Block) (k : Nat) : (b.modX k fun x => x) = b :=
  congrArg (fun xs => { b with xs }) (List.modify_id k b.xs)

/-- Contributions made one after another are made to one accumulator (R152). -/
theorem Block.foldl_modX_add {α : Type} (k : Nat) (v : α → Fp) (xs : List α) (b : Block) :
    (xs.foldl (fun b x => b.modX k fun a => a.add (v x)) b) = b.modX k fun a => (xs.map v).foldl XAcc.add a := by
  induction xs generalizing b with
  | nil => exact (b.modX_id k).symm
  | cons x xs ih => rw [List.foldl_cons, ih, Block.modX_modX]; rfl

/-- A contribution of each thread that is on, to the accumulator that D names. -/
theorem does_of_accumulate {i : Instr} {op : Nat} {w : CWord} {v : Opnd → Fp}
    (hi : ∀ s, exec i s = .next (s.runIssue op w fun c s => (s.accumulate c v, []))) :
    Does i op w Ctx.always (fun c s => s.modBlock c.iss.blk fun b => b.modX w.d.toNat fun a =>
      (c.on.map fun x => v { b := c.b, th := c.b.th x.2 }).foldl XAcc.add a) fun _ _ _ => .done :=
  does_of_modBlock hi (fun s iss b _ _ => by simp only [State.accumulate, Block.foldl_modX_add]; rfl) fun _ _ => rfl

/-! ## The freedom of order (R30) -/

/-- What a value adds to N, in units of 2^−308 (R27, R29). -/
def Fp.xunits : Fp → Int
  | .fin s n d e =>
    let m : Nat := n * 2 ^ (e + 308).toNat / (d * 2 ^ (-(e + 308)).toNat)
    if s then -m else m
  | _ => 0

/-- The sticky bit that a value sets: that of NaN or of an infinity (R28). -/
def Fp.sticky : Fp → BitVec 4
  | .nan => 1#4
  | .inf s => if s then 4#4 else 2#4
  | .fin _ _ _ _ => 0#4

theorem XAcc.add_n (x : XAcc) (v : Fp) : (x.add v).n = x.n + BitVec.ofInt 640 v.xunits := by
  cases v with
  | fin s n d e => simp only [XAcc.add, Fp.xunits, BitVec.ofInt_add, BitVec.ofInt_toInt]
  | _ => simp [XAcc.add, Fp.xunits]

/-- Overflow apart, the status takes the value's own sticky bit and no other. -/
theorem XAcc.add_st (x : XAcc) (v : Fp) {k : Nat} (hk : k < 3) :
    (x.add v).st.getLsbD k = (x.st.getLsbD k || v.sticky.getLsbD k) := by
  have h8 : (8#4).getLsbD k = false := by interval_cases k <;> rfl
  cases v with
  | fin s n d e =>
    simp only [XAcc.add, Fp.sticky, apply_ite (fun st : BitVec 4 => st.getLsbD k), BitVec.getLsbD_or, h8, Bool.or_false, ite_self,
      BitVec.getLsbD_zero]
  | _ => simp [XAcc.add, Fp.sticky]

theorem XAcc.foldl_add_n (xs : List Fp) (acc : XAcc) :
    (xs.foldl XAcc.add acc).n = acc.n + BitVec.ofInt 640 (xs.map Fp.xunits).sum := by
  induction xs generalizing acc with
  | nil => simp
  | cons x xs ih => rw [List.foldl_cons, ih, XAcc.add_n, List.map_cons, List.sum_cons, BitVec.ofInt_add, BitVec.add_assoc]

theorem XAcc.foldl_add_st (xs : List Fp) (acc : XAcc) {k : Nat} (hk : k < 3) :
    (xs.foldl XAcc.add acc).st.getLsbD k = (acc.st.getLsbD k || xs.any fun v => v.sticky.getLsbD k) := by
  induction xs generalizing acc with
  | nil => simp
  | cons x xs ih => rw [List.foldl_cons, ih, XAcc.add_st _ _ hk, List.any_cons, Bool.or_assoc]

/-! ## Reading and writing (R31, R154) -/

/-- XMOV reads a chunk of N, or the status byte as chunk 10; beyond it traps. -/
theorem execXmov_computes (w : CWord) : Computes (.xmov w) 0x194 w fun x =>
    let j := if w.bsel = 2#2 then w.imm.toNat else x.th.reg w.b.toNat 1
    if 10 < j then .trap .reservedField else .val 2 ((x.b.xacc w.a.toNat).chunk j) :=
  computes_of_runAlu fun _ => rfl

theorem XAcc.chunk_of_lt (x : XAcc) {j : Nat} (h : j < 10) : x.chunk j = x.n.toNat / 2 ^ (64 * j) % 2 ^ 64 := by
  rw [XAcc.chunk, if_pos h, bits, Nat.shiftRight_eq_div_pow]

/-- Settles O11: each instruction by the shape of its meaning; N is the sum of the contributions and a sticky bit is set
by any one of them, so neither depends on their order. -/
theorem exactSums : Obligations.ExactSums := by
  refine ⟨fun w => ⟨?xclr, ?xadd, ?xfma, ?xrnd, ?xmov, fun top => ⟨?write, ?refused⟩⟩, fun acc xs ys hp => ⟨?n, fun k hk => ?st⟩⟩
  case xclr => exact does_of_modBlock (fun _ => rfl) (fun _ _ _ _ _ => rfl) fun _ _ => rfl
  case xadd => exact does_of_accumulate (v := fun x => (fmt w.ty).decode (x.a w w.ty)) fun _ => rfl
  case xfma =>
    exact does_of_accumulate (v := fun x => ((fmt w.ty).decode (x.a w w.ty)).mul ((fmt w.ty).decode (x.bb w w.ty))) fun _ => rfl
  case xrnd => exact computes_of_runAlu fun _ => rfl
  case xmov =>
    convert execXmov_computes w using 2 with x
    dsimp only
    generalize (if w.bsel = 2#2 then w.imm.toNat else x.th.reg w.b.toNat 1) = j
    rcases Nat.lt_trichotomy j 10 with h | rfl | h
    · rw [if_pos h, if_neg (by omega), XAcc.chunk_of_lt _ h]; rfl
    · rfl
    · rw [if_neg (by omega), if_neg (by omega), if_pos h]
  case write =>
    refine does_of_modBlock (fun _ => rfl) ?_ fun _ _ => rfl
    rintro s iss b - ⟨ht, hle, hv⟩
    simp only [Ctx.maxBy_on ht hle]
    exact if_neg fun h => absurd (hv h.1) (not_lt.mpr h.2)
  case refused =>
    refine does_of_allTrap (fun _ => rfl) ?_
    rintro s iss b - ⟨ht, hle, hv⟩
    simp only [Ctx.maxBy_on ht hle]
    exact if_pos hv
  case n => rw [XAcc.foldl_add_n, XAcc.foldl_add_n, (hp.map _).sum_eq]
  case st => rw [XAcc.foldl_add_st _ _ hk, XAcc.foldl_add_st _ _ hk, hp.any_eq]

end Sys2Proof.Machine
end

section
/-! SUPPORT. The threads of an issue together (R146 to R150); O10. -/

namespace Sys2Proof.Machine

/-! ## Segments (R146) -/

theorem sortBy_eq_insertionSort {α : Type} (le : α → α → Bool) (xs : List α) :
    sortBy le xs = xs.insertionSort fun x y => le x y = true := by
  have hins : ∀ (x : α) (ys : List α), insertBy le x ys = ys.orderedInsert (fun x y => le x y = true) x := by
    intro x ys
    induction ys with
    | nil => rfl
    | cons y ys ih => rw [insertBy, ih]; rfl
  induction xs with
  | nil => rfl
  | cons x xs ih => rw [sortBy, ih, hins]; rfl

theorem Ctx.segment_perm (c : Ctx) (rank : Nat) :
    (c.segment rank).Perm (c.act.filter fun y => y.1 / c.segSize == rank / c.segSize) := by
  rw [Ctx.segment, sortBy_eq_insertionSort]
  exact List.perm_insertionSort _ _

theorem Ctx.mem_segment {c : Ctx} {rank : Nat} {y : Nat × Nat} :
    y ∈ c.segment rank ↔ y ∈ c.act ∧ y.1 / c.segSize = rank / c.segSize := by
  rw [(c.segment_perm rank).mem_iff, List.mem_filter, beq_iff_eq]

theorem Ctx.segment_sorted (c : Ctx) (rank : Nat) : (c.segment rank).Pairwise fun y z => y.1 ≤ z.1 := by
  have : Std.Total fun y z : Nat × Nat => decide (y.1 ≤ z.1) = true := ⟨fun y z => by simpa using Nat.le_total y.1 z.1⟩
  have : IsTrans (Nat × Nat) fun y z => decide (y.1 ≤ z.1) = true := ⟨fun x y z h k => by simp at h k ⊢; omega⟩
  rw [Ctx.segment, sortBy_eq_insertionSort]
  exact (List.pairwise_insertionSort _ _).imp fun h => by simpa using h

/-- Inside a segment the order of ranks is that of the places in it. -/
theorem mod_lt_mod_iff {S x y : Nat} (h : y / S = x / S) : y % S < x % S ↔ y < x := by
  have hx := Nat.div_add_mod x S
  have hy := Nat.div_add_mod y S
  rw [h] at hy
  omega

/-! ## The shape of a cross-thread meaning -/

theorem does_of_runCross {i : Instr} {op : Nat} {w : CWord} {f : Ctx → Nat → Nat → Alu} {v : Ctx → Nat × Nat → Alu}
    (hi : ∀ s, exec i s = .next (s.runCross op w f)) (hv : ∀ c, c.w = w → ∀ x ∈ c.act, f c x.1 x.2 = v c x) :
    Does i op w Ctx.always Ctx.noEffect fun c _ x => (v c x).fate w.d.toNat := by
  refine does_of_runIssue hi (fun s iss b _ _ => Prod.ext rfl ?_) fun _ _ b h _ => ⟨b, h.found, fun _ k => k⟩
  refine List.map_congr_left fun x hx => ?_
  dsimp only
  rw [hv _ rfl x (State.Runs.on_sub hx)]

/-! ## SHFL (R147) -/

/-- The rank in its sub-segment that a thread takes from. -/
def shflPlace (mode g q d : Nat) : Nat :=
  match mode with
  | 0 => d
  | 1 => (q + d) % g
  | 2 => (g - 1 - q + d) % g
  | _ => q ^^^ d

theorem Ctx.shflRank_bind_atRank (c : Ctx) (mode g rank d : Nat) : (shflRank mode g rank d).bind c.atRank =
    (if shflPlace mode g (rank % g) d < g then c.act.find? fun y => y.1 == rank - rank % g + shflPlace mode g (rank % g) d
      else none).map (·.2) := by
  have h : shflRank mode g rank d = if shflPlace mode g (rank % g) d < g
      then some (rank - rank % g + shflPlace mode g (rank % g) d) else none := rfl
  rw [h]
  split <;> rfl

/-- The value of a participant that was found. -/
theorem Ctx.srcA_of_found (c : Ctx) (u : Option (Nat × Nat)) (own : Nat) :
    (match u.map (·.2) with
      | some t => c.srcA t
      | none => own) = match u with
      | some y => c.srcA y.2
      | none => own := by
  cases u <;> rfl

/-! ## Masks (R148, R149) -/

theorem isEmpty_eq_length_beq {α : Type} (xs : List α) : xs.isEmpty = (xs.length == 0) := by
  cases xs <;> rfl

theorem testBit_foldl_or (qs : List Nat) (a i : Nat) :
    (qs.foldl (fun a q => a ||| 2 ^ q) a).testBit i = true ↔ a.testBit i = true ∨ i ∈ qs := by
  induction qs generalizing a with
  | nil => simp
  | cons q qs ih =>
    rw [List.foldl_cons, ih, Nat.testBit_or, Nat.testBit_two_pow, Bool.or_eq_true, decide_eq_true_eq, List.mem_cons, or_assoc,
      eq_comm (a := q)]

theorem Ctx.testBit_maskOf (c : Ctx) (k : Nat) (ys : List (Nat × Nat)) (q : Nat) :
    (c.maskOf k (ys.map (·.1))).testBit q = true ↔ q < 32 * k ∧ ∃ y ∈ ys, y.1 % c.segSize = q := by
  rw [Ctx.maskOf, testBit_foldl_or]
  simp only [Nat.zero_testBit, Bool.false_eq_true, false_or, List.mem_filter, List.map_map, List.mem_map, Function.comp_apply,
    decide_eq_true_eq]
  exact and_comm

/-- A mask is known by its bits. -/
theorem Ctx.maskOf_eq {c : Ctx} {k m : Nat} {xs ys : List (Nat × Nat)} (hp : ys.Perm xs)
    (hm : ∀ q, m.testBit q = true ↔ q < 32 * k ∧ ∃ y ∈ xs, y.1 % c.segSize = q) : c.maskOf k (ys.map (·.1)) = m := by
  refine Nat.eq_of_testBit_eq fun q => Bool.eq_iff_iff.mpr ?_
  rw [Ctx.testBit_maskOf, hm]
  simp only [hp.mem_iff]

/-- More than half (R148). -/
theorem lt_two_mul_iff {n yes : Nat} (h : yes ≤ n) : n < 2 * yes ↔ n - yes < yes := by omega

/-! ## The lowest of a segment (R149) -/

/-- Of some participants by ascending rank the first has the lowest place. -/
theorem Ctx.first_place_eq {c : Ctx} {rank m : Nat} {ys : List (Nat × Nat)} (hs : ys.Sublist (c.segment rank))
    (hmem : ∃ y ∈ ys, y.1 % c.segSize = m) (hle : ∀ y ∈ ys, m ≤ y.1 % c.segSize) :
    ((ys.map (·.1 % c.segSize)).head?).getD 0 = m := by
  obtain ⟨y, hy, rfl⟩ := hmem
  cases ys with
  | nil => cases hy
  | cons z zs =>
    refine Nat.le_antisymm ?_ (hle z List.mem_cons_self)
    have hzy : z.1 ≤ y.1 := by
      rcases List.mem_cons.mp hy with rfl | hy
      · exact le_rfl
      · exact List.rel_of_pairwise_cons ((c.segment_sorted rank).sublist hs) hy
    have hseg (u) (hu : u ∈ z :: zs) : u.1 / c.segSize = rank / c.segSize := (Ctx.mem_segment.mp (hs.subset hu)).2
    have hlt := mod_lt_mod_iff ((hseg y hy).trans (hseg z List.mem_cons_self).symm)
    exact not_lt.mp fun h => absurd (hlt.mp h) (not_lt.mpr hzy)

/-! ## Reductions of integers (R33, R150) -/

/-- A value gives back the code that it is of. -/
theorem wrap_valOf {t : Ty} {x : Nat} (hx : x < 2 ^ t.bits) : wrap t.bits (valOf t x) = x := by
  have hcode : wrap t.bits x = x := wrap_of_lt hx
  unfold valOf toSigned
  rw [Nat.mod_eq_of_lt hx]
  split
  · split
    · rw [wrap, Int.sub_emod_right]; exact hcode
    · exact hcode
  · exact hcode

theorem valOf_inj {t : Ty} {x y : Nat} (hx : x < 2 ^ t.bits) (hy : y < 2 ^ t.bits) (h : valOf t x = valOf t y) : x = y := by
  rw [← wrap_valOf hx, h, wrap_valOf hy]

namespace Combine

variable {k : Combine}

theorem one_of_int (hk : k.ty.isFloat = false) (a : Nat) : k.one a = a := by simp [one, hk]

theorem reduce_cons_of_int (hk : k.ty.isFloat = false) (x : Nat) (xs : List Nat) :
    k.reduce (x :: xs) = xs.foldl k.two x := by
  simp [reduce, hk, one_of_int hk]

theorem two_comm_of_int (hk : k.ty.isFloat = false) {x y : Nat} (hx : x < 2 ^ k.ty.bits) (hy : y < 2 ^ k.ty.bits) :
    k.two x y = k.two y x := by
  have hinj := valOf_inj hx hy
  rcases hop : k.op with _ | _ | _ | _ | _ | n <;> simp only [two, hop, hk, Bool.false_eq_true, if_false]
  case zero => rw [Nat.add_comm]
  case succ.zero => grind
  case succ.succ.zero => grind
  case succ.succ.succ.zero => exact Nat.and_comm _ _
  case succ.succ.succ.succ.zero => exact Nat.or_comm _ _
  case succ.succ.succ.succ.succ => exact Nat.xor_comm _ _

theorem two_right_comm_of_int (hk : k.ty.isFloat = false) {x y : Nat} (hx : x < 2 ^ k.ty.bits) (hy : y < 2 ^ k.ty.bits) (z : Nat) :
    k.two (k.two z x) y = k.two (k.two z y) x := by
  have hinj := valOf_inj hx hy
  rcases hop : k.op with _ | _ | _ | _ | _ | n <;> simp only [two, hop, hk, Bool.false_eq_true, if_false]
  case zero => rw [Nat.mod_add_mod, Nat.mod_add_mod, Nat.add_right_comm]
  case succ.zero => grind
  case succ.succ.zero => grind
  case succ.succ.succ.zero => exact Nat.and_right_comm _ _ _
  case succ.succ.succ.succ.zero => exact Nat.or_right_comm _ _ _
  case succ.succ.succ.succ.succ => exact Nat.xor_right_comm _ _ _

/-- A reduction of integers does not depend on the order of its values. -/
theorem reduce_perm_of_int (hk : k.ty.isFloat = false) {xs ys : List Nat} (hp : xs.Perm ys)
    (hx : ∀ x ∈ xs, x < 2 ^ k.ty.bits) : k.reduce xs = k.reduce ys := by
  induction hp with
  | nil => rfl
  | cons x hp _ =>
    obtain ⟨-, hx⟩ := List.forall_mem_cons.mp hx
    rw [reduce_cons_of_int hk, reduce_cons_of_int hk]
    exact hp.foldl_eq' (fun u hu v hv z => two_right_comm_of_int hk (hx u hu) (hx v hv) z) x
  | swap x y l =>
    obtain ⟨hy, hx⟩ := List.forall_mem_cons.mp hx
    rw [reduce_cons_of_int hk, reduce_cons_of_int hk, List.foldl_cons, List.foldl_cons,
      two_comm_of_int hk hy (List.forall_mem_cons.mp hx).1]
  | trans hp _ ih1 ih2 => exact (ih1 hx).trans (ih2 fun y hy => hx y (hp.mem_iff.mpr hy))

/-- A reduction by .add is the sum modulo 2^W. -/
theorem reduce_add_of_int (hk : k.ty.isFloat = false) (hop : k.op = 0) {xs : List Nat} (hx : ∀ x ∈ xs, x < 2 ^ k.ty.bits) :
    k.reduce xs = xs.sum % 2 ^ k.ty.bits := by
  have htwo (a b : Nat) : k.two a b = (a + b) % 2 ^ k.ty.bits := by simp [two, hop, hk]
  have hfold (ys : List Nat) (a : Nat) : ys.foldl k.two (a % 2 ^ k.ty.bits) = (a + ys.sum) % 2 ^ k.ty.bits := by
    induction ys generalizing a with
    | nil => rfl
    | cons y ys ih => rw [List.foldl_cons, htwo, Nat.mod_add_mod, ih, List.sum_cons, Nat.add_assoc]
  cases xs with
  | nil => simp [reduce, hk]
  | cons x xs =>
    rw [reduce_cons_of_int hk, List.sum_cons, ← hfold, Nat.mod_eq_of_lt (hx x List.mem_cons_self)]

/-- PairSum of four values splits at two, then at one (R33). -/
theorem reduce_four_of_float (hk : k.ty.isFloat = true) (hop : k.op = 0) (a b c d : Nat) :
    k.reduce [a, b, c, d] = k.two (k.two (k.one a) (k.one b)) (k.two (k.one c) (k.one d)) := by
  have hpair (n x y : Nat) : k.pairSum (n + 2) [x, y] = k.two (k.one x) (k.one y) := rfl
  have hlog : Nat.log2 3 = 1 := by decide
  have hsum : k.pairSum 5 [a, b, c, d] =
    k.two (k.pairSum 4 ([a, b, c, d].take (2 ^ Nat.log2 3))) (k.pairSum 4 ([a, b, c, d].drop (2 ^ Nat.log2 3))) := rfl
  rw [reduce, if_pos ⟨hk, hop⟩]
  refine hsum.trans ?_
  rw [hlog]
  exact congrArg₂ k.two (hpair 2 a b) (hpair 2 c d)

end Combine

/-! ## The obligation -/

/-- Settles O10: the model's sorted segment holds the participants of the statement, so counts, masks and the lowest place
agree; an integer operation is commutative on the codes of its type. -/
theorem crossThread : Obligations.CrossThread := by
  refine ⟨fun w => ?_, fun k xs ys hk hx hp => Combine.reduce_perm_of_int hk hp hx,
    fun k xs hk hop hx => Combine.reduce_add_of_int hk hop hx, fun k a b c d hk hop => Combine.reduce_four_of_float hk hop a b c d⟩
  refine ⟨?shfl, fun v hv => ?vote, fun v hv => ?matchx, ?red, ?scan⟩
  case shfl =>
    refine does_of_runCross (fun _ => rfl) fun c hc x _ => ?_
    subst hc
    simp only [Ctx.shflRank_bind_atRank]
    exact congrArg (Alu.val _ · none) (c.srcA_of_found _ _)
  case vote =>
    refine does_of_runCross (fun _ => rfl) fun c _ x _ => ?_
    have hS : max 1 c.b.widthReg = c.segSize := rfl
    have h := hv c x
    have hp := c.segment_perm x.1
    have hy := hp.filter fun y => (c.b.th y.2).pred w.a.toNat
    have hn := List.length_filter_le (fun y => (c.b.th y.2).pred w.a.toNat) (c.segment x.1)
    simp only [hS, ← hp.length_eq, ← hy.length_eq, ← hy.countP_eq] at h
    dsimp only
    rcases hk : w.modF 0 3 with _ | _ | _ | _ | _ | _ | k <;> simp only [hk] at h ⊢
    case zero => exact h.symm
    case succ.zero => rw [h, isEmpty_eq_length_beq]; rfl
    case succ.succ.zero => rw [h, isEmpty_eq_length_beq]
    case succ.succ.succ.zero => rw [h]; exact congrArg Alu.pred (decide_eq_decide.mpr (lt_two_mul_iff hn))
    case succ.succ.succ.succ.zero => exact h.symm
    case succ.succ.succ.succ.succ.zero =>
      rw [h, ← List.countP_eq_length_filter]
      refine congrArg (Alu.val 1 · none) (List.countP_congr fun y hy => ?_)
      have hseg := (Ctx.mem_segment.mp (List.mem_of_mem_filter hy)).2
      simpa using (mod_lt_mod_iff hseg).symm
    case succ.succ.succ.succ.succ.succ =>
      obtain ⟨m, hm, hbits⟩ := h
      rw [hm, Ctx.maskOf_eq hy hbits]
  case matchx =>
    refine does_of_runCross (fun _ => rfl) fun c hc x hx => ?_
    subst hc
    have hS : max 1 c.b.widthReg = c.segSize := rfl
    have h := hv c x
    have hp := c.segment_perm x.1
    have hy := hp.filter fun y => c.srcA y.2 == c.srcA x.2
    have ha (t : Nat) : (c.b.th t).reg c.w.a.toNat c.w.ty.regs % 2 ^ c.w.ty.bits = c.srcA t := rfl
    simp only [hS, ha, ← hp.length_eq, ← hy.length_eq, ← hy.mem_iff, ← hp.mem_iff] at h
    dsimp only
    rcases hk : c.w.modF 0 2 with _ | _ | k <;> simp only [hk] at h ⊢
    case zero =>
      obtain ⟨m, hm, hbits⟩ := h
      rw [hm]
      split at hbits
      · rename_i hall; rw [if_pos hall, hbits]
      · rename_i hall; rw [if_neg hall, Ctx.maskOf_eq (.refl _) hbits]
    case succ.zero =>
      obtain ⟨m, hm, hlow⟩ := h
      obtain ⟨hmem, hle⟩ := hlow (Ctx.mem_segment.mpr ⟨hx, rfl⟩)
      rw [hm, Ctx.first_place_eq List.filter_sublist hmem hle]
    case succ.succ => exact h.symm
  case red => exact does_of_runCross (fun _ => rfl) fun c hc x _ => by subst hc; rfl
  case scan =>
    refine does_of_runCross (fun _ => rfl) fun c hc x _ => ?_
    subst hc
    simp only [List.isEmpty_iff, beq_iff_eq]
    rfl

end Sys2Proof.Machine
end

section
/-! SUPPORT. SWR: the reels, the registers of the block, who may write (R41, R117, R350); O24. -/

namespace Sys2Proof.Machine

/-! ## Envelopes and pools -/

theorem State.env_modEnv {s : State} {n : Nat} {f : Envelope → Envelope} (hf : ∀ e, e.id = n → (f e).id = n) :
    (s.modEnv n f).env n = f (s.env n) := by
  unfold State.modEnv
  split
  · rename_i h
    have hp (e : Envelope) (he : (e.id == n) = true) : ((f e).id == n) = true := by simpa using hf e (by simpa using he)
    obtain ⟨e, he⟩ : ∃ e, s.envs.find? (·.id == n) = some e :=
      Option.isSome_iff_exists.mp (List.find?_isSome.mpr (List.any_eq_true.mp h))
    simp only [State.env, find?_updFirst_same _ f hp, he]
    rfl
  · rename_i h
    have he : s.envs.find? (·.id == n) = none := by simpa using h
    simp only [State.env, he, List.find?_append, Option.none_or, List.find?_cons, hf { id := n } rfl, beq_self_eq_true]
    rfl

theorem State.modEnv_congr {s : State} {n : Nat} {f g : Envelope → Envelope} (h : f (s.env n) = g (s.env n)) :
    s.modEnv n f = s.modEnv n g := by
  unfold State.modEnv
  split
  · rw [updFirst_congr (fun e : Envelope => e.id == n) f g s.envs fun e he => ?_]
    have hs : s.env n = e := by rw [State.env, he]; rfl
    rwa [hs] at h
  · rename_i hn
    have hs : s.env n = { id := n } := by rw [State.env, List.find?_eq_none.mpr (by simpa using hn)]; rfl
    rw [hs] at h
    rw [h]

theorem State.block?_modEnv (s : State) (n m : Nat) (f : Envelope → Envelope) : (s.modEnv n f).block? m = s.block? m := by
  rw [State.block?, State.modEnv_blocks]; rfl

@[simp] theorem Envelope.setPool_id (e : Envelope) (t : Bool) (n : Nat) : (e.setPool t n).id = e.id := by cases t <;> rfl
@[simp] theorem Envelope.pool_setPool (e : Envelope) (t : Bool) (n : Nat) : (e.setPool t n).pool t = n := by cases t <;> rfl
@[simp] theorem Envelope.pool_setPool_not (e : Envelope) (t : Bool) (n : Nat) : (e.setPool t n).pool (!t) = e.pool (!t) := by
  cases t <;> rfl

/-! ## Reels of a block -/

@[simp] theorem Block.reel_setReel (b : Block) (t : Bool) (x : DWord) : (b.setReel t x).reel t = x := by cases t <;> rfl
@[simp] theorem Block.reel_setReel_not (b : Block) (t : Bool) (x : DWord) : (b.setReel t x).reel (!t) = b.reel (!t) := by
  cases t <;> rfl
@[simp] theorem Block.shape_setReel (b : Block) (t : Bool) (x : DWord) : (b.setReel t x).shape = b.shape := rfl

@[simp] theorem Block.undue_clearDue (b : Block) (t : Bool) : (b.clearDue t).undue = b.undue := by
  unfold Block.clearDue
  split
  · rfl
  · split <;> rfl

theorem Block.shape_of_undue {b b' : Block} (h : b'.undue = b.undue) : b'.shape = b.shape := by
  have := congrArg Block.shape h; exact this

theorem Block.reel_of_undue {b b' : Block} (h : b'.undue = b.undue) (t : Bool) : b'.reel t = b.reel t := by
  have := congrArg (Block.reel · t) h; exact this

/-! ## Due points -/

theorem SameButDue.keeps {s u : State} (h : SameButDue s u) : Keeps s u := by
  intro n b hb
  have h1 := h.1 n
  rw [hb, Option.map_some, Option.map_eq_some_iff] at h1
  obtain ⟨b', hb', hu⟩ := h1
  exact ⟨b', hb', Block.shape_of_undue hu⟩

theorem SameButDue.mem {s u : State} (h : SameButDue s u) : u.mem = s.mem := by
  have := congrArg State.mem h.2; exact this

theorem SameButDue.env {s u : State} (h : SameButDue s u) (n : Nat) : u.env n = s.env n := by
  have := congrArg (State.env · n) h.2; exact this

/-- Two changes of a block that differ in its due point alone. -/
theorem sameButDue_modBlock {s : State} {n : Nat} {b : Block} {f g : Block → Block} (hb : s.block? n = some b)
    (hf : (f b).shape = b.shape) (h : (g b).undue = (f b).undue) : SameButDue (s.modBlock n f) (s.modBlock n g) := by
  have hid := State.block?_id hb
  have hfid : (f b).id = n := (Block.shape_id hf).trans hid
  have hgid : (g b).id = n := (Block.shape_id (Block.shape_of_undue h)).trans hfid
  rw [State.modBlock_const hb, State.modBlock_const (f := g) hb]
  refine ⟨fun m => ?_, rfl⟩
  by_cases hm : m = n
  · subst hm
    rw [State.block?_modBlock fun _ _ => hfid, State.block?_modBlock fun _ _ => hgid, hb]
    exact congrArg some h
  · rw [State.block?_modBlock_other hm fun _ _ => hfid, State.block?_modBlock_other hm fun _ _ => hgid]

/-- A block is due for a reel (R349). -/
def Block.dueBy (b : Block) (t : Bool) : Prop := ∃ d, b.due = some d ∧ (if t then d.treel else d.ireel) = true

/-- A due point that a block has is kept by one more reason. -/
theorem Block.dueBy_makeDue {b : Block} {t : Bool} (h : b.dueBy t) (i t' r : Bool) (now : Nat) :
    (b.makeDue i t' r now).dueBy t := by
  obtain ⟨d, hd, hr⟩ := h
  unfold Block.makeDue
  rw [hd]
  refine ⟨_, rfl, ?_⟩
  cases t <;> simp_all

theorem Block.dueBy_makeDue_self (b : Block) (t r : Bool) (now : Nat) : (b.makeDue (!t) t r now).dueBy t := by
  unfold Block.makeDue
  split <;> exact ⟨_, rfl, by cases t <;> simp⟩

theorem State.dueBy_recallGroup {s : State} {n : Nat} {t : Bool} (x : Block)
    (h : ∃ b, s.block? n = some b ∧ b.dueBy t) : ∃ b, (s.recallGroup x).block? n = some b ∧ b.dueBy t := by
  unfold State.recallGroup
  split
  · exact h
  · refine List.foldlRecOn (motive := fun u : State => ∃ b, u.block? n = some b ∧ b.dueBy t) (s.group x) _ h fun u hu y _ => ?_
    split
    · exact hu
    · obtain ⟨b, hb, hd⟩ := hu
      by_cases hn : n = y.id
      · subst hn
        exact ⟨_, by rw [State.block?_modBlock fun b h => by simpa using h, hb]; rfl, Block.dueBy_makeDue hd _ _ _ _⟩
      · exact ⟨b, by rw [State.block?_modBlock_other hn fun b h => by simpa using h, hb], hd⟩

/-- The block whose reel is lowered to a value: due for it when that empties the reel (R349, R350). -/
def Block.lowered (b : Block) (t : Bool) (v now : Nat) : Block :=
  if v == 0 && decide (0 < (b.reel t).toNat) then (b.setReel t (BitVec.ofNat 64 v)).makeDue (!t) t false now
  else b.setReel t (BitVec.ofNat 64 v)

theorem Block.undue_lowered (b : Block) (t : Bool) (v now : Nat) :
    (b.lowered t v now).undue = (b.setReel t (BitVec.ofNat 64 v)).undue := by
  unfold Block.lowered; split <;> simp

theorem Block.shape_lowered (b : Block) (t : Bool) (v now : Nat) : (b.lowered t v now).shape = b.shape :=
  (Block.shape_of_undue (b.undue_lowered t v now)).trans (b.shape_setReel _ _)

theorem Block.dueBy_lowered {b : Block} {t : Bool} {v : Nat} (hv : v = 0) (hr : 0 < (b.reel t).toNat) (now : Nat) :
    (b.lowered t v now).dueBy t := by
  rw [Block.lowered, if_pos (by simp [hv, hr])]
  exact Block.dueBy_makeDue_self _ _ _ _

/-! ## A write of a reel (R350) -/

/-- The reel of a block at a value, the difference taken from its envelope's pool or given back. -/
def State.reelAt (s : State) (b : Block) (t : Bool) (v : Nat) : State :=
  (s.modEnv b.cfg.envelope fun e => e.setPool t (e.pool t + (b.reel t).toNat - v)).modBlock b.id
    (·.setReel t (BitVec.ofNat 64 v))

section
variable {s : State} {b : Block} {t : Bool} {v : Nat} (hb : s.block? b.id = some b)
include hb

theorem State.setReel_none (h : (b.reel t).toNat + (s.env b.cfg.envelope).pool t < v) : s.setReel b.id t v = none := by
  simp only [State.setReel, hb]
  rw [if_pos (by omega), if_pos (by omega)]

/-- An increase is a payout of the difference. -/
theorem State.setReel_raise (hv : v < 2 ^ 64) (h : (b.reel t).toNat < v)
    (hp : v ≤ (b.reel t).toNat + (s.env b.cfg.envelope).pool t) :
    ∃ u, s.setReel b.id t v = some u ∧ SameButDue (s.reelAt b t v) u := by
  refine ⟨s.payout b.id t (v - (b.reel t).toNat), ?_, ?_⟩
  · simp only [State.setReel, hb]
    rw [if_pos h, if_neg (by omega)]
  · have hadd : min (v - (b.reel t).toNat) (2 ^ 64 - 1 - (b.reel t).toNat) = v - (b.reel t).toNat := by omega
    have hsum : b.reel t + BitVec.ofNat 64 (v - (b.reel t).toNat) = BitVec.ofNat 64 v := by
      refine BitVec.eq_of_toNat_eq ?_
      rw [BitVec.toNat_add, BitVec.toNat_ofNat, BitVec.toNat_ofNat]
      omega
    have hpool (p : Nat) : p + (b.reel t).toNat - v = p - (v - (b.reel t).toNat) := by omega
    simp only [State.payout, hb, hadd, State.reelAt, hpool]
    exact sameButDue_modBlock ((s.block?_modEnv _ _ _).trans hb) rfl (by rw [Block.undue_clearDue, hsum])

/-- The state after a decrease: the block lowered, its cluster group recalled when that makes it due (R349). -/
theorem State.setReel_of_le (h : v ≤ (b.reel t).toNat) :
    let b' := b.lowered t v s.clock.time
    let s' := (s.modEnv b.cfg.envelope fun e =>
      e.setPool t ((s.env b.cfg.envelope).pool t + ((b.reel t).toNat - v))).modBlock b.id fun _ => b'
    s.setReel b.id t v =
      some (if (v == 0 && decide (0 < (b.reel t).toNat)) && b.due.isNone then s'.recallGroup b' else s') := by
  simp only [State.setReel, hb, Block.lowered, State.modEnv_clock]
  exact if_neg (by omega)

/-- A decrease goes back to the pool; a reel that it empties makes the block due. -/
theorem State.setReel_lower (h : v ≤ (b.reel t).toNat) :
    ∃ u, s.setReel b.id t v = some u ∧ SameButDue (s.reelAt b t v) u ∧
      (v = 0 → 0 < (b.reel t).toNat → ∃ b', u.block? b.id = some b' ∧ b'.dueBy t) := by
  rw [State.setReel_of_le hb h]
  refine ⟨_, rfl, ?_⟩
  set s1 := s.modEnv b.cfg.envelope fun e => e.setPool t ((s.env b.cfg.envelope).pool t + ((b.reel t).toNat - v)) with hs1
  set b2 := b.lowered t v s.clock.time
  have hs1b : s1.block? b.id = some b := (s.block?_modEnv _ _ _).trans hb
  have hund : b2.undue = (b.setReel t (BitVec.ofNat 64 v)).undue := b.undue_lowered t v _
  have hbase : s.reelAt b t v = s1.modBlock b.id (·.setReel t (BitVec.ofNat 64 v)) := by
    rw [State.reelAt, hs1, State.modEnv_congr]
    rw [Nat.add_sub_assoc h]
  have hsame : SameButDue (s.reelAt b t v) (s1.modBlock b.id fun _ => b2) := hbase ▸ sameButDue_modBlock hs1b rfl hund
  have hfound : (s1.modBlock b.id fun _ => b2).block? b.id = some b2 := by
    have hid : b2.id = b.id := (Block.shape_id (Block.shape_of_undue hund)).trans rfl
    rw [State.block?_modBlock fun _ _ => hid, hs1b]; rfl
  split
  · exact ⟨hsame.trans (sameButDue_recallGroup _ _),
      fun hv hr => State.dueBy_recallGroup _ ⟨b2, hfound, Block.dueBy_lowered hv hr _⟩⟩
  · exact ⟨hsame, fun hv hr => ⟨b2, hfound, Block.dueBy_lowered hv hr _⟩⟩

/-- What stands after a write of a reel. -/
theorem State.reelAt_spec {u : State} (hv : v < 2 ^ 64) (hp : v ≤ (b.reel t).toNat + (s.env b.cfg.envelope).pool t)
    (h : SameButDue (s.reelAt b t v) u) :
    ∃ b', u.block? b.id = some b' ∧ u.mem = s.mem ∧ (b'.reel t).toNat = v ∧ b'.reel (!t) = b.reel (!t) ∧
      (u.env b.cfg.envelope).pool t + v = (s.env b.cfg.envelope).pool t + (b.reel t).toNat ∧
      (u.env b.cfg.envelope).pool (!t) = (s.env b.cfg.envelope).pool (!t) := by
  have henv : u.env b.cfg.envelope = (s.env b.cfg.envelope).setPool t ((s.env b.cfg.envelope).pool t + (b.reel t).toNat - v) :=
    (h.env _).trans (State.env_modEnv fun e he => by simpa using he)
  have hmem : u.mem = s.mem := by rw [h.mem, State.reelAt, State.modBlock_mem, State.modEnv_mem]
  have hblk := h.1 b.id
  rw [State.reelAt, State.block?_modBlock (f := (·.setReel t (BitVec.ofNat 64 v))) fun _ hx => hx, State.block?_modEnv, hb] at hblk
  obtain ⟨b', hb', hu⟩ := Option.map_eq_some_iff.mp hblk
  refine ⟨b', hb', hmem, ?_, ?_, ?_, ?_⟩
  · rw [Block.reel_of_undue hu, Block.reel_setReel, BitVec.toNat_ofNat, Nat.mod_eq_of_lt hv]
  · rw [Block.reel_of_undue hu, Block.reel_setReel_not]
  · rw [henv, Envelope.pool_setPool]; omega
  · rw [henv, Envelope.pool_setPool_not]

end

/-- A write of a reel keeps every block. -/
theorem keeps_setReel {s u : State} {n v : Nat} {t : Bool} (h : s.setReel n t v = some u) : Keeps s u := by
  cases hb : s.block? n with
  | none =>
    simp only [State.setReel, hb] at h
    cases h
    exact .refl s
  | some b =>
    obtain rfl := State.block?_id hb
    rcases Nat.lt_or_ge (b.reel t).toNat v with hlt | hle
    · have hu : u = s.payout b.id t (v - (b.reel t).toNat) := by
        simp only [State.setReel, hb, if_pos hlt] at h
        split at h <;> cases h
        rfl
      rw [hu, State.payout, hb]
      exact (keeps_modEnv _ _ _).trans
        (keeps_modBlock fun x _ => (Block.shape_of_undue (Block.undue_clearDue _ _)).trans (x.shape_setReel _ _))
    · rw [State.setReel_of_le hb hle] at h
      cases h
      have hput (f : Envelope → Envelope) (now : Nat) :
          Keeps s ((s.modEnv b.cfg.envelope f).modBlock b.id fun _ => b.lowered t v now) :=
        (keeps_modEnv _ _ _).trans
          (keeps_modBlock fun x hx => by rw [State.block?_modEnv, hb] at hx; cases hx; exact b.shape_lowered _ _ _)
      split
      · exact .after (keeps_recallGroup _ _) (hput _ _)
      · exact hput _ _

/-! ## The registers of the block (R20, R28, R43, R113, R371) -/

theorem extractLsb'_ofNat_nibble (x : Nat) {k : Nat} (hk : k < 8) :
    (BitVec.ofNat 32 x).extractLsb' (4 * k) 4 = BitVec.ofNat 4 (x / 16 ^ k) := by
  have h16 : 16 ^ k = 2 ^ (4 * k) := by rw [Nat.pow_mul]
  refine BitVec.eq_of_getLsbD_eq fun i hi => ?_
  have hlt : 4 * k + i < 32 := by omega
  rw [BitVec.getLsbD_extractLsb', BitVec.getLsbD_ofNat, BitVec.getLsbD_ofNat, h16, Nat.testBit_div_two_pow, Nat.add_comm i]
  simp [hi, hlt]

/-- A write of %xstat sets the status of each accumulator and no N. -/
theorem Block.xs_swr_xstat (b : Block) (x : Nat) {k : Nat} (hk : k < 8) :
    (b.swr 0x27 x).xs.getD k {} = { n := (b.xs.getD k {}).n, st := BitVec.ofNat 4 (x / 16 ^ k) } := by
  rw [← extractLsb'_ofNat_nibble x hk]
  simp [Block.swr, List.getD_eq_getElem?_getD, hk]

@[simp] theorem Block.shape_swr (b : Block) (n x : Nat) : (b.swr n x).shape = b.shape := by
  unfold Block.swr
  dsimp only
  split <;> rfl

/-! ## Who may write (R41) -/

theorem accessFault_of_may {a : Access} {p : Bool} (h : a = .all ∨ (a = .handler ∧ p = true)) : accessFault a p = none := by
  rcases h with rfl | ⟨rfl, rfl⟩ <;> rfl

theorem accessFault_unprivileged {a : Access} {p : Bool} (ha : a = .handler) (hp : p = false) :
    accessFault a p = some .accessViolation := by
  subst ha hp; rfl

theorem accessFault_nobody {a : Access} (p : Bool) (ha : a = .nobody) : accessFault a p = some .reservedField := by
  subst ha; rfl

/-! ## Registers of each thread -/

/-- A seed of 0 is written as 1 (R25). -/
theorem seed_of_narrow {y : Nat} (hy : y < 2 ^ 32) :
    (if BitVec.ofNat 32 y = 0#32 then 1#32 else BitVec.ofNat 32 y) = if y = 0 then 1#32 else BitVec.ofNat 32 y := by
  have h : BitVec.ofNat 32 y = 0#32 ↔ y = 0 := by
    rw [← BitVec.toNat_inj, BitVec.toNat_ofNat, Nat.mod_eq_of_lt hy]; rfl
  simp only [h]

/-- Threads one after another whose fates do not depend on the state, and none of which issues again. -/
theorem State.eachOf_of_fate {xs : List (Nat × Nat)} (hn : xs.Nodup) {g : State → Nat × Nat → State} {k : Nat × Nat → Fate}
    (hk : ∀ x, k x ≠ .again) (s : State) :
    s.eachOf xs (fun s x => (g s x, k x)) = (xs.foldl g s, xs.map fun x => (x.2, k x)) := by
  have hg : turnBy (fun s x => (g s x, k x)) = g := by
    funext s x
    exact if_neg (hk x)
  rw [State.eachOf_eq hn, hg]

/-- A thread's write of %flags, where the value keeps the field rule (R69). -/
def Ctx.putFlags (c : Ctx) (s : State) (x : Nat × Nat) : State :=
  if swrValue c x.2 false < 4096 then s.modTh c.iss.blk x.2 fun th => th.setFlags (BitVec.ofNat 32 (swrValue c x.2 false)) else s

def Ctx.flagsFate (c : Ctx) (x : Nat × Nat) : Fate :=
  if swrValue c x.2 false < 4096 then .done else .trap { cause := .reservedField }

theorem Ctx.putFlags_eq (c : Ctx) (s : State) (x : Nat × Nat) :
    (if fieldRule 0x05 (swrValue c x.2 false) = true then
        (s.modTh c.iss.blk x.2 fun th => th.setFlags (BitVec.ofNat 32 (swrValue c x.2 false)), Fate.done)
      else (s, .trap { cause := .reservedField })) = (c.putFlags s x, c.flagsFate x) := by
  have h : fieldRule 0x05 (swrValue c x.2 false) = true ↔ swrValue c x.2 false < 4096 := decide_eq_true_iff
  simp only [h, Ctx.putFlags, Ctx.flagsFate]
  split <;> rfl

theorem Ctx.flagsFate_ne_again (c : Ctx) (x : Nat × Nat) : c.flagsFate x ≠ .again := by
  unfold Ctx.flagsFate
  split <;> exact Fate.noConfusion

theorem Ctx.keeps_putFlags (c : Ctx) (s : State) (x : Nat × Nat) : Keeps s (c.putFlags s x) := by
  unfold Ctx.putFlags
  split
  · exact keeps_modTh _ _ _ _
  · exact .refl s

/-- Settles O24: by register, the meaning of SWR taken at the branch that the register and the issue's right select; a reel
is written by a payout or by a return to the pool. -/
theorem specialWrites : Obligations.SpecialWrites := by
  refine ⟨fun w r hr => ⟨fun hn => ?seed, fun hn => ?flags, fun h4 h5 h20 h21 t => ⟨?put, ?refused⟩,
    fun hn t after => ⟨?reel, ?quota⟩, ?unprivileged⟩, fun w hw => ?nobody, fun b x => ?values,
    fun s blk b t v hb hv => ?pool⟩
  case seed =>
    have hwide : r.wide = false := by have h := hr; rw [hn] at h; cases h; rfl
    refine does_of_runIssue (fun _ => rfl) (fun s iss b _ hmay => ?_) fun _ _ b h _ => ⟨b, h.found, fun _ k => k⟩
    simp only [hr, accessFault_of_may hmay, if_pos hn, hwide]
    refine Prod.ext rfl (List.map_congr_left fun x _ => ?_)
    exact congrArg (fun y => (x.2, Fate.done [.seed y])) (seed_of_narrow (Nat.mod_lt _ (by decide)))
  case flags =>
    have hflags := hr
    rw [hn] at hflags
    cases hflags
    have h4 : ¬ w.d.toNat = 0x04 := by omega
    refine does_of_runIssue (fun _ => rfl) (fun s iss b h hmay => ?_) fun s iss b h _ => ?_
    · simp only [hr, accessFault_of_may hmay, if_neg h4, if_pos hn, Ctx.putFlags_eq]
      exact State.eachOf_of_fate ((h.nodup_ths.filter _).filter _) (Ctx.flagsFate_ne_again _) s
    · exact (Keeps.foldl (Ctx.keeps_putFlags (ctxOf iss 0x01D w b)) (ctxOf iss 0x01D w b).on s).block h.found
  case put =>
    refine does_of_modBlock (g := fun c b => b.swr w.d.toNat _) (fun _ => rfl) ?_ fun _ _ => Block.shape_swr _ _ _
    rintro s iss b - ⟨hmay, ⟨ht, hle⟩, hok⟩
    have hok : fieldRule w.d.toNat (swrValue (ctxOf iss 0x01D w b) (t (ctxOf iss 0x01D w b)) r.wide) = true := hok
    simp only [hr, accessFault_of_may hmay, if_neg h4, if_neg h5, h20, h21, or_self, if_false, Ctx.maxBy_on ht hle, if_pos hok]
    rfl
  case refused =>
    refine does_of_allTrap (fun _ => rfl) ?_
    rintro s iss b - ⟨hmay, ⟨ht, hle⟩, hok⟩
    have hok : ¬ fieldRule w.d.toNat (swrValue (ctxOf iss 0x01D w b) (t (ctxOf iss 0x01D w b)) r.wide) = true :=
      Bool.eq_false_iff.mp hok
    simp only [hr, accessFault_of_may hmay, if_neg h4, if_neg h5, h20, h21, or_self, if_false, Ctx.maxBy_on ht hle, if_neg hok]
  case reel =>
    have h4 : ¬ w.d.toNat = 0x04 := by omega
    have h5 : ¬ w.d.toNat = 0x05 := by omega
    refine does_of_effect (fun _ => rfl) ?_ fun s iss b h hok => (keeps_setReel hok.2.2).block h.found
    rintro s iss b - ⟨hmay, ⟨ht, hle⟩, hset⟩
    have hset : s.setReel (ctxOf iss 0x01D w b).iss.blk (w.d.toNat == 0x21)
      (swrValue (ctxOf iss 0x01D w b) (t (ctxOf iss 0x01D w b)) r.wide) = some (after (ctxOf iss 0x01D w b) s) := hset
    simp only [hr, accessFault_of_may hmay, if_neg h4, if_neg h5, if_pos hn, Ctx.maxBy_on ht hle, hset]
  case quota =>
    have h4 : ¬ w.d.toNat = 0x04 := by omega
    have h5 : ¬ w.d.toNat = 0x05 := by omega
    refine does_of_allTrap (fun _ => rfl) ?_
    rintro s iss b - ⟨hmay, ⟨ht, hle⟩, hset⟩
    have hset : s.setReel (ctxOf iss 0x01D w b).iss.blk (w.d.toNat == 0x21)
      (swrValue (ctxOf iss 0x01D w b) (t (ctxOf iss 0x01D w b)) r.wide) = none := hset
    simp only [hr, accessFault_of_may hmay, if_neg h4, if_neg h5, if_pos hn, Ctx.maxBy_on ht hle, hset]
  case unprivileged =>
    refine does_of_allTrap (fun _ => rfl) ?_
    rintro s iss b - ⟨hw, hp⟩
    simp only [hr, accessFault_unprivileged hw hp]
  case nobody =>
    refine does_of_allTrap (fun _ => rfl) fun s iss b _ _ => ?_
    cases hr : Sys2Proof.special w.d.toNat with
    | none => simp only [hr]
    | some r => simp only [hr, accessFault_nobody _ (show r.write = .nobody by simpa [hr] using hw)]
  case values =>
    exact ⟨decide_eq_true_iff, decide_eq_true_iff, by simp [fieldRule, and_assoc], decide_eq_true_iff, decide_eq_true_iff,
      decide_eq_true_iff, fun n hn => by fin_cases hn <;> rfl, rfl, rfl, ⟨rfl, rfl, fun k hk => b.xs_swr_xstat x hk⟩,
      rfl, rfl, rfl, rfl, rfl, rfl, rfl, rfl, rfl, rfl, rfl, rfl, rfl⟩
  case pool =>
    obtain rfl := State.block?_id hb
    refine ⟨State.setReel_none hb, fun hp => ?_⟩
    rcases Nat.lt_or_ge (b.reel t).toNat v with h | h
    · obtain ⟨u, hu, hs⟩ := State.setReel_raise hb hv h hp
      obtain ⟨b', h1, h2, h3, h4, h5, h6⟩ := State.reelAt_spec hb hv hp hs
      exact ⟨u, b', hu, h1, h2, h3, h4, h5, h6, fun h0 => absurd h (by omega)⟩
    · obtain ⟨u, hu, hs, hd⟩ := State.setReel_lower hb h
      obtain ⟨b', h1, h2, h3, h4, h5, h6⟩ := State.reelAt_spec hb hv hp hs
      refine ⟨u, b', hu, h1, h2, h3, h4, h5, h6, fun h0 hr => ?_⟩
      obtain ⟨b2, hb2, hdue⟩ := hd h0 hr
      rw [h1] at hb2
      cases hb2
      exact hdue

end Sys2Proof.Machine
end

section
/-! SUPPORT. Issues that have no effect: no guard is true, or a static operand lies out of bounds (R38, R39); O13. -/

namespace Sys2Proof.Machine

/-! ## Errors that no thread of an issue meets -/

theorem State.heal_of_none {s : State} {p : ErrUnit → Bool} (hp : ∀ u, p u = false) : s.heal p = s := by
  unfold State.heal
  split
  · rfl
  · simp only [hp, Bool.not_false, List.filter_true]

theorem State.correctUnits_of_none {s : State} {p : ErrUnit → Bool} (die : Nat) (hp : ∀ u, p u = false) :
    s.correctUnits die p = s := by
  have hnil : s.health.soft.filter p = [] := List.filter_eq_nil_iff.mpr fun u _ => by simp [hp u]
  rw [State.correctUnits, hnil, List.foldl_nil]

theorem Ctx.readsUnit_of_on_nil {c : Ctx} (h : c.on = []) (u : ErrUnit) : c.readsUnit u = false := by
  simp [Ctx.readsUnit, h]

theorem Ctx.putsUnit_of_on_nil {c : Ctx} (h : c.on = []) (u : ErrUnit) : c.putsUnit u = false := by
  simp [Ctx.putsUnit, h]

theorem State.noteEarly_of_sound {s : State} {c : Ctx} {ts : List (Nat × TrapInfo)}
    (h : ∀ t ∈ ts, t.2.cause ≠ .uncorrectedData) : s.noteEarly c ts = s := by
  have hany : (ts.any fun t => t.2.cause == .uncorrectedData) = false := by
    simpa [List.any_eq_false] using h
  rw [State.noteEarly, hany]
  rfl

/-! ## An issue whose meaning is not reached -/

/-- An issue each of whose active threads has trapped before the meaning comes to those traps alone. -/
theorem State.runIssue_of_early {s : State} {iss : Issue} {op : Nat} {w : CWord} {b : Block} {ts : List (Nat × TrapInfo)}
    {act : Ctx → State → State × List (Nat × Fate)} (hcur : s.cur = some iss)
    (found : (s.arrive iss op).block? iss.blk = some b) (room : (ctxOf iss op w b).flagFull = false)
    (early : (s.arrive iss op).early (ctxOf iss op w b) = ts)
    (covers : ∀ x ∈ (ctxOf iss op w b).act, ∃ t ∈ ts, t.1 = x.2) (sound : ∀ t ∈ ts, t.2.cause ≠ .uncorrectedData) :
    s.runIssue op w act = (s.arrive iss op).finish (ctxOf iss op w b) (ts.map fun t => (t.1, .trap t.2)) := by
  have hact : ((ctxOf iss op w b).act.filter fun x => !ts.any (·.1 == x.2)) = [] := by
    refine List.filter_eq_nil_iff.mpr fun x hx => ?_
    obtain ⟨t, ht, e⟩ := covers x hx
    have hany : (ts.any (·.1 == x.2)) = true := List.any_eq_true.mpr ⟨t, ht, by simp [e]⟩
    simp [hany]
  have hon : ((ctxOf iss op w b).on.filter fun x => !ts.any (·.1 == x.2)) = [] :=
    List.sublist_nil.mp (hact ▸ List.filter_sublist.filter _)
  simp only [State.runIssue, State.runIssueOf, hcur, found, room, early, noteEarly_of_sound sound, hact, hon,
    Bool.false_eq_true, if_false, List.isEmpty_nil, if_true, List.filter_nil, List.map_nil, List.all_nil, List.nil_append]
  rw [heal_of_none (Ctx.putsUnit_of_on_nil rfl), correctUnits_of_none _ (Ctx.readsUnit_of_on_nil rfl)]
  rfl

/-- Where no thread stands inside a clause that the word may not follow, an operand out of bounds traps every active
thread. -/
theorem State.early_of_static {s : State} {iss : Issue} {op : Nat} {w : CWord} {b : Block}
    (place : clauseEnding op w = true → ∀ x ∈ iss.ths, (b.th x.2).inClause ≤ 1)
    (static : staticOk b.cfg iss.handler op w = false) :
    s.early (ctxOf iss op w b) = (ctxOf iss op w b).act.map fun x => (x.2, { cause := .regIndex }) := by
  set c := ctxOf iss op w b with hc
  have hpos : c.iss.ths.filter (fun x => clauseEnding c.op c.w && decide (1 < (c.b.th x.2).inClause)) = [] := by
    refine List.filter_eq_nil_iff.mpr fun x hx => ?_
    simp only [Bool.and_eq_true, decide_eq_true_eq, not_and, not_lt]
    exact fun h => place h x hx
  have hst : staticOk c.b.cfg c.iss.handler c.op c.w = false := static
  unfold State.early
  simp only [hpos, hst, List.contains_nil, Bool.not_false, List.filter_true, if_true, List.map_nil, List.nil_append,
    Option.map_some, List.filterMap_eq_map']

end Sys2Proof.Machine
end

section
/-! SUPPORT. A block behind which no child runs inline stays so when its threads trap; O13. -/

namespace Sys2Proof.Machine

/-! ## Blocks without an inline child (R188) -/

/-- No child runs inline for the block of a number. -/
def State.Childless (n : Nat) (s : State) : Prop := ∀ b, s.block? n = some b → b.inline = none

variable {n : Nat} {s t : State}

theorem State.Childless.of_blocks (h : s.Childless n) (e : t.blocks = s.blocks) : t.Childless n := by
  unfold State.Childless State.block? at h ⊢
  rwa [e]

theorem State.Childless.modBlock (h : s.Childless n) {f : Block → Block} (hid : ∀ b, (f b).id = b.id)
    (hf : ∀ b, b.inline = none → (f b).inline = none) : (s.modBlock n f).Childless n := by
  intro b hb
  rw [State.block?_modBlock fun b hb => (hid b).trans hb, Option.map_eq_some_iff] at hb
  obtain ⟨b0, hb0, rfl⟩ := hb
  exact hf b0 (h b0 hb0)

theorem State.Childless.mapBlocks (h : s.Childless n) {f : Block → Block} (e : t.blocks = s.blocks.map f)
    (hid : ∀ b, (f b).id = b.id) (hf : ∀ b, b.inline = none → (f b).inline = none) : t.Childless n := by
  intro b hb
  have hp : ((fun x : Block => x.id == n) ∘ f) = fun x => x.id == n := funext fun x => by simp [hid]
  rw [State.block?, e, List.find?_map, hp, Option.map_eq_some_iff] at hb
  obtain ⟨b0, hb0, rfl⟩ := hb
  exact hf b0 (h b0 hb0)

theorem State.Childless.foldl {α : Type} {f : State → α → State} (hf : ∀ s x, s.Childless n → (f s x).Childless n)
    (xs : List α) (h : s.Childless n) : (xs.foldl f s).Childless n := by
  induction xs generalizing s with
  | nil => exact h
  | cons x xs ih => exact ih (hf s x h)

theorem State.Childless.wake (h : s.Childless n) (p : Parked → Bool) : (s.wake p).Childless n :=
  h.mapBlocks rfl (fun _ => rfl) fun _ h => h

theorem State.Childless.writePa (h : s.Childless n) (pa : Nat) (bs : List Byte) : (s.writePa pa bs).Childless n := by
  unfold State.writePa
  refine State.Childless.wake ?_ _
  exact State.Childless.of_blocks h (State.heal_blocks _ _)

theorem State.Childless.unwait (h : s.Childless n) (th : Thread) : (s.unwait th).Childless n := by
  have hdrop (pa k : Nat) : (if s.valPa pa 2 = 0 then s else s.putPa pa 2 k).Childless n := by
    split
    · exact h
    · exact h.writePa _ _
  unfold State.unwait
  split
  · dsimp only
    split
    · exact h
    · split
      · exact hdrop _ _
      · exact hdrop _ _
      · exact hdrop _ _
      · exact h
  all_goals exact h

theorem State.Childless.endTask (h : s.Childless n) (task : Nat) (e : Ending) : (s.endTask task e).Childless n := by
  unfold State.endTask
  dsimp only
  refine State.Childless.mapBlocks ?_ rfl ?_ ?_
  · refine State.Childless.foldl (fun s t hs => ?_) _ (.foldl (fun s th hs => hs.unwait th) _ h)
    exact hs.of_blocks (State.modTask_blocks _ _ _)
  · intro b
    split <;> rfl
  · intro b hb
    split
    · rfl
    · exact hb

theorem State.Childless.killContext (h : s.Childless n) (b : Block) (cause : Nat) (addr : DWord) (off third : Nat)
    (die : Option Nat) : (s.killContext b cause addr off third die).Childless n := by
  unfold State.killContext
  split
  · exact h
  · split
    · exact h
    · exact .endTask (h.of_blocks (State.event_blocks _ _ _ _ _ _ _)) _ _

theorem State.Childless.engineWrite (h : s.Childless n) (core env : Nat) (va : DWord) (eats : Bool) (bss : List (List Byte)) :
    (s.engineWrite core env va eats bss).1.Childless n := by
  unfold State.engineWrite
  split
  · exact .foldl (fun s p h => .writePa (.of_blocks h (State.takeLines_blocks _ _ _)) _ _) _ h
  · exact h

theorem State.Childless.startWalk (h : s.Childless n) (die env : Nat) (va : DWord) (k : Kind) :
    (s.startWalk die env va k).1.Childless n := by
  unfold State.startWalk
  dsimp only
  split <;> exact h

/-! ## Trap entry (R368, R373, R376) -/

theorem State.Childless.putFrame (h : s.Childless n) (level : Nat) (bs : List Byte) : (s.putFrame n level bs).Childless n := by
  unfold State.putFrame
  split
  · exact h
  · dsimp only
    split
    · exact h.modBlock (fun _ => rfl) fun _ h => h
    · split
      all_goals
        rename_i he
        have hw := he ▸ h.engineWrite _ _ _ _ _
      · exact hw.modBlock (fun _ => rfl) fun _ h => h
      · exact hw.modBlock (fun _ => rfl) fun _ h => h
      · exact (hw.startWalk _ _ _ _).modBlock (fun _ => rfl) fun _ h => h

theorem State.Childless.startHandler (h : s.Childless n) (level : Nat) : (s.startHandler n level).Childless n := by
  unfold State.startHandler
  split
  · exact h
  · dsimp only
    split
    · exact h.killContext _ _ _ _ _ _
    · unfold State.writeFrame
      split
      · exact h.modBlock (fun _ => rfl) fun _ h => h
      · refine State.Childless.putFrame ?_ _ _
        exact h.modBlock (fun _ => rfl) fun _ h => h

theorem State.Childless.enter1 (h : s.Childless n) (k : Held) : (s.enter1 n k).Childless n := by
  refine State.Childless.startHandler ?_ _
  exact h.modBlock (fun _ => rfl) fun _ h => h

theorem State.Childless.handlerTrap (h : s.Childless n) (i : TrapInfo) : (s.handlerTrap n i).Childless n := by
  unfold State.handlerTrap
  split
  · exact h
  · split
    · refine State.Childless.startHandler ?_ _
      exact h.modBlock (fun _ => rfl) fun _ h => h
    · exact h.killContext _ _ _ _ _ _

theorem Block.inline_foldl_modTh (f : Thread → Thread) (ts : List Nat) (b : Block) :
    (ts.foldl (fun b t => b.modTh t f) b).inline = b.inline := by
  have h := congrArg Block.inline (b.modThs_frame (fun t => t) (fun _ => f) ts)
  exact h

theorem Block.inline_stop (b : Block) (ts : List Nat) : (b.stop ts).inline = b.inline :=
  Block.inline_foldl_modTh _ ts b

theorem State.Childless.trapThreads (h : s.Childless n) (ts : List (Nat × TrapInfo)) : (s.trapThreads n ts).Childless n := by
  have hid (ts : List Nat) (b : Block) : (b.stop ts).id = b.id := Block.shape_id (b.shape_stop ts)
  unfold State.trapThreads
  split
  · exact h
  · exact h
  · dsimp only
    split
    · exact h.modBlock (fun b => Block.shape_id (Block.shape_foldl_modTh (fun t => t) _ _ b))
        fun b hb => (Block.inline_foldl_modTh _ _ b).trans hb
    have hstop (xs : List Nat) := h.modBlock (hid xs) fun b hb => (b.inline_stop xs).trans hb
    split
    · exact hstop _
    · split
      · exact (hstop _).modBlock (fun _ => rfl) fun _ h => h
      · refine State.Childless.enter1 ?_ _
        exact (hstop _).modBlock (fun _ => rfl) fun _ h => h

theorem State.Childless.haltThreads (h : s.Childless n) (hd : Bool) (ts : List (Nat × TrapInfo)) :
    (s.haltThreads n hd ts).Childless n := by
  unfold State.haltThreads
  split
  · exact h
  · split
    · exact h.handlerTrap _
    · exact h.trapThreads _

/-- Of traps that retire no thread, an issue makes a stop alone. -/
theorem State.conclude_of_traps {s : State} {c : Ctx} {fs : List (Nat × Fate)}
    (h : ∀ f ∈ fs, ∃ t, f.2 = .trap t ∧ laneOffCause t.cause = false) :
    ∃ ts, s.conclude c fs = s.haltThreads c.iss.blk c.iss.handler ts := by
  have hr : ∀ f ∈ c.ranked fs, ∃ t, f.2 = .trap t ∧ laneOffCause t.cause = false := by
    intro f hf
    obtain ⟨x, -, hx⟩ := List.mem_filterMap.mp hf
    exact h f (List.mem_of_find?_eq_some hx)
  have hwait : ((c.ranked fs).any fun f => f.2.waits) = false := by
    refine List.any_eq_false.mpr fun f hf => ?_
    obtain ⟨t, e, -⟩ := hr f hf
    simp [e, Fate.waits]
  have hexit : ((c.ranked fs).filter fun f => f.2 == .exit) = [] := by
    refine List.filter_eq_nil_iff.mpr fun f hf => ?_
    obtain ⟨t, e, -⟩ := hr f hf
    simp [e]
  have hretire (off : Bool) : pickFates (Fate.retires? off) (c.ranked fs) = [] := pickFates_eq_nil _ _ fun f hf => by
    obtain ⟨t, e, hl⟩ := hr f hf
    simp [e, Fate.retires?, hl]
  unfold State.conclude
  simp only [hwait, hexit, hretire, Bool.false_eq_true, if_false, List.map_nil, State.exitThreads_nil,
    State.retireThreads_nil]
  exact ⟨_, rfl⟩

/-! ## TSPAWN -/

theorem State.saveProducer_of_childless (h : s.Childless n) : s.saveProducer n = s := by
  unfold State.saveProducer
  split
  · rfl
  · rename_i b hb
    simp [h b hb]

/-- After its issue TSPAWN saves a block for which it has started a child. -/
theorem exec_tspawn {i : Instr} {w : CWord} (h : i.opWord = some (0x288, w)) :
    ∃ act, ∀ s : State, exec i s = .next ((s.runIssue 0x288 w act).saveProducer ((s.cur.map (·.blk)).getD 0)) := by
  cases i with
  | tspawn w' =>
    cases h
    exact ⟨_, fun _ => rfl⟩
  | _ => simp [Instr.opWord] at h

/-- An instruction answers what its issue comes to, where the issue leaves no child to run inline. -/
theorem exec_of_runIssue {i : Instr} {op : Nat} {w : CWord} (hi : i.opWord = some (op, w)) {s u : State} {iss : Issue}
    (hcur : s.cur = some iss) (hrun : ∀ act, s.runIssue op w act = u) (hu : op = 0x288 → u.Childless iss.blk) :
    exec i s = .next u := by
  by_cases ht : op = 0x288
  · subst ht
    obtain ⟨act, hexec⟩ := exec_tspawn hi
    rw [hexec, hrun, hcur]
    exact congrArg _ (State.saveProducer_of_childless (hu rfl))
  · obtain ⟨act, hexec⟩ := exec_runIssue hi ht
    rw [hexec, hrun]

/-- A block of an issue that retires has a child as before. -/
theorem Retires.childless {c : Ctx} {b : Block} {f : Nat × Nat → Fate} (h : Retires s t c b f) (hb : b.inline = none) :
    t.Childless c.iss.blk := by
  obtain ⟨b', hb', -, -, -, hframe⟩ := h.block
  have hin : b'.inline = b.inline := by have e := congrArg Block.inline hframe; exact e
  intro b2 hb2
  rw [hb'] at hb2
  cases hb2
  exact hin.trans hb

/-! ## The obligation -/

/-- Settles O13: the issue comes to the traps that its active threads take before the meaning, none where no guard is
true; what these leave of the block is no producer of an inline child. -/
theorem issuesWithoutEffect : Obligations.IssuesWithoutEffect := by
  refine ⟨fun i op w hi s iss b hinl hcur h hact => ?idle,
    fun i op w hi s iss b hinl hcur hb hn hh hplace _ hroom hst => ?outside⟩
  case idle =>
    have hr := State.settle1_retires (c := ctxOf iss op w b) (f := fun _ => .done) (fs := []) h.found h.nodup h.has
      (State.Runs.act_sublist iss op w b) (by rw [Ctx.actFates, hact]; rfl)
    refine ⟨_, exec_of_runIssue hi hcur (fun act => ?_) fun ht => hr.childless (hinl ht), hr⟩
    rw [State.runIssue_of_early hcur h.found h.room h.early_eq (by simp [hact]) (by simp), State.finish_eq]
    exact State.conclude_quiet _ _ _ (by simp)
  case outside =>
    let c : Ctx := { ctxOf iss op w b with on := (ctxOf iss op w b).act }
    let f : Nat × Nat → Fate := fun _ => .trap { cause := .regIndex }
    have hr := State.settle1_retires (c := c) (f := f) (fs := c.onFates f) hb hn hh (State.Runs.act_sublist iss op w b) (.refl _)
    refine ⟨_, exec_of_runIssue hi hcur (fun act => ?_) fun ht => ?_, hr⟩
    · rw [State.runIssue_of_early hcur hb hroom (State.early_of_static hplace hst)
        (fun x hx => ⟨_, List.mem_map_of_mem hx, rfl⟩) (List.forall_mem_map.mpr fun _ _ => Cause.noConfusion), List.map_map]
      exact State.finish_eq _ c _
    · obtain ⟨ts, e⟩ := State.conclude_of_traps (s := _) (c := c) (fs := c.onFates f) fun k hk => by
        obtain ⟨x, -, rfl⟩ := List.mem_map.mp hk
        exact ⟨_, rfl, rfl⟩
      rw [e]
      exact (hr.childless (hinl ht)).haltThreads _ _

end Sys2Proof.Machine
end

section
/-! SUPPORT. SRD: what it reads and who may read (R41, R117, R264); O23. -/

namespace Sys2Proof.Machine

/-- A register that the issue may read is one of the table, and its access does not fault (R41). -/
theorem access_of_may {who : Option Access} {p : Bool} (h : who = some .all ∨ (who = some .handler ∧ p = true)) :
    ∃ a, who = some a ∧ accessFault a p = none := by
  rcases h with h | ⟨h, hp⟩
  · exact ⟨.all, h, rfl⟩
  · exact ⟨.handler, h, accessFault_of_may (.inr ⟨rfl, hp⟩)⟩

/-- Settles O23: by the right of the issue and the promise that %time would pass, SRD's meaning is at one of its branches;
the value of a register is the row of its number. -/
theorem specialReads : Obligations.SpecialReads := by
  refine ⟨fun w => ⟨?read, ?promise, ?unprivileged, ?nobody⟩, fun s c rank tid => ?values⟩
  case read =>
    refine does_of_runIssue (fun _ => rfl) (fun s iss b _ hok => ?_) fun _ _ b h _ => ⟨b, h.found, fun _ k => k⟩
    obtain ⟨hmay, hfree⟩ := hok
    obtain ⟨a, ha, hnone⟩ := access_of_may hmay
    have hnow : (decide (w.a.toNat = 0x31) && s.uncheckedPromise (ctxOf iss 0x01C w b).iss.blk) = false := by
      simpa using hfree
    simp only [ha, hnone, hnow, Bool.false_eq_true, if_false]
    rfl
  case promise =>
    refine does_of_runIssue (fun _ => rfl) (fun s iss b _ hok => ?_) fun _ _ b h _ => ⟨b, h.found, fun _ k => k⟩
    obtain ⟨hmay, hn, hopen⟩ := hok
    obtain ⟨a, ha, hnone⟩ := access_of_may hmay
    have hwait : (decide (w.a.toNat = 0x31) && s.uncheckedPromise (ctxOf iss 0x01C w b).iss.blk) = true := by
      simpa using ⟨hn, hopen⟩
    simp only [ha, hnone, hwait, if_true]
    rfl
  case unprivileged =>
    refine does_of_allTrap (fun _ => rfl) fun s iss b _ hok => ?_
    obtain ⟨hwho, hp⟩ := hok
    simp only [hwho, accessFault_unprivileged rfl hp]
  case nobody =>
    refine does_of_allTrap (fun _ => rfl) fun s iss b _ hok => ?_
    rcases hok with hwho | hwho
    · simp only [hwho, accessFault_nobody _ rfl]
    · simp only [hwho]
  case values =>
    exact ⟨rfl, rfl, rfl, rfl, rfl, rfl, rfl, rfl, rfl, rfl, rfl, rfl, rfl, rfl, rfl, rfl, rfl, rfl, rfl, rfl⟩

end Sys2Proof.Machine
end

section
/-! SUPPORT. Events of a core: results, code lines, the former (R48, R54, R65, R211 to R226); O44. -/

namespace Sys2Proof.Machine

/-! ## Threads of a block -/

theorem Block.modTh_congr {b : Block} {t : Nat} {f g : Thread → Thread} (h : f (b.th t) = g (b.th t)) :
    b.modTh t f = b.modTh t g := by
  unfold Block.modTh
  split
  · rename_i ht
    rw [Block.th, if_pos ht] at h
    rw [h]
  · rename_i ht
    rw [Block.th, if_neg ht] at h
    refine congrArg (fun ts => { b with threads := ts }) ?_
    rw [List.modify_eq_set_getElem?, List.modify_eq_set_getElem?]
    rw [List.getD_eq_getElem?_getD] at h
    cases hg : b.threads[t]? with
    | none => rfl
    | some th => rw [hg] at h; exact congrArg _ h

/-- A thread that the block lacks stands as the default one, which the update must leave alone. -/
theorem Block.th_modTh {b : Block} {t : Nat} {f : Thread → Thread} (h : b.has t ∨ f {} = {}) :
    (b.modTh t f).th t = f (b.th t) := by
  by_cases hb : b.has t
  · exact b.th_modTh_same t f hb
  · have hf := h.resolve_left hb
    obtain ⟨hs, hl⟩ := not_or.mp hb
    have hl : b.threads.length ≤ t := not_lt.mp hl
    simp [Block.modTh, Block.th, hs, List.getD_eq_getElem?_getD, List.getElem?_eq_none hl, hf]

/-- One update of several threads of a block. -/
theorem Block.th_modThs_same {α : Type} (key : α → Nat) {f : Thread → Thread} (hf : ∀ th, f (f th) = f th) (xs : List α)
    (b : Block) (h : ∀ x ∈ xs, b.has (key x) ∨ f {} = {}) (n : Nat) :
    (b.modThs xs key fun _ => f).th n = if n ∈ xs.map key then f (b.th n) else b.th n := by
  induction xs generalizing b with
  | nil => rfl
  | cons x xs ih =>
    obtain ⟨h0, h1⟩ := List.forall_mem_cons.mp h
    have hrest := ih (b.modTh (key x) f) (by simpa using h1)
    unfold Block.modThs at hrest ⊢
    rw [List.foldl_cons, hrest]
    by_cases hn : n = key x
    · subst hn
      simp [Block.th_modTh h0, hf]
    · simp [Block.th_modTh_other b (key x) n f hn, hn]

theorem Block.plaits_modThs {α : Type} (key : α → Nat) (f : α → Thread → Thread) (xs : List α) (b : Block) :
    (b.modThs xs key f).plaits = b.plaits := by
  have h := congrArg Block.plaits (b.modThs_frame key f xs)
  exact h

/-! ## Results (R48) -/

/-- An outstanding result that meets the test arrives. -/
theorem Thread.arriveAt_of_outst {th : Thread} {k : Nat} {o : Outst} {p : Outst → Bool} (h : th.outst[k]? = some o)
    (hp : p o = true) : th.arriveAt p k = ({ th with outst := th.outst.eraseIdx k } : Thread).deliver o := by
  simp only [Thread.arriveAt, h, hp, if_true]

/-- Two arrivals that are one for the thread are one for the package. -/
theorem State.modTh_congr {s : State} {blk t : Nat} {b : Block} {f g : Thread → Thread} (hb : s.block? blk = some b)
    (h : f (b.th t) = g (b.th t)) : s.modTh blk t f = s.modTh blk t g :=
  State.modBlock_congr fun x hx => by
    rw [hb] at hx
    cases hx
    exact Block.modTh_congr h

/-! ## Code lines (R65) -/

theorem exec_lineFill {core launch line : Nat} {s : State} (h : line < 2 ^ 64) :
    exec (.lineFill core launch (BitVec.ofNat 64 line)) s = .next (s.fillLine core launch line) := by
  have hline : (BitVec.ofNat 64 line).toNat = line := by rw [BitVec.toNat_ofNat, Nat.mod_eq_of_lt h]
  show Host.Outcome.next (s.fillLine core launch (BitVec.ofNat 64 line).toNat) = _
  rw [hline]

section
variable {s u v : State} {core task line : Nat} {b : Block} {c : CodeLine}
  (hneed : (s.blocks.find? fun x => x.place.core == core && x.task == task && x.place.resident && x.needsLine line) = some b)
  (halign : line % 64 = 0) (hcold : s.lineCached core task line = false) (hread : s.readLine b line = (u, some c))
include hneed halign hcold hread

/-- A line that a thread needs, read and filled, is cached, and the next one prefetched after it. -/
theorem State.fillLine_filled {d : CodeLine} (hfill : u.fillWith c = (v, some d)) :
    s.fillLine core task line =
      if d.fault.isSome then v.cacheLine d else (v.cacheLine d).prefetchLine b line d.bytes := by
  unfold State.fillLine
  simp only [hneed, halign, hcold, hread, hfill, ne_eq, not_true_eq_false, Bool.false_eq_true, or_self, if_false]

/-- A line whose fill stays open. -/
theorem State.fillLine_open (hfill : u.fillWith c = (v, none)) : s.fillLine core task line = v := by
  unfold State.fillLine
  simp only [hneed, halign, hcold, hread, hfill, ne_eq, not_true_eq_false, Bool.false_eq_true, or_self, if_false]

end

/-! ## Pools (R212 to R215) -/

theorem State.block?_refreshPools (s : State) (blk n : Nat) : (s.refreshPools blk).block? n = s.block? n := by
  unfold State.refreshPools
  split <;> rfl

theorem sortBy_perm {α : Type} (le : α → α → Bool) (xs : List α) : (sortBy le xs).Perm xs := by
  rw [sortBy_eq_insertionSort]
  exact List.perm_insertionSort _ _

theorem Block.nodup_pool (b : Block) (pc : DWord) (group : Option Nat) : (b.pool pc group).Nodup :=
  (sortBy_perm _ _).nodup_iff.mpr (List.nodup_range.filter _)

/-- The threads that a plait may take besides the oldest: of a pool of more than four plaits those of the section first. -/
def restOf (rest : List Nat) (sect : Nat) (many : Bool) : List Nat :=
  if many then rest.filter (· % 4 == sect) ++ rest.filter (· % 4 != sect) else rest

theorem restOf_perm (rest : List Nat) (sect : Nat) (many : Bool) : (restOf rest sect many).Perm rest := by
  unfold restOf
  split
  · exact List.filter_append_perm _ _
  · exact .refl _

theorem pickMembers_cons (t : Nat) (rest : List Nat) (sect width cap : Nat) :
    pickMembers (t :: rest) sect width cap =
      t :: (restOf rest sect (decide (4 * width < (t :: rest).length))).take (cap - 1) := by
  simp only [pickMembers, restOf, decide_eq_true_eq]

theorem length_pickMembers {t : Nat} {rest : List Nat} {sect width cap : Nat} (hcap : 1 ≤ cap) :
    (pickMembers (t :: rest) sect width cap).length = min (rest.length + 1) cap := by
  rw [pickMembers_cons, List.length_cons, List.length_take, (restOf_perm rest sect _).length_eq]
  omega

theorem pickMembers_subset {t : Nat} {rest : List Nat} {sect width cap : Nat} :
    pickMembers (t :: rest) sect width cap ⊆ t :: rest := by
  rw [pickMembers_cons]
  exact List.cons_subset_cons _ fun x hx => (restOf_perm rest sect _).subset (List.mem_of_mem_take hx)

theorem mem_pickMembers_head (t : Nat) (rest : List Nat) (sect width cap : Nat) :
    t ∈ pickMembers (t :: rest) sect width cap := by
  rw [pickMembers_cons]
  exact List.mem_cons_self

theorem nodup_pickMembers {t : Nat} {rest : List Nat} {sect width cap : Nat} (h : (t :: rest).Nodup) :
    (pickMembers (t :: rest) sect width cap).Nodup := by
  rw [pickMembers_cons]
  exact ((List.take_sublist _ _).cons_cons t).nodup (((restOf_perm rest sect _).cons t).nodup_iff.mpr h)

/-! ## Ranks (R214) -/

/-- Members by ascending %tid, each with its rank. -/
def rankMembers (ms : List Nat) : List (Nat × Nat) := (sortBy (· ≤ ·) ms).zipIdx.map fun x => (x.2, x.1)

theorem pairwise_sortBy_le (xs : List Nat) : (sortBy (fun x y => decide (x ≤ y)) xs).Pairwise (· ≤ ·) := by
  simp only [sortBy_eq_insertionSort, decide_eq_true_eq]
  exact List.pairwise_insertionSort _ _

theorem tids_rankMembers (ms : List Nat) : (rankMembers ms).map (·.2) = sortBy (· ≤ ·) ms := by
  rw [rankMembers, List.map_map]
  exact List.zipIdx_map_fst 0 _

theorem length_rankMembers (ms : List Nat) : (rankMembers ms).length = ms.length := by
  rw [← (sortBy_perm (fun x y : Nat => decide (x ≤ y)) ms).length_eq, ← tids_rankMembers, List.length_map]

theorem ranks_rankMembers (ms : List Nat) : (rankMembers ms).map (·.1) = List.range (rankMembers ms).length := by
  rw [length_rankMembers, ← (sortBy_perm (fun x y : Nat => decide (x ≤ y)) ms).length_eq, rankMembers, List.map_map,
    List.range_eq_range']
  exact List.zipIdx_map_snd 0 _

theorem pairwise_rankMembers {ms : List Nat} (h : ms.Nodup) : ((rankMembers ms).map (·.2)).Pairwise (· < ·) := by
  rw [tids_rankMembers]
  exact List.Pairwise.imp (fun h => lt_of_le_of_ne h.1 h.2)
    ((pairwise_sortBy_le ms).and ((sortBy_perm _ ms).nodup_iff.mpr h))

theorem mem_tids_rankMembers {ms : List Nat} {t : Nat} : t ∈ (rankMembers ms).map (·.2) ↔ t ∈ ms := by
  rw [tids_rankMembers]
  exact (sortBy_perm _ ms).mem_iff

/-- A thread of a plait that forms. -/
def Thread.joins (th : Thread) : Thread := { th with order := 0, asks := false }

/-- The block once a plait has formed in it. -/
def Block.addPlait (b : Block) (p : Plait) : Block :=
  let b' := b.modThs p.ths (·.2) fun _ => Thread.joins
  { b' with plaits := b'.plaits ++ [p] }

theorem Block.plaits_addPlait (b : Block) (p : Plait) : (b.addPlait p).plaits = b.plaits ++ [p] :=
  congrArg (· ++ [p]) (b.plaits_modThs _ _ p.ths)

theorem Block.addPlait_id (b : Block) (p : Plait) : (b.addPlait p).id = b.id := Block.modThs_id _ _ _ _

theorem Block.th_addPlait (b : Block) (p : Plait) (n : Nat) :
    (b.addPlait p).th n = if n ∈ p.ths.map (·.2) then (b.th n).joins else b.th n :=
  Block.th_modThs_same (fun x : Nat × Nat => x.2) (f := Thread.joins) (fun _ => rfl) p.ths b (fun _ _ => .inr rfl) n

/-- The ordinary plait of given members that a block forms, its oldest thread known. -/
def State.ordinaryPlait (s : State) (b : Block) (t : Nat) (ms : List Nat) : Plait :=
  { id := b.nextPlait, ths := rankMembers ms, sect := t % 4, slot := s.nextSlot b.place.core
    wide := decide (32 < b.width), turn := s.choices, last := (b.th t).age
    round := (b.plaits.map (·.round)).foldl max 0 }

/-- An ordinary pool of a block whose plaits are at most 64 wide forms one plait of its oldest threads on the section of
the oldest, where that has a free slot. -/
theorem State.form_ordinary {s : State} {blk : Nat} {b : Block} {pc : DWord} {t : Nat} {rest : List Nat}
    (hb : s.block? blk = some b) (hpool : b.pool pc none = t :: rest) (hrun : b.running = true) (hg : b.place.grant ≤ 64)
    (hslot : s.slotsUsed b.place.core (t % 4) < Config.slotsPerSection) :
    s.form blk pc none = s.modBlock blk
      (·.addPlait (s.ordinaryPlait b t (pickMembers (t :: rest) (t % 4) b.place.grant b.place.grant))) := by
  have h128 : ¬ b.place.grant = 128 := by omega
  have hsects : b.sectionsOf pc none = [t % 4] := by simp [Block.sectionsOf, hpool]
  have hwidth : b.width = b.place.grant := if_neg h128
  unfold State.form
  simp only [hb, hpool, hsects, hrun, hwidth, h128, hslot, List.all_cons, List.all_nil, decide_true, decide_false, Bool.and_true,
    Bool.false_and, Bool.not_true, Bool.or_self, Bool.false_eq_true, if_false, State.ordinaryPlait]
  rfl

/-! ## Rotation (R221, R224) -/

/-- Plaits of their own numbers: the one of a number. -/
theorem filter_id_of_find {ps : List Plait} {p : Plait} (hn : (ps.map (·.id)).Nodup)
    (hfind : (ps.find? (·.id == p.id)) = some p) : ps.filter (·.id == p.id) = [p] := by
  induction ps with
  | nil => cases hfind
  | cons q ps ih =>
    obtain ⟨hq, hn⟩ := List.nodup_cons.mp hn
    by_cases h : q.id = p.id
    · have hqp : q = p := by simpa [h] using hfind
      have hrest : ps.filter (·.id == p.id) = [] := List.filter_eq_nil_iff.mpr fun x hx hid =>
        hq (List.mem_map.mpr ⟨x, hx, (beq_iff_eq.mp hid).trans h.symm⟩)
      simp [hqp, hrest]
    · simpa [h] using ih hn (by simpa [h] using hfind)

/-- A thread that enters a pool at a cycle of its block, with age zero. -/
def Thread.pooled (cycle : Nat) (th : Thread) : Thread := { th with age := cycle }

theorem Block.foldl_modTh_pooled (xs : List (Nat × Nat)) (b : Block) :
    xs.foldl (fun b x => b.modTh x.2 (Thread.pooled b.cycles)) b = b.modThs xs (·.2) fun _ => Thread.pooled b.cycles := by
  induction xs generalizing b with
  | nil => rfl
  | cons x xs ih =>
    have hcycles : (b.modTh x.2 (Thread.pooled b.cycles)).cycles = b.cycles := by
      have h := congrArg Block.cycles (b.modTh_frame x.2 (Thread.pooled b.cycles))
      exact h
    rw [List.foldl_cons, ih, hcycles]
    rfl

/-- Rotation dissolves a plait that is no half: it is gone, and its threads enter pools with age zero. -/
theorem Block.dissolve_rotation {b : Block} {p : Plait} (hfind : (b.plaits.find? (·.id == p.id)) = some p)
    (hother : p.other = none) (hn : (b.plaits.map (·.id)).Nodup) :
    b.dissolve p.id true =
      { b.modThs p.ths (·.2) fun _ => Thread.pooled b.cycles with plaits := b.plaits.filter (·.id != p.id) } := by
  have hplaits := b.plaits_modThs (·.2) (fun _ => Thread.pooled b.cycles) p.ths
  have hids (id : Nat) : [p.id].contains id = (id == p.id) := by
    rw [List.contains_cons, List.contains_nil, Bool.or_false]
  have hfold := Block.foldl_modTh_pooled p.ths b
  unfold Thread.pooled at hfold hplaits ⊢
  unfold Block.dissolve
  simp only [hfind, hother, Option.toList_none, hids, filter_id_of_find hn hfind, List.map_cons, List.map_nil, List.flatten_cons,
    List.flatten_nil, List.append_nil, List.foldl_map, if_true, hfold, hplaits]
  rfl

theorem Block.th_dissolve_rotation {b : Block} {p : Plait} (hfind : (b.plaits.find? (·.id == p.id)) = some p)
    (hother : p.other = none) (hn : (b.plaits.map (·.id)).Nodup) (hhas : ∀ x ∈ p.ths, b.has x.2) (n : Nat) :
    (b.dissolve p.id true).th n = if n ∈ p.ths.map (·.2) then (b.th n).pooled b.cycles else b.th n := by
  rw [Block.dissolve_rotation hfind hother hn]
  exact Block.th_modThs_same (fun x : Nat × Nat => x.2) (f := Thread.pooled b.cycles) (fun _ => rfl) p.ths b
    (fun x hx => .inl (hhas x hx)) n

/-- A section none of whose plaits is to go dissolves the one that is longest in its slot, once it has had its turn. -/
theorem State.rotateSection_of_oldest {s : State} {blk core sect : Nat} {b : Block} {p : Plait} {rest : List (Nat × Plait)}
    (hb : s.block? blk = some b) (hps : s.sectionPlaits core sect = (blk, p) :: rest)
    (hvictim : ∀ x ∈ (blk, p) :: rest, x.2.victim = false) (hout : b.outsideClause p = true) (hturn : b.hadTurn p = true) :
    s.rotateSection core sect = (s.modBlock blk (·.dissolve p.id true)).refreshPools blk := by
  have hno : ((blk, p) :: rest).any (·.2.victim) = false := List.any_eq_false.mpr fun x hx => by simp [hvictim x hx]
  have hfirst : ((blk, p) :: rest).find? (fun x => (s.block? x.1).any (·.outsideClause x.2)) = some (blk, p) := by
    simp [hb, hout]
  unfold State.rotateSection
  simp only [hps, hno, hfirst, hb, Option.any_some, hturn, Bool.false_eq_true, if_false, if_true]

/-! ## The obligation -/

/-- Settles O44: each event is taken at the branch that its conditions select; a plait forms of the oldest of a pool without
repetition, sorted by %tid, and rotation dissolves the first of a section. -/
theorem coreEvents : Obligations.CoreEvents := by
  refine fun s blk b hb => ⟨fun tid k o ho hhas => ?arrival,
    fun u line c halign hline hcold hneed hread => ⟨fun v d hfill => ?filled, fun v hfill => ?filling⟩,
    fun iss k hcur hk => ?entry, ⟨fun pc group hentry hmay => ?formation, fun pc group hdue hmay => ?due⟩,
    fun p hfind hhalf hissues hout => ?split, fun pc t rest hpool hrun hg1 hg64 hslot => ?forms,
    fun core sect p rest hps hvictim hout hturn hfind hother hths hn => ?rotates⟩
  case arrival =>
    have harrive (p : Outst → Bool) (hp : p o = true) := Thread.arriveAt_of_outst (p := p) ho hp
    refine ⟨s.modTh blk tid (Thread.arriveAt (fun _ => true) k), b.modTh tid (Thread.arriveAt (fun _ => true) k), rfl, ?_,
      (Block.th_modTh_same _ _ _ hhas).trans (harrive _ rfl), fun n hn => Block.th_modTh_other _ _ _ _ hn, rfl,
      fun hregs hpred => ?_⟩
    · rw [State.modTh, State.block?_modBlock fun b hb => (b.modTh_id _ _).trans hb, hb]
      rfl
    · have hw : (!o.writes) = true := by simp [Outst.writes, hregs, hpred]
      exact congrArg _ (State.modTh_congr hb ((harrive _ hw).trans (harrive _ rfl).symm))
  case filled => rw [exec_lineFill hline, State.fillLine_filled hneed halign hcold hread hfill]
  case filling => rw [exec_lineFill hline, State.fillLine_open hneed halign hcold hread hfill]
  case entry =>
    have hmem : [Cause.illegalOp, .illegalGuard, .reservedField, .illegalType, .runOffEnd].contains k = true := by
      rcases hk with rfl | rfl | rfl | rfl | rfl <;> rfl
    show execNotAnInstruction k s = _
    simp only [execNotAnInstruction, hcur, hmem, if_true]
  case formation =>
    have hu : (s.refreshPools blk).block? blk = some b := (s.block?_refreshPools blk blk).trans hb
    show execPlaitFormation blk pc group s = _
    simp only [execPlaitFormation, hu, hentry, hmay, Bool.and_self, if_true]
  case due =>
    have hu : (s.refreshPools blk).block? blk = some b := (s.block?_refreshPools blk blk).trans hb
    have hfull (v : State) (k : Nat) :
        (if decide (Config.slotsPerSection ≤ v.slotsUsed b.place.core k) = true then v.rotateSection b.place.core k else v) =
          if v.slotsUsed b.place.core k < 16 then v else v.rotateSection b.place.core k := by
      simp only [decide_eq_true_eq, ← not_lt, ite_not]
      rfl
    show execPoolDue blk pc group s = _
    simp only [execPoolDue, hu, hdue, hmay, Bool.and_self, if_true, hfull]
  case split =>
    have hlimit : decide (splitIssues ≤ p.issues) = true := decide_eq_true hissues
    show execSplitLimit blk p.id s = _
    simp only [execSplitLimit, hb, hfind, hhalf, hlimit, hout, Bool.and_self, if_true]
  case forms =>
    set ms := pickMembers (t :: rest) (t % 4) b.place.grant b.place.grant with hms
    have hnodup : ms.Nodup := nodup_pickMembers (hpool ▸ b.nodup_pool pc none)
    have hin {x : Nat} : x ∈ (rankMembers ms).map (·.2) ↔ x ∈ ms := mem_tids_rankMembers
    refine ⟨s.ordinaryPlait b t ms, b.addPlait (s.ordinaryPlait b t ms), ?_, b.plaits_addPlait _, ranks_rankMembers ms,
      (length_rankMembers ms).trans (length_pickMembers hg1), pairwise_rankMembers hnodup,
      fun x hx => pickMembers_subset (hin.mp (List.mem_map_of_mem hx)), hin.mpr (mem_pickMembers_head ..), rfl,
      b.th_addPlait _⟩
    rw [State.form_ordinary hb hpool hrun hg64 hslot, State.block?_modBlock fun b hb => (b.addPlait_id _).trans hb, hb]
    rfl
  case rotates =>
    refine ⟨b.dissolve p.id true, ?_, ?_, Block.th_dissolve_rotation hfind hother hn fun x hx => .inr (hths x hx).1⟩
    · rw [State.rotateSection_of_oldest hb hps hvictim hout hturn, State.block?_refreshPools,
        State.block?_modBlock fun b hb => (Block.shape_id (b.shape_dissolve _ _)).trans hb, hb]
      rfl
    · rw [Block.dissolve_rotation hfind hother hn]

end Sys2Proof.Machine
end

section
/-! SUPPORT. The big-endian bytes of a number, and the fields of a full word (R8, R49, R55, R58); O57. -/

namespace Sys2Proof

/-! ## Bytes (R8, R55) -/

@[simp] theorem length_toBytesBE (n x : Nat) : (toBytesBE n x).length = n := by
  induction n with
  | zero => rfl
  | succ n ih => rw [toBytesBE, List.length_cons, ih]

theorem ofBytesBE_toBytesBE (n x : Nat) : ofBytesBE (toBytesBE n x) = x % 256 ^ n := by
  induction n with
  | zero => rw [pow_zero, Nat.mod_one]; rfl
  | succ n ih =>
    have hbyte : (BitVec.ofNat 8 (x / 256 ^ n)).toNat = x / 256 ^ n % 256 := BitVec.toNat_ofNat _ _
    rw [toBytesBE, ofBytesBE, length_toBytesBE, ih, hbyte, pow_succ, Nat.mod_mul, Nat.add_comm, Nat.mul_comm]

/-- A bit vector of n bytes is read back from its bytes. -/
theorem ofNat_ofBytesBE_toBytesBE {m : Nat} (n : Nat) (x : BitVec m) (h : m = 8 * n) :
    BitVec.ofNat m (ofBytesBE (toBytesBE n x.toNat)) = x := by
  subst h
  have hlt : x.toNat < 256 ^ n := by
    rw [show 256 = 2 ^ 8 from rfl, ← Nat.pow_mul]
    exact x.isLt
  rw [ofBytesBE_toBytesBE, Nat.mod_eq_of_lt hlt, BitVec.ofNat_toNat, BitVec.setWidth_eq]

/-! ## The opcode and its uniform bit (R82, R83) -/

/-- Row by row of the map: an opcode with a uniform bit that its row allows fits OP, and is split again. -/
theorem joinOp_of_row {op : Nat} {uni : Bool} {r : Row} (hr : row op = some r) (hu : (uni && !r.uni) = false) :
    joinOp op uni < 1024 ∧ splitOp (joinOp op uni) = (op, uni) := by
  unfold row at hr
  split at hr
  all_goals cases hr
  all_goals
    revert uni
    decide

/-- What passes the four checks has a row, and the uniform bit only where the row allows it (R54, R83). -/
theorem row_of_checkEntry {op : Nat} {uni : Bool} {ty : Option Ty} {w : CWord} (h : checkEntry op uni ty w = none) :
    ∃ r, row op = some r ∧ (uni && !r.uni) = false := by
  unfold checkEntry at h
  cases hr : row op with
  | none => rw [hr] at h; cases h
  | some r =>
    refine ⟨r, rfl, Bool.eq_false_iff.mpr fun hu => ?_⟩
    simp only [hr, hu, if_true] at h
    cases h

@[simp] theorem Ty.ofCode_code (t : Ty) : Ty.ofCode t.code = some t := by cases t <;> rfl

/-! ## The fields of a full word (R49) -/

theorem bits_eq_extractLsb' {m : Nat} (x : BitVec m) (lo n : Nat) : bits x lo n = (x.extractLsb' lo n).toNat := rfl

/-- Each field of the packed word lies where R49 has it: the fields below it are passed over, those above it left. -/
theorem packFull_fields (op : Nat) (w : CWord) :
    (packFull op w).extractLsb' 86 10 = BitVec.ofNat 10 (joinOp op w.uni) ∧ (packFull op w).extractLsb' 82 4 = w.g ∧
    (packFull op w).extractLsb' 74 8 = w.d ∧ (packFull op w).extractLsb' 66 8 = w.a ∧
    (packFull op w).extractLsb' 58 8 = w.b ∧ (packFull op w).extractLsb' 52 6 = w.ty.code ∧
    (packFull op w).extractLsb' 46 6 = w.mod ∧ (packFull op w).extractLsb' 34 12 = w.hint ∧
    (packFull op w).extractLsb' 32 2 = w.bsel ∧ (packFull op w).extractLsb' 0 32 = w.imm := by
  unfold packFull
  refine ⟨?op, ?_, ?_, ?_, ?_, ?_, ?_, ?_, ?_, ?_⟩
  all_goals repeat rw [BitVec.extractLsb'_append_eq_of_le (by decide)]
  case op => exact BitVec.extractLsb'_eq_self
  all_goals exact (BitVec.extractLsb'_append_eq_of_add_le (by decide)).trans BitVec.extractLsb'_eq_self

/-- Every field of the full form's 96 bits is read back as it was packed. -/
theorem expandFull_packFull {op : Nat} {w : CWord} (h : joinOp op w.uni < 1024) (len : Nat) :
    expandFull (packFull op w) w.ext len =
      entryOf (joinOp op w.uni) w.ty.code { w with uni := false, ty := .untyped } len := by
  obtain ⟨hop, hg, hd, ha, hb, hty, hmod, hhint, hbsel, himm⟩ := packFull_fields op w
  simp only [expandFull, bits_eq_extractLsb', hop, hg, hd, ha, hb, hty, hmod, hhint, hbsel, himm, BitVec.toNat_ofNat,
    Nat.mod_eq_of_lt h]

/-! ## The full form read back (R58) -/

theorem Instr.wordOk_iff {i : Instr} {op : Nat} {w : CWord} (hi : i.opWord = some (op, w)) :
    i.wordOk = true ↔ checkEntry op w.uni (some w.ty) w = none ∧ Instr.ofOp op w = some i := by
  simp only [Instr.wordOk, hi, Bool.and_eq_true, beq_iff_eq]

/-- A word that passes its checks is expanded to its instruction. -/
theorem expandFull_of_wordOk {i : Instr} {op : Nat} {w : CWord} (hi : i.opWord = some (op, w)) (hok : i.wordOk = true)
    (len : Nat) : expandFull (packFull op w) w.ext len = .insn i len := by
  obtain ⟨hcheck, hof⟩ := (Instr.wordOk_iff hi).mp hok
  obtain ⟨r, hr, hu⟩ := row_of_checkEntry hcheck
  obtain ⟨hlt, hsplit⟩ := joinOp_of_row hr hu
  simp only [expandFull_packFull hlt, entryOf, hsplit, Ty.ofCode_code, Option.getD_some, hcheck, hof]

/-- The full form's 13 bytes, behind an extension word or none. -/
theorem decodeBody_full (x : BitVec 96) (ext : Word) (off : Nat) :
    decodeBody (0xC0#8 :: toBytesBE 12 x.toNat) ext off = some (expandFull x ext (off + 13)) := by
  have htake : (toBytesBE 12 x.toNat).take 12 = toBytesBE 12 x.toNat := List.take_of_length_le (by simp)
  simp [decodeBody, htake, ofNat_ofBytesBE_toBytesBE 12 x rfl]

/-! ## The extension word before a body (R59) -/

/-- The longest form has 13 bytes, an extension word 5 with its lead byte. -/
theorem length_extPrefix_append_le {bs : List Byte} (ext : Word) (h : bs.length ≤ 13) : (extPrefix ext ++ bs).length ≤ 18 := by
  unfold extPrefix
  split
  · exact h.trans (by decide)
  · simp only [List.cons_append, List.length_cons, List.length_append, length_toBytesBE]
    omega

/-- An entry is what its body is with the extension word before it, which is zero where none stands there. -/
theorem decodeEntry_extPrefix {bs : List Byte} {ext : Word} {e : Entry}
    (h : decodeBody bs ext (extPrefix ext).length = some e) : decodeEntry (extPrefix ext ++ bs) = e := by
  by_cases h0 : ext = 0#32
  · subst h0
    have hbody : decodeBody bs 0#32 0 = some e := h
    show decodeEntry bs = e
    simp only [decodeEntry, hbody]
  · have hp : extPrefix ext = 0xE0#8 :: toBytesBE 4 ext.toNat := if_neg h0
    have hlen : (extPrefix ext).length = 5 := by rw [hp, List.length_cons, length_toBytesBE]
    have htake : (toBytesBE 4 ext.toNat ++ bs).take 4 = toBytesBE 4 ext.toNat := List.take_left' (by simp)
    have hdrop : (toBytesBE 4 ext.toNat ++ bs).drop 4 = bs := List.drop_left' (by simp)
    have hroom : ¬ (toBytesBE 4 ext.toNat ++ bs).length < 4 := by simp
    rw [hlen] at h
    have hlead : decodeBody (0xE0#8 :: (toBytesBE 4 ext.toNat ++ bs)) 0#32 0 = none := by simp [decodeBody]
    rw [hp, List.cons_append, decodeEntry, hlead]
    simp only [hroom, if_false, htake, hdrop, ofNat_ofBytesBE_toBytesBE 4 ext rfl, h]
    rfl

/-! ## The round trip (R77) -/

/-- The full form of a well-formed instruction decodes to it. -/
theorem decode_encodeFull {i : Instr} (hok : i.wordOk = true) (hne : i.opWord ≠ none) :
    decode (encodeFull i) = some (i, []) := by
  obtain ⟨⟨op, w⟩, hi⟩ := Option.ne_none_iff_exists'.mp hne
  have hbytes : encodeFull i = extPrefix w.ext ++ 0xC0#8 :: toBytesBE 12 (packFull op w).toNat := by rw [encodeFull, hi]
  have hlen : (encodeFull i).length = (extPrefix w.ext).length + 13 := by
    rw [hbytes, List.length_append, List.length_cons, length_toBytesBE]
  have hentry : decodeEntry (encodeFull i) = .insn i (encodeFull i).length := by
    rw [hlen, hbytes]
    exact decodeEntry_extPrefix (by rw [decodeBody_full, expandFull_of_wordOk hi hok])
  simp only [decode, hentry, List.drop_length]

theorem length_encodeFull_le (i : Instr) : (encodeFull i).length ≤ 18 := by
  unfold encodeFull
  split
  · exact Nat.zero_le _
  · exact length_extPrefix_append_le _ (by rw [List.length_cons, length_toBytesBE])

theorem length_encodeShort_le (i : Instr) : (encodeShort i).length ≤ 18 := by
  unfold encodeShort
  split
  · exact Nat.zero_le _
  · exact length_extPrefix_append_le _ ((length_toBytesBE ..).trans_le (by decide))

theorem length_encodeCompact_le (i : Instr) (k : Nat) : (encodeCompact i k).length ≤ 18 := by
  unfold encodeCompact
  split
  · exact Nat.zero_le _
  · exact length_extPrefix_append_le _ ((length_toBytesBE ..).trans_le (by decide))

/-- An encoding is a shorter form that decodes to the instruction, or the full form. -/
theorem encode_cases (i : Instr) :
    (decode (encode i) = some (i, []) ∧ (encode i).length ≤ 18) ∨ encode i = encodeFull i := by
  unfold encode
  extract_lets forms
  cases hfind : forms.find? fun bs => (decode bs).any fun p => p.1 == i && p.2.isEmpty with
  | none => exact .inr rfl
  | some bs =>
    refine .inl ⟨?_, ?_⟩
    · have hmeets := List.find?_some (p := fun bs => (decode bs).any fun p => p.1 == i && p.2.isEmpty) hfind
      obtain ⟨⟨j, rest⟩, hdec, hj⟩ := (Option.any_eq_true _ _).mp hmeets
      simp only [Bool.and_eq_true, beq_iff_eq, List.isEmpty_iff] at hj
      obtain ⟨rfl, rfl⟩ := hj
      exact hdec
    · rcases List.mem_append.mp (List.mem_of_find?_eq_some hfind) with hcompact | hshort
      · obtain ⟨k, -, rfl⟩ := List.mem_map.mp hcompact
        exact length_encodeCompact_le i k
      · rw [List.mem_singleton.mp hshort]
        exact length_encodeShort_le i

end Sys2Proof

namespace Sys2Proof.Machine

/-- Settles O57: `encode` takes a shorter form only where it decodes to the instruction; else the full form does, since
each field of the word is read back from its bits and the word passes its checks. -/
theorem encodeDecode : Obligations.EncodeDecode := by
  intro i hwf hne
  obtain ⟨hok, -⟩ := Bool.and_eq_true_iff.mp hwf
  rcases encode_cases i with hshorter | hfull
  · exact hshorter
  · rw [hfull]
    exact ⟨decode_encodeFull hok hne, length_encodeFull_le i⟩

end Sys2Proof.Machine
end

section
/-! SUPPORT. An entry stands at the first byte of its line, and the issue that stands next runs it (R53, R60 to R65); O58. -/

namespace Sys2Proof

/-! ## The length of an entry (R55 to R62) -/

@[simp] theorem entryOf_len (opn : Nat) (tyc : BitVec 6) (w : CWord) (len : Nat) : (entryOf opn tyc w len).len = len := by
  unfold entryOf
  dsimp only
  split
  · rfl
  · split <;> rfl

@[simp] theorem expandFull_len (x : BitVec 96) (ext : Word) (len : Nat) : (expandFull x ext len).len = len := entryOf_len _ _ _ _

@[simp] theorem expandShort_len (x : BitVec 64) (ext : Word) (len : Nat) : (expandShort x ext len).len = len :=
  entryOf_len _ _ _ _

@[simp] theorem expandCompact_len (x : BitVec 32) (ext : Word) (len : Nat) : (expandCompact x ext len).len = len := by
  unfold expandCompact
  split
  · rfl
  · dsimp only
    split
    · rfl
    · exact entryOf_len _ _ _ _

/-- An instruction that does not fit the n bytes that are left is a trap of one byte (R62). -/
theorem len_pastEnd_le {n k off : Nat} {e : Entry} (hn : 1 ≤ n) (he : e.len = off + k) :
    (if n < k then Entry.bad .illegalOp 1 true else e).len ≤ off + n := by
  split
  · exact hn.trans (Nat.le_add_left n off)
  · omega

/-- A body ends within its bytes. -/
theorem decodeBody_len_le {bs : List Byte} {ext : Word} {off : Nat} {e : Entry} (h : decodeBody bs ext off = some e) :
    e.len ≤ off + bs.length := by
  cases bs with
  | nil => cases h
  | cons b bs =>
    have hone : 1 ≤ (b :: bs).length := Nat.le_add_left 1 _
    simp only [decodeBody] at h
    split at h
    · obtain rfl := Option.some.inj h
      exact len_pastEnd_le hone (expandCompact_len ..)
    · split at h
      · obtain rfl := Option.some.inj h
        exact len_pastEnd_le hone (expandShort_len ..)
      · split at h
        · obtain rfl := Option.some.inj h
          exact len_pastEnd_le hone (expandFull_len ..)
        · cases h

/-- An entry ends within the bytes that it is decoded from. -/
theorem decodeEntry_len_le {bs : List Byte} (hne : bs ≠ []) : (decodeEntry bs).len ≤ bs.length := by
  unfold decodeEntry
  split
  · rename_i e he
    exact (decodeBody_len_le he).trans_eq (Nat.zero_add _)
  · cases bs with
    | nil => exact absurd rfl hne
    | cons b rest =>
      have hone : 1 ≤ (b :: rest).length := Nat.le_add_left 1 _
      dsimp only
      split
      · split
        · exact hone
        · rename_i hroom
          split
          · rename_i e he
            have := decodeBody_len_le he
            rw [List.length_drop] at this
            rw [List.length_cons]
            omega
          · show 5 ≤ rest.length + 1
            omega
      · split
        · exact hone
        · split <;> exact hone

/-- At the first byte of a line stands the entry that its bytes begin with. -/
theorem entryAt_zero {bs : List Byte} (hne : bs ≠ []) (h64 : bs.length ≤ 64) : entryAt bs 0 = some (decodeEntry bs) := by
  cases bs with
  | nil => exact absurd rfl hne
  | cons b bs =>
    simp only [entryAt, decodeLine, List.take_of_length_le h64, decodeFrom]
    split
    · rename_i he
      rw [he]; rfl
    · rfl

theorem decode_eq_some_iff {bs rest : List Byte} {i : Instr} :
    decode bs = some (i, rest) ↔ ∃ len, decodeEntry bs = .insn i len ∧ rest = bs.drop len := by
  unfold decode
  constructor
  · intro h
    split at h
    · rename_i he
      obtain ⟨rfl, rfl⟩ := Prod.mk.inj (Option.some.inj h)
      exact ⟨_, he, rfl⟩
    · cases h
  · rintro ⟨len, he, rfl⟩
    rw [he]

/-- An instruction decoded from the first byte of a line stands there, as long as the bytes that it takes. -/
theorem entryAt_of_decode {bs rest : List Byte} {i : Instr} (h : decode bs = some (i, rest)) (h64 : bs.length ≤ 64) :
    entryAt bs 0 = some (.insn i (bs.length - rest.length)) := by
  obtain ⟨len, he, rfl⟩ := decode_eq_some_iff.mp h
  have hne : bs ≠ [] := by rintro rfl; cases he
  have hlen : len ≤ bs.length := by
    have := decodeEntry_len_le hne
    rwa [he] at this
  rw [entryAt_zero hne h64, he, List.length_drop, Nat.sub_sub_self hlen]

end Sys2Proof

namespace Sys2Proof.Machine

/-! ## The step of an issue (R53, R54) -/

/-- With nothing set to happen before it, the issue that stands next runs, the first of its cycle or the second. -/
theorem step_of_cur {s : State} {iss : Issue} (hdark : s.dark = false) (hfrozen : s.frozen = false) (hagenda : s.agenda = [])
    (hcur : s.cur = some iss) : step s = s.runCur iss := by
  unfold step State.next
  cases hahead : s.ahead with
  | none => simp only [hdark, hfrozen, hagenda, hcur, Option.bind_none, Bool.false_eq_true, if_false]
  | some _ => simp only [hdark, hcur, Option.bind_some, Bool.false_eq_true, if_false]

/-- What a cached line that is no fault holds at the PC is fetched. -/
theorem State.fetch_insn {s u : State} {b : Block} {iss : Issue} {pc : DWord} {c : CodeLine} {i : Instr} {len : Nat}
    (hpc : (b.th ((iss.ths.map (·.2)).headD 0)).pc = pc) (hin : b.inCode pc = true)
    (hline : s.cachedLine b (((b.plaits.find? (·.id == iss.plait)).map (·.sect)).getD 0) (pc.toNat / 64 * 64) (pc.toNat % 64) =
      (u, some c))
    (hfault : c.fault = none) (hentry : entryAt c.bytes (pc.toNat % 64) = some (.insn i len)) :
    s.fetch b iss = (u, .insn i len) := by
  simp only [State.fetch, hpc, hin, hline, hfault, hentry, Bool.not_true, Bool.false_eq_true, if_false]

/-- An issue that can be made runs the instruction that its fetch answers. -/
theorem State.runCur_insn {s u : State} {iss : Issue} {b : Block} {i : Instr} {len : Nat}
    (hpads : s.skipPads iss.blk (iss.ths.map (·.2)) = s) (hb : s.block? iss.blk = some b) (hcan : b.canIssue iss = true)
    (hfetch : s.fetch b iss = (u, .insn i len)) :
    s.runCur iss = settled { iss with len, word := i.opWord } (exec i { u with cur := some { iss with len, word := i.opWord } }) := by
  simp only [State.runCur, hpads, hb, hcan, hfetch, Bool.not_true, Bool.false_eq_true, if_false]

/-- Settles O58: the step is the run of the issue, whose fetch answers what stands in the line; an entry ends within its
bytes, so its length is what decoding has taken. -/
theorem stepRuns : Obligations.StepRuns := by
  refine ⟨?_, fun bs rest i => entryAt_of_decode⟩
  intro s u iss b c i len hdark hfrozen hagenda hcur hpads hb hcan pc hin hline hfault hentry
  rw [step_of_cur hdark hfrozen hagenda hcur, State.runCur_insn hpads hb hcan (State.fetch_insn rfl hin hline hfault hentry)]

end Sys2Proof.Machine
end

section
/-! SUPPORT. Instructions that change their threads' own bookkeeping (R67, R96, R98, R104 to R106); O15. -/

namespace Sys2Proof.Machine

/-- An update of each thread that is on, one after another, keeps every block. -/
theorem keeps_foldl_modTh (c : Ctx) (f : Thread → Thread) (s : State) :
    Keeps s (c.on.foldl (fun s (x : Nat × Nat) => s.modTh c.iss.blk x.2 f) s) :=
  .foldl (fun s (x : Nat × Nat) => keeps_modTh s c.iss.blk x.2 f) _ s

/-- CLAUSE's test: some thread that is on has a result outstanding on a flag of the wait mask (R67). -/
theorem any_pend_iff (c : Ctx) (s : State) (mask : Nat → Bool) :
    ((s.block? c.iss.blk).any fun b => c.on.any fun x =>
      (List.range 12).any fun k => mask k && (b.th x.2).pend k != 0) = true ↔
    ∃ b, s.block? c.iss.blk = some b ∧ ∃ x ∈ c.on, ∃ k < 12, mask k = true ∧ (b.th x.2).pend k ≠ 0 := by
  simp only [Option.any_eq_true, List.any_eq_true, List.mem_range, Bool.and_eq_true, bne_iff_ne]

/-- Settles O15: each instruction by the shape of its meaning, which keeps the block; CLAUSE's test is the statement's,
and LAND acts in a due block alone. -/
theorem bookkeeping : Obligations.Bookkeeping := by
  intro w each mask arrived held
  have keeps (c : Ctx) (f : Thread → Thread) (s : State) : Keeps s (each f c s) := keeps_foldl_modTh c f s
  refine ⟨?nop, ?header, ?held, ?arm, ?trigger, ?yield, ?land, ?landed⟩
  case nop => exact does_of_effect (fun _ => rfl) (fun _ _ _ _ _ => rfl) fun _ _ b h _ => ⟨b, h.found, fun _ => id⟩
  case header =>
    refine does_of_runIssue (fun _ => rfl) (fun s iss b _ hclear => ?_) fun s _ _ h _ => (keeps _ _ s).block h.found
    have hwait := Bool.eq_false_iff.mpr (mt (any_pend_iff _ (arrived (ctxOf iss 0x001 w b) s) mask).mp hclear)
    exact congrArg (Prod.mk _) (List.map_congr_left fun x _ => congrArg (Prod.mk _) (if_neg (Bool.eq_false_iff.mp hwait)))
  case held =>
    refine does_of_runIssue (fun _ => rfl) (fun s iss b _ hheld => ?_) fun s _ _ h _ => (keeps _ _ s).block h.found
    have hwait := (any_pend_iff _ (arrived (ctxOf iss 0x001 w b) s) mask).mpr hheld
    exact congrArg (Prod.mk _) (List.map_congr_left fun x _ => congrArg (Prod.mk _) (if_pos hwait))
  case arm => exact does_of_effect (fun _ => rfl) (fun _ _ _ _ _ => rfl) fun s _ _ h _ => (keeps _ _ s).block h.found
  case trigger =>
    exact does_of_effect (fun _ => rfl) (fun _ _ _ _ _ => rfl) fun s _ _ h _ =>
      ((keeps _ _ s).trans (keeps_noteTrigger _ _)).block h.found
  case yield => exact does_of_modBlock (fun _ => rfl) (fun _ _ _ _ _ => rfl) fun _ _ => by simp
  case land =>
    refine does_of_effect (fun _ => rfl) (fun s iss b _ hdue => ?_) fun _ _ b h _ => ⟨b, h.found, fun _ => id⟩
    exact if_pos (Option.isNone_iff_eq_none.mpr hdue)
  case landed =>
    refine does_of_runIssue (fun _ => rfl) (fun s iss b _ hdue => ?_) fun s _ _ h _ => (keeps _ _ s).block h.found
    exact if_neg (mt Option.isNone_iff_eq_none.mp hdue)

end Sys2Proof.Machine
end

section
/-! SUPPORT. Words of the manual, decoded (R56 to R59); O59. -/

namespace Sys2Proof.Machine

/-- Settles O59: each word is expanded by its form and passes its checks, by evaluation of the decoder on its bytes. -/
theorem decodeWords : Obligations.DecodeWords := by
  refine ⟨?iaddCompact, ?iaddShort, ?iaddFull, ?ffma, ?xfma, ?shfl, ?bra, ?pinAlign, ?ldIndexed, ?ldOrdered, ?cross, ?mmasp⟩
  all_goals decide

end Sys2Proof.Machine
end

section
/-! SUPPORT. A charge of the reels and a write of a uniform register (R88, R123, R348, R349); O54. -/

namespace Sys2Proof.Machine

/-! ## Lowering a reel (R348) -/

theorem lower_reel (reel ov : DWord) (c : Nat) : (lower reel ov c).1.toNat = reel.toNat - c := by
  unfold lower
  split
  · simp; omega
  · simp; omega

theorem lower_overdraft (reel ov : DWord) (c : Nat) :
    (lower reel ov c).2.toNat = min (ov.toNat + (c - reel.toNat)) (2 ^ 64 - 1) := by
  unfold lower
  split
  · simp; omega
  · simp

/-- A charge of all that the reel holds, or of more, empties it. -/
theorem lower_reel_eq_zero {reel : DWord} {c : Nat} (h : reel.toNat ≤ c) (ov : DWord) : (lower reel ov c).1 = 0#64 :=
  BitVec.eq_of_toNat_eq ((lower_reel reel ov c).trans (Nat.sub_eq_zero_of_le h))

/-! ## The charged block (R88, R349) -/

/-- A charged block has its reels lowered, and nothing else of it changes but its due point. -/
theorem State.block?_charge {s : State} {n : Nat} {b : Block} (hb : s.block? n = some b) (ci ct : Nat) :
    ∃ b', (s.charge n ci ct).block? n = some b' ∧ b'.undue = { b.undue with regs := b.regs.charged ci ct } := by
  have h := (s.charge_block n ci ct b hb).1 n
  rwa [State.block?_modBlock, hb, Option.map_some, Option.map_some, Option.map_eq_some_iff] at h

/-- A block made due for a reel is due for it, whatever due point it had. -/
theorem Block.dueBy_makeDue_reason (b : Block) {i t' t : Bool} (h : (if t then t' else i) = true) (r : Bool) (now : Nat) :
    (b.makeDue i t' r now).dueBy t := by
  unfold Block.makeDue
  split <;> exact ⟨_, rfl, by cases t <;> simp_all⟩

/-- A charge that brings a reel to zero makes the block due for it; the recall of its group leaves it so. -/
theorem State.dueBy_charge {s : State} {n ci ct : Nat} {b : Block} (hb : s.block? n = some b) {t : Bool}
    (hc : (if t then ct else ci) ≠ 0) (hr : (b.reel t).toNat ≤ if t then ct else ci) :
    ∃ b', (s.charge n ci ct).block? n = some b' ∧ b'.dueBy t := by
  have hnot : ¬ (ci = 0 ∧ ct = 0) := by cases t <;> simp_all
  set iOut := ci != 0 && (lower b.regs.ireel b.regs.iover ci).1 == 0#64 with hi
  set tOut := ct != 0 && (lower b.regs.treel b.regs.tover ct).1 == 0#64 with ht
  have hout : (if t then tOut else iOut) = true := by
    cases t
    · simpa [hi] using ⟨hc, lower_reel_eq_zero hr _⟩
    · simpa [ht] using ⟨hc, lower_reel_eq_zero hr _⟩
  have hsome : (iOut || tOut) = true := by cases t <;> simp_all
  have hid : b.id = n := State.block?_id hb
  simp only [State.charge, if_neg hnot, hb, ← hi, ← ht, hsome, if_true, Bool.true_and]
  have hdue (b1 : Block) (h1 : b1.id = n) :
      ∃ b', (s.modBlock n fun _ => b1.makeDue iOut tOut false s.clock.time).block? n = some b' ∧ b'.dueBy t :=
    ⟨_, by rw [State.block?_modBlock fun _ _ => (b1.makeDue_id _ _ _ _).trans h1, hb]; rfl,
      b1.dueBy_makeDue_reason hout false s.clock.time⟩
  split
  · exact State.dueBy_recallGroup _ (hdue _ hid)
  · exact hdue _ hid

/-! ## A write of a uniform register (R123) -/

theorem Block.ureg_uniformWrite_same {b : Block} {n : Nat} (h : n < b.uregs.length) (pc : DWord) (ts : List Nat) (v : DWord) :
    (b.uniformWrite pc ts n v).ureg n = v.toNat := by
  simp [Block.ureg, Block.uniformWrite, h]

theorem Block.ureg_uniformWrite_other (b : Block) {n k : Nat} (h : k ≠ n) (pc : DWord) (ts : List Nat) (v : DWord) :
    (b.uniformWrite pc ts n v).ureg k = b.ureg k := by
  simp [Block.ureg, Block.uniformWrite, List.getElem?_set_ne h.symm]

/-- The hazard: an earlier write of the same instruction and epoch, by a thread not of this issue, left another value. -/
def Block.hazard (b : Block) (pc : DWord) (ts : List Nat) (n : Nat) (v : DWord) : Prop :=
  let u := b.uregs.getD n {}
  u.pc = some pc ∧ u.epoch = b.epoch ∧ u.val ≠ v ∧ u.tid ∉ ts

theorem Block.regs_uniformWrite_hazard {b : Block} {pc : DWord} {ts : List Nat} {n : Nat} {v : DWord}
    (h : b.hazard pc ts n v) : (b.uniformWrite pc ts n v).regs = { b.regs with ustat := b.regs.ustat ||| 1#32 } := by
  obtain ⟨hpc, hepoch, hval, htid⟩ := h
  exact if_pos (by simp [-List.getD_eq_getElem?_getD, hpc, hepoch, hval, htid])

theorem Block.regs_uniformWrite_calm {b : Block} {pc : DWord} {ts : List Nat} {n : Nat} {v : DWord}
    (h : ¬ b.hazard pc ts n v) : (b.uniformWrite pc ts n v).regs = b.regs :=
  if_neg fun hz => h (by simpa [Block.hazard, and_assoc] using hz)

/-- Settles O54: the charged block is the block with its reels lowered but for due points, and is due for a reel that the
charge empties; a uniform write by whether it is a hazard. -/
theorem blockAccounting : Obligations.BlockAccounting := by
  refine ⟨fun s n ci ct b hb => ?charge, fun b pc ts n v hn => ?write⟩
  case charge =>
    obtain ⟨b', hb', hundue⟩ := State.block?_charge hb ci ct
    have hregs : b'.regs = b.regs.charged ci ct := congrArg Block.regs hundue
    have hthreads : b'.threads = b.threads := (congrArg Block.threads hundue :)
    have htrap : b'.trap = b.trap := (congrArg Block.trap hundue :)
    have hdue (t : Bool) (hc : (if t then ct else ci) ≠ 0) (hr : (b.reel t).toNat ≤ if t then ct else ci) : b'.due ≠ none := by
      obtain ⟨b2, hb2, d, hd, -⟩ := State.dueBy_charge hb hc hr
      obtain rfl := Option.some.inj (hb2.symm.trans hb')
      simp [hd]
    refine ⟨b', hb', ?_, ?_, ?_, ?_, ?_, hthreads, htrap, (s.charge_block n ci ct b hb).mem⟩
    · rw [hregs]; exact lower_reel _ _ _
    · rw [hregs]; exact lower_reel _ _ _
    · rw [hregs]; exact lower_overdraft _ _ _
    · rw [hregs]; exact lower_overdraft _ _ _
    · rintro (⟨hc, hr⟩ | ⟨hc, hr⟩)
      · exact hdue false hc hr
      · exact hdue true hc hr
  case write =>
    refine ⟨b.ureg_uniformWrite_same hn pc ts v, fun k hk => b.ureg_uniformWrite_other hk pc ts v, rfl, rfl, ?_, ?_⟩
    · intro hpc hepoch hval htid
      rw [Block.regs_uniformWrite_hazard ⟨hpc, hepoch, hval, htid⟩]
    · intro h
      refine Block.regs_uniformWrite_calm fun ⟨hpc, hepoch, hval, htid⟩ => ?_
      rcases h with h | h | h | h
      exacts [h hpc, h hepoch, hval h, htid h]

end Sys2Proof.Machine
end

section
/-! SUPPORT. Integer arithmetic (R124, R125); O1. -/

namespace Sys2Proof.Machine

theorem Computes.congr {i : Instr} {op : Nat} {w : CWord} {g g' : Opnd → Alu} (hg : Computes i op w g) (h : ∀ x, g x = g' x) :
    Computes i op w g' :=
  funext h ▸ hg

/-- An instruction of the arithmetic shape computes what its function is equal to. -/
theorem computes_of_runAlu_eq {i : Instr} {op : Nat} {w : CWord} {g g' : Opnd → Alu}
    (hi : ∀ s, exec i s = .next (s.runAlu op w g)) (h : ∀ x, g x = g' x) : Computes i op w g' :=
  (computes_of_runAlu hi).congr h

theorem Alu.val_congr {k x y : Nat} {seed : Option Word} (h : x = y) : Alu.val k x seed = Alu.val k y seed := h ▸ rfl

/-- Settles O1: each instruction is of the arithmetic shape, and the model's clamp and division by a power of two are those
stated. -/
theorem integerArithmetic : Obligations.IntegerArithmetic := by
  intro w
  refine ⟨?iadd, ?isub, ?imul, ?imulhi, ?imad, ?iabs, ?ineg, ?imin, ?imax, ?iaddsat⟩
  case imulhi =>
    refine computes_of_runAlu_eq (fun _ => rfl) fun x => ?_
    have hpos : (0 : Int) ≤ 2 ^ w.ty.bits := by positivity
    dsimp only
    rw [Int.fdiv_eq_ediv_of_nonneg _ hpos]
    rfl
  all_goals exact computes_of_runAlu fun _ => rfl

end Sys2Proof.Machine
end

section
/-! SUPPORT. Integer division (R126); O2. -/

namespace Sys2Proof.Machine

/-! ## The quotient and the remainder (R126) -/

/-- Rounding towards zero, by the magnitudes and the signs. -/
theorem tdiv_eq_natAbs (a b : Int) : a.tdiv b =
    if decide (a < 0) != decide (b < 0) then -((a.natAbs / b.natAbs : Nat) : Int) else ((a.natAbs / b.natAbs : Nat) : Int) := by
  have hpos (n : Nat) : ¬ (n : Int) < 0 := Int.not_lt.mpr n.cast_nonneg
  rcases a with a | a <;> rcases b with b | b <;> simp [Int.tdiv, hpos]

theorem typeMin_of_signed {t : Ty} (h : t.signed = true) : typeMin t = -(2 ^ (t.bits - 1) : Nat) := if_pos h

theorem divide_eq (t : Ty) (a b : Int) : divide t a b =
    if t.signed = true ∧ a = -(2 ^ (t.bits - 1) : Nat) ∧ b = -1 then (a, 0) else (a.tdiv b, a.tmod b) := by
  have hleast : (t.signed = true ∧ a = typeMin t ∧ b = -1) ↔ t.signed = true ∧ a = -(2 ^ (t.bits - 1) : Nat) ∧ b = -1 :=
    and_congr_right fun h => by rw [typeMin_of_signed h]
  simp only [divide, hleast, tdiv_eq_natAbs, Int.tmod_def, mul_comm]

theorem wrap_zero (w : Nat) : wrap w 0 = 0 := wrap_of_lt (Nat.two_pow_pos w)

/-- IDIV and IREM by the branches of R126. -/
theorem Opnd.divide_eq (x : Opnd) (w : CWord) (rem : Bool) : x.divide w rem =
    (let a := valOf w.ty (x.a w w.ty)
    let b := valOf w.ty (x.bb w w.ty)
    if b = 0 then .trap .intDiv0
    else if w.ty.signed = true ∧ a = -(2 ^ (w.ty.bits - 1) : Nat) ∧ b = -1 then
      .val w.ty.regs (if rem then 0 else wrap w.ty.bits a)
    else .val w.ty.regs (wrap w.ty.bits (if rem then a.tmod b else a.tdiv b))) := by
  simp only [Opnd.divide, Machine.divide_eq, intVal, narrow, Bool.false_eq_true, if_false]
  split_ifs <;> simp only [wrap_zero]

/-! ## A zero divisor of a uniform form (R126) -/

/-- The sources of a uniform form do not depend on the thread. -/
theorem Opnd.bb_of_uni {w : CWord} (h : w.uni = true) (t : Ty) (b : Block) (th th' : Thread) :
    ({ b, th } : Opnd).bb w t = ({ b, th := th' } : Opnd).bb w t := by
  simp only [Opnd.bb, Opnd.reg, h, if_true]

/-- A uniform instruction of the arithmetic shape whose function is the trap whatever the thread traps every thread. -/
theorem does_of_uniformTrap {i : Instr} {op : Nat} {w : CWord} {g : Opnd → Alu} {ok : Ctx → State → Prop} {k : Cause}
    (hi : ∀ s, exec i s = .next (s.runAlu op w g))
    (ht : ∀ c s, ok c s → (∃ n, (sig op w).d = .s n) ∧ ∀ th, g { b := c.b, th } = .trap k) :
    Does i op w ok Ctx.noEffect fun _ _ _ => .trap { cause := k } := by
  refine does_of_allTrap hi fun s iss b _ hok => ?_
  obtain ⟨⟨n, hd⟩, hg⟩ := ht _ _ hok
  simp only [State.aluAct, hd, hg]
  rfl

/-- A zero divisor in a uniform form is zero for every thread. -/
theorem Opnd.divide_trap {w : CWord} (huni : w.uni = true) {b : Block} {th : Thread}
    (h : valOf w.ty (({ b, th } : Opnd).bb w w.ty) = 0) (rem : Bool) (th' : Thread) :
    ({ b, th := th' } : Opnd).divide w rem = .trap .intDiv0 := by
  rw [Opnd.bb_of_uni huni _ b th th'] at h
  rw [Opnd.divide_eq]
  exact if_pos h

/-- Settles O2: the quotient by magnitudes and signs is the one rounded towards zero; a uniform divisor is the same for every
thread, so a zero one traps them all. -/
theorem integerDivision : Obligations.IntegerDivision := by
  refine ⟨fun w => ⟨?idiv, ?irem⟩, fun w => ⟨?idivTrap, ?iremTrap⟩⟩
  case idiv => exact computes_of_runAlu_eq (fun _ => rfl) fun x => x.divide_eq w false
  case irem => exact computes_of_runAlu_eq (fun _ => rfl) fun x => x.divide_eq w true
  all_goals exact does_of_uniformTrap (fun _ => rfl) fun c s ⟨huni, hd, hb⟩ => ⟨hd, Opnd.divide_trap huni hb _⟩

end Sys2Proof.Machine
end

section
/-! SUPPORT. Bits counted and reversed (R131); O3. -/

namespace Sys2Proof.Machine

theorem Opnd.a_lt (x : Opnd) (w : CWord) (t : Ty) : x.a w t < 2 ^ t.bits := Nat.mod_lt _ (Nat.two_pow_pos _)

/-- The number of leading zeros is known by the power of two just below the value. -/
theorem leadingZeros_eq {W a n : Nat} (hn : n ≤ W) (hlt : a < 2 ^ (W - n)) (hle : n < W → 2 ^ (W - 1 - n) ≤ a) :
    leadingZeros W a = n := by
  unfold leadingZeros
  rcases hn.eq_or_lt with rfl | hn
  · exact if_pos (by simpa using hlt)
  · have ha : a ≠ 0 := (lt_of_lt_of_le (Nat.two_pow_pos _) (hle hn)).ne'
    have hlog : a.log2 = W - 1 - n := (Nat.log2_eq_iff ha).mpr ⟨hle hn, by rwa [show W - 1 - n + 1 = W - n by omega]⟩
    rw [if_neg ha, hlog]
    omega

/-- The number of trailing zeros is known by the lowest bit that is set. -/
theorem trailingZeros_eq {W a n : Nat} (ha : a < 2 ^ W) (hn : n ≤ W) (hdvd : 2 ^ n ∣ a + if a = 0 then 2 ^ W else 0)
    (hbit : n < W → a.testBit n = true) : trailingZeros W a = n := by
  unfold trailingZeros
  rcases hn.eq_or_lt with rfl | hn
  · have h0 : a = 0 := by
      by_contra h0
      rw [if_neg h0, add_zero] at hdvd
      exact h0 (Nat.eq_zero_of_dvd_of_lt hdvd ha)
    have hnone : (List.range n).find? (a.testBit ·) = none := List.find?_eq_none.mpr fun i _ => by simp [h0]
    rw [hnone, Option.getD_none]
  · have hbit := hbit hn
    have h0 : a ≠ 0 := by rintro rfl; simp at hbit
    rw [if_neg h0, add_zero] at hdvd
    obtain ⟨q, rfl⟩ := hdvd
    have hfind : (List.range W).find? ((2 ^ n * q).testBit ·) = some n := by
      refine List.find?_range_eq_some.mpr ⟨hbit, List.mem_range.mpr hn, fun j hj => ?_⟩
      simp [Nat.testBit_two_pow_mul, hj]
    rw [hfind, Option.getD_some]

/-- The reversal of the lowest k bits, at the top of the width: what the reversed value has there. -/
theorem foldl_reverse_eq {W a v : Nat} (hv : v < 2 ^ W) (hbit : ∀ i < W, v.testBit i = a.testBit (W - 1 - i)) {k : Nat}
    (hk : k ≤ W) : (List.range k).foldl (fun r i => if a.testBit i then r + 2 ^ (W - 1 - i) else r) 0 =
      2 ^ (W - k) * (v / 2 ^ (W - k)) := by
  induction k with
  | zero => simp [Nat.div_eq_of_lt hv]
  | succ k ih =>
    obtain ⟨m, rfl⟩ : ∃ m, W = m + k + 1 := ⟨W - k - 1, by omega⟩
    have hm : m + k + 1 - 1 - k = m := by omega
    have hbit := hbit m (by omega)
    rw [show m + k + 1 - 1 - m = k by omega, Nat.testBit_eq_decide_div_mod_eq] at hbit
    have hdiv : v / 2 ^ (m + 1) = v / 2 ^ m / 2 := by rw [pow_succ, Nat.div_div_eq_div_mul]
    rw [List.range_succ, List.foldl_append, ih (by omega), List.foldl_cons, List.foldl_nil, hm,
      show m + k + 1 - k = m + 1 by omega, show m + k + 1 - (k + 1) = m by omega, hdiv, pow_succ, mul_assoc, ← hbit]
    have hhalf := Nat.div_add_mod (v / 2 ^ m) 2
    split
    · rename_i hodd
      rw [of_decide_eq_true hodd] at hhalf
      rw [← mul_add_one, hhalf]
    · rename_i heven
      rw [Nat.mod_two_ne_one.mp (by simpa using heven), add_zero] at hhalf
      rw [hhalf]

/-- The reversal is known by its bits. -/
theorem reverseBits_eq {W a v : Nat} (hv : v < 2 ^ W) (hbit : ∀ i < W, v.testBit i = a.testBit (W - 1 - i)) :
    reverseBits W a = v :=
  (foldl_reverse_eq hv hbit le_rfl).trans (by simp)

/-- Settles O3: each result is determined by what the statement says of it. -/
theorem bitCounts : Obligations.BitCounts := by
  intro w
  refine ⟨?popc, fun g hg => ?clz, fun g hg => ?ctz, fun g hg => ?brev⟩
  case popc => exact computes_of_runAlu_eq (fun _ => rfl) fun x => by rw [List.countP_eq_length_filter]; rfl
  case clz =>
    refine computes_of_runAlu_eq (fun _ => rfl) fun x => ?_
    obtain ⟨n, hn, hx, hlt, hle⟩ := hg x
    rw [hx, leadingZeros_eq hn hlt hle]
  case ctz =>
    refine computes_of_runAlu_eq (fun _ => rfl) fun x => ?_
    obtain ⟨n, hn, hx, hdvd, hbit⟩ := hg x
    rw [hx, trailingZeros_eq (x.a_lt w w.ty) hn hdvd hbit]
  case brev =>
    refine computes_of_runAlu_eq (fun _ => rfl) fun x => ?_
    obtain ⟨v, hv, hx, hbit⟩ := hg x
    rw [hx, reverseBits_eq hv hbit]

end Sys2Proof.Machine
end

section
/-! SUPPORT. Selection, moves, addresses and predicate logic (R132 to R134, R437); O5. -/

namespace Sys2Proof.Machine

theorem Opnd.reg_lt (x : Opnd) (uni : Bool) (t : Ty) (n : Nat) : x.reg uni t n < 2 ^ t.bits := Nat.mod_lt _ (Nat.two_pow_pos _)

/-- The sign bit of a code is set when the code lies in the upper half of its range. -/
theorem toSigned_eq_toInt {w x : Nat} (hw : w ≠ 0) : toSigned w x = (BitVec.ofNat w x).toInt := by
  obtain ⟨k, rfl⟩ := Nat.exists_eq_succ_of_ne_zero hw
  have hmod : x % 2 ^ (k + 1) = x % 2 ^ k + 2 ^ k * (x / 2 ^ k % 2) := by rw [pow_succ, Nat.mod_mul]
  have hlow : x % 2 ^ k < 2 ^ k := Nat.mod_lt _ (Nat.two_pow_pos k)
  have hsign : 2 * (x % 2 ^ (k + 1)) < 2 ^ (k + 1) ↔ ¬ x / 2 ^ k % 2 = 1 := by
    rcases Nat.mod_two_eq_zero_or_one (x / 2 ^ k) with h | h <;> rw [hmod, h, pow_succ] <;> omega
  simp only [toSigned, Nat.succ_eq_add_one, Nat.add_sub_cancel, BitVec.toInt, BitVec.toNat_ofNat, hsign, ite_not]

theorem wrap_eq_toNat_ofInt (w : Nat) (x : Int) : wrap w x = (BitVec.ofInt w x).toNat := (BitVec.toNat_ofInt x).symm

/-- Settles O5: each instruction is of the arithmetic shape; LEA's signed index is the 32-bit code read as two's
complement. -/
theorem movesAndAddresses : Obligations.MovesAndAddresses := by
  intro w
  refine ⟨?sel, ?mov, ?movi, ?lea, ?plop⟩
  case mov => exact computes_of_runAlu fun _ => rfl
  case movi => exact computes_of_runAlu fun _ => rfl
  case sel =>
    refine computes_of_runAlu_eq (fun _ => rfl) fun x => ?_
    have hpick : (x.th.pred (w.modF 0 3) != (w.modF 3 1 == 1)) = true ↔ x.th.pred (w.modF 0 3) = (w.modF 3 1 != 1) :=
      bne_iff_ne.trans Bool.eq_not.symm
    simp only [hpick]
  case lea =>
    refine computes_of_runAlu_eq (fun _ => rfl) fun x => ?_
    have h : x.reg w.uni .b32 w.b.toNat < 2 ^ 32 := x.reg_lt w.uni .b32 w.b.toNat
    simp only [toSigned_eq_toInt (by decide : 32 ≠ 0), BitVec.toNat_ofNat, Nat.mod_eq_of_lt h]
  case plop =>
    refine computes_of_runAlu_eq (fun _ => rfl) fun x => ?_
    simp only [bits, Nat.shiftRight_eq_div_pow, Bool.toNat, Bool.cond_eq_ite]
    rfl

end Sys2Proof.Machine
end

section
/-! SUPPORT. Logic, shifts, comparisons, bit fields and byte permutation (R127 to R130, R437); O4. -/

namespace Sys2Proof.Machine

/-! ## Shifts (R128) -/

theorem toSigned_bounds {w x : Nat} (hx : x < 2 ^ w) : -(2 ^ w : Int) ≤ toSigned w x ∧ toSigned w x < 2 ^ w := by
  have hcast : (x : Int) < 2 ^ w := by exact_mod_cast hx
  unfold toSigned
  rw [Nat.mod_eq_of_lt hx]
  push_cast
  split <;> constructor <;> omega

/-- A shift right by more than the width leaves the sign alone, as the shift by the width does. -/
theorem ediv_two_pow_of_le {x : Int} {w n : Nat} (hlo : -(2 ^ w : Int) ≤ x) (hhi : x < 2 ^ w) (h : w ≤ n) :
    x / 2 ^ n = x / 2 ^ w := by
  obtain ⟨k, rfl⟩ := Nat.exists_eq_add_of_le h
  have hpos : (0 : Int) < 2 ^ w := by positivity
  have hk : (0 : Int) < 2 ^ k := by positivity
  have hsign : x / 2 ^ w = 0 ∨ x / 2 ^ w = -1 := by
    have h1 : -1 ≤ x / 2 ^ w := (Int.le_ediv_iff_mul_le hpos).mpr (by omega)
    have h2 : x / 2 ^ w < 1 := (Int.ediv_lt_iff_lt_mul hpos).mpr (by omega)
    omega
  rw [pow_add, ← Int.ediv_ediv_of_nonneg hpos.le]
  rcases hsign with h | h <;> rw [h]
  · simp
  · rw [Int.neg_one_ediv, Int.sign_eq_one_of_pos hk]

theorem sarVal_eq {w x : Nat} (hx : x < 2 ^ w) (n : Nat) : sarVal w x n = wrap w ((toSigned w x).fdiv (2 ^ n)) := by
  obtain ⟨hlo, hhi⟩ := toSigned_bounds hx
  rw [Int.fdiv_eq_ediv_of_nonneg _ (by positivity), sarVal]
  rcases Nat.le_total n w with h | h
  · rw [Nat.min_eq_left h]
  · rw [Nat.min_eq_right h, ediv_two_pow_of_le hlo hhi h]

theorem shl_eq (w x n : Nat) : (if w ≤ n then 0 else x <<< n) % 2 ^ w = x * 2 ^ n % 2 ^ w := by
  split
  · rename_i h
    rw [Nat.zero_mod, Nat.mod_eq_zero_of_dvd ((Nat.pow_dvd_pow 2 h).mul_left x)]
  · rw [Nat.shiftLeft_eq]

theorem shr_eq {w x : Nat} (hx : x < 2 ^ w) (n : Nat) : (if w ≤ n then 0 else x >>> n) % 2 ^ w = x / 2 ^ n := by
  split
  · rename_i h
    rw [Nat.zero_mod, Nat.div_eq_of_lt (hx.trans_le (Nat.pow_le_pow_right (by decide) h))]
  · rw [Nat.shiftRight_eq_div_pow, Nat.mod_eq_of_lt ((Nat.div_le_self _ _).trans_lt hx)]

/-- A rotation brings the highest bits, shifted out, to the places that the shift has left 0. -/
theorem rotate_eq {w x k : Nat} (hx : x < 2 ^ w) (hk : k ≤ w) :
    (x <<< k ||| x >>> (w - k)) % 2 ^ w = x * 2 ^ k % 2 ^ w + x / 2 ^ (w - k) := by
  obtain ⟨m, rfl⟩ := Nat.exists_eq_add_of_le hk
  have hhigh : x / 2 ^ m < 2 ^ k := Nat.div_lt_of_lt_mul (by rwa [← pow_add, Nat.add_comm])
  have hfits : x / 2 ^ m < 2 ^ (k + m) := hhigh.trans_le (Nat.pow_le_pow_right (by decide) hk)
  rw [Nat.add_sub_cancel_left, Nat.or_mod_two_pow, Nat.shiftLeft_eq, Nat.shiftRight_eq_div_pow, Nat.mod_eq_of_lt hfits,
    mul_comm x, pow_add, Nat.mul_mod_mul_left, Nat.two_pow_add_eq_or_of_lt hhigh]

/-- Rotation by a count modulo the width; of no bits at all it gives 0. -/
theorem rotl_eq {w x : Nat} (hx : x < 2 ^ w) (n : Nat) :
    (x <<< (n % w) ||| x >>> (w - n % w)) % 2 ^ w = x * 2 ^ (n % w) % 2 ^ w + x / 2 ^ (w - n % w) := by
  rcases Nat.eq_zero_or_pos w with rfl | hw
  · obtain rfl : x = 0 := by simpa using hx
    simp
  · exact rotate_eq hx (Nat.mod_lt n hw).le

/-! ## Comparisons (R127) -/

theorem condInt_iff (t : Ty) (k a b : Nat) : condInt t k a b = true ↔ match k with
    | 0 => valOf t a = valOf t b
    | 1 => valOf t a ≠ valOf t b
    | 2 => valOf t a < valOf t b
    | 3 => valOf t a ≤ valOf t b
    | 4 => valOf t a > valOf t b
    | 5 => valOf t a ≥ valOf t b
    | 6 => a &&& b ≠ 0
    | _ => a &&& b = 0 := by
  unfold condInt
  split <;> simp

/-! ## Bit fields (R129) -/

/-- A number is known by its bits inside a width. -/
theorem eq_of_testBit_lt {w u v : Nat} (hu : u < 2 ^ w) (hv : v < 2 ^ w) (h : ∀ i < w, u.testBit i = v.testBit i) : u = v := by
  refine Nat.eq_of_testBit_eq fun i => ?_
  rcases Nat.lt_or_ge i w with hi | hi
  · exact h i hi
  · have hle : 2 ^ w ≤ 2 ^ i := Nat.pow_le_pow_right (by decide) hi
    rw [Nat.testBit_lt_two_pow (hu.trans_le hle), Nat.testBit_lt_two_pow (hv.trans_le hle)]

/-- A field of l bits extended with its sign. -/
theorem testBit_wrap_toSigned {w l x i : Nat} (hl : l ≠ 0) (hi : i < w) :
    (wrap w (toSigned l x)).testBit i = if i < l then x.testBit i else x.testBit (l - 1) := by
  have hlast : l - 1 < l := by omega
  rw [toSigned_eq_toInt hl, wrap_eq_toNat_ofInt, ← BitVec.signExtend, BitVec.testBit_toNat, BitVec.getLsbD_signExtend,
    BitVec.msb_eq_getLsbD_last, BitVec.getLsbD_ofNat, BitVec.getLsbD_ofNat]
  split
  · rename_i hil
    simp [hi, hil]
  · simp [hi, hlast]

/-- A field lies inside the width. -/
theorem fieldOf_add_le (w desc : Nat) : (fieldOf w desc).1 + (fieldOf w desc).2 ≤ w := by
  simp only [fieldOf]; omega

theorem fieldOf_snd_le (w desc : Nat) : (fieldOf w desc).2 ≤ w := (Nat.le_add_left _ _).trans (fieldOf_add_le w desc)

/-- The result of BFX: a field of source a, extended by zeros or by its sign. -/
def extractField (w a p l : Nat) (signed : Prop) [Decidable signed] : Nat :=
  if l = 0 then 0 else if signed then wrap w (toSigned l (a >>> p % 2 ^ l)) else a >>> p % 2 ^ l

theorem extractField_lt {w p l : Nat} (hl : l ≤ w) (a : Nat) (signed : Prop) [Decidable signed] :
    extractField w a p l signed < 2 ^ w := by
  unfold extractField
  split_ifs
  · exact Nat.two_pow_pos w
  · exact wrap_lt w _
  · exact (Nat.mod_lt _ (Nat.two_pow_pos l)).trans_le (Nat.pow_le_pow_right (by decide) hl)

theorem testBit_extractField {w p l i : Nat} (hi : i < w) (a : Nat) (signed : Prop) [Decidable signed] :
    (extractField w a p l signed).testBit i =
      if i < l then a.testBit (p + i) else decide signed && l != 0 && a.testBit (p + l - 1) := by
  unfold extractField
  rcases Nat.eq_zero_or_pos l with rfl | hl
  · simp
  · have hlast : l - 1 < l := by omega
    have hplace : p + l - 1 = p + (l - 1) := by omega
    rw [if_neg hl.ne', hplace]
    split_ifs with hs hil hil
    · rw [testBit_wrap_toSigned hl.ne' hi, if_pos hil, Nat.testBit_mod_two_pow, Nat.testBit_shiftRight]
      simp [hil]
    · rw [testBit_wrap_toSigned hl.ne' hi, if_neg hil, Nat.testBit_mod_two_pow, Nat.testBit_shiftRight]
      simp [hs, hl.ne', hlast]
    · simp [Nat.testBit_mod_two_pow, hil]
    · simp [Nat.testBit_mod_two_pow, hil, hs]

/-- BFX extracts the field of its descriptor, which is source b, a position and a length, or IMM. -/
theorem bfx_computes (w : CWord) : Computes (.bfx w) 0x098 w fun x =>
    let b := x.reg w.uni .b32 w.b.toNat
    let field := fieldOf w.ty.bits
      (if w.bsel = 0#2 then b else if w.bsel = 1#2 then b % 256 + 256 * (x.cword w % 256) else w.imm.toNat)
    .val w.ty.regs (extractField w.ty.bits (x.a w w.ty) field.1 field.2 (w.modF 0 1 = 1)) :=
  computes_of_runAlu fun _ => rfl

/-- The result of BFI: the low bits of source b in place of a field of source a. -/
def insertField (a b p l : Nat) : Nat := a - a >>> p % 2 ^ l * 2 ^ p + b % 2 ^ l * 2 ^ p

theorem insertField_eq (a b p l : Nat) :
    insertField a b p l = 2 ^ p * (2 ^ l * (a / 2 ^ p / 2 ^ l) + b % 2 ^ l) + a % 2 ^ p := by
  have ha : 2 ^ p * (a / 2 ^ p) + a % 2 ^ p = a := Nat.div_add_mod a (2 ^ p)
  have hq : 2 ^ l * (a / 2 ^ p / 2 ^ l) + a / 2 ^ p % 2 ^ l = a / 2 ^ p := Nat.div_add_mod _ _
  have hsplit : 2 ^ p * (2 ^ l * (a / 2 ^ p / 2 ^ l)) + a / 2 ^ p % 2 ^ l * 2 ^ p + a % 2 ^ p = a := by
    rw [mul_comm _ (2 ^ p), ← mul_add, hq, ha]
  rw [insertField, Nat.shiftRight_eq_div_pow, mul_add, mul_comm _ (2 ^ p)]
  rw [mul_comm _ (2 ^ p)] at hsplit ⊢
  omega

theorem testBit_insertField (a b p l i : Nat) : (insertField a b p l).testBit i =
    if p ≤ i ∧ i < p + l then b.testBit (i - p) else a.testBit i := by
  have hlow : a % 2 ^ p < 2 ^ p := Nat.mod_lt _ (Nat.two_pow_pos p)
  have hfield : b % 2 ^ l < 2 ^ l := Nat.mod_lt _ (Nat.two_pow_pos l)
  rw [insertField_eq, Nat.testBit_two_pow_mul_add _ hlow]
  split_ifs with hp hin hin
  · omega
  · simp [Nat.testBit_mod_two_pow, hp]
  · rw [Nat.testBit_two_pow_mul_add _ hfield, if_pos (by omega), Nat.testBit_mod_two_pow,
      decide_eq_true (show i - p < l by omega), Bool.true_and]
  · rw [Nat.testBit_two_pow_mul_add _ hfield, if_neg (by omega), Nat.testBit_div_two_pow, Nat.testBit_div_two_pow]
    congr 1; omega

theorem insertField_lt {w a p l : Nat} (ha : a < 2 ^ w) (hpl : p + l ≤ w) (b : Nat) : insertField a b p l < 2 ^ w := by
  refine Nat.lt_pow_two_of_testBit _ fun i hi => ?_
  rw [testBit_insertField, if_neg (by omega)]
  exact Nat.testBit_lt_two_pow (ha.trans_le (Nat.pow_le_pow_right (by decide) hi))

/-- BFI replaces the field of its descriptor, which is IMM, source c or source e. -/
theorem bfi_computes (w : CWord) : Computes (.bfi w) 0x099 w fun x =>
    let field := fieldOf w.ty.bits
      (if w.bsel = 0#2 then w.imm.toNat else if w.bsel = 1#2 then x.cword w else x.reg w.uni .b32 w.e)
    .val w.ty.regs (insertField (x.a w w.ty) (x.bb w w.ty) field.1 field.2) :=
  computes_of_runAlu fun _ => rfl

/-! ## Bytes (R130) -/

theorem two_pow_eight_mul (i : Nat) : 2 ^ (8 * i) = 256 ^ i := pow_mul 2 8 i

theorem byteOf_eq (x i : Nat) : byteOf x i = x / 256 ^ i % 256 := by
  rw [byteOf, Nat.shiftRight_eq_div_pow, two_pow_eight_mul]

/-- The bytes of a permutation, put together one after another. -/
theorem foldl_bytes_eq (f : Nat → Nat) (js : List Nat) :
    js.foldl (fun acc j => acc + f j * 2 ^ (8 * j)) 0 = (js.map fun j => 256 ^ j * f j).sum := by
  simp only [two_pow_eight_mul, mul_comm (f _), List.sum_eq_foldl, List.foldl_map]

theorem permByte_eq (mode a y k j : Nat) : permByte mode a y k j = match mode with
    | 0 => y / 256 ^ (k / 16 ^ j % 16) % 256
    | 1 => a / 256 ^ (j ^^^ (2 ^ (k % 4) - 1)) % 256
    | 2 => y / 256 ^ (2 * j) % 256
    | 3 => if j % 2 = 0 then a / 256 ^ (j / 2) % 256 else if k % 2 = 1 ∧ 128 ≤ a / 256 ^ (j / 2) % 256 then 255 else 0
    | _ => y / 256 ^ (k % 16) % 256 := by
  match mode with
  | 0 =>
    have hnibble : k >>> (4 * j) = k / 16 ^ j := by rw [Nat.shiftRight_eq_div_pow, show 2 ^ (4 * j) = 16 ^ j from pow_mul 2 4 j]
    simp only [permByte, byteOf_eq, hnibble]
  | 1 => exact byteOf_eq _ _
  | 2 => exact byteOf_eq _ _
  | 3 =>
    simp only [permByte, byteOf_eq]
    refine ite_congr rfl (fun _ => rfl) fun hodd => ?_
    rw [show (j - 1) / 2 = j / 2 by omega]
  | n + 4 => exact byteOf_eq _ _

/-! ## The obligation -/

theorem low_of_lt {t : Ty} {x : Nat} (h : x < 2 ^ t.bits) : low t x = x := Nat.mod_eq_of_lt h

theorem Opnd.bb_lt (x : Opnd) (w : CWord) (t : Ty) : x.bb w t < 2 ^ t.bits := by
  unfold Opnd.bb
  split <;> exact Nat.mod_lt _ (Nat.two_pow_pos _)

/-- Settles O4: logic keeps inside the width; a shift is a product or a quotient by a power of two; a condition holds as its
code says; a field, inserted or extracted, and a permutation are determined by their bits and bytes. -/
theorem logicShiftsAndFields : Obligations.LogicShiftsAndFields := by
  refine ⟨fun w => ⟨?and, ?or, ?xor, ?not, ?andn, ?shl, ?shr, ?sar, ?rotl, ?funnel⟩,
    fun w => ⟨fun g hg => ?icmp, fun g hg => ?iset⟩, fun w => ⟨fun g hg => ?bfx, fun g hg => ?bfi, ?prmt⟩⟩
  case and =>
    exact computes_of_runAlu_eq (fun _ => rfl) fun x => Alu.val_congr (low_of_lt (Nat.and_lt_two_pow _ (x.bb_lt w w.ty)))
  case or =>
    exact computes_of_runAlu_eq (fun _ => rfl) fun x =>
      Alu.val_congr (low_of_lt (Nat.or_lt_two_pow (x.a_lt w w.ty) (x.bb_lt w w.ty)))
  case xor =>
    exact computes_of_runAlu_eq (fun _ => rfl) fun x =>
      Alu.val_congr (low_of_lt (Nat.xor_lt_two_pow (x.a_lt w w.ty) (x.bb_lt w w.ty)))
  case not => exact computes_of_runAlu fun _ => rfl
  case andn =>
    exact computes_of_runAlu_eq (fun _ => rfl) fun x => Alu.val_congr (low_of_lt (Nat.and_le_left.trans_lt (x.a_lt w w.ty)))
  case shl => exact computes_of_runAlu_eq (fun _ => rfl) fun x => Alu.val_congr (shl_eq _ _ _)
  case shr => exact computes_of_runAlu_eq (fun _ => rfl) fun x => Alu.val_congr (shr_eq (x.a_lt w w.ty) _)
  case sar =>
    exact computes_of_runAlu_eq (fun _ => rfl) fun x =>
      Alu.val_congr ((low_of_lt (wrap_lt _ _)).trans (sarVal_eq (x.a_lt w w.ty) _))
  case rotl => exact computes_of_runAlu_eq (fun _ => rfl) fun x => Alu.val_congr (rotl_eq (x.a_lt w w.ty) _)
  case funnel =>
    refine computes_of_runAlu_eq (fun _ => rfl) fun x => ?_
    simp only [Nat.shiftRight_eq_div_pow]
    rfl
  case icmp =>
    refine computes_of_runAlu_eq (fun _ => rfl) fun x => ?_
    obtain ⟨p, hx, hp⟩ := hg x
    rw [hx, Bool.eq_iff_iff.mpr ((condInt_iff _ _ _ _).trans hp.symm)]
  case iset =>
    refine computes_of_runAlu_eq (fun _ => rfl) fun x => ?_
    obtain ⟨p, hp, hx⟩ := hg x
    obtain rfl : condInt w.ty (w.modF 0 3) (x.a w w.ty) (x.bb w w.ty) = p :=
      Bool.eq_iff_iff.mpr ((condInt_iff _ _ _ _).trans hp.symm)
    exact hx.symm
  case bfx =>
    refine (bfx_computes w).congr fun x => ?_
    obtain ⟨v, hx, hv, hbit⟩ := hg x
    rw [hx]
    refine Alu.val_congr (eq_of_testBit_lt (extractField_lt (fieldOf_snd_le _ _) _ _) hv fun i hi => ?_)
    rw [hbit i hi]
    exact testBit_extractField hi _ _
  case bfi =>
    refine (bfi_computes w).congr fun x => ?_
    obtain ⟨v, hx, hv, hbit⟩ := hg x
    rw [hx]
    refine Alu.val_congr (eq_of_testBit_lt (insertField_lt (x.a_lt w w.ty) (fieldOf_add_le _ _) _) hv fun i hi => ?_)
    rw [hbit i hi]
    exact testBit_insertField _ _ _ _ _
  case prmt =>
    refine computes_of_runAlu_eq (fun _ => rfl) fun x => ?_
    dsimp only
    refine ite_congr rfl (fun _ => rfl) fun _ => Alu.val_congr ((foldl_bytes_eq _ _).trans ?_)
    exact congrArg List.sum (List.map_congr_left fun j _ => congrArg (256 ^ j * ·) (permByte_eq _ _ _ _ _))

end Sys2Proof.Machine
end

section
/-! SUPPORT. Float choices, conditions, classes and integral values (R137 to R140); O7. -/

namespace Sys2Proof.Machine

/-! ## Flushed codes and choices (R22, R137) -/

theorem flushCode_lt (f : Fmt) (z : Bool) (c : Nat) : flushCode f z c < 2 ^ f.width := by
  have h : c % 2 ^ f.width < 2 ^ f.width := Nat.mod_lt _ (Nat.two_pow_pos _)
  unfold flushCode flushResult
  split_ifs
  · exact (Nat.sub_le _ _).trans_lt h
  · exact h
  · exact h

/-- FMIN and FMAX choose between the flushed codes themselves (R137). -/
theorem pickMinMax_flushed (f : Fmt) (isMax : Bool) (z : Bool) (c d : Nat) :
    pickMinMax f isMax (flushCode f z c) (flushCode f z d) =
    let a := flushCode f z c
    let b := flushCode f z d
    if (f.decode a).isNan ∧ (f.decode b).isNan then f.nanCode
    else if (f.decode a).isNan then b
    else if (f.decode b).isNan then a
    else match (f.decode a).cmp (f.decode b) with
      | .lt => if isMax then b else a
      | .gt => if isMax then a else b
      | .eq => if (f.decode a).sign = isMax then b else a := by
  unfold pickMinMax
  simp only [Nat.mod_eq_of_lt (flushCode_lt f z _)] <;> rfl

/-! ## Conditions (R138) -/

/-- The condition of R138 between values that are no NaN, by their order. -/
theorem condFloat_of_order {a b : Fp} (ha : a.isNan = false) (hb : b.isNan = false) (u : Bool) :
    (condFloat 0 u a b = true ↔ a.cmp b = .eq) ∧ (condFloat 1 u a b = true ↔ a.cmp b ≠ .eq) ∧
    (condFloat 2 u a b = true ↔ a.cmp b = .lt) ∧ (condFloat 3 u a b = true ↔ a.cmp b ≠ .gt) ∧
    (condFloat 4 u a b = true ↔ a.cmp b = .gt) ∧ (condFloat 5 u a b = true ↔ a.cmp b ≠ .lt) ∧
    condFloat 6 u a b = true ∧ condFloat 7 u a b = false := by
  cases h : a.cmp b <;> simp [condFloat, ha, hb, h]

/-- A NaN makes the six order conditions false, or true with .u (R138). -/
theorem condFloat_of_nan {a b : Fp} (h : a.isNan = true ∨ b.isNan = true) (u : Bool) :
    (∀ k < 6, condFloat k u a b = u) ∧ condFloat 6 u a b = false ∧ condFloat 7 u a b = true := by
  have hnan : (a.isNan || b.isNan) = true := Bool.or_eq_true _ _ ▸ h
  refine ⟨fun k hk => ?_, ?_, ?_⟩
  · interval_cases k <;> simp [condFloat, hnan]
  · simp [condFloat, hnan]
  · simp [condFloat, hnan]

/-! ## Integral values (R140) -/

/-- A zero takes the sign of its source; any other integral value is put into the format (R140). -/
theorem roundIntegral_fin (f : Fmt) (m : Mode) (sr : Nat) (s : Bool) (n d : Nat) (e : Int) :
    roundIntegral f m sr (.fin s n d e) = if n = 0 ∨ roundInt m sr s n d e = 0 then f.signed s 0
      else roundTo f .rz 0 s (roundInt m sr s n d e).natAbs 1 0 := by
  by_cases hn : n = 0
  · simp only [roundIntegral, hn, true_or, if_true]
  · simp only [roundIntegral, hn, if_false, false_or]

/-! ## The obligation -/

/-- Settles O7: each instruction is of the arithmetic shape, and a flushed code decodes as it stands; a condition by the
order of its sources, or by a NaN among them. -/
theorem floatSelection : Obligations.FloatSelection := by
  refine ⟨fun w => ⟨?fmin, ?fmax, ?fcmp, ?fset, ?fclass, ?frnd⟩,
    fun u a b => ⟨fun ha hb => condFloat_of_order ha hb u, fun h => condFloat_of_nan h u⟩⟩
  case fmin =>
    exact computes_of_runAlu_eq (fun _ => rfl) fun x => Alu.val_congr (congrArg _ (pickMinMax_flushed _ false _ _ _))
  case fmax =>
    exact computes_of_runAlu_eq (fun _ => rfl) fun x => Alu.val_congr (congrArg _ (pickMinMax_flushed _ true _ _ _))
  case fcmp => exact computes_of_runAlu fun _ => rfl
  case fset =>
    refine computes_of_runAlu_eq (fun _ => rfl) fun x => Alu.val_congr ?_
    show _ = if x.fcond w then _ else 0
    cases x.fcond w <;> rfl
  case fclass => exact computes_of_runAlu fun _ => rfl
  case frnd =>
    refine computes_of_runAlu_eq (fun _ => rfl) fun x => Alu.val_congr (congrArg _ ?_)
    show _ = match x.fp w (fmt w.ty) (x.un w w.ty) with
      | .nan => _
      | .inf s => _
      | .fin s n d e => _
    cases x.fp w (fmt w.ty) (x.un w w.ty) with
    | nan => rfl
    | inf s => rfl
    | fin s n d e => exact roundIntegral_fin _ _ _ _ _ _ _

end Sys2Proof.Machine
end

section
/-! SUPPORT. The special functions (R145); O9. -/

namespace Sys2Proof.Machine

/-- Settles O9: each instruction is of the arithmetic shape; the special operands are the first branches of its function. -/
theorem specialFunctions : Obligations.SpecialFunctions := by
  refine ⟨fun w => ?_, fun f hf => ?_⟩
  · refine ⟨?_, ?_, ?_, ?_, ?_, ?_, ?_, ?_⟩
    all_goals exact computes_of_runAlu fun _ => rfl
  · refine ⟨?nan, ?zero, ?posInf, ?negInf, ?negative, ?rcp⟩
    case nan => intro g; cases g <;> rfl
    case zero => intro s d e; refine ⟨?_, ?_, ?_, ?_, ?_, ?_, ?_, ?_⟩ <;> rfl
    case posInf => refine ⟨?_, ?_, ?_, ?_, ?_, ?_, ?_, ?_⟩ <;> rfl
    case negInf => refine ⟨?_, ?_, ?_, ?_, ?_, ?_, ?_, ?_⟩ <;> rfl
    case negative => intro n d e hn; refine ⟨?_, ?_, ?_⟩ <;> exact if_neg hn
    case rcp => intro s n d e hn; exact if_neg hn

end Sys2Proof.Machine
end

section
/-! SUPPORT. BINQ waits for the matrix engine (R155 to R157, R195, R209); O12. -/

namespace Sys2Proof.Machine

/-- BINQ stands while the engine performs an issue of other threads (R195, R209): every active thread issues it again. -/
theorem binq_stands (w : CWord) : DoesAll (.binq w) 0x198 w (fun c _ => c.b.engineBusy c.iss = true) (fun _ s => s)
    fun _ _ _ => .again :=
  doesAll_of_runIssue (fun _ => rfl) (fun _ _ _ _ hbusy => if_pos hbusy) fun _ _ b h _ => ⟨b, h.found, fun _ k => k⟩

/-- Where an active thread stands after its issue. -/
theorem Retires.pc_of_fate {s t : State} {c : Ctx} {b : Block} {f : Nat × Nat → Fate} (h : Retires s t c b f) {x : Nat × Nat}
    (hx : x ∈ c.act) (hths : x ∈ c.iss.ths) :
    ∃ b', t.block? c.iss.blk = some b' ∧ (b'.th x.2).pc = ((b.th x.2).apply c s.clock.time (f x)).pc := by
  obtain ⟨b', hb', hth, -⟩ := h.block
  refine ⟨b', hb', ?_⟩
  rw [hth x hths, Ctx.after, Ctx.fateOf, if_pos (List.contains_iff_mem.mpr hx)]

/-! ## A block whose engine is busy -/

/-- A BINQ of no thresholds. -/
def binqWord : CWord := { d := 4#8, a := 5#8, ty := .f32 }

/-- A block of two threads, of which the matrix engine has begun an issue of thread 0. -/
def engineBlock : Block := { id := 1, cfg := { bsize := 2, tiles := 1 }, threads := [{}, {}], engine := [0] }

/-- An issue of thread 1, of one long word. -/
def engineIssue : Issue := { blk := 1, ths := [(0, 1)], len := 8 }

def engineState : State := { blocks := [engineBlock], cur := some engineIssue }

theorem engineState_runs : (engineState.arrive engineIssue 0x198).Runs engineIssue 0x198 binqWord engineBlock := by
  have hfound : engineState.block? engineIssue.blk = some engineBlock := rfl
  have hhas : ∀ x ∈ engineIssue.ths, engineBlock.has x.2 := by simp [engineIssue, engineBlock, Block.has]
  rw [State.Runs.arrive_eq hfound (by decide)]
  exact { found := hfound, nodup := by decide, has := hhas, place := by decide, mode := by decide, static := by decide,
          sound := by decide, room := by decide }

/-- Refutes O12: BINQ waits for the matrix engine (R195, R209), which the statement leaves out. While the engine holds an
issue of thread 0, a BINQ of thread 1 leaves its thread where it stands, and the statement has it go on. -/
theorem not_ensembles : ¬ Obligations.Ensembles := by
  intro h
  obtain ⟨⟨hbinq, -⟩, -⟩ := h binqWord
  have hact : (ctxOf engineIssue 0x198 binqWord engineBlock).act = [(0, 1)] := by decide
  have hne : (ctxOf engineIssue 0x198 binqWord engineBlock).act ≠ [] := by simp [hact]
  obtain ⟨t, b, hgoes, -, hret⟩ := hbinq engineState engineIssue engineBlock rfl engineState_runs hne nofun
  obtain ⟨u, b', hstands, hb', hret'⟩ := binq_stands binqWord engineState engineIssue engineBlock rfl engineState_runs hne rfl
  obtain rfl : engineBlock = b' := Option.some.inj ((engineState_runs.ready _).found.symm.trans hb')
  rw [State.conclude_quiet _ _ _ (by rw [Ctx.actFates, hact]; exact List.forall_mem_singleton.mpr rfl)] at hgoes
  rw [State.conclude_quiet _ _ _ (by rw [Ctx.actFates, hact]; exact List.forall_mem_singleton.mpr rfl)] at hstands
  obtain rfl : t = u := by injection hgoes.symm.trans hstands
  have hmem : (0, 1) ∈ (ctxOf engineIssue 0x198 binqWord engineBlock).act := by simp [hact]
  obtain ⟨b1, hb1, hpc1⟩ := hret.pc_of_fate hmem List.mem_cons_self
  obtain ⟨b2, hb2, hpc2⟩ := hret'.pc_of_fate hmem List.mem_cons_self
  obtain rfl : b1 = b2 := Option.some.inj (hb1.symm.trans hb2)
  have hnext : (b1.th 1).pc = 8#64 := hpc1
  have hstill : (b1.th 1).pc = 0#64 := hpc2
  exact absurd (hnext.symm.trans hstill) (by decide)

end Sys2Proof.Machine
end

section
/-! SUPPORT. Codes by sign and magnitude, and FinishFloat (R10, R11, R22 to R24, R136); O6. -/

namespace Sys2Proof.Machine

/-! ## Codes by sign and magnitude (R10, R11) -/

theorem Fmt.maxCode_lt (f : Fmt) : f.maxCode < f.signBit := by cases f <;> decide
theorem Fmt.infCode_lt (f : Fmt) : f.infCode < f.signBit := by cases f <;> decide

theorem Fmt.infCode_eq {f : Fmt} (h : f.hasInf = true) : f.infCode = f.maxCode + 1 := by
  have hpos : 0 < f.infCode := by cases f <;> decide
  rw [Fmt.maxCode, if_pos h, Nat.sub_add_cancel hpos]

theorem Fmt.signed_mod {f : Fmt} {mag : Nat} (h : mag < f.signBit) (s : Bool) : f.signed s mag % f.signBit = mag := by
  cases s
  · exact Nat.mod_eq_of_lt h
  · exact (Nat.add_mod_left _ _).trans (Nat.mod_eq_of_lt h)

theorem Fmt.signed_sign {f : Fmt} {mag : Nat} (h : mag < f.signBit) (s : Bool) :
    (f.signed s mag / f.signBit % 2 == 1) = s := by
  have hpos : 0 < f.signBit := Nat.two_pow_pos _
  cases s
  · simp [Fmt.signed, Nat.div_eq_of_lt h]
  · simp [Fmt.signed, Nat.add_div_left _ hpos, Nat.div_eq_of_lt h]

/-- The overflow table (R23). -/
theorem overflowCode_eq (f : Fmt) (mode : Mode) (neg : Bool) : overflowCode f mode neg =
    if f.hasInf = true ∧ (mode = .rn ∨ mode = .rna ∨ mode = .sr ∨ mode = if neg then .rd else .ru) then f.infCode
    else f.maxCode := by
  unfold overflowCode
  cases f.hasInf <;> cases mode <;> cases neg <;> simp

theorem overflowCode_lt (f : Fmt) (mode : Mode) (neg : Bool) : overflowCode f mode neg < f.signBit := by
  have hcode : overflowCode f mode neg = f.infCode ∨ overflowCode f mode neg = f.maxCode := by
    rw [overflowCode_eq]
    exact ite_eq_or_eq _ _ _
  rcases hcode with h | h <;> rw [h]
  · exact f.infCode_lt
  · exact f.maxCode_lt

/-! ## FinishFloat (R22, R24, R136) -/

theorem flushResult_signed {f : Fmt} {mag : Nat} (h : mag < f.signBit) (ftz s : Bool) :
    flushResult f ftz (f.signed s mag) = f.signed s (if ftz = true ∧ 0 < mag ∧ mag < 2 ^ f.man then 0 else mag) := by
  have hzero : f.signed s mag - mag = f.signed s 0 := by cases s <;> simp [Fmt.signed]
  simp only [flushResult, Fmt.subnormal, Fmt.signed_mod h, decide_eq_true_eq, hzero]
  split <;> rfl

theorem satCode_signed {f : Fmt} {mag : Nat} (h : mag < f.signBit) (sat s : Bool) :
    satCode f sat (f.signed s mag) =
      f.signed s (if sat = true ∧ f.hasInf = true ∧ mag = f.infCode then f.maxCode else mag) := by
  simp only [satCode, Fmt.signed_mod h]
  split
  · rename_i hsat
    obtain ⟨-, hinf, rfl⟩ := hsat
    rw [Fmt.infCode_eq hinf]
    cases s <;> rfl
  · rfl

/-- The exponent of a value's spacing (R21). -/
def roundExp (f : Fmt) (n d : Nat) (e : Int) : Int := max (floorLog2 n d + e) f.emin

/-- The rounded magnitude in units of its spacing (R21). -/
def roundUnits (f : Fmt) (mode : Mode) (sr : Nat) (neg : Bool) (n d : Nat) (e : Int) : Nat :=
  let (k, rem, den) := scaledDiv n d (e - roundExp f n d e + f.man)
  if roundUp mode neg k rem den sr then k + 1 else k

/-- The rounded magnitude as a code, beyond the largest finite one too. -/
def roundMag (f : Fmt) (mode : Mode) (sr : Nat) (neg : Bool) (n d : Nat) (e : Int) : Nat :=
  (roundExp f n d e - f.emin).toNat * 2 ^ f.man + roundUnits f mode sr neg n d e

theorem roundTo_eq (f : Fmt) (mode : Mode) (sr : Nat) (neg : Bool) (n d : Nat) (e : Int) : roundTo f mode sr neg n d e =
    f.signed neg (if f.maxCode < roundMag f mode sr neg n d e then overflowCode f mode neg else roundMag f mode sr neg n d e) :=
  rfl

theorem roundTo_eq_signed (f : Fmt) (mode : Mode) (sr : Nat) (neg : Bool) (n d : Nat) (e : Int) :
    ∃ mag < f.signBit, roundTo f mode sr neg n d e = f.signed neg mag := by
  refine ⟨_, ?_, roundTo_eq f mode sr neg n d e⟩
  split
  · exact overflowCode_lt f mode neg
  · rename_i h
    exact (Nat.not_lt.mp h).trans_lt f.maxCode_lt

theorem finishFloat_nan (f : Fmt) (mode : Mode) (sr : Nat) (ftz sat : Bool) : finishFloat f mode sr ftz sat .nan = f.nanCode := by
  have hsub : f.subnormal f.nanCode = false := by cases f <;> decide
  have hinf : f.nanCode % f.signBit ≠ f.infCode := by cases f <;> decide
  simp [finishFloat, flushResult, satCode, hsub, hinf]

theorem finishFloat_inf (f : Fmt) (mode : Mode) (sr : Nat) (ftz sat neg : Bool) : finishFloat f mode sr ftz sat (.inf neg) =
    f.signed neg (if f.hasInf = true ∧ sat = false then f.infCode else f.maxCode) := by
  have hinf : ¬ f.infCode < 2 ^ f.man := by cases f <;> decide
  have hmax : ¬ f.maxCode < 2 ^ f.man := by cases f <;> decide
  simp only [finishFloat]
  cases h : f.hasInf
  · simp [flushResult_signed f.maxCode_lt, satCode_signed f.maxCode_lt, hmax, h]
  · cases sat <;> simp [flushResult_signed f.infCode_lt, satCode_signed f.infCode_lt, hinf, h]

theorem finishFloat_zero (f : Fmt) (mode : Mode) (sr : Nat) (ftz sat neg : Bool) (d : Nat) (e : Int) :
    finishFloat f mode sr ftz sat (.fin neg 0 d e) = f.signed neg 0 := by
  have hpos : 0 < f.signBit := Nat.two_pow_pos _
  have hinf : 0 ≠ f.infCode := by cases f <;> decide
  simp [finishFloat, flushResult_signed hpos, satCode_signed hpos, hinf]

theorem finishFloat_fin {n : Nat} (hn : n ≠ 0) (f : Fmt) (mode : Mode) (sr : Nat) (ftz sat neg : Bool) (d : Nat) (e : Int) :
    finishFloat f mode sr ftz sat (.fin neg n d e) =
      let r := roundTo f mode sr neg n d e
      if ftz = true ∧ 0 < r % f.signBit ∧ r % f.signBit < 2 ^ f.man then f.signed neg 0
      else if sat = true ∧ f.hasInf = true ∧ r = f.signed neg f.infCode then f.signed neg f.maxCode
      else r := by
  obtain ⟨mag, hmag, hr⟩ := roundTo_eq_signed f mode sr neg n d e
  have hpos : 0 < f.signBit := Nat.two_pow_pos _
  have hzero : 0 ≠ f.infCode := by cases f <;> decide
  have hinf : f.signed neg mag = f.signed neg f.infCode ↔ mag = f.infCode :=
    ⟨fun h => by rw [← Fmt.signed_mod hmag neg, h, Fmt.signed_mod f.infCode_lt], fun h => h ▸ rfl⟩
  simp only [finishFloat, if_neg hn, hr, flushResult_signed hmag, Fmt.signed_mod hmag, hinf]
  split
  · rw [satCode_signed hpos, if_neg fun h => hzero h.2.2]
  · rw [satCode_signed hmag]
    split <;> rfl

end Sys2Proof.Machine
end

section
/-! SUPPORT. The values of codes, and RoundTo (R10, R18, R21, R23); O6. -/

namespace Sys2Proof.Machine

/-! ## The value of a code (R10) -/

/-- The magnitude that a code without its sign stands for. -/
def Fmt.value (f : Fmt) (mag : Nat) : ℚ :=
  if mag / 2 ^ f.man = 0 then (mag % 2 ^ f.man : Nat) * 2 ^ (f.emin - f.man)
  else (2 ^ f.man + mag % 2 ^ f.man : Nat) * 2 ^ (f.emin - f.man + (mag / 2 ^ f.man - 1 : Nat))

theorem Fmt.decode_signed {f : Fmt} {mag : Nat} (h : mag ≤ f.maxCode) (s : Bool) :
    ∃ n e, f.decode (f.signed s mag) = .fin s n 1 e ∧ (n : ℚ) * 2 ^ e = f.value mag := by
  have hlt := h.trans_lt f.maxCode_lt
  have hinf : ¬ (f.hasInf = true ∧ mag = f.infCode) := fun ⟨hf, hm⟩ => by have := Fmt.infCode_eq hf; omega
  have hnan : ¬ ((f.hasInf = true ∧ mag > f.infCode) ∨ (f = .e4m3 ∧ mag = 0x7F)) := by
    rintro (⟨hf, hm⟩ | ⟨rfl, rfl⟩)
    · have := Fmt.infCode_eq hf; omega
    · exact absurd h (by decide)
  simp only [Fmt.decode, Fmt.signed_mod hlt, Fmt.signed_sign hlt, if_neg hinf, if_neg hnan, Fmt.value]
  split
  · exact ⟨_, _, rfl, rfl⟩
  · exact ⟨_, _, rfl, rfl⟩

theorem Fmt.decode_inf {f : Fmt} (h : f.hasInf = true) (s : Bool) : f.decode (f.signed s f.infCode) = .inf s := by
  simp [Fmt.decode, Fmt.signed_mod f.infCode_lt, Fmt.signed_sign f.infCode_lt, h]

/-- A binade holds the multiples of its spacing from the implicit bit on; the subnormals share the first one's. -/
theorem Fmt.value_of_lt (f : Fmt) {j y : Nat} (hy : y < 2 ^ (f.man + 1)) (hj : j ≠ 0 → 2 ^ f.man ≤ y) :
    f.value (j * 2 ^ f.man + y) = y * 2 ^ (f.emin + j - f.man) := by
  have hpos : 0 < 2 ^ f.man := Nat.two_pow_pos _
  rw [pow_succ] at hy
  rcases Nat.lt_or_ge y (2 ^ f.man) with h | h
  · obtain rfl : j = 0 := by by_contra hne; exact absurd (hj hne) (Nat.not_le.mpr h)
    simp [Fmt.value, Nat.div_eq_of_lt h, Nat.mod_eq_of_lt h]
  · obtain ⟨m, rfl⟩ := Nat.exists_eq_add_of_le h
    have hm : m < 2 ^ f.man := by omega
    have hmag : j * 2 ^ f.man + (2 ^ f.man + m) = m + 2 ^ f.man * (j + 1) := by ring
    have hexp : f.emin + j - f.man = f.emin - f.man + j := by ring
    rw [hmag, Fmt.value, Nat.add_mul_div_left _ _ hpos, Nat.add_mul_mod_self_left, Nat.div_eq_of_lt hm, Nat.mod_eq_of_lt hm,
      if_neg (by omega), zero_add, Nat.add_sub_cancel, hexp]

/-- Rounding up may reach the first value of the next binade. -/
theorem Fmt.value_of_le (f : Fmt) {j y : Nat} (hy : y ≤ 2 ^ (f.man + 1)) (hj : j ≠ 0 → 2 ^ f.man ≤ y) :
    f.value (j * 2 ^ f.man + y) = y * 2 ^ (f.emin + j - f.man) := by
  rcases hy.lt_or_eq with h | rfl
  · exact f.value_of_lt h hj
  · have hmag : j * 2 ^ f.man + 2 ^ (f.man + 1) = (j + 1) * 2 ^ f.man + 2 ^ f.man := by ring
    have hexp : f.emin + (j + 1 : Nat) - f.man = f.emin + j - f.man + 1 := by push_cast; ring
    rw [hmag, f.value_of_lt (Nat.pow_lt_pow_right (by decide) (Nat.lt_succ_self _)) fun _ => le_rfl, hexp,
      zpow_add_one₀ two_ne_zero]
    push_cast
    ring

/-- Every code without its sign is a multiple of the spacing of its binade. -/
theorem Fmt.exists_units (f : Fmt) (mag : Nat) :
    ∃ j y, mag = j * 2 ^ f.man + y ∧ y < 2 ^ (f.man + 1) ∧ (j ≠ 0 → 2 ^ f.man ≤ y) := by
  have hpos : 0 < 2 ^ f.man := Nat.two_pow_pos _
  have hmod := Nat.mod_lt mag hpos
  have hdiv := Nat.div_add_mod' mag (2 ^ f.man)
  rw [pow_succ]
  cases hq : mag / 2 ^ f.man with
  | zero => exact ⟨0, mag, by simp, by rw [hq] at hdiv; omega, fun h => absurd rfl h⟩
  | succ j =>
    rw [hq, Nat.succ_mul] at hdiv
    exact ⟨j, 2 ^ f.man + mag % 2 ^ f.man, by omega, by omega, fun _ => Nat.le_add_right _ _⟩

theorem Fmt.value_strictMono (f : Fmt) : StrictMono f.value := by
  refine strictMono_nat_of_lt_succ fun mag => ?_
  obtain ⟨j, y, rfl, hy, hj⟩ := f.exists_units mag
  have hspacing : (0 : ℚ) < 2 ^ (f.emin + j - f.man) := by positivity
  rw [f.value_of_lt hy hj, add_assoc, f.value_of_le hy fun h => (hj h).trans (Nat.le_succ y)]
  exact mul_lt_mul_of_pos_right (by exact_mod_cast Nat.lt_succ_self y) hspacing

theorem Fmt.value_maxCode (f : Fmt) : f.value f.maxCode = f.top := by
  cases f <;> simp only [Fmt.maxCode, Fmt.hasInf, reduceCtorEq, Bool.false_eq_true, if_true, if_false]
  case f64 =>
    norm_num [Fmt.value, Fmt.top, Fmt.infCode, Fmt.man, Fmt.exp, Fmt.emin, Fmt.bias]
    rw [pow_add 2 52 971, ← mul_assoc]
    norm_num
  all_goals norm_num [Fmt.value, Fmt.top, Fmt.infCode, Fmt.man, Fmt.exp, Fmt.emin, Fmt.bias]

/-! ## The spacing of a value (R21) -/

theorem two_zpow_eq_div (k : Int) : (2 : ℚ) ^ k = 2 ^ k.toNat / 2 ^ (-k).toNat := by
  rcases le_total 0 k with h | h
  · obtain ⟨m, rfl⟩ := Int.eq_ofNat_of_zero_le h
    simp
  · obtain ⟨m, hm⟩ := Int.eq_ofNat_of_zero_le (neg_nonneg.mpr h)
    obtain rfl : k = -m := by omega
    simp

/-- The quotient of two naturals lies in the binade of floorLog2. -/
theorem floorLog2_bounds {n d : Nat} (hn : n ≠ 0) (hd : d ≠ 0) :
    (2 : ℚ) ^ floorLog2 n d ≤ n / d ∧ (n / d : ℚ) < 2 ^ (floorLog2 n d + 1) := by
  have hdq : (0 : ℚ) < d := by exact_mod_cast Nat.pos_of_ne_zero hd
  have hnlo : (2 : ℚ) ^ (n.log2 : Int) ≤ n := by exact_mod_cast Nat.log2_self_le hn
  have hnhi : (n : ℚ) < 2 ^ (n.log2 + 1 : Int) := by exact_mod_cast Nat.lt_log2_self
  have hdlo : (2 : ℚ) ^ (d.log2 : Int) ≤ d := by exact_mod_cast Nat.log2_self_le hd
  have hdhi : (d : ℚ) < 2 ^ (d.log2 + 1 : Int) := by exact_mod_cast Nat.lt_log2_self
  have htest : d * 2 ^ ((n.log2 : Int) - d.log2).toNat ≤ n * 2 ^ (-((n.log2 : Int) - d.log2)).toNat ↔
      (2 : ℚ) ^ ((n.log2 : Int) - d.log2) ≤ n / d := by
    rw [two_zpow_eq_div, div_le_div_iff₀ (by positivity) hdq, mul_comm _ (d : ℚ)]
    exact_mod_cast Iff.rfl
  simp only [floorLog2, htest]
  generalize hp : (n.log2 : Int) = p at *
  generalize hq : (d.log2 : Int) = q at *
  split
  · rename_i hle
    refine ⟨hle, ?_⟩
    rw [div_lt_iff₀ hdq]
    calc (n : ℚ) < 2 ^ (p + 1) := hnhi
      _ = 2 ^ (p - q + 1) * 2 ^ q := by rw [← zpow_add₀ two_ne_zero]; congr 1; ring
      _ ≤ 2 ^ (p - q + 1) * d := by gcongr
  · rename_i hlt
    rw [sub_add_cancel]
    refine ⟨?_, not_le.mp hlt⟩
    rw [le_div_iff₀ hdq]
    calc (2 : ℚ) ^ (p - q - 1) * d ≤ 2 ^ (p - q - 1) * 2 ^ (q + 1) := by gcongr
      _ = 2 ^ p := by rw [← zpow_add₀ two_ne_zero]; congr 1; ring
      _ ≤ n := hnlo

theorem lt_two_zpow_roundExp (f : Fmt) {n d : Nat} (hn : n ≠ 0) (hd : d ≠ 0) (e : Int) :
    (n / d * 2 ^ e : ℚ) < 2 ^ (roundExp f n d e + 1) := by
  have h := (floorLog2_bounds hn hd).2
  calc (n / d * 2 ^ e : ℚ) < 2 ^ (floorLog2 n d + 1) * 2 ^ e := by gcongr
    _ = 2 ^ (floorLog2 n d + e + 1) := by rw [← zpow_add₀ two_ne_zero]; congr 1; ring
    _ ≤ 2 ^ (roundExp f n d e + 1) := zpow_le_zpow_right₀ one_le_two (by unfold roundExp; omega)

theorem two_zpow_roundExp_le {f : Fmt} {n d : Nat} (hn : n ≠ 0) (hd : d ≠ 0) {e : Int} (h : f.emin < roundExp f n d e) :
    (2 : ℚ) ^ roundExp f n d e ≤ n / d * 2 ^ e := by
  have hexp : roundExp f n d e = floorLog2 n d + e := by unfold roundExp at h ⊢; omega
  have hlo := (floorLog2_bounds hn hd).1
  rw [hexp, zpow_add₀ two_ne_zero]
  gcongr

/-! ## The two neighbours (R18, R21) -/

theorem natCast_div_add_mod_div {m : Nat} (hm : m ≠ 0) (n : Nat) : ((n / m : Nat) + (n % m : Nat) / m : ℚ) = n / m := by
  have hmq : (m : ℚ) ≠ 0 := by exact_mod_cast hm
  rw [eq_div_iff hmq, add_mul, div_mul_cancel₀ _ hmq]
  exact_mod_cast Nat.div_add_mod' n m

/-- The quotient and the remainder of a scaled value. -/
theorem scaledDiv_eq {n d : Nat} (hd : d ≠ 0) (s : Int) {k rem den : Nat} (h : scaledDiv n d s = (k, rem, den)) :
    rem < den ∧ (k + rem / den : ℚ) = n / d * 2 ^ s := by
  have hpos : 0 < d * 2 ^ (-s).toNat := by positivity
  simp only [scaledDiv, Prod.mk.injEq] at h
  obtain ⟨rfl, rfl, rfl⟩ := h
  refine ⟨Nat.mod_lt _ hpos, ?_⟩
  rw [natCast_div_add_mod_div hpos.ne', two_zpow_eq_div, div_mul_div_comm]
  push_cast
  rfl

/-- When rounding takes the upper neighbour, of a value that lies r above the lower one, in units of the spacing. -/
def RoundsUp (mode : Mode) (sr : Nat) (neg : Bool) (k : Nat) (r : ℚ) : Prop :=
  match mode with
  | .rn => 1 / 2 < r ∨ (r = 1 / 2 ∧ k % 2 = 1)
  | .rna => 1 / 2 ≤ r
  | .rz => False
  | .ru => 0 < r ∧ neg = false
  | .rd => 0 < r ∧ neg = true
  | .sr => (sr + 1 : ℚ) ≤ r * 65536

theorem not_roundsUp_zero (mode : Mode) (sr : Nat) (neg : Bool) (k : Nat) : ¬ RoundsUp mode sr neg k 0 := by
  have hsr : ¬ (sr + 1 : ℚ) ≤ 0 := not_le.mpr (by positivity)
  cases mode <;> simp [RoundsUp, hsr]

theorem roundUp_iff {rem den : Nat} (h : rem < den) (mode : Mode) (sr : Nat) (neg : Bool) (k : Nat) :
    roundUp mode neg k rem den sr = true ↔ RoundsUp mode sr neg k (rem / den) := by
  have hden : 0 < den := Nat.zero_lt_of_lt h
  have hdenq : (0 : ℚ) < den := by exact_mod_cast hden
  unfold roundUp
  rcases Nat.eq_zero_or_pos rem with rfl | hrem
  · simpa using not_roundsUp_zero mode sr neg k
  · have hpos : (0 : ℚ) < rem / den := by positivity
    have hlt : (1 / 2 : ℚ) < rem / den ↔ den < 2 * rem := by
      rw [div_lt_div_iff₀ two_pos hdenq, one_mul, mul_comm]; exact_mod_cast Iff.rfl
    have heq : (rem / den : ℚ) = 1 / 2 ↔ 2 * rem = den := by
      rw [div_eq_div_iff hdenq.ne' two_ne_zero, one_mul, mul_comm]; exact_mod_cast Iff.rfl
    have hle : (1 / 2 : ℚ) ≤ rem / den ↔ den ≤ 2 * rem := by
      rw [div_le_div_iff₀ two_pos hdenq, one_mul, mul_comm]; exact_mod_cast Iff.rfl
    have hsr : (sr + 1 : ℚ) ≤ rem / den * 65536 ↔ sr < rem * 65536 / den := by
      rw [Nat.lt_iff_add_one_le, Nat.le_div_iff_mul_le hden, div_mul_eq_mul_div, le_div_iff₀ hdenq]
      exact_mod_cast Iff.rfl
    rw [if_neg hrem.ne']
    cases mode <;> simp [RoundsUp, hpos, hlt, heq, hle, hsr, -one_div]

/-! ## RoundTo (R21, R23) -/

/-- The lower neighbour of a value, and how far the value lies above it, in units of the spacing. -/
theorem exists_neighbour (f : Fmt) (mode : Mode) (sr : Nat) (neg : Bool) (n : Nat) {d : Nat} (hd : d ≠ 0) (e : Int) :
    ∃ (k : Nat) (r : ℚ), 0 ≤ r ∧ r < 1 ∧ k + r = n / d * 2 ^ e / 2 ^ (roundExp f n d e - f.man) ∧
      (RoundsUp mode sr neg k r → roundUnits f mode sr neg n d e = k + 1) ∧
      (¬ RoundsUp mode sr neg k r → roundUnits f mode sr neg n d e = k) := by
  obtain ⟨⟨k, rem, den⟩, h⟩ : ∃ y, scaledDiv n d (e - roundExp f n d e + f.man) = y := ⟨_, rfl⟩
  obtain ⟨hlt, hval⟩ := scaledDiv_eq hd _ h
  have hden : (0 : ℚ) < den := by exact_mod_cast Nat.zero_lt_of_lt hlt
  have hexp : (2 : ℚ) ^ (e - roundExp f n d e + f.man) = 2 ^ e / 2 ^ (roundExp f n d e - f.man) := by
    rw [← zpow_sub₀ two_ne_zero]; congr 1; ring
  have hup := roundUp_iff hlt mode sr neg k
  refine ⟨k, rem / den, by positivity, (div_lt_one hden).mpr (by exact_mod_cast hlt), ?_, fun hr => ?_, fun hr => ?_⟩
  · rw [hval, hexp, mul_div_assoc]
  · simp only [roundUnits, h, if_pos (hup.mpr hr)]
  · simp only [roundUnits, h, if_neg (mt hup.mp hr)]

section
variable (f : Fmt) (mode : Mode) (sr : Nat) (neg : Bool) {n d : Nat} (e : Int)

/-- The rounded units of a value lie in its binade, or at its upper end. -/
theorem roundUnits_bounds (hn : n ≠ 0) (hd : d ≠ 0) : roundUnits f mode sr neg n d e ≤ 2 ^ (f.man + 1) ∧
    (f.emin < roundExp f n d e → 2 ^ f.man ≤ roundUnits f mode sr neg n d e) := by
  obtain ⟨k, r, hr0, hr1, hkr, hup, hdown⟩ := exists_neighbour f mode sr neg n hd e
  have hq : (0 : ℚ) < 2 ^ (roundExp f n d e - f.man) := by positivity
  have hy : roundUnits f mode sr neg n d e = k ∨ roundUnits f mode sr neg n d e = k + 1 :=
    (em _).elim (fun h => .inr (hup h)) fun h => .inl (hdown h)
  have hhi : k < 2 ^ (f.man + 1) := by
    have hx : (k + r : ℚ) < 2 ^ (f.man + 1 : Int) := by
      rw [hkr, div_lt_iff₀ hq, ← zpow_add₀ two_ne_zero, add_right_comm, add_sub_cancel]
      exact lt_two_zpow_roundExp f hn hd e
    have hk : (k : ℚ) < 2 ^ (f.man + 1 : Int) := by linarith
    exact_mod_cast hk
  refine ⟨by omega, fun hE => ?_⟩
  have hx : (2 : ℚ) ^ (f.man : Int) ≤ k + r := by
    rw [hkr, le_div_iff₀ hq, ← zpow_add₀ two_ne_zero, add_sub_cancel]
    exact two_zpow_roundExp_le hn hd hE
  have hk : (2 : ℚ) ^ (f.man : Int) < k + 1 := by linarith
  have hlo : 2 ^ f.man < k + 1 := by exact_mod_cast hk
  omega

theorem value_roundMag (hn : n ≠ 0) (hd : d ≠ 0) : f.value (roundMag f mode sr neg n d e) =
    roundUnits f mode sr neg n d e * 2 ^ (roundExp f n d e - f.man) := by
  obtain ⟨hhi, hlo⟩ := roundUnits_bounds f mode sr neg e hn hd
  have hE : f.emin ≤ roundExp f n d e := le_max_right _ _
  have hexp : f.emin + ((roundExp f n d e - f.emin).toNat : Int) = roundExp f n d e := by omega
  rw [roundMag, f.value_of_le hhi fun h => hlo (by omega), hexp]

theorem maxCode_lt_roundMag_iff (hn : n ≠ 0) (hd : d ≠ 0) : f.maxCode < roundMag f mode sr neg n d e ↔
    f.top < roundUnits f mode sr neg n d e * 2 ^ (roundExp f n d e - f.man) := by
  rw [← value_roundMag f mode sr neg e hn hd, ← f.value_maxCode, f.value_strictMono.lt_iff_lt]

/-- A rounded value that is no larger than the largest finite one is represented (R21). -/
theorem decode_roundTo_of_le_top (hn : n ≠ 0) (hd : d ≠ 0)
    (h : roundUnits f mode sr neg n d e * 2 ^ (roundExp f n d e - f.man) ≤ f.top) :
    ∃ n' e', f.decode (roundTo f mode sr neg n d e) = .fin neg n' 1 e' ∧
      (n' : ℚ) * 2 ^ e' = roundUnits f mode sr neg n d e * 2 ^ (roundExp f n d e - f.man) := by
  have hmax := mt (maxCode_lt_roundMag_iff f mode sr neg e hn hd).mp (not_lt.mpr h)
  rw [roundTo_eq, if_neg hmax, ← value_roundMag f mode sr neg e hn hd]
  exact Fmt.decode_signed (not_lt.mp hmax) neg

/-- A larger one gives infinity or the largest finite value, by the overflow table (R23). -/
theorem decode_roundTo_of_top_lt (hn : n ≠ 0) (hd : d ≠ 0)
    (h : f.top < roundUnits f mode sr neg n d e * 2 ^ (roundExp f n d e - f.man)) :
    if f.hasInf = true ∧ (mode = .rn ∨ mode = .rna ∨ mode = .sr ∨ mode = if neg then .rd else .ru)
    then f.decode (roundTo f mode sr neg n d e) = .inf neg
    else ∃ n' e', f.decode (roundTo f mode sr neg n d e) = .fin neg n' 1 e' ∧ (n' : ℚ) * 2 ^ e' = f.top := by
  rw [roundTo_eq, if_pos ((maxCode_lt_roundMag_iff f mode sr neg e hn hd).mpr h), overflowCode_eq]
  generalize (if neg then Mode.rd else Mode.ru) = outward
  split
  · rename_i hinf
    exact Fmt.decode_inf hinf.1 neg
  · rw [← f.value_maxCode]
    exact Fmt.decode_signed le_rfl neg

end

end Sys2Proof.Machine
end

section
/-! SUPPORT. Exact products and sums of floats (R13, R33); O6. -/

namespace Sys2Proof.Machine

theorem Fp.toRat_fin (s : Bool) (n d : Nat) (e : Int) :
    (Fp.fin s n d e).toRat = (if s then -1 else 1) * (n / d) * 2 ^ e := rfl

theorem Fp.exists_fin {a : Fp} (h : a.finite) : ∃ s n d e, d ≠ 0 ∧ a = .fin s n d e := by
  cases a with
  | fin s n d e => exact ⟨s, n, d, e, h, rfl⟩
  | nan => exact h.elim
  | inf s => exact h.elim

theorem Fp.mul_finite {a b : Fp} (ha : a.finite) (hb : b.finite) : (a.mul b).finite := by
  obtain ⟨s, n, d, e, hd, rfl⟩ := Fp.exists_fin ha
  obtain ⟨s', n', d', e', hd', rfl⟩ := Fp.exists_fin hb
  exact Nat.mul_ne_zero hd hd'

theorem Fp.toRat_mul {a b : Fp} (ha : a.finite) (hb : b.finite) : (a.mul b).toRat = a.toRat * b.toRat := by
  obtain ⟨s, n, d, e, -, rfl⟩ := Fp.exists_fin ha
  obtain ⟨s', n', d', e', -, rfl⟩ := Fp.exists_fin hb
  have hsign : (if (s ^^ s') = true then -1 else 1 : ℚ) = (if s then -1 else 1) * (if s' then -1 else 1) := by
    cases s <;> cases s' <;> norm_num
  simp only [Fp.mul, Fp.toRat_fin, hsign, Nat.cast_mul, zpow_add₀ (two_ne_zero (α := ℚ)), mul_div_mul_comm]
  ring

/-- The numerator of an exact sum, over the product of the denominators, at the lower exponent. -/
theorem Fp.addFin_eq {d d' : Nat} (hd : d ≠ 0) (hd' : d' ≠ 0) (s s' : Bool) (n n' : Nat) (e e' : Int)
    {x : Int} {k : Nat} {m : Int} (h : Fp.addFin (s, n, d, e) (s', n', d', e') = (x, k, m)) :
    k ≠ 0 ∧ (x / k * 2 ^ m : ℚ) = (Fp.fin s n d e).toRat + (Fp.fin s' n' d' e').toRat := by
  simp only [Fp.addFin, Prod.mk.injEq] at h
  obtain ⟨rfl, rfl, rfl⟩ := h
  refine ⟨Nat.mul_ne_zero hd hd', ?_⟩
  have hdq : (d : ℚ) ≠ 0 := by exact_mod_cast hd
  have hdq' : (d' : ℚ) ≠ 0 := by exact_mod_cast hd'
  have hpow (e m : Int) (h : m ≤ e) : (2 : ℚ) ^ e = 2 ^ (e - m).toNat * 2 ^ m := by
    rw [← zpow_natCast, ← zpow_add₀ two_ne_zero]; congr 1; omega
  rw [Fp.toRat_fin, Fp.toRat_fin, hpow e _ (min_le_left e e'), hpow e' _ (min_le_right e e')]
  push_cast [apply_ite (Int.cast : Int → ℚ)]
  field_simp
  cases s <;> cases s' <;> simp

/-- A sum's sign and magnitude. -/
theorem Fp.toRat_signed (x : Int) (k : Nat) (m : Int) : (Fp.fin (decide (x < 0)) x.natAbs k m).toRat = x / k * 2 ^ m := by
  have habs : (if decide (x < 0) then -1 else 1 : ℚ) * x.natAbs = x := by
    rw [Nat.cast_natAbs]
    rcases lt_or_ge x 0 with h | h
    · simp [h, abs_of_neg h]
    · simp [not_lt.mpr h, abs_of_nonneg h]
  rw [Fp.toRat_fin, ← mul_div_assoc, habs]

theorem Fp.add_fin {d d' : Nat} (hd : d ≠ 0) (hd' : d' ≠ 0) (s s' : Bool) (n n' : Nat) (e e' : Int) (rd : Bool) :
    let c := (Fp.fin s n d e).add (.fin s' n' d' e') rd
    c.finite ∧ c.toRat = (Fp.fin s n d e).toRat + (Fp.fin s' n' d' e').toRat ∧
    ((Fp.fin s n d e).toRat + (Fp.fin s' n' d' e').toRat = 0 → c.sign = if n = 0 ∧ n' = 0 ∧ s = s' then s else rd) := by
  obtain ⟨⟨x, k, m⟩, h⟩ : ∃ y, Fp.addFin (s, n, d, e) (s', n', d', e') = y := ⟨_, rfl⟩
  obtain ⟨hk, hsum⟩ := Fp.addFin_eq hd hd' s s' n n' e e' h
  have hkq : (k : ℚ) ≠ 0 := by exact_mod_cast hk
  simp only [Fp.add, h, ← hsum]
  by_cases hx : x = 0
  · subst hx
    rw [if_pos rfl]
    exact ⟨one_ne_zero, by simp [Fp.zero, Fp.toRat], fun _ => rfl⟩
  · have hxq : (x / k * 2 ^ m : ℚ) ≠ 0 := by positivity
    rw [if_neg hx]
    exact ⟨hk, Fp.toRat_signed x k m, fun h0 => absurd h0 hxq⟩

end Sys2Proof.Machine
end

section
/-! SUPPORT. The float instructions (R136, R141, R143, R144); O6. -/

namespace Sys2Proof.Machine

/-! ## The instructions (R136, R141, R143, R144) -/

theorem half_eq (x i : Nat) : half x i = x / 65536 ^ i % 65536 := by
  rw [half, Nat.shiftRight_eq_div_pow, show 2 ^ (16 * i) = 65536 ^ i from pow_mul 2 16 i]

/-- Outside SR there is no draw (R25). -/
theorem Opnd.finish_of_ne_sr {x : Opnd} {w : CWord} (h : modeOf x.b w ≠ .sr) (k : Nat) (f : Fmt) (v : Mode → Fp) :
    x.finish w k f v = .val k (finishFloat f (modeOf x.b w) 0 (ftzOf x.b w f) w.sat (v (modeOf x.b w))) := by
  simp only [Opnd.finish, draw, if_neg h]

/-- DOT4 of integers is exact (R144). -/
theorem foldl_add_eq_sum (p : Nat → Int) (js : List Nat) (c : Int) : js.foldl (fun t i => t + p i) c = c + (js.map p).sum := by
  induction js generalizing c with
  | nil => simp
  | cons j js ih => rw [List.foldl_cons, ih, List.map_cons, List.sum_cons, add_assoc]

/-! ## The obligation -/

/-- Settles O6: each instruction is of the arithmetic shape; products and sums are exact on the values; a code without its
sign stands for a multiple of its binade's spacing, rising with the code, so RoundTo gives the neighbour that it chooses; and
FinishFloat by the kinds of its value. -/
theorem floatArithmetic : Obligations.FloatArithmetic := by
  refine ⟨fun w => ⟨?fadd, ?fsub, ?fmul, ?ffma, ?fdiv, ?fscale, ?hadd2, ?hfma2, ?dot4⟩, fun a b rd ha hb => ?exact,
    fun x w k f v h => x.finish_of_ne_sr h k f v, fun f mode sr neg n d e hn hd => ?round,
    fun f mode sr ftz sat => ⟨finishFloat_nan f mode sr ftz sat, finishFloat_inf f mode sr ftz sat,
      finishFloat_zero f mode sr ftz sat, fun neg n d e hn => finishFloat_fin hn f mode sr ftz sat neg d e⟩⟩
  case fscale =>
    refine computes_of_runAlu_eq (fun _ => rfl) fun x => ?_
    simp only [toSigned_eq_toInt (by decide : 32 ≠ 0)]
    rfl
  case hadd2 =>
    refine computes_of_runAlu_eq (fun _ => rfl) fun x => ?_
    simp only [half_eq]
    rfl
  case hfma2 =>
    refine computes_of_runAlu_eq (fun _ => rfl) fun x => ?_
    simp only [half_eq]
    rfl
  case dot4 =>
    refine computes_of_runAlu_eq (fun _ => rfl) fun x => ?_
    have hty : (w.ty.signed = true ∨ w.ty = .n8) ↔ (w.ty = .i8 ∨ w.ty = .n8 ∨ w.ty.signed = true) := by
      cases w.ty <;> simp [Ty.signed]
    simp only [byteOf_eq, foldl_add_eq_sum, hty]
    rfl
  case exact =>
    obtain ⟨s, n, d, e, hd, rfl⟩ := Fp.exists_fin ha
    obtain ⟨s', n', d', e', hd', rfl⟩ := Fp.exists_fin hb
    obtain ⟨hfin, hsum, hsign⟩ := Fp.add_fin hd hd' s s' n n' e e' rd
    refine ⟨Fp.mul_finite ha hb, Fp.toRat_mul ha hb, hfin, hsum, fun h0 => ?_⟩
    rw [hsign h0]
    simp [Fp.isZero, Fp.sign]
  case round =>
    obtain ⟨k, r, hr0, hr1, hkr, hup, hdown⟩ := exists_neighbour f mode sr neg n hd e
    obtain rfl : r = n / d * 2 ^ e / 2 ^ (roundExp f n d e - f.man) - k := by rw [← hkr]; ring
    exact ⟨roundExp f n d e, k, roundUnits f mode sr neg n d e, le_max_right _ _, lt_two_zpow_roundExp f hn hd e,
      two_zpow_roundExp_le hn hd, hr0, hr1, hup, hdown, decode_roundTo_of_le_top f mode sr neg e hn hd,
      decode_roundTo_of_top_lt f mode sr neg e hn hd⟩
  all_goals exact computes_of_runAlu fun _ => rfl

end Sys2Proof.Machine
end

section
/-! SUPPORT. Memory operations read back, and the frame of a thread's store (R167, R174, R415); O26. -/

namespace Sys2Proof.Machine

/-! ## A byte after an operation on a canonical memory -/

theorem Memory.get_of_lt {m : Memory} {q : Nat} (h : ∀ c ∈ m, q < c.1) : m.get q = 0#8 :=
  Memory.get_eq_zero fun c hc => (h c hc).ne'

theorem Memory.get_set {m : Memory} (h : m.wf = true) (a : Nat) (x : Byte) (q : Nat) :
    (m.set a x).get q = if q = a then x else m.get q := by
  induction m with
  | nil =>
    by_cases hx : x = 0#8 <;> by_cases hq : a = q <;> simp [Memory.set, Memory.get, hx, hq, eq_comm (a := q)]
  | cons c m ih =>
    obtain ⟨k, b⟩ := c
    obtain ⟨-, hrise, hm⟩ := Memory.wf_cons.mp h
    have hlow : ∀ p ≤ k, Memory.get m p = 0#8 := fun p hp => Memory.get_of_lt fun c hc => hp.trans_lt (hrise c hc)
    rcases lt_trichotomy a k with hk | rfl | hk
    · by_cases hx : x = 0#8
      · have hne : k ≠ a := by omega
        by_cases hq : q = a <;> simp [Memory.set, Memory.get, hk, hx, hq, hne]
      · by_cases hq : q = a
        · simp [Memory.set, Memory.get, hk, hx, hq]
        · rcases lt_trichotomy q a with h1 | h1 | h1
          · have hne : k ≠ q := by omega
            simp [Memory.set, Memory.get, hk, hx, hq, Ne.symm hq, h1, hne, h1.trans hk]
          · exact absurd h1 hq
          · simp [Memory.set, Memory.get, hk, hx, hq, Ne.symm hq, h1.not_gt]
    · by_cases hx : x = 0#8
      · by_cases hq : q = a
        · simp [Memory.set, hx, hq, hlow a le_rfl]
        · by_cases h1 : q < a <;> simp [Memory.set, Memory.get, hx, hq, Ne.symm hq, h1]
          exact hlow q h1.le
      · by_cases hq : a = q <;> simp [Memory.set, Memory.get, hx, hq, eq_comm (a := q)]
    · have hne : a ≠ k := by omega
      by_cases hq : q = a
      · subst hq
        simp [Memory.set, Memory.get, hk.not_gt, hne, hne.symm, ih hm]
      · simp [Memory.set, Memory.get, hk.not_gt, hne, hq, ih hm]

theorem Memory.get_write {m : Memory} (h : m.wf = true) (a : Nat) (bs : List Byte) (q : Nat) :
    (m.write a bs).get q = if a ≤ q ∧ q < a + bs.length then bs.getD (q - a) 0#8 else m.get q := by
  induction bs generalizing m a with
  | nil => simp [Memory.write]
  | cons b bs ih =>
    rw [Memory.write, ih (Memory.wf_set h a b), Memory.get_set h, List.length_cons]
    rcases lt_trichotomy q a with h1 | rfl | h1
    · rw [if_neg (by omega), if_neg (by omega), if_neg (by omega)]
    · rw [if_neg (by omega), if_pos rfl, if_pos (by omega), Nat.sub_self]; rfl
    · obtain ⟨d, rfl⟩ : ∃ d, q = a + 1 + d := ⟨q - (a + 1), by omega⟩
      have e1 : a + 1 + d - (a + 1) = d := by omega
      have e2 : a + 1 + d - a = d + 1 := by omega
      rw [e1, e2, List.getD_cons_succ, if_neg (show ¬ a + 1 + d = a by omega)]
      exact if_congr (by omega) rfl rfl

theorem Memory.get_filter {m : Memory} (h : m.wf = true) (p : Nat → Bool) (q : Nat) :
    Memory.get (m.filter fun c => p c.1) q = if p q = true then m.get q else 0#8 := by
  induction m with
  | nil => simp [Memory.get]
  | cons c m ih =>
    obtain ⟨k, b⟩ := c
    obtain ⟨-, hrise, hm⟩ := Memory.wf_cons.mp h
    have hlow : q < k → Memory.get m q = 0#8 := fun hq => Memory.get_of_lt fun c hc => hq.trans (hrise c hc)
    rcases lt_trichotomy q k with hq | rfl | hq
    · have hne : k ≠ q := by omega
      cases hk : p k <;> simp [hk, Memory.get, hne, hq, ih hm, hlow hq]
    · cases hk : p q
      · simp [hk, ih hm]
      · simp [hk, Memory.get]
    · have hne : k ≠ q := by omega
      cases hk : p k <;> simp [hk, Memory.get, hne, hq.not_gt, ih hm]

theorem Memory.get_clear {m : Memory} (h : m.wf = true) (a n q : Nat) :
    (m.clear a n).get q = if a ≤ q ∧ q < a + n then 0#8 else m.get q := by
  refine (Memory.get_filter h (fun k => !decide (a ≤ k ∧ k < a + n)) q).trans ?_
  by_cases hq : a ≤ q ∧ q < a + n <;> simp [hq]

/-- A memory of addresses from `a` on, moved so that `a` becomes `b`. -/
theorem Memory.get_map_shift {m : Memory} {a : Nat} (h : ∀ c ∈ m, a ≤ c.1) (b q : Nat) :
    Memory.get (m.map fun c => (c.1 - a + b, c.2)) q = if b ≤ q then m.get (q - b + a) else 0#8 := by
  induction m with
  | nil => simp [Memory.get]
  | cons c m ih =>
    obtain ⟨k, x⟩ := c
    have hk : a ≤ k := h (k, x) List.mem_cons_self
    have ih := ih fun c hc => h c (List.mem_cons_of_mem _ hc)
    by_cases hq : b ≤ q
    · have e1 : k - a + b = q ↔ k = q - b + a := by omega
      have e2 : q < k - a + b ↔ q - b + a < k := by omega
      simp only [List.map_cons, Memory.get, e1, e2, ih, if_pos hq]
    · have hlt : q < k - a + b := by omega
      simp [Memory.get, hq, hlt, hlt.ne']

theorem Memory.get_slice {m : Memory} (h : m.wf = true) (a n b q : Nat) :
    (m.slice a n b).get q = if b ≤ q ∧ q < b + n then m.get (q - b + a) else 0#8 := by
  unfold Memory.slice
  rw [Memory.get_map_shift fun c hc => (of_decide_eq_true (List.mem_filter.mp hc).2).1,
    Memory.get_filter h fun k => decide (a ≤ k ∧ k < a + n)]
  by_cases hb : b ≤ q
  · have e : (decide (a ≤ q - b + a ∧ q - b + a < a + n) = true) ↔ b ≤ q ∧ q < b + n := by
      rw [decide_eq_true_iff]; omega
    rw [if_pos hb, if_congr e rfl rfl]
  · rw [if_neg hb, if_neg fun h => hb h.1]

/-- The bytes that a canonical memory lists, put into another one by one. -/
theorem Memory.get_foldl_set {m sl : Memory} (hm : m.wf = true) (hsl : sl.wf = true) (q : Nat) :
    Memory.get (sl.foldl (fun m c => m.set c.1 c.2) m) q = if sl.get q = 0#8 then m.get q else sl.get q := by
  induction sl generalizing m with
  | nil => simp [Memory.get]
  | cons c sl ih =>
    obtain ⟨k, x⟩ := c
    obtain ⟨hx, hrise, hsl⟩ := Memory.wf_cons.mp hsl
    have hlow : q ≤ k → Memory.get sl q = 0#8 := fun hq => Memory.get_of_lt fun c hc => hq.trans_lt (hrise c hc)
    rw [List.foldl_cons, ih (Memory.wf_set hm k x) hsl, Memory.get_set hm]
    rcases lt_trichotomy q k with hq | rfl | hq
    · have hne : k ≠ q := by omega
      simp [Memory.get, hlow hq.le, hq, hne, hq.ne]
    · have hx : x ≠ 0#8 := hx
      simp [Memory.get, hlow le_rfl, hx]
    · have hne : k ≠ q := by omega
      simp [Memory.get, hne, hq.ne', hq.not_gt]

theorem Memory.get_overlay {m sl : Memory} (hm : m.wf = true) (hsl : sl.wf = true) {a n : Nat}
    (hin : ∀ c ∈ sl, a ≤ c.1 ∧ c.1 < a + n) (q : Nat) :
    (m.overlay a n sl).get q = if a ≤ q ∧ q < a + n then sl.get q else m.get q := by
  rw [Memory.overlay, Memory.get_foldl_set (Memory.wf_clear hm a n) hsl, Memory.get_clear hm]
  by_cases hq : a ≤ q ∧ q < a + n
  · by_cases h0 : sl.get q = 0#8 <;> simp [hq, h0]
  · have h0 : sl.get q = 0#8 := Memory.get_eq_zero fun c hc e => hq (e ▸ hin c hc)
    simp [hq, h0]

/-! ## Bytes read back -/

theorem Memory.read_eq_map (m : Memory) (a n : Nat) : m.read a n = (List.range' a n).map m.get := by
  induction n generalizing a with
  | zero => rfl
  | succ n ih => rw [Memory.read, ih, List.range'_succ, List.map_cons]

@[simp] theorem Memory.length_read (m : Memory) (a n : Nat) : (m.read a n).length = n := by
  rw [Memory.read_eq_map, List.length_map, List.length_range']

theorem Memory.read_congr {m k : Memory} {a n : Nat} (h : ∀ q, a ≤ q → q < a + n → m.get q = k.get q) :
    m.read a n = k.read a n := by
  rw [Memory.read_eq_map, Memory.read_eq_map]
  refine List.map_congr_left fun q hq => ?_
  obtain ⟨h1, h2⟩ := List.mem_range'_1.mp hq
  exact h q h1 h2

theorem Memory.read_write_self {m : Memory} (h : m.wf = true) (a : Nat) (bs : List Byte) :
    (m.write a bs).read a bs.length = bs := by
  refine List.ext_getElem (Memory.length_read _ _ _) fun i h1 h2 => ?_
  have hin : a ≤ a + i ∧ a + i < a + bs.length := by omega
  simp [Memory.read_eq_map, Memory.get_write h, hin, h2]

theorem Memory.read_write_other {m : Memory} (h : m.wf = true) {a p n : Nat} {bs : List Byte}
    (hout : p + n ≤ a ∨ a + bs.length ≤ p) : (m.write a bs).read p n = m.read p n :=
  Memory.read_congr fun q h1 h2 => by rw [Memory.get_write h, if_neg (by omega)]

/-! ## A write at its home (R167, R174, R415) -/

@[simp] theorem State.writePa_mem (s : State) (pa : Nat) (bs : List Byte) : (s.writePa pa bs).mem = s.mem.write pa bs := by
  unfold State.writePa
  rw [State.wake_mem, State.heal_mem]

theorem State.mem_health_heal {s : State} {p : ErrUnit → Bool} {u : ErrUnit} :
    (u ∈ (s.heal p).health.bad ↔ u ∈ s.health.bad ∧ p u = false) ∧
      (u ∈ (s.heal p).health.soft ↔ u ∈ s.health.soft ∧ p u = false) := by
  unfold State.heal
  split
  · rename_i h
    simp only [Bool.and_eq_true, List.isEmpty_iff] at h
    simp [h]
  · simp

/-- The errors that a write leaves: the units of memory that it does not cover whole, and of caches in part. -/
def endedBy (pa n : Nat) : ErrUnit → Bool
  | .mem u => decide (pa ≤ 32 * u ∧ 32 * u + 32 ≤ pa + n)
  | .l1 _ w | .l2 w => decide (pa ≤ 8 * w ∧ 8 * w + 8 ≤ pa + n)
  | _ => false

theorem State.writePa_health (s : State) (pa : Nat) (bs : List Byte) :
    (s.writePa pa bs).health = (({ s with mem := s.mem.write pa bs } : State).heal (endedBy pa bs.length)).health := rfl

/-- The block of a number after threads are woken. -/
theorem State.block?_wake (s : State) (p : Parked → Bool) (n : Nat) :
    (s.wake p).block? n = (s.block? n).map fun b => { b with threads := b.threads.map (Thread.wake p) } := by
  unfold State.block? State.wake
  rw [List.find?_map]
  rfl

theorem State.block?_writePa (s : State) (pa : Nat) (bs : List Byte) (n : Nat) :
    (s.writePa pa bs).block? n = (s.block? n).map fun b =>
      { b with threads := b.threads.map (Thread.wake fun q => q.kind == .waitaddr && sameLine pa bs.length q.pa) } := by
  unfold State.writePa
  rw [State.block?_wake, State.heal_block?]
  rfl

/-- A wake changes what a thread waits for alone. -/
theorem Thread.wake_frame (p : Parked → Bool) (th : Thread) : { th.wake p with wait := th.wait } = th := by
  unfold Thread.wake
  split
  · split <;> rfl
  · rfl

theorem Block.th_mapWake (b : Block) (p : Parked → Bool) (i : Nat) :
    let th := ({ b with threads := b.threads.map (Thread.wake p) } : Block).th i
    th = b.th i ∨ th = (b.th i).wake p := by
  intro th
  by_cases hi : i = b.cfg.bsize
  · exact .inl (by simp [th, Block.th, hi])
  · by_cases hl : i < b.threads.length
    · exact .inr (by simp [th, Block.th, hi, hl, List.getD_eq_getElem?_getD])
    · exact .inl (by simp [th, Block.th, hi, hl, List.getD_eq_getElem?_getD])

theorem Block.th_mapWake_frame (b : Block) (p : Parked → Bool) (i : Nat) :
    { ({ b with threads := b.threads.map (Thread.wake p) } : Block).th i with wait := (b.th i).wait } = b.th i := by
  rcases b.th_mapWake p i with h | h
  · rw [h]
  · rw [h]; exact Thread.wake_frame p _

/-! ## A thread's store -/

theorem State.homeOf_congr {s t : State} (hf : t.fabric = s.fabric) (hh : t.health.retired = s.health.retired) (pa : Nat) :
    t.homeOf pa = s.homeOf pa := by
  unfold State.homeOf
  rw [hf, hh]

theorem State.retired_writePa (s : State) (pa : Nat) (bs : List Byte) :
    (s.writePa pa bs).health.retired = s.health.retired := by
  rw [State.writePa_health]
  unfold State.heal
  split <;> rfl

theorem State.isFar_writePa (s : State) (b : Block) (p pa : Nat) (bs : List Byte) :
    (s.writePa pa bs).isFar b p = s.isFar b p := by
  unfold State.isFar
  rw [State.homeOf_congr (State.writePa_fabric s pa bs) (s.retired_writePa pa bs)]

/-- A count of unacknowledged writes changes its block and the links alone. -/
theorem State.noteWrite_frame (s : State) (b : Block) (tid : Nat) (va : DWord) (pa : Nat) (ts ls : List Nat) :
    { s.noteWrite b tid va pa ts ls with blocks := s.blocks, fabric := s.fabric } = s := by
  unfold State.noteWrite
  split
  · have h := congrArg (fun x : State => { x with blocks := s.blocks }) (s.tellAt_frame true pa)
    exact h
  · rfl

/-- The unacknowledged write of a thread, where its home is off the die (R165). -/
def State.newAcks (s : State) (b : Block) (tid : Nat) (va : DWord) (pa : Nat) : List Ack :=
  if s.isFar b pa then [{ tid, va, pa, time := s.clock.time }] else []

theorem State.block?_noteWrite (s : State) (b : Block) (tid : Nat) (va : DWord) (pa n : Nat) :
    (s.noteWrite b tid va pa).block? n =
      (s.block? n).map fun x => if n = b.id then { x with acks := x.acks ++ s.newAcks b tid va pa } else x := by
  have hb (m : Nat) : (s.tellAt true pa).block? m = s.block? m := by
    unfold State.block?; rw [State.tellAt_blocks]
  unfold State.noteWrite State.newAcks
  cases hfar : s.isFar b pa with
  | false =>
    have hid : (fun x : Block => if n = b.id then { x with acks := x.acks ++ ([] : List Ack) } else x) = id := by
      funext x; split <;> simp
    simp only [Bool.false_eq_true, if_false, hid, Option.map_id, id]
  | true =>
    simp only [if_true]
    by_cases hn : n = b.id
    · subst hn
      rw [State.block?_modBlock, hb]
      simp
    · rw [State.block?_modBlock_other hn, hb]
      simp [hn]

theorem State.noteWrite_mem (s : State) (b : Block) (tid : Nat) (va : DWord) (pa : Nat) (ts ls : List Nat) :
    (s.noteWrite b tid va pa ts ls).mem = s.mem := by
  have h := congrArg State.mem (s.noteWrite_frame b tid va pa ts ls); exact h

theorem State.noteWrite_health (s : State) (b : Block) (tid : Nat) (va : DWord) (pa : Nat) (ts ls : List Nat) :
    (s.noteWrite b tid va pa ts ls).health = s.health := by
  have h := congrArg State.health (s.noteWrite_frame b tid va pa ts ls); exact h

/-- Settles O26: each operation by the byte that it leaves at an address; a store is a write at its home, which wakes
threads and ends the errors that it covers, and the count of its acknowledgement. -/
theorem canonicalMemory : Obligations.CanonicalMemory := by
  refine ⟨fun m hm => ⟨fun a x => ⟨Memory.wf_set hm a x, Memory.get_set hm a x⟩,
    fun a bs => ⟨Memory.wf_write hm a bs, Memory.get_write hm a bs⟩,
    fun a n => ⟨Memory.wf_clear hm a n, Memory.get_clear hm a n⟩,
    fun a n b => ⟨Memory.wf_slice hm a n b, Memory.get_slice hm a n b⟩,
    fun a n k hk hin => ⟨Memory.wf_overlay hm a n k, Memory.get_overlay hm hk hin⟩⟩, fun s b tid va pa bs hm => ?_⟩
  intro t
  have hframe := (s.writePa pa bs).noteWrite_frame b tid va pa [] []
  have hmem : t.mem = s.mem.write pa bs := ((s.writePa pa bs).noteWrite_mem b tid va pa [] []).trans (s.writePa_mem pa bs)
  have hhealth : t.health = (({ s with mem := s.mem.write pa bs } : State).heal (endedBy pa bs.length)).health :=
    (s.writePa pa bs).noteWrite_health b tid va pa [] []
  have hblock (n : Nat) : t.block? n = _ := (s.writePa pa bs).block?_noteWrite b tid va pa n
  have hacks : (s.writePa pa bs).newAcks b tid va pa = s.newAcks b tid va pa := by
    unfold State.newAcks
    rw [State.isFar_writePa, State.writePa_clock]
  have hclock : t.clock = (s.writePa pa bs).clock := by have h := congrArg State.clock hframe; exact h
  have hsched : t.sched = (s.writePa pa bs).sched := by have h := congrArg State.sched hframe; exact h
  have heng : t.eng = (s.writePa pa bs).eng := by have h := congrArg State.eng hframe; exact h
  have henvs : t.envs = (s.writePa pa bs).envs := by have h := congrArg State.envs hframe; exact h
  refine ⟨?wf, fun a ha => ?frame, ?back, hclock.trans (by simp), hsched.trans (by simp), heng.trans (by simp),
    henvs.trans (by simp), fun e he => ?bad, fun u h1 h2 => ?ended, fun u hu hout => ?kept, fun x hx => ?acks, fun n x hx => ?regs⟩
  case wf => rw [hmem]; exact Memory.wf_write hm pa bs
  case frame => rw [hmem, Memory.get_write hm, if_neg (by omega)]
  case back => rw [hmem]; exact Memory.read_write_self hm pa bs
  case bad => rw [hhealth] at he; exact (State.mem_health_heal.1.mp he).1
  case ended =>
    have hcov : endedBy pa bs.length (.mem u) = true := decide_eq_true ⟨h1, h2⟩
    rw [hhealth, State.mem_health_heal.1, State.mem_health_heal.2, hcov]
    simp
  case kept =>
    have hcov : endedBy pa bs.length (.mem u) = false := decide_eq_false (by omega)
    rw [hhealth, State.mem_health_heal.1]
    exact ⟨hu, hcov⟩
  case acks =>
    rw [hblock, State.block?_writePa, hx, hacks]
    exact ⟨_, rfl, by simp [State.newAcks]⟩
  case regs =>
    rw [hblock, State.block?_writePa, Option.map_map] at hx
    obtain ⟨y, hy, rfl⟩ := Option.map_eq_some_iff.mp hx
    have hth (i : Nat) := y.th_mapWake_frame (fun q => q.kind == .waitaddr && sameLine pa bs.length q.pa) i
    have hv (i : Nat) := congrArg Thread.v (hth i)
    have hp (i : Nat) := congrArg Thread.p (hth i)
    have hpc (i : Nat) := congrArg Thread.pc (hth i)
    refine ⟨y, hy, ?_⟩
    dsimp only [Function.comp_apply]
    split
    · exact ⟨rfl, rfl, rfl, List.length_map _, fun i => ⟨hv i, hp i, hpc i⟩⟩
    · exact ⟨rfl, rfl, rfl, List.length_map _, fun i => ⟨hv i, hp i, hpc i⟩⟩

end Sys2Proof.Machine
end

section
/-! SUPPORT. Words of memory after a write, futures and barrier records (R186, R189, R345); O33, O36. -/

namespace Sys2Proof.Machine

/-! ## Little-endian words (R8) -/

@[simp] theorem length_toBytesLE (n x : Nat) : (toBytesLE n x).length = n := by
  induction n generalizing x with
  | zero => rfl
  | succ n ih => simp [toBytesLE, ih]

theorem ofBytesLE_toBytesLE (n x : Nat) : ofBytesLE (toBytesLE n x) = x % 256 ^ n := by
  induction n generalizing x with
  | zero => simp [toBytesLE, ofBytesLE, Nat.mod_one]
  | succ n ih =>
    rw [toBytesLE, ofBytesLE, ih, Nat.pow_succ, Nat.mul_comm (256 ^ n), Nat.mod_mul]
    simp

theorem ofBytesLE_lt (bs : List Byte) : ofBytesLE bs < 256 ^ bs.length := by
  induction bs with
  | nil => simp [ofBytesLE]
  | cons b bs ih =>
    have hb := b.isLt
    rw [ofBytesLE, List.length_cons, Nat.pow_succ]
    omega

/-! ## A word of memory -/

theorem State.valPa_lt (s : State) (pa n : Nat) : s.valPa pa n < 256 ^ n := by
  have h := ofBytesLE_lt (s.readPa pa n)
  rwa [State.readPa, Memory.length_read] at h

@[simp] theorem State.valPa_wake (s : State) (p : Parked → Bool) (pa n : Nat) : (s.wake p).valPa pa n = s.valPa pa n := rfl

section
variable {s : State} (h : s.mem.wf = true)
include h

theorem State.wf_putPa (pa n x : Nat) : (s.putPa pa n x).mem.wf = true := canon_putPa s pa n x h

theorem State.get_putPa (pa n x q : Nat) (hq : q < pa ∨ pa + n ≤ q) : (s.putPa pa n x).mem.get q = s.mem.get q := by
  rw [State.putPa, State.writePa_mem, Memory.get_write h, length_toBytesLE, if_neg (by omega)]

theorem State.valPa_putPa_same (pa n x : Nat) : (s.putPa pa n x).valPa pa n = x % 256 ^ n := by
  have hr := Memory.read_write_self h pa (toBytesLE n x)
  rw [length_toBytesLE] at hr
  rw [State.valPa, State.readPa, State.putPa, State.writePa_mem, hr, ofBytesLE_toBytesLE]

theorem State.valPa_putPa_other {pa n x p k : Nat} (hout : p + k ≤ pa ∨ pa + n ≤ p) :
    (s.putPa pa n x).valPa p k = s.valPa p k := by
  rw [State.valPa, State.readPa, State.putPa, State.writePa_mem, Memory.read_write_other h (by rwa [length_toBytesLE])]
  rfl

/-! ## Futures (R186, R345) -/

theorem State.fillFuture_value (pa v : Nat) : (s.fillFuture pa v).valPa pa 8 = v % 2 ^ 64 := by
  rw [State.fillFuture, State.valPa_wake, State.valPa_putPa_other (State.wf_putPa h _ _ _) (.inl le_rfl),
    State.valPa_putPa_same h]
  norm_num

theorem State.fillFuture_full (pa v : Nat) : (s.fillFuture pa v).futureState pa = 1 := by
  rw [State.futureState, State.fillFuture, State.valPa_wake, State.valPa_putPa_same (State.wf_putPa h _ _ _)]
  norm_num

theorem State.fillFuture_generation (pa v : Nat) : (s.fillFuture pa v).valPa (pa + 12) 4 = s.valPa (pa + 12) 4 := by
  rw [State.fillFuture, State.valPa_wake, State.valPa_putPa_other (State.wf_putPa h _ _ _) (by omega),
    State.valPa_putPa_other h (by omega)]

theorem State.takeFuture_empty (pa : Nat) : (s.takeFuture pa true).1.futureState pa = 0 := by
  simp only [State.futureState, State.takeFuture, if_true]
  rw [State.valPa_putPa_other (State.wf_putPa h _ _ _) (by omega), State.valPa_putPa_same h]
  norm_num

theorem State.takeFuture_generation (pa : Nat) :
    (s.takeFuture pa true).1.valPa (pa + 12) 4 = (s.valPa (pa + 12) 4 + 1) % 2 ^ 32 := by
  simp only [State.takeFuture, if_true]
  rw [State.valPa_putPa_same (State.wf_putPa h _ _ _)]
  norm_num

theorem State.valPa_addWaiter (pa : Nat) : (s.addWaiter pa).valPa pa 2 = min (s.valPa pa 2 + 1) 65535 := by
  have hlt := s.valPa_lt pa 2
  simp only [State.addWaiter]
  split
  · rename_i hmax
    omega
  · rw [State.valPa_putPa_same h]
    omega

/-! ## Barrier records (R189) -/

theorem State.checkBarrier_met {pa : Nat} (hmet : s.valPa (pa + 4) 4 ≤ s.valPa (pa + 8) 4 ∧ s.valPa (pa + 12) 4 = 0) :
    (s.checkBarrier pa).valPa pa 4 = (s.valPa pa 4 + 1) % 2 ^ 32 ∧ (s.checkBarrier pa).valPa (pa + 8) 4 = 0 ∧
      (s.checkBarrier pa).valPa (pa + 4) 4 = s.valPa (pa + 4) 4 := by
  have h1 := State.wf_putPa h (pa + 8) 4 0
  simp only [State.checkBarrier, ge_iff_le, hmet, and_self, if_true, State.valPa_wake]
  refine ⟨State.valPa_putPa_same h1 _ _ _, ?_, ?_⟩
  · rw [State.valPa_putPa_other h1 (by omega), State.valPa_putPa_same h]
    norm_num
  · rw [State.valPa_putPa_other h1 (by omega), State.valPa_putPa_other h (by omega)]

theorem State.checkBarrier_get {pa a : Nat} (ha : a < pa ∨ pa + 16 ≤ a) : (s.checkBarrier pa).mem.get a = s.mem.get a := by
  unfold State.checkBarrier
  split
  · rw [State.wake_mem, State.get_putPa (State.wf_putPa h _ _ _) _ _ _ _ (by omega), State.get_putPa h _ _ _ _ (by omega)]
  · rfl

end

theorem State.checkBarrier_unmet {s : State} {pa : Nat}
    (h : ¬ (s.valPa (pa + 4) 4 ≤ s.valPa (pa + 8) 4 ∧ s.valPa (pa + 12) 4 = 0)) : s.checkBarrier pa = s := if_neg h

end Sys2Proof.Machine
end

section
/-! SUPPORT. Instructions that act on a place once they have reached it; loads, stores, releases (R159 to R169, R173,
R258); O27, O28, O31. -/

namespace Sys2Proof.Machine

/-! ## An access, and what its thread does at the place -/

/-- An access whose thread acts at the place that it reaches. -/
def Got.andThen (r : State × Got) (h : State → Nat → State × Fate) : State × Fate :=
  match r.2 with
  | .no f => (r.1, f)
  | .pa place => h r.1 place

theorem Got.andThen_fst (r : State × Got) (h : State → Nat → State × Fate) :
    (Got.andThen r h).1 = r.2.state r.1 fun place => (h r.1 place).1 := by
  obtain ⟨t, place | f⟩ := r <;> rfl

theorem Got.andThen_snd (r : State × Got) (h : State → Nat → State × Fate) :
    (Got.andThen r h).2 = r.2.fate fun place => (h r.1 place).2 := by
  obtain ⟨t, place | f⟩ := r <;> rfl

theorem keeps_andThen {s : State} {r : State × Got} {h : State → Nat → State × Fate} (hr : Keeps s r.1)
    (hh : ∀ t pa, Keeps t (h t pa).1) : Keeps s (Got.andThen r h).1 := by
  obtain ⟨t, pa | f⟩ := r
  · exact hr.trans (hh t pa)
  · exact hr

section
variable {i : Instr} {op : Nat} {w : CWord} {rel : Bool} {scope : Nat} {f : Ctx → State → Nat × Nat → State × Fate}

/-- A memory instruction each of whose threads reaches a place and acts there. -/
theorem does_each_of_access {ready : Ctx → State → Prop} {r : Ctx → State → Nat × Nat → State × Got}
    {h : Ctx → Nat × Nat → State → Nat → State × Fate} (hi : ∀ s, exec i s = .next (s.runMem op w rel scope f))
    (hf : ∀ c s x, f c s x = Got.andThen (r c s x) (h c x)) (hd : ∀ c s, ready c s → s.mustDrain c rel scope = false)
    (hr : ∀ c s x, Keeps s (r c s x).1) (hh : ∀ c x s pa, Keeps s (h c x s pa).1) :
    DoesEach i op w Ctx.inOrder ready (fun c s x => (r c s x).2.state (r c s x).1 fun pa => (h c x (r c s x).1 pa).1)
      (fun c s x => (r c s x).2.fate fun pa => (h c x (r c s x).1 pa).2) := by
  refine DoesEach.congr (does_each_of_runMem hi fun c s x => ?_) fun c _ _ =>
    ⟨rfl, hd c, funext₂ fun s x => ?_, funext₂ fun s x => ?_⟩
  · rw [hf]; exact keeps_andThen (hr c s x) (hh c x)
  · rw [hf, Got.andThen_fst]
  · rw [hf, Got.andThen_snd]

/-- A memory instruction each of whose threads is given its effect and its fate. -/
theorem does_each_of_acts {ready : Ctx → State → Prop} {g : Ctx → State → Nat × Nat → State}
    {k : Ctx → State → Nat × Nat → Fate} (hi : ∀ s, exec i s = .next (s.runMem op w rel scope f))
    (hd : ∀ c s, ready c s → s.mustDrain c rel scope = false) (hk : ∀ c s x, Keeps s (f c s x).1)
    (hf : ∀ c s x, c.w = w → f c s x = (g c s x, k c s x)) : DoesEach i op w Ctx.inOrder ready g k :=
  DoesEach.congr (does_each_of_runMem hi hk) fun c hw _ =>
    ⟨rfl, hd c, funext₂ fun s x => by rw [hf c s x hw], funext₂ fun s x => by rw [hf c s x hw]⟩

/-- A release that waits for acknowledgements makes all of its threads issue it again (R165, R258). -/
theorem does_again_of_runMem (hi : ∀ s, exec i s = .next (s.runMem op w rel scope f)) :
    Does i op w (fun c s => s.mustDrain c rel scope = true) Ctx.noEffect (fun _ _ _ => .again) := by
  refine does_of_runIssue hi (fun s iss b _ hok => ?_) fun s iss b h _ => ⟨b, h.found, fun _ k => k⟩
  rw [hok, if_pos rfl]
  rfl

end

theorem mustDrain_of_unreleased (c : Ctx) (s : State) (scope : Nat) : s.mustDrain c false scope = false := rfl

theorem keeps_scratchConsume (s : State) (b : Block) (blk off n : Nat) (addr : DWord) :
    Keeps s (s.scratchConsume b blk off n addr).1 := by
  unfold State.scratchConsume
  split
  · exact keeps_event _ _ _ _ _ _ _
  · exact keeps_correctUnits _ _ _

theorem Got.state_self (g : Got) (s : State) : (g.state s fun _ => s) = s := by cases g <;> rfl

/-! ## Loads (R166 to R169) -/

/-- Settles O27: each thread reaches its place, or has the fate of the check that fails, and reads there. -/
theorem loads : Obligations.Loads := by
  intro w n r off ca own ka rk line
  refine ⟨?ld, ?lds, ?ldc, ?ldk⟩
  case ld =>
    have h := does_each_of_access (r := r) (h := fun _ _ t pa => (t, .done (loadWr w.ty w.d.toNat (t.valPa pa n)) n))
      (ready := Ctx.always) (i := .ld w) (fun _ => rfl) (fun c s x => ?_) (fun c s _ => mustDrain_of_unreleased c s 0)
      (fun c s x => keeps_reach _ _ _ _ _ _ _ _) fun _ _ s _ => .refl s
    · simpa only [Got.state_self] using h
    · dsimp only
      split <;> (rename_i e; rw [show r c s x = _ from e]; rfl)
  case lds =>
    refine does_each_of_acts (fun _ => rfl) (fun c s _ => mustDrain_of_unreleased c s 0) (fun c s x => ?_) fun c s x hw => ?_
    · dsimp only
      split
      · exact .refl s
      · split <;> (rename_i e; exact congrArg Prod.fst e ▸ keeps_scratchConsume _ _ _ _ _ _)
    · subst hw
      dsimp only
      split
      · rename_i e
        rw [show scratchFault c.b (off c x) n n false = _ from e]; rfl
      · rename_i e
        rw [show scratchFault c.b (off c x) n n false = _ from e]
        split <;> (rename_i e; simp only [Option.elim_none]; rw [show own c s x = _ from e]; rfl)
  case ldc =>
    refine does_each_of_acts (fun _ => rfl) (fun c s _ => mustDrain_of_unreleased c s 0) (fun c s x => ?_) fun c s x hw => ?_
    · dsimp only
      split
      · exact .refl s
      · split <;> (rename_i e; exact congrArg Prod.fst e ▸ keeps_scratchConsume _ _ _ _ _ _)
    · dsimp only
      split
      · rename_i e
        rw [show s.member c.b (ca c x) n false = _ from e]
      · rename_i m o e
        rw [show s.member c.b (ca c x) n false = _ from e]
        dsimp only
        split <;> (rename_i e; rw [show s.scratchConsume c.b m.id o n (ca c x) = _ from e]; rfl)
  case ldk =>
    refine does_each_of_access (r := rk) (h := fun c x t pa =>
      ((t.staleRead true c.b.place.core c.b.task (ka c x).toNat pa n).1,
        .done (loadWr w.ty w.d.toNat (ofBytesLE (t.staleRead true c.b.place.core c.b.task (ka c x).toNat pa n).2)) n))
      (fun _ => rfl) (fun c s x => ?_) (fun c s _ => mustDrain_of_unreleased c s 0) (fun c s x => keeps_readHome _ _ _ _ _ _)
      fun _ _ s _ => keeps_staleRead _ _ _ _ _ _ _
    dsimp only
    split <;> (rename_i e; rw [show rk c s x = _ from e]; rfl)

/-! ## Stores (R166 to R168) -/

/-- Settles O28: each thread reaches its place, or has the fate of the check that fails, and writes its register there. -/
theorem stores : Obligations.Stores := by
  intro w n va l bytes off
  refine ⟨?st, ?sts, ?stc⟩
  case st =>
    refine does_each_of_acts (fun _ => rfl) (fun _ _ h => h) (fun c s x => ?_) fun c s x hw => ?_
    · dsimp only
      split <;> rename_i e <;> have hk := congrArg Prod.fst e ▸ keeps_reach _ _ _ _ _ _ _ _
      · exact hk
      · exact hk.trans (keeps_storeAt _ _ _ _ _ _)
    · subst hw
      dsimp only
      split <;> (rename_i e; rw [show l c s x = _ from e]; rfl)
  case sts =>
    refine does_each_of_acts (fun _ => rfl) (fun c s _ => mustDrain_of_unreleased c s 0) (fun c s x => ?_) fun c s x hw => ?_
    · dsimp only
      split
      · exact .refl s
      · exact keeps_scratchWrite _ _ _ _
    · subst hw
      dsimp only
      split <;> (rename_i e; rw [show scratchFault c.b (off c x).toNat n n true = _ from e]; rfl)
  case stc =>
    refine does_each_of_acts (fun _ => rfl) (fun c s _ => mustDrain_of_unreleased c s 0) (fun c s x => ?_) fun c s x hw => ?_
    · dsimp only
      split
      · exact .refl s
      · exact keeps_scratchWrite _ _ _ _
    · subst hw
      dsimp only
      split
      · rename_i e
        rw [show s.member c.b (off c x) n true = _ from e]
      · rename_i e
        rw [show s.member c.b (off c x) n true = _ from e]; rfl

/-! ## Releases (R165, R173, R258) -/

/-- An update at the bank that is a release waits as a store does. -/
theorem does_again_of_runBank {i : Instr} {op : Nat} {w : CWord} {bytes : Nat} {host : Bool} {f : Thread → Nat → Nat × List Wr}
    (hi : ∀ s, exec i s = .next (s.runBank op w bytes host f)) :
    Does i op w (fun c s => s.mustDrain c (w.modF 3 3 == 2 || w.modF 3 3 == 3 || w.modF 3 3 == 4) (immScope w) = true)
      Ctx.noEffect (fun _ _ _ => .again) := by
  refine does_of_runIssue hi (fun s iss b _ hok => ?_) fun s iss b h _ => ⟨b, h.found, fun _ k => k⟩
  rw [hok, if_pos rfl]
  rfl

theorem mustDrain_iff {s : State} {c : Ctx} {b : Block} (h : s.block? c.iss.blk = some b) (rel : Bool) (scope : Nat) :
    s.mustDrain c rel scope = true ↔ rel = true ∧ 3 ≤ scope ∧ b.acks ≠ [] := by
  simp [State.mustDrain, h, and_assoc]

/-- Settles O31: the meaning of each release begins with its wait. -/
theorem releasesDrain : Obligations.ReleasesDrain := by
  intro w waits ord bank
  refine ⟨?done, ?fence, does_again_of_runMem fun _ => rfl, does_again_of_runBank fun _ => rfl, does_again_of_runBank fun _ => rfl,
    does_again_of_runBank fun _ => rfl, does_again_of_runMem fun _ => rfl, does_again_of_runMem fun _ => rfl,
    does_again_of_runMem fun _ => rfl, fun s c rel scope b h => mustDrain_iff h rel scope⟩
  case done =>
    refine does_of_effect (fun _ => rfl) (fun s iss b _ hok => ?_) fun s iss b h _ => ⟨b, h.found, fun _ k => k⟩
    rw [hok, if_neg Bool.false_ne_true]
    rfl
  case fence =>
    refine does_of_runIssue (fun _ => rfl) (fun s iss b _ hok => ?_) fun s iss b h _ => ⟨b, h.found, fun _ k => k⟩
    rw [hok, if_pos rfl]
    rfl

end Sys2Proof.Machine
end

section
/-! SUPPORT. The checks of an access, the entries of a walk, errors and far answers (R162, R334, R382 to R384, R394 to R397,
R413, R414); O25. -/

namespace Sys2Proof.Machine

/-! ## Checks 1 to 4 (R162, R334, R384) -/

theorem bits_eq_div {m : Nat} (x : BitVec m) (lo n : Nat) : bits x lo n = x.toNat / 2 ^ lo % 2 ^ n := by
  rw [bits, Nat.shiftRight_eq_div_pow]

theorem canonical_iff {va : DWord} : canonical va = true ↔ va.toNat < 2 ^ 57 := by
  have h := va.isLt
  rw [canonical, bits_eq_div, beq_iff_eq]
  omega

theorem canonical_of_lt {va : DWord} (h : va.toNat < 2 ^ 57) : canonical va = true := canonical_iff.mpr h

theorem inCaps_iff {s : State} {env va n : Nat} : s.inCaps env va n = true ↔
    0 < (s.env env).capn ∧ va < (s.env env).captab + 8 * min (s.env env).capn 1024 ∧ (s.env env).captab < va + n := by
  simp only [State.inCaps, decide_eq_true_iff]
  tauto

/-- The walk that serves a page is among the walks. -/
theorem State.startWalk_mem (s : State) (die env : Nat) (va : DWord) (k : Kind) :
    ∃ w ∈ (s.startWalk die env va k).1.eng.walks, w.id = (s.startWalk die env va k).2 := by
  unfold State.startWalk
  dsimp only
  split
  · rename_i w hw
    exact ⟨w, List.mem_of_find?_eq_some hw, rfl⟩
  · exact ⟨_, List.mem_append_right _ (List.mem_singleton_self _), rfl⟩

section
variable {s : State} {b : Block} {tid : Nat} {va : DWord} {size align : Nat} {k : Kind} {direct : Bool}

theorem State.locate_of_high (h : ¬ va.toNat < 2 ^ 57) : s.locate b tid va size align k direct =
    (s, .no (.trap { cause := .accessViolation, addr := va, write := k == .write || k == .atomic, size, extra := 1#64 })) := by
  have hc : canonical va = false := Bool.eq_false_iff.mpr fun e => h (canonical_iff.mp e)
  simp [State.locate, hc]

theorem State.locate_of_misaligned (h : va.toNat < 2 ^ 57) (ha : va.toNat % align ≠ 0) :
    s.locate b tid va size align k direct = (s, .no (.trap
      { cause := .misaligned, addr := va, write := k == .write || k == .atomic, size, extra := BitVec.ofNat 64 align })) := by
  simp [State.locate, canonical_of_lt h, ha]

theorem State.locate_of_caps (h : va.toNat < 2 ^ 57) (ha : va.toNat % align = 0)
    (hcaps : ((k == .write || k == .atomic) && !b.cfg.super && s.inCaps b.cfg.envelope va.toNat size) = true) :
    s.locate b tid va size align k direct = (s, .no (.trap
      { cause := .accessViolation, addr := va, write := k == .write || k == .atomic, size, extra := 2#64 })) := by
  simp only [State.locate, canonical_of_lt h, ha, hcaps]
  rfl

variable (h : va.toNat < 2 ^ 57) (ha : va.toNat % align = 0)
  (hcaps : ((k == .write || k == .atomic) && !b.cfg.super && s.inCaps b.cfg.envelope va.toNat size) = false)
include h ha hcaps

theorem State.locate_of_tile {pa : Nat}
    (ht : (s.task? b.task).bind (·.locate va (k == .write || k == .atomic) direct) = some (.inl pa)) :
    s.locate b tid va size align k direct = (s, .pa pa) := by
  simp only [State.locate, canonical_of_lt h, ha, hcaps, ht]
  rfl

section
variable (ht : (s.task? b.task).bind (·.locate va (k == .write || k == .atomic) direct) = none)
include ht

theorem State.locate_of_fault {t : TrapInfo} (hf : (b.th tid).faultAt (va.toNat / 2 ^ 16 % 2 ^ 41) = some t) :
    s.locate b tid va size align k direct =
      (s, .no (.trap { t with addr := va, write := k == .write || k == .atomic, size })) := by
  simp only [State.locate, canonical_of_lt h, ha, hcaps, ht, bits_eq_div, hf]
  rfl

/-- The way of an access that no check stops before its translation. -/
theorem State.locate_of_plain (hf : (b.th tid).faultAt (va.toNat / 2 ^ 16 % 2 ^ 41) = none) :
    s.locate b tid va size align k direct = match s.translate b.place.core b.cfg.envelope va k with
      | .ok pa => (s, .pa pa)
      | .bad t => (s, .no (.trap { t with write := k == .write || k == .atomic, size }))
      | .moved => (s, (s.lastAccess b tid va).elim (.no (.stall 0)) .pa)
      | .miss => ((s.startWalk b.die b.cfg.envelope va k).1, .no (.stall (s.startWalk b.die b.cfg.envelope va k).2)) := by
  simp only [State.locate, canonical_of_lt h, ha, hcaps, ht, bits_eq_div, hf]
  cases s.translate b.place.core b.cfg.envelope va k with
  | moved => cases s.lastAccess b tid va <;> rfl
  | _ => rfl

end
end

/-! ## The entries of a walk (R382, R383) -/

section
variable {s : State} {va : DWord} {level table : Nat} {e : BitVec 64}
  (hhome : s.homeOf table ≠ none)
  (hclean : s.poisoned (table + 8 * (va.toNat / 2 ^ levelShift level % 2 ^ levelBits level)) 8 = false)
  (he : e = BitVec.ofNat 64 (s.valPa (table + 8 * (va.toNat / 2 ^ levelShift level % 2 ^ levelBits level)) 8))
include hhome hclean he

theorem State.walkEntry_of_invalid (h0 : e.getLsbD 0 = false) : s.walkEntry va level table =
    .inl (if e.getLsbD 5 = true then .replay level else .fault (xlateFault va level)) := by
  simp only [State.walkEntry, bits_eq_div va, hhome, hclean, ← he, h0]
  rfl

theorem State.walkEntry_of_leaf (h0 : e.getLsbD 0 = true) (h1 : e.getLsbD 1 = true) (h6 : e.getLsbD 6 = false)
    (hlow : e.toNat < 2 ^ 56) (hlevel : level < 3) (halign : leafPa e % 2 ^ levelShift level = 0)
    (hleaf : s.homeOf (leafPa e) ≠ none) : s.walkEntry va level table = .inl (.leaf e (levelShift level)) := by
  have hbits : bits e 56 8 = 0 := by rw [bits_eq_div]; omega
  simp only [State.walkEntry, bits_eq_div va, hhome, hclean, ← he, h0, h1, h6, hbits, halign, hleaf, hlevel.ne]
  rfl

end

/-! ## Errors met, and far answers (R394, R396, R397, R413, R414) -/

theorem State.correctUnits_of_calm {s : State} {p : ErrUnit → Bool} (die : Nat) (h : ∀ u ∈ s.health.soft, p u = false) :
    s.correctUnits die p = s := by
  unfold State.correctUnits
  rw [List.filter_eq_nil_iff.mpr fun u hu => by simp [h u hu]]
  rfl

theorem State.correctL1_of_calm {s : State} {core pa n : Nat} (h : ∀ u ∈ s.health.soft, ¬ u.meets core pa n) :
    s.correctL1 core pa n = s := by
  have hread : s.correctRead pa n = s := State.correctUnits_of_calm _ fun u hu => by
    have := h u hu
    cases u <;> simp_all [ErrUnit.meets]
  rw [State.correctL1, hread]
  refine State.correctUnits_of_calm _ fun u hu => ?_
  have := h u hu
  cases u <;> simp_all [ErrUnit.meets]

theorem State.sound_of_calm {s : State} {core pa n : Nat} (h : ∀ u ∈ s.health.bad, ¬ u.meets core pa n) :
    (s.poisoned pa n || s.l1Bad core pa n) = false := by
  simp only [Bool.or_eq_false_iff, State.poisoned, State.l1Bad, Bool.and_eq_false_iff, List.any_eq_false]
  refine ⟨.inr fun u hu => ?_, .inr fun u hu => ?_⟩
  · have := h u hu
    cases u <;> simp_all [ErrUnit.meets]
  · have := h u hu
    cases u <;> simp_all [ErrUnit.meets]

section
variable {s : State} {b : Block} {va : DWord} {pa size : Nat} {write : Bool}

theorem State.consume_of_clean (h : s.clean b.place.core pa size) : s.consume b va pa size write = (s, .pa pa) := by
  obtain ⟨hfar, hcalm⟩ := h
  simp only [State.consume, State.sound_of_calm fun u hu => hcalm u (List.mem_append_left _ hu),
    State.correctL1_of_calm fun u hu => hcalm u (List.mem_append_right _ hu), hfar]
  rfl

theorem State.consume_of_bad (h : s.poisoned pa size = true ∨ s.l1Bad b.place.core pa size = true) :
    s.consume b va pa size write = (s.uncorrected b.die pa b.task b.cfg.envelope 0,
      .no (.trap { cause := .uncorrectedData, addr := va, write, size })) := by
  rw [State.consume, if_pos (by rwa [Bool.or_eq_true])]

theorem State.consume_of_far {n : Nat} (hfar : s.farOf pa = some n) (hbad : s.health.bad = []) (hsoft : s.health.soft = []) :
    s.consume b va pa size write = s.answered n va pa size write := by
  simp only [State.consume, State.sound_of_calm (s := s) (core := b.place.core) (pa := pa) (n := size) (by simp [hbad]),
    State.correctL1_of_calm (s := s) (core := b.place.core) (pa := pa) (n := size) (by simp [hsoft]), hfar]
  rfl

end

/-- Settles O25: the checks of an access in their order, an entry by its bits, and check 6 by what the range holds and where
it lies. -/
theorem accessChecks : Obligations.AccessChecks := by
  refine ⟨fun s b tid va size align k direct => ?locate, fun s va level table e => ?walk, fun s b va pa size write => ?consume⟩
  case locate =>
    intro write low none' plain e caps r
    have hcaps : caps ↔ ((k == .write || k == .atomic) && !b.cfg.super && s.inCaps b.cfg.envelope va.toNat size) = true := by
      simp only [Bool.and_eq_true, Bool.not_eq_true', inCaps_iff, and_assoc]
      rfl
    have hfree (h : ¬ caps) := Bool.eq_false_iff.mpr fun e => h (hcaps.mpr e)
    refine ⟨State.locate_of_high, State.locate_of_misaligned, fun h ha hc => State.locate_of_caps h ha (hcaps.mp hc),
      fun ⟨h, ha, hc⟩ pa ht => State.locate_of_tile h ha (hfree hc) ht, fun ⟨h, ha, hc⟩ ⟨ht, hf⟩ pa hx => ?_,
      fun ⟨h, ha, hc⟩ ⟨ht, hf⟩ t hx => ?_, fun ⟨h, ha, hc⟩ ⟨ht, hf⟩ hx => ?_,
      fun ⟨h, ha, hc⟩ ⟨ht, hf⟩ hx => ?_,
      fun ⟨h, ha, hc⟩ ht t hf => State.locate_of_fault h ha (hfree hc) ht hf⟩
    all_goals have hr := State.locate_of_plain h ha (hfree hc) ht hf; rw [hx] at hr
    · exact hr
    · exact hr
    · exact ⟨_, hr, by rw [show r = _ from hr]; exact s.startWalk_mem _ _ _ _⟩
    · exact hr
  case walk =>
    intro pa hhome hclean he
    refine ⟨fun h0 h5 => ?_, fun h0 h5 => ?_, State.walkEntry_of_leaf hhome hclean he, fun hq => ?_⟩
    · rw [State.walkEntry_of_invalid hhome hclean he h0, h5]; rfl
    · rw [State.walkEntry_of_invalid hhome hclean he h0, h5]; rfl
    · simp only [State.leafFault, hq]
      have grants {ok : Bool} (t u : TrapInfo) :
          (if !ok then some t else if false then some u else none) = none ↔ ok = true := by cases ok <;> simp
      exact ⟨grants _ _, grants _ _, grants _ _, (grants _ _).trans (by rw [Bool.and_eq_true])⟩
  case consume =>
    refine ⟨State.consume_of_clean, State.consume_of_bad, fun n hfar hbad hsoft => ?_⟩
    intro waits told
    rw [State.consume_of_far hfar hbad hsoft, State.answered]
    by_cases hn : n = 1024
    · rw [if_pos hn, if_pos hn]
      cases ha : Config.arrived s.choices <;> cases he : Config.hostError (s.choices + 1) <;>
        simp [State.free, ha, he, waits]
    · rw [if_neg hn, if_neg hn]
      have hroute : (State.route { told with choices := told.choices + 1 } n).isSome = (told.route n).isSome := rfl
      cases ha : Config.arrived told.choices <;> cases hr : (told.route n).isSome <;>
        simp_all [State.free, waits, told]

end Sys2Proof.Machine
end

section
/-! SUPPORT. Scratchpad checks, arrival orders, updates at the bank (R161, R168, R170 to R172, R241, R394); O29, O30. -/

namespace Sys2Proof.Machine

/-! ## Arrival orders (R171, R172) -/

/-- The threads in an arrival order are those of the issue, and the order takes nothing but free choices. -/
theorem State.inArrival_frame (key : Nat × Nat → DWord) (k : Nat) (s : State) (xs : List (Nat × Nat)) (hk : xs.length = k)
    (hn : xs.Nodup) : (State.inArrival key k s xs).2.Perm xs ∧
      { (State.inArrival key k s xs).1 with choices := s.choices } = s := by
  induction k generalizing s xs with
  | zero => exact ⟨.refl _, rfl⟩
  | succ k ih =>
    obtain _ | ⟨x, xs⟩ := xs
    · cases hk
    have step (y : Nat × Nat) (t : State) (hy : y ∈ x :: xs) (ht : { t with choices := s.choices } = s) :
        (y :: (State.inArrival key k t ((x :: xs).filter (· != y))).2).Perm (x :: xs) ∧
          { (State.inArrival key k t ((x :: xs).filter (· != y))).1 with choices := s.choices } = s := by
      have he : (x :: xs).filter (· != y) = (x :: xs).erase y := (hn.erase_eq_filter y).symm
      have hlen : ((x :: xs).erase y).length = k := by rw [List.length_erase_of_mem hy, hk]; rfl
      obtain ⟨hp, hs⟩ := ih t _ hlen (hn.erase y)
      rw [he]
      refine ⟨(hp.cons y).trans (List.perm_cons_erase hy).symm, ?_⟩
      exact (congrArg (fun u : State => { u with choices := s.choices }) hs).trans ht
    unfold State.inArrival
    dsimp only
    split
    · exact step x s List.mem_cons_self rfl
    · refine step _ _ ?_ rfl
      rw [List.getD_eq_getElem?_getD]
      cases h : (List.filter (fun y => key y == key x) (x :: xs))[
          (s.free Config.arrival).1 % (List.filter (fun y => key y == key x) (x :: xs)).length]? with
      | none => exact List.mem_cons_self
      | some y => exact (List.mem_filter.mp (List.mem_of_getElem? h)).1

/-! ## The checks of scratchpad offsets (R161, R241) -/

theorem scratchFault_eq_none_iff {b : Block} {off size align : Nat} {write : Bool} :
    scratchFault b off size align write = none ↔ off % align = 0 ∧ off + size ≤ b.cfg.scratch := by
  unfold scratchFault
  dsimp only
  split
  · simp_all
  · split <;> simp_all

theorem scratchFault_some {b : Block} {off size align : Nat} {write : Bool} {t : TrapInfo}
    (h : scratchFault b off size align write = some t) :
    t.cause = (if off % align ≠ 0 then .misaligned else .scratchBounds) ∧ t.addr = BitVec.ofNat 64 off ∧
      t.write = write ∧ t.size = size := by
  unfold scratchFault at h
  dsimp only at h
  split at h
  · rename_i ha
    cases h
    exact ⟨(if_pos ha).symm, rfl, rfl, rfl⟩
  · rename_i ha
    split at h <;> cases h
    exact ⟨(if_neg ha).symm, rfl, rfl, rfl⟩

theorem State.member_ok {s : State} {b m : Block} {addr : DWord} {size o : Nat} {write : Bool}
    (h : s.member b addr size write = .ok (m, o)) :
    addr.toNat % size = 0 ∧ m ∈ s.blocks ∧ m.task = b.task ∧ o = addr.toNat % 2 ^ 21 ∧ o + size ≤ m.cfg.scratch ∧
      m.bid = b.bid / b.cfg.groupSize * b.cfg.groupSize + addr.toNat / 2 ^ 24 % 32 := by
  unfold State.member at h
  extract_lets at h
  rename_i mem off g target bytes inExtent space
  split at h
  · cases h
  rename_i ha
  split at h
  · cases h
  rename_i hb
  cases ht : target with
  | none => rw [ht] at h; cases h
  | some x =>
    simp only [ht, Except.ok.injEq, Prod.mk.injEq] at h
    obtain ⟨rfl, ho⟩ := h
    have hx := List.find?_some ht
    simp only [Bool.and_eq_true, beq_iff_eq] at hx
    obtain ⟨htask, hbid⟩ := hx
    simp only [bytes, ht, Option.map_some, Option.getD_some, not_or, not_lt] at hb
    exact ⟨not_not.mp ha, List.mem_of_find?_eq_some ht, htask, by simp [← ho, off, bits_eq_div], ho ▸ hb.2.2.2,
      by rw [hbid]; simp [mem, g, bits_eq_div]⟩

/-! ## Errors in a scratchpad (R162 check 6, R414) -/

section
variable {s : State} {b : Block} {blk off n : Nat} {addr : DWord}

theorem State.scratchBad_iff : s.scratchBad blk off n = true ↔
    ∃ k, (off < 8 * k + 8 ∧ 8 * k < off + n) ∧ ErrUnit.scratch blk k ∈ s.health.bad := by
  simp only [State.scratchBad, Bool.and_eq_true, Bool.not_eq_true', List.isEmpty_eq_false_iff, List.any_eq_true]
  constructor
  · rintro ⟨-, u, hu, hp⟩
    cases u <;> simp only [Bool.false_eq_true] at hp
    rename_i k m
    simp only [Bool.and_eq_true, beq_iff_eq, decide_eq_true_eq] at hp
    exact ⟨m, hp.2, hp.1 ▸ hu⟩
  · rintro ⟨k, hk, hm⟩
    exact ⟨List.ne_nil_of_mem hm, _, hm, by simpa using hk⟩

theorem State.scratchConsume_of_bad (h : s.scratchBad blk off n = true) : s.scratchConsume b blk off n addr =
    (s.coreError b 1 0, some { cause := .uncorrectedData, addr, size := n }) := by
  rw [State.scratchConsume, if_pos h]

theorem State.scratchConsume_of_sound (h : s.scratchBad blk off n = false) : (s.scratchConsume b blk off n addr).2 = none ∧
    HealthOnly s (s.scratchConsume b blk off n addr).1 := by
  rw [State.scratchConsume, if_neg (Bool.eq_false_iff.mp h)]
  exact ⟨rfl, healthOnly_correctUnits _ _ _⟩

theorem State.scratchConsume_of_calm (h : s.scratchBad blk off n = false)
    (hs : ∀ k, off < 8 * k + 8 → 8 * k < off + n → ErrUnit.scratch blk k ∉ s.health.soft) :
    s.scratchConsume b blk off n addr = (s, none) := by
  rw [State.scratchConsume, if_neg (Bool.eq_false_iff.mp h), State.correctUnits_of_calm]
  intro u hu
  cases u with
  | scratch k m =>
    rw [Bool.and_eq_false_iff, beq_eq_false_iff_ne, wordIn, decide_eq_false_iff_not]
    by_cases hk : k = blk
    · exact .inr fun hw => hs m hw.1 hw.2 (hk ▸ hu)
    · exact .inl hk
  | _ => rfl

end

/-- Settles O29: a failed check by its cause, the member that a cluster address names, ATOMS thread after thread, and
check 6 of a scratchpad by what its range holds. -/
theorem scratchpads : Obligations.Scratchpads := by
  refine ⟨fun b off size align write =>
    ⟨scratchFault_eq_none_iff, fun t => scratchFault_some, fun s addr m o => State.member_ok⟩,
    fun w => ?atoms, fun s b blk off n addr => ?consume⟩
  case atoms =>
    intro n off start old b new read
    refine DoesEach.congr (does_each_of_runIssue (start := start) (ready := Ctx.always) (fun _ => rfl)
      (fun c s hn _ => ⟨(State.inArrival_frame _ _ s _ rfl hn).1, keeps_inArrival _ _ _ _⟩)
      (fun c s x => ?keeps) fun c s _ _ => rfl) fun c _ _ => ⟨rfl, fun _ h => h, funext₂ fun s x => ?_, funext₂ fun s x => ?_⟩
    case keeps =>
      dsimp only
      split
      · exact .refl s
      · split <;> rename_i e <;> have hk := congrArg Prod.fst e ▸ keeps_scratchConsume _ _ _ _ _ _
        · exact hk
        · exact hk.trans (keeps_scratchWrite _ _ _ _)
    all_goals
      dsimp only
      split <;> rename_i e <;> rw [show scratchFault c.b (off c x) n n true = _ from e]
      · rfl
      · split <;> (rename_i e; simp only [Option.elim_none]; rw [show read c s x = _ from e]; rfl)
  case consume =>
    refine ⟨fun h => ?_, fun k h1 h2 hk => ?_⟩
    · have hsound : s.scratchBad blk off n = false :=
        Bool.eq_false_iff.mpr fun e => by obtain ⟨k, ⟨h1, h2⟩, hk⟩ := State.scratchBad_iff.mp e; exact h k h1 h2 hk
      obtain ⟨hnone, hh⟩ := State.scratchConsume_of_sound (b := b) (addr := addr) hsound
      exact ⟨hnone, hh.blocks, hh.mem, State.scratchConsume_of_calm hsound⟩
    · rw [State.scratchConsume_of_bad (State.scratchBad_iff.mpr ⟨k, ⟨h1, h2⟩, hk⟩)]
      exact ⟨rfl, rfl, rfl⟩

/-! ## Updates at the bank (R170 to R172, R394) -/

theorem keeps_consumeBank (s : State) (c : Ctx) (op tid : Nat) (va : DWord) (pa n : Nat) :
    Keeps s (s.consumeBank c op tid va pa n).1 := by
  unfold State.consumeBank
  split
  · rename_i e
    exact congrArg Prod.fst e ▸ keeps_gate _ _ _ _ _ _ _
  · rename_i e
    have hg := congrArg Prod.fst e ▸ keeps_gate s c.b tid pa n .atomic false
    split
    · exact hg.trans ((keeps_uncorrected _ _ _ _ _ _).trans (keeps_killContext _ _ _ _ _ _ _))
    · exact hg.trans (keeps_consume _ _ _ _ _ _ _)

/-- One thread's update at the bank. -/
def State.bankTurn (s : State) (c : Ctx) (op : Nat) (w : CWord) (bytes : Nat) (host : Bool) (f : Thread → Nat → Nat × List Wr)
    (x : Nat × Nat) : State × Fate :=
  let n := sizeOf w.ty
  let va := pairAddr (c.opnd x.2) w (w.modF 3 3 != 0)
  match s.locate c.b x.2 va n n .atomic with
  | (s, .no fate) => (s, fate)
  | (s, .pa pa) =>
    if s.homeOf pa = some .host && !host then
      (s, .trap { cause := .accessViolation, addr := va, write := true, size := n, extra := 2#64 })
    else match s.consumeBank c op x.2 va pa n with
      | (s, .no fate) =>
        let (made, s) := if s.homeOf pa = some .host && fate != .again then s.free Config.arrived else (false, s)
        (if made then s.writePa pa (toBytesLE n (f (c.b.th x.2) (s.valPa pa n)).1) else s, fate)
      | (s, .pa pa) =>
        let (new, ws) := f (c.b.th x.2) (s.valPa pa n)
        (s.storeAt c.b x.2 va pa (toBytesLE n new), .done ws bytes)

theorem keeps_bankTurn (s : State) (c : Ctx) (op : Nat) (w : CWord) (bytes : Nat) (host : Bool)
    (f : Thread → Nat → Nat × List Wr) (x : Nat × Nat) : Keeps s (s.bankTurn c op w bytes host f x).1 := by
  unfold State.bankTurn
  dsimp only
  split <;> rename_i e <;> have hl := congrArg Prod.fst e ▸ keeps_locate _ _ _ _ _ _ _ _
  · exact hl
  split
  · exact hl
  split <;> rename_i e <;> have hc := hl.trans (congrArg Prod.fst e ▸ keeps_consumeBank _ _ _ _ _ _ _)
  · split
    · split
      · exact hc.trans (.after (keeps_writePa _ _ _) (.of_blocks rfl))
      · exact hc.trans (.of_blocks rfl)
    · exact hc
  · exact hc.trans (keeps_storeAt _ _ _ _ _ _)

section
variable {i : Instr} {op bytes : Nat} {w : CWord} {host : Bool} {f : Thread → Nat → Nat × List Wr}

/-- An update at the bank: thread after thread in the arrival order, once no release waits. -/
theorem does_each_of_runBank (hi : ∀ s, exec i s = .next (s.runBank op w bytes host f)) :
    DoesEach i op w
      (fun c s => State.inArrival (fun x => pairAddr (c.opnd x.2) w (w.modF 3 3 != 0)) c.on.length s c.on)
      (fun c s => s.mustDrain c (w.modF 3 3 == 2 || w.modF 3 3 == 3 || w.modF 3 3 == 4) (immScope w) = false)
      (fun c s x => (s.bankTurn c op w bytes host f x).1) (fun c s x => (s.bankTurn c op w bytes host f x).2) := by
  refine does_each_of_runIssue hi (fun c s hn _ => ⟨(State.inArrival_frame _ _ s _ rfl hn).1, keeps_inArrival _ _ _ _⟩)
    (fun c s x => keeps_bankTurn _ _ _ _ _ _ _ _) fun c s hr hfit => ?_
  rw [if_neg (Bool.eq_false_iff.mp hr)]
  exact State.fitAcks_eq hfit

end

/-- The arithmetic of the bank on integers of W bits. -/
theorem elemUpdate_of_integer {t : Ty} {m b : Nat} {int : Int → Int → Int} {flt : Fmt → Nat → Nat → Nat}
    (hf : t.isFloat = false) (h1 : t ≠ .f16x2) (h2 : t ≠ .bf16x2) :
    elemUpdate t int flt m b = wrap t.bits (int (valOf t m) (valOf t b)) := by
  cases t with
  | f32 | f64 => cases hf
  | f16x2 => exact absurd rfl h1
  | bf16x2 => exact absurd rfl h2
  | _ => rfl

/-- Settles O30: each thread in the arrival order reaches the home, or has the fate of what stops it there, and makes its
update; the operations by their type. -/
theorem bankUpdates : Obligations.BankUpdates := by
  refine ⟨fun w => ?bank, fun t m b e hf h1 h2 => ?integer, fun m b e => ⟨rfl, rfl, rfl⟩,
    fun key s xs hn => State.inArrival_frame key _ s xs rfl hn⟩
  case bank =>
    intro n ord va start ready r asked late b does
    have main (i : Instr) (op bytes : Nat) (host : Bool) (new : Ctx → Nat × Nat → Nat → Nat) (ws : Nat → List Wr)
        (f : Thread → Nat → Nat × List Wr) (hi : ∀ s, exec i s = .next (s.runBank op w bytes host f))
        (hf : ∀ c x m, f (c.b.th x.2) m = (new c x m, ws m)) : does i op host bytes new ws := by
      have turn (c : Ctx) (s : State) (x : Nat × Nat) : s.bankTurn c op w bytes host f x =
          ((r op host c s x).2.state (late op host new c s x) fun pa =>
            (r op host c s x).1.storeAt c.b x.2 (va c x) pa (toBytesLE n (new c x ((r op host c s x).1.valPa pa n))),
          (r op host c s x).2.fate fun pa => .done (ws ((r op host c s x).1.valPa pa n)) bytes) := by
        simp only [State.bankTurn, r, late, asked, sizeOf, va, ord, n]
        obtain ⟨l, pa | k⟩ := s.locate c.b x.2 (pairAddr (c.opnd x.2) w (w.modF 3 3 != 0)) (w.ty.bits / 8) (w.ty.bits / 8) .atomic
        · by_cases hhost : l.homeOf pa = some .host ∧ host = false
          · obtain ⟨hhome, rfl⟩ := hhost
            simp [hhome, Got.state, Got.fate, Got.pa?, Option.filter_some]
          · have hgo : ¬ l.homeOf pa = some .host ∨ host = true := (not_and_or.mp hhost).imp_right Bool.eq_true_of_not_eq_false
            have hpass : (decide (l.homeOf pa = some .host) && !host) = false := by
              rwa [Bool.and_eq_false_iff, decide_eq_false_iff_not, Bool.not_eq_false']
            have hask : (l.homeOf pa != some .host || host) = true := by rwa [Bool.or_eq_true, bne_iff_ne]
            rcases hu : l.consumeBank c op x.2 (pairAddr (c.opnd x.2) w (w.modF 3 3 != 0)) pa (w.ty.bits / 8) with ⟨u, place | k⟩
            · simp [hhost, hpass, hu, Got.state, Got.fate, hf]
            · by_cases hlate : u.homeOf pa = some .host ∧ k ≠ .again
              · simp [hhost, hpass, hask, hu, Got.state, Got.fate, Got.pa?, hf, hlate, Option.filter_some, State.free]
                rfl
              · simp [hhost, hpass, hask, hu, Got.state, Got.fate, Got.pa?, hlate, Option.filter_some]
        · rfl
      exact (does_each_of_runBank hi).congr fun c _ _ =>
        ⟨rfl, fun _ h => h, funext₂ fun s x => by rw [turn], funext₂ fun s x => by rw [turn]⟩
    have atom := main (.atom w) 0x207 _ _ (fun c x m => atomicNew (w.modF 0 3) w.ty m (b c x w.b.toNat) (b c x w.e))
      (fun m => wrV w.d.toNat w.ty.regs m) _ (fun _ => rfl) fun _ _ _ => rfl
    have bred := main (.bred w) 0x209 _ _ (fun c x m => atomicNew (w.modF 0 3) w.ty m (b c x w.b.toNat) 0) (fun _ => []) _
      (fun _ => rfl) fun _ _ _ => rfl
    have bupd := main (.bupd w) 0x20A _ _
      (fun c x m => bupdNew (w.modF 0 3) w.ty m (b c x w.b.toNat) (b c x (w.b.toNat + w.ty.regs))) (fun _ => []) _
      (fun _ => rfl) fun _ _ _ => rfl
    exact ⟨atom, bred, bupd⟩
  case integer =>
    simp [atomicNew, addElem, minElem, maxElem, elemUpdate_of_integer hf h1 h2]

end Sys2Proof.Machine
end

section
/-! SUPPORT. Waits of threads, the wait table, cache hints (R174 to R177); O32. -/

namespace Sys2Proof.Machine

/-! ## The wait table (R176) -/

theorem keeps_park (s : State) (c : Ctx) (tid : Nat) (old : Option Parked) (q : Parked) : Keeps s (s.park c tid old q).1 := by
  unfold State.park
  split
  · exact .refl s
  · dsimp only
    split
    · exact .after (keeps_modTh _ _ _ _) (.of_blocks rfl)
    · exact .after (keeps_modBlock fun _ _ => rfl) (.of_blocks rfl)

section
variable {s : State} {c : Ctx} {tid : Nat} {q : Parked} {b : Block}

theorem State.park_frame : (s.park c tid none q).1.choices = s.choices + 1 ∧ (s.park c tid none q).1.mem = s.mem := by
  unfold State.park
  dsimp only [Option.filter]
  split <;> exact ⟨rfl, rfl⟩

/-- With room in its cluster's wait table a thread enters it. -/
theorem State.park_of_room (hb : s.block? c.iss.blk = some b) (h : s.waitTableUse c.b.cluster < 1024) :
    (s.park c tid none q).2 = .wait (.parked { q with op := c.op, w := c.w, seq := s.choices }) ∧
      (s.park c tid none q).1.block? c.iss.blk = some (b.modTh tid fun th =>
        { th with st := .parked, wait := some (.parked { q with op := c.op, w := c.w, seq := s.choices }) }) := by
  have hroom : State.waitTableUse { s with choices := s.choices + 1 } c.b.cluster < Config.waitTable := h
  simp only [State.park, Option.filter, hroom, if_true, true_and]
  exact (State.block?_modBlock fun b h => (Block.modTh_id _ _ _).trans h).trans (congrArg _ hb)

/-- Without room it polls, and %wtovf counts it. -/
theorem State.park_of_full (hb : s.block? c.iss.blk = some b) (h : 1024 ≤ s.waitTableUse c.b.cluster) :
    (s.park c tid none q).2 = .wait (.parked
        { q with op := c.op, w := c.w, seq := s.choices, polled := true, pollAt := s.clock.time + 2000 }) ∧
      ∃ b', (s.park c tid none q).1.block? c.iss.blk = some b' ∧ b'.threads = b.threads ∧
        b'.regs.wtovf.toNat = min (b.regs.wtovf.toNat + 1) (2 ^ 32 - 1) := by
  have hfull : ¬ State.waitTableUse { s with choices := s.choices + 1 } c.b.cluster < Config.waitTable := not_lt.mpr h
  simp only [State.park, Option.filter, hfull, if_false, true_and]
  rw [State.block?_modBlock]
  refine ⟨_, congrArg (Option.map _) hb, rfl, ?_⟩
  dsimp only
  split
  · rename_i h
    rw [h]
    rfl
  · bv_omega

end

/-! ## WAITADDR and PARK (R174, R175), hints (R177) -/

/-- WAITADDR at the word that its thread reads. -/
def State.waitaddrAt (c : Ctx) (x : Nat × Nat) (s : State) (pa : Nat) : State × Fate :=
  let n := c.w.ty.bits / 8
  let want := BitVec.ofNat 64 ((c.b.th x.2).reg c.w.b.toNat c.w.ty.regs)
  let hit := (BitVec.ofNat 64 (s.valPa pa n) == want) != (c.w.modF 0 1 == 1)
  if hit then (s, .done [.p c.w.d.toNat true] (c.bytesNow x.2 none n))
  else s.park c x.2 none
    { kind := .waitaddr, va := pairAddr (c.opnd x.2) c.w false, pa, val := want, bytes := c.bytesNow x.2 none n }

/-- PARK at the word that its thread reads. -/
def State.parkAt (c : Ctx) (x : Nat × Nat) (s : State) (pa : Nat) : State × Fate :=
  let key := ((c.b.th x.2).v.getD c.w.b.toNat 0#32).setWidth 64
  if BitVec.ofNat 64 (s.valPa pa 4) ≠ key then (s, .done [] (c.bytesNow x.2 none 4))
  else s.park c x.2 none { kind := .park, va := pairAddr (c.opnd x.2) c.w false, pa, val := key, scope := c.w.modF 1 3
                           bytes := c.bytesNow x.2 none 4 }

/-- UNPARK at its key: the threads parked there that it reaches are woken. -/
def State.unparkAt (w : CWord) (c : Ctx) (s : State) (pa : Nat) : State × Fate :=
  let ws := if w.modF 0 1 = 1 then s.parkedOn c.b pa (w.modF 1 3) else (s.parkedOn c.b pa (w.modF 1 3)).take 1
  (ws.foldl (fun s y => s.modTh y.2.1 y.2.2 Thread.wakeNow) s, .done)

theorem waitaddrAct_none (c : Ctx) (s : State) (x : Nat × Nat) : State.waitaddrAct none c s x = Got.andThen
    (s.readHome c.b x.2 (pairAddr (c.opnd x.2) c.w false) (c.w.ty.bits / 8) (c.w.ty.bits / 8)) (State.waitaddrAt c x) := by
  unfold State.waitaddrAct sizeOf
  dsimp only
  split <;> (rename_i e; rw [e])
  · rfl
  · simp only [Got.andThen, State.waitaddrAt, Option.any_none, Bool.or_false]
    split
    · rename_i hit
      rw [hit]
    · rfl

theorem parkAct_none (c : Ctx) (s : State) (x : Nat × Nat) : State.parkAct none c s x = Got.andThen
    (s.readHome c.b x.2 (pairAddr (c.opnd x.2) c.w false) 4 4) (State.parkAt c x) := by
  unfold State.parkAct
  dsimp only [Option.any]
  rw [if_neg Bool.false_ne_true]
  split <;> (rename_i e; rw [e])
  · rfl
  · simp [Got.andThen, State.parkAt]

theorem keeps_waitaddrAt (c : Ctx) (x : Nat × Nat) (s : State) (pa : Nat) : Keeps s (State.waitaddrAt c x s pa).1 := by
  unfold State.waitaddrAt
  dsimp only
  split
  · exact .refl s
  · exact keeps_park _ _ _ _ _

theorem keeps_parkAt (c : Ctx) (x : Nat × Nat) (s : State) (pa : Nat) : Keeps s (State.parkAt c x s pa).1 := by
  unfold State.parkAt
  dsimp only
  split
  · exact .refl s
  · exact keeps_park _ _ _ _ _

theorem keeps_dropLine (s : State) (b : Block) (op pa : Nat) : Keeps s (s.dropLine b op pa) := by
  unfold State.dropLine
  split <;> exact .of_blocks rfl

/-- Settles O32: each thread reaches its key's place, or has the fate of the check that fails, and completes or parks there. -/
theorem memoryWaits : Obligations.MemoryWaits := by
  refine ⟨fun w => ?_, fun s c tid q b hb => ?park⟩
  · intro n va r paid want hit wq key pq u woken
    refine ⟨?waitaddr, ?parkw, ?unpark, ?cctl, ?prefetch⟩
    case waitaddr =>
      refine DoesEach.congr (does_each_of_access (ready := Ctx.always) (fun _ => rfl) waitaddrAct_none
        (fun c s _ => mustDrain_of_unreleased c s 0) (fun c s x => keeps_readHome _ _ _ _ _ _) keeps_waitaddrAt) fun c hw _ => ?_
      subst hw
      exact ⟨rfl, fun _ h => h, rfl, rfl⟩
    case parkw =>
      refine DoesEach.congr (does_each_of_access (ready := Ctx.always) (fun _ => rfl) parkAct_none
        (fun c s _ => mustDrain_of_unreleased c s 0) (fun c s x => keeps_readHome _ _ _ _ _ _) keeps_parkAt) fun c hw _ => ?_
      subst hw
      exact ⟨rfl, fun _ h => h, rfl, rfl⟩
    case unpark =>
      have h := does_each_of_access (i := .unpark w) (r := u) (h := fun c _ => State.unparkAt w c) (fun _ => rfl) (fun c s x => ?reach)
        (fun _ _ h => h) (fun c s x => keeps_locate _ _ _ _ _ _ _ _) fun _ _ _ _ => .foldl (fun _ _ => keeps_modTh _ _ _ _) _ _
      · exact h
      case reach => split <;> (rename_i e; rw [show u c s x = _ from e]; rfl)
    case cctl =>
      refine does_each_of_acts (fun _ => rfl) (fun c s _ => mustDrain_of_unreleased c s 0) (fun c s x => ?_) fun c s x _ => ?_
      · split
        · exact .refl s
        · exact keeps_dropLine _ _ _ _
      · split <;> (rename_i e; rw [show s.quietPa c.b (va c x) = _ from e]; rfl)
    case prefetch =>
      exact does_of_effect (fun _ => rfl) (fun _ _ _ _ _ => rfl) fun s iss b h _ => ⟨b, h.found, fun _ k => k⟩
  case park =>
    obtain ⟨hc, hm⟩ := State.park_frame (s := s) (c := c) (tid := tid) (q := q)
    exact ⟨hc, hm, State.park_of_room hb, State.park_of_full hb⟩

end Sys2Proof.Machine
end

section
/-! SUPPORT. Object instructions; futures (R185, R186, R345); O33. -/

namespace Sys2Proof.Machine

/-! ## An object, and what its thread does with it -/

/-- An instruction whose thread acts on the object that it reaches. -/
def onObject (r : State × (Fate ⊕ Nat)) (h : State → Nat → State × Fate) : State × Fate :=
  match r with
  | (s, .inl f) => (s, f)
  | (s, .inr pa) => h s pa

theorem onObject_fst (r : State × (Fate ⊕ Nat)) (h : State → Nat → State × Fate) :
    (onObject r h).1 = r.2.elim (fun _ => r.1) fun pa => (h r.1 pa).1 := by
  obtain ⟨t, f | pa⟩ := r <;> rfl

theorem onObject_snd (r : State × (Fate ⊕ Nat)) (h : State → Nat → State × Fate) :
    (onObject r h).2 = r.2.elim id fun pa => (h r.1 pa).2 := by
  obtain ⟨t, f | pa⟩ := r <;> rfl

theorem keeps_onObject {s : State} {r : State × (Fate ⊕ Nat)} {h : State → Nat → State × Fate} (hr : Keeps s r.1)
    (hh : ∀ t pa, Keeps t (h t pa).1) : Keeps s (onObject r h).1 := by
  obtain ⟨t, f | pa⟩ := r
  · exact hr
  · exact hr.trans (hh t pa)

section
variable {i : Instr} {op : Nat} {w : CWord} {rel : Bool} {scope : Nat} {f : Ctx → State → Nat × Nat → State × Fate}

/-- An instruction each of whose threads reaches an object and acts on it. -/
theorem does_each_of_object {ready : Ctx → State → Prop} {r : Ctx → State → Nat × Nat → State × (Fate ⊕ Nat)}
    {h : Ctx → Nat × Nat → State → Nat → State × Fate} (hi : ∀ s, exec i s = .next (s.runMem op w rel scope f))
    (hf : ∀ c s x, f c s x = onObject (r c s x) (h c x)) (hd : ∀ c s, ready c s → s.mustDrain c rel scope = false)
    (hr : ∀ c s x, Keeps s (r c s x).1) (hh : ∀ c x s pa, Keeps s (h c x s pa).1) :
    DoesEach i op w Ctx.inOrder ready
      (fun c s x => (r c s x).2.elim (fun _ => (r c s x).1) fun pa => (h c x (r c s x).1 pa).1)
      (fun c s x => (r c s x).2.elim id fun pa => (h c x (r c s x).1 pa).2) := by
  refine does_each_of_acts hi hd (fun c s x => ?_) fun c s x _ => Prod.ext ?_ ?_
  · rw [hf]; exact keeps_onObject (hr c s x) (hh c x)
  · rw [hf, onObject_fst]
  · rw [hf, onObject_snd]

end

/-! ## Futures (R185, R186, R345) -/

theorem keeps_reachFuture (s : State) (c : Ctx) (tid : Nat) (va : DWord) (k : Kind) : Keeps s (s.reachFuture c tid va k).1 := by
  unfold State.reachFuture
  split <;> rename_i e <;> have hr := congrArg Prod.fst e ▸ keeps_reach _ _ _ _ _ _ _ _
  · exact hr
  · split <;> exact hr

theorem keeps_fillFuture (s : State) (pa v : Nat) : Keeps s (s.fillFuture pa v) :=
  ((keeps_putPa _ _ _ _).trans (keeps_putPa _ _ _ _)).trans (keeps_wake _ _)

theorem keeps_takeFuture (s : State) (pa : Nat) (take : Bool) : Keeps s (s.takeFuture pa take).1 := by
  unfold State.takeFuture
  dsimp only
  split
  · exact (keeps_putPa _ _ _ _).trans (keeps_putPa _ _ _ _)
  · exact .refl s

theorem keeps_noteTake (s : State) (c : Ctx) (tid : Nat) (va : DWord) (pa : Nat) (take : Bool) :
    Keeps s (s.noteTake c tid va pa take) := by
  unfold State.noteTake
  split
  · exact keeps_noteWrite _ _ _ _ _ _ _
  · exact .refl s

theorem keeps_addWaiter (s : State) (pa : Nat) : Keeps s (s.addWaiter pa) := by
  unfold State.addWaiter
  dsimp only
  split
  · exact .refl s
  · exact keeps_putPa _ _ _ _

/-- FPUT at its future. -/
def State.fputAt (w : CWord) (c : Ctx) (x : Nat × Nat) (s : State) (pa : Nat) : State × Fate :=
  let va := c.objAddr x.2
  if s.futureState pa = 1 then
    (s.noteWrite c.b x.2 va pa, if w.modF 0 1 = 1 then .trap { cause := .futureDouble, addr := va, write := true, size := 16 }
      else .done [.p c.resP false] 16)
  else ((s.fillFuture pa ((c.b.th x.2).reg w.b.toNat 2)).noteWrite c.b x.2 va pa, .done [.p c.resP true] 16)

/-- FGET at its future. -/
def State.fgetAt (w : CWord) (c : Ctx) (x : Nat × Nat) (s : State) (pa : Nat) : State × Fate :=
  let take := w.modF 0 1 == 1
  let va := c.objAddr x.2
  if s.futureState pa = 1 then
    ((s.takeFuture pa take).1.noteTake c x.2 va pa take, .done (wrV w.d.toNat 2 (s.takeFuture pa take).2) 16)
  else ((s.noteTake c x.2 va pa take).addWaiter (pa + 10)).park c x.2 none { kind := .fget, va, pa }

/-- FTRY at its future. -/
def State.ftryAt (w : CWord) (c : Ctx) (x : Nat × Nat) (s : State) (pa : Nat) : State × Fate :=
  let take := w.modF 0 1 == 1
  let va := c.objAddr x.2
  if s.futureState pa = 1 then
    ((s.takeFuture pa take).1.noteTake c x.2 va pa take, .done (.p c.resP true :: wrV w.d.toNat 2 (s.takeFuture pa take).2) 16)
  else (s.noteTake c x.2 va pa take, .done [.p c.resP false] 16)

theorem keeps_fputAt (w : CWord) (c : Ctx) (x : Nat × Nat) (s : State) (pa : Nat) : Keeps s (State.fputAt w c x s pa).1 := by
  unfold State.fputAt
  dsimp only
  split
  · exact keeps_noteWrite _ _ _ _ _ _ _
  · exact (keeps_fillFuture _ _ _).trans (keeps_noteWrite _ _ _ _ _ _ _)

theorem keeps_fgetAt (w : CWord) (c : Ctx) (x : Nat × Nat) (s : State) (pa : Nat) : Keeps s (State.fgetAt w c x s pa).1 := by
  unfold State.fgetAt
  dsimp only
  split
  · exact (keeps_takeFuture _ _ _).trans (keeps_noteTake _ _ _ _ _ _)
  · exact ((keeps_noteTake _ _ _ _ _ _).trans (keeps_addWaiter _ _)).trans (keeps_park _ _ _ _ _)

theorem keeps_ftryAt (w : CWord) (c : Ctx) (x : Nat × Nat) (s : State) (pa : Nat) : Keeps s (State.ftryAt w c x s pa).1 := by
  unfold State.ftryAt
  dsimp only
  split
  · exact (keeps_takeFuture _ _ _).trans (keeps_noteTake _ _ _ _ _ _)
  · exact keeps_noteTake _ _ _ _ _ _

/-- The result predicate's number as the word holds it. -/
theorem Ctx.resP_eq (c : Ctx) : c.resP = c.w.imm.toNat % 8 := by simp [Ctx.resP, bits_eq_div]

/-- Settles O33: each thread reaches its future, or has the fate of the check that fails, and acts by the future's state. -/
theorem futures : Obligations.Futures := by
  refine ⟨fun w => ?_, fun s pa v h => ⟨State.fillFuture_value h pa v, State.fillFuture_full h pa v,
    State.fillFuture_generation h pa v, rfl, State.takeFuture_empty h pa, State.takeFuture_generation h pa, rfl,
    State.valPa_addWaiter h pa⟩⟩
  intro take kind p v rp rg noted taken full parked
  refine ⟨?fput, ?fget, ?ftry⟩
  case fput =>
    have h := does_each_of_object (i := .fput w) (r := fun c s x => s.reachFuture c x.2 (c.objAddr x.2) .atomic) (h := State.fputAt w)
      (ready := fun c s => s.mustDrain c true (w.modF 1 3) = false) (fun _ => rfl) (fun c s x => ?put) (fun _ _ h => h)
      (fun c s x => keeps_reachFuture _ _ _ _ _) (keeps_fputAt w)
    · refine h.congr fun c hw _ => ⟨rfl, fun _ h => h, ?_, ?_⟩
      · simp only [State.fputAt, apply_ite Prod.fst]
        rfl
      · simp only [State.fputAt, apply_ite Prod.snd, Ctx.resP_eq, hw, ← beq_iff_eq (a := w.modF 0 1)]
        rfl
    case put =>
      split <;> (rename_i e; rw [e]; rfl)
  case fget =>
    have h := does_each_of_object (i := .fget w) (ready := Ctx.always)
      (r := fun c s x => s.reachFuture c x.2 (c.objAddr x.2) (if (c.w.modF 0 1 == 1) = true then .atomic else .read))
      (h := fun c => State.fgetAt c.w c) (fun _ => rfl) (fun c s x => ?get) (fun c s _ => mustDrain_of_unreleased c s 0)
      (fun c s x => keeps_reachFuture _ _ _ _ _) (fun c => keeps_fgetAt c.w c)
    · refine h.congr fun c hw _ => ⟨rfl, fun _ h => h, ?_, ?_⟩
      · simp only [State.fgetAt, apply_ite Prod.fst, hw]
        rfl
      · simp only [State.fgetAt, apply_ite Prod.snd, hw]
        rfl
    case get =>
      unfold State.fgetAct
      dsimp only [addrOf, Option.map, Option.getD]
      split <;> (rename_i e; rw [e])
      · rfl
      · simp only [onObject, State.fgetAt, enters, Option.all_none, Option.isNone_none, if_true]
  case ftry =>
    have h := does_each_of_object (i := .ftry w) (r := rg)
      (h := State.ftryAt w) (ready := Ctx.always) (fun _ => rfl) (fun c s x => ?tr) (fun c s _ => mustDrain_of_unreleased c s 0)
      (fun c s x => keeps_reachFuture _ _ _ _ _) (keeps_ftryAt w)
    · refine h.congr fun c hw _ => ⟨rfl, fun _ h => h, ?_, ?_⟩
      · simp only [State.ftryAt, apply_ite Prod.fst]
        rfl
      · simp only [State.ftryAt, apply_ite Prod.snd, Ctx.resP_eq, hw]
        rfl
    case tr =>
      dsimp only
      split <;> (rename_i e; rw [show rg c s x = _ from e])
      · rfl
      · simp only [onObject, State.ftryAt]
        split <;> simp_all

end Sys2Proof.Machine
end

section
/-! SUPPORT. Mailboxes (R187, R342 to R344); O34. -/

namespace Sys2Proof.Machine

/-! ## What a message instruction keeps -/

theorem keeps_reachMailbox (s : State) (c : Ctx) (tid : Nat) (va : DWord) (k : Kind) (kind : Nat) (recv : Bool) :
    Keeps s (s.reachMailbox c tid va k kind recv).1 := by
  unfold State.reachMailbox
  split <;> rename_i e <;> have hl := congrArg Prod.fst e ▸ keeps_locate _ _ _ _ _ _ _ _
  · exact hl
  split
  · exact hl.trans (keeps_uncorrected _ _ _ _ _ _)
  · split
    · exact hl
    · exact hl.trans (keeps_startWalk _ _ _ _ _)
  · exact hl
  · split <;> rename_i e <;> have hi := hl.trans (congrArg Prod.fst e ▸ keeps_letIn _ _ _ _ _ _ _)
    · exact hi
    · split <;> exact hi

theorem keeps_mbsendAct (c : Ctx) (s : State) (x : Nat × Nat) : Keeps s (s.mbsendAct c x).1 := by
  unfold State.mbsendAct
  dsimp only
  split
  · exact .refl s
  split <;> rename_i e <;> have hm := congrArg Prod.fst e ▸ keeps_reachMailbox _ _ _ _ _ _ _
  · exact hm
  split
  · exact hm.trans (keeps_noteWrite _ _ _ _ _ _ _)
  split
  · exact hm
  split <;> rename_i e <;> have hr := hm.trans (congrArg Prod.fst e ▸ keeps_reach _ _ _ _ _ _ _ _)
  · exact hr
  split <;> rename_i e <;> have hs := hr.trans (congrArg Prod.fst e ▸ keeps_scratchConsume _ _ _ _ _ _)
  · exact hs
  · exact hs.trans (.after (keeps_wake _ _) (.after (keeps_noteWrite _ _ _ _ _ _ _)
      ((keeps_writePa _ _ _).trans (keeps_putPa _ _ _ _))))

theorem keeps_mbrecvAct (c : Ctx) (s : State) (x : Nat × Nat) : Keeps s (State.mbrecvAct none c s x).1 := by
  unfold State.mbrecvAct
  dsimp only
  split
  · exact .refl s
  split <;> rename_i e <;> have hm := congrArg Prod.fst e ▸ keeps_reachMailbox _ _ _ _ _ _ _
  · exact hm
  split
  · split
    · exact hm.trans (keeps_noteWrite _ _ _ _ _ _ _)
    · exact .after (keeps_park _ _ _ _ _) (.after (keeps_addWaiter _ _) (hm.trans (keeps_noteWrite _ _ _ _ _ _ _)))
  · split <;> rename_i e <;> have hr := hm.trans (congrArg Prod.fst e ▸ keeps_reach _ _ _ _ _ _ _ _)
    · exact hr
    · exact hr.trans (.after (keeps_noteWrite _ _ _ _ _ _ _) (.after (keeps_putPa _ _ _ _) (keeps_scratchWrite _ _ _ _)))

/-! ## What a message instruction does at its mailbox -/

section
variable {c : Ctx} {s u v : State} {x : Nat × Nat} {pa spa : Nat}

section
variable (hf : c.messageFault (c.objAddr x.2) (c.msgOff x.2) false = none)
  (hm : s.reachMailbox c x.2 (c.objAddr x.2) .atomic 0 false = (u, .inr pa))
include hf hm

theorem mbsendAct_of_full (h : u.mbCap pa ≤ u.mbUsed pa) : s.mbsendAct c x =
    (u.noteWrite c.b x.2 (c.objAddr x.2) pa, .done [.p c.resP false] 64) := by
  simp only [State.mbsendAct, hf, hm, if_pos h]

theorem mbsendAct_of_room (h : u.mbUsed pa < u.mbCap pa) (hdrain : c.w.modF 1 3 < 3 ∨ c.b.acks = [])
    (hslot : u.reach c.b x.2 (BitVec.ofNat 64 (slotOf (c.objAddr x.2).toNat (u.mbTail pa) (u.mbCap pa))) 64 64 .write true =
      (v, .pa spa))
    (hbad : v.health.bad = []) (hsoft : v.health.soft = []) :
    let t := v.writePa spa (c.b.scratch.read (c.msgOff x.2) 64)
    s.mbsendAct c x = ((((t.putPa (pa + 8) 8 (t.mbTail pa + 1)).noteWrite c.b x.2 (c.objAddr x.2) pa [] [spa / 128]).wake
      fun q => q.kind == .mbrecv && q.pa == pa), .done [.p c.resP true] 64) := by
  have hd : (decide (3 ≤ c.w.modF 1 3) && !c.b.acks.isEmpty) = false := by
    rw [Bool.and_eq_false_iff, decide_eq_false_iff_not, not_le]
    exact hdrain.imp_right fun e => by rw [e]; rfl
  have hread : v.scratchConsume c.b c.iss.blk (c.msgOff x.2) 64 (BitVec.ofNat 64 (c.msgOff x.2)) = (v, none) :=
    State.scratchConsume_of_calm (by simp [State.scratchBad, hbad]) (by simp [hsoft])
  simp only [State.mbsendAct, hf, hm, if_neg (not_le.mpr h), hd, hslot, hread]
  rfl

end

section
variable (hf : c.messageFault (c.objAddr x.2) (c.msgOff x.2) true = none)
  (hm : s.reachMailbox c x.2 (c.objAddr x.2) .atomic 0 true = (u, .inr pa))
include hf hm

theorem mbrecvAct_of_empty_try (h : u.mbUsed pa = 0) (ht : c.w.modF 0 1 = 1) : State.mbrecvAct none c s x =
    (u.noteWrite c.b x.2 (c.objAddr x.2) pa, .done [.p c.resP false] 64) := by
  simp only [State.mbrecvAct, addrOf, Option.map_none, Option.getD_none, hf, hm, if_pos h, if_pos ht]
  rfl

theorem mbrecvAct_of_empty_wait (h : u.mbUsed pa = 0) (ht : c.w.modF 0 1 = 0) : State.mbrecvAct none c s x =
    ((u.noteWrite c.b x.2 (c.objAddr x.2) pa).addWaiter (pa + 0x16)).park c x.2 none
      { kind := .mbrecv, va := c.objAddr x.2, pa, arg := BitVec.ofNat 64 (c.msgOff x.2) } := by
  simp only [State.mbrecvAct, addrOf, Option.map_none, Option.getD_none, hf, hm, if_pos h, ht, zero_ne_one, if_false,
    Option.isNone_none, enters, Option.all_none, if_true]

theorem mbrecvAct_of_message (h : u.mbUsed pa ≠ 0)
    (hslot : u.reach c.b x.2 (BitVec.ofNat 64 (slotOf (c.objAddr x.2).toNat (u.mbHead pa) (u.mbCap pa))) 64 64 .read true =
      (v, .pa spa)) :
    let got := v.scratchWrite c.iss.blk (c.msgOff x.2) (v.readPa spa 64)
    State.mbrecvAct none c s x =
      ((got.putPa pa 8 (got.mbHead pa + 1)).noteWrite c.b x.2 (c.objAddr x.2) pa, .done [.p c.resP true] 64) := by
  simp only [State.mbrecvAct, addrOf, Option.map_none, Option.getD_none, hf, hm, if_neg h, hslot]

end
end

/-- Settles O34: each thread's action is its turn, and with its mailbox reached it sends, takes, answers false or parks. -/
theorem mailboxes : Obligations.Mailboxes := by
  refine fun w => ⟨does_each_of_plainMem (fun _ => rfl) fun c s x => keeps_mbsendAct c s x,
    does_each_of_plainMem (fun _ => rfl) fun c s x => keeps_mbrecvAct c s x, fun c s u x pa hw => ?_⟩
  subst hw
  intro va off p slot
  have hp : c.resP = p := c.resP_eq
  refine ⟨fun hf hm => ⟨fun h => ?_, fun v spa h hd hslot hbad hsoft => ?_⟩,
    fun hf hm => ⟨fun h ht => ?_, fun h ht => ?_, fun v spa h hslot => ?_⟩⟩
  · rw [← hp]
    exact mbsendAct_of_full hf hm h
  · rw [← hp]
    exact mbsendAct_of_room hf hm h hd hslot hbad hsoft
  · rw [← hp]
    exact mbrecvAct_of_empty_try hf hm h ht
  · exact mbrecvAct_of_empty_wait hf hm h ht
  · intro got
    rw [← hp]
    exact mbrecvAct_of_message hf hm h hslot

end Sys2Proof.Machine
end

section
/-! SUPPORT. Barrier records (R189, R191); O36. -/

namespace Sys2Proof.Machine

theorem keeps_reachRecord (s : State) (c : Ctx) (tid : Nat) (va : DWord) (k : Kind) : Keeps s (s.reachRecord c tid va k).1 :=
  keeps_reach _ _ _ _ _ _ _ _

theorem keeps_checkBarrier (s : State) (pa : Nat) : Keeps s (s.checkBarrier pa) := by
  unfold State.checkBarrier
  split
  · exact .after (keeps_wake _ _) ((keeps_putPa _ _ _ _).trans (keeps_putPa _ _ _ _))
  · exact .refl s

/-- BARI at its record. -/
def State.bariAt (w : CWord) (c : Ctx) (x : Nat × Nat) (s : State) (pa : Nat) : State × Fate :=
  let n := if w.bsel = 2#2 then w.imm.toNat else c.rb.ureg w.b.toNat % 2 ^ 32
  (((s.putPa (pa + 4) 4 n).putPa (pa + 8) 4 0).noteWrite c.b x.2 c.record pa, .done [] 16)

/-- BARA at its record. -/
def State.baraAt (w : CWord) (c : Ctx) (x : Nat × Nat) (s : State) (pa : Nat) : State × Fate :=
  (((s.putPa (pa + 8) 4 (min (s.valPa (pa + 8) 4 + c.countB x.2) (2 ^ 32 - 1))).checkBarrier pa).noteWrite c.b x.2 c.record pa,
    .done (wrV w.d.toNat 1 (s.valPa pa 4)) 16)

/-- BARW at its record. -/
def State.barwAt (c : Ctx) (x : Nat × Nat) (s : State) (pa : Nat) : State × Fate :=
  if s.valPa pa 4 ≠ c.countB x.2 then (s.modBlock c.iss.blk fun b => { b with epoch := b.epoch + 1 }, .done [] 16)
  else s.park c x.2 none { kind := .barw, va := c.record, pa, val := BitVec.ofNat 64 (c.countB x.2) }

theorem keeps_barwAt (c : Ctx) (x : Nat × Nat) (s : State) (pa : Nat) : Keeps s (State.barwAt c x s pa).1 := by
  unfold State.barwAt
  split
  · exact keeps_modBlock fun _ _ => rfl
  · exact keeps_park _ _ _ _ _

/-- Settles O36: each thread reaches the record, or has the fate of the check that fails, and acts on it; a record by whether
its arrivals have reached its count. -/
theorem barrierRecords : Obligations.BarrierRecords := by
  refine ⟨fun w => ?_, fun s pa h => ⟨State.checkBarrier_met h, State.checkBarrier_unmet, fun a => State.checkBarrier_get h⟩⟩
  intro r a q count n at' wait
  refine ⟨?bari, ?bara, ?barw⟩
  case bari =>
    have h := does_each_of_access (i := .bari w) (ready := Ctx.always) (r := fun c s x => s.reachRecord c x.2 c.record .atomic)
      (h := State.bariAt w) (fun _ => rfl) (fun c s x => ?reach) (fun c s _ => mustDrain_of_unreleased c s 0)
      (fun _ _ _ => keeps_reachRecord _ _ _ _ _) fun _ _ _ _ =>
        .after (keeps_noteWrite _ _ _ _ _ _ _) ((keeps_putPa _ _ _ _).trans (keeps_putPa _ _ _ _))
    · refine h.congr fun c hw _ => ?_
      subst hw
      refine ⟨rfl, fun _ h => h, ?_, rfl⟩
      simp only [State.bariAt]
      rfl
    case reach => split <;> (rename_i e; rw [e]; rfl)
  case bara =>
    have h := does_each_of_access (i := .bara w) (ready := fun c s => s.mustDrain c true (w.modF 0 3) = false)
      (r := fun c s x => s.reachRecord c x.2 c.record .atomic)
      (h := State.baraAt w) (fun _ => rfl) (fun c s x => ?reach) (fun _ _ h => h)
      (fun _ _ _ => keeps_reachRecord _ _ _ _ _) fun _ _ _ _ =>
        .after (keeps_noteWrite _ _ _ _ _ _ _) ((keeps_putPa _ _ _ _).trans (keeps_checkBarrier _ _))
    · refine h.congr fun c hw _ => ?_
      subst hw
      refine ⟨rfl, fun _ h => h, ?_, ?_⟩
      · simp only [State.baraAt]
        rfl
      · simp only [State.baraAt]
        rfl
    case reach => split <;> (rename_i e; rw [e]; rfl)
  case barw =>
    have h := does_each_of_access (i := .barw w) (ready := Ctx.always) (r := fun c s x => s.reachRecord c x.2 c.record .read)
      (h := State.barwAt) (fun _ => rfl) (fun c s x => ?reach) (fun c s _ => mustDrain_of_unreleased c s 0)
      (fun _ _ _ => keeps_reachRecord _ _ _ _ _) keeps_barwAt
    · refine h.congr fun c hw _ => ?_
      subst hw
      refine ⟨rfl, fun _ h => h, ?_, ?_⟩
      · simp only [State.barwAt, apply_ite Prod.fst]
        rfl
      · simp only [State.barwAt, apply_ite Prod.snd]
        rfl
    case reach =>
      unfold State.barwAct
      dsimp only [addrOf, Option.map, Option.getD]
      split <;> (rename_i e; rw [e]; rfl)

end Sys2Proof.Machine
end

section
/-! SUPPORT. Copies accepted, and AQFENCE (R178, R181, R190); O37. -/

namespace Sys2Proof.Machine

/-! ## ACOPY (R178, R190) -/

/-- The addition of a copy's beats to the record that it names. -/
def State.addBeats (s : State) (c : Ctx) (tid : Nat) (link : DWord) (beats : Nat) : State × Option Fate :=
  if link = 0#64 then (s, none) else
    match s.reach c.b tid link 16 16 .atomic with
    | (s, .no f) => (s, some f)
    | (s, .pa pa) => if 2 ^ 32 ≤ s.valPa (pa + 12) 4 + beats then (s, some .stay)
      else (s.putPa (pa + 12) 4 (s.valPa (pa + 12) 4 + beats), none)

/-- A copy is taken, under a promise of its own. -/
def State.takeCopy (s : State) (c : Ctx) (x : Nat × Nat) : State × Fate :=
  let th := c.b.th x.2
  let r (n : Nat) : DWord := BitVec.ofNat 64 (th.reg n 2)
  let len := th.reg c.w.b.toNat 1
  let t := s.clock.time + Config.promise s.choices
  if len = 0 then (s, .done (wrV c.w.d.toNat 2 s.clock.time) 0)
  else
    let k : Copy := { id := s.eng.nextCopy, blk := c.iss.blk, task := c.b.task, env := c.b.cfg.envelope, tid := x.2, pc := c.pc
                      queue := c.w.modF 0 3, unit := c.b.cluster, kind := c.w.modF 3 2
                      src := r c.w.a.toNat, dst := r (c.w.a.toNat + 2), len, beats := (len + 63) / 64
                      record := r (c.w.b.toNat + 2), promise := some t
                      after := ((th.fences.filter fun f => f.1.testBit (c.w.modF 0 3)).map (·.2)).flatten }
    ({ s with eng := { s.eng with copies := s.eng.copies ++ [k], nextCopy := s.eng.nextCopy + 1 }, choices := s.choices + 1 },
      .done (wrV c.w.d.toNat 2 t) len)

theorem keeps_addBeats (s : State) (c : Ctx) (tid : Nat) (link : DWord) (beats : Nat) : Keeps s (s.addBeats c tid link beats).1 := by
  unfold State.addBeats
  split
  · exact .refl s
  split <;> rename_i e <;> have hr := congrArg Prod.fst e ▸ keeps_reach _ _ _ _ _ _ _ _
  · exact hr
  · split
    · exact hr
    · exact hr.trans (keeps_putPa _ _ _ _)

theorem keeps_takeCopy (s : State) (c : Ctx) (x : Nat × Nat) : Keeps s (s.takeCopy c x).1 := by
  unfold State.takeCopy
  dsimp only
  split
  · exact .refl s
  · exact .of_blocks rfl

theorem keeps_ite {s : State} {p : Prop} [Decidable p] {a b : State × Fate} (ha : Keeps s a.1) (hb : Keeps s b.1) :
    Keeps s (if p then a else b).1 := by
  split
  · exact ha
  · exact hb

section
variable (c : Ctx) (s : State) (x : Nat × Nat)

/-- An ACOPY whose operands pass the checks. -/
def State.acopyPast : State × Fate :=
  match s.addBeats c x.2 (BitVec.ofNat 64 ((c.b.th x.2).reg (c.w.b.toNat + 2) 2)) (((c.b.th x.2).reg c.w.b.toNat 1 + 63) / 64) with
  | (s, some f) => (s, f)
  | (s, none) => s.takeCopy c x

theorem keeps_acopyPast : Keeps s (s.acopyPast c x).1 := by
  unfold State.acopyPast
  split <;> rename_i e <;> have hb := congrArg Prod.fst e ▸ keeps_addBeats _ _ _ _ _
  · exact hb
  · exact hb.trans (keeps_takeCopy _ _ _)

theorem keeps_acopyAct : Keeps s (s.acopyAct c x).1 := by
  iterate 8 refine keeps_ite (.refl s) ?_
  exact keeps_acopyPast c s x

end

section
variable {c : Ctx} {s u : State} {x : Nat × Nat} {pa : Nat}

theorem acopyPast_of_unlinked (h : BitVec.ofNat 64 ((c.b.th x.2).reg (c.w.b.toNat + 2) 2) = 0#64) :
    s.acopyPast c x = s.takeCopy c x := by
  rw [State.acopyPast, State.addBeats, if_pos h]

theorem acopyPast_of_linked (h : BitVec.ofNat 64 ((c.b.th x.2).reg (c.w.b.toNat + 2) 2) ≠ 0#64)
    (hr : s.reach c.b x.2 (BitVec.ofNat 64 ((c.b.th x.2).reg (c.w.b.toNat + 2) 2)) 16 16 .atomic = (u, .pa pa))
    (hfit : u.valPa (pa + 12) 4 + ((c.b.th x.2).reg c.w.b.toNat 1 + 63) / 64 < 2 ^ 32) : s.acopyPast c x =
    (u.putPa (pa + 12) 4 (u.valPa (pa + 12) 4 + ((c.b.th x.2).reg c.w.b.toNat 1 + 63) / 64)).takeCopy c x := by
  rw [State.acopyPast, State.addBeats, if_neg h, hr]
  simp only [if_neg (not_le.mpr hfit)]

end

/-! ## AQFENCE (R181) -/

/-- Threads one after another that leave the state as it is. -/
theorem State.eachOf_of_fixed {s : State} {f : State → Nat × Nat → State × Fate} {k : Nat × Nat → Fate}
    (hf : ∀ x, f s x = (s, k x)) (hk : ∀ x, k x ≠ .again) (xs : List (Nat × Nat)) :
    s.eachOf xs f = (s, xs.map fun x => (x.2, k x)) := by
  suffices ∀ acc : List (Nat × Fate), xs.foldl (fun (a : State × List (Nat × Fate)) x =>
      let (t, fate) := f a.1 x
      (if fate = .again then a.1.unmade t else t, a.2 ++ [(x.2, fate)])) (s, acc) = (s, acc ++ xs.map fun x => (x.2, k x)) from
    (this []).trans (by rw [List.nil_append])
  induction xs with
  | nil => simp
  | cons x xs ih => intro acc; simp [hf, if_neg (hk x), ih]

/-- Settles O37: each thread's action is its turn, and with legal operands its copy is taken; a fence by the copies that the
thread has on the masked queues. -/
theorem copiesAccepted : Obligations.CopiesAccepted := by
  refine ⟨fun w => ⟨does_each_of_plainMem (fun _ => rfl) fun c s x => keeps_acopyAct c s x, fun c s x hw => ?copy⟩,
    fun w => ?fence⟩
  case copy =>
    subst hw
    intro th r src dst len link kind inside hz hsrc hdst hacks copy accepted
    have hsrc2 (h : kind = 2) : inside src := by rwa [if_pos h] at hsrc
    have hdst1 (h : kind = 1) : inside dst := by rwa [if_pos h] at hdst
    have h1 : ¬ (th.reg (c.w.b.toNat + 1) 1 ≠ 0 ∨ (kind = 2 ∧ (src.toNat / 2 ^ 32 != 0) = true) ∨
        (kind = 1 ∧ (dst.toNat / 2 ^ 32 != 0) = true)) := by
      rintro (h | ⟨hk, h⟩ | ⟨hk, h⟩)
      · exact h hz
      · exact bne_iff_ne.mp h (Nat.div_eq_of_lt (hsrc2 hk).1)
      · exact bne_iff_ne.mp h (Nat.div_eq_of_lt (hdst1 hk).1)
    have h2 : ¬ (kind ≠ 2 ∧ (!canonical src) = true) := fun ⟨hk, h⟩ => by
      rw [if_neg hk] at hsrc
      rw [canonical_of_lt hsrc] at h
      exact Bool.false_ne_true h
    have h3 : ¬ (kind ≠ 1 ∧ (!canonical dst) = true) := fun ⟨hk, h⟩ => by
      rw [if_neg hk] at hdst
      rw [canonical_of_lt hdst] at h
      exact Bool.false_ne_true h
    have h6 : ¬ (kind = 2 ∧ decide (c.b.cfg.scratch < src.toNat + len) = true) := fun ⟨hk, h⟩ =>
      not_lt.mpr (hsrc2 hk).2 (of_decide_eq_true h)
    have h7 : ¬ (kind = 1 ∧ decide (c.b.cfg.scratch < dst.toNat + len) = true) := fun ⟨hk, h⟩ =>
      not_lt.mpr (hdst1 hk).2 (of_decide_eq_true h)
    have h8 : ¬ (!c.b.acks.isEmpty && ((kind != 2 && s.wideSpan c.b src len) || (kind != 1 && s.wideSpan c.b dst len))) = true := by
      rw [hacks]
      exact Bool.false_ne_true
    have past (h4 : ¬ (link ≠ 0#64 ∧ (!canonical link) = true)) (h5 : ¬ (link ≠ 0#64 ∧ link.toNat % 16 ≠ 0)) :
        s.acopyAct c x = s.acopyPast c x := by
      unfold State.acopyAct
      dsimp only
      rw [if_neg h1, if_neg h2, if_neg h3, if_neg h4, if_neg h5, if_neg h6, if_neg h7, if_neg h8]
      rfl
    refine ⟨fun hl hlen => ?_, fun hl hlen => ?_, fun u pa hl hlow hal hr hfit hlen => ?_⟩
    · rw [past (fun h => h.1 hl) (fun h => h.1 hl), acopyPast_of_unlinked hl]
      exact if_pos hlen
    · rw [past (fun h => h.1 hl) (fun h => h.1 hl), acopyPast_of_unlinked hl]
      exact if_neg hlen
    · have h4 : ¬ (link ≠ 0#64 ∧ (!canonical link) = true) := fun h => by
        rw [canonical_of_lt hlow] at h
        exact Bool.false_ne_true h.2
      rw [past h4 (fun h => h.2 hal), acopyPast_of_linked hl hr hfit]
      exact if_neg hlen
  case fence =>
    intro mask own
    have hmask : bits w.imm 0 8 = mask := by simp [bits_eq_div, mask]
    refine ⟨does_of_runIssue (fun _ => rfl) (fun s iss b h hwait => ?_) (fun s iss b h _ => ⟨b, h.found, fun _ k => k⟩),
      does_of_runIssue (fun _ => rfl) (fun s iss b h horder => ?_) (fun s iss b h _ => ?_)⟩
    · have hwait : w.modF 0 1 = 1 := hwait
      simp only [hmask, if_pos hwait, List.isEmpty_iff]
      exact State.eachOf_of_fixed (fun _ => rfl) (fun x => by split <;> exact Fate.noConfusion) _
    · have horder : w.modF 0 1 = 0 := horder
      simp only [hmask, horder, List.isEmpty_iff]
      refine Eq.trans (congrArg (fun f => State.eachOf _ f s) (funext₂ fun s x => ?_))
        (State.eachOf_of_fate (k := fun _ => .done) ((h.nodup_ths.filter _).filter _) (fun _ => Fate.noConfusion) s)
      rw [apply_ite (fun t : State => (t, Fate.done))]
      rfl
    · refine (Keeps.foldl (fun s x => ?_) _ _).block h.found
      split
      · exact .refl s
      · exact keeps_modTh _ _ _ _

end Sys2Proof.Machine
end

section
/-! SUPPORT. The fetch unit (R182, R183); O38. -/

namespace Sys2Proof.Machine

/-! ## What a read through the fetch unit keeps -/

theorem keeps_locateSpan (s : State) (b : Block) (tid : Nat) (k : Kind) (size align : Nat) (ps : List (DWord × Nat)) :
    Keeps s (s.locateSpan b tid k size align ps).1 := by
  induction ps generalizing s align with
  | nil => exact .refl s
  | cons p ps ih =>
    have hp : Keeps s (if k = .write then s.placeFor b tid p.1 p.2 size align else s.locate b tid p.1 size align k).1 := by
      split
      · exact keeps_placeFor _ _ _ _ _ _ _
      · exact keeps_locate _ _ _ _ _ _ _ _
    unfold State.locateSpan
    split <;> rename_i e <;> have hr := congrArg Prod.fst e ▸ hp
    · exact hr
    · split <;> rename_i e <;> exact hr.trans (congrArg Prod.fst e ▸ ih _ _)

theorem keeps_unitRead (s : State) (b : Block) (tid : Nat) (va : DWord) (n align : Nat) :
    Keeps s (s.unitRead b tid va n align).1 := by
  unfold State.unitRead
  split <;> rename_i e <;> have hl := congrArg Prod.fst e ▸ keeps_locateSpan _ _ _ _ _ _ _
  · exact hl
  · refine List.foldlRecOn (motive := fun a : State × (Fate ⊕ List Byte) => Keeps s a.1) _ _ hl fun a ha p _ => ?_
    split
    · exact ha
    · split <;> rename_i e <;> have hc := ha.trans (congrArg Prod.fst e ▸ keeps_consume _ _ _ _ _ _ _)
      · exact hc
      · exact hc.trans (keeps_staleRead _ _ _ _ _ _ _)

theorem keeps_fetchAct (c : Ctx) (s : State) (x : Nat × Nat) : Keeps s (s.fetchAct c x).1 := by
  unfold State.fetchAct
  dsimp only
  split <;> rename_i e <;> have hd := congrArg Prod.fst e ▸ keeps_unitRead _ _ _ _ _ _
  · exact hd
  split
  · exact hd
  refine keeps_ite hd (keeps_ite hd (keeps_ite hd ?_))
  split <;> rename_i e <;> have he := hd.trans (congrArg Prod.fst e ▸ keeps_unitRead _ _ _ _ _ _)
  · exact he
  split
  · split <;> rename_i e <;> exact he.trans (congrArg Prod.fst e ▸ keeps_unitRead _ _ _ _ _ _)
  · split
    · split <;> rename_i e <;> exact he.trans (congrArg Prod.fst e ▸ keeps_unitRead _ _ _ _ _ _)
    · exact he

/-- Settles O38: each thread's action is its turn; with its descriptor read it goes by the descriptor, the edge, and the
element's place. -/
theorem fetches : Obligations.Fetches := by
  refine fun w => ⟨does_each_of_plainMem (fun _ => rfl) fun c s x => keeps_fetchAct c s x, fun c s u x bs hw => ?_⟩
  subst hw
  intro handle px py raw hread
  have hread : s.unitRead c.b x.2 (BitVec.ofNat 64 (c.rb.ureg c.w.a.toNat)) 64 64 = (u, .inr bs) := hread
  refine ⟨fun hnone => ?_, fun d t hd ht hraw => ?_⟩
  · simp only [State.fetchAct, hread, hnone]
    rfl
  intro out ex ey
  have hwide : ((c.w.ty == .b32 || c.w.ty == .b64) && decide (c.w.ty.bits < (if d.ty.isNone then 16 else d.bits))) = false := by
    rw [ht]
    exact Bool.and_eq_false_imp.mpr fun h => decide_eq_false (not_lt.mpr (hraw h))
  refine ⟨fun ho he => ?_, fun ho he => ?_, fun v eb hin hplain hev => ?_⟩
  · have ho : decide (d.width ≤ (c.b.th x.2).reg c.w.b.toNat 1 ∨ d.height ≤ (c.b.th x.2).reg (c.w.b.toNat + 1) 1) = true :=
      decide_eq_true ho
    simp only [State.fetchAct, hread, hd, hwide, ho, he]
    rfl
  · have ho : decide (d.width ≤ (c.b.th x.2).reg c.w.b.toNat 1 ∨ d.height ≤ (c.b.th x.2).reg (c.w.b.toNat + 1) 1) = true :=
      decide_eq_true ho
    simp only [State.fetchAct, hread, hd, hwide, ho, he]
    rfl
  · have hedge (k : Nat) (hk : 1 ≠ k) : (decide (d.width ≤ (c.b.th x.2).reg c.w.b.toNat 1 ∨
        d.height ≤ (c.b.th x.2).reg (c.w.b.toNat + 1) 1) && d.edge == k) = false := by
      rw [Bool.and_eq_false_iff, decide_eq_false_iff_not, beq_eq_false_iff_ne]
      exact hin.imp_right fun (h : d.edge = 1) => by rwa [h]
    have hscale : ((unscaled t).isSome && !(c.w.ty == .b32 || c.w.ty == .b64)) = false := by
      rw [Bool.and_eq_false_iff, Bool.not_eq_false', ← Bool.not_eq_true, Bool.not_eq_true, Option.isSome_eq_false_iff]
      exact hplain
    simp only [State.fetchAct, hread, hd, hwide, hedge 2 (by decide), hedge 0 (by decide)]
    rw [if_neg Bool.false_ne_true, if_neg Bool.false_ne_true, if_neg Bool.false_ne_true,
      show u.unitRead c.b x.2 _ _ 1 = _ from hev]
    simp only [ht, hscale]
    rfl

end Sys2Proof.Machine
end

section
/-! SUPPORT. What ends an issue starts no child behind its block (R188); O35. -/

namespace Sys2Proof.Machine

variable {n : Nat} {s t : State}

/-! ## Changes of blocks that start no child -/

theorem State.Childless.of_sameButDue (h : s.Childless n) (k : SameButDue s t) : t.Childless n := by
  intro b hb
  have hk := k.1 n
  rw [hb, Option.map_some] at hk
  obtain ⟨b0, hb0, hu⟩ := Option.map_eq_some_iff.mp hk.symm
  have hin : b0.inline = b.inline := by have e := congrArg Block.inline hu; exact e
  exact hin.symm.trans (h b0 hb0)

theorem State.childless_setBlock {b : Block} (hid : b.id = n) (hb : b.inline = none) : (s.modBlock n fun _ => b).Childless n := by
  intro x hx
  rw [State.block?_modBlock fun _ _ => hid] at hx
  obtain ⟨b0, -, rfl⟩ := Option.map_eq_some_iff.mp hx
  exact hb

theorem State.Childless.modBlock_any (h : s.Childless n) {m : Nat} {f : Block → Block} (hid : ∀ b, (f b).id = b.id)
    (hf : ∀ b, b.inline = none → (f b).inline = none) : (s.modBlock m f).Childless n := by
  by_cases hm : n = m
  · subst hm
    exact h.modBlock hid hf
  · intro b hb
    rw [State.block?_modBlock_other hm fun b hb => (hid b).trans hb] at hb
    exact h b hb

theorem State.Childless.charge (h : s.Childless n) (ci ct : Nat) : (s.charge n ci ct).Childless n := by
  cases hb : s.block? n with
  | none =>
    have : s.charge n ci ct = s := by simp [State.charge, hb]
    rwa [this]
  | some b =>
    refine State.Childless.of_sameButDue ?_ (s.charge_block n ci ct b hb)
    exact h.modBlock (fun _ => rfl) fun _ h => h

@[simp] theorem Block.inline_modTh (b : Block) (t : Nat) (f : Thread → Thread) : (b.modTh t f).inline = b.inline := by
  have e := congrArg Block.inline (b.modTh_frame t f); exact e

theorem Block.inline_foldl {α : Type} {f : Block → α → Block} (hf : ∀ b x, (f b x).inline = b.inline) (xs : List α)
    (b : Block) : (xs.foldl f b).inline = b.inline :=
  List.foldlRecOn (motive := fun c : Block => c.inline = b.inline) _ _ rfl fun c hc x _ => (hf c x).trans hc

theorem Block.inline_dissolve (b : Block) (p : Nat) (r : Bool) : (b.dissolve p r).inline = b.inline := by
  unfold Block.dissolve
  split
  · rfl
  · exact Block.inline_foldl (f := fun b t => b.modTh t _) (fun b t => b.inline_modTh t _) _ b

theorem Block.inline_endPlait (b : Block) (p : Nat) : (b.endPlait p).inline = b.inline := by
  unfold Block.endPlait
  split
  · rfl
  · split
    · rfl
    · exact Block.inline_dissolve _ _ _

theorem Block.inline_quit (b : Block) (ts : List Nat) : (b.quit ts).inline = b.inline := by
  unfold Block.quit
  exact (Block.inline_foldl (f := fun (b : Block) (p : Plait) => b.endPlait p.id) (fun b _ => b.inline_endPlait _) _ _).trans
    (Block.inline_foldl_modTh _ ts b)

theorem Block.inline_release (b : Block) (lens : Nat → Nat) (ts : List Nat) (f : Nat → Thread → Thread) :
    (b.release lens ts f).inline = b.inline := by
  unfold Block.release
  exact (Block.inline_foldl (f := fun b t => b.modTh t _) (fun b t => b.inline_modTh t _) ts _).trans (b.inline_quit ts)

/-- A block of a number without a child, its registers changed or not. -/
theorem Block.childless_regs {b : Block} (hid : b.id = n) (hin : b.inline = none) (p : Prop) [Decidable p] (r : BlockRegs) :
    (if p then { b with regs := r } else b : Block).id = n ∧ (if p then { b with regs := r } else b : Block).inline = none := by
  split <;> exact ⟨hid, hin⟩

/-! ## Releases (R99, R101, R191) -/

theorem State.Childless.releasePin (h : s.Childless n) (p : Nat) : (s.releasePin n p).Childless n := by
  unfold State.releasePin
  split
  · exact h
  · rename_i b hb
    dsimp only
    split
    · exact h
    · refine State.Childless.charge (State.childless_setBlock ?_ ?_) _ _
      · exact (Block.shape_id (Block.shape_release _ _ _ _)).trans (State.block?_id hb)
      · exact (Block.inline_release _ _ _ _).trans (h b hb)

theorem State.Childless.completeWidth (h : s.Childless n) : (s.completeWidth n).Childless n := by
  unfold State.completeWidth
  split
  · exact h
  · rename_i b hb
    dsimp only
    split
    · exact h
    · have hz := Block.childless_regs (State.block?_id hb) (h b hb)
      split
      · refine State.Childless.trapThreads (State.childless_setBlock ?_ ?_) _
        · exact (Block.shape_id (Block.shape_foldl_modTh (fun t => t) _ _ _)).trans (hz _ _).1
        · exact (Block.inline_foldl_modTh _ _ _).trans (hz _ _).2
      · refine State.Childless.charge (State.childless_setBlock ?_ ?_) _ _
        · exact (Block.shape_id (Block.shape_release _ _ _ _)).trans (hz _ _).1
        · exact (Block.inline_release _ _ _ _).trans (hz _ _).2

theorem State.Childless.completeBsync (h : s.Childless n) : (s.completeBsync n).Childless n := by
  unfold State.completeBsync
  split
  · exact h
  · rename_i b hb
    have hz := Block.childless_regs (State.block?_id hb) (h b hb)
    dsimp only
    split
    · exact h
    · split
      all_goals
        split
        · exact h
        · refine State.Childless.charge (State.childless_setBlock ?_ ?_) _ _
          · exact (Block.shape_id (Block.shape_release _ _ _ _)).trans (hz _ _).1
          · exact (Block.inline_release _ _ _ _).trans (hz _ _).2

theorem State.Childless.releases (h : s.Childless n) : (s.releases n).Childless n := by
  unfold State.releases
  split
  · exact h
  · exact .completeBsync (.completeWidth (.foldl (fun _ p h => h.releasePin p) _ h))

/-! ## Exits and retirement (R103, R104, R163) -/

theorem State.Childless.trigger (h : s.Childless n) (b : Block) : (s.trigger b).Childless n := by
  unfold State.trigger
  dsimp only
  split
  · split <;> exact h
  · exact h

theorem State.Childless.noteTrigger (h : s.Childless n) : (s.noteTrigger n).Childless n := by
  unfold State.noteTrigger
  split
  · exact h
  · split
    · exact h
    split
    · split
      · exact h
      · exact h.trigger _
    · split
      · exact h.trigger _
      · exact h.modBlock (fun _ => rfl) fun _ h => h

theorem State.Childless.noteEnd (h : s.Childless n) : (s.noteEnd n).Childless n := by
  unfold State.noteEnd
  split
  · exact h
  · dsimp only
    split
    · have hf : (s.modBlock n Block.finish).Childless n := h.modBlock (fun _ => rfl) fun _ _ => rfl
      split
      · refine State.Childless.mapBlocks (State.Childless.of_blocks hf rfl) rfl (fun b => ?_) fun b hb => ?_
        · split <;> rfl
        · split <;> exact hb
      · exact hf.of_blocks rfl
    · exact h

theorem State.Childless.exitThreads (h : s.Childless n) (ts : List Nat) : (s.exitThreads n ts).Childless n := by
  unfold State.exitThreads
  split
  · exact h
  · refine .noteEnd (.releases (.noteTrigger ?_))
    refine (State.Childless.foldl (fun s t h => h.unwait _) ts h).modBlock
      (fun b => Block.shape_id (Block.shape_foldl_modTh (fun t => t) _ _ b)) fun b hb => ?_
    exact (Block.inline_foldl_modTh _ _ b).trans hb

theorem State.Childless.retire (h : s.Childless n) (t : Nat) : (s.retire n t).Childless n := by
  refine State.Childless.exitThreads (h.modBlock (fun b => ?_) fun b hb => ?_) _
  · exact Block.modTh_id _ _ _
  · exact (b.inline_modTh _ _).trans hb

theorem State.Childless.writePlaces (h : s.Childless n) (ps : List (DWord × Nat × List Byte)) : (s.writePlaces ps).Childless n :=
  .foldl (fun _ _ h => .writePa (.of_blocks h (State.takeLines_blocks _ _ _)) _ _) _ h

theorem State.Childless.noteRecord (h : s.Childless n) (b : Block) (tid : Nat) (ps : List (DWord × Nat × List Byte)) :
    (s.noteRecord b tid ps).Childless n := by
  unfold State.noteRecord
  refine State.Childless.modBlock_any (.foldl (fun _ _ h => .of_blocks h (State.tellAt_blocks _ _ _)) _ h) (fun _ => rfl) fun _ h => h

theorem State.Childless.uncorrected (h : s.Childless n) (die pa task env c : Nat) : (s.uncorrected die pa task env c).Childless n := by
  unfold State.uncorrected
  split
  · exact h.of_blocks ((healthOnly_event _ _ _ _ _ _ _).trans (healthOnly_candidate _ _)).blocks
  · exact h

theorem State.Childless.retireThreads (ts : List (Nat × TrapInfo)) (h : s.Childless n) : (s.retireThreads n ts).Childless n := by
  induction ts generalizing s with
  | nil => exact h
  | cons x rest ih =>
    unfold State.retireThreads
    split
    · exact h
    split
    · exact ih (h.retire _)
    dsimp only
    split
    · exact ih (((h.writePlaces _).noteRecord _ _ _).retire _)
    · refine ih (.killContext (.retire ?_ _) _ _ _ _ _ _)
      split
      · exact h.uncorrected _ _ _ _ _
      · exact h
    · refine ih ((h.startWalk _ _ _ _).modBlock (fun b => Block.modTh_id _ _ _) fun b hb => ?_)
      exact (b.inline_modTh _ _).trans hb

/-- What a wait, an exit or a trap brings about starts no child. -/
theorem State.Childless.conclude {c : Ctx} (h : s.Childless c.iss.blk) (fs : List (Nat × Fate)) :
    (s.conclude c fs).Childless c.iss.blk := by
  unfold State.conclude
  dsimp only
  refine .haltThreads (.retireThreads _ (.exitThreads ?_ _)) _ _
  split
  · exact h.releases
  · exact h

end Sys2Proof.Machine
end

section
/-! SUPPORT. Tasks accepted and started, and the portions that they are given (R188, R318, R327, R330, R331); O35. -/

namespace Sys2Proof.Machine

/-! ## What an acceptance and a start keep -/

theorem keeps_writeTaskId (s : State) (die : Nat) (m : Msg) (id : Nat) : Keeps s (s.writeTaskId die m id) := by
  unfold State.writeTaskId
  split
  · rename_i e
    exact keeps_of_engineWrite e
  · exact .refl s

theorem keeps_report (s : State) (die env future task kind value : Nat) : Keeps s (s.report die env future task kind value) := by
  unfold State.report
  split
  · exact .refl s
  dsimp only
  split
  · exact keeps_event _ _ _ _ _ _ _
  split
  · split
    · exact keeps_event _ _ _ _ _ _ _
    · exact (keeps_takeLines _ _ _).trans (keeps_fillFuture _ _ _)
  · exact keeps_event _ _ _ _ _ _ _

theorem State.payPools_zero (s : State) (env : Nat) : s.payPools env 0 0 = s := if_pos ⟨rfl, rfl⟩

/-- A launch that fails without funds changes no block's shape. -/
theorem keeps_failLaunch (s : State) (die : Nat) (m : Msg) (id : Nat) (x : Refused) (hi : m.ifund = 0) (ht : m.tfund = 0) :
    Keeps s (s.failLaunch die m id x) := by
  unfold State.failLaunch
  rw [hi, ht, State.payPools_zero]
  dsimp only
  split
  · exact keeps_event _ _ _ _ _ _ _
  · rename_i r _
    have hfaults : Keeps s (if r.faults = 0 then s
        else match s.engineWrite (dieCore die) m.srcenv (BitVec.ofNat 64 r.faults) false
            (pageSplit (BitVec.ofNat 64 r.faults) x.f.bytes) with
          | (s', none) => s'
          | (_, some _) => s) := by
      split
      · exact .refl s
      · split
        · rename_i e
          exact keeps_of_engineWrite e
        · exact .refl s
    split
    · exact hfaults.trans (keeps_event _ _ _ _ _ _ _)
    · exact hfaults.trans (keeps_report _ _ _ _ _ _ _)

theorem keeps_storeTranslation (s : State) (t : Option (Translation × List Byte)) : Keeps s (s.storeTranslation t) := by
  unfold State.storeTranslation
  split <;> exact .of_blocks rfl

theorem keeps_accept_refused (s : State) (die : Nat) (m : Msg) (r : Refused) (p : Option (Nat × Nat)) (hi : m.ifund = 0)
    (ht : m.tfund = 0) : Keeps s (s.accept die m (.inr r) p).1 := by
  unfold State.accept
  dsimp only
  refine .after (keeps_failLaunch _ _ _ _ _ hi ht) (.trans (.of_blocks rfl : Keeps s s.newId.2) ?_)
  split
  · exact keeps_writeTaskId _ _ _ _
  · exact .refl _

theorem keeps_failTask (s : State) (t : Task) (hi : t.ifund = 0) (ht : t.tfund = 0) : Keeps s (s.failTask t) := by
  unfold State.failTask
  dsimp only
  rw [hi, ht, State.payPools_zero]
  exact .after (keeps_failLaunch _ _ _ _ _ rfl rfl) (.of_blocks rfl)

theorem keeps_registerTile (s : State) (t : Task) (tile pa : Nat) : Keeps s (s.registerTile t tile pa) := by
  unfold State.registerTile
  extract_lets env sched u
  have hu : u.blocks = s.blocks := by
    dsimp only [u]
    split <;> rfl
  clear_value u
  split
  · exact .of_blocks hu
  · dsimp only
    refine .of_blocks (Eq.trans ?_ hu)
    split <;> rfl

theorem keeps_register (s : State) (t : Task) : Keeps s (s.register t) :=
  .after (keeps_modTask _ _ _) (.foldl (fun s (x : Nat × Nat) => keeps_registerTile s t x.1 x.2) _ s)

theorem keeps_putRange (s : State) (pa off len : Nat) (m : Memory) : Keeps s (s.putRange pa off len m) :=
  .after (keeps_wake _ _) (.trans (keeps_takeLines s pa len) (.of_blocks rfl))

theorem keeps_startTask (s : State) (t : Task) : Keeps s (s.startTask t) := by
  unfold State.startTask
  refine .after (keeps_modTask _ _ _) (.foldl (fun s x => ?_) _ s)
  split
  · exact .refl s
  · split
    · split <;> exact keeps_putRange _ _ _ _ _
    · exact .refl s

/-! ## The task of a child, followed through its acceptance and its registration -/

theorem State.task?_modTask {s : State} {n : Nat} {f : Task → Task} (hf : ∀ t, (f t).id = t.id) (m : Nat) :
    (s.modTask n f).task? m = if m = n then (s.task? m).map f else s.task? m := by
  split
  · rename_i h
    subst h
    exact find?_updFirst_same _ f (fun t ht => by rwa [hf]) _
  · rename_i h
    refine find?_updFirst_other _ _ f (fun t ht => ?_) _
    rw [hf, beq_iff_eq.mp ht]
    simp [Ne.symm h]

theorem State.takeLines_sched (s : State) (pa n : Nat) : (s.takeLines pa n).sched = s.sched := by
  have h := congrArg State.sched (s.takeLines_frame pa n); exact h

theorem State.putRange_tasks (s : State) (pa off len : Nat) (m : Memory) : (s.putRange pa off len m).sched.tasks = s.sched.tasks :=
  congrArg Sched.tasks (s.takeLines_sched pa len)

theorem State.engineWrite_sched (s : State) (core env : Nat) (va : DWord) (eats : Bool) (bss : List (List Byte)) :
    (s.engineWrite core env va eats bss).1.sched = s.sched := by
  unfold State.engineWrite
  split
  · refine List.foldlRecOn (motive := fun u : State => u.sched = s.sched) _ _ rfl fun u hu p _ => ?_
    rw [State.writePa_sched, State.takeLines_sched, hu]
  · rfl

theorem State.writeTaskId_sched (s : State) (die : Nat) (m : Msg) (id : Nat) : (s.writeTaskId die m id).sched = s.sched := by
  unfold State.writeTaskId
  split
  · rename_i e
    rw [← s.engineWrite_sched (dieCore die) m.srcenv (BitVec.ofNat 64 (m.task + 8)) false [toBytesLE 4 id], e]
  · rfl

/-- A child's task is added to the tasks, with the next identifier. -/
theorem State.accept_adds (s : State) (die : Nat) (m : Msg) (a : Accepted) (p : Option (Nat × Nat)) :
    ∃ (u : State) (t : Task), s.accept die m (.inl a) p = (u, s.sched.nextTask) ∧ Keeps s u ∧
      u.sched.tasks = s.sched.tasks ++ [t] ∧ t.id = s.sched.nextTask ∧ t.record = m.task ∧ t.parent = p := by
  have hk : Keeps s ((s.newId.2.writeTaskId die m s.newId.1).storeTranslation a.transl) :=
    .trans (.of_blocks rfl : Keeps s s.newId.2) ((keeps_writeTaskId _ _ _ _).trans (keeps_storeTranslation _ _))
  have ht : ((s.newId.2.writeTaskId die m s.newId.1).storeTranslation a.transl).sched.tasks = s.sched.tasks := by
    have hw : (s.newId.2.writeTaskId die m s.newId.1).sched.tasks = s.sched.tasks := by
      rw [State.writeTaskId_sched]
      rfl
    unfold State.storeTranslation
    split <;> exact hw
  refine ⟨_, _, rfl, .after (.of_blocks rfl) (.trans hk ?_), congrArg (· ++ [_]) (.trans ?_ ht), rfl, rfl, rfl⟩
  · split
    · exact .refl _
    · exact keeps_modEnv _ _ _
  · split
    · rfl
    · rw [State.modEnv_sched]
      rfl

theorem keeps_accept (s : State) (die : Nat) (m : Msg) (a : Accepted) (p : Option (Nat × Nat)) :
    Keeps s (s.accept die m (.inl a) p).1 := by
  obtain ⟨u, t, he, hk, -⟩ := s.accept_adds die m a p
  rw [he]
  exact hk

/-- The task of a number is one of a kind. -/
def State.HasTask (s : State) (id : Nat) (P : Task → Prop) : Prop := ∃ t, s.task? id = some t ∧ P t

section
variable {s u : State} {id : Nat} {P Q : Task → Prop}

theorem State.HasTask.of_tasks (h : s.HasTask id P) (e : u.sched.tasks = s.sched.tasks) : u.HasTask id P := by
  unfold State.HasTask State.task? at h ⊢
  rwa [e]

theorem State.HasTask.modTask (h : s.HasTask id P) {f : Task → Task} (hf : ∀ t, (f t).id = t.id) (hP : ∀ t, P t → Q (f t)) :
    (s.modTask id f).HasTask id Q := by
  obtain ⟨t, ht, hp⟩ := h
  exact ⟨f t, by rw [State.task?_modTask hf, if_pos rfl, ht]; rfl, hP t hp⟩

theorem State.HasTask.modTask_any (h : s.HasTask id P) {n : Nat} {f : Task → Task} (hf : ∀ t, (f t).id = t.id)
    (hP : ∀ t, P t → P (f t)) : (s.modTask n f).HasTask id P := by
  by_cases hn : id = n
  · subst hn
    exact h.modTask hf hP
  · obtain ⟨t, ht, hp⟩ := h
    exact ⟨t, by rw [State.task?_modTask hf, if_neg hn, ht], hp⟩

theorem State.HasTask.foldl {α : Type} {f : State → α → State} (hf : ∀ s x, s.HasTask id P → (f s x).HasTask id P)
    (xs : List α) (h : s.HasTask id P) : (xs.foldl f s).HasTask id P :=
  List.foldlRecOn (motive := fun u : State => u.HasTask id P) _ _ h fun u hu x _ => hf u x hu

theorem State.HasTask.mem (h : s.HasTask id P) : ∃ t ∈ s.sched.tasks, t.id = id ∧ P t := by
  obtain ⟨t, ht, hp⟩ := h
  exact ⟨t, List.mem_of_find?_eq_some ht, by simpa using List.find?_some ht, hp⟩

theorem State.HasTask.register (h : s.HasTask id P) (t : Task) (hlocs : ∀ t l, P t → P { t with locs := l })
    (hreg : ∀ t, P t → Q { t with registered := true }) (ht : t.id = id) : (s.register t).HasTask id Q := by
  unfold State.register
  rw [ht]
  refine State.HasTask.modTask (P := P) (.foldl (fun s x hs => ?_) _ h) (fun _ => rfl) hreg
  unfold State.registerTile
  extract_lets env sched u
  have hu : u.sched.tasks = s.sched.tasks := by
    dsimp only [u]
    split <;> rfl
  clear_value u
  split
  · exact hs.of_tasks hu
  · dsimp only
    refine State.HasTask.modTask_any (hs.of_tasks (Eq.trans ?_ hu)) (fun _ => rfl) fun t hp => hlocs t _ hp
    split <;> rfl

theorem State.HasTask.startTask (h : s.HasTask id P) (t : Task) (hready : ∀ t n, P t → Q { t with ready := true, readyAt := n })
    (ht : t.id = id) : (s.startTask t).HasTask id Q := by
  unfold State.startTask
  rw [ht]
  refine State.HasTask.modTask (P := P) (.foldl (fun s x hs => ?_) _ h) (fun _ => rfl) fun t hp => hready t _ hp
  have hput (pa off len : Nat) (m : Memory) : (s.putRange pa off len m).HasTask id P := hs.of_tasks (State.putRange_tasks _ _ _ _ _)
  split
  · exact hs
  · split
    · split <;> exact hput _ _ _ _
    · exact hs

end

/-! ## Portions (R327) -/

theorem State.env_id (s : State) (n : Nat) : (s.env n).id = n := by
  unfold State.env
  cases h : s.envs.find? (·.id == n) with
  | none => rfl
  | some e => simpa using List.find?_some h

section
variable {s u : State} {b b0 : Block} {i t : Nat}

/-- A block whose reels come to what a portion leaves of them. -/
def Block.paid (b : Block) (ir tr i t : Nat) : Block :=
  { b with regs := { b.regs with ireel := BitVec.ofNat 64 (ir - i), treel := BitVec.ofNat 64 (tr - t) } }

/-- It is due for a reel that the portion empties. -/
def Block.paidDue (b : Block) (ir tr i t now : Nat) : Block :=
  let iOut := decide (0 < i ∧ ir = i)
  let tOut := decide (0 < t ∧ tr = t)
  if iOut || tOut then (b.paid ir tr i t).makeDue iOut tOut false now else b.paid ir tr i t

theorem Block.paidDue_undue (b : Block) (ir tr i t now : Nat) : (b.paidDue ir tr i t now).undue = (b.paid ir tr i t).undue := by
  unfold Block.paidDue
  dsimp only
  split
  · exact Block.makeDue_undue _ _ _ _ _
  · rfl

theorem State.movePortions_overdraft (hb : s.block? b.id = some b0) (hs : b.cfg.super = false)
    (h : b0.regs.ireel.toNat < i ∨ b0.regs.treel.toNat < t) : s.movePortions b i t = .inr .reelOverdraft := by
  simp only [State.movePortions, hs, hb, Option.map_some, Option.getD_some, if_pos h]
  rfl

theorem State.movePortions_quota (hs : b.cfg.super = true)
    (h : (s.env b.cfg.envelope).ipool < i ∨ (s.env b.cfg.envelope).tpool < t) : s.movePortions b i t = .inr .envelopeQuota := by
  simp only [State.movePortions, hs, if_pos h, if_true]

/-- Portions that a block's reels hold leave them; besides, blocks of its cluster group may become due. -/
theorem State.movePortions_reels {ir tr : Nat} (hs : b.cfg.super = false)
    (hir : ((s.block? b.id).map (·.regs.ireel.toNat)).getD 0 = ir) (htr : ((s.block? b.id).map (·.regs.treel.toNat)).getD 0 = tr)
    (hpay : ¬ (ir < i ∨ tr < t)) : ∃ u, s.movePortions b i t = .inl u ∧
      SameButDue (s.modBlock b.id (·.paidDue ir tr i t s.clock.time)) u := by
  simp only [State.movePortions, hs, hir, htr, if_neg hpay, Bool.false_eq_true, if_false]
  refine ⟨_, rfl, ?_⟩
  split
  · exact sameButDue_recallGroup _ _
  · exact .refl _

/-- A thread's portions leave its block's reels. -/
theorem State.movePortions_thread (hb : s.block? b.id = some b0) (hs : b.cfg.super = false)
    (hi : i ≤ b0.regs.ireel.toNat) (ht : t ≤ b0.regs.treel.toNat) : ∃ u, s.movePortions b i t = .inl u ∧
      SameButDue (s.modBlock b.id (·.paid b0.regs.ireel.toNat b0.regs.treel.toNat i t)) u := by
  obtain ⟨u, hu, hsame⟩ := State.movePortions_reels (ir := b0.regs.ireel.toNat) (tr := b0.regs.treel.toNat) hs
    (by rw [hb]; rfl) (by rw [hb]; rfl) (not_or.mpr ⟨not_lt.mpr hi, not_lt.mpr ht⟩)
  exact ⟨u, hu, (sameButDue_modBlock hb rfl (Block.paidDue_undue _ _ _ _ _ _)).trans hsame⟩

theorem State.movePortions_supervisor (hs : b.cfg.super = true) (hi : i ≤ (s.env b.cfg.envelope).ipool)
    (ht : t ≤ (s.env b.cfg.envelope).tpool) : s.movePortions b i t = .inl (s.modEnv b.cfg.envelope fun e =>
      { e with ipool := e.ipool - i, tpool := e.tpool - t }) := by
  have hpay : ¬ ((s.env b.cfg.envelope).ipool < i ∨ (s.env b.cfg.envelope).tpool < t) := by omega
  simp only [State.movePortions, hs, if_true, if_neg hpay, State.env_id]

/-- Portions that move leave every block its shape, and the schedulers as they are. -/
theorem State.movePortions_keeps (h : s.movePortions b i t = .inl u) : Keeps s u ∧ u.sched = s.sched := by
  cases hs : b.cfg.super with
  | true =>
    simp only [State.movePortions, hs, if_true] at h
    split at h <;> cases h
    exact ⟨keeps_modEnv _ _ _, State.modEnv_sched _ _ _⟩
  | false =>
    by_cases hpay : ((s.block? b.id).map (·.regs.ireel.toNat)).getD 0 < i ∨ ((s.block? b.id).map (·.regs.treel.toNat)).getD 0 < t
    · simp only [State.movePortions, hs, if_pos hpay, Bool.false_eq_true, if_false] at h
      cases h
    · obtain ⟨u', hu, hsame⟩ := State.movePortions_reels hs rfl rfl hpay
      obtain rfl : u' = u := Sum.inl.inj (hu.symm.trans h)
      have hsched : u'.sched = s.sched := by have e := congrArg State.sched hsame.2; exact e
      refine ⟨.trans (keeps_modBlock fun x _ => ?_) hsame.keeps, hsched⟩
      exact (Block.shape_of_undue (x.paidDue_undue _ _ _ _ _)).trans rfl

end

end Sys2Proof.Machine
end

section
/-! SUPPORT. TSPAWN (R188, R326, R327); O35. -/

namespace Sys2Proof.Machine

/-! ## A child inline (R188, R333) -/

/-- What an inline run comes to leaves every block its shape. -/
def Inline.Keeps (s : State) : Inline → Prop
  | .failed u | .started u | .stall u _ => Machine.Keeps s u
  | .trap _ | .notReady => True

theorem keeps_runInline (s : State) (b : Block) (tid p : Nat) (m : Msg) : (s.runInline b tid p m).Keeps s := by
  have hstall (va : DWord) (k : Kind) : Machine.Keeps s (s.startWalk b.die b.cfg.envelope va k).1 := keeps_startWalk _ _ _ _ _
  unfold State.runInline
  dsimp only
  split
  · exact hstall _ _
  split
  · exact hstall _ _
  · trivial
  · trivial
  · split
    · exact hstall _ _
    · exact keeps_accept_refused _ _ _ _ _ rfl rfl
  · rename_i a _
    have ha := keeps_accept s b.die m a (some (b.id, tid))
    split
    · trivial
    rename_i t _
    split
    · split
      · exact hstall _ _
      · exact ha.trans (keeps_failTask _ _ rfl rfl)
    split
    · trivial
    have hr := (ha.trans (keeps_register _ t)).trans
      (keeps_modTask _ (s.accept b.die m (.inl a) (some (b.id, tid))).2 fun t => { t with priority := m.prio })
    split
    · trivial
    split
    · trivial
    split
    · trivial
    · rename_i e
      exact (hr.trans (State.movePortions_keeps e).1).trans ((keeps_startTask _ _).trans (keeps_modBlock fun _ _ => rfl))

/-- A child's task: what its message and its producer gave it. -/
def Task.isChild (m : Msg) (p : Nat × Nat) (t : Task) : Prop := t.record = m.task ∧ t.parent = some p

/-- One that is registered, at its producer's priority. -/
def Task.isRankedChild (m : Msg) (p : Nat × Nat) (t : Task) : Prop :=
  (t.isChild m p ∧ t.registered = true) ∧ t.priority = m.prio

theorem State.task?_id {s : State} {n : Nat} {t : Task} (h : s.task? n = some t) : t.id = n := by
  simpa using List.find?_some h

/-- A child that starts is a task of its own, registered and ready at its producer's priority. -/
theorem runInline_started {s u : State} {b b0 : Block} {tid p : Nat} {m : Msg} (hb : s.block? b.id = some b0)
    (h : s.runInline b tid p m = .started u) (hfresh : ∀ t ∈ s.sched.tasks, t.id ≠ s.sched.nextTask) :
    u.HasTask s.sched.nextTask (fun t => t.isRankedChild m (b.id, tid) ∧ t.ready = true) ∧
      ∃ b', u.block? b.id = some b' ∧ b'.inline = some (s.sched.nextTask, p) := by
  unfold State.runInline at h
  dsimp only at h
  split at h
  · cases h
  split at h
  · cases h
  · cases h
  · cases h
  · split at h <;> cases h
  · rename_i a _
    obtain ⟨w, t0, he, hw, htasks, hid, hchild⟩ := s.accept_adds b.die m a (some (b.id, tid))
    rw [he] at h
    dsimp only at h
    have h0 : w.HasTask s.sched.nextTask (Task.isChild m (b.id, tid)) := by
      refine ⟨t0, ?_, hchild⟩
      have hnone : s.sched.tasks.find? (·.id == s.sched.nextTask) = none :=
        List.find?_eq_none.mpr fun t ht => by simpa using hfresh t ht
      rw [State.task?, htasks, List.find?_append, hnone, Option.none_or, List.find?_cons, hid, beq_self_eq_true]
    split at h
    · cases h
    rename_i t ht
    have htid := State.task?_id ht
    split at h
    · split at h <;> cases h
    split at h
    · cases h
    have h1 := (h0.register t (Q := fun t => t.isChild m (b.id, tid) ∧ t.registered = true) (fun _ _ h => h)
      (fun _ h => ⟨h, rfl⟩) htid).modTask (f := fun t => { t with priority := m.prio })
      (Q := Task.isRankedChild m (b.id, tid)) (fun _ => rfl) fun _ h => ⟨h, rfl⟩
    have k1 := hw.trans ((keeps_register w t).trans (keeps_modTask _ s.sched.nextTask fun t => { t with priority := m.prio }))
    split at h
    · cases h
    rename_i t' ht'
    split at h
    · cases h
    split at h
    · cases h
    rename_i v hv
    cases h
    obtain ⟨k2, hsched⟩ := State.movePortions_keeps hv
    have h2 := (h1.of_tasks (congrArg Sched.tasks hsched)).startTask t'
      (Q := fun t => t.isRankedChild m (b.id, tid) ∧ t.ready = true)
      (fun _ _ h => ⟨h, rfl⟩) (State.task?_id ht')
    refine ⟨h2.of_tasks rfl, ?_⟩
    obtain ⟨b1, hb1, -⟩ := ((k1.trans k2).trans (keeps_startTask v t')).block hb
    exact ⟨_, by rw [State.block?_modBlock, hb1]; rfl, rfl⟩

/-! ## TSPAWN with its queue reached -/

section
variable (c : Ctx) (x : Nat × Nat) (record queue : DWord) (pa : Nat) (s : State)

/-- The thread parks at its queue. -/
def State.spawnPark : State × Fate :=
  ((s.noteWrite c.b x.2 queue pa).addWaiter (pa + 0x18)).park c x.2 none { kind := .tspawn, va := queue, pa, arg := record }

/-- The thread sends its task to a queue that has room. -/
def State.spawnSend (i t : Nat) (m : Msg) : State × Fate :=
  if !c.b.acks.isEmpty then (s, .again)
  else
    let slot := BitVec.ofNat 64 (slotOf queue.toNat (s.mbTail pa) (s.mbCap pa))
    match s.locate c.b x.2 slot 64 64 .read true with
    | (s, .no f) => (s, f)
    | (s, .pa spa) =>
      match s.letIn c.b x.2 slot spa 64 .write with
      | (s, .no f) => (s, f)
      | (s, .pa spa) =>
        match s.movePortions c.b i t with
        | .inr k => (s, .trap { cause := k, addr := record, size := 128 })
        | .inl s => (((s.writePa spa m.bytes).putPa (pa + 8) 8 (s.mbTail pa + 1)).noteWrite c.b x.2 queue pa [] [spa / 128],
          .done [.p c.resP true] 128)

/-- The thread finds no room: its task runs inline where it may, or else the thread parks. -/
def State.spawnFull (m : Msg) : State × Fate :=
  if decide (c.b.regs.inldepth.toNat < c.b.regs.inlmax.toNat) then
    if !c.b.acks.isEmpty then (s, .again)
    else match s.runInline c.b x.2 c.resP m with
      | .failed s => (s.modBlock c.iss.blk fun b => { b with inline := some (0, c.resP), failedBy := some x.2 }, .stay)
      | .started s => (s, .stay)
      | .trap k => (s, .trap { cause := k, addr := record, size := 128 })
      | .stall s w => (s, .stall w)
      | .notReady => s.spawnPark c x record queue pa
  else s.spawnPark c x record queue pa

/-- TSPAWN with its record and its queue reached. -/
def State.spawnAt (rpa : Nat) : State × Fate :=
  let i := s.valPa (rpa + 0x48) 8
  let t := s.valPa (rpa + 0x50) 8
  let m := spawnMsg c.b (((s.task? c.b.task).map (·.priority)).getD 0) record i t
  if s.mbUsed pa < s.mbCap pa then s.spawnSend c x record queue pa i t m else s.spawnFull c x record queue pa m

theorem keeps_spawnPark : Keeps s (s.spawnPark c x record queue pa).1 :=
  .after (keeps_park _ _ _ _ _) ((keeps_noteWrite _ _ _ _ _ _ _).trans (keeps_addWaiter _ _))

theorem keeps_spawnSend (i t : Nat) (m : Msg) : Keeps s (s.spawnSend c x record queue pa i t m).1 := by
  unfold State.spawnSend
  refine keeps_ite (.refl s) ?_
  dsimp only
  split <;> rename_i e <;> have hl := congrArg Prod.fst e ▸ keeps_locate _ _ _ _ _ _ _ _
  · exact hl
  split <;> rename_i e <;> have hi := hl.trans (congrArg Prod.fst e ▸ keeps_letIn _ _ _ _ _ _ _)
  · exact hi
  split
  · exact hi
  · rename_i e
    exact (hi.trans (State.movePortions_keeps e).1).trans
      (.after (keeps_noteWrite _ _ _ _ _ _ _) ((keeps_writePa _ _ _).trans (keeps_putPa _ _ _ _)))

theorem keeps_spawnFull (m : Msg) : Keeps s (s.spawnFull c x record queue pa m).1 := by
  have hrun := keeps_runInline s c.b x.2 c.resP m
  have hpark := keeps_spawnPark c x record queue pa s
  unfold State.spawnFull
  refine keeps_ite (keeps_ite (.refl s) ?_) hpark
  generalize s.runInline c.b x.2 c.resP m = r at hrun
  cases r with
  | failed u => exact .trans hrun (keeps_modBlock fun _ _ => rfl)
  | started u => exact hrun
  | trap k => exact .refl s
  | notReady => exact hpark
  | stall u w => exact hrun

theorem keeps_spawnAt (rpa : Nat) : Keeps s (s.spawnAt c x record queue pa rpa).1 :=
  keeps_ite (keeps_spawnSend _ _ _ _ _ _ _ _ _) (keeps_spawnFull _ _ _ _ _ _ _)

end

theorem keeps_tspawnAct (c : Ctx) (s : State) (x : Nat × Nat) : Keeps s (State.tspawnAct none c s x).1 := by
  unfold State.tspawnAct
  dsimp only
  iterate 5 refine keeps_ite (.refl s) ?_
  split <;> rename_i e <;> have hl := congrArg Prod.fst e ▸ keeps_locate _ _ _ _ _ _ _ _
  · exact hl
  split <;> rename_i e <;> have hm := hl.trans (congrArg Prod.fst e ▸ keeps_reachMailbox _ _ _ _ _ _ _)
  · exact hm
  split <;> rename_i e <;> have hi := hm.trans (congrArg Prod.fst e ▸ keeps_letIn _ _ _ _ _ _ _)
  · exact hi
  · exact hi.trans (keeps_spawnAt _ _ _ _ _ _ _)

/-- TSPAWN's issue, where no child has been started by its end: its threads one after another. -/
theorem does_each_of_tspawn (w : CWord) : DoesEach (.tspawn w) 0x288 w Ctx.inOrder
    (fun c s => ∀ b, (c.on.foldl (turnBy (State.tspawnAct none c)) s).block? c.iss.blk = some b → b.inline = none)
    (fun c s x => (State.tspawnAct none c s x).1) (fun c s x => (State.tspawnAct none c s x).2) := by
  intro s iss b hcur h c u hact ⟨hchildless, hfit⟩
  have hn : c.on.Nodup := (h.nodup_ths.filter _).filter _
  have hmade : (if u.mustDrain c false 0 then (u, c.again) else u.fitAcks c (u.eachOf c.on (State.tspawnAct none c))) =
      (c.on.foldl (turnBy (State.tspawnAct none c)) u,
        c.on.map fun x => (x.2, (State.tspawnAct none c (turn c.on (turnBy (State.tspawnAct none c)) u x) x).2)) := by
    rw [mustDrain_of_unreleased, if_neg Bool.false_ne_true, State.eachOf_eq hn]
    exact State.fitAcks_eq hfit
  obtain ⟨b1, hb1, hh⟩ := (Keeps.foldl (keeps_turnBy (keeps_tspawnAct c)) c.on u).block (h.ready c).found
  obtain ⟨t, ht, hret⟩ := State.Runs.retires (act := fun c s => if s.mustDrain c false 0 then (s, c.again)
    else s.fitAcks c (s.eachOf c.on (State.tspawnAct none c))) hcur h hact hmade (.refl _) hb1 (fun x hx => hh _ (h.has x hx))
  refine ⟨t, b1, ?_, hb1, hret⟩
  have hsave := State.saveProducer_of_childless ((hret.childless (hchildless b1 hb1)).conclude (c.actFates (c.full
    fun x => (State.tspawnAct none c (turn c.on (turnBy (State.tspawnAct none c)) u x) x).2)))
  have hexec : exec (.tspawn w) s =
      .next ((s.runMem 0x288 w false 0 (State.tspawnAct none)).saveProducer ((s.cur.map (·.blk)).getD 0)) := rfl
  rw [hexec, hcur, State.runMem, ht]
  exact congrArg _ hsave

/-! ## What a thread's TSPAWN comes to -/

section
variable {c : Ctx} {x : Nat × Nat} {s s0 u v : State} {b : Block} {rp rpa pa : Nat}

theorem tspawnAct_of_reached (hb : s.block? c.iss.blk = some b) (hin : b.inline = none) (hrec : (c.objAddr x.2).toNat < 2 ^ 57)
    (hq : (BitVec.ofNat 64 ((c.b.th x.2).reg c.w.b.toNat 2)).toNat < 2 ^ 57) (hral : (c.objAddr x.2).toNat % 128 = 0)
    (hqal : (BitVec.ofNat 64 ((c.b.th x.2).reg c.w.b.toNat 2)).toNat % 64 = 0)
    (hl : s.locate c.b x.2 (c.objAddr x.2) 128 128 .read true = (s0, .pa rp))
    (hm : s0.reachMailbox c x.2 (BitVec.ofNat 64 ((c.b.th x.2).reg c.w.b.toNat 2)) .read 1 false = (u, .inr pa))
    (hi : u.letIn c.b x.2 (c.objAddr x.2) rp 128 .read = (v, .pa rpa)) : State.tspawnAct none c s x =
    v.spawnAt c x (c.objAddr x.2) (BitVec.ofNat 64 ((c.b.th x.2).reg c.w.b.toNat 2)) pa rpa := by
  have hfree : ¬ ((s.block? c.iss.blk).any (·.inline.isSome)) = true := by simp [hb, hin]
  unfold State.tspawnAct
  dsimp only [addrOf, Option.map, Option.getD]
  rw [if_neg hfree, canonical_of_lt hrec, canonical_of_lt hq]
  simp only [Bool.not_true, Bool.false_eq_true, if_false, hral, hqal, ne_eq, not_true_eq_false, hl, hm, hi]
  rfl

end

section
variable {c : Ctx} {x : Nat × Nat} {record queue : DWord} {pa rpa : Nat} {v : State}

theorem spawnAt_of_full (h : v.mbCap pa ≤ v.mbUsed pa) : v.spawnAt c x record queue pa rpa =
    v.spawnFull c x record queue pa (spawnMsg c.b (((v.task? c.b.task).map (·.priority)).getD 0) record
      (v.valPa (rpa + 0x48) 8) (v.valPa (rpa + 0x50) 8)) := if_neg (not_lt.mpr h)

theorem spawnAt_of_room {v' y : State} {sp spa : Nat} (hroom : v.mbUsed pa < v.mbCap pa) (hacks : c.b.acks = [])
    (hslot : v.locate c.b x.2 (BitVec.ofNat 64 (slotOf queue.toNat (v.mbTail pa) (v.mbCap pa))) 64 64 .read true = (v, .pa sp))
    (hin : v.letIn c.b x.2 (BitVec.ofNat 64 (slotOf queue.toNat (v.mbTail pa) (v.mbCap pa))) sp 64 .write = (v', .pa spa))
    (hmove : v'.movePortions c.b (v.valPa (rpa + 0x48) 8) (v.valPa (rpa + 0x50) 8) = .inl y) :
    v.spawnAt c x record queue pa rpa =
      (((y.writePa spa (spawnMsg c.b (((v.task? c.b.task).map (·.priority)).getD 0) record (v.valPa (rpa + 0x48) 8)
          (v.valPa (rpa + 0x50) 8)).bytes).putPa (pa + 8) 8 (y.mbTail pa + 1)).noteWrite c.b x.2 queue pa [] [spa / 128],
        .done [.p c.resP true] 128) := by
  rw [State.spawnAt, if_pos hroom, State.spawnSend, hacks]
  simp only [List.isEmpty_nil, Bool.not_true, Bool.false_eq_true, if_false, hslot, hin, hmove]

variable {m : Msg}

theorem spawnFull_of_deep (h : c.b.regs.inlmax.toNat ≤ c.b.regs.inldepth.toNat) :
    v.spawnFull c x record queue pa m = v.spawnPark c x record queue pa := by
  rw [State.spawnFull, decide_eq_false (not_lt.mpr h)]
  rfl

theorem spawnFull_of_acks (h : c.b.regs.inldepth.toNat < c.b.regs.inlmax.toNat) (hacks : c.b.acks ≠ []) :
    v.spawnFull c x record queue pa m = (v, .again) := by
  rw [State.spawnFull, decide_eq_true h, if_pos rfl, if_pos (by simpa using hacks)]

theorem spawnFull_of_shallow (h : c.b.regs.inldepth.toNat < c.b.regs.inlmax.toNat) (hacks : c.b.acks = []) :
    v.spawnFull c x record queue pa m = match v.runInline c.b x.2 c.resP m with
      | .failed s => (s.modBlock c.iss.blk fun b => { b with inline := some (0, c.resP), failedBy := some x.2 }, .stay)
      | .started s => (s, .stay)
      | .trap k => (v, .trap { cause := k, addr := record, size := 128 })
      | .stall s w => (s, .stall w)
      | .notReady => v.spawnPark c x record queue pa := by
  rw [State.spawnFull, decide_eq_true h, if_pos rfl, hacks]
  rfl

end

/-- Settles O35: each thread's action is its turn; with its record and its queue reached it sends, runs its child inline, or
parks; a child that starts by its task, and portions by what the reels and the pools hold. -/
theorem taskSpawns : Obligations.TaskSpawns := by
  refine ⟨fun w => ⟨does_each_of_tspawn w, fun c s s0 u v x b rp rpa pa hw => ?spawn⟩,
    fun s u b b0 tid p m hb h hfresh => ?started, fun s b b0 i t hb => ?portions⟩
  case spawn =>
    subst hw
    intro record queue hb hin hrec hq hral hqal hl hm hi i t prio
    have hat := tspawnAct_of_reached hb hin hrec hq hral hqal hl hm hi
    rw [hat]
    have hfull (h : v.mbCap pa ≤ v.mbUsed pa) := spawnAt_of_full (c := c) (x := x) (record := record) (queue := queue) (rpa := rpa) h
    refine ⟨fun v' y sp spa hroom hacks => ?_, fun h hdepth => ?_, fun h hdepth => ⟨fun hacks => ?_, fun hacks => ?_⟩⟩
    · intro slot hslot hin hmove
      rw [← c.resP_eq]
      exact spawnAt_of_room hroom hacks hslot hin hmove
    · rw [hfull h]
      exact spawnFull_of_deep hdepth
    · rw [hfull h]
      exact spawnFull_of_acks hdepth hacks
    · rw [hfull h, ← c.resP_eq]
      refine (spawnFull_of_shallow (m := spawnMsg c.b prio record i t) hdepth hacks).trans ?_
      cases v.runInline c.b x.2 c.resP (spawnMsg c.b prio record i t) <;> rfl
  case started =>
    obtain ⟨hchild, b', hb', hin⟩ := runInline_started hb h hfresh
    obtain ⟨t, ht, hid, ⟨⟨⟨⟨hrec, hpar⟩, hreg⟩, hprio⟩, hready⟩⟩ := hchild.mem
    exact ⟨t, b', ht, hid, hrec, hpar, hreg, hready, hprio, hb', hid ▸ hin⟩
  case portions =>
    refine ⟨State.movePortions_overdraft hb, State.movePortions_quota, fun hs hi ht => ?_, fun hs hi ht => ?_⟩
    · obtain ⟨u, hu, hsame⟩ := State.movePortions_thread hb hs hi ht
      have hblk := hsame.1 b.id
      rw [State.block?_modBlock, hb, Option.map_some] at hblk
      obtain ⟨b1, hb1, hund⟩ := Option.map_eq_some_iff.mp hblk
      have hregs : b1.regs = (b0.paid b0.regs.ireel.toNat b0.regs.treel.toNat i t).regs := by
        have e := congrArg Block.regs hund; exact e
      have henvs : u.envs = s.envs := by have e := congrArg State.envs hsame.2; exact e
      refine ⟨u, b1, hu, hb1, ?_, ?_, henvs, hsame.mem⟩
      · rw [hregs]
        simp only [Block.paid, BitVec.toNat_ofNat]
        have := b0.regs.ireel.isLt
        omega
      · rw [hregs]
        simp only [Block.paid, BitVec.toNat_ofNat]
        have := b0.regs.treel.isLt
        omega
    · refine ⟨_, State.movePortions_supervisor hs hi ht, ?_, ?_, State.modEnv_blocks _ _ _, State.modEnv_mem _ _ _⟩
      · rw [State.env_modEnv (by exact fun _ h => h)]
        exact Nat.sub_add_cancel hi
      · rw [State.env_modEnv (by exact fun _ h => h)]
        exact Nat.sub_add_cancel ht

end Sys2Proof.Machine
end

section
/-! SUPPORT. The matrix engine: its entry of an issue, the fates that leave it, what its accesses keep (R195, R199, R202). -/

namespace Sys2Proof.Machine

/-! ## The block as the engine's entry leaves it (R202) -/

theorem Block.enterEngine_cases (b : Block) (c : Ctx) : b.enterEngine c = b ∨ b.enterEngine c = b.clearCut := by
  unfold Block.enterEngine
  split
  · exact .inl rfl
  · split
    · exact .inl rfl
    · exact .inr rfl

/-- The entry changes the register of cut transfers and staging alone. -/
theorem Block.enterEngine_frame (b : Block) (c : Ctx) :
    { b.enterEngine c with rowprog := b.rowprog, staging := b.staging } = b := by
  rcases b.enterEngine_cases c with h | h
  · rw [h]
  · rw [h]; rfl

@[simp] theorem Block.enterEngine_cfg (b : Block) (c : Ctx) : (b.enterEngine c).cfg = b.cfg := by
  have h := congrArg Block.cfg (b.enterEngine_frame c); exact h
@[simp] theorem Block.enterEngine_rows (b : Block) (c : Ctx) : (b.enterEngine c).rows = b.rows := by
  have h := congrArg Block.rows (b.enterEngine_frame c); exact h
@[simp] theorem Block.enterEngine_ureg (b : Block) (c : Ctx) (n : Nat) : (b.enterEngine c).ureg n = b.ureg n := by
  have h := congrArg (Block.ureg · n) (b.enterEngine_frame c); exact h
@[simp] theorem Block.enterEngine_th (b : Block) (c : Ctx) (t : Nat) : (b.enterEngine c).th t = b.th t := by
  have h := congrArg (Block.th · t) (b.enterEngine_frame c); exact h

@[simp] theorem Ctx.entered_ureg (c : Ctx) (n : Nat) : c.entered.b.ureg n = c.b.ureg n := Block.enterEngine_ureg _ _ _
@[simp] theorem Ctx.entered_th (c : Ctx) (t : Nat) : c.entered.b.th t = c.b.th t := Block.enterEngine_th _ _ _
@[simp] theorem Ctx.entered_cfg (c : Ctx) : c.entered.b.cfg = c.b.cfg := Block.enterEngine_cfg _ _
@[simp] theorem Ctx.entered_rows (c : Ctx) : c.entered.b.rows = c.b.rows := Block.enterEngine_rows _ _

@[simp] theorem Ctx.rb_cfg (c : Ctx) : c.rb.cfg = c.b.cfg := by unfold Ctx.rb; split <;> rfl

@[simp] theorem Ctx.entered_rb_ureg (c : Ctx) (n : Nat) : c.entered.rb.ureg n = c.rb.ureg n := by
  have hregs : c.entered.b.uregs = c.b.uregs := by
    have h := congrArg Block.uregs (c.b.enterEngine_frame c); exact h
  have hiss : c.entered.iss = c.iss := rfl
  unfold Ctx.rb
  rw [Ctx.entered_th, hiss]
  cases (c.b.th ((c.iss.ths.map (·.2)).headD 0)).held with
  | none => exact Ctx.entered_ureg c n
  | some xs => simp only [Block.ureg, hregs]

theorem coreError_entered (s : State) (c : Ctx) (store consumer : Nat) :
    s.coreError c.entered.b store consumer = s.coreError c.b store consumer := by
  have h := congrArg (s.coreError · store consumer) (c.b.enterEngine_frame c); exact h

/-- RowOf of a thread (R193). -/
theorem Ctx.entered_row (c : Ctx) (t k : Nat) : c.entered.row t k =
    if c.rb.ureg k % 2 ^ 32 + c.w.modF 1 5 + (c.b.th t).reg c.w.b.toNat 1 < c.b.cfg.rowAlloc then
      some (c.rb.ureg k % 2 ^ 32 + c.w.modF 1 5 + (c.b.th t).reg c.w.b.toNat 1) else none := by
  simp only [Ctx.row, rowOf, Ctx.entered_rb_ureg, Ctx.entered_th, Ctx.rb_cfg, Ctx.entered_cfg]
  rfl

/-! ## The fates that leave the engine (R195) -/

theorem Ctx.leave_of_out (c : Ctx) {fs : List (Nat × Fate)} (h : ∀ f ∈ fs, f.2.within = false) (s : State) :
    c.leave fs s = c.leave [] s := by
  have hnone : fs.filter (·.2.within) = [] := List.filter_eq_nil_iff.mpr fun f hf => by simp [h f hf]
  unfold Ctx.leave Block.inEngine
  rw [hnone]
  rfl

theorem Ctx.within_of_mem_all {c : Ctx} {k : Fate} (hk : k.within = false) : ∀ f ∈ c.all k, f.2.within = false := by
  intro f hf
  obtain ⟨x, -, rfl⟩ := List.mem_map.mp hf
  exact hk

/-- The block of an issue stands in a state, with the threads that it had. -/
def Ctx.Stays (c : Ctx) (s : State) : Prop := ∃ b1, s.block? c.iss.blk = some b1 ∧ ∀ t, c.b.has t → b1.has t

theorem Ctx.Stays.keeps {c : Ctx} {s t : State} (h : c.Stays s) (k : Keeps s t) : c.Stays t := by
  obtain ⟨b1, hb1, hin⟩ := h
  obtain ⟨b2, hb2, hin'⟩ := k.block hb1
  exact ⟨b2, hb2, fun t ht => hin' t (hin t ht)⟩

section
variable {i : Instr} {op : Nat} {w : CWord} {ok : Ctx → State → Prop} {eff : Ctx → State → State}
  {act : Ctx → State → State × List (Nat × Fate)} (hi : ∀ s, exec i s = .next (s.runEngine op w act))
  (hb : ∀ c s, c.w = w → s.block? c.iss.blk = some c.b → ok c s → c.Stays (eff c s))
include hi hb

/-- A matrix-engine instruction that answers an effect and a fate for each thread that is on. -/
theorem does_of_engineFates {f : Ctx → State → Nat × Nat → Fate} (ha : ∀ c s, c.w = w → c.on.Nodup → ok c s →
      c.engineBusy = false ∧ act c.entered (c.enter s) = (eff c s, c.onFates (f c s))) :
    Does i op w ok (fun c s => c.leave (c.onFates (f c s)) (eff c s)) f := by
  refine does_of_runIssue hi (fun s iss b h hok => ?_) fun s iss b h hok => (hb _ s rfl h.found hok).keeps (keeps_leave _ _ _)
  obtain ⟨hfree, hact⟩ := ha _ s rfl ((h.nodup_ths.filter _).filter _) hok
  rw [runEngine_free h.found act hfree, hact]

/-- One that all of its active threads issue again. -/
theorem doesAll_of_engineHeld (ha : ∀ c s, c.w = w → c.on.Nodup → ok c s →
      c.engineBusy = false ∧ act c.entered (c.enter s) = (eff c s, c.holdAll)) :
    DoesAll i op w ok (fun c s => c.leave c.holdAll (eff c s)) fun _ _ _ => .again := by
  refine doesAll_of_runIssue hi (fun s iss b h hok => ?_) fun s iss b h hok => (hb _ s rfl h.found hok).keeps (keeps_leave _ _ _)
  obtain ⟨hfree, hact⟩ := ha _ s rfl ((h.nodup_ths.filter _).filter _) hok
  rw [runEngine_free h.found act hfree, hact]
  rfl

/-- One that acts once for its threads, all of which complete. -/
theorem does_of_engineEffect
    (ha : ∀ c s, c.w = w → ok c s → c.engineBusy = false ∧ act c.entered (c.enter s) = (eff c s, [])) :
    Does i op w ok (fun c s => c.leave [] (eff c s)) fun _ _ _ => .done := by
  refine does_of_effect hi (fun s iss b h hok => ?_) fun s iss b h hok => (hb _ s rfl h.found hok).keeps (keeps_leave _ _ _)
  obtain ⟨hfree, hact⟩ := ha _ s rfl hok
  rw [runEngine_free h.found act hfree, hact]

/-- One that gives all of its threads one fate that leaves the engine. -/
theorem does_of_engineOut {k : Ctx → Fate} (hout : ∀ c, (k c).within = false)
    (ha : ∀ c s, c.w = w → ok c s → c.engineBusy = false ∧ act c.entered (c.enter s) = (eff c s, c.all (k c))) :
    Does i op w ok (fun c s => c.leave [] (eff c s)) fun c _ _ => k c :=
  (does_of_engineFates hi hb (f := fun c _ _ => k c) fun c s hw _ hok => ha c s hw hok).congr fun c _ _ _ hok =>
    ⟨hok, (c.leave_of_out (Ctx.within_of_mem_all (hout c)) _).symm, fun _ _ => rfl⟩

end

section
variable {i : Instr} {op n : Nat} {w : CWord} {masked : Ctx → State → Nat → State}
  {act : Ctx → State → Nat → State × Fate}
  {m : Ctx → State → Nat → Nat → State × Fate} {z : Ctx → State → Nat → State} {row : Ctx → Nat → Option Nat}
  {g : Ctx → State → Nat × Nat → Nat → State} {f : Ctx → State → Nat × Nat → Nat → Fate}
  (hact : ∀ c s t, act c s t = (c.row t n).elim (s, .trap { cause := .regIndex }) (m c s t))
  (hrow : ∀ c, c.w = w → ∀ t, row c t = c.entered.row t n)
  (hon : ∀ c s x r, c.w = w → c.on.contains x = true → g c s x r = (m c.entered s x.2 r).1)
  (hf : ∀ c s x r, c.w = w → f c s x r = (m c.entered s x.2 r).2)
  (hm : ∀ c s t r, Keeps s (m c s t r).1)
include hact hrow hon hf hm

/-- A matrix-engine instruction whose threads each have a row: what a thread does with its row, and what becomes of the row
of one that is masked off in zero mode. -/
theorem does_rows_of_row (hi : ∀ s, exec i s = .next (s.runRows op w masked act))
    (hmasked : ∀ c s t, masked c s t = (c.row t n).elim s (z c s))
    (hoff : ∀ c s x r, c.w = w → c.on.contains x = false → g c s x r = if w.zeroing then z c.entered s r else s)
    (hz : ∀ c s r, Keeps s (z c s r)) :
    DoesRows i op w (fun c s x => (row c x.2).elim s (g c s x))
      fun c s x => (row c x.2).elim (.trap { cause := .regIndex }) (f c s x) := by
  have hg (c : Ctx) (s : State) (x : Nat × Nat) (r : Nat) (hw : c.w = w) : g c s x r =
      if c.on.contains x then (m c.entered s x.2 r).1 else if w.zeroing then z c.entered s r else s := by
    split <;> rename_i h
    · exact hon c s x r hw h
    · exact hoff c s x r hw (by simpa using h)
  refine does_rows_of_runRows hi (fun c s x hw _ => ?_) (fun c s x hw _ => ?_) fun c s x hw _ => ?_
  · rw [hrow c hw, hmasked, hact]
    cases c.entered.row x.2 n with
    | none => simp
    | some r => exact hg c s x r hw
  · rw [hrow c hw, hact]
    cases c.entered.row x.2 n with
    | none => rfl
    | some r => exact hf c s x r hw
  · cases row c x.2 with
    | none => exact .refl s
    | some r =>
      rw [Option.elim_some, hg c s x r hw]
      split
      · exact hm _ _ _ _
      · split
        · exact hz _ _ _
        · exact .refl s

/-- One that leaves the rows of threads that are masked off alone. -/
theorem does_rows_of_on (hi : ∀ s, exec i s = .next (s.runRows op w (fun _ s _ => s) act))
    (hoff : ∀ c s x r, c.on.contains x = false → g c s x r = s) :
    DoesRows i op w (fun c s x => (row c x.2).elim s (g c s x))
      fun c s x => (row c x.2).elim (.trap { cause := .regIndex }) (f c s x) :=
  does_rows_of_row (z := fun _ s _ => s) hact hrow hon hf hm hi (fun c _ t => by cases c.row t n <;> rfl)
    (fun c s x r _ hx => (hoff c s x r hx).trans (ite_self _).symm) fun _ s _ => .refl s

end

/-! ## What the accesses of rows keep -/

theorem keeps_coreError (s : State) (b : Block) (store consumer : Nat) : Keeps s (s.coreError b store consumer) :=
  keeps_event _ _ _ _ _ _ _

/-- Bytes of the rows of a block changed, `n` of them written whole (R415). -/
def State.putRows (s : State) (blk off n : Nat) (f : Memory → Memory) : State :=
  (s.modBlock blk fun b => { b with rows := f b.rows }).healRows blk off n

theorem keeps_putRows (s : State) (blk off n : Nat) (f : Memory → Memory) : Keeps s (s.putRows blk off n f) :=
  .after (keeps_heal _ _) (keeps_modBlock fun _ _ => rfl)

/-- A thread that reads bytes of its row: an error there is an event of the core, and the thread's trap (R414). -/
def State.whereSound (s : State) (c : Ctx) (row off n : Nat) (r : State × Fate) : State × Fate :=
  (if s.badRow c.iss.blk row off n then s.coreError c.b 1 0 else r.1,
    if s.badRow c.iss.blk row off n then .trap poisonTrap else r.2)

theorem State.whereSound_eq (s : State) (c : Ctx) (row off n : Nat) (r : State × Fate) : s.whereSound c row off n r =
    if s.badRow c.iss.blk row off n then (s.coreError c.b 1 0, .trap poisonTrap) else r := by
  unfold State.whereSound
  split <;> rfl

theorem keeps_whereSound {s : State} {r : State × Fate} (h : Keeps s r.1) (c : Ctx) (row off n : Nat) :
    Keeps s (s.whereSound c row off n r).1 := by
  rw [State.whereSound_eq]
  split
  · exact keeps_coreError _ _ _ _
  · exact h

theorem keeps_readPlaces (s : State) (b : Block) (tid : Nat) (va : DWord) (ps : List (Nat × Nat)) :
    Keeps s (s.readPlaces b tid va ps).1 := by
  induction ps generalizing s with
  | nil => exact .refl s
  | cons p ps ih =>
    have hp := keeps_letIn s b tid va p.1 p.2 .read
    unfold State.readPlaces
    split <;> rename_i e <;> have hr := congrArg Prod.fst e ▸ hp
    · exact hr
    · split <;> rename_i e <;> exact hr.trans (congrArg Prod.fst e ▸ ih _)

theorem keeps_readSpan (s : State) (b : Block) (tid : Nat) (va : DWord) (n align : Nat) :
    Keeps s (s.readSpan b tid va n align).1 := by
  unfold State.readSpan
  split <;> rename_i e <;> have hl := congrArg Prod.fst e ▸ keeps_locateSpan s b tid .read n align (pieces va n)
  · exact hl
  · exact hl.trans (keeps_readPlaces _ _ _ _ _)

theorem keeps_writeSpan (s : State) (b : Block) (tid : Nat) (va : DWord) (bs : List Byte) (align : Nat) :
    Keeps s (s.writeSpan b tid va bs align).1 := by
  unfold State.writeSpan
  split <;> rename_i e <;> have hl := congrArg Prod.fst e ▸ keeps_locateSpan s b tid .write bs.length align (pieces va bs.length)
  · exact hl
  · dsimp only
    rename_i ps
    have hw (u : State × List Byte) :
        Keeps u.1 (ps.foldl (fun a p => (a.1.writePa p.1 (a.2.take p.2), a.2.drop p.2)) u).1 :=
      List.foldlRecOn (motive := fun a : State × List Byte => Keeps u.1 a.1) _ _ (.refl _) fun a ha p _ =>
        ha.trans (keeps_writePa _ _ _)
    refine (hl.trans (hw (_, bs))).trans ?_
    split
    · exact keeps_noteWrite _ _ _ _ _ _ _
    · exact .refl _

end Sys2Proof.Machine
end

section
/-! SUPPORT. ACLR, ALD, AST, ARD and AWR (R193, R195, R201, R414, R415); O40. -/

namespace Sys2Proof.Machine

/-! ## Errors in rows (R414, R415) -/

theorem State.badRow_iff (s : State) (blk row off n : Nat) : s.badRow blk row off n = true ↔
    ∃ k, ErrUnit.row blk k ∈ s.health.bad ∧ 256 * row + off < 8 * k + 8 ∧ 8 * k < 256 * row + off + n := by
  simp only [State.badRow, Bool.and_eq_true, Bool.not_eq_true', List.isEmpty_eq_false_iff, List.any_eq_true]
  constructor
  · rintro ⟨-, u, hu, hmeet⟩
    split at hmeet
    · simp only [Bool.and_eq_true, beq_iff_eq, wordIn, decide_eq_true_eq] at hmeet
      obtain ⟨rfl, hin⟩ := hmeet
      exact ⟨_, hu, hin⟩
    · cases hmeet
  · rintro ⟨k, hk, hin⟩
    exact ⟨List.ne_nil_of_mem hk, _, hk, by simpa [wordIn] using hin⟩

theorem State.mem_bad_healRows (s : State) (blk at' n : Nat) (u : ErrUnit) : u ∈ (s.healRows blk at' n).health.bad ↔
    u ∈ s.health.bad ∧ ¬ ∃ k, u = .row blk k ∧ at' ≤ 8 * k ∧ 8 * k + 8 ≤ at' + n := by
  rw [State.healRows, State.mem_health_heal.1]
  refine and_congr_right fun _ => ?_
  cases u with
  | row k w => rw [Bool.eq_false_iff, not_iff_not]; simp [and_assoc]
  | _ => simp

/-! ## What a thread does with its row (R201) -/

def State.aldRow (c : Ctx) (s : State) (t r : Nat) : State × Fate :=
  let a := s.readSpan c.b t (c.rowAddr t) 256 16
  (a.2.elim (fun _ => a.1) fun bs => a.1.putRows c.iss.blk (256 * r) 256 (·.write (256 * r) bs),
    a.2.elim id fun _ => .done [] 256)

def State.astRow (c : Ctx) (s : State) (t r : Nat) : State × Fate :=
  let a := s.writeSpan c.b t (c.rowAddr t) (c.b.readRow r) 16
  s.whereSound c r 0 256 (a.1, a.2.getD (.done [] 256))

def State.ardRow (w : CWord) (c : Ctx) (s : State) (_ r : Nat) : State × Fate :=
  s.whereSound c r (16 * bits w.imm 0 4) 16 (s, .done (wrV w.d.toNat 4 (c.b.rows.val (256 * r + 16 * bits w.imm 0 4) 16)))

def State.awrRow (w : CWord) (c : Ctx) (s : State) (t r : Nat) : State × Fate :=
  (s.putQuad c.iss.blk r (bits w.imm 0 4) ((c.b.th t).reg w.a.toNat 4), .done)

theorem keeps_aldRow (c : Ctx) (s : State) (t r : Nat) : Keeps s (State.aldRow c s t r).1 := by
  have hread := keeps_readSpan s c.b t (c.rowAddr t) 256 16
  unfold State.aldRow
  dsimp only
  cases (s.readSpan c.b t (c.rowAddr t) 256 16).2 with
  | inl f => exact hread
  | inr bs => exact hread.trans (keeps_putRows _ c.iss.blk (256 * r) 256 (·.write (256 * r) bs))

theorem keeps_putQuad (s : State) (blk r q x : Nat) : Keeps s (s.putQuad blk r q x) :=
  keeps_putRows s blk (256 * r + 16 * q) 16 (·.put (256 * r + 16 * q) 16 x)

/-! ## The obligation -/

/-- Settles O40: each thread of ALD, AST, ARD and AWR acts at its turn on its row, as the engine's entry leaves the block;
ACLR acts once. -/
theorem accumulatorRows : Obligations.AccumulatorRows := by
  refine ⟨fun w => ?_, State.badRow_iff, State.mem_bad_healRows⟩
  intro e row addr none' off n first q put clear met
  have hrow (c : Ctx) (hw : c.w = w) (k t : Nat) : row k c t = c.entered.row t k := by
    subst hw; exact (c.entered_row t k).symm
  have haddr (c : Ctx) (hw : c.w = w) (t : Nat) : addr c t = c.entered.rowAddr t := by
    subst hw; simp only [Ctx.rowAddr, Ctx.entered_th]; rfl
  have hn (c : Ctx) : (if w.bsel = 2#2 then w.imm.toNat else c.entered.b.ureg w.b.toNat % 2 ^ 32) = n c := by
    rw [Ctx.entered_ureg]
  have hfirst (c : Ctx) : c.entered.b.ureg w.d.toNat % 2 ^ 32 + w.modF 1 5 = first c := by rw [Ctx.entered_ureg]
  have hq : bits w.imm 0 4 = q := by simp [bits_eq_div, q]
  have hmet (c : Ctx) (s : State) : s.coreError c.entered.b 1 0 = met c s := coreError_entered s c 1 0
  have not_off {c : Ctx} {x : Nat × Nat} (hx : c.on.contains x = true) : ¬ off c x := ne_false_of_eq_true hx
  refine ⟨?aclr, ?aclrOutside, ?ald, ?ast, ?ard, ?awr⟩
  case aclr =>
    refine does_of_engineEffect (fun _ => rfl) (fun c s _ hb _ => Keeps.block ?_ hb) fun c s _ hok => ⟨hok.1, ?_⟩
    · split
      · exact keeps_enter c s
      · exact (keeps_enter c s).trans (keeps_putRows _ _ _ _ _)
    · dsimp only
      rw [hn, hfirst, Ctx.entered_cfg]
      split
      · rfl
      · rw [if_neg (by have := hok.2; omega)]
        rfl
  case aclrOutside =>
    refine does_of_engineOut (fun _ => rfl) (fun c s _ hb _ => (keeps_enter c s).block hb) (fun _ => rfl)
      fun c s _ hok => ⟨hok.1, ?_⟩
    obtain ⟨-, hne, hout⟩ := hok
    dsimp only
    rw [hn, hfirst, Ctx.entered_cfg, if_neg hne, if_pos hout]
    rfl
  case ald =>
    refine does_rows_of_row (m := State.aldRow) (z := fun c s r => clear c s (256 * r) 256) (fun c s t => ?_)
      (fun c hw => hrow c hw w.d.toNat) (fun c s x r hw hx => ?_) (fun c s x r hw => ?_) keeps_aldRow (fun _ => rfl)
      (fun c s t => ?_) (fun c s x r _ hx => if_pos hx) fun c s r => keeps_putRows _ _ _ _ _
    · cases c.row t w.d.toNat with
      | none => rfl
      | some r =>
        dsimp only [State.aldRow, Option.elim_some]
        rcases s.readSpan c.b t (c.rowAddr t) 256 16 with ⟨u, k | bs⟩ <;> rfl
    · rw [if_neg (not_off hx), haddr c hw]
      rfl
    · rw [haddr c hw]
      rfl
    · cases c.row t w.d.toNat <;> rfl
  case ast =>
    refine does_rows_of_on (m := State.astRow) (fun c s t => ?_) (fun c hw => hrow c hw w.d.toNat) (fun c s x r hw hx => ?_)
      (fun c s x r hw => ?_) (fun c s t r => keeps_whereSound (keeps_writeSpan _ _ _ _ _ _) _ _ _ _) (fun _ => rfl)
      fun c s x r hx => if_pos hx
    · cases c.row t w.d.toNat with
      | none => rfl
      | some r =>
        simp only [Option.elim_some, State.astRow, State.whereSound_eq]
        rcases s.writeSpan c.b t (c.rowAddr t) (c.b.readRow r) 16 with ⟨u, _ | k⟩ <;> rfl
    · rw [if_neg (not_off hx), haddr c hw, ← hmet, ← Ctx.entered_rows]
      rfl
    · rw [haddr c hw, ← Ctx.entered_rows]
      rfl
  case ard =>
    refine does_rows_of_on (m := State.ardRow w) (fun c s t => ?_) (fun c hw => hrow c hw w.a.toNat) (fun c s x r hw hx => ?_)
      (fun c s x r hw => ?_) (fun c s t r => keeps_whereSound (.refl s) _ _ _ _) (fun _ => rfl)
      fun c s x r hx => if_neg fun h => h.1 hx
    · cases c.row t w.a.toNat with
      | none => rfl
      | some r => simp only [Option.elim_some, State.ardRow, State.whereSound_eq]
    · rw [State.ardRow, hq, ← hmet]
      simp only [State.whereSound, not_off hx, not_false_eq_true, true_and]
      rfl
    · rw [State.ardRow, hq, ← Ctx.entered_rows]
      rfl
  case awr =>
    refine does_rows_of_row (m := State.awrRow w) (z := fun c s r => s.putQuad c.iss.blk r (bits w.imm 0 4) 0) (fun c s t => ?_)
      (fun c hw => hrow c hw w.d.toNat) (fun c s x r hw hx => ?_) (fun c s x r hw => rfl) (fun c s t r => keeps_putQuad _ _ _ _ _)
      (fun _ => rfl) (fun c s t => ?_) (fun c s x r _ hx => ?_) fun c s r => keeps_putQuad _ _ _ _ _
    · cases c.row t w.d.toNat <;> rfl
    · rw [State.awrRow, hq, Ctx.entered_th, if_neg fun h => not_off hx h.1, if_neg (not_off hx)]
      rfl
    · cases c.row t w.d.toNat <;> rfl
    · rw [hq]
      cases hz : w.zeroing with
      | false => rw [if_pos ⟨hx, rfl⟩]; rfl
      | true => rw [if_neg fun h => Bool.false_ne_true h.2.symm, if_pos (show off c x from hx)]; rfl

end Sys2Proof.Machine
end

section
/-! SUPPORT. Transfers of rows of memory through the engine; TLD and TST (R195, R201, R202, R415); O39. -/

namespace Sys2Proof.Machine

/-! ## The rows that a transfer reaches (R201, R202) -/

/-- A row of a transfer: its number, its address, its place. -/
def rowAt (x : DWord) (pitch : Nat) (pa : Nat → Nat) (r : Nat) : Nat × DWord × Nat := (r, x + BitVec.ofNat 64 (r * pitch), pa r)

/-- A row is reached from one state, which it leaves as another; no earlier write of the threads to its line stands. -/
def State.RowReached (s t : State) (b : Block) (tid : Nat) (va : DWord) (k : Kind) (all : List Nat) (pa : Nat) : Prop :=
  s.reach b tid va 64 64 k = (t, .pa pa) ∧ (k = .write → ∀ t ∈ all, b.holdsLine t (pa / 128) = false)

section
variable {st : Nat → State} {pa : Nat → Nat} {x : DWord} {pitch : Nat} {k : Kind}

theorem State.transferRows_of_reached {b : Block} {tid : Nat} {all : List Nat} (j : Nat) {n m : Nat}
    (h : ∀ r, m ≤ r → r < m + n → (st r).RowReached (st (r + 1)) b tid (x + BitVec.ofNat 64 (r * pitch)) k all (pa r)) :
    (st m).transferRows b tid x pitch k all (n + j) m =
      let t := (st (m + n)).transferRows b tid x pitch k all j (m + n)
      (t.1, (List.range' m n).map (rowAt x pitch pa) ++ t.2.1, t.2.2) := by
  induction n generalizing m with
  | zero => simp
  | succ n ih =>
    obtain ⟨hreach, hfree⟩ := h m le_rfl (by omega)
    have hline : (k == .write && all.any fun t => b.holdsLine t (pa m / 128)) = false := by
      rw [Bool.and_eq_false_iff, List.any_eq_false]
      by_cases hk : k = .write
      · exact .inr fun t ht => by rw [hfree hk t ht]; exact Bool.false_ne_true
      · exact .inl (beq_eq_false_iff_ne.mpr hk)
    have hrest := ih (m := m + 1) fun r h1 h2 => h r (by omega) (by omega)
    rw [show n + 1 + j = n + j + 1 by omega, State.transferRows]
    simp only [hreach, hline, Bool.false_eq_true, if_false, hrest, List.range'_succ, List.map_cons, List.cons_append]
    rw [show m + 1 + n = m + (n + 1) by omega]
    rfl

variable {c : Ctx} {put : State → Nat × DWord × Nat → State} {m n : Nat}

/-- Every row is reached: the transfer moves them all. -/
theorem State.transfer64_of_reached (hm : m ≤ 64) (h : ∀ r, m ≤ r → r < 64 → (st r).RowReached (st (r + 1)) c.b
      ((c.on.map (·.2)).headD 0) (x + BitVec.ofNat 64 (r * pitch)) k (c.on.map (·.2)) (pa r)) :
    (st m).transfer64 c x pitch k m put = (((List.range' m (64 - m)).map (rowAt x pitch pa)).foldl put (st 64), none) := by
  have hall := State.transferRows_of_reached 0 (n := 64 - m) fun r h1 h2 => h r h1 (by omega)
  rw [Nat.add_zero, show m + (64 - m) = 64 by omega] at hall
  unfold State.transfer64
  dsimp only
  rw [hall]
  simp [State.transferRows]

/-- A row is not reached: the transfer moves those before it, and is cut there. -/
theorem State.transfer64_of_stopped {f : Fate} (hn : n < 64) (hm : m ≤ n)
    (h : ∀ r, m ≤ r → r < n → (st r).RowReached (st (r + 1)) c.b
      ((c.on.map (·.2)).headD 0) (x + BitVec.ofNat 64 (r * pitch)) k (c.on.map (·.2)) (pa r))
    (hstop : (st n).reach c.b ((c.on.map (·.2)).headD 0) (x + BitVec.ofNat 64 (n * pitch)) 64 64 k = (st (n + 1), .no f))
    (hwait : (c.iss.handler && f.within) = false) :
    (st m).transfer64 c x pitch k m put =
      ((((List.range' m (n - m)).map (rowAt x pitch pa)).foldl put (st (n + 1))).noteCut c n false, some f.whole) := by
  have hall := State.transferRows_of_reached (64 - n) (n := n - m) fun r h1 h2 => h r h1 (by omega)
  obtain ⟨j, hj⟩ : ∃ j, 64 - n = j + 1 := ⟨63 - n, by omega⟩
  rw [show n - m + (64 - n) = 64 - m by omega, show m + (n - m) = n by omega, hj, State.transferRows, hstop] at hall
  unfold State.transfer64
  dsimp only
  rw [hall]
  simp [hwait]

end

/-! ## What TLD and TST do once the engine is theirs -/

/-- The meaning of TLD and TST: the checks of the address and the pitch, the transfer. -/
def State.tileAct (w : CWord) (k : Kind) (put : Ctx → State → Nat × DWord × Nat → State) (c : Ctx) (s : State) :
    State × List (Nat × Fate) :=
  let x := BitVec.ofNat 64 (c.rb.ureg w.a.toNat) + w.immS
  let p := pitchOf (c.rb.ureg w.b.toNat)
  if x.toNat % 64 ≠ 0 ∨ p % 64 ≠ 0 then
    (s, c.all (.stop { cause := .misaligned, addr := x, write := k == .write, size := 64, extra := 64#64 }))
  else
    let r := match s.transfer64 c x p k (c.b.resumeRow c).1 (put c) with
      | (s, some f) => (s, c.all f)
      | (s, none) => ((s.endTransfer c).heal fun u => k == .read && u == .tile c.iss.blk w.d.toNat, c.all (.done [] 128))
    s.fitAcks c r

theorem State.moveTile_eq (s : State) (op : Nat) (w : CWord) (k : Kind) (put : Ctx → State → Nat × DWord × Nat → State) :
    s.moveTile op w k put = s.runEngine op w (State.tileAct w k put) := rfl

theorem State.block?_endTransfer_acks (s : State) (c : Ctx) :
    ((s.endTransfer c).block? c.iss.blk).map Block.ackc = (s.block? c.iss.blk).map Block.ackc := by
  unfold State.endTransfer
  split
  · rfl
  · rw [State.block?_modBlock, Option.map_map]; rfl

theorem State.block?_noteCut_acks (s : State) (c : Ctx) (row : Nat) (side : Bool) :
    ((s.noteCut c row side).block? c.iss.blk).map Block.ackc = (s.block? c.iss.blk).map Block.ackc := by
  unfold State.noteCut
  split
  · rfl
  · rw [State.block?_modBlock, Option.map_map]; rfl

section
variable {w : CWord} {k : Kind} {put : Ctx → State → Nat × DWord × Nat → State} {c : Ctx} {s u : State}
  {x : DWord} {p : Nat}
  (hx : BitVec.ofNat 64 (c.rb.ureg w.a.toNat) + w.immS = x) (hp : pitchOf (c.rb.ureg w.b.toNat) = p)
include hx hp

theorem State.tileAct_of_misaligned (hbad : ¬ (x.toNat % 64 = 0 ∧ p % 64 = 0)) : s.tileAct w k put c =
    (s, c.all (.stop { cause := .misaligned, addr := x, write := k == .write, size := 64, extra := 64#64 })) := by
  subst hx hp
  exact if_pos (not_and_or.mp hbad)

theorem State.tileAct_of_whole (hok : x.toNat % 64 = 0 ∧ p % 64 = 0)
    (hmove : s.transfer64 c x p k (c.b.resumeRow c).1 (put c) = (u, none)) (hfit : u.acksFit c) : s.tileAct w k put c =
    ((u.endTransfer c).heal fun e => k == .read && e == .tile c.iss.blk w.d.toNat, c.all (.done [] 128)) := by
  subst hx hp
  rw [State.tileAct, if_neg (not_or.mpr ⟨not_not.mpr hok.1, not_not.mpr hok.2⟩), hmove]
  refine State.fitAcks_eq ?_
  unfold State.acksFit at hfit ⊢
  rw [State.heal_block?, State.block?_endTransfer_acks]
  exact hfit

theorem State.tileAct_of_cut {n : Nat} {f : Fate} (hok : x.toNat % 64 = 0 ∧ p % 64 = 0)
    (hmove : s.transfer64 c x p k (c.b.resumeRow c).1 (put c) = (u.noteCut c n false, some f)) (hfit : u.acksFit c) :
    s.tileAct w k put c = (u.noteCut c n false, c.all f) := by
  subst hx hp
  rw [State.tileAct, if_neg (not_or.mpr ⟨not_not.mpr hok.1, not_not.mpr hok.2⟩), hmove]
  refine State.fitAcks_eq ?_
  unfold State.acksFit at hfit ⊢
  rw [State.block?_noteCut_acks]
  exact hfit

end

/-! ## Rows moved into a block -/

/-- Places of memory moved into a block one after another, which changes no memory. -/
theorem State.foldl_modBlock_readPa {α : Type} {blk : Nat} (pa : α → Nat) {f : α → List Byte → Block → Block}
    (hid : ∀ x bs b, (f x bs b).id = b.id) (xs : List α) (s : State) :
    xs.foldl (fun s x => s.modBlock blk (f x (s.readPa (pa x) 64))) s =
      s.modBlock blk fun b => xs.foldl (fun b x => f x (s.readPa (pa x) 64) b) b := by
  induction xs generalizing s with
  | nil => exact State.modBlock_id.symm
  | cons x xs ih =>
    rw [List.foldl_cons, ih, State.modBlock_modBlock fun b hb => (hid x _ b).trans hb]
    rfl

def State.loadRow (w : CWord) (c : Ctx) (s : State) (r : Nat × DWord × Nat) : State :=
  s.modBlock c.iss.blk fun b => { b with tiles := b.tiles.write (4096 * w.d.toNat + 64 * r.1) (s.readPa r.2.2 64) }

def State.storeRow (w : CWord) (c : Ctx) (s : State) (r : Nat × DWord × Nat) : State :=
  (s.writePa r.2.2 (c.b.tiles.read (4096 * w.d.toNat + 64 * r.1) 64)).noteWrite c.b ((c.on.map (·.2)).headD 0) r.2.1 r.2.2
    (c.on.map (·.2))

theorem Block.shape_tiles (b : Block) (t : Memory) : { b with tiles := t }.shape = b.shape := rfl

theorem keeps_loadRow (w : CWord) (c : Ctx) (s : State) (r : Nat × DWord × Nat) : Keeps s (s.loadRow w c r) :=
  keeps_modBlock fun b _ => b.shape_tiles _

theorem keeps_storeRow (w : CWord) (c : Ctx) (s : State) (r : Nat × DWord × Nat) : Keeps s (s.storeRow w c r) :=
  (keeps_writePa _ _ _).trans (keeps_noteWrite _ _ _ _ _ _ _)

/-- The rows loaded into a tile, from one memory. -/
theorem State.foldl_loadRow (w : CWord) (c : Ctx) (x : DWord) (pitch : Nat) (pa : Nat → Nat) (rows : List Nat) (s : State) :
    (rows.map (rowAt x pitch pa)).foldl (State.loadRow w c) s = s.modBlock c.iss.blk fun b => { b with
      tiles := rows.foldl (fun t r => t.write (4096 * w.d.toNat + 64 * r) (s.readPa (pa r) 64)) b.tiles } := by
  rw [List.foldl_map]
  refine (State.foldl_modBlock_readPa pa (f := fun r bs b => { b with tiles := b.tiles.write (4096 * w.d.toNat + 64 * r) bs })
    (fun _ _ _ => rfl) rows s).trans (State.modBlock_congr fun b _ => ?_)
  exact List.foldl_hom (fun t => { b with tiles := t })
    (g₁ := fun t r => t.write (4096 * w.d.toNat + 64 * r) (s.readPa (pa r) 64))
    (g₂ := fun b r => { b with tiles := b.tiles.write (4096 * w.d.toNat + 64 * r) (s.readPa (pa r) 64) }) fun _ _ => rfl

theorem keeps_rows {st : Nat → State} {m n : Nat} (hm : m ≤ n) (h : ∀ r, m ≤ r → r < n → Keeps (st r) (st (r + 1))) :
    Keeps (st m) (st n) := by
  induction n, hm using Nat.le_induction with
  | base => exact .refl _
  | succ n hn ih => exact (ih fun r h1 h2 => h r h1 (by omega)).trans (h n hn (by omega))

theorem keeps_of_reach {s t : State} {b : Block} {tid size align : Nat} {va : DWord} {k : Kind} {g : Got}
    (h : s.reach b tid va size align k = (t, g)) : Keeps s t := by
  have hk := keeps_reach s b tid va size align k false
  rw [h] at hk
  exact hk

theorem keeps_endTransfer (s : State) (c : Ctx) : Keeps s (s.endTransfer c) := by
  unfold State.endTransfer
  split
  · exact .refl s
  · exact keeps_modBlock fun _ _ => rfl

theorem keeps_noteCut (s : State) (c : Ctx) (row : Nat) (side : Bool) : Keeps s (s.noteCut c row side) := by
  unfold State.noteCut
  split
  · exact .refl s
  · exact keeps_modBlock fun _ _ => rfl

theorem Fate.whole_of_within {f : Fate} (h : f.within = true) : f.whole = f := by
  cases f <;> first | rfl | cases h

/-! ## The register of cut transfers (R202) -/

/-- A cut transfer goes on from its row when it is issued again at its own place; any other issue begins at row 0. -/
theorem Ctx.resumeRow_enterEngine (c : Ctx) : (c.b.enterEngine c).resumeRow c =
    if c.iss.handler = false ∧ c.b.rowprog.valid = true ∧ c.pc = BitVec.ofNat 64 c.b.cfg.code + c.b.rowprog.pcoff.setWidth 64
    then (c.b.rowprog.row, c.b.rowprog.side) else (0, false) := by
  unfold Block.enterEngine Block.resumeRow
  cases hh : c.iss.handler with
  | true => simp
  | false =>
    cases hv : c.b.rowprog.valid with
    | false => simp [hv]
    | true =>
      by_cases hpc : c.pc = BitVec.ofNat 64 c.b.cfg.code + c.b.rowprog.pcoff.setWidth 64
      · simp [Block.codeBase, ← hpc, hv]
      · simp [Block.codeBase, hpc, Block.clearCut]

/-! ## The obligation -/

/-- Settles O39: the transfer of a tile is that of its rows, all of them or those before the one that is not reached. -/
theorem tileTransfers : Obligations.TileTransfers := by
  refine ⟨fun w => ?_, Ctx.resumeRow_enterEngine⟩
  intro b addr pitch aligned on tid va reached rows loaded stored ended cut moves busy
  have haddr (c : Ctx) : BitVec.ofNat 64 (c.entered.rb.ureg w.a.toNat) + w.immS = addr c := by
    rw [Ctx.entered_rb_ureg]; rfl
  have hpitch (c : Ctx) : pitchOf (c.entered.rb.ureg w.b.toNat) = pitch c := by
    rw [Ctx.entered_rb_ureg]; rfl
  have hmoves (i : Instr) (op : Nat) (k : Kind) (put : Nat → Nat → (Ctx → Nat → Nat) → Ctx → State → State)
      (one : Ctx → State → Nat × DWord × Nat → State) (hi : ∀ s, exec i s = .next (s.moveTile op w k one))
      (hput : ∀ c s m n pa, ((List.range' m (n - m)).map (rowAt (addr c) (pitch c) (pa c))).foldl (one c.entered) s =
        put m n pa c s) (hkeep : ∀ c s r, Keeps s (one c s r)) : moves i op k put := by
    have hi' (s : State) : exec i s = .next (s.runEngine op w (State.tileAct w k one)) := hi s
    have hmoved (c : Ctx) (s : State) (m n : Nat) (pa : Ctx → Nat → Nat) : Keeps s (put m n pa c s) := by
      rw [← hput]; exact Keeps.foldl (hkeep _) _ _
    -- the state in which a transfer has reached its rows
    have hthere (c : Ctx) (s : State) (m n : Nat) (hm : m ≤ n) (st : Nat → Ctx → State → State) (pa : Ctx → Nat → Nat)
        (h : reached k m n st pa c s) : Keeps s (st n c s) := by
      obtain ⟨-, -, -, hst, hrows⟩ := h
      refine (keeps_enter c s).trans ?_
      rw [← hst]
      exact keeps_rows (st := fun r => st r c s) hm fun r h1 h2 => keeps_of_reach (hrows r h1 h2).1
    -- a transfer that is cut at a row
    have hcut (c : Ctx) (s : State) {n m : Nat} (hn : n < 64) (hm : m ≤ n) {st : Nat → Ctx → State → State}
        {pa : Ctx → Nat → Nat} {f : Fate} (h : reached k m n st pa c s)
        (hstop : (st n c s).reach (b c) (tid c) (va c n) 64 64 k = (st (n + 1) c s, .no f))
        (hwait : (c.iss.handler && f.within) = false) (hfit : (put m n pa c (st (n + 1) c s)).acksFit c) :
        (c.enter s).tileAct w k one c.entered = (cut c n (put m n pa c (st (n + 1) c s)), c.all f.whole) := by
      obtain ⟨-, hal, hm0, hst, hrows⟩ := h
      have hmove := State.transfer64_of_stopped (c := c.entered) (st := fun r => st r c s) (put := one c.entered) hn hm hrows
        hstop hwait
      rw [hput, hst] at hmove
      exact State.tileAct_of_cut (haddr c) (hpitch c) hal (hm0 ▸ hmove) hfit
    have hkept (c : Ctx) (s : State) {n m : Nat} (hm : m ≤ n) {st : Nat → Ctx → State → State}
        {pa : Ctx → Nat → Nat} {f : Fate}
        (h : reached k m n st pa c s) (hstop : (st n c s).reach (b c) (tid c) (va c n) 64 64 k = (st (n + 1) c s, .no f)) :
        Keeps s (cut c n (put m n pa c (st (n + 1) c s))) :=
      ((hthere c s m n hm st pa h).trans ((keeps_of_reach hstop).trans (hmoved c _ m n pa))).trans (keeps_noteCut _ c n false)
    refine ⟨fun m hm st pa => ?whole, fun n hn m hm st pa t => ?stopped, fun n hn m hm st pa wait hwait => ?waits, ?misaligned⟩
    case whole =>
      refine does_of_engineOut (k := fun _ => .done [] 128) hi' (fun c s _ hb hok => Keeps.block ?_ hb) (fun _ => rfl)
        fun c s _ hok => ⟨hok.1.1, ?_⟩
      · refine .trans ((hthere c s m 64 hm st pa hok.1).trans (hmoved c _ m 64 pa)) ?_
        exact (keeps_endTransfer _ c).trans (keeps_heal _ _)
      · obtain ⟨⟨-, hal, hm0, hst, hrows⟩, hfit⟩ := hok
        have hmove := State.transfer64_of_reached (c := c.entered) (st := fun r => st r c s) (put := one c.entered) hm hrows
        rw [hput, hst] at hmove
        exact State.tileAct_of_whole (haddr c) (hpitch c) hal (hm0 ▸ hmove) hfit
    case stopped =>
      refine does_of_engineOut (k := fun _ => .stop t) hi' (fun c s _ hb hok => ?_) (fun _ => rfl)
        fun c s _ hok => ⟨hok.1.1, ?_⟩ <;> obtain ⟨hreached, hfit, hstop⟩ := hok
      · exact (hkept c s hm hreached hstop).block hb
      · exact hcut c s hn hm hreached hstop (Bool.and_false _) hfit
    case waits =>
      refine does_of_engineFates (f := fun _ _ _ => wait) hi' (fun c s _ hb hok => ?_)
        fun c s _ _ hok => ⟨hok.2.1.1, ?_⟩ <;> obtain ⟨hh, hreached, hfit, hstop⟩ := hok
      · exact (hkept c s hm hreached hstop).block hb
      · have h := hcut c s hn hm hreached hstop (Bool.and_eq_false_iff.mpr (.inl hh)) hfit
        rwa [Fate.whole_of_within hwait] at h
    case misaligned =>
      refine does_of_engineOut hi' (fun c s _ hb _ => (keeps_enter c s).block hb)
        (k := fun c => .stop { cause := .misaligned, addr := addr c, write := k == .write, size := 64, extra := 64#64 })
        (fun _ => rfl) fun c s _ hok => ⟨hok.1, ?_⟩
      exact State.tileAct_of_misaligned (haddr c) (hpitch c) hok.2
  refine ⟨hmoves _ _ _ _ (State.loadRow w) (fun _ => rfl) (fun c s m n pa => ?_) (keeps_loadRow w),
    hmoves _ _ _ _ (State.storeRow w) (fun _ => rfl) (fun c s m n pa => ?_) (keeps_storeRow w),
    does_busy_of_runEngine fun _ => rfl, does_busy_of_runEngine fun _ => rfl, does_busy_of_runEngine fun _ => rfl,
    does_busy_of_runEngine fun _ => rfl, does_busy_of_runEngine fun _ => rfl, does_busy_of_runEngine fun _ => rfl,
    does_busy_of_runEngine fun _ => rfl, does_busy_of_runEngine fun _ => rfl, does_busy_of_runEngine fun _ => rfl,
    does_busy_of_runEngine fun _ => rfl⟩
  · rw [List.range'_eq_map_range, State.foldl_loadRow]; rfl
  · rw [List.range'_eq_map_range, List.foldl_map]; rfl

end Sys2Proof.Machine
end

section
/-! SUPPORT. MMA and MMASP: sums of several values, columns, the read of B, the turns of the threads (R34, R195 to R199);
O41. -/

namespace Sys2Proof.Machine

/-! ## The exact sum of several values (R13, R34) -/

theorem sumFp_cons (rd : Bool) (x : Fp) (xs : List Fp) : sumFp rd (x :: xs) = xs.foldl (fun a y => a.add y rd) x := rfl

/-- A property of the values of a sum that adding two of them keeps, and that a sum of one value decides. -/
theorem sumFp_of_addends {P : List Fp → Prop} {Q : Fp → Prop} {rd : Bool}
    (hadd : ∀ a b l, P (a :: b :: l) → P (a.add b rd :: l))
    (hone : ∀ a, P [a] → Q a) (hnil : ¬ P []) {xs : List Fp} (h : P xs) : Q (sumFp rd xs) := by
  cases xs with
  | nil => exact absurd h hnil
  | cons x xs =>
    rw [sumFp_cons]
    induction xs generalizing x with
    | nil => exact hone x h
    | cons y ys ih => exact ih _ (hadd _ _ _ h)

theorem sumFp_finite {xs : List Fp} (h : ∀ x ∈ xs, x.finite) :
    (sumFp false xs).finite ∧ (sumFp false xs).toRat = (xs.map Fp.toRat).sum := by
  cases xs with
  | nil => exact ⟨one_ne_zero, by simp [sumFp, Fp.zero, Fp.toRat]⟩
  | cons x xs =>
    obtain ⟨hx, hxs⟩ := List.forall_mem_cons.mp h
    rw [sumFp_cons, List.map_cons, List.sum_cons]
    clear h
    induction xs generalizing x with
    | nil => exact ⟨hx, by simp⟩
    | cons y ys ih =>
      obtain ⟨hy, hys⟩ := List.forall_mem_cons.mp hxs
      obtain ⟨s, n, d, e, hd, rfl⟩ := Fp.exists_fin hx
      obtain ⟨s', n', d', e', hd', rfl⟩ := Fp.exists_fin hy
      obtain ⟨hfin, hsum, -⟩ := Fp.add_fin hd hd' s s' n n' e e' false
      obtain ⟨h1, h2⟩ := ih _ hfin hys
      exact ⟨h1, by rw [List.foldl_cons, h2, hsum, List.map_cons, List.sum_cons, add_assoc]⟩

theorem Fp.add_fin_eq_fin (s s' rd : Bool) (n n' d d' : Nat) (e e' : Int) :
    ∃ s'' n'' d'' e'', (Fp.fin s n d e).add (.fin s' n' d' e') rd = .fin s'' n'' d'' e'' := by
  unfold Fp.add
  dsimp only
  split
  · exact ⟨_, _, _, _, rfl⟩
  · exact ⟨_, _, _, _, rfl⟩

/-- A NaN, or both infinities, among the values. -/
def Undefined (l : List Fp) : Prop := Fp.nan ∈ l ∨ (Fp.inf false ∈ l ∧ Fp.inf true ∈ l)

/-- Infinities of one sign alone, at least one, and no NaN. -/
def Infinite (neg : Bool) (l : List Fp) : Prop := Fp.inf neg ∈ l ∧ Fp.inf (!neg) ∉ l ∧ Fp.nan ∉ l

theorem undefined_add (rd : Bool) (a b : Fp) (l : List Fp) : Undefined (a.add b rd :: l) ↔ Undefined (a :: b :: l) := by
  cases a with
  | nan => simp [Undefined, Fp.add]
  | inf s =>
    cases b with
    | nan => simp [Undefined, Fp.add]
    | inf s' => cases s <;> cases s' <;> simp [Undefined, Fp.add]
    | fin s' n d e => simp [Undefined, Fp.add]
  | fin s n d e =>
    cases b with
    | nan => simp [Undefined, Fp.add]
    | inf s' => simp [Undefined, Fp.add]
    | fin s' n' d' e' =>
      obtain ⟨_, _, _, _, h⟩ := Fp.add_fin_eq_fin s s' rd n n' d d' e e'
      simp [Undefined, h]

theorem infinite_add {neg : Bool} (rd : Bool) {a b : Fp} {l : List Fp} (hl : Infinite neg (a :: b :: l)) :
    Infinite neg (a.add b rd :: l) := by
  cases a with
  | nan => simp [Infinite] at hl
  | inf s =>
    cases b with
    | nan => simp [Infinite] at hl
    | inf s' => cases neg <;> cases s <;> cases s' <;> simp_all [Infinite, Fp.add]
    | fin s' n d e => simpa [Infinite, Fp.add] using hl
  | fin s n d e =>
    cases b with
    | nan => simp [Infinite] at hl
    | inf s' => simpa [Infinite, Fp.add] using hl
    | fin s' n' d' e' =>
      obtain ⟨_, _, _, _, h⟩ := Fp.add_fin_eq_fin s s' rd n n' d d' e e'
      simpa [Infinite, h] using hl

theorem sumFp_of_undefined {rd : Bool} {xs : List Fp} (h : Undefined xs) : sumFp rd xs = .nan := by
  refine sumFp_of_addends (P := Undefined) (Q := (· = .nan)) (fun a b l => (undefined_add rd a b l).mpr) (fun a ha => ?_)
    (by simp [Undefined]) h
  rcases ha with ha | ⟨h1, h2⟩
  · exact (List.mem_singleton.mp ha).symm
  · exact absurd ((List.mem_singleton.mp h1).trans (List.mem_singleton.mp h2).symm) (by simp)

theorem sumFp_of_infinite {rd neg : Bool} {xs : List Fp} (h : Infinite neg xs) : sumFp rd xs = .inf neg :=
  sumFp_of_addends (P := Infinite neg) (Q := (· = .inf neg)) (fun _ _ _ => infinite_add rd)
    (fun _ ha => (List.mem_singleton.mp ha.1).symm) (by simp [Infinite]) h

/-! ## Columns of a float product (R34, R198) -/

theorem kBlockFloat_eq (f : Fmt) (acc : Nat) (ps : List Fp) : kBlockFloat f acc ps =
    if (sumFp false ps).isZero = true ∧ f.decode acc ∉ [.nan, .inf false, .inf true] then acc
    else finishFloat f .rn 0 false false ((f.decode acc).add (sumFp false ps) false) := by
  unfold kBlockFloat
  cases f.decode acc <;> simp

/-- The product of an element of A and the element of B that stands at its depth, under the scales of a block of eight. -/
def floatProduct (sparse : Bool) (t : Ty) (a : Memory) (sc : List Nat) (m : BTile) (n k j : Nat) : Fp :=
  match m.code sparse t n k with
  | none => Fp.zero false
  | some b => (elemValue t (elemCode t a 0 k) (if isScaled t then some (sc.getD j 0) else none)).mul
      (elemValue t b (m.scale sparse t n j))

/-- A float column is built block after block (R34). -/
theorem column_of_float {t : Ty} (ht : isIntTy t = false) (sparse : Bool) (a : Memory) (sc : List Nat) (m : BTile) (n acc : Nat) :
    column sparse t a sc m n acc = (List.range (depthOf sparse t / 8)).foldl (fun acc j =>
      kBlockFloat (if t = .f64 then .f64 else .f32) acc
        ((List.range 8).map fun i => floatProduct sparse t a sc m n (8 * j + i) j)) acc := by
  simp only [column, ht, Bool.false_eq_true, if_false, List.map_map]
  rfl

/-! ## B from memory (R197, R202) -/

/-- A row of B moved into staging. -/
def State.stageRow (c : Ctx) (s : State) (r : Nat × DWord × Nat) : State :=
  s.modBlock c.iss.blk fun b => { b with staging := b.staging.write (c.stagingBase + 64 * r.1) (s.readPa r.2.2 64) }

/-- The rows moved into staging, from one memory. -/
theorem State.foldl_stageRow (c : Ctx) (x : DWord) (pitch : Nat) (pa : Nat → Nat) (rows : List Nat) (s : State) :
    (rows.map (rowAt x pitch pa)).foldl (State.stageRow c) s = s.modBlock c.iss.blk fun b => { b with
      staging := rows.foldl (fun t r => t.write (c.stagingBase + 64 * r) (s.readPa (pa r) 64)) b.staging } := by
  rw [List.foldl_map]
  refine (State.foldl_modBlock_readPa pa (f := fun r bs b => { b with staging := b.staging.write (c.stagingBase + 64 * r) bs })
    (fun _ _ _ => rfl) rows s).trans (State.modBlock_congr fun b _ => ?_)
  exact List.foldl_hom (fun t => { b with staging := t })
    (g₁ := fun t r => t.write (c.stagingBase + 64 * r) (s.readPa (pa r) 64))
    (g₂ := fun b r => { b with staging := b.staging.write (c.stagingBase + 64 * r) (s.readPa (pa r) 64) }) fun _ _ => rfl

section
variable {c : Ctx} {s u : State} {sparse : Bool} {m p : Nat} {b : Block}

/-- B of a format without side data, its rows transferred. -/
theorem State.readB_of_transferred (hsel : c.w.bsel = 1#2) (hside : sideBytes sparse c.w.ty = 0)
    (hresume : c.b.resumeRow c = (m, false)) (hpitch : pitchOf (c.rb.ureg c.w.c) = p) (hal : p % 64 = 0)
    (hmove : s.transfer64 c (BitVec.ofNat 64 (c.rb.ureg c.w.b.toNat)) p .read m (State.stageRow c) = (u, none)) :
    s.readB c sparse = (u.endTransfer c, .inr
      ⟨(((u.block? c.iss.blk).map (·.staging)).getD [] : Memory).slice c.stagingBase 4096 0, []⟩) := by
  unfold State.stageRow at hmove
  unfold State.readB State.readBMem
  simp only [hsel, if_true, hside, hresume, hpitch, hal, ne_eq, not_true_eq_false, if_false, Nat.mul_zero, Nat.zero_div, false_and,
    Bool.false_eq_true, hmove]

/-- What a thread that is no handler leaves of staging: nothing, once B is read from it. -/
theorem State.endTransfer_of_staged (hh : c.iss.handler = false) (f : Memory → Memory) :
    (s.modBlock c.iss.blk fun b => { b with staging := f b.staging }).endTransfer c = s.modBlock c.iss.blk Block.clearCut := by
  rw [State.endTransfer, hh, if_neg Bool.false_ne_true, State.modBlock_modBlock]
  rfl

theorem State.readB_of_reached {st : Nat → State} {pa : Nat → Nat} (hsel : c.w.bsel = 1#2) (hh : c.iss.handler = false)
    (hside : sideBytes sparse c.w.ty = 0) (hresume : c.b.resumeRow c = (m, false)) (hm : m ≤ 64)
    (hpitch : pitchOf (c.rb.ureg c.w.c) = p) (hal : p % 64 = 0)
    (hrows : ∀ r, m ≤ r → r < 64 → (st r).reach c.b ((c.on.map (·.2)).headD 0)
      (BitVec.ofNat 64 (c.rb.ureg c.w.b.toNat) + BitVec.ofNat 64 (r * p)) 64 64 .read = (st (r + 1), .pa (pa r)))
    (hb : (st 64).block? c.iss.blk = some b) : (st m).readB c sparse = ((st 64).modBlock c.iss.blk Block.clearCut, .inr
      ⟨((List.range' m (64 - m)).foldl (fun x r => x.write (64 * r) ((st 64).readPa (pa r) 64)) b.staging).slice 0 4096 0, []⟩) := by
  have hbase : c.stagingBase = 0 := by rw [Ctx.stagingBase, hh]; rfl
  have hmove := State.transfer64_of_reached (c := c) (k := .read) (put := State.stageRow c) hm
    fun r h1 h2 => ⟨hrows r h1 h2, nofun⟩
  simp only [State.foldl_stageRow, hbase, Nat.zero_add] at hmove
  rw [State.readB_of_transferred hsel hside hresume hpitch hal hmove, State.endTransfer_of_staged hh
    fun x => (List.range' m (64 - m)).foldl (fun x r => x.write (64 * r) ((st 64).readPa (pa r) 64)) x,
    State.block?_modBlock, hb, hbase]
  rfl

end

/-! ## The turns of a product (R195, R198) -/

theorem Block.shape_rows (b : Block) (r : Memory) : { b with rows := r }.shape = b.shape := rfl

theorem keeps_productOf (s : State) (c : Ctx) (sparse : Bool) (m : BTile) (tid : Nat) : Keeps s (s.productOf c sparse m tid).1 := by
  unfold State.productOf
  dsimp only
  split
  · exact .refl s
  split <;> rename_i e <;> have ha := congrArg Prod.fst e ▸ keeps_readSpan _ _ _ _ _ _
  · exact ha
  generalize hsc : (if aScaleBytes sparse c.w.ty = 0 then _ else _ : State × (Fate ⊕ List Byte)) = r
  have hr : Keeps s r.1 := by
    rw [← hsc]
    split
    · exact ha
    · exact ha.trans (keeps_readSpan _ _ _ _ _ _)
  split
  · exact hr
  split
  · exact hr.trans (keeps_coreError _ _ _ _)
  · exact hr.trans (keeps_modBlock fun b _ => Block.shape_rows b _)

/-- The product of a thread whose row, whose elements of A and whose scales are read without a fault (R198, R199). -/
theorem State.productOf_of_read {s u v : State} {c : Ctx} {sparse : Bool} {m : BTile} {tid row : Nat} {a sc : List Byte}
    (hrow : rowOf c.rb c.w.d.toNat c.w ((c.b.th tid).reg (c.w.a.toNat + 2) 1) = some row)
    (hread : s.readSpan c.b tid (BitVec.ofNat 64 ((c.b.th tid).reg c.w.a.toNat 2)) (aRowBytes sparse c.w.ty) 16 = (u, .inr a))
    (hscale : (if aScaleBytes sparse c.w.ty = 0 then (u, .inr []) else u.readSpan c.b tid
      (BitVec.ofNat 64 ((c.b.th tid).reg c.w.a.toNat 2) + ((c.b.th tid).v.getD (c.w.a.toNat + 3) 0#32).signExtend 64)
      (aScaleBytes sparse c.w.ty) 1) = (v, .inr sc))
    (hsound : v.badRow c.iss.blk row = false) : s.productOf c sparse m tid =
      (v.modBlock c.iss.blk fun b => { b with
        rows := b.rows.overlay (256 * row) 256 ((productRow sparse c.w.ty (c.w.modF 0 1 == 1) (b.rows.slice (256 * row) 256 0)
          (memOf a) (sc.map (·.toNat)) m).slice 0 256 (256 * row)) },
        .done [] (aRowBytes sparse c.w.ty + aScaleBytes sparse c.w.ty + if c.w.bsel = 1#2 then 128 else 0)) := by
  simp only [State.productOf, hrow, hread, hscale, hsound, Bool.false_eq_true, if_false]

/-- The meaning of MMA and MMASP: B is read, then each thread has its product. -/
def State.productAct (w : CWord) (sparse : Bool) (c : Ctx) (s : State) : State × List (Nat × Fate) :=
  match s.readB c sparse with
  | (s, .inl f) => s.fitAcks c (s, c.all f.whole)
  | (s, .inr m) =>
    if sparse && m.badMeta w.ty then (s, c.all (.trap { cause := .reservedField }))
    else s.together c (s.eachOf c.on fun s x => s.productOf c sparse m x.2)

section
variable {w : CWord} {c : Ctx} {s u : State} {sparse : Bool} {m : BTile}

theorem State.productAct_of_fault {k : Fate} (hread : s.readB c sparse = (u, .inl k)) (hfit : u.acksFit c) :
    s.productAct w sparse c = (u, c.all k.whole) := by
  rw [State.productAct, hread]
  exact State.fitAcks_eq hfit

theorem State.productAct_of_badMeta (hread : s.readB c sparse = (u, .inr m)) (hbad : (sparse && m.badMeta w.ty) = true) :
    s.productAct w sparse c = (u, c.all (.trap { cause := .reservedField })) := by
  rw [State.productAct, hread]
  exact if_pos hbad

theorem State.productAct_of_read (hread : s.readB c sparse = (u, .inr m)) (hgood : (sparse && m.badMeta w.ty) = false) :
    s.productAct w sparse c = u.together c (u.eachOf c.on fun s x => s.productOf c sparse m x.2) := by
  rw [State.productAct, hread]
  exact if_neg (by rw [hgood]; exact Bool.false_ne_true)

end

/-! ## An issue of rows performed for all of its threads together (R195) -/

theorem State.together_of_out {s u : State} {c : Ctx} {fs : List (Nat × Fate)} (hout : ∀ f ∈ fs, f.2.within = false)
    (hfit : u.acksFit c) : s.together c (u, fs) = (u, fs) := by
  unfold State.together
  rw [if_neg]
  · exact State.fitAcks_eq hfit
  · simpa using hout

theorem State.together_of_within {s u : State} {c : Ctx} {fs : List (Nat × Fate)} (hin : ∃ f ∈ fs, f.2.within = true) :
    s.together c (u, fs) = (s.stand c u fs, c.holdAll) := if_pos (List.any_eq_true.mpr hin)

/-! ## The obligation -/

/-- Settles O41: B is read once; then each thread has its product at its turn, or the issue stands for all of them. A float
column is a fold over blocks of eight, and their sums are exact. -/
theorem matrixProducts : Obligations.MatrixProducts := by
  refine ⟨fun w => ?_, fun sparse t a sc m n acc ht => ?_, fun xs => ?sums⟩
  case sums =>
    refine ⟨sumFp_finite, fun h => sumFp_of_undefined (.inl h), fun h k => sumFp_of_undefined (.inr ⟨h, k⟩),
      fun neg h1 h2 h3 => ?_⟩
    exact sumFp_of_infinite ⟨h1, h2, h3⟩
  · intro c' product
    have hproduct (i : Instr) (op : Nat) (sparse : Bool) (hi : ∀ s, exec i s = .next (s.product op w sparse)) :
        product i op sparse := by
      have hi' (s : State) : exec i s = .next (s.runEngine op w (State.productAct w sparse)) := hi s
      intro u m one go f read all
      have hstays (c : Ctx) (s : State) (h : ∃ b1, (u c s).block? c.iss.blk = some b1 ∧ b1.cfg = c.b.cfg ∧
          b1.threads.length = c.b.threads.length) : c.Stays (u c s) := by
        obtain ⟨b1, hb1, hcfg, hlen⟩ := h
        exact ⟨b1, hb1, fun t ht => by rwa [Block.has, hcfg, hlen]⟩
      have hturns (c : Ctx) (s : State) (hn : c.on.Nodup) :
          (u c s).eachOf c.on (fun v x => one c s v x) = (all c s, c.onFates (f c s)) := State.eachOf_eq hn _ _
      have hall (c : Ctx) (s : State) : Keeps (u c s) (all c s) :=
        Keeps.foldl (keeps_turnBy fun v x => keeps_productOf v _ _ _ _) _ _
      have hgood (c : Ctx) (s : State) (h : sparse = true → (m c s).badMeta w.ty = false) :
          (sparse && (m c s).badMeta w.ty) = false :=
        Bool.and_eq_false_imp.mpr h
      refine ⟨?done, ?held, fun hs => ?badMeta, fun k => ?fault⟩
      case done =>
        refine does_of_engineFates hi' (fun c s _ _ hok => (hstays c s hok.1.2.2.2).keeps (hall c s))
          fun c s _ hn hok => ⟨hok.1.1, ?_⟩
        obtain ⟨⟨-, hread, hmeta, -⟩, hout, hfit⟩ := hok
        refine (State.productAct_of_read hread (hgood c s hmeta)).trans ?_
        refine (congrArg (State.together _ _) (hturns c s hn)).trans (State.together_of_out ?_ hfit)
        intro k hk
        obtain ⟨x, hx, rfl⟩ := List.mem_map.mp hk
        exact hout x hx
      case held =>
        refine doesAll_of_engineHeld hi' (fun c s _ _ hok => (hstays c s hok.1.2.2.2).keeps (keeps_stand _ _ _ _))
          fun c s _ hn hok => ⟨hok.1.1, ?_⟩
        obtain ⟨⟨-, hread, hmeta, -⟩, x, hx, hin⟩ := hok
        refine (State.productAct_of_read hread (hgood c s hmeta)).trans ?_
        exact (congrArg (State.together _ _) (hturns c s hn)).trans
          (State.together_of_within ⟨_, List.mem_map_of_mem hx, hin⟩)
      case badMeta =>
        refine does_of_engineOut hi' (fun c s _ _ hok => hstays c s hok.2.2.2) (fun _ => rfl) fun c s _ hok => ⟨hok.1, ?_⟩
        obtain ⟨-, hread, hbad, -⟩ := hok
        exact State.productAct_of_badMeta hread (by rw [hs, hbad]; rfl)
      case fault =>
        refine does_of_engineFates hi' (fun c s _ _ hok => hstays c s hok.2.2.2) fun c s _ _ hok => ⟨hok.1, ?_⟩
        obtain ⟨-, hread, hfit, -⟩ := hok
        exact State.productAct_of_fault hread hfit
    refine ⟨hproduct _ _ _ fun _ => rfl, hproduct _ _ _ fun _ => rfl,
      fun hsel c s sparse hw => ?tiles, fun hsel => ?memory, ?thread⟩
    case tiles =>
      subst hw
      exact if_neg hsel
    case memory =>
      intro c s sparse m st pa b hw hh hside hresume hm hst p hal hrows hb
      subst hw hst
      rw [State.readB_of_reached hsel hh hside hresume hm rfl hal hrows hb, List.range'_eq_map_range]
    case thread =>
      intro c s u v sparse m x row a sc hw th addr n hrow hread hscale hsound out put
      subst hw
      refine State.productOf_of_read hrow hread ?_ hsound
      split at hscale <;> rename_i h
      · rw [if_pos h, hscale.1, hscale.2]
      · rw [if_neg h]; exact hscale
  · intro f p block
    rw [column_of_float ht]
    congr 1
    funext acc j
    have hprod : ((List.range 8).map fun i => floatProduct sparse t a sc m n (8 * j + i) j) =
        (List.range 8).map fun i => p (8 * j + i) := by
      refine List.map_congr_left fun i hi => ?_
      have hj : (8 * j + i) / 8 = j := by have := List.mem_range.mp hi; omega
      exact congrArg (floatProduct sparse t a sc m n (8 * j + i)) hj.symm
    rw [hprod, kBlockFloat_eq]

end Sys2Proof.Machine
end

section
/-! SUPPORT. AQNT, PRUNE, SPPACK, BSORT, BMERGE and INTSECT (R204 to R207, R414); O43. -/

namespace Sys2Proof.Machine

/-! ## Bits of a byte (R205, R206) -/

theorem countOnes_eq_countP (n x : Nat) : countOnes n x = (List.range n).countP fun i => x.testBit i := by
  rw [countOnes, List.countP_eq_length_filter]

/-- The number whose bits are the places below `n` that meet a test. -/
def bitsWhere (p : Nat → Bool) (n : Nat) : Nat := ((List.range n).filter p).foldl (fun a i => a + 2 ^ i) 0

theorem bitsWhere_succ (p : Nat → Bool) (n : Nat) : bitsWhere p (n + 1) = bitsWhere p n + if p n then 2 ^ n else 0 := by
  unfold bitsWhere
  rw [List.range_succ, List.filter_append, List.foldl_append]
  cases h : p n <;> simp [h]

theorem bitsWhere_lt (p : Nat → Bool) (n : Nat) : bitsWhere p n < 2 ^ n := by
  induction n with
  | zero => exact Nat.one_pos
  | succ n ih =>
    rw [bitsWhere_succ, pow_succ]
    split <;> omega

theorem testBit_bitsWhere (p : Nat → Bool) {n i : Nat} (hi : i < n) : (bitsWhere p n).testBit i = p i := by
  induction n with
  | zero => omega
  | succ n ih =>
    have hlt := bitsWhere_lt p n
    rw [bitsWhere_succ]
    rcases Nat.lt_succ_iff_lt_or_eq.mp hi with h | rfl
    · rw [← ih h]
      split
      · rw [Nat.add_comm, Nat.testBit_two_pow_add_gt h]
      · rfl
    · split <;> rename_i hp
      · rw [Nat.add_comm, Nat.testBit_two_pow_add_eq, Nat.testBit_lt_two_pow hlt, hp]; rfl
      · rw [Nat.add_zero, Nat.testBit_lt_two_pow hlt, Bool.not_eq_true _ |>.mp hp]

/-- Of `n` values, those that rank above one of them, as PRUNE counts them: the greater, and of equal ones the earlier. -/
def numAbove (f : Nat → Nat) (n i : Nat) : Nat :=
  let xs := (List.range n).map f
  ((List.range n).filter fun k =>
    decide (xs.getD i 0 < xs.getD k 0) || (xs.getD i 0 == xs.getD k 0 && decide (k < i))).length

theorem numAbove_eq (f : Nat → Nat) {n i : Nat} (hi : i < n) : numAbove f n i =
    (List.range n).countP fun k => decide (f i < f k ∨ (f i = f k ∧ k < i)) := by
  have hget {j : Nat} (hj : j < n) : ((List.range n).map f).getD j 0 = f j := by simp [hj]
  rw [numAbove, ← List.countP_eq_length_filter]
  refine List.countP_congr fun k hk => ?_
  rw [hget hi, hget (List.mem_range.mp hk)]
  simp

/-! ## The stable order of keys (R207) -/

theorem insertBy_perm {α : Type} (le : α → α → Bool) (x : α) (ys : List α) : (insertBy le x ys).Perm (x :: ys) := by
  induction ys with
  | nil => exact .refl _
  | cons y ys ih =>
    unfold insertBy
    split
    · exact .refl _
    · exact (ih.cons y).trans (.swap x y ys)

/-- Two participants stand in order: by their keys, equal keys by rank. -/
def Ctx.keyBefore (c : Ctx) (y z : Nat × Nat) : Prop := c.keyLe y z = true ∧ (c.keyLe z y = true → y.1 ≤ z.1)

theorem Ctx.keyLe_total (c : Ctx) (y z : Nat × Nat) : c.keyLe y z = true ∨ c.keyLe z y = true := by
  unfold Ctx.keyLe
  split <;> simp only [decide_eq_true_eq] <;> exact Nat.le_total _ _

theorem Ctx.keyLe_trans {c : Ctx} {x y z : Nat × Nat} (h : c.keyLe x y = true) (k : c.keyLe y z = true) : c.keyLe x z = true := by
  unfold Ctx.keyLe at *
  split at h <;> simp_all <;> omega

theorem Ctx.sub_perm (c : Ctx) (g rank : Nat) : (c.sub g rank).Perm (c.act.filter fun x => x.1 / g == rank / g) := sortBy_perm _ _

theorem Ctx.sub_sorted (c : Ctx) (g rank : Nat) : (c.sub g rank).Pairwise fun y z => y.1 ≤ z.1 := by
  have : Std.Total fun y z : Nat × Nat => decide (y.1 ≤ z.1) = true := ⟨fun y z => by simpa using Nat.le_total y.1 z.1⟩
  have : IsTrans (Nat × Nat) fun y z => decide (y.1 ≤ z.1) = true := ⟨fun x y z h k => by simp at h k ⊢; omega⟩
  rw [Ctx.sub, sortBy_eq_insertionSort]
  exact (List.pairwise_insertionSort _ _).imp fun h => by simpa using h

/-- Insertion of a participant before those of higher rank keeps the order. -/
theorem Ctx.keyBefore_insertBy {c : Ctx} {x : Nat × Nat} {ys : List (Nat × Nat)} (h : ys.Pairwise c.keyBefore)
    (hx : ∀ y ∈ ys, x.1 ≤ y.1) : (insertBy c.keyLe x ys).Pairwise c.keyBefore := by
  induction ys with
  | nil => exact List.pairwise_singleton _ _
  | cons y ys ih =>
    obtain ⟨hy, hys⟩ := List.pairwise_cons.mp h
    unfold insertBy
    split <;> rename_i hle
    · refine List.pairwise_cons.mpr ⟨fun z hz => ?_, h⟩
      refine ⟨?_, fun _ => hx z hz⟩
      rcases List.mem_cons.mp hz with rfl | hz
      · exact hle
      · exact Ctx.keyLe_trans hle (hy z hz).1
    · refine List.pairwise_cons.mpr ⟨fun z hz => ?_, ih hys fun z hz => hx z (List.mem_cons_of_mem _ hz)⟩
      rcases List.mem_cons.mp ((insertBy_perm _ _ _).mem_iff.mp hz) with rfl | hz
      · exact ⟨(c.keyLe_total y z).resolve_right hle, fun h => absurd h hle⟩
      · exact hy z hz

/-- The sort of keys is stable: participants that stand by rank come to stand in order. -/
theorem Ctx.keyBefore_sortBy {c : Ctx} {xs : List (Nat × Nat)} (h : xs.Pairwise fun y z => y.1 ≤ z.1) :
    (sortBy c.keyLe xs).Pairwise c.keyBefore := by
  induction xs with
  | nil => exact .nil
  | cons x xs ih =>
    obtain ⟨hx, hxs⟩ := List.pairwise_cons.mp h
    exact Ctx.keyBefore_insertBy (ih hxs) fun y hy => hx y ((sortBy_perm _ _).mem_iff.mp hy)

/-- Where no two participants have one rank, only one list of a sub-segment stands in order. -/
theorem Ctx.sortBy_eq_of_keyBefore {c : Ctx} (hn : (c.act.map (·.1)).Nodup) {g rank : Nat} {ys : List (Nat × Nat)}
    (hp : ys.Perm (c.sub g rank)) (h : ys.Pairwise c.keyBefore) : sortBy c.keyLe (c.sub g rank) = ys := by
  have hmem {y : Nat × Nat} (hy : y ∈ c.sub g rank) : y ∈ c.act := List.mem_of_mem_filter ((c.sub_perm g rank).mem_iff.mp hy)
  refine ((sortBy_perm _ _).trans hp.symm).eq_of_pairwise (fun y z hy hz h1 h2 => ?_) (Ctx.keyBefore_sortBy (c.sub_sorted g rank)) h
  have hrank : y.1 = z.1 := Nat.le_antisymm (h1.2 h2.1) (h2.2 h1.1)
  exact List.inj_on_of_nodup_map hn (hmem ((sortBy_perm _ _).mem_iff.mp hy)) (hmem (hp.mem_iff.mp hz)) hrank

/-! ## The mark of participants that disagree (R207) -/

/-- An instruction on the sub-segments of its participants. -/
theorem does_of_subSize {i : Instr} {op : Nat} {w : CWord} {ok : Ctx → State → Prop} {f : Ctx → Nat × Nat → Fate}
    {act : Ctx → State → State × List (Nat × Fate)} (hi : ∀ s, exec i s = .next (s.runIssue op w act))
    (ha : ∀ c s, c.w = w → ok c s → act c s = (if c.subSize.2 then s.modBlock c.iss.blk fun b =>
      { b with regs := { b.regs with ustat := b.regs.ustat ||| 1#32 } } else s, c.onFates (f c))) :
    Does i op w ok (fun c s => if c.subSize.2 then s.modBlock c.iss.blk fun b =>
      { b with regs := { b.regs with ustat := b.regs.ustat ||| 1#32 } } else s) fun c _ => f c := by
  refine does_of_runIssue hi (fun s iss b _ hok => ha _ s rfl hok) fun s iss b h _ => Keeps.block ?_ h.found
  split
  · exact keeps_modBlock fun _ _ => rfl
  · exact .refl s

/-! ## The obligation -/

/-- What AQNT gives a thread from its row. -/
def State.aqntRow (w : CWord) (c : Ctx) (s : State) (_ r : Nat) : State × Fate :=
  let xs := (List.range 8).map fun i => Fmt.f32.decode (c.b.rows.val (256 * r + 32 * bits w.imm 0 3 + 4 * i) 4)
  let size := if w.ty = .e2m1x8 then 4 else 8
  let packed := (quantise w.ty xs).2.zipIdx.foldl (fun a y => a + y.1 * 2 ^ (size * y.2)) 0
  s.whereSound c r (32 * bits w.imm 0 3) 32 (s, .done (
    if w.ty = .e2m1x8 then wrV w.d.toNat 2 (packed + 2 ^ 32 * (quantise w.ty xs).1)
    else wrV w.d.toNat 4 (packed + 2 ^ 64 * (quantise w.ty xs).1)))

/-- Settles O43: AQNT acts on rows as the loads and stores of rows do, PRUNE's and SPPACK's masks are read bit by bit, BSORT's
order is the only stable one. -/
theorem sparsityAndSets : Obligations.SparsityAndSets := by
  refine ⟨fun w => ?_, fun w => ?_⟩
  · intro row bad xs bits' packed th keep sal before mask
    have hbits : bits w.imm 0 3 = w.imm.toNat % 8 := by simp [bits_eq_div]
    refine ⟨?aqnt, fun out hout => ?prune, ?sppack⟩
    case aqnt =>
      refine does_rows_of_on (m := State.aqntRow w) (n := w.a.toNat) (fun c s t => ?_) (fun c hw t => ?_) (fun c s x r hw hx => ?_)
        (fun c s x r hw => ?_) (fun c s t r => keeps_whereSound (.refl s) _ _ _ _) (fun _ => rfl)
        fun c s x r hx => if_neg fun h => Bool.false_ne_true (hx.symm.trans h.1)
      · cases c.row t w.a.toNat with
        | none => rfl
        | some r => simp only [Option.elim_some, State.aqntRow, State.whereSound_eq]
      · subst hw; exact (c.entered_row t _).symm
      · rw [State.aqntRow, hbits, ← coreError_entered]
        simp only [State.whereSound, hx, true_and]
        rfl
      · rw [State.aqntRow, hbits, Ctx.entered_rows]
        refine congrArg (ite _ _) (congrArg (Fate.done · 0) ?_)
        dsimp only [bits', packed]
        by_cases hty : w.ty = .e2m1x8
        · simp only [if_pos hty]; rfl
        · simp only [if_neg hty]; rfl
    case prune =>
      refine does_of_runIssue (fun _ => rfl) (fun s iss b _ _ => Prod.ext rfl (List.map_congr_left fun x _ => ?_))
        fun _ _ b h _ => ⟨b, h.found, fun _ k => k⟩
      obtain ⟨hlt, hbit⟩ := hout (ctxOf iss 0x30A w b) x
      have hmask : out (ctxOf iss 0x30A w b) x =
          bitsWhere (fun i => decide (numAbove (sal (ctxOf iss 0x30A w b) x) 8 i < keep (ctxOf iss 0x30A w b) x)) 8 := by
        refine eq_of_testBit_lt hlt (bitsWhere_lt _ 8) fun i hi => ?_
        rw [testBit_bitsWhere _ hi, numAbove_eq _ hi, Bool.eq_iff_iff, hbit i hi, decide_eq_true_eq]
      dsimp only
      rw [hmask]
      rfl
    case sppack =>
      refine does_of_runIssue (fun _ => rfl) (fun s iss b _ _ => Prod.ext rfl (List.map_congr_left fun x _ => ?_))
        fun _ _ b h _ => ⟨b, h.found, fun _ k => k⟩
      dsimp only
      rw [countOnes_eq_countP]
  · intro g eff ps val pick low hit
    refine ⟨fun out hout => ?bsort, ?bmerge, ?intsect⟩
    case bsort =>
      refine does_of_subSize (fun _ => rfl) fun c s hw hok => Prod.ext rfl (List.map_congr_left fun x _ => ?_)
      obtain ⟨hp, hord⟩ := hout c x
      have hsort : sortBy c.keyLe (c.sub c.subSize.1 x.1) = out c x := Ctx.sortBy_eq_of_keyBefore hok hp hord
      subst hw
      simp only [hsort]
      rfl
    case bmerge => exact does_of_subSize (fun _ => rfl) fun c s hw _ => by subst hw; rfl
    case intsect => exact does_of_subSize (fun _ => rfl) fun c s hw _ => by subst hw; rfl

end Sys2Proof.Machine
end

section
/-! SUPPORT. Trap entry: what the write of a frame leaves of its block, the start of a handler, the stop of threads of
one cause (R368 to R376); O18. -/

namespace Sys2Proof.Machine

/-! ## What the write of a frame may change (R167, R174, R372, R373) -/

/-- The second block is the first but for what the write of its frame may change: its parked threads may have been woken,
and what comes of the write stands in the trap side. -/
def Block.Framed (b b' : Block) : Prop :=
  ∃ ths frame pend image, b' = { b with threads := ths, trap := { b.trap with frame, pend, image } } ∧
    ∀ n, { b'.th n with wait := (b.th n).wait } = b.th n

theorem Block.Framed.of_trap (b : Block) (frame : Option TrapInfo) (pend : Option Nat) (image : List Byte) :
    b.Framed { b with trap := { b.trap with frame, pend, image } } := ⟨_, _, _, _, rfl, fun _ => rfl⟩

theorem Block.Framed.of_wake (b : Block) (p : Parked → Bool) : b.Framed { b with threads := b.threads.map (Thread.wake p) } :=
  ⟨_, _, _, _, rfl, b.th_mapWake_frame p⟩

theorem Block.Framed.trans {b b1 b2 : Block} (h : b.Framed b1) (k : b1.Framed b2) : b.Framed b2 := by
  obtain ⟨ths1, f1, p1, i1, rfl, h⟩ := h
  obtain ⟨ths2, f2, p2, i2, rfl, k⟩ := k
  refine ⟨ths2, f2, p2, i2, rfl, fun n => ?_⟩
  exact (congrArg (fun th : Thread => { th with wait := (b.th n).wait }) (k n)).trans (h n)

/-- A thread goes on as it stood but for what it waits for. -/
theorem Block.Framed.th {b b' : Block} (h : b.Framed b') (n : Nat) :
    (b'.th n).st = (b.th n).st ∧ (b'.th n).pc = (b.th n).pc ∧ (b'.th n).v = (b.th n).v := by
  obtain ⟨-, -, -, -, -, h⟩ := h
  rw [← h n]
  exact ⟨rfl, rfl, rfl⟩

/-- The block of a number goes on as the write of its frame leaves it. -/
def State.FramedIn (n : Nat) (s t : State) : Prop := ∀ b, s.block? n = some b → ∃ b', t.block? n = some b' ∧ b.Framed b'

variable {n : Nat} {s t u : State}

theorem State.FramedIn.of_blocks (h : t.blocks = s.blocks) : State.FramedIn n s t := fun b hb =>
  ⟨b, by unfold State.block? at hb ⊢; rwa [h], .of_trap b _ _ _⟩

theorem State.FramedIn.trans (h : State.FramedIn n s t) (k : State.FramedIn n t u) : State.FramedIn n s u := by
  intro b hb
  obtain ⟨b1, hb1, h1⟩ := h b hb
  obtain ⟨b2, hb2, h2⟩ := k b1 hb1
  exact ⟨b2, hb2, h1.trans h2⟩

theorem State.FramedIn.modBlock {f : Block → Block} (hid : ∀ b, (f b).id = b.id) (h : ∀ b : Block, b.Framed (f b)) :
    State.FramedIn n s (s.modBlock n f) := fun b hb =>
  ⟨f b, by rw [State.block?_modBlock fun b hb => (hid b).trans hb, hb]; rfl, h b⟩

theorem State.framedIn_writePa (n : Nat) (s : State) (pa : Nat) (bs : List Byte) : State.FramedIn n s (s.writePa pa bs) := fun b hb =>
  ⟨_, by rw [State.block?_writePa, hb]; rfl, .of_wake b _⟩

theorem State.framedIn_writePlaces (n : Nat) (s : State) (ps : List (DWord × Nat × List Byte)) :
    State.FramedIn n s (s.writePlaces ps) :=
  List.foldlRecOn (motive := State.FramedIn n s) ps _ (.of_blocks rfl) fun t h _ _ =>
    h.trans (.trans (.of_blocks (t.takeLines_blocks _ _)) (State.framedIn_writePa n _ _ _))

theorem State.framedIn_engineWrite (n : Nat) (s : State) (core env : Nat) (va : DWord) (eats : Bool) (bss : List (List Byte)) :
    State.FramedIn n s (s.engineWrite core env va eats bss).1 := by
  unfold State.engineWrite
  split
  · exact State.framedIn_writePlaces _ _ _
  · exact .of_blocks rfl

theorem State.framedIn_startWalk (n : Nat) (s : State) (die env : Nat) (va : DWord) (k : Kind) :
    State.FramedIn n s (s.startWalk die env va k).1 := by
  unfold State.startWalk
  dsimp only
  split <;> exact .of_blocks rfl

theorem State.framedIn_putFrame (n : Nat) (s : State) (level : Nat) (bs : List Byte) :
    State.FramedIn n s (s.putFrame n level bs) := by
  unfold State.putFrame
  split
  · exact .of_blocks rfl
  · dsimp only
    split
    · exact .modBlock (fun _ => rfl) fun b => .of_trap b _ _ _
    · split
      all_goals
        rename_i he
        have hw := he ▸ State.framedIn_engineWrite n s _ _ _ _ _
      · exact hw.trans (.modBlock (fun _ => rfl) fun b => .of_trap b _ _ _)
      · exact hw.trans (.modBlock (fun _ => rfl) fun b => .of_trap b _ _ _)
      · exact (hw.trans (State.framedIn_startWalk _ _ _ _ _ _)).trans (.modBlock (fun _ => rfl) fun b => .of_trap b _ _ _)

theorem State.framedIn_writeFrame (n : Nat) (s : State) (level : Nat) : State.FramedIn n s (s.writeFrame n level) := by
  unfold State.writeFrame
  split
  · exact .of_blocks rfl
  · exact State.framedIn_putFrame _ _ _ _

/-! ## The start of the handler (R373) -/

/-- The block with its handler at the vector, at a level. -/
def Block.handling (b : Block) (level : Nat) : Block :=
  { b with trap := { b.trap with level }
           handler := { b.handler with pc := b.trap.tvec, st := .ready, wait := none, inClause := 0
                                       slots := (none, none), stall := none, fault := none, remote := none, held := none } }

theorem Block.th_handling {b : Block} {t : Nat} (level : Nat) (h : t ≠ b.cfg.bsize) : (b.handling level).th t = b.th t := by
  simp [Block.th, Block.handling, h]

/-- Two blocks have the same code, vector and frame area. -/
def Block.SameCode (b b' : Block) : Prop :=
  b'.task = b.task ∧ b'.cfg = b.cfg ∧ b'.place = b.place ∧ b'.trap.tvec = b.trap.tvec ∧ b'.trap.tsave = b.trap.tsave

/-- Code is found by the core, the task and the envelope of its block, whatever the package's blocks hold. -/
theorem State.leadByte_congr {b b' : Block} (htask : b'.task = b.task) (hcfg : b'.cfg = b.cfg) (hplace : b'.place = b.place)
    (hst : t = { s with blocks := t.blocks }) (pc : DWord) : t.leadByte b' pc = s.leadByte b pc := by
  rw [hst]
  unfold State.leadByte State.codeLine
  rw [htask, hcfg, hplace]
  rfl

theorem State.canStart_modBlock {b : Block} {f : Block → Block} (h : s.canStart b) (hf : b.SameCode (f b)) :
    (s.modBlock n f).canStart (f b) := by
  obtain ⟨h0, halign, hin, hlead⟩ := h
  obtain ⟨htask, hcfg, hplace, hvec, hsave⟩ := hf
  unfold State.canStart Block.inCode at *
  rw [hvec, hsave, hcfg, State.leadByte_congr htask hcfg hplace rfl]
  exact ⟨h0, halign, hin, hlead⟩

theorem State.startHandler_of_canStart {b : Block} (level : Nat) (hb : s.block? n = some b) (h : s.canStart b) :
    s.startHandler n level = (s.modBlock n (·.handling level)).writeFrame n level := by
  obtain ⟨h0, halign, hin, hlead⟩ := h
  have hsave : bits b.trap.tsave 0 9 = 0 := by rw [bits_eq_div]; simpa using halign
  simp only [State.startHandler, hb, h0, hsave, hin, hlead, ne_eq, not_true_eq_false, Bool.not_true, Bool.false_eq_true,
    or_self, if_false]
  rfl

/-- The handler of a changed block starts: the block holds the change and its handler, and the frame has been written. -/
theorem State.block?_startHandler {b : Block} {f : Block → Block} (level : Nat) (hb : s.block? n = some b)
    (hid : ∀ b, b.id = n → (f b).id = n) (h : (s.modBlock n f).canStart (f b)) :
    ∃ b', ((s.modBlock n f).startHandler n level).block? n = some b' ∧ ((f b).handling level).Framed b' := by
  have hf : (s.modBlock n f).block? n = some (f b) := by rw [State.block?_modBlock hid, hb]; rfl
  rw [State.startHandler_of_canStart level hf h]
  refine State.framedIn_writeFrame n _ level _ ?_
  rw [State.block?_modBlock, hf]
  rfl

/-! ## The stop of threads of one cause (R368, R369) -/

theorem groupCauses_of_one_cause (info : TrapInfo) (t : Nat) (ts : List Nat) :
    groupCauses ((t :: ts).map fun t => (t, info)) = [(info, t :: ts)] := by
  induction ts generalizing t with
  | nil => rfl
  | cons u us ih => rw [List.map_cons, groupCauses, ih]; simp

theorem sortBy_of_ascending {ts : List Nat} (h : ts.Pairwise (· < ·)) : sortBy (fun x y => decide (x ≤ y)) ts = ts := by
  rw [sortBy_eq_insertionSort]
  exact (h.imp fun h => decide_eq_true (Nat.le_of_lt h)).insertionSort_eq

/-- The cause that threads of a block share: the lowest names it. -/
def Block.causeOf (b : Block) (info : TrapInfo) (t0 : Nat) (ts : List Nat) : Held :=
  { info, tids := t0 :: ts, thr := t0, pc := (b.th t0).pc }

/-- A thread stops, and waits for what it waited for. -/
def Thread.trapNow (th : Thread) : Thread := { th with st := .trapped }

/-- The threads of a block marked as trapped. -/
def Block.mark (b : Block) (ts : List Nat) : Block := b.modThs ts (fun t => t) fun _ => Thread.trapNow

/-- Threads of a block marked as trapped, their cause held. -/
def Block.holding (b : Block) (ts : List Nat) (k : Held) : Block :=
  { b.mark ts with trap := { b.trap with held := b.trap.held ++ [k] } }

theorem Block.shape_holding (b : Block) (ts : List Nat) (k : Held) : (b.holding ts k).shape = b.shape :=
  Block.shape_foldl_modTh _ _ ts b

theorem State.trapThreads_of_coIssued {b : Block} {info : TrapInfo} {t0 : Nat} {ts : List Nat} (hb : s.block? n = some b)
    (hts : (t0 :: ts).Pairwise (· < ·)) (hstop : b.trap.stopped = false) (hco : s.coIssued n = true) :
    s.trapThreads n ((t0 :: ts).map fun t => (t, info)) = s.modBlock n (·.holding (t0 :: ts) (b.causeOf info t0 ts)) := by
  unfold State.trapThreads
  rw [hb, groupCauses_of_one_cause]
  simp only [hstop, hco, Bool.not_false, Bool.and_self, if_true, List.map_cons, List.map_nil, List.map_map,
    Function.comp_def, List.map_id', sortBy_of_ascending hts]
  rfl

theorem State.trapThreads_of_unstopped {b : Block} {info : TrapInfo} {t0 : Nat} {ts : List Nat} (hb : s.block? n = some b)
    (hts : (t0 :: ts).Pairwise (· < ·)) (hstop : b.trap.stopped = false) (hco : s.coIssued n = false) :
    s.trapThreads n ((t0 :: ts).map fun t => (t, info)) =
      (s.modBlock n (·.stop (t0 :: ts))).enter1 n (b.causeOf info t0 ts) := by
  unfold State.trapThreads
  rw [hb, groupCauses_of_one_cause]
  simp only [hstop, hco, Bool.not_false, Bool.and_false, Bool.false_eq_true, if_false, List.map_cons, List.map_nil,
    List.map_map, Function.comp_def, List.map_id', sortBy_of_ascending hts, List.append_nil, State.modBlock_id]
  rfl

/-- Marks on threads that are not the handler change threads alone. -/
theorem Block.mark_eq {b : Block} {ts : List Nat} (h : ∀ t ∈ ts, t ≠ b.cfg.bsize) :
    ∃ ths, b.mark ts = { b with threads := ths } := by
  induction ts generalizing b with
  | nil => exact ⟨_, rfl⟩
  | cons t ts ih =>
    obtain ⟨ht, hts⟩ := List.forall_mem_cons.mp h
    obtain ⟨ths, e⟩ := ih (b := { b with threads := b.threads.modify t Thread.trapNow }) hts
    refine ⟨ths, .trans ?_ e⟩
    rw [Block.mark, Block.modThs, List.foldl_cons, Block.modTh, if_neg ht]
    rfl

theorem Block.th_mark {b : Block} {ts : List Nat} (h : ∀ t ∈ ts, b.has t) (n : Nat) :
    (b.mark ts).th n = if n ∈ ts then (b.th n).trapNow else b.th n := by
  rw [Block.mark, Block.th_modThs_same (fun t => t) (f := Thread.trapNow) (fun _ => rfl) ts b (fun t ht => .inl (h t ht)),
    List.map_id']

/-- A stop leaves a block its threads, marked, without plaits and engine work. -/
theorem Block.stop_eq {b : Block} {ts : List Nat} (h : ∀ t ∈ ts, t ≠ b.cfg.bsize) :
    ∃ ths, b.stop ts = { b with threads := ths, plaits := [], engine := [], trap := { b.trap with stopped := true } } := by
  obtain ⟨ths, e⟩ := Block.mark_eq h
  have hstop : b.stop ts = { (b.mark ts).dissolveAll with engine := [], trap := { (b.mark ts).trap with stopped := true } } := rfl
  rw [hstop, e]
  exact ⟨_, rfl⟩

theorem Block.th_dissolveAll (b : Block) (n : Nat) : (b.dissolveAll.th n).st = (b.th n).st ∧
    (b.dissolveAll.th n).pc = (b.th n).pc ∧ (b.dissolveAll.th n).v = (b.th n).v := by
  by_cases hn : n = b.cfg.bsize
  · simp [Block.th, Block.dissolveAll, Block.mapTh, hn]
  · by_cases hl : n < b.threads.length <;>
      simp [Block.th, Block.dissolveAll, Block.mapTh, hn, hl, List.getD_eq_getElem?_getD]

theorem Block.th_stop {b : Block} {ts : List Nat} (h : ∀ t ∈ ts, b.has t) {t : Nat} (ht : t ∈ ts) :
    ((b.stop ts).th t).st = .trapped ∧ ((b.stop ts).th t).pc = (b.th t).pc ∧ ((b.stop ts).th t).v = (b.th t).v := by
  have hd := (b.mark ts).th_dissolveAll t
  rw [Block.th_mark h, if_pos ht] at hd
  exact hd

/-! ## The two levels (R369, R371, R376) -/

/-- The block as it enters level 1 with a cause. -/
def Block.entering (b : Block) (k : Held) : Block :=
  { b with trap := { b.trap with
      stopped := true, stopSet := k.tids
      copy := if k.info.cause = .promiseMissed then none else k.copy
      missed := if k.info.cause = .promiseMissed then k.copy else none
      wdstop := k.info.cause == .watchdog
      bank0 := { cause := tcauseWord k.info (!b.trap.held.isEmpty) k.tids.length
                 pc := k.pc, addr := k.info.addr, thr := BitVec.ofNat 32 k.thr } } }

theorem Block.th_entering (b : Block) (k : Held) (t : Nat) : (b.entering k).th t = b.th t := rfl

theorem Block.bank0_entering {b : Block} (h : b.trap.held = []) (c : Block) (info : TrapInfo) (t0 : Nat) (ts : List Nat) :
    (b.entering (c.causeOf info t0 ts)).trap.bank0 =
      { cause := BitVec.ofNat 32 (causeCode info.cause + 256 * (ts.length + 1) + 2 ^ 21 * (info.xlev % 4) +
          (if info.write then 2 ^ 23 else 0))
        pc := (c.th t0).pc, addr := info.addr, thr := BitVec.ofNat 32 t0 } := by
  rw [Block.entering, h]
  rfl

/-- A block whose threads of one cause stop has entered level 1 with it. -/
theorem State.block?_enter1_stop {b : Block} {ts : List Nat} (k : Held) (hb : s.block? n = some b)
    (hne : ∀ t ∈ ts, t ≠ b.cfg.bsize) (hs : s.canStart b) :
    ∃ b', ((s.modBlock n (·.stop ts)).enter1 n k).block? n = some b' ∧ (((b.stop ts).entering k).handling 1).Framed b' := by
  have hid (b : Block) (h : b.id = n) : (b.stop ts).id = n := (Block.shape_id (b.shape_stop ts)).trans h
  have henter : (s.modBlock n (·.stop ts)).enter1 n k =
      (s.modBlock n fun b => (b.stop ts).entering k).startHandler n 1 :=
    congrArg (State.startHandler · n 1) (State.modBlock_modBlock hid)
  rw [henter]
  refine State.block?_startHandler 1 hb hid ?_
  obtain ⟨ths, e⟩ := Block.stop_eq hne
  exact State.canStart_modBlock hs (by rw [e]; exact ⟨rfl, rfl, rfl, rfl, rfl⟩)

/-- The block whose handler takes a trap of its own, with the second bank. -/
def Block.trapping (b : Block) (info : TrapInfo) : Block :=
  { b with trap := { b.trap with
      frame := none
      bank1 := { cause := tcauseWord info (!b.trap.held.isEmpty) 1, pc := b.handler.pc, addr := info.addr
                 thr := BitVec.ofNat 32 b.cfg.bsize } } }

theorem State.handlerTrap_of_level_le_one {b : Block} (info : TrapInfo) (hb : s.block? n = some b) (hl : b.trap.level ≤ 1) :
    s.handlerTrap n info = (s.modBlock n (·.trapping info)).startHandler n 2 := by
  simp only [State.handlerTrap, hb, hl, if_true]
  rfl

theorem Block.bank1_trapping (b : Block) (info : TrapInfo) :
    (b.trapping info).trap.bank1 =
      { cause := BitVec.ofNat 32 (causeCode info.cause + 256 + (if b.trap.held = [] then 0 else 2 ^ 20) +
          2 ^ 21 * (info.xlev % 4) + (if info.write then 2 ^ 23 else 0))
        pc := b.handler.pc, addr := info.addr, thr := BitVec.ofNat 32 b.cfg.bsize } := by
  simp [Block.trapping, tcauseWord]

/-! ## The obligation -/

/-- Settles O18: threads of one cause make one group, which is entered or held; what the write of the frame may change of
the block is no part of the stop. -/
theorem trapEntry : Obligations.TrapEntry := by
  refine ⟨fun s blk b info t0 ts hb hts hin hstop hheld hco hs => ?stop, fun s blk b info t hb hlt hne hstop hco => ?mark,
    fun s blk b info hb => ⟨fun hl hs => ?level2, fun hl => ?overflow⟩⟩
  case stop =>
    have hne : ∀ t ∈ t0 :: ts, t ≠ b.cfg.bsize := fun t ht => (hin t ht).2
    obtain ⟨ths, e⟩ := Block.stop_eq hne
    obtain ⟨b', hb', hf⟩ := State.block?_enter1_stop (b.causeOf info t0 ts) hb hne hs
    rw [State.trapThreads_of_unstopped hb hts hstop hco]
    have hcfg : (b.stop (t0 :: ts)).cfg = b.cfg := by rw [e]
    have hth (t : Nat) (ht : t ∈ t0 :: ts) : (b'.th t).st = .trapped ∧ (b'.th t).pc = (b.th t).pc ∧ (b'.th t).v = (b.th t).v := by
      obtain ⟨hst, hpc, hv⟩ := hf.th t
      obtain ⟨kst, kpc, kv⟩ := Block.th_stop (fun t ht => .inr (hin t ht).1) ht
      rw [Block.th_handling 1 (hcfg ▸ hne t ht), Block.th_entering] at hst hpc hv
      exact ⟨hst.trans kst, hpc.trans kpc, hv.trans kv⟩
    rw [e] at hf
    obtain ⟨_, _, _, _, rfl, -⟩ := hf
    have hbank := Block.bank0_entering (b := { b with trap := { b.trap with stopped := true } }) hheld b info t0 ts
    exact ⟨_, hb', rfl, rfl, rfl, hheld, hbank, rfl, rfl, rfl, rfl, rfl, rfl, hth, rfl, rfl, rfl⟩
  case mark =>
    have hheld : s.trapThreads blk [(t, info)] = s.modBlock blk (·.holding [t] (b.causeOf info t [])) :=
      State.trapThreads_of_coIssued hb (List.pairwise_singleton _ t) hstop hco
    obtain ⟨ths, e⟩ := Block.mark_eq (b := b) (ts := [t]) (by simpa using hne)
    have hth := Block.th_mark (b := b) (ts := [t]) (by simpa using .inr hlt)
    refine ⟨b.holding [t] (b.causeOf info t []), ?_, ?_, rfl, ?_, ?_, fun n hn => ?_⟩
    · rw [hheld, State.block?_modBlock fun x hx => (Block.shape_id (x.shape_holding [t] _)).trans hx, hb]
      rfl
    · exact congrArg Thread.st ((hth t).trans (if_pos (List.mem_singleton_self t)))
    · rw [Block.holding, e]
    · rw [Block.holding, e]
    · exact (hth n).trans (if_neg (by simpa using hn))
  case level2 =>
    rw [State.handlerTrap_of_level_le_one info hb hl]
    obtain ⟨_, hb', _, _, _, _, rfl, -⟩ := State.block?_startHandler 2 hb (f := (·.trapping info)) (fun _ h => h)
      (State.canStart_modBlock hs ⟨rfl, rfl, rfl, rfl, rfl⟩)
    exact ⟨_, hb', rfl, rfl, rfl, b.bank1_trapping info, rfl, rfl⟩
  case overflow =>
    simp only [State.handlerTrap, hb, Nat.not_le.mpr hl, if_false]

end Sys2Proof.Machine
end

section
/-! SUPPORT. The operations of the state that leave memory as it is; O55. -/

namespace Sys2Proof.Machine

theorem State.foldl_mem {α : Type} {f : State → α → State} (h : ∀ s x, (f s x).mem = s.mem) (xs : List α) (s : State) :
    (xs.foldl f s).mem = s.mem := by
  induction xs generalizing s with
  | nil => rfl
  | cons x xs ih => exact (ih _).trans (h s x)

theorem State.foldlPair_mem {α β : Type} {f : State × β → α → State × β} (h : ∀ a x, (f a x).1.mem = a.1.mem) (xs : List α)
    (a : State × β) : (xs.foldl f a).1.mem = a.1.mem := by
  induction xs generalizing a with
  | nil => rfl
  | cons x xs ih => exact (ih _).trans (h a x)

theorem State.mem_of_pair {α : Type} {r : State × α} {t : State} {a : α} (h : r = (t, a)) : t.mem = r.1.mem := by rw [h]

@[simp] theorem State.startWalk_fst_mem (s : State) (die env va kind) : (s.startWalk die env va kind).1.mem = s.mem := by
  unfold State.startWalk
  dsimp only
  split <;> rfl

@[simp] theorem State.setHolders_mem (s : State) (die line l1) : (s.setHolders die line l1).mem = s.mem := rfl

@[simp] theorem State.modHolder_mem (s : State) (die line core f) : (s.modHolder die line core f).mem = s.mem := rfl

@[simp] theorem State.moveTokens_mem (s : State) (die line src dst n owner) :
    (s.moveTokens die line src dst n owner).mem = s.mem := by
  unfold State.moveTokens
  (repeat' split) <;> simp

@[simp] theorem State.gather_mem (s : State) (die line) : (s.gather die line).mem = s.mem := rfl

@[simp] theorem State.modRegion_mem (s : State) (region f) : (s.modRegion region f).mem = s.mem := rfl

@[simp] theorem State.setLs_mem (s : State) (line n) : (s.setLs line n).mem = s.mem := rfl

@[simp] theorem State.startRound_mem (s : State) (line writer answer) : (s.startRound line writer answer).mem = s.mem := by
  unfold State.startRound
  split <;> simp

@[simp] theorem State.ackWriter_mem (s : State) (w answer) : (s.ackWriter w answer).mem = s.mem := by
  unfold State.ackWriter
  split <;> simp

@[simp] theorem State.endRounds_mem (s : State) : s.endRounds.mem = s.mem := by
  unfold State.endRounds
  dsimp only
  refine State.foldl_mem (fun s x => ?_) _ _
  split <;> simp

@[simp] theorem State.homeTakes_mem (s : State) (line writer answer) : (s.homeTakes line writer answer).mem = s.mem := by
  unfold State.homeTakes
  dsimp only
  (repeat' split) <;> simp

@[simp] theorem State.setPort_mem (s : State) (n p) : (s.setPort n p).mem = s.mem := rfl

@[simp] theorem State.sendOn_mem (s : State) (n fs) : (s.sendOn n fs).mem = s.mem := rfl

@[simp] theorem State.sendTo_mem (s : State) (dest fs) : (s.sendTo dest fs).mem = s.mem := by
  unfold State.sendTo
  split <;> simp

@[simp] theorem State.ackedAt_mem (s : State) (pa) : (s.ackedAt pa).mem = s.mem := by
  unfold State.ackedAt
  split <;> simp

@[simp] theorem State.free_mem {α : Type} (s : State) (f : Nat → α) : (s.free f).2.mem = s.mem := rfl

@[simp] theorem State.candidate_mem (s : State) (pa) : (s.candidate pa).mem = s.mem := by
  unfold State.candidate
  dsimp only
  (repeat' split) <;> simp

@[simp] theorem State.corrected_mem (s : State) (store die addr) : (s.corrected store die addr).mem = s.mem := by
  unfold State.corrected
  dsimp only
  split <;> simp

@[simp] theorem State.correctedHbm_mem (s : State) (pa) : (s.correctedHbm pa).mem = s.mem := by
  unfold State.correctedHbm
  dsimp only
  split <;> simp

@[simp] theorem State.uncorrected_mem (s : State) (die pa task env consumer) :
    (s.uncorrected die pa task env consumer).mem = s.mem := by
  unfold State.uncorrected
  split <;> simp

@[simp] theorem State.coreError_mem (s : State) (b store consumer) : (s.coreError b store consumer).mem = s.mem := rfl

@[simp] theorem State.correctUnits_mem (s : State) (die p) : (s.correctUnits die p).mem = s.mem := by
  unfold State.correctUnits
  refine State.foldl_mem (fun s x => ?_) _ s
  (repeat' split) <;> simp

@[simp] theorem State.correctRead_mem (s : State) (pa n) : (s.correctRead pa n).mem = s.mem := by simp [State.correctRead]

@[simp] theorem State.tlbFill_mem (s : State) (core env va leaf log) : (s.tlbFill core env va leaf log).mem = s.mem := rfl

@[simp] theorem State.recallGroup_mem (s : State) (b) : (s.recallGroup b).mem = s.mem := by
  unfold State.recallGroup
  split
  · rfl
  · refine State.foldl_mem (fun s x => ?_) _ s
    split <;> simp

@[simp] theorem State.charge_mem (s : State) (blk ci ct) : (s.charge blk ci ct).mem = s.mem := by
  unfold State.charge
  dsimp only
  (repeat' split) <;> simp

@[simp] theorem State.payout_mem (s : State) (blk t x) : (s.payout blk t x).mem = s.mem := by
  unfold State.payout
  split <;> simp

@[simp] theorem State.payCycle_mem (s : State) (blk t x) : (s.payCycle blk t x).mem = s.mem := by
  unfold State.payCycle
  split <;> simp

@[simp] theorem State.payAll_mem (s : State) : s.payAll.mem = s.mem := by
  unfold State.payAll
  dsimp only
  simp [State.foldl_mem]

@[simp] theorem State.recall_mem (s : State) (blk) : (s.recall blk).mem = s.mem := by
  unfold State.recall
  (repeat' split) <;> simp

@[simp] theorem State.releasePin_mem (s : State) (blk n) : (s.releasePin blk n).mem = s.mem := by
  unfold State.releasePin
  dsimp only
  (repeat' split) <;> simp

@[simp] theorem State.completeBsync_mem (s : State) (blk) : (s.completeBsync blk).mem = s.mem := by
  unfold State.completeBsync
  dsimp only
  (repeat' split) <;> simp

@[simp] theorem State.commitVersions_mem (s : State) (task) : (s.commitVersions task).mem = s.mem := rfl

@[simp] theorem State.trigger_mem (s : State) (b) : (s.trigger b).mem = s.mem := by
  unfold State.trigger
  dsimp only
  (repeat' split) <;> simp

@[simp] theorem State.noteTrigger_mem (s : State) (blk) : (s.noteTrigger blk).mem = s.mem := by
  unfold State.noteTrigger
  (repeat' split) <;> simp

@[simp] theorem State.noteEnd_mem (s : State) (blk) : (s.noteEnd blk).mem = s.mem := by
  unfold State.noteEnd
  dsimp only
  (repeat' split) <;> simp

@[simp] theorem State.noteRecord_mem (s : State) (b tid ps) : (s.noteRecord b tid ps).mem = s.mem := by
  unfold State.noteRecord
  dsimp only
  simp [State.foldl_mem]

@[simp] theorem State.noteFilter_mem (s : State) (core line) : (s.noteFilter core line).mem = s.mem := by
  unfold State.noteFilter
  dsimp only
  (repeat' split) <;> simp

@[simp] theorem State.dropFilter_mem (s : State) (cluster line) : (s.dropFilter cluster line).mem = s.mem := by
  unfold State.dropFilter
  split <;> simp

@[simp] theorem State.filterFor_mem (s : State) (core line) : (s.filterFor core line).mem = s.mem := by
  unfold State.filterFor
  dsimp only
  (repeat' split) <;> simp

@[simp] theorem State.evictLines_mem (s : State) (core ls) : (s.evictLines core ls).mem = s.mem := by
  unfold State.evictLines
  dsimp only
  simp [State.foldl_mem]

@[simp] theorem State.evict_mem (s : State) (core keep) : (s.evict core keep).mem = s.mem := by simp [State.evict]

@[simp] theorem State.shrinkL1s_mem (s : State) (cores) : (s.shrinkL1s cores).mem = s.mem := by
  unfold State.shrinkL1s
  dsimp only
  simp [State.foldl_mem]

@[simp] theorem State.modReq_mem (s : State) (core line f) : (s.modReq core line f).mem = s.mem := rfl

@[simp] theorem State.closeReq_mem (s : State) (core line) : (s.closeReq core line).mem = s.mem := rfl

@[simp] theorem State.pruneReqs_mem (s : State) : s.pruneReqs.mem = s.mem := rfl

@[simp] theorem State.addRemote_mem (s : State) (die line) : (s.addRemote die line).mem = s.mem := by
  unfold State.addRemote
  dsimp only
  (repeat' split) <;> simp

@[simp] theorem State.raise_mem (s : State) (core line write blk) : (s.raise core line write blk).mem = s.mem := by
  unfold State.raise
  dsimp only
  (repeat' split) <;> simp

@[simp] theorem State.reclaim_mem (s : State) (region) : (s.reclaim region).mem = s.mem := by
  unfold State.reclaim
  dsimp only
  (repeat' split) <;> simp [State.foldl_mem]

theorem State.homeServes_mem {s t : State} {d line : Nat} (h : s.homeServes d line = some t) : t.mem = s.mem := by
  unfold State.homeServes at h
  split at h
  · split at h
    · cases h
    · cases h
      simp
  · cases h
    rfl

@[simp] theorem State.remoteRead_mem (s : State) (reader line) : (s.remoteRead reader line).mem = s.mem := by
  simp only [State.remoteRead]
  split
  · rfl
  · split
    · rfl
    · split
      · split <;> simp
      · split
        · rfl
        · next hs => exact (State.homeServes_mem hs :)

@[simp] theorem State.fill_mem (s : State) (die line) : (s.fill die line).mem = s.mem := by
  unfold State.fill
  split <;> simp

@[simp] theorem State.recordCluster_mem (s : State) (core line) : (s.recordCluster core line).mem = s.mem := by
  unfold State.recordCluster
  split <;> simp

@[simp] theorem State.respond_mem (s : State) (core line source) : (s.respond core line source).mem = s.mem := by
  unfold State.respond
  dsimp only
  (repeat' split) <;> simp

@[simp] theorem State.dropCopies_mem (s : State) (n line last) : (s.dropCopies n line last).mem = s.mem := by
  unfold State.dropCopies
  split <;> simp

@[simp] theorem State.invalidate_mem (s : State) (place line) : (s.invalidate place line).mem = s.mem := by
  unfold State.invalidate
  dsimp only
  (repeat' split) <;> simp

@[simp] theorem State.homeWrite_mem (s : State) (d line writer) : (s.homeWrite d line writer).1.mem = s.mem := by
  unfold State.homeWrite
  dsimp only
  (repeat' split) <;> simp

@[simp] theorem State.l1Access_mem (s : State) (core line write blk) : (s.l1Access core line write blk).1.mem = s.mem := by
  unfold State.l1Access
  split
  · rfl
  · refine (State.foldl_mem (fun s x => ?_) _ _).trans ?_
    · split <;> simp
    · split <;> simp

@[simp] theorem State.l1Made_mem (s : State) (core line write) : (s.l1Made core line write).mem = s.mem := by
  unfold State.l1Made
  split <;> simp

@[simp] theorem State.gateLine_mem (s : State) (b tid line k nc) : (s.gateLine b tid line k nc).1.mem = s.mem := by
  unfold State.gateLine
  dsimp only
  split
  · simp
  · split
    any_goals rfl
    · split
      · rename_i h
        exact State.homeServes_mem h
      · rfl
    all_goals
      split
      · simp
      · split <;> simp

@[simp] theorem State.gate_mem (s : State) (b tid pa n k nc) : (s.gate b tid pa n k nc).1.mem = s.mem := rfl

@[simp] theorem State.unmade_mem (s : State) (t) : (s.unmade t).mem = s.mem := rfl

@[simp] theorem State.dropPeerLine_mem (s : State) (line) : (s.dropPeerLine line).mem = s.mem := rfl

@[simp] theorem State.sweep_mem (s : State) : s.sweep.mem = s.mem := by
  unfold State.sweep
  dsimp only
  (repeat' split) <;> simp [State.foldl_mem]

@[simp] theorem State.quarantine_mem (s : State) (die pkg why) : (s.quarantine die pkg why).mem = s.mem := by
  unfold State.quarantine
  split <;> simp

@[simp] theorem State.forgetPackage_mem (s : State) (pkg) : (s.forgetPackage pkg).mem = s.mem := by simp [State.forgetPackage]

@[simp] theorem State.arrive_mem (s : State) (iss op) : (s.arrive iss op).mem = s.mem := by
  unfold State.arrive
  split
  · rfl
  refine State.foldl_mem (fun s x => ?_) _ s
  split
  · rfl
  dsimp only
  (repeat' split) <;> simp

@[simp] theorem State.noteEarly_mem (s : State) (c ts) : (s.noteEarly c ts).mem = s.mem := by
  unfold State.noteEarly
  split <;> simp

@[simp] theorem State.aluAct_mem (s : State) (op w f c) : (State.aluAct op w f c s).1.mem = s.mem := by
  unfold State.aluAct
  (repeat' split) <;> simp

@[simp] theorem State.locate_mem (s : State) (b tid va size align k direct) :
    (s.locate b tid va size align k direct).1.mem = s.mem := by
  unfold State.locate
  extract_lets write bad
  split
  · rfl
  split
  · rfl
  split
  · rfl
  split
  · rfl
  · rfl
  split
  · rfl
  split
  · rfl
  · rfl
  · split <;> rfl
  · exact State.startWalk_fst_mem _ _ _ _ _

@[simp] theorem State.answered_mem (s : State) (n va pa size write) : (s.answered n va pa size write).1.mem = s.mem := by
  unfold State.answered
  dsimp only
  (repeat' split) <;> simp

@[simp] theorem State.correctL1_mem (s : State) (core pa n) : (s.correctL1 core pa n).mem = s.mem := by simp [State.correctL1]

@[simp] theorem State.consume_mem (s : State) (b va pa size write here) :
    (s.consume b va pa size write here).1.mem = s.mem := by
  unfold State.consume
  dsimp only
  (repeat' split) <;> simp

@[simp] theorem State.letIn_mem (s : State) (b tid va pa size k) : (s.letIn b tid va pa size k).1.mem = s.mem := by
  unfold State.letIn
  dsimp only
  split
  · rename_i h
    simp [State.mem_of_pair h]
  · rename_i h
    split
    · simp [State.mem_of_pair h]
    · split
      · rename_i k
        simp [State.mem_of_pair k, State.mem_of_pair h]
      · simp [State.mem_of_pair h]

@[simp] theorem State.readHome_mem (s : State) (b tid va size align) : (s.readHome b tid va size align).1.mem = s.mem := by
  unfold State.readHome
  split <;> rename_i h <;> simp [State.mem_of_pair h]

@[simp] theorem State.reach_mem (s : State) (b tid va size align k direct) :
    (s.reach b tid va size align k direct).1.mem = s.mem := by
  unfold State.reach
  split <;> rename_i h <;> simp [State.mem_of_pair h]

theorem State.eachOf_mem {f : State → Nat × Nat → State × Fate} (h : ∀ s x, (f s x).1.mem = s.mem) (xs : List (Nat × Nat))
    (s : State) :
    (s.eachOf xs f).1.mem = s.mem := by
  unfold State.eachOf
  refine (State.foldlPair_mem (fun a x => ?_) _ _).trans rfl
  dsimp only
  split
  · simp
  · exact h _ _

theorem State.fitAcks_mem {s : State} {c : Ctx} {r : State × List (Nat × Fate)} (h : r.1.mem = s.mem) :
    (s.fitAcks c r).1.mem = s.mem := by
  unfold State.fitAcks
  split
  · exact h
  · rfl

@[simp] theorem State.placeFor_mem (s : State) (b tid va n size align) : (s.placeFor b tid va n size align).1.mem = s.mem := by
  unfold State.placeFor
  split <;> rename_i h <;> simp [State.mem_of_pair h]

@[simp] theorem State.locateSpan_mem (s : State) (b tid k size align ps) :
    (s.locateSpan b tid k size align ps).1.mem = s.mem := by
  induction ps generalizing s align with
  | nil => rfl
  | cons p ps ih =>
    unfold State.locateSpan
    have hr : (if k = .write then s.placeFor b tid p.1 p.2 size align else s.locate b tid p.1 size align k).1.mem = s.mem := by
      split <;> simp
    split
    · rename_i h
      rw [h] at hr
      exact hr
    · rename_i h
      rw [h] at hr
      split <;> rename_i k <;> simp [State.mem_of_pair k, ih, ← hr]

@[simp] theorem State.readPlaces_mem (s : State) (b tid va ps) : (s.readPlaces b tid va ps).1.mem = s.mem := by
  induction ps generalizing s with
  | nil => rfl
  | cons p ps ih =>
    unfold State.readPlaces
    split
    · rename_i h
      simp [State.mem_of_pair h]
    · rename_i h
      split <;> rename_i k <;> simp [State.mem_of_pair k, ih, State.mem_of_pair h]

@[simp] theorem State.readSpan_mem (s : State) (b tid va n align) : (s.readSpan b tid va n align).1.mem = s.mem := by
  unfold State.readSpan
  split <;> rename_i h <;> simp [State.mem_of_pair h]

@[simp] theorem State.scratchWrite_mem (s : State) (blk off bs) : (s.scratchWrite blk off bs).mem = s.mem := by
  simp [State.scratchWrite]

@[simp] theorem State.scratchConsume_mem (s : State) (b blk off n addr) :
    (s.scratchConsume b blk off n addr).1.mem = s.mem := by
  unfold State.scratchConsume
  split <;> simp

@[simp] theorem State.staleLine_mem (s : State) (k unit task line va) : (s.staleLine k unit task line va).1.mem = s.mem := by
  unfold State.staleLine
  dsimp only
  (repeat' split) <;> simp

@[simp] theorem State.staleRead_mem (s : State) (k unit task va pa n) : (s.staleRead k unit task va pa n).1.mem = s.mem := by
  unfold State.staleRead
  dsimp only
  split <;> simp

@[simp] theorem State.skipPads_mem (s : State) (blk tids) : (s.skipPads blk tids).mem = s.mem := by
  unfold State.skipPads
  split <;> simp

@[simp] theorem State.cachedLine_mem (s : State) (b sect line off) : (s.cachedLine b sect line off).1.mem = s.mem := by
  unfold State.cachedLine
  dsimp only
  (repeat' split) <;> simp

@[simp] theorem State.fetch_mem (s : State) (b iss) : (s.fetch b iss).1.mem = s.mem := by
  unfold State.fetch
  extract_lets tid th pc line
  have h := State.cachedLine_mem s b (((b.plaits.find? (·.id == iss.plait)).map (·.sect)).getD 0) line (pc.toNat % 64)
  generalize s.cachedLine b _ line _ = r at h ⊢
  obtain ⟨t, c⟩ := r
  split
  · rfl
  · cases c with
    | some c =>
      dsimp only
      split
      · exact h
      · split <;> exact h
    | none =>
      dsimp only
      split
      · exact (State.foldl_mem (fun s x => by simp) _ _).trans h
      · split <;> exact h

@[simp] theorem State.readLine_mem (s : State) (b line) : (s.readLine b line).1.mem = s.mem := by
  unfold State.readLine
  extract_lets mk va
  (repeat' split) <;> simp

@[simp] theorem State.cacheLine_mem (s : State) (c) : (s.cacheLine c).mem = s.mem := rfl

@[simp] theorem State.beginFill_mem (s : State) (c) : (s.beginFill c).mem = s.mem := rfl

@[simp] theorem State.endFill_mem (s : State) (old c) : (s.endFill old c).1.mem = s.mem := rfl

@[simp] theorem State.fillWith_mem (s : State) (c) : (s.fillWith c).1.mem = s.mem := by
  unfold State.fillWith
  dsimp only
  (repeat' split) <;> simp

@[simp] theorem State.refreshCore_mem (s : State) (core) : (s.refreshCore core).mem = s.mem := rfl

@[simp] theorem State.refreshPools_mem (s : State) (blk) : (s.refreshPools blk).mem = s.mem := by
  unfold State.refreshPools
  split <;> simp

@[simp] theorem State.form_mem (s : State) (blk pc group) : (s.form blk pc group).mem = s.mem := by
  unfold State.form
  dsimp only
  (repeat' split) <;> simp

@[simp] theorem State.endVictims_mem (s : State) (before) : (s.endVictims before).mem = s.mem := by
  unfold State.endVictims
  dsimp only
  split <;> simp

@[simp] theorem State.noteIssue_mem (s : State) (iss) : (s.noteIssue iss).mem = s.mem := by simp [State.noteIssue]

@[simp] theorem State.settleIssue_mem (s : State) (iss) : (s.settleIssue iss).mem = s.mem := by
  unfold State.settleIssue
  (repeat' split) <;> simp

@[simp] theorem State.correctArea_mem (s : State) (d rs) : (s.correctArea d rs).mem = s.mem := by
  unfold State.correctArea
  split
  · rfl
  · refine State.foldl_mem (fun s p => ?_) _ s
    simp

@[simp] theorem State.promiseAgain_mem (s : State) (x) : (s.promiseAgain x).mem = s.mem := rfl

@[simp] theorem State.park_mem (s : State) (c tid old q) : (s.park c tid old q).1.mem = s.mem := by
  unfold State.park
  dsimp only
  (repeat' split) <;> simp

@[simp] theorem State.transfer_mem (s : State) (c target ws tid) : (s.transfer c target ws tid).1.mem = s.mem := by
  unfold State.transfer
  split
  · rfl
  · split
    · exact State.startWalk_fst_mem _ _ _ _ _
    · rfl

theorem State.setReel_mem {s u : State} {n : Nat} {t : Bool} {v : Nat} (h : s.setReel n t v = some u) : u.mem = s.mem := by
  unfold State.setReel at h
  split at h
  · cases h
    rfl
  · dsimp only at h
    split at h
    · split at h
      · cases h
      · cases h
        simp
    · cases h
      split <;> simp

@[simp] theorem State.accumulate_mem (s : State) (c v) : (s.accumulate c v).mem = s.mem := rfl

@[simp] theorem State.inArrival_mem (key : Nat × Nat → DWord) (k) (s : State) (xs) :
    (State.inArrival key k s xs).1.mem = s.mem := by
  induction k generalizing s xs with
  | zero => rfl
  | succ k ih =>
    cases xs with
    | nil => rfl
    | cons x xs =>
      unfold State.inArrival
      dsimp only
      split <;> simp [ih]

@[simp] theorem State.waitaddrAct_mem (s : State) (old c x) : (State.waitaddrAct old c s x).1.mem = s.mem := by
  unfold State.waitaddrAct
  extract_lets n va b
  split
  · rename_i h
    simp [State.mem_of_pair h]
  · rename_i h
    extract_lets hit
    split <;> simp [State.mem_of_pair h]

@[simp] theorem State.parkAct_mem (s : State) (old c x) : (State.parkAct old c s x).1.mem = s.mem := by
  unfold State.parkAct
  extract_lets va b
  split
  · rfl
  · split
    · rename_i h
      simp [State.mem_of_pair h]
    · rename_i h
      split <;> simp [State.mem_of_pair h]

@[simp] theorem State.dropLine_mem (s : State) (b op pa) : (s.dropLine b op pa).mem = s.mem := by
  unfold State.dropLine
  split <;> simp

@[simp] theorem State.moveToSlot_mem (s : State) (x) : (s.moveToSlot x).mem = s.mem := rfl

theorem State.lend_mem {s s0 t : State} {core : Nat} {r : LaunchRec} {lent : Nat → Nat} {xs : List (Nat × Nat)}
    (h : s.lend s0 core r lent xs = some t) : t.mem = s.mem := by
  induction xs generalizing s lent with
  | nil =>
    unfold State.lend at h
    split at h <;> cases h
    rfl
  | cons x xs ih =>
    unfold State.lend at h
    dsimp only at h
    split at h
    · cases h
      rfl
    · split at h
      · simpa using ih h
      · exact ih h

theorem State.roomFor_mem {s : State} {core : Nat} {r : LaunchRec} {p : State × Plan} (h : s.roomFor core r = some p) :
    p.1.mem = s.mem := by
  unfold State.roomFor at h
  split at h
  · cases h
  · split at h
    · cases h
      rfl
    · obtain ⟨t, ht, rfl⟩ := Option.map_eq_some_iff.mp h
      exact State.lend_mem ht

@[simp] theorem State.occupy_mem (s : State) (b core p fresh) : (s.occupy b core p fresh).mem = s.mem := by simp [State.occupy]

@[simp] theorem State.refillReel_mem (s : State) (b t) : (s.refillReel b t).mem = s.mem := by
  unfold State.refillReel
  dsimp only
  (repeat' split) <;> simp

@[simp] theorem State.refill_mem (s : State) (blk) : (s.refill blk).mem = s.mem := by
  unfold State.refill
  dsimp only
  (repeat' split) <;> simp

@[simp] theorem State.refillAll_mem (s : State) : s.refillAll.mem = s.mem := by
  unfold State.refillAll
  exact State.foldl_mem (fun s x => by simp) _ s

@[simp] theorem State.afterInline_mem (s : State) (blk x) : (s.afterInline blk x).mem = s.mem := by
  unfold State.afterInline
  split <;> simp

@[simp] theorem State.newId_mem (s : State) : s.newId.2.mem = s.mem := rfl

@[simp] theorem State.payPools_mem (s : State) (env i t) : (s.payPools env i t).mem = s.mem := by
  unfold State.payPools
  split <;> simp

@[simp] theorem State.modTile_mem (s : State) (env tile f) : (s.modTile env tile f).mem = s.mem := rfl

@[simp] theorem State.registerTile_mem (s : State) (t tile homePa) : (s.registerTile t tile homePa).mem = s.mem := by
  unfold State.registerTile
  dsimp only
  (repeat' split) <;> simp

@[simp] theorem State.register_mem (s : State) (t) : (s.register t).mem = s.mem := by
  unfold State.register
  exact State.foldl_mem (fun s x => by simp) _ s

@[simp] theorem State.tidyTile_mem (s : State) (env tile) : (s.tidyTile env tile).mem = s.mem := by
  unfold State.tidyTile
  dsimp only
  (repeat' split) <;> simp

@[simp] theorem State.settleReels_mem (s : State) (t) : (s.settleReels t).mem = s.mem := by
  unfold State.settleReels
  split <;> simp

@[simp] theorem State.cascade_mem (s : State) (x) : (s.cascade x).mem = s.mem := rfl

@[simp] theorem State.fillParam_mem (s : State) (t core) : (s.fillParam t core).mem = s.mem := by
  unfold State.fillParam
  refine State.foldl_mem (fun s x => ?_) _ s
  (repeat' split) <;> simp

theorem State.placeBlock_mem {s u : State} {t : Task} {bid core : Nat}
    (h : s.placeBlock t bid core = some u) : u.mem = s.mem := by
  unfold State.placeBlock at h
  obtain ⟨p, hp, rfl⟩ := Option.map_eq_some_iff.mp h
  simpa using State.roomFor_mem hp

theorem State.placeUnit_mem {s u : State} {t : Task} {cores bids : List Nat} (h : s.placeUnit t cores bids = some u) :
    u.mem = s.mem := by
  induction bids generalizing s with
  | nil =>
    cases h
    rfl
  | cons bid rest ih =>
    unfold State.placeUnit at h
    split at h
    · cases h
    · split at h
      · cases h
      · rename_i hb
        exact (ih h).trans (State.placeBlock_mem hb)

@[simp] theorem State.unitRead_mem (s : State) (b tid va n align) : (s.unitRead b tid va n align).1.mem = s.mem := by
  unfold State.unitRead
  split
  · rename_i h
    simp [State.mem_of_pair h]
  · rename_i h
    refine (State.foldlPair_mem (fun a p => ?_) _ _).trans (by simp [State.mem_of_pair h])
    split
    · rfl
    · split <;> rename_i k <;> simp [State.mem_of_pair k]

@[simp] theorem State.fetchAct_mem (s : State) (c x) : (State.fetchAct c s x).1.mem = s.mem := by
  simp only [State.fetchAct]
  split
  · rename_i h
    simp [State.mem_of_pair h]
  · rename_i h
    have h := (State.mem_of_pair h).trans (State.unitRead_mem _ _ _ _ _ _)
    split
    · exact h
    · rename_i d _
      generalize (if d.ty.isNone = true then 16 else d.bits) = bits
      split
      · exact h
      split
      · exact h
      split
      · exact h
      split
      · rename_i k
        simp [State.mem_of_pair k, h]
      · rename_i k
        have k := ((State.mem_of_pair k).trans (State.unitRead_mem _ _ _ _ _ _)).trans h
        split
        · split <;> rename_i j <;> simp [State.mem_of_pair j, k]
        · split
          · split <;> rename_i j <;> simp [State.mem_of_pair j, k]
          · exact k

@[simp] theorem State.reachFuture_mem (s : State) (c tid va k) : (s.reachFuture c tid va k).1.mem = s.mem := by
  unfold State.reachFuture
  split
  · rename_i h
    simp [State.mem_of_pair h]
  · rename_i h
    split <;> simp [State.mem_of_pair h]

@[simp] theorem State.noteTake_mem (s : State) (c tid va pa take) : (s.noteTake c tid va pa take).mem = s.mem := by
  unfold State.noteTake
  split <;> simp [State.noteWrite_mem]

@[simp] theorem State.reachMailbox_mem (s : State) (c tid va k kind recv) :
    (s.reachMailbox c tid va k kind recv).1.mem = s.mem := by
  unfold State.reachMailbox
  split
  · rename_i h
    simp [State.mem_of_pair h]
  · rename_i h
    split
    · simp [State.mem_of_pair h]
    · split
      · simp [State.mem_of_pair h]
      · simp [State.mem_of_pair h]
    · simp [State.mem_of_pair h]
    · split
      · rename_i k
        simp [State.mem_of_pair k, State.mem_of_pair h]
      · rename_i k
        split <;> simp [State.mem_of_pair k, State.mem_of_pair h]

theorem State.movePortions_mem {s u : State} {b : Block} {i t : Nat} (h : s.movePortions b i t = .inl u) : u.mem = s.mem := by
  unfold State.movePortions at h
  dsimp only at h
  split at h
  · split at h <;> cases h
    simp
  · split at h
    · cases h
    · cases h
      split <;> simp

@[simp] theorem State.reachRecord_mem (s : State) (c tid va k) : (s.reachRecord c tid va k).1.mem = s.mem := by
  simp [State.reachRecord]

@[simp] theorem State.barwAct_mem (s : State) (old c x) : (State.barwAct old c s x).1.mem = s.mem := by
  unfold State.barwAct State.reachRecord
  extract_lets va
  split
  · rename_i h
    simp [State.mem_of_pair h]
  · rename_i h
    split <;> simp [State.mem_of_pair h]

theorem State.placeNext_mem {s u : State} {t : Task} {core : Nat} (h : s.placeNext t core = some u) : u.mem = s.mem := by
  unfold State.placeNext at h
  split at h
  · exact State.placeUnit_mem h
  · cases h

@[simp] theorem State.endMoves_mem (s : State) (task core) : (s.endMoves task core).mem = s.mem := rfl

@[simp] theorem State.claimMove_mem (s : State) (blk t) : (s.claimMove blk t).mem = s.mem := rfl

@[simp] theorem State.makeRoom_mem (s : State) (t) : (s.makeRoom t).mem = s.mem := by
  unfold State.makeRoom
  (repeat' split) <;> simp

@[simp] theorem State.answerThreads_mem (s : State) (id f) : (s.answerThreads id f).mem = s.mem := rfl

@[simp] theorem State.answerCopies_mem (s : State) (id) : (s.answerCopies id).mem = s.mem := rfl

@[simp] theorem State.dropWalk_mem (s : State) (id) : (s.dropWalk id).mem = s.mem := rfl

@[simp] theorem State.correctWalk_mem (s : State) (env va) : (s.correctWalk env va).mem = s.mem := by
  unfold State.correctWalk
  exact State.foldl_mem (fun s x => by simp) _ s

@[simp] theorem State.fillTlbs_mem (s : State) (w cores e log) : (s.fillTlbs w cores e log).mem = s.mem :=
  (State.foldl_mem (fun s c => State.tlbFill_mem s c _ _ _ _) _ _).trans rfl

@[simp] theorem State.fire_mem (s : State) (fn vec) : (s.fire fn vec).mem = s.mem := by
  unfold State.fire
  split <;> simp

@[simp] theorem State.faultId_mem (s : State) (die) : (s.faultId die).2.mem = s.mem := rfl

@[simp] theorem State.setFqBase_mem (s : State) (die value) : (s.setFqBase die value).mem = s.mem := rfl

@[simp] theorem State.shoot_mem (s : State) (env va len) : (s.shoot env va len).mem = s.mem := rfl

@[simp] theorem State.dropRange_mem (s : State) (x) : (s.dropRange x).mem = s.mem := rfl

@[simp] theorem State.gatherPage_mem (s : State) (pa len) : (s.gatherPage pa len).mem = s.mem := rfl

@[simp] theorem State.relocate_mem (s : State) (old target len) : (s.relocate old target len).mem = s.mem := rfl

@[simp] theorem State.reply_mem (s : State) (source ok bs) : (s.reply source ok bs).mem = s.mem := rfl

@[simp] theorem State.peerTakes_mem (s : State) (source pa n answer) : (s.peerTakes source pa n answer).mem = s.mem := by
  unfold State.peerTakes
  split <;> simp

@[simp] theorem State.portDown_mem (s : State) (n) : (s.portDown n).mem = s.mem := by
  unfold State.portDown
  dsimp only
  (repeat' split) <;> simp [State.foldl_mem]

@[simp] theorem State.portFail_mem (s : State) (n) : (s.portFail n).mem = s.mem := by
  unfold State.portFail
  dsimp only
  split <;> simp

@[simp] theorem State.portReject_mem (s : State) (n f) : (s.portReject n f).mem = s.mem := by
  unfold State.portReject
  dsimp only
  (repeat' split) <;> simp

@[simp] theorem State.restartAcks_mem (s : State) : s.restartAcks.mem = s.mem := rfl

@[simp] theorem State.revoke_mem (s : State) (pkg) : (s.revoke pkg).mem = s.mem := by
  unfold State.revoke
  exact State.foldl_mem (fun s x => by simp) _ s

@[simp] theorem State.setDrops_mem (s : State) (die queue n) : (s.setDrops die queue n).mem = s.mem := rfl

@[simp] theorem State.dropDoorbell_mem (s : State) (fn die queue) : (s.dropDoorbell fn die queue).mem = s.mem := by
  simp [State.dropDoorbell]

@[simp] theorem State.holdHost_mem (s : State) (fn req) : (s.holdHost fn req).mem = s.mem := rfl

@[simp] theorem State.hostReply_mem (s : State) (ok bs) : (s.hostReply ok bs).mem = s.mem := rfl

@[simp] theorem State.readQstat_mem (s : State) (fn die queue) : (s.readQstat fn die queue).mem = s.mem := by
  unfold State.readQstat
  split <;> simp

@[simp] theorem State.readBar_mem (s : State) (fn offset) : (s.readBar fn offset).mem = s.mem := by
  unfold State.readBar
  (repeat' split) <;> simp

@[simp] theorem State.hostXlate_mem (s : State) (env va k) : (s.hostXlate env va k).1.mem = s.mem := by
  unfold State.hostXlate
  (repeat' split) <;> simp

@[simp] theorem State.hostReach_mem (s : State) (fn addr k n) : (s.hostReach fn addr k n).1.mem = s.mem := by
  unfold State.hostReach
  (repeat' split) <;> simp

@[simp] theorem State.payReel_mem (s : State) (blk traffic amount) : (s.payReel blk traffic amount).mem = s.mem := rfl

@[simp] theorem State.manage_mem {s : State} {f : State → Nat × List Byte × State} (h : (f s).2.2.mem = s.mem) :
    (s.manage f).mem = s.mem := by
  unfold State.manage
  split
  · rfl
  · exact h

@[simp] theorem State.command_mem {s : State} {busy ok : Bool} {f : State → State} (h : (f s).mem = s.mem) :
    (s.command busy ok f).mem = s.mem := by
  refine State.manage_mem ?_
  split
  · rfl
  · split
    · rfl
    · exact h

@[simp] theorem State.takeReadings_mem (s : State) : s.takeReadings.mem = s.mem := rfl

@[simp] theorem State.setLimit_mem (s : State) (watts) : (s.setLimit watts).mem = s.mem := by simp [State.setLimit]

@[simp] theorem State.freezeAll_mem (s : State) (sideband) : (s.freezeAll sideband).mem = s.mem := by
  unfold State.freezeAll
  split <;> rfl

@[simp] theorem State.freezeCommand_mem (s : State) : s.freezeCommand.mem = s.mem := by simp [State.freezeCommand]

@[simp] theorem State.noteReset_mem (s : State) (arg) : (s.noteReset arg).mem = s.mem := rfl

@[simp] theorem State.opens_mem (s : State) : s.opens.mem = s.mem := rfl

@[simp] theorem State.emptied_mem (s : State) : s.emptied.mem = s.mem := rfl

@[simp] theorem State.stayInReset_mem (s : State) (fw) : (s.stayInReset fw).mem = s.mem := rfl

@[simp] theorem State.warmBoot_mem (s : State) : s.warmBoot.mem = s.mem := by
  unfold State.warmBoot
  dsimp only
  split <;> simp

@[simp] theorem State.bboxRead_mem (s : State) (die) : (s.bboxRead die).mem = s.mem :=
  State.manage_mem (by split <;> rfl)

@[simp] theorem State.envSet_mem (s : State) (env field value) : (s.envSet env field value).mem = s.mem := by
  simp [State.envSet]

@[simp] theorem State.quarClear_mem (s : State) (pkg) : (s.quarClear pkg).mem = s.mem :=
  State.command_mem (by split <;> rfl)

@[simp] theorem State.cacheReset_mem (s : State) (pkg) : (s.cacheReset pkg).mem = s.mem := State.command_mem rfl

@[simp] theorem State.retireCommit_mem (s : State) (die frame) : (s.retireCommit die frame).mem = s.mem := by
  refine State.manage_mem ?_
  split
  · rfl
  · split <;> rfl

@[simp] theorem State.setAckto_mem (s : State) (ns) : (s.setAckto ns).mem = s.mem := by simp [State.setAckto]

@[simp] theorem State.setRlc_mem (s : State) (die mib) : (s.setRlc die mib).mem = s.mem := State.command_mem rfl

@[simp] theorem State.dbgAttach_mem (s : State) (env attach) : (s.dbgAttach env attach).mem = s.mem := by simp [State.dbgAttach]

@[simp] theorem State.errCounts_mem (s : State) : s.errCounts.mem = s.mem := by simp [State.errCounts]

@[simp] theorem State.reading_mem {s : State} {x : Sensor} {now : Nat × State} (h : now.2.mem = s.mem) :
    (s.reading x now).2.mem = s.mem := by
  unfold State.reading
  split
  · rfl
  · exact h

@[simp] theorem State.sense_mem (s : State) (x) : (s.sense x).2.mem = s.mem := by
  unfold State.sense
  split
  case h_4 | h_5 => exact State.reading_mem rfl
  case h_6 => exact State.reading_mem rfl
  all_goals rfl

@[simp] theorem State.spdm_mem (s : State) (code body) : (s.spdm code body).mem = s.mem := by simp [State.spdm]

@[simp] theorem State.mctpControl_mem (s : State) (body) : (s.mctpControl body).mem = s.mem := rfl

@[simp] theorem State.healRows_mem (s : State) (blk off n) : (s.healRows blk off n).mem = s.mem := by simp [State.healRows]

@[simp] theorem State.stand_mem (s : State) (c t fs) : (s.stand c t fs).mem = s.mem := by
  unfold State.stand
  exact State.foldl_mem (fun s x => by simp) _ _

@[simp] theorem State.together_mem {s : State} {c : Ctx} {r : State × List (Nat × Fate)} (h : r.1.mem = s.mem) :
    (s.together c r).1.mem = s.mem := by
  unfold State.together
  split
  · exact State.stand_mem s c r.1 r.2
  · exact State.fitAcks_mem h

@[simp] theorem State.transferRows_mem (s : State) (b tid x pitch k all n row) :
    (s.transferRows b tid x pitch k all n row).1.mem = s.mem := by
  induction n generalizing s row with
  | zero => rfl
  | succ n ih =>
    unfold State.transferRows
    dsimp only
    split
    · rename_i h
      simp [State.mem_of_pair h]
    · rename_i h
      split <;> simp [State.mem_of_pair h, ih]

@[simp] theorem State.noteCut_mem (s : State) (c row side) : (s.noteCut c row side).mem = s.mem := by
  unfold State.noteCut
  split <;> simp

theorem State.transfer64_mem {put : State → Nat × DWord × Nat → State} (h : ∀ s r, (put s r).mem = s.mem)
    (s : State) (c x pitch k from') : (s.transfer64 c x pitch k from' put).1.mem = s.mem := by
  unfold State.transfer64
  dsimp only
  split
  · simp [State.foldl_mem h]
  · split <;> simp [State.foldl_mem h]

@[simp] theorem State.endTransfer_mem (s : State) (c) : (s.endTransfer c).mem = s.mem := by
  unfold State.endTransfer
  split <;> simp

@[simp] theorem State.putQuad_mem (s : State) (blk row c x) : (s.putQuad blk row c x).mem = s.mem := by simp [State.putQuad]

@[simp] theorem State.readChunks_mem (s : State) (b tid ps) : (s.readChunks b tid ps).1.mem = s.mem := by
  induction ps generalizing s with
  | nil => rfl
  | cons p ps ih =>
    unfold State.readChunks
    split
    · rename_i h
      simp [State.mem_of_pair h]
    · rename_i h
      split <;> rename_i k <;> simp [State.mem_of_pair k, ih, State.mem_of_pair h]

/-- The rows of B that a product reads are moved into staging alone. -/

@[simp] theorem State.readBMem_mem (s : State) (c sparse) : (s.readBMem c sparse).1.mem = s.mem := by
  unfold State.readBMem
  extract_lets w p side nSide bad tid
  clear_value nSide
  split
  · rfl
  split
  · rfl
  obtain ⟨from', sideOnly⟩ := c.b.resumeRow c
  dsimp -zeta only
  extract_lets r
  have h : r.1.mem = s.mem := by
    dsimp only [r]
    split
    · rfl
    · exact State.transfer64_mem (fun s r => by simp) _ _ _ _ _ _
  clear_value r
  obtain ⟨u, _ | f⟩ := r
  · dsimp only
    split
    · simpa using h
    · split
      · rename_i k
        split <;> rename_i j <;> simpa [State.mem_of_pair j, State.mem_of_pair k] using h
      · rename_i k
        simpa [State.mem_of_pair k] using h
  · exact h

@[simp] theorem State.readB_mem (s : State) (c sparse) : (s.readB c sparse).1.mem = s.mem := by
  unfold State.readB
  dsimp only
  split <;> simp

@[simp] theorem State.productOf_mem (s : State) (c sparse m tid) : (s.productOf c sparse m tid).1.mem = s.mem := by
  unfold State.productOf
  extract_lets w th addr nRow nScale sAddr
  split
  · rfl
  split
  · rename_i h
    simp [State.mem_of_pair h]
  · rename_i u a h
    have h : u.mem = s.mem := by simp [State.mem_of_pair h]
    generalize hr : (if nScale = 0 then (u, .inr []) else u.readSpan c.b tid sAddr nScale 1 : State × (Fate ⊕ List Byte)) = r
    have k : r.1.mem = s.mem := by
      rw [← hr]
      split <;> simp [h]
    obtain ⟨v, f | sc⟩ := r
    · exact k
    · dsimp only
      split <;> simpa using k

@[simp] theorem State.prefetchLine_mem (s : State) (b line bytes) : (s.prefetchLine b line bytes).mem = s.mem := by
  unfold State.prefetchLine
  dsimp only
  split
  · rfl
  · split
    · rename_i h
      split <;> simp [State.mem_of_pair h]
    · rfl

@[simp] theorem State.prefetchOn_mem (s : State) (core task line) : (s.prefetchOn core task line).mem = s.mem := by
  unfold State.prefetchOn
  split <;> simp

@[simp] theorem State.fillLine_mem (s : State) (core task line) : (s.fillLine core task line).mem = s.mem := by
  unfold State.fillLine
  split
  · simp
  · split
    · rfl
    · split
      · rename_i h
        simp [State.mem_of_pair h]
      · rename_i h
        split
        · rename_i k
          simp [State.mem_of_pair k, State.mem_of_pair h]
        · rename_i k
          split <;> simp [State.mem_of_pair k, State.mem_of_pair h]

@[simp] theorem State.rotateSection_mem (s : State) (core sect) : (s.rotateSection core sect).mem = s.mem := by
  unfold State.rotateSection
  dsimp only
  split
  · rfl
  split
  · split <;> simp
  · exact State.foldl_mem (fun s x => by simp) _ s

@[simp] theorem State.strikeBad_mem (s : State) (u) : (s.strikeBad u).mem = s.mem := by
  unfold State.strikeBad
  (repeat' split) <;> simp

@[simp] theorem State.strikeEntry_mem (s : State) (kind a die) : (s.strikeEntry kind a die).mem = s.mem := by
  unfold State.strikeEntry
  (repeat' split) <;> simp

@[simp] theorem State.strike_mem (s : State) (x) : (s.strike x).mem = s.mem := by
  unfold State.strike
  (repeat' split) <;> simp

@[simp] theorem State.pass_mem (s : State) (dt kcyc sub) : (s.pass dt kcyc sub).mem = s.mem := rfl

@[simp] theorem State.advance_mem (s : State) (dt) : (s.advance dt).mem = s.mem := by
  unfold State.advance
  split <;> simp

@[simp] theorem State.nextCycle_mem (s : State) : s.nextCycle.mem = s.mem := by
  unfold State.nextCycle
  split <;> simp

@[simp] theorem State.noteCycle_mem (s : State) (i) : (s.noteCycle i).mem = s.mem := rfl

end Sys2Proof.Machine
end

section
/-! SUPPORT. The operations of the state that write memory keep its canonical form; O55. -/

namespace Sys2Proof.Machine

theorem Canon.of_pair {α : Type} {s t : State} {r : State × α} {a : α} (h : r = (t, a)) (k : Canon s r.1) : Canon s t := by
  rw [h] at k; exact k
theorem Canon.of_snd {α : Type} {s t : State} {r : α × State} {a : α} (h : r = (a, t)) (k : Canon s r.2) : Canon s t := by
  rw [h] at k; exact k
theorem Canon.foldlPair {α β : Type} {f : State × β → α → State × β} (h : ∀ a x, Canon a.1 (f a x).1) (xs : List α)
    (a : State × β) :
    Canon a.1 (xs.foldl f a).1 := by
  induction xs generalizing a with
  | nil => exact .refl _
  | cons x xs ih => exact (h a x).trans (ih _)
theorem Canon.of_mem_eq {s t u : State} (h : u.mem = t.mem) (k : Canon s t) : Canon s u := k.trans (.of_mem h)

theorem Canon.ite {s t u : State} {p : Prop} [Decidable p] (ht : Canon s t) (hu : Canon s u) : Canon s
    (if p then t else u) := by
  split
  · exact ht
  · exact hu

theorem Canon.ite_fst {α : Type} {s : State} {r q : State × α} {p : Prop} [Decidable p] (hr : Canon s r.1) (hq : Canon s q.1) :
    Canon s (if p then r else q).1 := by
  split
  · exact hr
  · exact hq

/-- What an inline child's start leaves has a canonical memory where the state before it had one. -/
def CanonInline (s : State) : Inline → Prop
  | .failed t | .started t | .stall t _ => Canon s t
  | .trap _ | .notReady => True

theorem canon_runEach (s : State) (op w f) : Canon s (s.runEach op w f) := by
  unfold State.runEach
  exact canon_runIssue _ _ _ fun c s => .refl _

theorem canon_writeSpan (s : State) (b tid va bs align) : Canon s (s.writeSpan b tid va bs align).1 := by
  unfold State.writeSpan
  split
  · next h => exact .of_pair h (.of_mem (by simp))
  · next u ps h =>
    have hu : Canon s u := .of_pair h (.of_mem (by simp))
    have hw := hu.trans (Canon.foldlPair (f := fun (a : State × List Byte) (p : Nat × Nat) =>
      (a.1.writePa p.1 (a.2.take p.2), a.2.drop p.2)) (fun a p => canon_writePa a.1 _ _) ps (u, bs))
    dsimp only
    split
    · exact .after (canon_noteWrite _ _ _ _ _ _ _) hw
    · exact hw

theorem canon_settle (s : State) (isss) : Canon s (s.settle isss) := by
  unfold State.settle
  dsimp only
  refine .after (Canon.foldl (fun s x => .of_mem (by simp)) _ _) ?_
  have hs : Canon s (isss.foldl (fun s i => s.enterHeld i.blk) (isss.foldl State.noteIssue
      ({ s with cur := none, mate := none, ahead := none } : State).payAll)) :=
    .after (Canon.foldl (fun s x => canon_enterHeld _ _) _ _)
      (.after (Canon.foldl (fun s x => .of_mem (by simp)) _ _) (.of_mem (by simp)))
  split
  · split
    · exact .of_mem_eq (State.settleIssue_mem ..) hs
    · exact .of_mem_eq (State.settleIssue_mem ..) (.of_mem_eq (State.settleIssue_mem ..) hs)
  · exact .after (Canon.foldl (fun s x => .of_mem (by simp)) _ _) hs

theorem canon_close (s : State) (iss) : Canon s (s.close iss) := by
  unfold State.close
  split
  · exact .of_mem rfl
  · exact canon_settle _ _

theorem canon_closeNone (s : State) : Canon s s.closeNone := by
  unfold State.closeNone
  exact canon_settle _ _

theorem canon_putRange (s : State) (pa off len m) : Canon s (s.putRange pa off len m) := by
  unfold State.putRange
  refine .after (canon_wake _ _) fun h => ?_
  exact Memory.wf_overlay (by simpa using h) _ _ _

theorem canon_putRanges (s : State) (d rs m) : Canon s (s.putRanges d rs m).1 := by
  unfold State.putRanges
  split
  · exact .refl _
  · split
    · exact .refl _
    · exact Canon.foldl (fun s p => canon_putRange _ _ _ _ _) _ _

theorem canon_checkBarrier (s : State) (pa) : Canon s (s.checkBarrier pa) := by
  unfold State.checkBarrier
  split
  · exact .after (canon_wake _ _) (.after (canon_putPa _ _ _ _) (canon_putPa _ _ _ _))
  · exact .refl _

theorem canon_subBeats (s : State) (pa n) : Canon s (s.subBeats pa n) := by
  unfold State.subBeats
  exact .after (canon_checkBarrier _ _) (.after (canon_putPa _ _ _ _) (.of_mem (by simp)))

theorem canon_stopLate (s : State) (b h) : Canon s (s.stopLate b h) := by
  unfold State.stopLate
  split
  · exact .of_mem rfl
  split
  · exact canon_killContext _ _ _ _ _ _ _
  · exact canon_trapBlock _ _ _

theorem canon_copyFault (s : State) (c t onRecord) : Canon s (s.copyFault c t onRecord) := by
  unfold State.copyFault
  dsimp only
  split
  · exact .of_mem rfl
  · exact .after (canon_stopLate _ _ _) (.of_mem rfl)

theorem canon_copyPoison (s : State) (b c pa va) : Canon s (s.copyPoison b c pa va) := by
  unfold State.copyPoison
  exact .after (canon_killContext _ _ _ _ _ _ _) (.of_mem (by simp))

theorem canon_copyBeatRecord (s : State) (b c) : Canon s (s.copyBeatRecord b c) := by
  unfold State.copyBeatRecord
  split
  · exact .refl _
  split
  · split
    · exact canon_copyPoison _ _ _ _ _
    dsimp only
    split
    · exact .of_mem_eq (State.dropCopy_mem ..) (canon_subBeats _ _ _)
    · exact .of_mem_eq (State.modCopy_mem ..) (canon_subBeats _ _ _)
  · exact canon_copyFault _ _ _ _
  · exact .of_mem (by simp)

theorem canon_copyStep (s : State) (c) : Canon s (s.copyStep c) := by
  unfold State.copyStep
  split
  · exact .of_mem rfl
  next b _ =>
  refine .ite (canon_copyBeatRecord _ _ _) (.ite (.refl _) ?_)
  dsimp only
  split
  · exact canon_copyFault _ _ _ _
  · exact .of_mem (by simp)
  · exact canon_copyFault _ _ _ _
  · exact .of_mem (by simp)
  have hr : Canon s (match s.copyEnd b c true with
      | .pa p => (s.tellAt false p).correctRead p (c.segment b)
      | _ => s) := by
    split
    · exact .of_mem (by simp)
    · exact .refl _
  have hw (u : State) (bytes : List Byte) : Canon u (match s.copyEnd b c false with
      | .pa p => ((u.tellAt true p).takeLines p (c.segment b)).writePa p bytes
      | .scratch o => u.scratchWrite c.blk o bytes
      | _ => u) := by
    split
    · exact .after (canon_writePa _ _ _) (.of_mem (by simp))
    · exact canon_scratchWrite _ _ _ _
    · exact .refl _
  refine .ite (.after (canon_copyPoison _ _ _ _ _) hr) (.ite (.after (canon_killContext _ _ _ _ _ _ _) hr) ?_)
  have hm (bytes : List Byte) := hr.trans (hw _ bytes)
  exact .ite (.after (canon_copyBeatRecord _ _ _) (.of_mem_eq (State.modCopy_mem ..) (hm _))) (.of_mem_eq
      (State.modCopy_mem ..) (hm _))

theorem canon_missPromise (s : State) (c) : Canon s (s.missPromise c) := by
  unfold State.missPromise
  split
  · exact .refl _
  dsimp only
  split
  · exact .of_mem rfl
  · exact .after (canon_trapBlock _ _ _) (.of_mem rfl)

theorem canon_copyResume (s : State) (id skip) : Canon s (s.copyResume id skip) := by
  unfold State.copyResume
  split
  · exact .refl _
  split
  · exact .of_mem rfl
  split
  · exact .of_mem rfl
  dsimp only
  split
  · exact .of_mem rfl
  · exact .after (canon_copyBeatRecord _ _ _) (.of_mem rfl)

theorem canon_runTransfer (s : State) (op w target ws) : Canon s (s.runTransfer op w target ws) := by
  unfold State.runTransfer
  exact canon_runIssue _ _ _ fun c s => canon_eachOf (fun s x => .of_mem (by simp)) _ _

theorem canon_runFates (s : State) (op w f) : Canon s (s.runFates op w f) := by
  unfold State.runFates
  exact canon_runIssue _ _ _ fun c s => .refl _

theorem canon_pinAt (s : State) (op w align) : Canon s (s.pinAt op w align) := by
  unfold State.pinAt
  exact canon_runFates _ _ _ _

theorem canon_writeSelector (s : State) (blk tid kind num wide x) : Canon s (s.writeSelector blk tid kind num wide x) := by
  unfold State.writeSelector
  split
  · exact canon_exitThreads _ _ _
  · exact .of_mem (by simp)

theorem canon_runInt (s : State) (op w sat f) : Canon s (s.runInt op w sat f) := by
  unfold State.runInt
  exact canon_runAlu _ _ _ _

theorem canon_runBits (s : State) (op w f) : Canon s (s.runBits op w f) := by
  unfold State.runBits
  exact canon_runAlu _ _ _ _

theorem canon_runShift (s : State) (op w f) : Canon s (s.runShift op w f) := by
  unfold State.runShift
  exact canon_runAlu _ _ _ _

theorem canon_runUnary (s : State) (op w f) : Canon s (s.runUnary op w f) := by
  unfold State.runUnary
  exact canon_runAlu _ _ _ _

theorem canon_runFloat (s : State) (op w g) : Canon s (s.runFloat op w g) := by
  unfold State.runFloat
  exact canon_runAlu _ _ _ _

theorem canon_runFn (s : State) (op w g) : Canon s (s.runFn op w g) := by
  unfold State.runFn
  exact canon_runAlu _ _ _ _

theorem canon_runCross (s : State) (op w f) : Canon s (s.runCross op w f) := by
  unfold State.runCross
  exact canon_runEach _ _ _ _

theorem canon_consumeBank (s : State) (c op tid va pa n) : Canon s (s.consumeBank c op tid va pa n).1 := by
  unfold State.consumeBank
  split
  · next h => exact .of_pair h (.of_mem rfl)
  split
  · next h _ => exact .after (canon_killContext _ _ _ _ _ _ _) (.after (canon_uncorrected _ _ _ _ _ _) (.of_pair h
      (.of_mem rfl)))
  · next h _ => exact .after (canon_consume _ _ _ _ _ _ _) (.of_pair h (.of_mem rfl))

theorem canon_runBank (s : State) (op w bytes host f) : Canon s (s.runBank op w bytes host f) := by
  unfold State.runBank
  refine canon_runIssue _ _ _ fun c s => ?_
  split
  · exact .refl _
  extract_lets n addr
  have hx : Canon s (State.inArrival addr c.on.length s c.on).1 := canon_inArrival _ _ _ _
  generalize State.inArrival addr c.on.length s c.on = r at hx ⊢
  refine hx.trans (canon_fitAcks (canon_eachOf (fun s x => ?_) _ _))
  split
  · next h => exact .of_pair h (canon_locate _ _ _ _ _ _ _ _)
  next pa h =>
  refine Canon.trans (.of_pair h (canon_locate _ _ _ _ _ _ _ _)) ?_
  split
  · exact .refl _
  split
  · next u fate h =>
    refine Canon.trans (.of_pair h (canon_consumeBank _ _ _ _ _ _ _)) ?_
    have hm : Canon u (if u.homeOf pa = some .host && fate != .again then u.free Config.arrived else (false, u)).2 := by
      split
      · exact .of_mem (by simp)
      · exact .refl _
    generalize (if u.homeOf pa = some .host && fate != .again then u.free Config.arrived else (false, u)) = r at hm ⊢
    dsimp only
    split
    · exact .after (canon_writePa _ _ _) hm
    · exact hm
  · next h => exact .after (canon_storeAt _ _ _ _ _ _) (.of_pair h (canon_consumeBank _ _ _ _ _ _ _))

theorem canon_saveFault (s : State) (b k a) : Canon s (s.saveFault b k a) := by
  unfold State.saveFault
  split
  · dsimp only
    refine .after (canon_killContext _ _ _ _ _ _ _) ?_
    split
    · exact .of_mem (by simp)
    · exact .refl _
  · exact .of_mem (by simp)

theorem canon_savePoison (s : State) (b u) : Canon s (s.savePoison b u) := by
  unfold State.savePoison
  exact .after (canon_killContext _ _ _ _ _ _ _) (.of_mem rfl)

theorem canon_saveBlock (s : State) (blk kind) : Canon s (s.saveBlock blk kind) := by
  unfold State.saveBlock
  split
  · exact .refl _
  split
  · exact .refl _
  extract_lets u b masks live stay parts
  have hu : Canon s u := canon_modBlock _ _ _
  split
  · exact .after (canon_savePoison _ _ _) hu
  have hp := hu.trans (canon_putRanges u b.saveDest (parts.map fun p => (p.off, p.len)) (parts.map (·.m)).flatten)
  split
  · next h => exact .after (canon_saveFault _ _ _ _) (.of_pair h hp)
  · next h =>
    refine .of_mem_eq (State.refreshCore_mem _ _) (.after (canon_modBlock _ _ _) (.of_mem_eq ?_ (.of_pair h hp)))
    exact State.foldl_mem (fun s x => State.promiseAgain_mem s x) _ _

theorem canon_saveGroup (s : State) (b) : Canon s (s.saveGroup b) := by
  unfold State.saveGroup
  dsimp only
  split
  · exact .refl _
  split
  · exact canon_saveBlock _ _ _
  · exact Canon.foldl (fun s x => .of_mem_eq (State.refill_mem ..) (canon_saveBlock _ _ _)) _ _

theorem canon_leave (s : State) (b) : Canon s (s.leave b) := by
  unfold State.leave
  exact .after (canon_saveGroup _ _) (Canon.foldl (f := fun s (x : Block) => s.modBlock x.id Block.depart)
      (fun s x => canon_modBlock _ _ _) _ _)

theorem canon_fillRestored (s : State) (b m) : Canon s (s.fillRestored b m) := by
  unfold State.fillRestored
  exact .after (Canon.foldl (fun s x => canon_missPromise _ _) _ _) (.after (Canon.foldl
      (fun s x => canon_trapBlock _ _ _) _ _) (.after (Canon.foldl (fun s x => canon_unwait _ _) _ _) (.of_mem (by simp))))

theorem canon_imageFault {s t : State} {bs : List Block} (h : s.imageFault bs = some t) : Canon s t := by
  obtain ⟨b, -, hb⟩ := List.exists_of_findSome?_eq_some h
  split at hb
  · cases hb
    exact canon_saveFault _ _ _ _
  · cases hb

theorem canon_restoreOn (s : State) (b core) : Canon s (s.restoreOn b core) := by
  unfold State.restoreOn
  split
  · exact .refl _
  next u p hr =>
  dsimp only
  split
  · exact canon_saveFault _ _ _ _
  split
  · exact .of_mem (by simpa using State.roomFor_mem hr)
  · exact .of_mem_eq (State.refreshCore_mem ..) (.after (canon_fillRestored _ _ _) (.of_mem
      (by simpa using State.roomFor_mem hr)))

theorem canon_restoreGroup {s t : State} {bs : List Block} {cores : List Nat} (h : s.restoreGroup bs cores = some t) :
    Canon s t := by
  induction bs generalizing s with
  | nil =>
    cases h
    exact .refl _
  | cons b rest ih =>
    unfold State.restoreGroup at h
    split at h
    · cases h
    · exact Canon.trans (canon_restoreOn _ _ _) (ih h)

theorem canon_restoreAt (s : State) (b core) : Canon s (s.restoreAt b core) := by
  unfold State.restoreAt
  extract_lets unit
  split
  · exact .refl _
  · split
    · exact .refl _
    · next t h =>
      cases hf : s.imageFault unit with
      | none => exact canon_restoreGroup h
      | some u => exact canon_imageFault hf

theorem canon_rotate (s : State) (b g next) : Canon s (s.rotate b g next) := by
  unfold State.rotate
  dsimp only
  split
  · exact .after (canon_savePoison _ _ _) (.of_mem rfl)
  split
  · next h => exact .after (canon_saveFault _ _ _ _) (.of_pair h (.after (canon_putRanges _ _ _ _) (.of_mem rfl)))
  split
  · next h _ _ _ => exact .after (canon_saveFault _ _ _ _) (.of_pair h (.after (canon_putRanges _ _ _ _) (.of_mem rfl)))
  · next h _ _ _ => exact .after (canon_modBlock _ _ _) (.of_pair h (.after (canon_putRanges _ _ _ _) (.of_mem rfl)))

theorem canon_fillFuture (s : State) (pa value) : Canon s (s.fillFuture pa value) := by
  unfold State.fillFuture
  exact .after (canon_wake _ _) (.after (canon_putPa _ _ _ _) (canon_putPa _ _ _ _))

theorem canon_report (s : State) (die env future task kind value) : Canon s (s.report die env future task kind value) := by
  unfold State.report
  split
  · exact .refl _
  dsimp only
  split
  · exact .of_mem rfl
  split
  · split
    · exact .of_mem rfl
    · exact .after (canon_fillFuture _ _ _) (.of_mem (by simp))
  · exact .of_mem rfl

theorem canon_failLaunch (s : State) (die m id x) : Canon s (s.failLaunch die m id x) := by
  unfold State.failLaunch
  dsimp only
  split
  · exact .of_mem (by simp)
  split
  · refine .after (canon_event _ _ _ _ _ _ _) ?_
    split
    · exact .of_mem (by simp)
    split
    · next h => exact .of_pair h (.after (canon_engineWrite _ _ _ _ _ _) (.of_mem (by simp)))
    · exact .of_mem (by simp)
  refine .after (canon_report _ _ _ _ _ _ _) ?_
  split
  · exact .of_mem (by simp)
  split
  · next h => exact .of_pair h (.after (canon_engineWrite _ _ _ _ _ _) (.of_mem (by simp)))
  · exact .of_mem (by simp)

theorem canon_storeTranslation (s : State) (t) : Canon s (s.storeTranslation t) := by
  unfold State.storeTranslation
  split
  · exact .refl _
  · exact fun h => Memory.wf_write h _ _

theorem canon_writeTaskId (s : State) (die m id) : Canon s (s.writeTaskId die m id) := by
  unfold State.writeTaskId
  split
  · next h => exact .of_pair h (canon_engineWrite _ _ _ _ _ _)
  · exact .refl _

theorem canon_accept (s : State) (die m x parent) : Canon s (s.accept die m x parent).1 := by
  unfold State.accept
  have hs : Canon s s.newId.2 := .of_mem (by simp)
  generalize s.newId = r at hs ⊢
  obtain ⟨id, u⟩ := r
  dsimp only at hs ⊢
  split
  · refine .after (canon_failLaunch _ _ _ _ _) ?_
    split
    · exact .after (canon_writeTaskId _ _ _ _) hs
    · exact hs
  · next a =>
    have ha := (hs.trans (canon_writeTaskId _ die m id)).trans (canon_storeTranslation _ a.transl)
    dsimp only
    split
    · exact ha
    · exact ha.trans (canon_modEnv _ _ _)

theorem canon_failTask (s : State) (t) : Canon s (s.failTask t) := by
  unfold State.failTask
  exact .after (canon_failLaunch _ _ _ _ _) (.of_mem (by simp))

theorem canon_startTask (s : State) (t) : Canon s (s.startTask t) := by
  unfold State.startTask
  dsimp only
  refine .after (canon_modTask _ _ _) ?_
  refine Canon.foldl (fun s x => ?_) _ _
  split
  · exact .refl _
  split
  · split <;> exact canon_putRange _ _ _ _ _
  · exact .refl _

theorem canon_bringHome (s : State) (e v) : Canon s (s.bringHome e v) := by
  unfold State.bringHome
  split
  · exact .refl _
  · exact canon_putRange _ _ _ _ _

theorem canon_writeBackTile (s : State) (env tile) : Canon s (s.writeBackTile env tile) := by
  unfold State.writeBackTile
  split
  · exact .refl _
  split
  · exact .of_mem (by simp)
  · exact .of_mem_eq (State.tidyTile_mem ..) (.of_mem_eq (State.modTile_mem ..) (canon_bringHome _ _ _))

theorem canon_finishTile (s : State) (task env tile) : Canon s (s.finishTile task env tile) := by
  unfold State.finishTile
  split
  · exact .refl _
  split
  · exact .refl _
  · exact canon_bringHome _ _ _

theorem canon_endVersions (s : State) (t) : Canon s (s.endVersions t) := by
  unfold State.endVersions
  exact .after (Canon.foldl (fun s x => .after (canon_writeBackTile _ _ _) (canon_finishTile _ _ _ _)) _ _) (.of_mem rfl)

theorem canon_restoreProducer (s : State) (p tid) : Canon s (s.restoreProducer p tid) := by
  unfold State.restoreProducer
  dsimp only
  split
  · exact .of_mem rfl
  split
  · exact .of_mem rfl
  · exact .after (canon_restoreOn _ _ _) (.of_mem rfl)

theorem canon_complete (s : State) (t) : Canon s (s.complete t) := by
  unfold State.complete
  have hc : Canon s (if t.ending.isSome then s.cascade t else s) := .ite (.of_mem (State.cascade_mem _ _)) (.refl _)
  generalize (if t.ending.isSome then s.cascade t else s) = u at hc ⊢
  have hr (v : State) : Canon v (((v.endVersions t).settleReels t).report t.die t.cfg.envelope t.cfg.future t.id
      t.reportValue.1 t.reportValue.2) :=
    .after (canon_report _ _ _ _ _ _ _) (.of_mem_eq (State.settleReels_mem ..) (canon_endVersions _ _))
  dsimp only
  split
  · exact fun h => hr _ (hc h)
  · exact .after (canon_restoreProducer _ _ _) fun h => hr _ (hc h)

theorem canon_acopyAct (s : State) (c x) : Canon s (State.acopyAct c s x).1 := by
  unfold State.acopyAct
  dsimp only
  iterate 8
    refine .ite_fst (.refl _) ?_
  have hr (rec' : DWord) (beats : Nat) : Canon s (if rec' = 0#64 then (s, none) else
      match s.reach c.b x.2 rec' 16 16 .atomic with
      | (s, .no f) => (s, some f)
      | (s, .pa pa) =>
        if 2 ^ 32 ≤ s.valPa (pa + 12) 4 + beats then (s, some Fate.stay) else (s.putPa (pa + 12) 4 (s.valPa
            (pa + 12) 4 + beats), none)).1 := by
    split
    · exact .refl _
    split
    · next h => exact .of_pair h (canon_reach _ _ _ _ _ _ _ _)
    next h =>
    split
    · exact .of_pair h (canon_reach _ _ _ _ _ _ _ _)
    · exact .after (canon_putPa _ _ _ _) (.of_pair h (canon_reach _ _ _ _ _ _ _ _))
  split
  · next h => exact .of_pair h (hr _ _)
  next h =>
  have h := Canon.of_pair h (hr _ _)
  split
  · exact h
  · exact .of_mem_eq (by simp) h

theorem canon_addWaiter (s : State) (pa) : Canon s (s.addWaiter pa) := by
  unfold State.addWaiter
  dsimp only
  split
  · exact .refl _
  · exact canon_putPa _ _ _ _

theorem canon_takeFuture (s : State) (pa take) : Canon s (s.takeFuture pa take).1 := by
  unfold State.takeFuture
  split
  · exact .after (canon_putPa _ _ _ _) (canon_putPa _ _ _ _)
  · exact .refl _

theorem canon_fgetAct (s : State) (old c x) : Canon s (State.fgetAct old c s x).1 := by
  unfold State.fgetAct
  dsimp only
  split
  · next h => exact .of_pair h (.of_mem (by simp))
  split
  · next h _ => exact .of_mem_eq (State.noteTake_mem ..) (.after (canon_takeFuture _ _ _) (.of_pair h (.of_mem (by simp))))
  refine .of_mem_eq (State.park_mem ..) ?_
  split
  · refine .after (canon_addWaiter _ _) ?_
    split
    · next h _ _ _ => exact .of_mem_eq (State.noteTake_mem ..) (.of_pair h (.of_mem (by simp)))
    · next h _ _ _ => exact .of_pair h (.of_mem (by simp))
  split
  · next h _ _ _ => exact .of_mem_eq (State.noteTake_mem ..) (.of_pair h (.of_mem (by simp)))
  · next h _ _ _ => exact .of_pair h (.of_mem (by simp))

theorem canon_mbsendAct (s : State) (c x) : Canon s (State.mbsendAct c s x).1 := by
  unfold State.mbsendAct
  extract_lets va off
  split
  · exact .refl _
  split
  · next h => exact .of_mem (by simp [State.mem_of_pair h])
  next h =>
  have h := (State.mem_of_pair h).trans (State.reachMailbox_mem _ _ _ _ _ _ _)
  split
  · exact .of_mem (by simp [State.noteWrite_mem, h])
  split
  · exact .of_mem h
  extract_lets slot
  split
  · next k => exact .of_mem (by simp [State.mem_of_pair k, h])
  next k =>
  have k := ((State.mem_of_pair k).trans (State.reach_mem _ _ _ _ _ _ _ _)).trans h
  split
  · next j => exact .of_mem (by simp [State.mem_of_pair j, k])
  next v j =>
  have hv : Canon s v := .of_mem (by simp [State.mem_of_pair j, k])
  exact .after (canon_wake _ _) (.after (canon_noteWrite _ _ _ _ _ _ _)
    (.after (canon_putPa _ _ _ _) (.after (canon_writePa _ _ _) hv)))

theorem canon_mbrecvAct (s : State) (old c x) : Canon s (State.mbrecvAct old c s x).1 := by
  unfold State.mbrecvAct
  extract_lets va off
  split
  · exact .refl _
  split
  · next h => exact .of_mem (by simp [State.mem_of_pair h])
  next u pa h =>
  have h := (State.mem_of_pair h).trans (State.reachMailbox_mem _ _ _ _ _ _ _)
  split
  · extract_lets u'
    have hu : Canon s u' := .of_mem (by dsimp only [u']; split <;> simp [State.noteWrite_mem, h])
    clear_value u'
    split
    · exact hu
    · refine .of_mem_eq (State.park_mem ..) ?_
      split
      · exact .after (canon_addWaiter _ _) hu
      · exact hu
  extract_lets slot
  split
  · next k => exact .of_mem (by simp [State.mem_of_pair k, h])
  next v spa k =>
  have hv : Canon s v := .of_mem (by simp [State.mem_of_pair k, h])
  exact .after (canon_noteWrite _ _ _ _ _ _ _) (.after (canon_putPa _ _ _ _) (.after (canon_scratchWrite _ _ _ _) hv))

theorem canonInline_stall (s : State) (die env va k) :
    CanonInline s (match s.startWalk die env va k with | (t, w) => .stall t w) := canon_startWalk s die env va k

theorem canonInline_runInline (s : State) (b : Block) (tid p : Nat) (m : Msg) : CanonInline s (s.runInline b tid p m) := by
  unfold State.runInline
  dsimp only
  split
  · exact canonInline_stall _ _ _ _ _
  split
  · exact canonInline_stall _ _ _ _ _
  · trivial
  · trivial
  · split
    · exact canonInline_stall _ _ _ _ _
    · exact canon_accept _ _ _ _ _
  next a _ =>
  have ha := canon_accept s b.die m (.inl a) (some (b.id, tid))
  generalize s.accept b.die m (.inl a) (some (b.id, tid)) = r at ha ⊢
  obtain ⟨u, id⟩ := r
  dsimp only at ha ⊢
  split
  · trivial
  next t _ =>
  split
  · split
    · exact canonInline_stall _ _ _ _ _
    · exact .after (canon_failTask _ _) ha
  split
  · trivial
  split
  · trivial
  split
  · trivial
  split
  · trivial
  · next h =>
    refine .after (canon_modBlock _ _ _) (.after (canon_startTask _ _) (.of_mem_eq (State.movePortions_mem h) ?_))
    exact .of_mem_eq (by simp) ha

theorem canon_tspawnAct (s : State) (old c x) : Canon s (State.tspawnAct old c s x).1 := by
  unfold State.tspawnAct
  dsimp only
  iterate 5 refine .ite_fst (.refl _) ?_
  split
  · next h => exact .of_pair h (canon_locate _ _ _ _ _ _ _ _)
  next h =>
  have h := Canon.of_pair h (canon_locate _ _ _ _ _ _ _ _)
  split
  · next k => exact h.trans (.of_pair k (.of_mem (State.reachMailbox_mem _ _ _ _ _ _ _)))
  next v pa k =>
  have k := h.trans (.of_pair k (.of_mem (State.reachMailbox_mem _ _ _ _ _ _ _)))
  split
  · next j => exact k.trans (.of_pair j (canon_letIn _ _ _ _ _ _ _))
  next u rpa j =>
  have hu := k.trans (.of_pair j (canon_letIn _ _ _ _ _ _ _))
  have hpark (va : DWord) : Canon u (if enters old then
      (if old.isNone then u.noteWrite c.b x.2 va pa else u).addWaiter (pa + 0x18)
      else (if old.isNone then u.noteWrite c.b x.2 va pa else u)) := by
    have hn : Canon u (if old.isNone then u.noteWrite c.b x.2 va pa else u) := by
      split
      · exact canon_noteWrite _ _ _ _ _ _ _
      · exact .refl _
    split
    · exact .after (canon_addWaiter _ _) hn
    · exact hn
  refine hu.trans ?_
  refine .ite_fst (.ite_fst (.refl _) ?_) (.ite_fst (.ite_fst (.refl _) ?_) (.of_mem_eq (State.park_mem ..) (hpark _)))
  · split
    · next e => exact .of_pair e (canon_locate _ _ _ _ _ _ _ _)
    next e =>
    have e := Canon.of_pair e (canon_locate _ _ _ _ _ _ _ _)
    split
    · next f => exact e.trans (.of_pair f (canon_letIn _ _ _ _ _ _ _))
    next f =>
    have f := e.trans (.of_pair f (canon_letIn _ _ _ _ _ _ _))
    split
    · exact f
    · next g =>
      exact .after (canon_noteWrite _ _ _ _ _ _ _) (.after (canon_putPa _ _ _ _) (.after (canon_writePa _ _ _)
        (.of_mem_eq (State.movePortions_mem g) f)))
  · have hr := fun m => canonInline_runInline u c.b x.2 c.resP m
    split
    · next e => exact .after (canon_modBlock _ _ _) (e ▸ hr _ :)
    · next e => exact (e ▸ hr _ :)
    · exact .refl _
    · next e => exact (e ▸ hr _ :)
    · exact .of_mem_eq (State.park_mem ..) (hpark _)

theorem canon_saveProducer (s : State) (blk) : Canon s (s.saveProducer blk) := by
  unfold State.saveProducer
  split
  · exact .refl _
  split
  · dsimp only
    split
    · exact canon_saveBlock _ _ _
    · exact .after (canon_restoreProducer _ _ _) (.after (canon_modBlock _ _ _) (canon_saveBlock _ _ _))
  · exact .refl _

theorem canon_parkingAct (s : State) (op q c x) : Canon s (parkingAct op q c s x).1 := by
  unfold parkingAct
  split
  · exact .of_mem (State.waitaddrAct_mem ..)
  · exact .of_mem (State.parkAct_mem ..)
  · exact canon_fgetAct _ _ _ _
  · exact canon_mbrecvAct _ _ _ _
  · exact canon_tspawnAct _ _ _ _
  · exact .of_mem (State.barwAct_mem ..)

theorem canon_stillUnmet {s t : State} {b : Block} {tid : Nat} {q : Parked} (h : s.stillUnmet b tid q = some t) :
    Canon s t := by
  unfold State.stillUnmet at h
  split at h
  · cases h
  · split at h
    · next k =>
      cases h
      exact .after (canon_modTh _ _ _ _) (.of_pair k (canon_parkingAct _ _ _ _ _))
    · cases h

theorem canon_reperform (s : State) (blk tid q) : Canon s (s.reperform blk tid q) := by
  unfold State.reperform
  split
  · exact .refl _
  dsimp only
  split
  · exact .refl _
  split
  · exact .after (canon_killContext _ _ _ _ _ _ _) (.of_mem (by simp))
  split
  · split
    · next h => exact canon_stillUnmet h
    · exact .of_mem (by simp)
    · exact canon_modTh _ _ _ _
  split
  · exact canon_modTh _ _ _ _
  next b _ _ _ _ _ =>
  have ha := canon_parkingAct s q.op q (s.parkedCtx b tid q) (0, tid)
  generalize parkingAct q.op q (s.parkedCtx b tid q) s (0, tid) = r at ha ⊢
  obtain ⟨u, f⟩ := r
  dsimp only at ha ⊢
  split
  · exact .refl _
  split
  · exact .after (canon_modTh _ _ _ _) ha
  · exact .after (canon_modTh _ _ _ _) (.after (canon_unwait _ _) ha)
  · exact .after (canon_modTh _ _ _ _) (.after (canon_unwait _ _) ha)
  · exact .after (canon_saveProducer _ _) ha
  · exact .of_mem rfl
  · exact .of_mem_eq (State.refreshPools_mem ..) (.after (canon_finish _ _ _)
      (.after (canon_modTh _ _ _ _) (.after (canon_unwait _ _) ha)))

theorem canon_wakeThread (s : State) (blk tid p) : Canon s (s.wakeThread blk tid p) := by
  unfold State.wakeThread
  split
  · exact .refl _
  split
  · split
    · exact canon_reperform _ _ _ _
    · exact .refl _
  · exact .refl _

theorem canon_popQueue (s : State) (pa) : Canon s (s.popQueue pa) := by
  unfold State.popQueue
  exact .after (canon_wake _ _) (.after (canon_putPa _ _ _ _) (.of_mem (by simp)))

theorem canon_visitQueue (s : State) (die queue) : Canon s (s.visitQueue die queue) := by
  unfold State.visitQueue
  split
  · exact .refl _
  split
  · exact .after (canon_popQueue _ _) (.of_mem (by simp))
  dsimp only
  split
  · exact .of_mem (by simp)
  · exact .of_mem rfl
  · exact .after (canon_accept _ _ _ _ _) (.after (canon_popQueue _ _) (.of_mem rfl))
  · exact .after (canon_accept _ _ _ _ _) (.after (canon_popQueue _ _) (.of_mem rfl))
  split
  · exact .of_mem (by simp)
  · exact .after (canon_accept _ _ _ _ _) (.after (canon_popQueue _ _) (.of_mem rfl))

theorem canon_killTask (s : State) (t) : Canon s (s.killTask t) := by
  unfold State.killTask
  exact .after (canon_endTask _ _ _) (.of_mem rfl)

theorem canon_answerFrames (s : State) (id) : Canon s (s.answerFrames id) := by
  unfold State.answerFrames
  exact Canon.foldl (fun s x => canon_putFrame _ _ _ _) _ _

theorem canon_post (s : State) (w level) : Canon s (s.post w level) := by
  unfold State.post
  extract_lets q
  split
  · exact .refl _
  have hs : Canon s (s.faultId w.die).2 := .of_mem (by simp)
  generalize s.faultId w.die = r at hs ⊢
  obtain ⟨id, u⟩ := r
  refine .of_mem_eq (State.foldl_mem (fun s f => State.fire_mem s f 1) _ _) ?_
  exact hs.trans (canon_writePa _ _ _)

theorem canon_answerWalk (s : State) (w f) : Canon s (s.answerWalk w f) := by
  unfold State.answerWalk
  exact .after (canon_answerFrames _ _) (.of_mem rfl)

theorem canon_refuseEngines (s : State) (w t) : Canon s (s.refuseEngines w t) := by
  unfold State.refuseEngines
  refine Canon.after (t := (s.eng.copies.filter (·.stall == some w.id)).foldl _ s) (.of_mem rfl) (Canon.foldl
      (fun s c => ?_) _ s)
  split
  · exact .refl _
  · exact .after (canon_copyFault _ _ _ _) (.of_mem rfl)

theorem canon_refuseSaves (s : State) (w t) : Canon s (s.refuseSaves w t) := by
  unfold State.refuseSaves
  exact Canon.foldl (fun s x => canon_killContext _ _ _ _ _ _ _) _ _

theorem canon_refuseQueues (s : State) (w) : Canon s (s.refuseQueues w) := by
  unfold State.refuseQueues
  refine Canon.foldl (fun s q => ?_) _ s
  split
  · exact .refl _
  split
  · split
    · exact .after (canon_accept _ _ _ _ _) (canon_popQueue _ _)
    · exact .refl _
  · split
    · exact .after (canon_accept _ _ _ _ _) (canon_popQueue _ _)
    · exact .refl _
  · exact .refl _

theorem canon_refuseReports (s : State) (w) : Canon s (s.refuseReports w) := by
  unfold State.refuseReports
  refine Canon.foldl (fun s x => ?_) _ _
  dsimp only
  split
  · exact canon_complete _ _
  split
  · exact canon_failTask _ _
  · exact .refl _

theorem canon_refuse (s : State) (w t) : Canon s (s.refuse w t) := by
  unfold State.refuse
  exact .after (canon_refuseReports _ _) (.after (canon_refuseQueues _ _) (.after (canon_refuseEngines _ _ _)
    (.of_mem_eq (by simp) (canon_refuseSaves s w t))))

theorem canon_fqAnswer (s : State) (die id answer) : Canon s (s.fqAnswer die id answer) := by
  unfold State.fqAnswer
  split
  · exact .refl _
  split
  · exact .of_mem rfl
  split
  · exact canon_answerWalk _ _ _
  · exact canon_refuse _ _ _
  · exact canon_refuse _ _ _
  · exact .refl _

theorem canon_copyPage (s : State) (m) : Canon s (s.copyPage m) := by
  unfold State.copyPage
  extract_lets u bad v
  refine .of_mem_eq (State.relocate_mem ..) ?_
  exact Canon.trans (.of_mem (State.gatherPage_mem ..)) (canon_putRange _ _ _ _ _)

theorem canon_perform (s : State) (req) : Canon s (s.perform req).1 := by
  cases req with
  | read | invalidate => exact .of_mem (by simp [State.perform])
  | again => exact .refl _
  | write => exact canon_writePa _ _ _
  | atomic | bred | bupd => exact canon_putPa _ _ _ _
  | fput pa value =>
    simp only [State.perform]
    split
    · exact .refl _
    · exact canon_fillFuture _ _ _
  | ftake pa =>
    simp only [State.perform]
    split
    · exact canon_takeFuture _ _ _
    · exact .refl _
  | mbsend pa slot data =>
    simp only [State.perform]
    split
    · exact .refl _
    · exact .after (canon_wake _ _) (.after (canon_putPa _ _ _ _) (canon_writePa _ _ _))
  | mbrecv pa slot =>
    simp only [State.perform]
    split
    · exact .refl _
    · exact canon_putPa _ _ _ _
  | bari pa n => exact .after (canon_putPa _ _ _ _) (canon_putPa _ _ _ _)
  | bara pa n => exact .after (canon_checkBarrier _ _) (canon_putPa _ _ _ _)
  | unpark env pa all => exact Canon.foldl (fun s y => canon_modTh _ _ _ _) _ s
  | waiter pa up =>
    simp only [State.perform]
    split
    · exact canon_addWaiter _ _
    · exact canon_putPa _ _ _ _

theorem canon_serveRemote (s : State) (source req) : Canon s (s.serveRemote source req).1 := by
  unfold State.serveRemote
  dsimp only
  have hp := canon_perform s req
  split
  · exact .of_mem (by simp)
  · exact .refl _
  refine .ite_fst (.of_mem rfl) (.ite_fst (.of_mem (by simp)) (.ite_fst (.refl _) (.ite_fst ?_ (.ite_fst (.refl _)
      (.ite_fst (.of_mem (by simp)) ?_)))))
  · refine .ite_fst (.of_mem rfl) (.ite_fst (.of_mem (by simp)) (.of_mem_eq (State.reply_mem ..) hp))
  · exact .of_mem_eq (State.peerTakes_mem ..) hp

theorem canon_arrival (s : State) (source req) : Canon s (s.arrival source req).1 := by
  unfold State.arrival
  split
  · exact canon_serveRemote _ _ _
  · exact .of_mem rfl

theorem canon_receive (s : State) (source req) : Canon s (s.receive source req) := by
  unfold State.receive
  have h := canon_arrival s source req
  generalize s.arrival source req = r at h ⊢
  obtain ⟨t, _ | _⟩ := r <;> exact h

theorem canon_retryPeer (s : State) (k) : Canon s (s.retryPeer k) := by
  unfold State.retryPeer
  split
  · exact .refl _
  next source req _ =>
  have h := canon_arrival s source req
  generalize s.arrival source req = r at h ⊢
  obtain ⟨t, _ | _⟩ := r <;> exact h

theorem canon_performFlit (s : State) (f) : Canon s (s.performFlit f) := by
  unfold State.performFlit
  dsimp only
  split
  · exact .of_mem rfl
  · exact .after (canon_receive _ _ _) (.of_mem rfl)

theorem canon_dropAcks (s : State) (pkg) : Canon s (s.dropAcks pkg) := by
  unfold State.dropAcks
  dsimp only
  refine .after (Canon.foldl (fun s x => ?_) _ _) ?_
  · split
    · exact .refl _
    · exact canon_stopLate _ _ _
  · refine .after (Canon.foldl (fun s x => ?_) _ _) ?_
    · split
      · exact .of_mem (by simp)
      · exact .refl _
    · exact .of_mem rfl

theorem canon_giveUp (s : State) (die pkg) : Canon s (s.giveUp die pkg) := by
  unfold State.giveUp
  exact .after (canon_dropAcks _ _) (.of_mem (by simp))

theorem canon_failRemote (s : State) (blk tid cause) : Canon s (s.failRemote blk tid cause) := by
  unfold State.failRemote
  split
  · exact .refl _
  split
  · exact .refl _
  · exact .after (canon_failThreads _ _ _ _) (.of_mem rfl)

theorem canon_killAll (s : State) (cause) : Canon s (s.killAll cause) := by
  unfold State.killAll
  refine Canon.foldl (fun s x => ?_) _ _
  exact .after (canon_endTask _ _ _) (.of_mem (State.foldl_mem (fun s d => State.event_mem s ..) _ _))

theorem canon_loseBoundary (s : State) (n) : Canon s (s.loseBoundary n) := by
  unfold State.loseBoundary
  split
  · exact .refl _
  · refine .after (canon_killAll _ _) (.of_mem ?_)
    refine (State.foldl_mem State.raiseAlert_mem _ _).trans ?_
    exact State.foldl_mem (fun s d => State.event_mem s ..) _ _

theorem canon_repairLane (s : State) (link lane) : Canon s (s.repairLane link lane) := by
  unfold State.repairLane
  dsimp only
  split
  · next n group =>
    have hc : ((List.range 8).foldl (fun s _ => s.corrected 4 (n % Config.dies) 0) s).mem = s.mem :=
      State.foldl_mem (fun s _ => State.corrected_mem s 4 (n % Config.dies) 0) _ _
    split
    · exact canon_loseBoundary _ _
    · exact .of_mem (by simpa using hc)
  · split <;> exact .of_mem (by simp)

theorem canon_ringNow {s t : State} {fn die queue : Nat} {v : DWord} (h : s.ringNow fn die queue v = some t) : Canon s t := by
  unfold State.ringNow at h
  split at h
  · cases h
    exact .refl _
  split at h
  · cases h
    exact .of_mem (by simp)
  split at h
  · cases h
  split at h
  · cases h
    split <;> exact .of_mem (by simp)
  split at h
  · cases h
    exact .of_mem (by simp)
  split at h
  · cases h
    exact .of_mem (by simp)
  · cases h
    exact .after (canon_putPa _ _ _ _) (.after (canon_writePa _ _ _) (.of_mem (by simp)))

theorem canon_ring (s : State) (fn die queue value) : Canon s (s.ring fn die queue value) := by
  unfold State.ring
  split
  · exact .of_mem rfl
  split
  · next h => exact canon_ringNow h
  · exact .of_mem rfl

theorem canon_writeFq (s : State) (die off value) : Canon s (s.writeFq die off value) := by
  unfold State.writeFq
  dsimp only
  split
  · exact .of_mem rfl
  · split
    · exact .of_mem rfl
    · exact .refl _
  · exact .of_mem rfl
  · split
    · exact canon_fqAnswer _ _ _ _
    · exact .refl _
  · exact .refl _

theorem canon_writeBar (s : State) (fn offset value) : Canon s (s.writeBar fn offset value) := by
  unfold State.writeBar
  split
  · split
    · exact canon_ring _ _ _ _ _
    · exact .refl _
  · split
    · exact canon_writeFq _ _ _ _
    · exact .refl _
  split
  · exact .of_mem rfl
  · exact .refl _

theorem canon_hostPerform (s : State) (fn pa req) : Canon s (s.hostPerform fn pa req) := by
  unfold State.hostPerform
  dsimp only
  split
  · split
    · exact .of_mem (by simp)
    split
    · exact .of_mem_eq (State.hostReply_mem ..) (.after (canon_writePa _ _ _) (.of_mem (by simp)))
    · exact .of_mem_eq (State.hostReply_mem ..) (.after (canon_putPa _ _ _ _) (.of_mem (by simp)))
    · exact .of_mem_eq (State.hostReply_mem ..) (.after (canon_writePa _ _ _) (.of_mem (by simp)))
  split
  · exact .of_mem (by simp)
  split
  · exact .of_mem_eq (State.hostReply_mem ..) (.after (canon_writePa _ _ _) (.of_mem (by simp)))
  · exact .of_mem_eq (State.hostReply_mem ..) (.after (canon_putPa _ _ _ _) (.of_mem (by simp)))
  · exact .of_mem (by simp)

theorem canon_hostNow (s : State) (fn req) : Canon s (s.hostNow fn req).1 := by
  unfold State.hostNow
  split
  · exact .refl _
  · exact .of_mem (by simp)
  · split
    · next h => exact canon_ringNow h
    · exact .refl _
  split
  · dsimp only
    split
    · split
      · exact .of_mem rfl
      split
      · next h => exact .of_mem_eq (State.hostReply_mem ..) (.of_pair h (.of_mem (by simp)))
      · next h => exact .of_pair h (.of_mem (by simp))
      · next h => exact .after (canon_hostPerform _ _ _ _) (.of_pair h (.of_mem (by simp)))
    split
    · exact .of_mem rfl
    split
    · next h => exact .of_mem_eq (State.hostReply_mem ..) (.of_pair h (.of_mem (by simp)))
    · next h => exact .of_pair h (.of_mem (by simp))
    · next h => exact .after (canon_hostPerform _ _ _ _) (.of_pair h (.of_mem (by simp)))

theorem canon_retryHost (s : State) (k) : Canon s (s.retryHost k) := by
  unfold State.retryHost
  split
  · exact .refl _
  next fn req _ =>
  refine .ite (.refl _) ?_
  have h := canon_hostNow s fn req
  generalize s.hostNow fn req = r at h ⊢
  obtain ⟨t, _ | _⟩ := r
  · exact .refl _
  · exact h

theorem canon_hostAccess (s : State) (fn req) : Canon s (s.hostAccess fn req) := by
  unfold State.hostAccess
  split
  · exact canon_retryHost _ _
  · exact canon_ring _ _ _ _ _
  split
  · next h => exact .of_pair h (canon_hostNow _ _ _)
  · next h => exact .of_mem_eq (State.holdHost_mem ..) (.of_pair h (canon_hostNow _ _ _))

theorem canon_coldBoot (s : State) : Canon s s.coldBoot := by
  unfold State.coldBoot
  dsimp only
  split
  · exact .of_mem (by simp)
  · refine .of_mem_eq (State.opens_mem ..) (.of_mem_eq (State.noteReset_mem ..) fun h => ?_)
    exact Memory.wf_filter (Memory.wf_overlay (Memory.wf_clear (Memory.wf_clear h _ _) _ _) _ _ (s.mem.slice _ _ _)) _

theorem canon_renumber (s : State) (new) : Canon s (s.renumber new) := by
  unfold State.renumber
  dsimp only
  split
  · exact .refl _
  · exact fun h => Memory.wf_overlay (Memory.wf_clear h _ _) _ _ _

theorem canon_manage {s : State} {f : State → Nat × List Byte × State} (h : Canon s (f s).2.2) : Canon s (s.manage f) := by
  unfold State.manage
  split
  · exact .refl _
  · exact h

theorem canon_command {s : State} {busy ok : Bool} {f : State → State} (h : Canon s (f s)) : Canon s (s.command busy ok f) := by
  refine canon_manage ?_
  split
  · exact .refl _
  · split
    · exact .refl _
    · exact h

theorem canon_podSet (s : State) (members pkgid) : Canon s (s.podSet members pkgid) := canon_command (canon_renumber _ _)

theorem canon_aelkin (s : State) (mailbox body) : Canon s (s.aelkin mailbox body) := by
  unfold State.aelkin
  dsimp only
  split
  · exact .of_mem (by simp)
  split
  · exact .of_mem (by simp)
  · exact .of_mem (by simp)
  · exact .of_mem (by simp)
  · split <;> exact .of_mem (by simp)
  · exact canon_podSet _ _ _
  · exact .of_mem (by simp)
  · exact .of_mem (by simp)
  · exact .of_mem (by simp)
  · exact .of_mem (by simp)
  · exact .of_mem (by simp)
  · exact .of_mem (by simp)
  · exact .of_mem (by simp)
  · exact .of_mem (by simp)

theorem canon_runEngine (s : State) (op : Nat) (w : CWord) {f : Ctx → State → State × List (Nat × Fate)}
    (h : ∀ c s, Canon s (f c s).1) : Canon s (s.runEngine op w f) := by
  unfold State.runEngine
  refine canon_runIssue _ _ _ fun c s => ?_
  split
  · exact .refl _
  · exact .after (canon_modBlock _ _ _) (.after (h _ _) (canon_modBlock _ _ _))

theorem canon_together {s : State} {c : Ctx} {r : State × List (Nat × Fate)} (h : Canon s r.1) : Canon s
    (s.together c r).1 := by
  unfold State.together
  split
  · exact .of_mem (by simp)
  · exact canon_fitAcks h

theorem canon_transfer64 {put : State → Nat × DWord × Nat → State} (h : ∀ s r, Canon s (put s r)) (s : State)
    (c x pitch k from') :
    Canon s (s.transfer64 c x pitch k from' put).1 := by
  unfold State.transfer64
  dsimp only
  have hr : ∀ rows : List (Nat × DWord × Nat), Canon s (rows.foldl put (s.transferRows c.b ((c.on.map
      (·.2)).headD 0) x pitch k (c.on.map (·.2)) (64 - from') from').1) :=
    fun rows => .after (Canon.foldl h _ _) (.of_mem (by simp))
  split
  · exact hr _
  · dsimp only
    split
    · exact .of_mem (by simp)
    · exact .of_mem_eq (State.noteCut_mem ..) (hr _)

theorem canon_moveTile (s : State) (op : Nat) (w : CWord) (k : Kind) {put : Ctx → State → Nat × DWord × Nat → State}
    (h : ∀ c s r, Canon s (put c s r)) : Canon s (s.moveTile op w k put) := by
  unfold State.moveTile
  refine canon_runEngine _ _ _ fun c s => ?_
  extract_lets x p r
  split
  · exact .refl _
  · refine canon_fitAcks ?_
    dsimp only [r]
    split
    · next e => exact .of_pair e (canon_transfer64 (h c) _ _ _ _ _ _)
    · next e => exact .after (canon_heal _ _) (.of_mem_eq (State.endTransfer_mem ..) (.of_pair e (canon_transfer64
        (h c) _ _ _ _ _ _)))

theorem canon_runRows (s : State) (op : Nat) (w : CWord) {masked : Ctx → State → Nat → State}
    {f : Ctx → State → Nat → State × Fate}
    (hm : ∀ c s t, Canon s (masked c s t)) (hf : ∀ c s t, Canon s (f c s t).1) : Canon s (s.runRows op w masked f) := by
  unfold State.runRows
  refine canon_runEngine _ _ _ fun c s => canon_together ?_
  refine Canon.foldlPair (a := (s, [])) (fun a x => ?_) _
  split
  · exact hf _ _ _
  · dsimp only
    split
    · exact hm _ _ _
    · exact .refl _

theorem canon_product (s : State) (op w sparse) : Canon s (s.product op w sparse) := by
  unfold State.product
  refine canon_runEngine _ _ _ fun c s => ?_
  have hb : Canon s (s.readB c sparse).1 := .of_mem (by simp)
  generalize s.readB c sparse = r at hb ⊢
  obtain ⟨u, f | m⟩ := r
  · exact hb.trans (canon_fitAcks (.refl _))
  · dsimp only
    split
    · exact hb
    · exact hb.trans (canon_together (canon_eachOf (fun s x => .of_mem (by simp)) _ _))

theorem canon_runOrdered (s : State) (op w f) : Canon s (s.runOrdered op w f) := by
  unfold State.runOrdered
  refine canon_runIssue _ _ _ fun c s => ?_
  split
  · dsimp only
    split
    · exact .of_mem rfl
    · exact .refl _

end Sys2Proof.Machine
end

section
/-! SUPPORT. Every instruction and event keeps the canonical form of memory; O55. -/

namespace Sys2Proof.Machine

/-- Where an instruction or an event leaves a state, its memory is canonical if it was before. -/
def CanonOut (s : State) (r : Host.Outcome State Fault Refusal) : Prop := ∀ t, r = .next t → Canon s t

theorem Canon.out {s t : State} (h : Canon s t) : CanonOut s (.next t) := by
  rintro _ ⟨⟩
  exact h

theorem canon_foldl_modTh {α : Type} (n : Nat) (g : α → Nat) (f : α → Thread → Thread) (xs : List α) (s : State) :
    Canon s (xs.foldl (fun s x => s.modTh n (g x) (f x)) s) :=
  Canon.foldl (f := fun s x => s.modTh n (g x) (f x)) (fun s x => canon_modTh s n (g x) (f x)) xs s

theorem canonOut_execClause (s : State) (w : CWord) : CanonOut s (execClause w s) := by
  refine Canon.out (canon_runIssue _ _ _ fun c s => ?_)
  dsimp only
  exact canon_foldl_modTh _ _ _ _ _

theorem canonOut_execUbra (s : State) (w : CWord) : CanonOut s (execUbra w s) := by
  refine Canon.out (canon_runIssue _ _ _ fun c s => ?_)
  split
  · exact canon_eachOf (fun s x => .of_mem (by simp)) _ _
  · exact .refl _

theorem canonOut_execArm (s : State) (w : CWord) : CanonOut s (execArm w s) := by
  refine Canon.out (canon_runIssue _ _ _ fun c s => ?_)
  dsimp only
  exact canon_foldl_modTh _ _ _ _ _

theorem canonOut_execTrigger (s : State) (w : CWord) : CanonOut s (execTrigger w s) := by
  refine Canon.out (canon_runIssue _ _ _ fun c s => ?_)
  dsimp only
  exact .after (canon_noteTrigger _ _) (canon_foldl_modTh _ _ _ _ _)

theorem canonOut_execLand (s : State) (w : CWord) : CanonOut s (execLand w s) := by
  refine Canon.out (canon_runIssue _ _ _ fun c s => ?_)
  split
  · exact .refl _
  dsimp only
  exact canon_foldl_modTh _ _ _ _ _

theorem canonOut_execPayout (s : State) (w : CWord) : CanonOut s (execPayout w s) := by
  refine Canon.out (canon_runIssue _ _ _ fun c s => ?_)
  refine .ite_fst (.refl _) (.ite_fst (.refl _) (.of_mem_eq (State.payCycle_mem ..) ?_))
  exact .ite (.refl _) (.of_mem (by simp))

theorem canonOut_execTret (s : State) (w : CWord) : CanonOut s (execTret w s) := by
  refine Canon.out (canon_runIssue _ _ _ fun c s => ?_)
  dsimp only
  split
  · exact .refl _
  split
  · exact .of_mem rfl
  split
  · exact .after (canon_tret1 _ _ _) (canon_copyResume _ _ _)
  · exact canon_tret1 _ _ _

theorem canonOut_execTread (s : State) (w : CWord) : CanonOut s (execTread w s) := by
  refine Canon.out (canon_runIssue _ _ _ fun c s => ?_)
  refine .ite_fst (.refl _) ?_
  have hm (key : Nat × Nat → Nat) (n : Nat) (f : Thread → Thread) : Canon s (c.on.foldl (fun s x =>
      if key x < n then s.modTh c.iss.blk (key x) f else s) s) :=
    Canon.foldl (fun s x => .ite (canon_modTh _ _ _ _) (.refl _)) _ _
  extract_lets kind num wide target u
  have hu : Canon s u := hm _ _ _
  clear_value u
  exact fun h => Canon.ite (.of_mem_eq (State.coreError_mem ..) hu) hu h

theorem canonOut_execTwrite (s : State) (w : CWord) : CanonOut s (execTwrite w s) := by
  refine Canon.out (canon_runIssue _ _ _ fun c s => ?_)
  split
  · exact .refl _
  refine canon_eachOf (fun s x => ?_) _ _
  dsimp only
  split
  · exact .refl _
  · exact .refl _
  split
  · exact .refl _
  split
  · exact .refl _
  · exact canon_writeSelector _ _ _ _ _ _ _

theorem canonOut_execKill (s : State) (w : CWord) : CanonOut s (execKill w s) := by
  unfold execKill
  exact Canon.out (canon_runIssue _ _ _ fun c s => canon_endTask _ _ _)

theorem canonOut_execBkpt (s : State) (w : CWord) : CanonOut s (execBkpt w s) := by
  refine Canon.out (canon_runIssue _ _ _ fun c s => ?_)
  split
  · exact .of_mem rfl
  · exact .refl _

theorem canonOut_execWdog (s : State) (w : CWord) : CanonOut s (execWdog w s) := by
  refine Canon.out (canon_runIssue _ _ _ fun c s => ?_)
  dsimp only
  split
  · split
    · exact .refl _
    · exact .of_mem rfl
  split
  · exact .refl _
  · exact .of_mem rfl

theorem canonOut_execIcinv (s : State) (w : CWord) : CanonOut s (execIcinv w s) := by
  refine Canon.out (canon_runIssue _ _ _ fun c s => ?_)
  split
  · exact .refl _
  · exact .of_mem rfl

theorem canonOut_execSrd (s : State) (w : CWord) : CanonOut s (execSrd w s) := by
  refine Canon.out (canon_runIssue _ _ _ fun c s => ?_)
  dsimp only
  split
  · exact .refl _
  split
  · exact .refl _
  · exact .ite_fst (.refl _) (.refl _)

theorem canonOut_execSwr (s : State) (w : CWord) : CanonOut s (execSwr w s) := by
  refine Canon.out (canon_runIssue _ _ _ fun c s => ?_)
  dsimp only
  split
  · exact .refl _
  split
  · exact .refl _
  refine .ite_fst (.refl _) (.ite_fst ?_ (.ite_fst ?_ ?_))
  · refine canon_eachOf (fun s x => ?_) _ _
    exact .ite_fst (.of_mem rfl) (.refl _)
  · split
    · next h => exact .of_mem (State.setReel_mem h)
    · exact .refl _
  · split <;> exact .ite_fst (.of_mem rfl) (.refl _)

theorem canonOut_execXmovWrite (s : State) (w : CWord) : CanonOut s (execXmovWrite w s) := by
  refine Canon.out (canon_runIssue _ _ _ fun c s => ?_)
  split
  · exact .refl _
  dsimp only
  split
  · exact .refl _
  · exact .of_mem rfl

theorem canonOut_execBinq (s : State) (w : CWord) : CanonOut s (execBinq w s) := by
  refine Canon.out (canon_runIssue _ _ _ fun c s => ?_)
  split
  · exact .refl _
  · exact .of_mem rfl

theorem canonOut_execLd (s : State) (w : CWord) : CanonOut s (execLd w s) := by
  refine Canon.out (canon_runMem _ _ _ _ _ fun c s x => ?_)
  dsimp only
  split
  · next h => exact .of_pair h (.of_mem (by simp))
  · next h => exact .of_pair h (.of_mem (by simp))

theorem canonOut_execSt (s : State) (w : CWord) : CanonOut s (execSt w s) := by
  refine Canon.out (canon_runMem _ _ _ _ _ fun c s x => ?_)
  dsimp only
  split
  · next h => exact .of_pair h (.of_mem (by simp))
  · next h => exact .after (canon_storeAt _ _ _ _ _ _) (.of_pair h (.of_mem (by simp)))

theorem canonOut_execLds (s : State) (w : CWord) : CanonOut s (execLds w s) := by
  refine Canon.out (canon_runMem _ _ _ _ _ fun c s x => ?_)
  dsimp only
  split
  · exact .refl _
  split
  · next h => exact .of_pair h (.of_mem (by simp))
  · next h => exact .of_pair h (.of_mem (by simp))

theorem canonOut_execSts (s : State) (w : CWord) : CanonOut s (execSts w s) := by
  refine Canon.out (canon_runMem _ _ _ _ _ fun c s x => ?_)
  dsimp only
  split
  · exact .refl _
  · exact .of_mem (by simp)

theorem canonOut_execLdc (s : State) (w : CWord) : CanonOut s (execLdc w s) := by
  refine Canon.out (canon_runMem _ _ _ _ _ fun c s x => ?_)
  dsimp only
  split
  · exact .refl _
  split
  · next h => exact .of_pair h (.of_mem (by simp))
  · next h => exact .of_pair h (.of_mem (by simp))

theorem canonOut_execStc (s : State) (w : CWord) : CanonOut s (execStc w s) := by
  refine Canon.out (canon_runMem _ _ _ _ _ fun c s x => ?_)
  dsimp only
  split
  · exact .refl _
  · exact .of_mem (by simp)

theorem canonOut_execLdk (s : State) (w : CWord) : CanonOut s (execLdk w s) := by
  refine Canon.out (canon_runMem _ _ _ _ _ fun c s x => ?_)
  dsimp only
  split
  · next h => exact .of_pair h (.of_mem (by simp))
  · next h => exact .after (canon_staleRead _ _ _ _ _ _ _) (.of_pair h (.of_mem (by simp)))

theorem canonOut_execAtoms (s : State) (w : CWord) : CanonOut s (execAtoms w s) := by
  refine Canon.out (canon_runIssue _ _ _ fun c s => ?_)
  dsimp only
  refine .after (canon_eachOf (fun s x => ?_) _ _) ?_
  · split
    · exact .refl _
    split
    · next h => exact .of_pair h (.of_mem (by simp))
    · next h => exact .after (canon_scratchWrite _ _ _ _) (.of_pair h (.of_mem (by simp)))
  · exact .of_mem (by simp)

theorem canonOut_execFence (s : State) (w : CWord) : CanonOut s (execFence w s) := by
  refine Canon.out (canon_runIssue _ _ _ fun c s => ?_)
  split <;> exact .refl _

theorem canonOut_execCctl (s : State) (w : CWord) : CanonOut s (execCctl w s) := by
  refine Canon.out (canon_runMem _ _ _ _ _ fun c s x => ?_)
  split
  · exact .refl _
  · exact .of_mem (by simp)

theorem canonOut_execUnpark (s : State) (w : CWord) : CanonOut s (execUnpark w s) := by
  refine Canon.out (canon_runMem _ _ _ _ _ fun c s x => ?_)
  split
  · next h => exact .of_pair h (.of_mem (by simp))
  dsimp only
  refine .after (Canon.foldl (fun s x => ?_) _ _) ?_
  · exact .of_mem rfl
  · next h => exact .of_pair h (.of_mem (by simp))

theorem canonOut_execAqfence (s : State) (w : CWord) : CanonOut s (execAqfence w s) := by
  refine Canon.out (canon_runIssue _ _ _ fun c s => ?_)
  dsimp only
  refine canon_eachOf (fun s x => ?_) _ _
  split
  · exact .refl _
  split
  · exact .refl _
  · exact .of_mem rfl

theorem canonOut_execFput (s : State) (w : CWord) : CanonOut s (execFput w s) := by
  refine Canon.out (canon_runMem _ _ _ _ _ fun c s x => ?_)
  split
  · next h => exact .of_pair h (.of_mem (by simp))
  split
  · split
    · next h _ _ => exact .after (canon_noteWrite _ _ _ _ _ _ _) (.of_pair h (.of_mem (by simp)))
    · next h _ _ => exact .after (canon_noteWrite _ _ _ _ _ _ _) (.of_pair h (.of_mem (by simp)))
  · next h _ => exact .after (canon_noteWrite _ _ _ _ _ _ _) (.after (canon_fillFuture _ _ _) (.of_pair h (.of_mem (by simp))))

theorem canonOut_execFtry (s : State) (w : CWord) : CanonOut s (execFtry w s) := by
  refine Canon.out (canon_runMem _ _ _ _ _ fun c s x => ?_)
  dsimp only
  split
  · next h => exact .of_pair h (.of_mem (by simp))
  split
  · next h _ => exact .of_mem_eq (State.noteTake_mem ..) (.after (canon_takeFuture _ _ _) (.of_pair h (.of_mem (by simp))))
  · next h _ => exact .of_mem_eq (State.noteTake_mem ..) (.of_pair h (.of_mem (by simp)))

theorem canonOut_execBari (s : State) (w : CWord) : CanonOut s (execBari w s) := by
  refine Canon.out (canon_runMem _ _ _ _ _ fun c s x => ?_)
  split
  · next h => exact .of_pair h (.of_mem (by simp))
  · next h => exact .after (canon_noteWrite _ _ _ _ _ _ _) (.after (canon_putPa _ _ _ _) (.after (canon_putPa _ _ _ _)
      (.of_pair h (.of_mem (by simp)))))

theorem canonOut_execBara (s : State) (w : CWord) : CanonOut s (execBara w s) := by
  refine Canon.out (canon_runMem _ _ _ _ _ fun c s x => ?_)
  split
  · next h => exact .of_pair h (.of_mem (by simp))
  · next h => exact .after (canon_noteWrite _ _ _ _ _ _ _) (.after (canon_checkBarrier _ _) (.after (canon_putPa _ _ _ _)
      (.of_pair h (.of_mem (by simp)))))

theorem canonOut_execAclr (s : State) (w : CWord) : CanonOut s (execAclr w s) := by
  refine Canon.out (canon_runEngine _ _ _ fun c s => ?_)
  dsimp only
  split
  · split
    · exact .refl _
    split
    · exact .refl _
    · exact .of_mem (by simp)
  split
  · exact .refl _
  split
  · exact .refl _
  · exact .of_mem (by simp)

theorem canonOut_execAld (s : State) (w : CWord) : CanonOut s (execAld w s) := by
  unfold execAld
  refine Canon.out ?_
  refine canon_runRows _ _ _ (fun c s t => ?_) fun c s t => ?_
  · split
    · exact .of_mem (by simp)
    · exact .refl _
  · split
    · exact .refl _
    split
    · next h => exact .of_pair h (.of_mem (by simp))
    · next h => exact .of_mem_eq (State.healRows_mem ..) (.after (canon_modBlock _ _ _) (.of_pair h (.of_mem (by simp))))

theorem canonOut_execAst (s : State) (w : CWord) : CanonOut s (execAst w s) := by
  unfold execAst
  refine Canon.out ?_
  refine canon_runRows _ _ _ (fun c s t => ?_) fun c s t => ?_
  · exact .refl _
  · split
    · exact .refl _
    split
    · exact .of_mem rfl
    split
    · next h => exact .of_pair h (canon_writeSpan _ _ _ _ _ _)
    · next h => exact .of_pair h (canon_writeSpan _ _ _ _ _ _)

theorem canonOut_execArd (s : State) (w : CWord) : CanonOut s (execArd w s) := by
  unfold execArd
  refine Canon.out ?_
  refine canon_runRows _ _ _ (fun c s t => ?_) fun c s t => ?_
  · exact .refl _
  · split
    · exact .refl _
    split
    · exact .of_mem rfl
    · exact .refl _

theorem canonOut_execAwr (s : State) (w : CWord) : CanonOut s (execAwr w s) := by
  unfold execAwr
  refine Canon.out ?_
  refine canon_runRows _ _ _ (fun c s t => ?_) fun c s t => ?_
  · split
    · exact .of_mem (by simp)
    · exact .refl _
  · split
    · exact .refl _
    · exact .of_mem (by simp)

theorem canonOut_execAqnt (s : State) (w : CWord) : CanonOut s (execAqnt w s) := by
  unfold execAqnt
  refine Canon.out ?_
  refine canon_runRows _ _ _ (fun c s t => ?_) fun c s t => ?_
  · exact .refl _
  · split
    · exact .refl _
    split
    · exact .of_mem rfl
    · exact .refl _

theorem canonOut_execIntsect (s : State) (w : CWord) : CanonOut s (execIntsect w s) := by
  refine Canon.out (canon_runIssue _ _ _ fun c s => ?_)
  split
  · dsimp only
    split
    · exact .of_mem rfl
    · exact .refl _

theorem canonOut_execPlaitFormation (s : State) (blk : Nat) (pc : DWord) (group : Option Nat) : CanonOut s
    (execPlaitFormation blk pc group s) := by
  unfold execPlaitFormation
  refine Canon.out ?_
  dsimp only
  split
  · exact .refl _
  split
  · exact .of_mem (by simp)
  · exact .refl _

theorem canonOut_execPoolDue (s : State) (blk : Nat) (pc : DWord) (group : Option Nat) : CanonOut s
    (execPoolDue blk pc group s) := by
  unfold execPoolDue
  refine Canon.out ?_
  dsimp only
  split
  · exact .refl _
  split
  · refine .of_mem_eq (State.refreshPools_mem ..) ?_
    refine .of_mem_eq (State.form_mem ..) ?_
    refine .after (Canon.foldl (fun s x => ?_) _ _) ?_
    · split
      · exact .of_mem (by simp)
      · exact .refl _
    · exact .of_mem (by simp)
  · exact .refl _

theorem canonOut_execSplitLimit (s : State) (blk plait : Nat) : CanonOut s (execSplitLimit blk plait s) := by
  unfold execSplitLimit
  refine Canon.out ?_
  split
  · exact .refl _
  split
  · exact .refl _
  split
  · exact .of_mem (by simp)
  · exact .refl _

theorem canonOut_execSleepWake (s : State) (blk tid : Nat) : CanonOut s (execSleepWake blk tid s) := by
  unfold execSleepWake
  refine Canon.out ?_
  split
  · exact .refl _
  split
  · dsimp only
    split
    · exact .refl _
    split
    · split
      · exact .of_mem rfl
      · exact .refl _
    split
    · exact .of_mem (by simp)
    · exact .refl _
  · exact .refl _

theorem canonOut_execWatchdog (s : State) (blk : Nat) : CanonOut s (execWatchdog blk s) := by
  unfold execWatchdog
  refine Canon.out ?_
  split
  · exact .refl _
  split
  · exact canon_trapBlock _ _ _
  · exact .refl _

theorem canonOut_execCopyBeat (s : State) (copy : Nat) : CanonOut s (execCopyBeat copy s) := by
  unfold execCopyBeat
  refine Canon.out ?_
  split
  · exact .refl _
  split
  · exact canon_copyStep _ _
  · exact .refl _

theorem canonOut_execCopyComplete (s : State) (copy : Nat) : CanonOut s (execCopyComplete copy s) := by
  unfold execCopyComplete
  refine Canon.out ?_
  split
  · exact .refl _
  split
  · split <;> exact .of_mem rfl
  · exact .refl _

theorem canonOut_execPromiseMissed (s : State) (copy : Nat) : CanonOut s (execPromiseMissed copy s) := by
  unfold execPromiseMissed
  refine Canon.out ?_
  split
  · exact .refl _
  split
  · exact canon_missPromise _ _
  · exact .refl _

theorem canonOut_execLandingSave (s : State) (blk : Nat) : CanonOut s (execLandingSave blk s) := by
  unfold execLandingSave
  refine Canon.out ?_
  split
  · exact .refl _
  split
  · exact canon_leave _ _
  · exact .refl _

theorem canonOut_execForcedSave (s : State) (blk : Nat) : CanonOut s (execForcedSave blk s) := by
  unfold execForcedSave
  refine Canon.out ?_
  split
  · exact .refl _
  split
  · exact canon_leave _ _
  · exact .refl _

theorem canonOut_execRestore (s : State) (blk core : Nat) : CanonOut s (execRestore blk core s) := by
  unfold execRestore
  refine Canon.out ?_
  dsimp only
  split
  · exact .of_mem (by simp)
  split
  · exact .of_mem (by simp)
  split
  · exact .after (canon_restoreAt _ _ _) (.of_mem (by simp))
  · exact .of_mem (by simp)

theorem canonOut_execTurnGroupRotation (s : State) (blk group : Nat) : CanonOut s (execTurnGroupRotation blk group s) := by
  unfold execTurnGroupRotation
  refine Canon.out ?_
  split
  · exact .refl _
  split
  · split
    · split
      · split
        · exact .of_mem (by simp)
        · exact .refl _
      · exact canon_rotate _ _ _ _
    · exact .refl _
  · exact .refl _

theorem canonOut_execRegisterReturn (s : State) (blk tid : Nat) : CanonOut s (execRegisterReturn blk tid s) := by
  refine Canon.out ?_
  split
  · exact .refl _
  next b _ =>
  split
  · exact .refl _
  split
  · exact .after (canon_trapThreads _ _ _) (.after (canon_modTh _ _ _ _)
      (.of_mem_eq (t := (s.coreError b 1 0).unwait (b.th tid)) rfl (.after (canon_unwait _ _) (.of_mem rfl))))
  · exact .ite (.refl _) (.of_mem rfl)

theorem canonOut_execDebuggerResume (s : State) (blk : Nat) (skip : Bool) : CanonOut s (execDebuggerResume blk skip s) := by
  unfold execDebuggerResume
  refine Canon.out ?_
  split
  · exact .refl _
  split
  · exact .of_mem rfl
  split
  · exact .of_mem_eq (State.refreshPools_mem ..) (.after (canon_tret1 _ _ _) (.of_mem rfl))
  · exact .refl _

theorem canonOut_execFqbaseWrite (s : State) (fn die : Nat) (value : DWord) : CanonOut s (execFqbaseWrite fn die value s) := by
  unfold execFqbaseWrite
  refine Canon.out ?_
  split
  · exact .of_mem rfl
  · exact .refl _

theorem canonOut_execShootdownComplete (s : State) (k : Nat) : CanonOut s (execShootdownComplete k s) := by
  unfold execShootdownComplete
  refine Canon.out ?_
  split
  · exact .refl _
  split
  · exact .refl _
  · exact .of_mem rfl

theorem canonOut_execMigrationStart (s : State) (env : Nat) (va : DWord) (target : Nat) : CanonOut s
    (execMigrationStart env va target s) := by
  refine Canon.out ?_
  split
  · dsimp only
    split
    · exact .refl _
    · refine fun h => Canon.ite (canon_copyPage _ _) (.refl _) h
  · exact .refl _

theorem canonOut_execMigrationOpen (s : State) (k : Nat) : CanonOut s (execMigrationOpen k s) := by
  refine Canon.out ?_
  split
  · exact .refl _
  split
  · exact .refl _
  · exact fun h => Canon.ite (.refl _) (canon_copyPage _ _) h

theorem canonOut_execMovedAnswer (s : State) (blk tid : Nat) : CanonOut s (execMovedAnswer blk tid s) := by
  unfold execMovedAnswer
  refine Canon.out ?_
  split
  · exact .refl _
  split
  · exact .of_mem rfl
  · exact .refl _

theorem canonOut_execTransientRetry (s : State) (core line : Nat) : CanonOut s (execTransientRetry core line s) := by
  unfold execTransientRetry
  refine Canon.out ?_
  split
  · exact .refl _
  split
  · exact .refl _
  · split <;> exact .of_mem rfl

theorem canonOut_execPersistentActivation (s : State) (die line : Nat) : CanonOut s (execPersistentActivation die line s) := by
  unfold execPersistentActivation
  refine Canon.out ?_
  dsimp only
  split
  · exact .of_mem rfl
  split
  · exact .of_mem rfl
  · exact .after (Canon.foldl (fun s x => .of_mem (by simp)) _ _) (.of_mem rfl)

theorem canonOut_execRemoteWrite (s : State) (writer : Sys2Proof.Place) (line : Nat) : CanonOut s
    (execRemoteWrite writer line s) := by
  unfold execRemoteWrite
  refine Canon.out ?_
  split
  · exact .refl _
  split
  · exact .refl _
  · split <;> exact .of_mem (by simp)

theorem canonOut_execInvalidationAck (s : State) (place : Sys2Proof.Place) (line : Nat) : CanonOut s
    (execInvalidationAck place line s) := by
  refine Canon.out (.of_mem_eq (State.endRounds_mem ..) ?_)
  exact fun h => Canon.ite (.of_mem (by simp)) (.refl _) h

theorem canonOut_execWriteAck (s : State) (blk k : Nat) : CanonOut s (execWriteAck blk k s) := by
  unfold execWriteAck
  refine Canon.out ?_
  split
  · exact .refl _
  split
  · exact .refl _
  split
  · exact .refl _
  · exact .of_mem (by simp)

theorem canonOut_execRegionReclaim (s : State) (region : Nat) : CanonOut s (execRegionReclaim region s) := by
  unfold execRegionReclaim
  refine Canon.out ?_
  split
  · exact .of_mem (by simp)
  · exact .refl _

theorem canonOut_execInvalidationTimeout (s : State) (line : Nat) : CanonOut s (execInvalidationTimeout line s) := by
  unfold execInvalidationTimeout
  exact Canon.out (Canon.foldl (fun s x => .of_mem (by simp)) _ _)

theorem canonOut_execAckTimeout (s : State) (pkg : Nat) : CanonOut s (execAckTimeout pkg s) := by
  unfold execAckTimeout
  refine Canon.out ?_
  split
  · exact .refl _
  · exact canon_giveUp _ _ _

theorem canonOut_execLoadTimeout (s : State) (blk tid pkg : Nat) : CanonOut s (execLoadTimeout blk tid pkg s) := by
  unfold execLoadTimeout
  refine Canon.out ?_
  split
  · exact .refl _
  split
  · exact .after (canon_failRemote _ _ _ _) (canon_giveUp _ _ _)
  · exact .refl _

theorem canonOut_execFlitReceive (s : State) (port : Nat) (flit : Flit) : CanonOut s (execFlitReceive port flit s) := by
  unfold execFlitReceive
  refine Canon.out ?_
  dsimp only
  split
  · exact .refl _
  split
  · exact .of_mem (by simp)
  split
  · exact .of_mem rfl
  · exact .after (canon_performFlit _ _) (.of_mem rfl)

theorem canonOut_execReplayRequest (s : State) (port : Nat) (seq : Nat × Nat × Nat) : CanonOut s
    (execReplayRequest port seq s) := by
  unfold execReplayRequest
  refine Canon.out ?_
  dsimp only
  split
  · exact .refl _
  · exact .of_mem (by simp)

theorem canonOut_execRemoteAccessArrival (s : State) (source : Nat) (req : RemoteReq) : CanonOut s
    (execRemoteAccessArrival source req s) := by
  unfold execRemoteAccessArrival
  refine Canon.out ?_
  split
  · exact canon_retryPeer _ _
  · exact canon_receive _ _ _

theorem canonOut_execRevokedAnswer (s : State) (blk tid : Nat) : CanonOut s (execRevokedAnswer blk tid s) := by
  unfold execRevokedAnswer
  refine Canon.out ?_
  split
  · exact .refl _
  split
  · exact .refl _
  · exact canon_failRemote _ _ _ _

theorem canonOut_execCorrectionEntryTimer (s : State) (store die : Nat) : CanonOut s
    (execCorrectionEntryTimer store die s) := by
  unfold execCorrectionEntryTimer
  refine Canon.out ?_
  split
  · exact .refl _
  split
  · exact .of_mem rfl
  · exact .refl _

theorem canonOut_execQueueTake (s : State) (die queue : Nat) : CanonOut s (execQueueTake die queue s) := by
  unfold execQueueTake
  refine Canon.out ?_
  split
  · exact canon_visitQueue _ _ _
  · exact .refl _

theorem canonOut_execRegistration (s : State) (task : Nat) : CanonOut s (execRegistration task s) := by
  unfold execRegistration
  refine Canon.out ?_
  split
  · exact .refl _
  split
  · exact .refl _
  split
  · split
    · exact .of_mem (by simp)
    · exact canon_failTask _ _
  split
  · exact .of_mem (by simp)
  · exact .refl _

theorem canonOut_execTaskReady (s : State) (task : Nat) : CanonOut s (execTaskReady task s) := by
  unfold execTaskReady
  refine Canon.out ?_
  split
  · exact .refl _
  split
  · exact .refl _
  split
  · exact canon_killTask _ _
  split
  · exact canon_startTask _ _
  · exact .refl _

theorem canonOut_execBlockPlacement (s : State) (task core : Nat) : CanonOut s (execBlockPlacement task core s) := by
  unfold execBlockPlacement
  refine Canon.out ?_
  split
  · exact .refl _
  split
  · split
    · next h => exact .of_mem_eq (State.endMoves_mem ..) (.of_mem (State.placeNext_mem h))
    split
    · exact canon_restoreAt _ _ _
    split
    · exact .of_mem (by simp)
    · exact .refl _
  · exact .refl _

theorem canonOut_execPriorityAging (s : State) (task : Nat) : CanonOut s (execPriorityAging task s) := by
  unfold execPriorityAging
  refine Canon.out ?_
  split
  · exact .refl _
  split
  · exact .of_mem rfl
  · exact .refl _

theorem canonOut_execPipelineBalance (s : State) (env pipe : Nat) : CanonOut s (execPipelineBalance env pipe s) := by
  unfold execPipelineBalance
  refine Canon.out ?_
  dsimp only
  split
  · exact .of_mem rfl
  split
  · split
    · split
      · split
        · exact .of_mem rfl
        · exact .of_mem (by simp)
      · exact .of_mem rfl
    · exact .of_mem rfl
  · exact .of_mem rfl

theorem canonOut_execGridCompletion (s : State) (task : Nat) : CanonOut s (execGridCompletion task s) := by
  unfold execGridCompletion
  refine Canon.out ?_
  split
  · exact .refl _
  split
  · split
    · exact .of_mem (by simp)
    · exact canon_complete _ _
  · exact .refl _

theorem canonOut_execHostLinkReset (s : State) (width rate : Nat) : CanonOut s (execHostLinkReset width rate s) := by
  unfold execHostLinkReset
  refine Canon.out ?_
  split
  · exact .of_mem rfl
  · exact .refl _

theorem canonOut_execMctpControl (s : State) (msg : MgmtMsg) : CanonOut s (execMctpControl msg s) := by
  unfold execMctpControl
  refine Canon.out ?_
  split
  · exact canon_aelkin _ _ _
  split
  · exact .of_mem rfl
  · exact .of_mem (by simp)
  · exact .of_mem (by simp)
  · split
    · exact canon_aelkin _ _ _
    · exact .refl _
  · exact .refl _

theorem canonOut_execFirmwareUpdate (s : State) (image : List Byte) (whole : Bool) : CanonOut s
    (execFirmwareUpdate image whole s) := by
  unfold execFirmwareUpdate
  refine Canon.out ?_
  split
  · exact .refl _
  · exact .of_mem (by simp)

theorem canonOut_execChallenge (s : State) (slot : Nat) (nonce : List Byte) : CanonOut s (execChallenge slot nonce s) := by
  unfold execChallenge
  refine Canon.out ?_
  split <;> exact .of_mem (by simp)

theorem canonOut_execGetMeasurements (s : State) (index : Nat) : CanonOut s (execGetMeasurements index s) := by
  unfold execGetMeasurements
  refine Canon.out ?_
  split
  · exact .of_mem (by simp)
  split
  · exact .of_mem (by simp)
  · split <;> exact .of_mem (by simp)

theorem canonOut_execNotAnInstruction (s : State) (cause : Cause) : CanonOut s (execNotAnInstruction cause s) := by
  unfold execNotAnInstruction
  refine Canon.out ?_
  split
  · exact .refl _
  split
  · exact canon_failThreads _ _ _ _
  · exact .refl _

theorem canonOut_execHostCompletionTimeout (s : State) (blk tid : Nat) : CanonOut s (execHostCompletionTimeout blk tid s) := by
  unfold execHostCompletionTimeout
  refine Canon.out ?_
  split
  · exact .refl _
  split
  · exact canon_failRemote _ _ _ _
  · exact .refl _

theorem canonOut_execHostLinkTrainsDown (s : State) (width rate : Nat) : CanonOut s (execHostLinkTrainsDown width rate s) := by
  unfold execHostLinkTrainsDown
  refine Canon.out ?_
  split
  · exact .of_mem rfl
  · exact .refl _

theorem canonOut_execDebuggerThreadWrite (s : State) (blk tid : Nat) (selector : Word) (wide : Bool)
    (value : Option DWord) : CanonOut s (execDebuggerThreadWrite blk tid selector wide value s) := by
  unfold execDebuggerThreadWrite
  refine Canon.out ?_
  split
  · exact .refl _
  dsimp only
  split
  · exact .refl _
  split
  · exact .of_mem rfl
  split
  · split
    · exact canon_writeSelector _ _ _ _ _ _ _
    · exact .refl _
  split
  · exact canon_writeSelector _ _ _ _ _ _ _
  · exact .refl _

theorem canonOut_execQueueBinding (s : State) (die queue env : Nat) (mailbox : DWord) : CanonOut s
    (execQueueBinding die queue env mailbox s) := by
  unfold execQueueBinding
  refine Canon.out ?_
  split
  · dsimp only
    split
    · exact .after (canon_putPa _ _ _ _) (.of_mem (by simp))
    · exact .of_mem rfl
  · exact .refl _

theorem canonOut_execRootTableAddress (s : State) (env root : Nat) : CanonOut s (execRootTableAddress env root s) := by
  unfold execRootTableAddress
  refine Canon.out ?_
  split
  · exact .of_mem (by simp)
  · exact .refl _

theorem canonOut_execFunctionBinding (s : State) (fn env : Nat) : CanonOut s (execFunctionBinding fn env s) := by
  unfold execFunctionBinding
  refine Canon.out ?_
  split
  · exact .of_mem rfl
  · exact .refl _

theorem canonOut_execRetirementThreshold (s : State) (n : Nat) : CanonOut s (execRetirementThreshold n s) := by
  unfold execRetirementThreshold
  refine Canon.out ?_
  split
  · exact .of_mem rfl
  · exact .refl _

theorem canonOut_execPowerMeasurement (s : State)  : CanonOut s (execPowerMeasurement s) := by
  unfold execPowerMeasurement
  refine Canon.out ?_
  dsimp only
  split <;> exact .of_mem rfl

theorem canonOut_execColdReset (s : State)  : CanonOut s (execColdReset s) := by
  unfold execColdReset
  refine Canon.out ?_
  split
  · exact .refl _
  · exact canon_coldBoot _

theorem canonOut_execWarmReset (s : State)  : CanonOut s (execWarmReset s) := by
  unfold execWarmReset
  refine Canon.out ?_
  split
  · exact .refl _
  · exact .of_mem (by simp)

theorem canonOut_execWalkComplete (s : State) (walk : Nat) : CanonOut s (execWalkComplete walk s) := by
  refine Canon.out ?_
  split
  · exact .refl _
  split
  · exact .refl _
  next w _ _ =>
  have hc : Canon s (s.correctWalk w.env (pageVa w.page)) := .of_mem (by simp)
  dsimp only
  split
  · exact .after (canon_post _ _ _) hc
  · exact .after (canon_answerWalk _ _ _) (.of_mem_eq (State.fillTlbs_mem ..) hc)
  · exact .ite (.after (canon_refuse _ _ _) (.of_mem_eq (State.uncorrected_mem ..) hc)) (.after (canon_answerWalk _ _ _) hc)

theorem canonOut_exec (i : Instr) (s : State) : CanonOut s (exec i s) := by
  cases i with
  | nop | prefetch | bsync => exact .out (canon_runIssue _ _ _ fun c s => .refl _)
  | bra | brx | call | callx | ret => exact .out (canon_runTransfer _ _ _ _ _)
  | pin | pinAlign => exact .out (canon_pinAt _ _ _ _)
  | width | exit | sleep | sleepuntil | trap => exact .out (canon_runFates _ _ _ _)
  | yield | ifence | xclr | xadd | xfma => exact .out (canon_runIssue _ _ _ fun c s => .of_mem rfl)
  | iadd | isub | imul | imulhi | imin | imax | iaddsat => exact .out (canon_runInt _ _ _ _ _)
  | imad | idiv | irem | iabs | ineg | icmp | iset | not | funnel | bfx | bfi | prmt | sel | mov | movi | lea | plop
    | ffma | fmin | fmax | fcmp | fset | fclass | frnd | fscale | fcvt | f2i | i2f | hadd2 | hfma2 | dot4 | xrnd
    | xmov | cross | tcmp | leaf => exact .out (canon_runAlu _ _ _ _)
  | and | or | xor | andn => exact .out (canon_runBits _ _ _ _)
  | shl | shr | sar | rotl => exact .out (canon_runShift _ _ _ _)
  | popc | clz | ctz | brev => exact .out (canon_runUnary _ _ _ _)
  | fadd | fsub | fmul | fdiv => exact .out (canon_runFloat _ _ _ _)
  | rcp | rsq | sqrt | exp2 | log2 | sin | cos | tanh => exact .out (canon_runFn _ _ _ _)
  | shfl | vote | matchx | red | scan => exact .out (canon_runCross _ _ _ _)
  | atom | bred | bupd => exact .out (canon_runBank _ _ _ _ _ _)
  | waitaddr | park | fetch | barw => exact .out (canon_runMem _ _ _ _ _ fun c s x => .of_mem (by simp))
  | acopy => exact .out (canon_runMem _ _ _ _ _ fun c s x => canon_acopyAct _ _ _)
  | fget => exact .out (canon_runMem _ _ _ _ _ fun c s x => canon_fgetAct _ _ _ _)
  | mbsend => exact .out (canon_runMem _ _ _ _ _ fun c s x => canon_mbsendAct _ _ _)
  | mbrecv => exact .out (canon_runMem _ _ _ _ _ fun c s x => canon_mbrecvAct _ _ _ _)
  | tspawn => exact .out (.after (canon_saveProducer _ _) (canon_runMem _ _ _ _ _ fun c s x => canon_tspawnAct _ _ _ _))
  | mma | mmasp => exact .out (canon_product _ _ _ _)
  | tld => exact .out (canon_moveTile _ _ _ _ fun c s r => .of_mem rfl)
  | tst => exact .out (canon_moveTile _ _ _ _ fun c s r => .after (canon_noteWrite _ _ _ _ _ _ _) (canon_writePa _ _ _))
  | prune | sppack => exact .out (canon_runEach _ _ _ _)
  | bsort | bmerge => exact .out (canon_runOrdered _ _ _ _)
  | resultArrival | accessAccepted | shootdown | portComesBack | directReelPayment | dynamicAddressAssignment
    | thermalTrip => exact .out (.of_mem rfl)
  | lineFill | transientRequest | tokenResponse | remoteRead | invalidation | fillResponse | filterReclaim
    | qstatRead | bboxRead | setLimit | envSet | quarClear | cacheReset | retireCommit | setAckto | setRlc
    | dbgAttach | pldmSensorRead | negotiateAlgorithms | getCertificate | freezeInput | freeze | errCounts
    | getVersion | getCapabilities | getDigests => exact .out (.of_mem (by simp))
  | waitaddrWake | parkedWake | waitTablePoll => exact .out (canon_wakeThread _ _ _ _)
  | fqrespMapped | fqrespRefused | fqrespOverQuota => exact .out (canon_fqAnswer _ _ _ _)
  | laneRepair => exact .out (canon_repairLane _ _ _)
  | boundaryLost => exact .out (canon_loseBoundary _ _)
  | doorbell => exact .out (canon_ring _ _ _ _ _)
  | registerWrite => exact .out (canon_writeBar _ _ _ _)
  | hostMemAccess => exact .out (canon_hostAccess _ _ _)
  | writeBack => exact .out (canon_writeBackTile _ _ _)
  | podSet => exact .out (canon_podSet _ _ _)
  | clause => exact canonOut_execClause _ _
  | ubra => exact canonOut_execUbra _ _
  | arm => exact canonOut_execArm _ _
  | trigger => exact canonOut_execTrigger _ _
  | land => exact canonOut_execLand _ _
  | payout => exact canonOut_execPayout _ _
  | tret => exact canonOut_execTret _ _
  | tread => exact canonOut_execTread _ _
  | twrite => exact canonOut_execTwrite _ _
  | kill => exact canonOut_execKill _ _
  | bkpt => exact canonOut_execBkpt _ _
  | wdog => exact canonOut_execWdog _ _
  | icinv => exact canonOut_execIcinv _ _
  | srd => exact canonOut_execSrd _ _
  | swr => exact canonOut_execSwr _ _
  | xmovWrite => exact canonOut_execXmovWrite _ _
  | binq => exact canonOut_execBinq _ _
  | ld => exact canonOut_execLd _ _
  | st => exact canonOut_execSt _ _
  | lds => exact canonOut_execLds _ _
  | sts => exact canonOut_execSts _ _
  | ldc => exact canonOut_execLdc _ _
  | stc => exact canonOut_execStc _ _
  | ldk => exact canonOut_execLdk _ _
  | atoms => exact canonOut_execAtoms _ _
  | fence => exact canonOut_execFence _ _
  | cctl => exact canonOut_execCctl _ _
  | unpark => exact canonOut_execUnpark _ _
  | aqfence => exact canonOut_execAqfence _ _
  | fput => exact canonOut_execFput _ _
  | ftry => exact canonOut_execFtry _ _
  | bari => exact canonOut_execBari _ _
  | bara => exact canonOut_execBara _ _
  | aclr => exact canonOut_execAclr _ _
  | ald => exact canonOut_execAld _ _
  | ast => exact canonOut_execAst _ _
  | ard => exact canonOut_execArd _ _
  | awr => exact canonOut_execAwr _ _
  | aqnt => exact canonOut_execAqnt _ _
  | intsect => exact canonOut_execIntsect _ _
  | plaitFormation => exact canonOut_execPlaitFormation _ _ _ _
  | poolDue => exact canonOut_execPoolDue _ _ _ _
  | splitLimit => exact canonOut_execSplitLimit _ _ _
  | sleepWake => exact canonOut_execSleepWake _ _ _
  | watchdog => exact canonOut_execWatchdog _ _
  | copyBeat => exact canonOut_execCopyBeat _ _
  | copyComplete => exact canonOut_execCopyComplete _ _
  | promiseMissed => exact canonOut_execPromiseMissed _ _
  | landingSave => exact canonOut_execLandingSave _ _
  | forcedSave => exact canonOut_execForcedSave _ _
  | restore => exact canonOut_execRestore _ _ _
  | turnGroupRotation => exact canonOut_execTurnGroupRotation _ _ _
  | registerReturn => exact canonOut_execRegisterReturn _ _ _
  | debuggerResume => exact canonOut_execDebuggerResume _ _ _
  | walkComplete => exact canonOut_execWalkComplete _ _
  | fqbaseWrite => exact canonOut_execFqbaseWrite _ _ _ _
  | shootdownComplete => exact canonOut_execShootdownComplete _ _
  | migrationStart => exact canonOut_execMigrationStart _ _ _ _
  | migrationOpen => exact canonOut_execMigrationOpen _ _
  | movedAnswer => exact canonOut_execMovedAnswer _ _ _
  | transientRetry => exact canonOut_execTransientRetry _ _ _
  | persistentActivation => exact canonOut_execPersistentActivation _ _ _
  | remoteWrite => exact canonOut_execRemoteWrite _ _ _
  | invalidationAck => exact canonOut_execInvalidationAck _ _ _
  | writeAck => exact canonOut_execWriteAck _ _ _
  | regionReclaim => exact canonOut_execRegionReclaim _ _
  | invalidationTimeout => exact canonOut_execInvalidationTimeout _ _
  | ackTimeout => exact canonOut_execAckTimeout _ _
  | loadTimeout => exact canonOut_execLoadTimeout _ _ _ _
  | flitReceive => exact canonOut_execFlitReceive _ _ _
  | replayRequest => exact canonOut_execReplayRequest _ _ _
  | remoteAccessArrival => exact canonOut_execRemoteAccessArrival _ _ _
  | revokedAnswer => exact canonOut_execRevokedAnswer _ _ _
  | correctionEntryTimer => exact canonOut_execCorrectionEntryTimer _ _ _
  | queueTake => exact canonOut_execQueueTake _ _ _
  | registration => exact canonOut_execRegistration _ _
  | taskReady => exact canonOut_execTaskReady _ _
  | blockPlacement => exact canonOut_execBlockPlacement _ _ _
  | priorityAging => exact canonOut_execPriorityAging _ _
  | pipelineBalance => exact canonOut_execPipelineBalance _ _ _
  | gridCompletion => exact canonOut_execGridCompletion _ _
  | hostLinkReset => exact canonOut_execHostLinkReset _ _ _
  | mctpControl => exact canonOut_execMctpControl _ _
  | firmwareUpdate => exact canonOut_execFirmwareUpdate _ _ _
  | challenge => exact canonOut_execChallenge _ _ _
  | getMeasurements => exact canonOut_execGetMeasurements _ _
  | notAnInstruction => exact canonOut_execNotAnInstruction _ _
  | hostCompletionTimeout => exact canonOut_execHostCompletionTimeout _ _ _
  | hostLinkTrainsDown => exact canonOut_execHostLinkTrainsDown _ _ _
  | debuggerThreadWrite => exact canonOut_execDebuggerThreadWrite _ _ _ _ _ _
  | queueBinding => exact canonOut_execQueueBinding _ _ _ _ _
  | rootTableAddress => exact canonOut_execRootTableAddress _ _ _
  | functionBinding => exact canonOut_execFunctionBinding _ _ _
  | retirementThreshold => exact canonOut_execRetirementThreshold _ _
  | powerMeasurement => exact canonOut_execPowerMeasurement _
  | coldReset => exact canonOut_execColdReset _
  | warmReset => exact canonOut_execWarmReset _

end Sys2Proof.Machine
end

section
/-! SUPPORT. Every step keeps the canonical form of memory; O55. -/

namespace Sys2Proof.Machine

theorem CanonOut.before {s t : State} {r : Host.Outcome State Fault Refusal} (h : CanonOut t r) (k : Canon s t) :
    CanonOut s r :=
  fun u hu => k.trans (h u hu)

theorem CanonOut.fault (s : State) (f : Fault) : CanonOut s (.fault f) := by
  rintro _ ⟨⟩

theorem CanonOut.refused (s : State) (f : Refusal) : CanonOut s (.refused f) := by
  rintro _ ⟨⟩

theorem canonOut_settled {s : State} {r : Host.Outcome State Fault Refusal} (iss : Issue) (h : CanonOut s r) :
    CanonOut s (settled iss r) := by
  cases r with
  | next t => exact .out ((h t rfl).trans (canon_close _ _))
  | fault f => exact .fault _ _
  | refused f => exact .refused _ _

theorem canonOut_take (s : State) (a : Act) : CanonOut s (s.take a) := by
  cases a with
  | issue i =>
    refine .out (.ite (.of_mem (by simp)) ?_)
    split
    · exact .of_mem rfl
    · exact .of_mem rfl
  | frame blk =>
    refine .out ?_
    split
    · exact canon_handlerTrap _ _ _
    · exact .refl _
  | event i => exact canonOut_exec i s

theorem canonOut_choose (s : State) : CanonOut s s.choose := by
  unfold State.choose
  split
  · split
    · next h => exact .out ((canonOut_exec _ _ _ h).trans (.of_mem rfl))
    · next h => exact canonOut_exec _ _
  · exact canonOut_exec _ _
  split
  · exact .out (.of_mem (by simp))
  split
  · exact (canonOut_take _ _).before (.of_mem rfl)
  · dsimp only
    split
    · exact (canonOut_take _ _).before (.of_mem (by simp))
    · exact .out (.of_mem (by simp))

theorem canonOut_runCur (s : State) (iss : Issue) : CanonOut s (s.runCur iss) := by
  unfold State.runCur
  have hs : Canon s (s.skipPads iss.blk (iss.ths.map (·.2))) := .of_mem (by simp)
  generalize s.skipPads iss.blk (iss.ths.map (·.2)) = u at hs ⊢
  dsimp only
  split
  · exact .out (.after (canon_closeNone _) hs)
  next b _ =>
  split
  · exact .out (.after (canon_closeNone _) hs)
  have hf : Canon s (u.fetch b iss).1 := .of_mem_eq (State.fetch_mem ..) hs
  split
  · next h => exact canonOut_settled _ ((canonOut_exec _ _).before ((Canon.of_pair h hf).trans (.of_mem rfl)))
  · next h => exact canonOut_settled _ ((canonOut_exec _ _).before (.of_pair h hf))
  · next h => exact .out (.after (canon_close _ _) (.after (canon_failThreads _ _ _ _) (.of_pair h hf)))
  · next v line h =>
    have hv : Canon s v := .of_pair h hf
    split
    · next h => exact .out (.after (.ite (canon_closeNone _) (.refl _)) (hv.trans (canonOut_exec _ _ _ h)))
    · next h => exact (canonOut_exec _ _).before hv
  · next h => exact .out (.after (canon_close _ _) (.after (canon_foldl_modTh _ _ _ _ _) (.of_pair h hf)))

theorem canonOut_next (s : State) : CanonOut s s.next := by
  unfold State.next
  split
  · exact .fault _ _
  split
  · exact canonOut_runCur _ _
  split
  · unfold State.runAgenda
    split
    · exact (canonOut_exec _ _).before (.of_mem rfl)
    · exact .out (.of_mem rfl)
  split
  · exact .fault _ _
  split
  · exact canonOut_runCur _ _
  · exact canonOut_choose _

/-- Settles O55: every step is a sequence of operations each of which keeps the memory in its canonical form. -/
theorem memoryStaysCanonical : Obligations.MemoryStaysCanonical := by
  unfold Obligations.MemoryStaysCanonical
  exact fun s t hs ht => canonOut_next s t ht hs

end Sys2Proof.Machine
end

section
/-! SUPPORT. Bytes of sparse content and the parts that make an image; O46. -/

namespace Sys2Proof.Machine

/-! ## Bytes of a list as sparse content -/

/-- A little-endian field of a list of bytes. -/
def fieldAt (bs : List Byte) (i n : Nat) : Nat := ofBytesLE ((bs.drop i).take n)

theorem fieldAt_append_left {as bs : List Byte} {i n : Nat} (h : i + n ≤ as.length) : fieldAt (as ++ bs) i n = fieldAt as i n := by
  unfold fieldAt
  rw [List.drop_append_of_le_length (by omega), List.take_append_of_le_length (by simp; omega)]

theorem fieldAt_append_right {as bs : List Byte} {i n : Nat} (h : as.length ≤ i) :
    fieldAt (as ++ bs) i n = fieldAt bs (i - as.length) n := by
  unfold fieldAt
  rw [List.drop_append, List.drop_eq_nil_of_le h, List.nil_append]

theorem fieldAt_toBytesLE (n x : Nat) : fieldAt (toBytesLE n x) 0 n = x % 256 ^ n := by
  rw [fieldAt, List.drop_zero, List.take_of_length_le (by simp), ofBytesLE_toBytesLE]

theorem Memory.val_eq_fieldAt {m : Memory} {a i n : Nat} {bs : List Byte} (hn : i + n ≤ bs.length)
    (h : ∀ q, a + i ≤ q → q < a + i + n → m.get q = bs.getD (q - a) 0#8) : m.val (a + i) n = fieldAt bs i n := by
  unfold Memory.val fieldAt
  congr 1
  refine List.ext_getElem (by simp; omega) fun k hk hk' => ?_
  have hk : k < n := by simpa using hk
  have e : a + i + k - a = i + k := by omega
  simp [Memory.read_eq_map, h (a + i + k) (by omega) (by omega), e, List.getElem?_eq_getElem (show i + k < bs.length by omega)]

/-- The listed bytes of a piece of a list that begins at place `k`. -/
theorem get_sparseFrom (off : Nat) (bs : List Byte) (k q : Nat) :
    Memory.get (((bs.zipIdx k).filter fun x => x.1 != 0#8).map fun x => (off + x.2, x.1)) q =
      if off + k ≤ q ∧ q < off + k + bs.length then bs.getD (q - (off + k)) 0#8 else 0#8 := by
  have low (bs : List Byte) (k : Nat) (hq : q < off + k) :
      Memory.get (((bs.zipIdx k).filter fun x => x.1 != 0#8).map fun x => (off + x.2, x.1)) q = 0#8 := by
    refine Memory.get_of_lt fun c hc => ?_
    obtain ⟨⟨x, i⟩, hx, rfl⟩ := List.mem_map.mp hc
    have := (List.mem_zipIdx (List.mem_filter.mp hx).1).1
    dsimp only
    omega
  induction bs generalizing k with
  | nil => simp [Memory.get]
  | cons b bs ih =>
    have ih := ih (k + 1)
    rcases lt_trichotomy q (off + k) with hq | rfl | hq
    · rw [low _ _ hq, if_neg (by omega)]
    · by_cases hb : b = 0#8
      · simp [List.zipIdx_cons, hb, low bs (k + 1) (by omega)]
      · simp [List.zipIdx_cons, hb, Memory.get]
    · have hne : off + k ≠ q := by omega
      have e : q - (off + k) = q - (off + (k + 1)) + 1 := by omega
      have hcons : Memory.get ((((b :: bs).zipIdx k).filter fun x => x.1 != 0#8).map fun x => (off + x.2, x.1)) q =
          Memory.get (((bs.zipIdx (k + 1)).filter fun x => x.1 != 0#8).map fun x => (off + x.2, x.1)) q := by
        by_cases hb : b = 0#8
        · simp [List.zipIdx_cons, hb]
        · simp [List.zipIdx_cons, hb, Memory.get, hne, hq.not_gt]
      rw [hcons, ih, e, List.getD_cons_succ, List.length_cons]
      exact if_congr (by omega) rfl rfl

theorem get_sparse (off : Nat) (bs : List Byte) (q : Nat) :
    (sparse off bs).get q = if off ≤ q ∧ q < off + bs.length then bs.getD (q - off) 0#8 else 0#8 :=
  get_sparseFrom off bs 0 q

theorem wf_sparseFrom (off : Nat) (bs : List Byte) (k : Nat) :
    Memory.wf (((bs.zipIdx k).filter fun x => x.1 != 0#8).map fun x => (off + x.2, x.1)) = true := by
  induction bs generalizing k with
  | nil => rfl
  | cons b bs ih =>
    by_cases hb : b = 0#8
    · simpa [List.zipIdx_cons, hb] using ih (k + 1)
    · have hlow : ∀ c ∈ ((bs.zipIdx (k + 1)).filter fun x => x.1 != 0#8).map fun x => (off + x.2, x.1), off + k < c.1 := by
        intro c hc
        obtain ⟨⟨x, i⟩, hx, rfl⟩ := List.mem_map.mp hc
        have := (List.mem_zipIdx (List.mem_filter.mp hx).1).1
        dsimp only
        omega
      rw [List.zipIdx_cons, List.filter_cons_of_pos (by simpa using hb), List.map_cons]
      exact Memory.wf_cons.mpr ⟨hb, hlow, ih (k + 1)⟩

theorem wf_sparse (off : Nat) (bs : List Byte) : (sparse off bs).wf = true := wf_sparseFrom off bs 0

/-! ## The image that the parts of a save make -/

/-- A part lists canonical content, and only bytes of its range. -/
def Part.Fits (p : Part) : Prop := p.m.wf = true ∧ ∀ c ∈ p.m, p.off ≤ c.1 ∧ c.1 < p.off + p.len

/-- A part has no byte at an address. -/
def Part.Misses (p : Part) (q : Nat) : Prop := q < p.off ∨ p.off + p.len ≤ q

/-- Parts laid over a content one after the other. -/
def laidOver (m : Memory) (ps : List Part) : Memory := ps.foldl (fun m p => m.overlay p.off p.len p.m) m

theorem fits_partOf (off : Nat) (bs : List Byte) : (partOf off bs).Fits := by
  refine ⟨wf_sparse off bs, fun c hc => ?_⟩
  obtain ⟨⟨x, i⟩, hx, rfl⟩ := List.mem_map.mp hc
  have := List.mem_zipIdx (List.mem_filter.mp hx).1
  dsimp only [partOf]
  omega

theorem fits_slice {m : Memory} (h : m.wf = true) (a n b : Nat) : ({ off := b, len := n, m := m.slice a n b } : Part).Fits :=
  ⟨Memory.wf_slice h a n b, fun _ hc => Memory.bounds_of_mem_slice hc⟩

theorem wf_laidOver {m : Memory} (hm : m.wf = true) (ps : List Part) : (laidOver m ps).wf = true := by
  induction ps generalizing m with
  | nil => exact hm
  | cons p ps ih => exact ih (Memory.wf_overlay hm _ _ _)

theorem laidOver_append (m : Memory) (ps qs : List Part) : laidOver m (ps ++ qs) = laidOver (laidOver m ps) qs := List.foldl_append

theorem get_overlay_of_misses {m : Memory} (hm : m.wf = true) {p : Part} (hp : p.Fits) {q : Nat} (h : p.Misses q) :
    (m.overlay p.off p.len p.m).get q = m.get q := by
  rw [Memory.get_overlay hm hp.1 hp.2, if_neg]
  unfold Part.Misses at h
  omega

theorem get_laidOver_of_misses {m : Memory} (hm : m.wf = true) {ps : List Part} {q : Nat} (hps : ∀ p ∈ ps, p.Fits ∧ p.Misses q) :
    (laidOver m ps).get q = m.get q := by
  induction ps generalizing m with
  | nil => rfl
  | cons p ps ih =>
    obtain ⟨hp, hps⟩ := List.forall_mem_cons.mp hps
    exact (ih (Memory.wf_overlay hm _ _ _) hps).trans (get_overlay_of_misses hm hp.1 hp.2)

/-- What parts leave at an address depends on the content beneath them at that address alone. -/
theorem get_laidOver_congr {m k : Memory} (hm : m.wf = true) (hk : k.wf = true) {ps : List Part} (hps : ∀ p ∈ ps, p.Fits) {q : Nat}
    (h : m.get q = k.get q) : (laidOver m ps).get q = (laidOver k ps).get q := by
  induction ps generalizing m k with
  | nil => exact h
  | cons p ps ih =>
    obtain ⟨hp, hps⟩ := List.forall_mem_cons.mp hps
    refine ih (Memory.wf_overlay hm _ _ _) (Memory.wf_overlay hk _ _ _) hps ?_
    rw [Memory.get_overlay hm hp.1 hp.2, Memory.get_overlay hk hp.1 hp.2, h]

theorem get_laidOver_append_left {m : Memory} (hm : m.wf = true) {ps qs : List Part} {q : Nat} (h : ∀ p ∈ qs, p.Fits ∧ p.Misses q) :
    (laidOver m (ps ++ qs)).get q = (laidOver m ps).get q := by
  rw [laidOver_append, get_laidOver_of_misses (wf_laidOver hm ps) h]

theorem get_laidOver_append_right {m : Memory} (hm : m.wf = true) {ps qs : List Part} {q : Nat} (h : ∀ p ∈ ps, p.Fits ∧ p.Misses q)
    (hqs : ∀ p ∈ qs, p.Fits) : (laidOver m (ps ++ qs)).get q = (laidOver m qs).get q := by
  rw [laidOver_append]
  exact get_laidOver_congr (wf_laidOver hm ps) hm hqs (get_laidOver_of_misses hm h)

theorem get_laidOver_cons_of_misses {m : Memory} (hm : m.wf = true) {p : Part} {ps : List Part} {q : Nat} (hp : p.Fits)
    (h : p.Misses q)
    (hps : ∀ p ∈ ps, p.Fits) : (laidOver m (p :: ps)).get q = (laidOver m ps).get q :=
  get_laidOver_append_right (ps := [p]) hm (by simpa using ⟨hp, h⟩) hps

theorem get_laidOver_single {m : Memory} (hm : m.wf = true) {p : Part} (hp : p.Fits) {q : Nat} (h1 : p.off ≤ q)
    (h2 : q < p.off + p.len) :
    (laidOver m [p]).get q = p.m.get q := by
  rw [laidOver, List.foldl_cons, List.foldl_nil, Memory.get_overlay hm hp.1 hp.2, if_pos ⟨h1, h2⟩]

section
variable {part : Nat → Part} {base w n : Nat}

/-- Parts of one width, one after the other, of which some are left out. -/
theorem misses_family (hoff : ∀ k, (part k).off = base + w * k) (hlen : ∀ k < n, (part k).len = w) (hfit : ∀ k < n, (part k).Fits)
    (f : Nat → Bool) {q : Nat} (hq : q < base ∨ base + w * n ≤ q) : ∀ p ∈ ((List.range n).filter f).map part, p.Fits ∧
      p.Misses q := by
  intro p hp
  obtain ⟨k, hk, rfl⟩ := List.mem_map.mp hp
  have hk : k < n := List.mem_range.mp (List.mem_filter.mp hk).1
  refine ⟨hfit k hk, ?_⟩
  have hw : w * (k + 1) ≤ w * n := Nat.mul_le_mul_left w hk
  rw [Nat.mul_succ] at hw
  rw [Part.Misses, hoff, hlen k hk]
  omega

theorem get_laidOver_family (hoff : ∀ k, (part k).off = base + w * k) (hlen : ∀ k < n, (part k).len = w)
    (hfit : ∀ k < n, (part k).Fits)
    (f : Nat → Bool) {m : Memory} (hm : m.wf = true) {k q : Nat} (hk : k < n) (h1 : base + w * k ≤ q) (h2 : q < base + w * k + w) :
    (laidOver m (((List.range n).filter f).map part)).get q = if f k then (part k).m.get q else m.get q := by
  induction n with
  | zero => omega
  | succ n ih =>
    have hlen' (k : Nat) (h : k < n) := hlen k (Nat.lt_succ_of_lt h)
    have hfit' (k : Nat) (h : k < n) := hfit k (Nat.lt_succ_of_lt h)
    have hlast (p : Part) (hp : p ∈ ((List.filter f [n]).map part)) : p = part n := by
      obtain ⟨j, hj, rfl⟩ := List.mem_map.mp hp
      rw [List.mem_singleton.mp (List.mem_filter.mp hj).1]
    rw [List.range_succ, List.filter_append, List.map_append]
    rcases Nat.lt_succ_iff_lt_or_eq.mp hk with hk | rfl
    · rw [get_laidOver_append_left hm, ih hlen' hfit' hk]
      intro p hp
      rw [hlast p hp]
      have hw : w * (k + 1) ≤ w * n := Nat.mul_le_mul_left w hk
      rw [Nat.mul_succ] at hw
      refine ⟨hfit n (Nat.lt_succ_self n), .inl ?_⟩
      rw [hoff]
      omega
    · rw [get_laidOver_append_right hm (misses_family hoff hlen' hfit' f (.inr h1)) fun p hp => hlast p hp ▸ hfit k hk]
      cases hf : f k
      · simp [hf, laidOver]
      · have hone : (List.filter f [k]).map part = [part k] := by simp [hf]
        rw [hone, get_laidOver_single hm (hfit k hk) (by rw [hoff]; exact h1) (by rw [hoff, hlen k hk]; exact h2)]
        rfl

end

/-- Lists of parts, each in a slot of its own. -/
theorem get_laidOver_slots {F : Nat → List Part} {base w n : Nat} (hfit : ∀ k < n, ∀ p ∈ F k, p.Fits)
    (hin : ∀ k < n, ∀ p ∈ F k, base + k * w ≤ p.off ∧ p.off + p.len ≤ base + k * w + w) {m : Memory} (hm : m.wf = true) {k q : Nat}
    (hk : k < n) (h1 : base + k * w ≤ q) (h2 : q < base + k * w + w) :
    (laidOver m ((List.range n).map F).flatten).get q = (laidOver m (F k)).get q := by
  have hout (j : Nat) (hj : j < n) (hne : j ≠ k) (p : Part) (hp : p ∈ F j) : p.Fits ∧ p.Misses q := by
    refine ⟨hfit j hj p hp, ?_⟩
    have := hin j hj p hp
    unfold Part.Misses
    rcases Nat.lt_or_gt_of_ne hne with h | h
    · have hw := Nat.mul_le_mul_right w (Nat.succ_le_of_lt h)
      rw [Nat.succ_mul] at hw
      omega
    · have hw := Nat.mul_le_mul_right w (Nat.succ_le_of_lt h)
      rw [Nat.succ_mul] at hw
      omega
  induction n with
  | zero => omega
  | succ n ih =>
    rw [List.range_succ, List.map_append, List.flatten_append, List.map_singleton, List.flatten_singleton]
    rcases Nat.lt_succ_iff_lt_or_eq.mp hk with hk | rfl
    · rw [get_laidOver_append_left hm (hout n n.lt_succ_self (by omega))]
      exact ih (fun j hj => hfit j (by omega)) (fun j hj => hin j (by omega)) hk fun j hj => hout j (by omega)
    · refine get_laidOver_append_right hm (fun p hp => ?_) (hfit k hk)
      obtain ⟨l, hl, hp⟩ := List.mem_flatten.mp hp
      obtain ⟨j, hj, rfl⟩ := List.mem_map.mp hl
      have hj := List.mem_range.mp hj
      exact hout j (by omega) (by omega) p hp

end Sys2Proof.Machine
end

section
/-! SUPPORT. The parts of a save; O46. -/

namespace Sys2Proof.Machine

section
variable {b : Block} {kind : Nat} {live : Live} {stopped : Bool}

/-! ## The sections of the block's own state (R356) -/

/-- The live uniform registers. -/
def Block.uregParts (b : Block) (live : Live) : List Part :=
  ((List.range b.cfg.uAlloc).filter (live.u.testBit ·)).map fun n =>
    partOf (LaunchRec.offU + 8 * n) (toBytesLE 8 (b.uregs.getD n {}).val.toNat)

/-- The live exact accumulators. -/
def Block.xsumParts (b : Block) (live : Live) : List Part :=
  ((List.range b.cfg.xsums).filter (live.x.testBit ·)).map fun k =>
    partOf (b.cfg.offX + 80 * k) (toBytesLE 80 (b.xs.getD k {}).n.toNat)

/-- A tile's part. -/
def Block.tilePart (b : Block) (k : Nat) : Part :=
  { off := b.cfg.offT + 4096 * k, len := 4096, m := b.tiles.slice (4096 * k) 4096 (b.cfg.offT + 4096 * k) }

/-- The live tiles. -/
def Block.tileParts (b : Block) (live : Live) : List Part :=
  ((List.range b.cfg.tiles).filter (live.t.testBit ·)).map b.tilePart

/-- The accumulator rows, when they are live. -/
def Block.rowParts (b : Block) (live : Live) : List Part :=
  if live.acc then [{ off := b.cfg.offA, len := 256 * b.cfg.rowAlloc, m := b.rows.slice 0 (256 * b.cfg.rowAlloc) b.cfg.offA }]
    else []

/-- The scratchpad. -/
def Block.scratchPart (b : Block) : Part :=
  { off := b.cfg.offS, len := b.cfg.scratch, m := b.scratch.slice 0 b.cfg.scratch b.cfg.offS }

theorem blockParts_eq : b.blockParts kind live stopped = partOf 0 (b.saveHeader kind live stopped) ::
    (b.uregParts live ++ b.xsumParts live ++ b.tileParts live ++ b.rowParts live ++ [b.scratchPart]) := rfl

theorem length_saveHeader : (b.saveHeader kind live stopped).length = 256 := by
  unfold Block.saveHeader
  extract_lets d due rp
  clear_value rp due
  simp only [List.length_append, length_toBytesLE, List.length_map, List.length_range]

theorem length_threadHeader (t : Nat) (r : Option (DWord × Live)) : (b.threadHeader t kind r).length = 64 := by
  simp only [Block.threadHeader, List.length_append, length_toBytesLE]

theorem LaunchRec.offX_le (r : LaunchRec) : LaunchRec.offU + 8 * r.uAlloc ≤ r.offX := by
  unfold LaunchRec.offX align64 roundUpTo
  omega

theorem LaunchRec.offT_le (r : LaunchRec) : r.offX + 80 * r.xsums ≤ r.offT := by
  unfold LaunchRec.offT align64 roundUpTo
  omega

theorem LaunchRec.offH_le (r : LaunchRec) : r.offS + r.scratch ≤ r.offH := by
  unfold LaunchRec.offH LaunchRec.scratchAlloc roundUpTo
  omega

theorem misses_header {q : Nat} (h : 256 ≤ q) :
    (partOf 0 (b.saveHeader kind live stopped)).Fits ∧ (partOf 0 (b.saveHeader kind live stopped)).Misses q :=
  ⟨fits_partOf _ _, .inr (by simpa [partOf, length_saveHeader] using h)⟩

theorem misses_uregParts {q : Nat} (h : q < 256 ∨ b.cfg.offX ≤ q) : ∀ p ∈ b.uregParts live, p.Fits ∧ p.Misses q := by
  have hX := b.cfg.offX_le
  exact misses_family (fun _ => rfl) (fun _ _ => by simp [partOf]) (fun _ _ => fits_partOf _ _) _
    (by unfold LaunchRec.offU at hX ⊢; omega)

theorem misses_xsumParts {q : Nat} (h : q < b.cfg.offX ∨ b.cfg.offT ≤ q) : ∀ p ∈ b.xsumParts live, p.Fits ∧ p.Misses q := by
  have hT := b.cfg.offT_le
  exact misses_family (fun _ => rfl) (fun _ _ => by simp [partOf]) (fun _ _ => fits_partOf _ _) _ (by omega)

theorem misses_tileParts (hw : b.tiles.wf = true) {q : Nat} (h : q < b.cfg.offT ∨ b.cfg.offA ≤ q) :
    ∀ p ∈ b.tileParts live, p.Fits ∧ p.Misses q :=
  misses_family (part := b.tilePart) (fun _ => rfl) (fun _ _ => rfl) (fun _ _ => fits_slice hw _ _ _) _ h

theorem misses_rowParts (hw : b.rows.wf = true) {q : Nat} (h : q < b.cfg.offA ∨ b.cfg.offS ≤ q) :
    ∀ p ∈ b.rowParts live, p.Fits ∧ p.Misses q := by
  intro p hp
  unfold Block.rowParts at hp
  split at hp
  · rw [List.mem_singleton.mp hp]
    exact ⟨fits_slice hw _ _ _, h⟩
  · cases hp

theorem misses_scratchPart (hw : b.scratch.wf = true) {q : Nat} (h : q < b.cfg.offS ∨ b.cfg.offH ≤ q) :
    ∀ p ∈ [b.scratchPart], p.Fits ∧ p.Misses q := by
  intro p hp
  have hH := b.cfg.offH_le
  rw [List.mem_singleton.mp hp]
  refine ⟨fits_slice hw _ _ _, ?_⟩
  unfold Part.Misses Block.scratchPart
  dsimp only
  omega

/-! ## The parts of the threads (R358) -/

/-- The parts of a save's threads, with their liveness records. -/
def Block.allThreadParts (b : Block) (kind : Nat) (recs : Nat → Option (DWord × Live)) : List Part :=
  ((List.range b.cfg.bsize).map fun t => b.threadParts t kind (recs t)).flatten

/-- The part of one register of a thread. -/
def Block.regPart (b : Block) (t n : Nat) : Part :=
  partOf (b.cfg.offH + t * b.cfg.stride + 64 + 4 * n) (toBytesLE 4 ((b.th t).v.getD n 0#32).toNat)

theorem threadParts_exited {t : Nat} (r : Option (DWord × Live)) (h : (b.th t).st = .exited) :
    b.threadParts t kind r = [partOf (b.cfg.offH + t * b.cfg.stride) (b.threadHeader t kind r)] := by
  simp [Block.threadParts, h]

theorem threadParts_full {t : Nat} (h : (b.th t).st ≠ .exited) :
    b.threadParts t kind none = [partOf (b.cfg.offH + t * b.cfg.stride) (b.threadHeader t kind none),
      partOf (b.cfg.offH + t * b.cfg.stride + 64)
        ((List.range b.cfg.vAlloc).map fun n => toBytesLE 4 ((b.th t).v.getD n 0#32).toNat).flatten] := by
  simp [Block.threadParts, h]

theorem threadParts_live {t : Nat} (r : DWord × Live) (h : (b.th t).st ≠ .exited) :
    b.threadParts t kind (some r) = partOf (b.cfg.offH + t * b.cfg.stride) (b.threadHeader t kind (some r)) ::
      ((List.range b.cfg.vAlloc).filter (r.2.v.testBit ·)).map (b.regPart t) := by
  simp [Block.threadParts, h, Block.regPart]

theorem length_regBytes (t n : Nat) :
    ((List.range n).map fun n => toBytesLE 4 ((b.th t).v.getD n 0#32).toNat).flatten.length = 4 * n := by
  simp [List.length_flatten, Function.comp_def, Nat.mul_comm]

/-- A thread's parts begin with its header; what follows lies in its registers. -/
theorem threadParts_eq (t : Nat) (r : Option (DWord × Live)) :
    ∃ ps, b.threadParts t kind r = partOf (b.cfg.offH + t * b.cfg.stride) (b.threadHeader t kind r) :: ps ∧
      ∀ p ∈ ps, p.Fits ∧ b.cfg.offH + t * b.cfg.stride + 64 ≤ p.off ∧
        p.off + p.len ≤ b.cfg.offH + t * b.cfg.stride + b.cfg.stride := by
  by_cases h : (b.th t).st = .exited
  · exact ⟨[], threadParts_exited r h, by simp⟩
  cases r with
  | none =>
    refine ⟨_, threadParts_full h, fun p hp => ?_⟩
    rw [List.mem_singleton.mp hp]
    refine ⟨fits_partOf _ _, le_rfl, ?_⟩
    unfold partOf LaunchRec.stride
    dsimp only
    rw [length_regBytes]
    omega
  | some r =>
    refine ⟨_, threadParts_live r h, fun p hp => ?_⟩
    obtain ⟨n, hn, rfl⟩ := List.mem_map.mp hp
    have hn := List.mem_range.mp (List.mem_filter.mp hn).1
    refine ⟨fits_partOf _ _, ?_⟩
    unfold Block.regPart partOf LaunchRec.stride
    dsimp only
    rw [length_toBytesLE]
    omega

theorem fits_threadParts (t : Nat) (r : Option (DWord × Live)) : ∀ p ∈ b.threadParts t kind r, p.Fits ∧
    b.cfg.offH + t * b.cfg.stride ≤ p.off ∧ p.off + p.len ≤ b.cfg.offH + t * b.cfg.stride + b.cfg.stride := by
  obtain ⟨ps, h, hps⟩ := threadParts_eq (b := b) (kind := kind) t r
  rw [h]
  intro p hp
  rcases List.mem_cons.mp hp with rfl | hp
  · refine ⟨fits_partOf _ _, le_rfl, ?_⟩
    unfold partOf LaunchRec.stride
    dsimp only
    rw [length_threadHeader]
    omega
  · obtain ⟨h1, h2, h3⟩ := hps p hp
    exact ⟨h1, by omega, h3⟩

theorem misses_allThreadParts (recs : Nat → Option (DWord × Live)) {q : Nat} (h : q < b.cfg.offH) :
    ∀ p ∈ b.allThreadParts kind recs, p.Fits ∧ p.Misses q := by
  intro p hp
  obtain ⟨l, hl, hp⟩ := List.mem_flatten.mp hp
  obtain ⟨t, -, rfl⟩ := List.mem_map.mp hl
  obtain ⟨h1, h2, -⟩ := fits_threadParts t _ p hp
  exact ⟨h1, .inl (by omega)⟩

end

end Sys2Proof.Machine
end

section
/-! SUPPORT. The headers of a save; O46. -/

namespace Sys2Proof.Machine

/-! ## The fields of the headers (R357, R358) -/

section
variable (b : Block) (kind : Nat) (live : Live) (stopped : Bool)

theorem saveHeader_words :
    fieldAt (b.saveHeader kind live stopped) 0x28 4 = b.regs.ustat.toNat ∧
    fieldAt (b.saveHeader kind live stopped) 0x2C 4 = b.regs.fmode.toNat ∧
    fieldAt (b.saveHeader kind live stopped) 0x30 4 = b.regs.wdog.toNat ∧
    fieldAt (b.saveHeader kind live stopped) 0x34 4 = b.regs.inlmax.toNat ∧
    fieldAt (b.saveHeader kind live stopped) 0x38 8 = b.wdPeriod - b.wdrun ∧
    fieldAt (b.saveHeader kind live stopped) 0x40 4 = b.regs.wtovf.toNat ∧
    fieldAt (b.saveHeader kind live stopped) 0x44 2 = b.place.parkn % 2 ^ 16 ∧
    fieldAt (b.saveHeader kind live stopped) 0x50 8 = ((if b.rowprog.valid then 128 else 0) + (if b.rowprog.side then 64 else 0) +
      b.rowprog.row + 2 ^ 32 * b.rowprog.pcoff.toNat) % 2 ^ 64 := by
  unfold Block.saveHeader
  extract_lets d due rp
  have hrp : rp = (if b.rowprog.valid then 128 else 0) + (if b.rowprog.side then 64 else 0) + b.rowprog.row +
      2 ^ 32 * b.rowprog.pcoff.toNat := rfl
  have hw (x : Word) : x.toNat < 4294967296 := x.isLt
  have hd : b.wdPeriod - b.wdrun < 18446744073709551616 := by
    have := hw b.regs.wdog
    unfold Block.wdPeriod
    omega
  rw [← hrp]
  clear_value rp due
  simp [fieldAt_append_left, fieldAt_append_right, fieldAt_toBytesLE, hw, hd]

theorem fieldAt_one {bs : List Byte} {i : Nat} (h : i < bs.length) : fieldAt bs i 1 = bs[i].toNat := by
  rw [fieldAt, List.drop_eq_getElem_cons h, List.take_succ_cons]
  simp [ofBytesLE]

theorem saveHeader_xst {k : Nat} (hk : k < 8) : fieldAt (b.saveHeader kind live stopped) (0x80 + k) 1 =
    if live.x.testBit k then ((b.xs.getD k {}).st).toNat else 0 := by
  unfold Block.saveHeader
  extract_lets d due rp
  clear_value rp due
  rw [fieldAt_append_left (by simp; omega), fieldAt_append_right (by simp), fieldAt_one (by simpa using hk)]
  have hs := ((b.xs.getD k {}).st).isLt
  have hv : (if live.x.testBit k then ((b.xs.getD k {}).st).toNat else 0) < 256 := by split <;> omega
  simpa using hv

theorem stateCode_lt (st : TState) : stateCode st < 5 := by cases st <;> decide

theorem threadHeader_fields (t : Nat) (r : Option (DWord × Live)) :
    fieldAt (b.threadHeader t kind r) 4 1 = (if (b.th t).st = .trapped then 0 else stateCode (b.th t).st) ∧
    fieldAt (b.threadHeader t kind r) 7 1 = ((b.th t).p.toNat &&& (r.map (·.2.p)).getD 127) % 256 ∧
    fieldAt (b.threadHeader t kind r) 8 4 = ((b.th t).pc - b.codeBase).toNat % 2 ^ 32 ∧
    fieldAt (b.threadHeader t kind r) 0x0C 4 = (b.th t).seed.toNat ∧
    fieldAt (b.threadHeader t kind r) 0x10 4 = (b.th t).armed.toNat ∧
    fieldAt (b.threadHeader t kind r) 0x14 4 = (if (b.th t).triggered then 1 else 0) +
      (if kind != 1 && (b.th t).group.isSome then 2 else 0) := by
  have hw (x : Word) : x.toNat < 4294967296 := x.isLt
  have hst : (if (b.th t).st = .trapped then 0 else stateCode (b.th t).st) < 256 := by
    have := stateCode_lt (b.th t).st
    split <;> omega
  have hmisc : (if (b.th t).triggered then 1 else 0) + (if kind != 1 && (b.th t).group.isSome then 2 else 0) < 4294967296 := by
    split <;> split <;> omega
  unfold Block.threadHeader
  dsimp only
  generalize (if (b.th t).st = .trapped then 0 else stateCode (b.th t).st) = st at hst ⊢
  generalize (if (b.th t).triggered then 1 else 0) + (if kind != 1 && (b.th t).group.isSome then 2 else 0) = misc at hmisc ⊢
  cases r <;> simp [fieldAt_append_left, fieldAt_append_right, fieldAt_toBytesLE, hw, hst, hmisc]

end
end Sys2Proof.Machine
end

section
/-! SUPPORT. What each section of the image of a save holds; O46. -/

namespace Sys2Proof.Machine

/-! ## What the image of a save holds in each section (R356) -/

/-- The parts of a save of all threads, with their liveness records. -/
def Block.saveParts (b : Block) (kind : Nat) (live : Live) (stopped : Bool) (recs : Nat → Option (DWord × Live)) : List Part :=
  b.blockParts kind live stopped ++ b.allThreadParts kind recs

/-- The image of a save. -/
def Block.saveImage (b : Block) (kind : Nat) (live : Live) (stopped : Bool) (recs : Nat → Option (DWord × Live)) : Memory :=
  laidOver [] (b.saveParts kind live stopped recs)

theorem LaunchRec.section_le (r : LaunchRec) : 256 ≤ r.offX ∧ r.offX ≤ r.offT ∧ r.offT ≤ r.offA ∧ r.offA ≤ r.offS ∧
    r.offS ≤ r.offH := by
  have h1 := r.offX_le
  have h2 := r.offT_le
  unfold LaunchRec.offU at h1
  unfold LaunchRec.offH LaunchRec.offS LaunchRec.offA
  omega

theorem wf_nil : Memory.wf ([] : Memory) = true := rfl

section
variable {b : Block} (kind : Nat) (live : Live) (stopped : Bool) (recs : Nat → Option (DWord × Live)) {q : Nat}

/-- Past the header, the parts of one section alone count. -/
theorem get_image_section {qs : List Part} (hq : 256 ≤ q) (hqs : ∀ p ∈ qs, p.Fits) (before after : List Part)
    (hall : b.uregParts live ++ b.xsumParts live ++ b.tileParts live ++ b.rowParts live ++ [b.scratchPart] ++
      b.allThreadParts kind recs = before ++ qs ++ after)
    (hbefore : ∀ p ∈ before, p.Fits ∧ p.Misses q) (hafter : ∀ p ∈ after, p.Fits ∧ p.Misses q) :
    (b.saveImage kind live stopped recs).get q = (laidOver [] qs).get q := by
  unfold Block.saveImage Block.saveParts
  obtain ⟨hf, hm⟩ := misses_header (b := b) (kind := kind) (live := live) (stopped := stopped) hq
  rw [blockParts_eq, List.cons_append, hall, get_laidOver_cons_of_misses wf_nil hf hm, get_laidOver_append_left wf_nil hafter,
    get_laidOver_append_right wf_nil hbefore hqs]
  simp only [List.forall_mem_append]
  exact ⟨⟨fun p hp => (hbefore p hp).1, hqs⟩, fun p hp => (hafter p hp).1⟩

end

section
variable {b : Block} (hT : b.tiles.wf = true) (hR : b.rows.wf = true) (hS : b.scratch.wf = true)
variable (kind : Nat) (live : Live) (stopped : Bool) (recs : Nat → Option (DWord × Live)) {q : Nat}
include hT hR hS

theorem get_image_header (h : q < 256) :
    (b.saveImage kind live stopped recs).get q = (b.saveHeader kind live stopped).getD q 0#8 := by
  obtain ⟨hX, hT', hA, hS', hH⟩ := b.cfg.section_le
  unfold Block.saveImage Block.saveParts
  rw [blockParts_eq, get_laidOver_append_left wf_nil (misses_allThreadParts recs (by omega)), ← List.singleton_append,
    get_laidOver_append_left wf_nil, get_laidOver_single wf_nil (fits_partOf _ _) (Nat.zero_le _)
      (by simpa [partOf, length_saveHeader] using h)]
  · have h0 : 0 ≤ q ∧ q < 0 + (b.saveHeader kind live stopped).length := by rw [length_saveHeader]; omega
    simp only [partOf, get_sparse, if_pos h0, Nat.sub_zero]
  · simp only [List.forall_mem_append]
    exact ⟨⟨⟨⟨misses_uregParts (by omega), misses_xsumParts (by omega)⟩, misses_tileParts hT (by omega)⟩,
      misses_rowParts hR (by omega)⟩, misses_scratchPart hS (by omega)⟩

theorem get_image_uregs (h1 : 256 ≤ q) (h2 : q < b.cfg.offX) :
    (b.saveImage kind live stopped recs).get q = (laidOver [] (b.uregParts live)).get q := by
  obtain ⟨hX, hT', hA, hS', hH⟩ := b.cfg.section_le
  refine get_image_section kind live stopped recs (by omega) (fun p hp => (misses_uregParts (q := 0) (by omega) p hp).1) []
    (b.xsumParts live ++ b.tileParts live ++ b.rowParts live ++ [b.scratchPart] ++ b.allThreadParts kind recs)
      (by simp only [List.append_assoc, List.nil_append])
    nofun ?_
  simp only [List.forall_mem_append]
  exact ⟨⟨⟨⟨misses_xsumParts (by omega), misses_tileParts hT (by omega)⟩, misses_rowParts hR (by omega)⟩,
    misses_scratchPart hS (by omega)⟩, misses_allThreadParts recs (by omega)⟩

theorem get_image_xsums (h1 : b.cfg.offX ≤ q) (h2 : q < b.cfg.offT) :
    (b.saveImage kind live stopped recs).get q = (laidOver [] (b.xsumParts live)).get q := by
  obtain ⟨hX, hT', hA, hS', hH⟩ := b.cfg.section_le
  refine get_image_section kind live stopped recs (by omega) (fun p hp => (misses_xsumParts (q := 0) (by omega) p hp).1)
    (b.uregParts live) (b.tileParts live ++ b.rowParts live ++ [b.scratchPart] ++ b.allThreadParts kind recs)
      (by simp only [List.append_assoc])
    (misses_uregParts (by omega)) ?_
  simp only [List.forall_mem_append]
  exact ⟨⟨⟨misses_tileParts hT (by omega), misses_rowParts hR (by omega)⟩, misses_scratchPart hS (by omega)⟩,
    misses_allThreadParts recs (by omega)⟩

theorem get_image_tiles (h1 : b.cfg.offT ≤ q) (h2 : q < b.cfg.offA) :
    (b.saveImage kind live stopped recs).get q = (laidOver [] (b.tileParts live)).get q := by
  obtain ⟨hX, hT', hA, hS', hH⟩ := b.cfg.section_le
  refine get_image_section kind live stopped recs (by omega) (fun p hp => (misses_tileParts (q := 0) hT (by omega) p hp).1)
    (b.uregParts live ++ b.xsumParts live) (b.rowParts live ++ [b.scratchPart] ++ b.allThreadParts kind recs)
      (by simp only [List.append_assoc]) ?_ ?_
  · simp only [List.forall_mem_append]
    exact ⟨misses_uregParts (by omega), misses_xsumParts (by omega)⟩
  · simp only [List.forall_mem_append]
    exact ⟨⟨misses_rowParts hR (by omega), misses_scratchPart hS (by omega)⟩, misses_allThreadParts recs (by omega)⟩

theorem get_image_rows (h1 : b.cfg.offA ≤ q) (h2 : q < b.cfg.offS) :
    (b.saveImage kind live stopped recs).get q = (laidOver [] (b.rowParts live)).get q := by
  obtain ⟨hX, hT', hA, hS', hH⟩ := b.cfg.section_le
  refine get_image_section kind live stopped recs (by omega) (fun p hp => (misses_rowParts (q := 0) hR (by omega) p hp).1)
    (b.uregParts live ++ b.xsumParts live ++ b.tileParts live) ([b.scratchPart] ++ b.allThreadParts kind recs)
      (by simp only [List.append_assoc]) ?_ ?_
  · simp only [List.forall_mem_append]
    exact ⟨⟨misses_uregParts (by omega), misses_xsumParts (by omega)⟩, misses_tileParts hT (by omega)⟩
  · exact List.forall_mem_append.mpr ⟨misses_scratchPart hS (by omega), misses_allThreadParts recs (by omega)⟩

theorem get_image_scratch (h1 : b.cfg.offS ≤ q) (h2 : q < b.cfg.offH) :
    (b.saveImage kind live stopped recs).get q = (laidOver [] [b.scratchPart]).get q := by
  obtain ⟨hX, hT', hA, hS', hH⟩ := b.cfg.section_le
  refine get_image_section kind live stopped recs (by omega) (fun p hp => (misses_scratchPart (q := 0) hS (by omega) p hp).1)
    (b.uregParts live ++ b.xsumParts live ++ b.tileParts live ++ b.rowParts live)
      (b.allThreadParts kind recs) rfl ?_ (misses_allThreadParts recs (by omega))
  simp only [List.forall_mem_append]
  exact ⟨⟨⟨misses_uregParts (by omega), misses_xsumParts (by omega)⟩, misses_tileParts hT (by omega)⟩, misses_rowParts hR (by omega)⟩

theorem get_image_thread {t : Nat} (ht : t < b.cfg.bsize) (h1 : b.cfg.offH + t * b.cfg.stride ≤ q)
    (h2 : q < b.cfg.offH + t * b.cfg.stride + b.cfg.stride) :
    (b.saveImage kind live stopped recs).get q = (laidOver [] (b.threadParts t kind (recs t))).get q := by
  obtain ⟨hX, hT', hA, hS', hH⟩ := b.cfg.section_le
  rw [← get_laidOver_slots (fun k _ p hp => (fits_threadParts k (recs k) p hp).1)
      (fun k _ p hp => (fits_threadParts k (recs k) p hp).2)
    wf_nil ht h1 h2]
  refine get_image_section kind live stopped recs (by omega) (fun p hp => (misses_allThreadParts (q := 0) recs (by omega) p hp).1)
    (b.uregParts live ++ b.xsumParts live ++ b.tileParts live ++ b.rowParts live ++ [b.scratchPart]) [] (by
      rw [List.append_nil]; rfl) ?_ nofun
  simp only [List.forall_mem_append]
  exact ⟨⟨⟨⟨misses_uregParts (by omega), misses_xsumParts (by omega)⟩, misses_tileParts hT (by omega)⟩,
      misses_rowParts hR (by omega)⟩,
    misses_scratchPart hS (by omega)⟩

end

end Sys2Proof.Machine
end

section
/-! SUPPORT. A block's own state, read back from the image of its save; O46. -/

namespace Sys2Proof.Machine

/-! ## Values read from the image -/

theorem Memory.val_eq_zero {m : Memory} {a n : Nat} (h : ∀ q, a ≤ q → q < a + n → m.get q = 0#8) : m.val a n = 0 := by
  have hz : m.val (a + 0) n = fieldAt (toBytesLE n 0) 0 n := by
    refine Memory.val_eq_fieldAt (by simp) fun q h1 h2 => ?_
    have hget : ∀ n i, (toBytesLE n 0).getD i 0#8 = 0#8 := by
      intro n
      induction n with
      | zero => simp [toBytesLE]
      | succ n ih =>
        intro i
        cases i with
        | zero => rfl
        | succ i => simpa [toBytesLE] using ih i
    rw [h q h1 h2, hget]
  rw [fieldAt_toBytesLE, Nat.zero_mod] at hz
  exact hz

/-- A field that lies in bytes as a part lists them. -/
theorem Memory.val_of_sparse {M : Memory} {off i n : Nat} {bs : List Byte} (hi : i + n ≤ bs.length)
    (h : ∀ q, off + i ≤ q → q < off + i + n → M.get q = (sparse off bs).get q) : M.val (off + i) n = fieldAt bs i n := by
  refine Memory.val_eq_fieldAt hi fun q h1 h2 => ?_
  rw [h q h1 h2, get_sparse, if_pos (by omega)]

theorem val_of_family {M : Memory} {base w n k : Nat} {x : Nat → Nat} {f : Nat → Bool} (hk : k < n)
    (h : ∀ q, base + w * k ≤ q → q < base + w * k + w → M.get q =
      (laidOver [] (((List.range n).filter f).map fun k => partOf (base + w * k) (toBytesLE w (x k)))).get q) :
    M.val (base + w * k) w = if f k then x k % 256 ^ w else 0 := by
  have hget (q : Nat) (h1 : base + w * k ≤ q) (h2 : q < base + w * k + w) :
      M.get q = if f k then (sparse (base + w * k) (toBytesLE w (x k))).get q else 0#8 := by
    rw [h q h1 h2]
    exact get_laidOver_family (part := fun k => partOf (base + w * k) (toBytesLE w (x k))) (fun _ => rfl)
        (fun _ _ => by simp [partOf])
      (fun _ _ => fits_partOf _ _) f wf_nil hk h1 h2
  split
  next hf =>
    rw [← fieldAt_toBytesLE]
    refine Memory.val_of_sparse (off := base + w * k) (i := 0) (by simp) fun q h1 h2 => ?_
    exact (hget q h1 h2).trans (if_pos hf)
  next hf => exact Memory.val_eq_zero fun q h1 h2 => by rw [hget q h1 h2, if_neg hf]

theorem toNat_mod_bytes {w : Nat} (x : BitVec w) (n : Nat) (h : w = 8 * n) : x.toNat % 256 ^ n = x.toNat := by
  subst h
  exact Nat.mod_eq_of_lt (lt_of_lt_of_eq x.isLt (pow_mul 2 8 n))

theorem wf_saveImage (b : Block) (kind : Nat) (live : Live) (stopped : Bool) (recs : Nat → Option (DWord × Live)) :
    (b.saveImage kind live stopped recs).wf = true := wf_laidOver wf_nil _

/-- The row program as its field of the header holds it. -/
theorem rowprog_of_code (r : RowProg) (h : r.row < 64) {x : Nat}
    (hx : x = ((if r.valid then 128 else 0) + (if r.side then 64 else 0) + r.row + 2 ^ 32 * r.pcoff.toNat) % 2 ^ 64) :
    ({ pcoff := BitVec.ofNat 32 (x / 2 ^ 32), valid := x.testBit 7, side := x.testBit 6, row := x % 64 } : RowProg) = r := by
  obtain ⟨pc, valid, side, row⟩ := r
  have hpc := pc.isLt
  dsimp only at h hx
  have hdiv : x / 2 ^ 32 = pc.toNat := by
    cases valid <;> cases side <;> simp at hx <;> omega
  have hrow : x % 64 = row := by
    cases valid <;> cases side <;> simp at hx <;> omega
  have hvalid : x.testBit 7 = valid := by
    rw [Nat.testBit_eq_decide_div_mod_eq]
    cases valid <;> cases side <;> simp at hx ⊢ <;> omega
  have hside : x.testBit 6 = side := by
    rw [Nat.testBit_eq_decide_div_mod_eq]
    cases valid <;> cases side <;> simp at hx ⊢ <;> omega
  rw [hdiv, hrow, hvalid, hside]
  simp

section
variable {b : Block} (hT : b.tiles.wf = true) (hR : b.rows.wf = true) (hS : b.scratch.wf = true)
variable (kind : Nat) (live : Live) (stopped : Bool) (recs : Nat → Option (DWord × Live))
include hT hR hS

theorem val_image_header {o n : Nat} (h : o + n ≤ 256) :
    (b.saveImage kind live stopped recs).val o n = fieldAt (b.saveHeader kind live stopped) o n := by
  have hv := Memory.val_eq_fieldAt (m := b.saveImage kind live stopped recs) (a := 0) (i := o) (n := n)
    (bs := b.saveHeader kind live stopped) (by rw [length_saveHeader]; exact h)
    fun q h1 h2 => get_image_header hT hR hS kind live stopped recs (by omega)
  rwa [Nat.zero_add] at hv

theorem stateOf_image_regs : (b.stateOf (b.saveImage kind live stopped recs)).regs = b.regs := by
  obtain ⟨h1, h2, h3, h4, -, h5, -⟩ := saveHeader_words b kind live stopped
  have hv {o n : Nat} (h : o + n ≤ 256) := val_image_header hT hR hS kind live stopped recs h
  simp [Block.stateOf, hv, h1, h2, h3, h4, h5]

theorem stateOf_image_rowprog (h : b.rowprog.row < 64) : (b.stateOf (b.saveImage kind live stopped recs)).rowprog = b.rowprog := by
  obtain ⟨-, -, -, -, -, -, -, hrp⟩ := saveHeader_words b kind live stopped
  exact rowprog_of_code b.rowprog h ((val_image_header hT hR hS kind live stopped recs (by omega)).trans hrp)

theorem stateOf_image_place (h : b.place.parkn < 2 ^ 16) : (b.stateOf (b.saveImage kind live stopped recs)).place = b.place := by
  obtain ⟨-, -, -, -, -, -, hp, -⟩ := saveHeader_words b kind live stopped
  rw [Nat.mod_eq_of_lt h] at hp
  have hv := val_image_header hT hR hS kind live stopped recs (o := 0x44) (n := 2) (by omega)
  simp [Block.stateOf, hv, hp]

theorem stateOf_image_wdrun (h : b.wdrun ≤ b.wdPeriod) : (b.stateOf (b.saveImage kind live stopped recs)).wdrun = b.wdrun := by
  obtain ⟨-, -, hw, -, hl, -, -, -⟩ := saveHeader_words b kind live stopped
  have hv {o n : Nat} (h : o + n ≤ 256) := val_image_header hT hR hS kind live stopped recs h
  have hp : b.regs.wdog.toNat * 1024 - (b.wdPeriod - b.wdrun) = b.wdrun := by
    unfold Block.wdPeriod at h ⊢
    omega
  simp [Block.stateOf, hv, hw, hl, hp]

theorem stateOf_image_ureg {n : Nat} (h : n < b.cfg.uAlloc) :
    (b.stateOf (b.saveImage kind live stopped recs)).ureg n = if live.u.testBit n then b.ureg n else 0 := by
  have hX := b.cfg.offX_le
  unfold LaunchRec.offU at hX
  have hv := val_of_family (M := b.saveImage kind live stopped recs) (base := LaunchRec.offU) (w := 8)
    (x := fun n => (b.uregs.getD n {}).val.toNat) (f := (live.u.testBit ·)) h fun q h1 h2 =>
      get_image_uregs hT hR hS kind live stopped recs (by unfold LaunchRec.offU at h1; omega) (by unfold LaunchRec.offU at h2; omega)
  have hlt : (b.uregs.getD n {}).val.toNat % 256 ^ 8 = b.ureg n := toNat_mod_bytes _ 8 rfl
  rw [hlt] at hv
  have hu : (if live.u.testBit n then b.ureg n else 0) < 2 ^ 64 := by
    split
    · exact (b.uregs.getD n {}).val.isLt
    · omega
  simp only [Block.ureg, Block.stateOf, List.getD_eq_getElem?_getD, List.getElem?_map, List.getElem?_range h, Option.map_some,
    Option.getD_some, hv, BitVec.toNat_ofNat]
  exact Nat.mod_eq_of_lt hu

theorem stateOf_image_xst {k : Nat} (h : k < 8) : ((b.stateOf (b.saveImage kind live stopped recs)).xs.getD k {}).st =
    if live.x.testBit k then (b.xs.getD k {}).st else 0#4 := by
  have hv := (val_image_header hT hR hS kind live stopped recs (o := 0x80 + k) (n := 1) (by omega)).trans
    (saveHeader_xst b kind live stopped h)
  simp only [Block.stateOf, List.getD_eq_getElem?_getD, List.getElem?_map, List.getElem?_range h, Option.map_some,
      Option.getD_some] at hv ⊢
  rw [hv]
  split <;> simp

theorem stateOf_image_xsum {k : Nat} (h8 : k < 8) (h : k < b.cfg.xsums) :
    ((b.stateOf (b.saveImage kind live stopped recs)).xs.getD k {}).n = if live.x.testBit k then (b.xs.getD k {}).n else 0#640 := by
  have hT' := b.cfg.offT_le
  have hv := val_of_family (M := b.saveImage kind live stopped recs) (base := b.cfg.offX) (w := 80)
    (x := fun k => (b.xs.getD k {}).n.toNat) (f := (live.x.testBit ·)) h fun q h1 h2 =>
      get_image_xsums hT hR hS kind live stopped recs (by omega) (by omega)
  rw [toNat_mod_bytes _ 80 rfl] at hv
  simp only [Block.stateOf, List.getD_eq_getElem?_getD, List.getElem?_map, List.getElem?_range h8, Option.map_some, Option.getD_some,
    if_pos h] at hv ⊢
  rw [hv]
  split <;> simp

theorem stateOf_image_tiles {a : Nat} (h : a < 4096 * b.cfg.tiles) : (b.stateOf (b.saveImage kind live stopped recs)).tiles.get a =
    if live.t.testBit (a / 4096) then b.tiles.get a else 0#8 := by
  have hA : b.cfg.offA = b.cfg.offT + 4096 * b.cfg.tiles := rfl
  have hk : a / 4096 < b.cfg.tiles := by omega
  show ((b.saveImage kind live stopped recs).slice b.cfg.offT (4096 * b.cfg.tiles) 0).get a = _
  rw [Memory.get_slice (wf_saveImage _ _ _ _ _), if_pos (by omega), get_image_tiles hT hR hS kind live stopped recs (by omega)
      (by omega)]
  refine (get_laidOver_family (part := b.tilePart) (k := a / 4096) (fun _ => rfl) (fun _ _ => rfl) (fun _ _ => fits_slice hT _ _ _) _
    wf_nil hk (by omega) (by omega)).trans ?_
  have e : a - 0 + b.cfg.offT - (b.cfg.offT + 4096 * (a / 4096)) + 4096 * (a / 4096) = a := by omega
  split
  · unfold Block.tilePart
    rw [Memory.get_slice hT, if_pos (by omega), e]
  · rfl

theorem stateOf_image_rows {a : Nat} (h : a < 256 * b.cfg.rowAlloc) : (b.stateOf (b.saveImage kind live stopped recs)).rows.get a =
    if live.acc then b.rows.get a else 0#8 := by
  have hS' : b.cfg.offS = b.cfg.offA + 256 * b.cfg.rowAlloc := rfl
  show ((b.saveImage kind live stopped recs).slice b.cfg.offA (256 * b.cfg.rowAlloc) 0).get a = _
  rw [Memory.get_slice (wf_saveImage _ _ _ _ _), if_pos (by omega), get_image_rows hT hR hS kind live stopped recs (by omega)
      (by omega)]
  unfold Block.rowParts
  split
  · have e : a - 0 + b.cfg.offA - b.cfg.offA + 0 = a := by omega
    rw [get_laidOver_single wf_nil (fits_slice hR _ _ _) (by dsimp only; omega) (by dsimp only; omega)]
    dsimp only
    rw [Memory.get_slice hR, if_pos (by omega), e]
  · rfl

theorem stateOf_image_scratch {a : Nat} (h : a < b.cfg.scratch) :
    (b.stateOf (b.saveImage kind live stopped recs)).scratch.get a = b.scratch.get a := by
  have hH := b.cfg.offH_le
  have e : a - 0 + b.cfg.offS - b.cfg.offS + 0 = a := by omega
  show ((b.saveImage kind live stopped recs).slice b.cfg.offS b.cfg.scratch 0).get a = _
  rw [Memory.get_slice (wf_saveImage _ _ _ _ _), if_pos (by omega), get_image_scratch hT hR hS kind live stopped recs (by omega)
      (by omega),
    get_laidOver_single (p := b.scratchPart) wf_nil (fits_slice hS _ _ _) (by unfold Block.scratchPart; dsimp only; omega)
      (by unfold Block.scratchPart; dsimp only; omega)]
  unfold Block.scratchPart
  dsimp only
  rw [Memory.get_slice hS, if_pos (by omega), e]

end

end Sys2Proof.Machine
end

section
/-! SUPPORT. A thread, read back from the image of a save; O46. -/

namespace Sys2Proof.Machine

/-! ## A thread read back (R358) -/

theorem fieldAt_flatten {w : Nat} {ls : List (List Byte)} (hw : ∀ l ∈ ls, l.length = w) {n : Nat} (hn : n < ls.length) :
    fieldAt ls.flatten (w * n) w = fieldAt (ls.getD n []) 0 w := by
  induction ls generalizing n with
  | nil => simp at hn
  | cons l ls ih =>
    obtain ⟨hl, hls⟩ := List.forall_mem_cons.mp hw
    rw [List.flatten_cons]
    cases n with
    | zero => exact fieldAt_append_left (by simp [hl])
    | succ n =>
      have e : w * (n + 1) - l.length = w * n := by rw [Nat.mul_succ, hl, Nat.add_sub_cancel]
      rw [fieldAt_append_right (by rw [hl, Nat.mul_succ]; omega), e, ih hls (by simpa using hn), List.getD_cons_succ]

/-- A thread's state as a save keeps it reads back as its code gives it. -/
theorem state_of_code (st : TState) :
    (match (if st = .trapped then 0 else stateCode st) with
      | 0 => TState.ready | 1 => .waiting | 2 => .parked | 3 => .trapped | _ => .exited) = if st = .trapped then .ready else st := by
  cases st <;> rfl

theorem group_of_misc (kind : Nat) (triggered : Bool) (group : Option Nat) :
    (if kind ≠ 1 ∧ ((if triggered then 1 else 0) + if (kind != 1 && group.isSome) = true then 2 else 0).testBit 1 = true then group
      else none) = if kind = 1 then none else group := by
  by_cases hk : kind = 1
  · simp [hk]
  · cases group <;> cases triggered <;> simp [hk] <;> decide

/-- The predicates that a save keeps: all, or those of the record's mask. -/
theorem mask_of_record (p : BitVec 7) (r : Option (DWord × Live)) {n : Nat} (hn : n < 7) :
    (BitVec.ofNat 7 ((p.toNat &&& (r.map (·.2.p)).getD 127) % 256)).getLsbD n = (p.getLsbD n && r.all (·.2.p.testBit n)) := by
  rw [BitVec.getLsbD_ofNat, show 256 = 2 ^ 8 from rfl, Nat.testBit_mod_two_pow, Nat.testBit_and]
  have hall : (127 : Nat).testBit n = true := by
    rw [show 127 = 2 ^ 7 - 1 from rfl, Nat.testBit_two_pow_sub_one]
    exact decide_eq_true hn
  have h8 : n < 8 := by omega
  cases r <;> simp [hn, h8, hall, BitVec.getLsbD]

section
variable {b : Block} (hT : b.tiles.wf = true) (hR : b.rows.wf = true) (hS : b.scratch.wf = true)
variable (kind : Nat) (live : Live) (stopped : Bool) (recs : Nat → Option (DWord × Live))
include hT hR hS

theorem val_image_threadHeader {t : Nat} (ht : t < b.cfg.bsize) {o n : Nat} (h : o + n ≤ 64) :
    (b.saveImage kind live stopped recs).val (b.cfg.offH + t * b.cfg.stride + o) n =
      fieldAt (b.threadHeader t kind (recs t)) o n := by
  have hs : 64 ≤ b.cfg.stride := by unfold LaunchRec.stride; omega
  obtain ⟨ps, hps, hfit⟩ := threadParts_eq (b := b) (kind := kind) t (recs t)
  refine Memory.val_of_sparse (by rw [length_threadHeader]; exact h) fun q h1 h2 => ?_
  rw [get_image_thread hT hR hS kind live stopped recs ht (by omega) (by omega), hps, ← List.singleton_append,
    get_laidOver_append_left wf_nil fun p hp => ⟨(hfit p hp).1, .inl (by have := (hfit p hp).2.1; omega)⟩,
    get_laidOver_single wf_nil (fits_partOf _ _) (by dsimp only [partOf]; omega)
      (by dsimp only [partOf]; rw [length_threadHeader]; omega)]
  rfl

theorem val_image_reg {t : Nat} (ht : t < b.cfg.bsize) (hst : (b.th t).st ≠ .exited) {n : Nat} (hn : n < b.cfg.vAlloc) :
    (b.saveImage kind live stopped recs).val (b.cfg.offH + t * b.cfg.stride + (64 + 4 * n)) 4 =
      if (recs t).all (·.2.v.testBit n) then ((b.th t).v.getD n 0#32).toNat else 0 := by
  have hs : 64 + 4 * b.cfg.vAlloc ≤ b.cfg.stride := by unfold LaunchRec.stride; omega
  have hlt : ((b.th t).v.getD n 0#32).toNat % 256 ^ 4 = ((b.th t).v.getD n 0#32).toNat := toNat_mod_bytes _ 4 rfl
  have hmiss (r : Option (DWord × Live)) {q : Nat} (h : b.cfg.offH + t * b.cfg.stride + 64 ≤ q) :
      (partOf (b.cfg.offH + t * b.cfg.stride) (b.threadHeader t kind r)).Misses q := by
    refine .inr ?_
    dsimp only [partOf]
    rw [length_threadHeader]
    exact h
  have hget {q : Nat} (h1 : b.cfg.offH + t * b.cfg.stride + 64 + 4 * n ≤ q)
      (h2 : q < b.cfg.offH + t * b.cfg.stride + 64 + 4 * n + 4) :=
    get_image_thread (q := q) hT hR hS kind live stopped recs ht (by omega) (by omega)
  rw [← Nat.add_assoc]
  cases hr : recs t with
  | none =>
    rw [hr] at hget
    simp only [Option.all_none, if_true]
    rw [← hlt, ← fieldAt_toBytesLE]
    have hflat := fieldAt_flatten (w := 4) (ls := (List.range b.cfg.vAlloc).map fun n => toBytesLE 4 ((b.th t).v.getD n 0#32).toNat)
      (by simp) (n := n) (by simpa using hn)
    have hval := Memory.val_of_sparse (M := b.saveImage kind live stopped recs) (off := b.cfg.offH + t * b.cfg.stride + 64)
        (i := 4 * n)
      (n := 4) (bs := ((List.range b.cfg.vAlloc).map fun n => toBytesLE 4 ((b.th t).v.getD n 0#32).toNat).flatten)
      (by rw [length_regBytes]; omega) fun q h1 h2 => by
        rw [hget h1 h2, threadParts_full hst,
          get_laidOver_cons_of_misses wf_nil (fits_partOf _ _) (hmiss none (by omega)) (by simpa using fits_partOf _ _),
          get_laidOver_single wf_nil (fits_partOf _ _) (by dsimp only [partOf]; omega)
            (by dsimp only [partOf]; rw [length_regBytes]; omega)]
        rfl
    rw [hval, hflat]
    simp [List.getD_eq_getElem?_getD, List.getElem?_range hn]
  | some r =>
    rw [hr] at hget
    have hval := val_of_family (M := b.saveImage kind live stopped recs) (base := b.cfg.offH + t * b.cfg.stride + 64) (w := 4)
      (x := fun n => ((b.th t).v.getD n 0#32).toNat) (f := (r.2.v.testBit ·)) hn fun q h1 h2 => by
        rw [hget h1 h2, threadParts_live r hst]
        exact get_laidOver_cons_of_misses wf_nil (fits_partOf _ _) (hmiss (some r) (by omega)) fun p hp => by
          obtain ⟨k, -, rfl⟩ := List.mem_map.mp hp
          exact fits_partOf _ _
    rw [hlt] at hval
    simpa using hval

/-- A thread's part of an image gives back its header's fields and its registers, as far as its record names them. -/
theorem threadOf_image {t : Nat} (ht : t < b.cfg.bsize) :
    let th := b.th t
    let th' := b.threadOf (b.saveImage kind live stopped recs) t kind
    th'.wait = th.wait ∧ th'.seed = th.seed ∧ th'.armed = th.armed ∧ th'.triggered = th.triggered ∧
    th'.st = (if th.st = .trapped then .ready else th.st) ∧ th'.group = (if kind = 1 then none else th.group) ∧
    ((th.pc - b.codeBase).toNat < 2 ^ 32 → th'.pc = th.pc) ∧
    (∀ n < 7, th'.p.getLsbD n = (th.p.getLsbD n && (recs t).all (·.2.p.testBit n))) ∧
    (th.st ≠ .exited → ∀ n < b.cfg.vAlloc, th'.v.getD n 0#32 =
      if (recs t).all (·.2.v.testBit n) then th.v.getD n 0#32 else 0#32) := by
  intro th th'
  obtain ⟨hst, hp, hpc, hseed, harmed, hmisc⟩ := threadHeader_fields b kind t (recs t)
  have hv {o n x : Nat} (hf : fieldAt (b.threadHeader t kind (recs t)) o n = x) (h : o + n ≤ 64) :
      (b.saveImage kind live stopped recs).val (b.cfg.offH + t * b.cfg.stride + o) n = x :=
    (val_image_threadHeader hT hR hS kind live stopped recs ht h).trans hf
  refine ⟨rfl, ?_, ?_, ?_, ?_, ?_, ?_, ?_, ?_⟩
  · simp [th', th, Block.threadOf, hv hseed (by omega)]
  · simp [th', th, Block.threadOf, hv harmed (by omega)]
  · simp only [th', th, Block.threadOf, hv hmisc (by omega)]
    cases (b.th t).triggered <;> cases kind != 1 && (b.th t).group.isSome <;> rfl
  · simp only [th', th, Block.threadOf, hv hst (by omega)]
    exact state_of_code _
  · simp only [th', th, Block.threadOf, hv hmisc (by omega)]
    exact group_of_misc _ _ _
  · intro hlt
    simp only [th', th, Block.threadOf, hv (hpc.trans (Nat.mod_eq_of_lt hlt)) (by omega), BitVec.ofNat_toNat, BitVec.setWidth_eq]
    exact add_sub_cancel _ _
  · intro n hn
    simp only [th', Block.threadOf, hv hp (by omega)]
    exact mask_of_record _ _ hn
  · intro hne n hn
    simp only [th', Block.threadOf, List.getD_eq_getElem?_getD, List.getElem?_map, List.getElem?_range hn, Option.map_some,
        Option.getD_some,
      val_image_reg hT hR hS kind live stopped recs ht hne hn]
    split <;> simp [th]

end
end Sys2Proof.Machine
end

section
/-! SUPPORT. Landings, rotations, the return of registers, the debugger and reels; O46. -/

namespace Sys2Proof.Machine

/-! ## Landings, restores, rotations and the return of registers (R238, R321, R351, R354) -/

/-- The end of a thread's wait lowers one counter, or does nothing. -/
theorem State.unwait_eq (s : State) (th : Thread) : s.unwait th = s ∨ ∃ pa n x, s.unwait th = s.putPa pa n x := by
  have drop (pa : Nat) : (if s.valPa pa 2 = 0 then s else s.putPa pa 2 (s.valPa pa 2 - 1)) = s ∨
      ∃ p n x, (if s.valPa pa 2 = 0 then s else s.putPa pa 2 (s.valPa pa 2 - 1)) = s.putPa p n x := by
    split
    · exact .inl rfl
    · exact .inr ⟨_, _, _, rfl⟩
  unfold State.unwait
  cases th.wait with
  | none => exact .inl rfl
  | some w =>
    cases w with
    | parked q =>
      dsimp only
      cases q.away with
      | true => exact .inl rfl
      | false =>
        cases q.kind with
        | fget | mbrecv | tspawn => exact drop _
        | waitaddr | park | barw => exact .inl rfl
    | _ => exact .inl rfl

theorem Block.modTh_self {b : Block} {t : Nat} {f : Thread → Thread} (h : f (b.th t) = b.th t) : b.modTh t f = b := by
  unfold Block.modTh
  unfold Block.th at h
  split at h
  next ht => rw [if_pos ht, h]
  next ht =>
    rw [if_neg ht]
    have hm : b.threads.modify t f = b.threads := by
      refine List.ext_getElem (by simp) fun i h1 h2 => ?_
      rw [List.getElem_modify]
      split
      next hi =>
        subst hi
        rwa [List.getD_eq_getElem _ _ h2] at h
      next => rfl
    rw [hm]

theorem Thread.deliverIf_of_nil {th : Thread} (h : th.outst = []) (p : Outst → Bool) : th.deliverIf p = th := by
  cases th
  simp_all [Thread.deliverIf]

theorem State.mustForce_of {s : State} {b : Block} {d : Due} (hd : b.due = some d) (h : 2 * b.cfg.landbound * d.n < d.weight ∨
    d.time + (s.env b.cfg.envelope).landtime ≤ s.clock.time) : s.mustForce b = true := by
  simpa [State.mustForce, hd] using h

theorem State.canReturn_of {s : State} {b : Block} {tid : Nat} (hs : (b.th tid).inSlot = true)
    (hl : s.borrowerOf (b.th tid) = none) (hr : b.place.resident = true)
    (hu : s.bankUse b.place.core (tid % 4) + b.cfg.vAlloc * 4 ≤ 131072) : s.canReturn b tid = true := by
  simp [State.canReturn, hs, hl, hr, Config.bankBytes, hu]

section
variable {s : State} {blk : Nat} {b : Block} (hb : s.block? blk = some b)
include hb

theorem landingSave_runs (hl : b.hasLanded = true) (hg : (s.standing b).all Block.hasLanded = true) :
    exec (.landingSave blk) s = .next (s.leave b) := by
  show execLandingSave blk s = _
  simp [execLandingSave, hb, hl, hg]

theorem forcedSave_runs (hr : b.place.resident = true) (hs : b.saved = none) (hi : b.inline = none) (he : b.ended = false)
    (hf : s.mustForce b = true) : exec (.forcedSave blk) s = .next (s.leave b) := by
  show execForcedSave blk s = _
  simp [execForcedSave, hb, hr, hs, hi, he, hf]

theorem turnGroupRotation_runs {g : Nat} {next : Nat × Nat × List (Nat × Nat)} (hr : b.running = true)
    (hp : b.cfg.partial? = true) (ho : ∀ x ∈ b.out, x.1 ≠ g)
    (hg : 128 * g < b.cfg.bsize) (hi : b.groupIdle g = true) (hn : b.nextGroup = some next)
    (hs : ∀ t ∈ b.groupLive g, (b.th t).inSlot = false) : exec (.turnGroupRotation blk g) s = .next (s.rotate b g next) := by
  have hfind : ((b.groupLive g).find? fun t => (b.th t).inSlot) = none := List.find?_eq_none.mpr fun t ht => by simp [hs t ht]
  have hout : b.out.any (·.1 == g) = false := by simpa using ho
  show execTurnGroupRotation blk g s = _
  simp [execTurnGroupRotation, hb, hr, hp, hout, hg, hi, hn, hfind]

theorem registerReturn_runs {tid : Nat} (hc : s.canReturn b tid = true) (hbad : ErrUnit.slot blk tid ∉ s.health.bad) :
    exec (.registerReturn blk tid) s = .next (s.modTh blk tid fun th => { th with inSlot := false }) := by
  show execRegisterReturn blk tid s = _
  simp [execRegisterReturn, hb, hc, hbad]

/-- What a thread gives up when its wait ends changes waits of threads alone. -/
theorem State.block?_unwait (th : Thread) : ∃ b', (s.unwait th).block? blk = some b' ∧ b'.regs = b.regs ∧
    ∀ n, (b'.th n).v = (b.th n).v ∧ (b'.th n).p = (b.th n).p ∧ (b'.th n).pc = (b.th n).pc := by
  rcases s.unwait_eq th with h | ⟨pa, n, x, h⟩
  · rw [h]
    exact ⟨b, hb, rfl, fun _ => ⟨rfl, rfl, rfl⟩⟩
  · rw [h]
    refine ⟨_, (State.block?_writePa _ _ _ _).trans (congrArg _ hb), rfl, fun k => ?_⟩
    rw [← Block.th_mapWake_frame b _ k]
    exact ⟨rfl, rfl, rfl⟩

/-- Slots that hold an uncorrectable error give the registers back and stop the thread. -/
theorem registerReturn_poisoned {tid : Nat} (hc : s.canReturn b tid = true) (ht : b.trap.stopped = false)
    (hbad : ErrUnit.slot blk tid ∈ s.health.bad) : ∃ (u : State) (b' : Block),
      exec (.registerReturn blk tid) s =
        .next ((u.modTh blk tid fun th => { th.leave b.cycles with inSlot := false }).trapThreads blk [(tid, { cause := .uncorrectedData })]) ∧ u.block? blk = some b' ∧ b'.regs = b.regs ∧
        ∀ n, (b'.th n).v = (b.th n).v ∧ (b'.th n).p = (b.th n).p ∧ (b'.th n).pc = (b.th n).pc := by
  obtain ⟨b', hb', hregs, hth⟩ := State.block?_unwait (s := s.coreError b 1 0) hb (b.th tid)
  refine ⟨{ (s.coreError b 1 0).unwait (b.th tid) with health := { ((s.coreError b 1 0).unwait (b.th tid)).health with
    bad := ((s.coreError b 1 0).unwait (b.th tid)).health.bad.filter (· != .slot blk tid) } }, b', ?_, hb', hregs, hth⟩
  show execRegisterReturn blk tid s = _
  simp [execRegisterReturn, hb, hc, ht, hbad]

/-! ## The debugger (R380) -/

theorem debuggerResume_runs (skip : Bool) (hd : b.trap.debug = true) (hh : b.trap.debugH = false) :
    exec (.debuggerResume blk skip) s = .next
      (((s.modBlock blk fun b => { b with trap := { b.trap with debug := false } }).tret1 blk skip).refreshPools blk) := by
  show execDebuggerResume blk skip s = _
  simp [execDebuggerResume, hb, hd, hh]

theorem debuggerResume_handler (skip : Bool) (hd : b.trap.debug = true) (hh : b.trap.debugH = true) :
    ∃ t b', exec (.debuggerResume blk skip) s = .next t ∧ t.block? blk = some b' ∧ b'.trap.debug = false ∧ b'.threads = b.threads ∧
      b'.handler = { b.handler with pc := b.handler.pc + BitVec.ofNat 64 (if skip then s.skipLen b b.handler.pc else 0) } := by
  have hrun : exec (.debuggerResume blk skip) s = .next (s.modBlock blk fun b =>
      { b with trap := { b.trap with debug := false, debugH := false }
               handler := { b.handler with pc := b.handler.pc + BitVec.ofNat 64 (if skip then s.skipLen b b.handler.pc else 0) }
                 }) := by
    show execDebuggerResume blk skip s = _
    simp [execDebuggerResume, hb, hd, hh]
  exact ⟨_, _, hrun, (State.block?_modBlock).trans (congrArg _ hb), rfl, rfl, rfl⟩

theorem debugger_selector {tid : Nat} {sel : Word} {wide : Bool} (hd : b.trap.debug = true) (ho : selectorOk sel wide = true)
    (ht : tid < b.cfg.bsize) (hn : sel.toNat / 2 ^ 24 = 0 → sel.toNat % 256 + (if wide then 2 else 1) ≤ b.cfg.vAlloc)
      (value : Option DWord) :
    exec (.debuggerThreadWrite blk tid sel wide value) s = .next (match value with
      | none => { s.modTh blk tid (Thread.deliverIf fun _ => true) with
          outputs := s.outputs ++ [.debugger (readSelector b
            ((((s.modTh blk tid (Thread.deliverIf fun _ => true)).block? blk).getD b).th tid)
            (sel.toNat / 2 ^ 24) (sel.toNat % 256) wide)] }
      | some v =>
        let x := if wide then v.toNat else v.toNat % 2 ^ 32
        if (b.th tid).st != .exited && (writeFault b (b.th tid) (sel.toNat / 2 ^ 24) x).isNone then
          s.writeSelector blk tid (sel.toNat / 2 ^ 24) (sel.toNat % 256) wide x
        else s) := by
  have hkind : bits sel 24 8 = sel.toNat / 2 ^ 24 := by
    rw [bits, Nat.shiftRight_eq_div_pow]
    have := sel.isLt
    omega
  have hnum : bits sel 0 8 = sel.toNat % 256 := by simp [bits]
  have hf : selectorFault b tid (sel.toNat / 2 ^ 24) (sel.toNat % 256) wide = none := by
    unfold selectorFault
    rw [if_neg (by omega), if_neg]
    rintro ⟨h1, h2⟩
    exact absurd (hn h1) (by omega)
  show execDebuggerThreadWrite blk tid sel wide value s = _
  simp only [execDebuggerThreadWrite, hb, hkind, hnum, hd, ho, hf, Bool.not_true, Option.isSome_none, Bool.or_false,
      Bool.false_eq_true, if_false]
  cases value <;> rfl

theorem debugger_read {tid : Nat} {sel : Word} {wide : Bool} (hd : b.trap.debug = true) (ho : selectorOk sel wide = true)
    (ht : tid < b.cfg.bsize) (hn : sel.toNat / 2 ^ 24 = 0 → sel.toNat % 256 + (if wide then 2 else 1) ≤ b.cfg.vAlloc)
    (hout : (b.th tid).outst = []) : ∃ t, exec (.debuggerThreadWrite blk tid sel wide none) s = .next t ∧
      t.outputs = s.outputs ++ [.debugger (readSelector b (b.th tid) (sel.toNat / 2 ^ 24) (sel.toNat % 256) wide)] ∧ t.mem = s.mem ∧
      ∃ b', t.block? blk = some b' ∧ ∀ n, b'.th n = b.th n := by
  have hself : (b.modTh tid (Thread.deliverIf fun _ => true)) = b :=
    Block.modTh_self (Thread.deliverIf_of_nil hout _)
  have hmod : s.modTh blk tid (Thread.deliverIf fun _ => true) = s := State.modBlock_self fun x hx => by
    rw [hb] at hx
    cases hx
    exact hself
  refine ⟨_, debugger_selector hb hd ho ht hn none, ?_, ?_, ?_⟩
  · simp only [hmod, hb, Option.getD_some]
  · simp only [hmod]
  · simp only [hmod]
    exact ⟨b, hb, fun _ => rfl⟩

theorem debugger_write {tid : Nat} {sel : Word} {wide : Bool} (hd : b.trap.debug = true) (ho : selectorOk sel wide = true)
    (ht : tid < b.cfg.bsize) (hn : sel.toNat / 2 ^ 24 = 0 → sel.toNat % 256 + (if wide then 2 else 1) ≤ b.cfg.vAlloc) (value : DWord)
    (hst : (b.th tid).st ≠ .exited) {x : Nat} (hx : (if wide then value.toNat else value.toNat % 2 ^ 32) = x)
    (hf : writeFault b (b.th tid) (sel.toNat / 2 ^ 24) x = none) : exec (.debuggerThreadWrite blk tid sel wide (some value)) s =
      .next (s.writeSelector blk tid (sel.toNat / 2 ^ 24) (sel.toNat % 256) wide x) := by
  subst hx
  rw [debugger_selector hb hd ho ht hn]
  dsimp only
  rw [hf, Option.isNone_none, Bool.and_true, if_pos (by simpa using hst)]

/-! ## Reels (R360) -/

theorem directReelPayment_pays (traffic : Bool) (n : Nat) : ∃ t b', exec (.directReelPayment blk traffic n) s = .next t ∧
    t.block? blk = some b' ∧
    let debt := if traffic then b.regs.tover.toNat else b.regs.iover.toNat
    (b'.reel traffic).toNat = min ((b.reel traffic).toNat + (n - debt)) (2 ^ 64 - 1) ∧
    (if traffic then b'.regs.tover.toNat else b'.regs.iover.toNat) = debt - n ∧
    b'.reel (!traffic) = b.reel (!traffic) ∧ b'.threads = b.threads ∧ { t with blocks := s.blocks } = s := by
  refine ⟨s.payReel blk traffic n, _, rfl, (State.block?_modBlock).trans (congrArg _ hb), ?_⟩
  have hlt (x : DWord) : (x.toNat - n) % 2 ^ 64 = x.toNat - n := Nat.mod_eq_of_lt (lt_of_le_of_lt (Nat.sub_le _ _) x.isLt)
  have hmin (x : Nat) : min x (2 ^ 64 - 1) % 2 ^ 64 = min x (2 ^ 64 - 1) :=
      Nat.mod_eq_of_lt (Nat.lt_succ_of_le (Nat.min_le_right _ _))
  cases traffic
  · exact ⟨(BitVec.toNat_ofNat _ _).trans (hmin _), (BitVec.toNat_ofNat _ _).trans (hlt _), rfl, rfl, rfl⟩
  · exact ⟨(BitVec.toNat_ofNat _ _).trans (hmin _), (BitVec.toNat_ofNat _ _).trans (hlt _), rfl, rfl, rfl⟩

/-- A block whose reel is filled by a grant, its overdraft paid. -/
def Block.refilled (b : Block) (traffic : Bool) (grant : Nat) : Block :=
  { b with regs := if traffic then { b.regs with treel := BitVec.ofNat 64 grant, tover := 0#64 }
      else { b.regs with ireel := BitVec.ofNat 64 grant, iover := 0#64 } }

theorem refillReel_eq (traffic : Bool) {e : Envelope} (he : s.env b.cfg.envelope = e) {debt grant : Nat}
    (hdebt : (if traffic then b.regs.tover.toNat else b.regs.iover.toNat) = debt)
    (hgrant : (if traffic then e.trefill else e.irefill) = grant) (hreel : b.reel traffic = 0#64) (hpos : 0 < grant)
    (hle : debt + grant ≤ e.pool traffic) : s.refillReel b traffic =
      (s.modEnv b.cfg.envelope fun x => x.setPool traffic (e.pool traffic - (debt + grant))).modBlock blk
        (·.refilled traffic grant) := by
  subst he hdebt hgrant
  have hid : b.id = blk := State.block?_id hb
  have heid : (s.env b.cfg.envelope).id = b.cfg.envelope := s.env_id _
  cases traffic
  · have hreel : b.regs.ireel = 0#64 := hreel
    simp only [Envelope.pool, Bool.false_eq_true, if_false] at hpos hle
    simp [State.refillReel, hreel, hpos.ne', hle.not_gt, hid, heid, Envelope.setPool, Envelope.pool, Block.refilled]
  · have hreel : b.regs.treel = 0#64 := hreel
    simp only [Envelope.pool, if_true] at hpos hle
    simp [State.refillReel, hreel, hpos.ne', hle.not_gt, hid, heid, Envelope.setPool, Envelope.pool, Block.refilled]

theorem refillReel_pays (traffic : Bool) :
    let debt := if traffic then b.regs.tover.toNat else b.regs.iover.toNat
    let e := s.env b.cfg.envelope
    let grant := if traffic then e.trefill else e.irefill
    b.reel traffic = 0#64 → 0 < grant → grant < 2 ^ 64 → debt + grant ≤ e.pool traffic → ∃ b',
      (s.refillReel b traffic).block? blk = some b' ∧
      (b'.reel traffic).toNat = grant ∧ (if traffic then b'.regs.tover else b'.regs.iover) = 0#64 ∧
      b'.reel (!traffic) = b.reel (!traffic) ∧
      ((s.refillReel b traffic).env b.cfg.envelope).pool traffic + debt + grant = e.pool traffic := by
  intro debt e grant hreel hpos hlt hle
  rw [refillReel_eq hb traffic rfl rfl rfl hreel hpos hle]
  refine ⟨b.refilled traffic grant, ?_, ?_, ?_, ?_, ?_⟩
  · rw [State.block?_modBlock, State.block?_modEnv, hb, Option.map_some]
  · cases traffic <;> exact Nat.mod_eq_of_lt hlt
  · cases traffic <;> rfl
  · cases traffic <;> rfl
  · show ((s.modEnv b.cfg.envelope fun x => x.setPool traffic (e.pool traffic - (debt + grant))).env b.cfg.envelope).pool traffic +
      debt + grant = e.pool traffic
    rw [State.env_modEnv fun x hx => by simpa using hx, Envelope.pool_setPool]
    omega

end
end Sys2Proof.Machine
end

section
/-! SUPPORT. A save that its area takes; O46. -/

namespace Sys2Proof.Machine

/-! ## A save that its area takes (R353, R359, R379) -/

/-- No wake changes the thread any more: it is not parked, or woken already. -/
def Thread.Awake (th : Thread) : Prop := ∀ q, th.wait = some (.parked q) → q.woken = true

/-- A block of which parked threads have been woken. -/
def Block.Woken (b b' : Block) : Prop :=
  ∃ f : Thread → Thread, (∀ th, { f th with wait := th.wait } = th ∧ (th.Awake → f th = th)) ∧
    b' = { b with threads := b.threads.map f }

theorem Block.Woken.refl (b : Block) : b.Woken b := ⟨fun th => th, fun _ => ⟨rfl, fun _ => rfl⟩, by simp⟩

theorem Block.Woken.trans {a b c : Block} (h : a.Woken b) (k : b.Woken c) : a.Woken c := by
  obtain ⟨f, hf, rfl⟩ := h
  obtain ⟨g, hg, rfl⟩ := k
  refine ⟨g ∘ f, fun th => ⟨?_, fun hw => ?_⟩, by simp⟩
  · calc { g (f th) with wait := th.wait } = { ({ g (f th) with wait := (f th).wait } : Thread) with wait := th.wait } := rfl
      _ = { f th with wait := th.wait } := by rw [(hg (f th)).1]
      _ = th := (hf th).1
  · rw [Function.comp_apply, (hf th).2 hw, (hg th).2 hw]

theorem Thread.wake_of_awake {th : Thread} (h : th.Awake) (p : Parked → Bool) : th.wake p = th := by
  unfold Thread.wake
  split
  next q hq =>
    split
    · have hw : ({ q with woken := true } : Parked) = q := by rw [← h q hq]
      rw [hw, ← hq]
    · rfl
  next => rfl

/-- The blocks after a wake. -/
theorem Block.woken_wake (b : Block) (p : Parked → Bool) : b.Woken { b with threads := b.threads.map (Thread.wake p) } :=
  ⟨Thread.wake p, fun th => ⟨Thread.wake_frame p th, fun h => Thread.wake_of_awake h p⟩, rfl⟩

theorem Block.Woken.th_frame {b b' : Block} (h : b.Woken b') (n : Nat) :
    { b'.th n with wait := (b.th n).wait } = b.th n ∧ ((b.th n).Awake → b'.th n = b.th n) := by
  obtain ⟨f, hf, rfl⟩ := h
  by_cases hi : n = b.cfg.bsize
  · simp [Block.th, hi]
  · by_cases hl : n < b.threads.length
    · have hth : ({ b with threads := b.threads.map f } : Block).th n = f (b.th n) := by
        simp [Block.th, hi, List.getD_eq_getElem?_getD, hl]
      rw [hth]
      exact hf (b.th n)
    · simp [Block.th, hi, hl, List.getD_eq_getElem?_getD]

theorem State.woken_putRange {s : State} {n : Nat} {b : Block} (hb : s.block? n = some b) (pa off len : Nat) (m : Memory) :
    ∃ b', (s.putRange pa off len m).block? n = some b' ∧ b.Woken b' := by
  have ht : (s.takeLines pa len).block? n = some b := by rwa [State.block?, State.takeLines_blocks]
  exact ⟨_, (State.block?_wake _ _ _).trans (congrArg _ ht), b.woken_wake _⟩

theorem State.putRange_clock (s : State) (pa off len : Nat) (m : Memory) : (s.putRange pa off len m).clock = s.clock := by
  have h := congrArg State.clock (s.takeLines_frame pa len); exact h

/-- A save's writes wake threads; the time stands. -/
theorem State.woken_putRanges {s u : State} {d : Dest} {rs : List (Nat × Nat)} {m : Memory} {n : Nat} {b : Block}
    (hb : s.block? n = some b)
    (h : s.putRanges d rs m = (u, none)) : u.clock = s.clock ∧ ∃ b', u.block? n = some b' ∧ b.Woken b' := by
  have fold (ps : List (Nat × Nat × Nat)) : ∀ (s : State) (b : Block), s.block? n = some b →
      let t := ps.foldl (fun s p => s.putRange p.1 p.2.1 p.2.2 m) s
      t.clock = s.clock ∧ ∃ b', t.block? n = some b' ∧ b.Woken b' := by
    induction ps with
    | nil => exact fun s b hb => ⟨rfl, b, hb, .refl b⟩
    | cons p ps ih =>
      intro s b hb
      obtain ⟨b1, hb1, hw1⟩ := State.woken_putRange hb p.1 p.2.1 p.2.2 m
      obtain ⟨hc, b2, hb2, hw2⟩ := ih _ b1 hb1
      exact ⟨hc.trans (s.putRange_clock _ _ _ _), b2, hb2, hw1.trans hw2⟩
  unfold State.putRanges at h
  split at h
  · cases h
  next ps _ =>
    split at h
    · cases h
    · cases h
      exact fold ps s b hb

theorem Block.th_mapTh {b : Block} {f : Nat → Thread → Thread} {n : Nat} (hn : n < b.threads.length) (hne : n ≠ b.cfg.bsize) :
    (b.mapTh f).th n = f n (b.th n) := by
  simp [Block.th, Block.mapTh, hne, List.getD_eq_getElem?_getD, hn]

theorem Block.mapTh_deliver_self {b : Block} (h : ∀ th ∈ b.threads, th.outst = []) (p : Outst → Bool) :
    b.mapTh (fun _ th => th.deliverIf p) = b := by
  have hm : b.threads.mapIdx (fun _ th => th.deliverIf p) = b.threads := by
    refine List.ext_getElem (by simp) fun i h1 h2 => ?_
    rw [List.getElem_mapIdx]
    exact Thread.deliverIf_of_nil (h _ (List.getElem_mem _)) p
  rw [Block.mapTh, hm]

/-- A block as a save leaves it. -/
def Block.savedAs (b : Block) (k : Saved) : Block :=
  { b.vacate.mapTh (fun _ th => th.saved) with
    saved := some k, due := none, uregs := [], xs := [], tiles := [], rows := [], scratch := []
    handler := {}
    trap := { tvec := BitVec.ofNat 64 b.cfg.tvec, tsave := BitVec.ofNat 64 b.cfg.tsave } }

theorem Block.th_savedAs {b : Block} {k : Saved} {n : Nat} (hn : n < b.threads.length) (hne : n ≠ b.cfg.bsize) :
    (b.savedAs k).th n = (b.th n).saved := by
  simp [Block.th, Block.savedAs, Block.mapTh, Block.vacate, hne, List.getD_eq_getElem?_getD, hn]

/-- The parts of a save of a kind, with the masks of the liveness records. -/
def State.partsOf (s : State) (b : Block) (kind : Nat) : List Part :=
  let masks := s.liveMasks b kind
  let live := if masks.any (·.2.isNone) then Live.all else (masks.filterMap fun m => m.2.map (·.2)).foldl Live.or {}
  b.blockParts kind live b.trap.stopped ++
    ((List.range b.cfg.bsize).map fun t => b.threadParts t kind (((masks.find? (·.1 == t)).map (·.2)).getD none)).flatten

theorem saveBlock_eq {s : State} {blk : Nat} {b : Block} (hb : s.block? blk = some b) {kind : Nat} {u : State} (hacks : b.acks = [])
    (hsaved : b.saved = none) (hout : b.out = []) (houtst : ∀ th ∈ b.threads, th.outst = []) (hbad : s.health.bad = [])
    (hcopy : b.trap.copy = none) (hmissed : b.trap.missed = none) (hheld : b.trap.held = [])
    (hput : s.putRanges b.saveDest ((s.partsOf b kind).map fun p => (p.off, p.len)) ((s.partsOf b kind).map (·.m)).flatten =
      (u, none)) :
    s.saveBlock blk kind = (({ u with
      eng := { u.eng with loops := u.eng.loops.filter (·.2.1 != blk) }
      health := { u.health with bad := u.health.bad.filter (!·.ofBlock blk), soft := u.health.soft.filter (!·.ofBlock blk) } } :
        State).modBlock
        blk (·.savedAs { kind, depth := b.regs.inldepth.toNat, since := u.clock.time
                         ranges := (s.partsOf b kind).map fun p => (p.off, p.len) })).refreshCore b.place.core := by
  have hself : s.modBlock blk (fun b => b.mapTh fun _ th => th.deliverIf fun _ => true) = s := State.modBlock_self fun x hx => by
    rw [hb] at hx
    cases hx
    exact Block.mapTh_deliver_self houtst _
  have hstops : b.copyStops = [] := by simp [Block.copyStops, hcopy, hheld]
  have hpromise : b.promiseStops = [] := by simp [Block.promiseStops, hmissed, hheld]
  have hstay : (List.range b.cfg.bsize).filter (fun t => !b.out.any fun g => g.1 == t / 128 && !g.2.2.isEmpty) =
      List.range b.cfg.bsize := by
    simp [hout]
  unfold State.saveBlock
  simp only [hb, hacks, hsaved, hself, Option.getD_some, hbad, List.find?_nil, hstay, List.isEmpty_nil, Bool.not_true,
    Option.isSome_none,
    Bool.or_false, Bool.false_eq_true, if_false, hstops, hpromise, List.foldl_nil, List.map_nil]
  unfold State.partsOf at hput
  dsimp only at hput
  rw [hput]
  simp only [hout, List.map_nil, List.flatten_nil, List.append_nil]
  rfl

theorem saveBlock_makes {s : State} {blk : Nat} {b : Block} (hb : s.block? blk = some b) (kind : Nat) (u : State)
    (hacks : b.acks = [])
    (hsaved : b.saved = none) (hout : b.out = []) (houtst : ∀ th ∈ b.threads, th.outst = []) (hbad : s.health.bad = [])
    (hcopy : b.trap.copy = none) (hmissed : b.trap.missed = none) (hheld : b.trap.held = [])
    (hput : s.putRanges b.saveDest ((s.partsOf b kind).map fun p => (p.off, p.len)) ((s.partsOf b kind).map (·.m)).flatten =
      (u, none)) :
    (s.saveBlock blk kind).mem = u.mem ∧ ∃ b', (s.saveBlock blk kind).block? blk = some b' ∧
      b'.saved = some { kind, depth := b.regs.inldepth.toNat, since := s.clock.time,
                        ranges := (s.partsOf b kind).map fun p => (p.off, p.len) } ∧
      b'.regs = b.regs ∧ b'.plaits = [] ∧ b'.due = none ∧ b'.place.resident = false ∧ b'.ended = b.ended ∧
      ∀ n < b.threads.length, n ≠ b.cfg.bsize → (b'.th n).v = [] ∧ (b'.th n).pc = (b.th n).pc ∧
        ((∀ q, (b.th n).wait ≠ some (.parked q)) → (b'.th n).wait = (b.th n).wait) := by
  obtain ⟨hclock, w, hw, hwoken⟩ := State.woken_putRanges hb hput
  rw [saveBlock_eq hb hacks hsaved hout houtst hbad hcopy hmissed hheld hput, hclock]
  have hth := hwoken.th_frame
  obtain ⟨f, -, rfl⟩ := hwoken
  refine ⟨rfl, _, (State.block?_modBlock).trans (congrArg _ hw), rfl, rfl, rfl, rfl, rfl, rfl, fun n hn hne => ?_⟩
  beta_reduce
  rw [Block.th_savedAs (b := { b with threads := b.threads.map f }) (by simpa using hn) hne]
  obtain ⟨hframe, hwait⟩ := hth n
  generalize ({ b with threads := b.threads.map f } : Block).th n = t at hframe hwait ⊢
  have hpc : t.pc = (b.th n).pc := by have h := congrArg Thread.pc hframe; exact h
  have hsame (h : ∀ q, (b.th n).wait ≠ some (.parked q)) : t.wait = (b.th n).wait :=
    congrArg Thread.wait (hwait fun q hq => absurd hq (h q))
  exact ⟨rfl, hpc, hsame⟩

end Sys2Proof.Machine
end

section
/-! SUPPORT. A block whose image is back; O46. -/

namespace Sys2Proof.Machine

/-! ## A block whose image is back (R108, R361) -/

/-- What a restored thread does next (R361). -/
def Thread.restored (th : Thread) (len : Nat) (late : Nat → Bool) (now : Nat) : Thread :=
  match th.wait with
  | some (.landed _ _) => { th with st := .ready, wait := none, wlen := 0, age := now, order := 0 }
  | some (.sleep target) => if late target then th.resume len now else th
  | some (.parked q) =>
    if q.kind = .waitaddr ∨ q.kind = .park then
      { (if q.kind = .waitaddr then th.write (.p q.w.d.toNat false) else th).resume len now with wait := none }
    else { th with wait := some (.parked { q with woken := true, polled := false, away := true }) }
  | _ => th

theorem Block.wakeRestored_eq (b : Block) (lens : Nat → Nat) (late : Nat → Bool) (t : Nat) :
    (b.wakeRestored lens late t).1 = b.modTh t fun th => th.restored (lens t) late b.cycles := by
  have same (h : (b.th t).restored (lens t) late b.cycles = b.th t) : b = b.modTh t fun th => th.restored (lens t) late b.cycles :=
    (Block.modTh_self h).symm
  unfold Block.wakeRestored
  dsimp only
  cases h : (b.th t).wait with
  | none => exact same (by rw [Thread.restored, h])
  | some w =>
    cases w with
    | landed => exact Block.modTh_congr (by rw [Thread.restored, h])
    | sleep target =>
      dsimp only
      split
      next hl => exact Block.modTh_congr (by simp [Thread.restored, h, hl])
      next hl => exact same (by simp [Thread.restored, h, hl])
    | parked q =>
      dsimp only
      split
      next hk => exact Block.modTh_congr (by simp [Thread.restored, h, hk])
      next hk => exact Block.modTh_congr (by simp [Thread.restored, h, hk])
    | _ => exact same (by rw [Thread.restored, h])

theorem Thread.restored_awake (th : Thread) (len : Nat) (late : Nat → Bool) (now : Nat) : (th.restored len late now).Awake := by
  intro q hq
  unfold Thread.restored at hq
  cases h : th.wait with
  | none => simp [h] at hq
  | some w =>
    rw [h] at hq
    cases w with
    | landed => cases hq
    | sleep target =>
      dsimp only at hq
      split at hq
      · cases hq
      · rw [h] at hq; cases hq
    | parked p =>
      dsimp only at hq
      split at hq
      · cases hq
      · cases hq; rfl
    | _ => rw [h] at hq; cases hq

/-- A thread that owes no flag keeps its registers, its seed and its flags as it goes on. -/
theorem Thread.restored_frame {th : Thread} (h : th.owed = none) (len : Nat) (late : Nat → Bool) (now : Nat) :
    let t := th.restored len late now
    t.v = th.v ∧ t.seed = th.seed ∧ t.armed = th.armed ∧ t.flags = th.flags ∧ t.outst = th.outst := by
  have hresume (th : Thread) (h : th.owed = none) : (th.resume len now).v = th.v ∧ (th.resume len now).seed = th.seed ∧
      (th.resume len now).armed = th.armed ∧ (th.resume len now).flags = th.flags ∧ (th.resume len now).outst = th.outst := by
    simp [Thread.resume, Thread.repay, h]
  have hwrite (n : Nat) (x : Bool) : (th.write (.p n x)).v = th.v ∧ (th.write (.p n x)).seed = th.seed ∧
      (th.write (.p n x)).armed = th.armed ∧ (th.write (.p n x)).flags = th.flags ∧ (th.write (.p n x)).outst = th.outst ∧
      (th.write (.p n x)).owed = th.owed := by
    dsimp only [Thread.write]
    split <;> simp
  unfold Thread.restored
  dsimp only
  cases th.wait with
  | none => simp
  | some w =>
    cases w with
    | sleep target =>
      dsimp only
      split
      · exact hresume th h
      · simp
    | parked q =>
      dsimp only
      split
      · split
        · obtain ⟨h1, h2, h3, h4, h5, h6⟩ := hwrite q.w.d.toNat false
          have := hresume _ (h6.trans h)
          rwa [h1, h2, h3, h4, h5] at this
        · exact hresume th h
      · simp
    | _ => simp

/-- The threads of a block after each of the first `n` has gone on. -/
theorem wakeRestored_fold (b : Block) (lens : Nat → Nat) (late : Nat → Bool) {n : Nat} (hn : n ≤ b.cfg.bsize)
    (hl : b.threads.length = b.cfg.bsize) (i : Nat) : ∃ ts,
    ((List.range n).foldl (fun (a : Block × Nat) t => ((a.1.wakeRestored lens late t).1,
      a.2 + (a.1.wakeRestored lens late t).2)) (b, i)).1 =
      { b with threads := ts } ∧ ts.length = b.cfg.bsize ∧ ∀ k, ({ b with threads := ts } : Block).th k =
        if k < n then (b.th k).restored (lens k) late b.cycles else b.th k := by
  induction n with
  | zero => exact ⟨b.threads, rfl, hl, fun _ => rfl⟩
  | succ n ih =>
    obtain ⟨ts, hts, hlen, hth⟩ := ih (by omega)
    rw [List.range_succ, List.foldl_append, List.foldl_cons, List.foldl_nil]
    dsimp only
    rw [hts, Block.wakeRestored_eq]
    have hne : n ≠ b.cfg.bsize := by omega
    have hmod : ({ b with threads := ts } : Block).modTh n (fun th => th.restored (lens n) late b.cycles) =
        { b with threads := ts.modify n fun th => th.restored (lens n) late b.cycles } := by
      rw [Block.modTh, if_neg hne]
    refine ⟨_, hmod, by simpa using hlen, fun k => ?_⟩
    rw [← hmod]
    have hhas : ({ b with threads := ts } : Block).has n := .inr (by show n < ts.length; omega)
    by_cases hk : k = n
    · subst hk
      rw [Block.th_modTh_same _ _ _ hhas, hth, if_neg (lt_irrefl k), if_pos (Nat.lt_succ_self k)]
    · rw [Block.th_modTh_other _ _ _ _ hk, hth]
      exact if_congr (by omega) rfl rfl

/-- What threads give up as their waits end wakes threads; the time and the copies stand. -/
theorem State.woken_unwait {n : Nat} (ths : List Thread) : ∀ {s : State} {b : Block}, s.block? n = some b →
    let t := ths.foldl State.unwait s
    t.eng = s.eng ∧ t.clock = s.clock ∧ ∃ b', t.block? n = some b' ∧ b.Woken b' := by
  induction ths with
  | nil => exact fun hb => ⟨rfl, rfl, _, hb, .refl _⟩
  | cons th ths ih =>
    intro s b hb
    rcases s.unwait_eq th with h | ⟨pa, k, x, h⟩
    · rw [List.foldl_cons, h]
      exact ih hb
    · have hput : (s.putPa pa k x).block? n = some _ := (State.block?_writePa _ _ _ _).trans (congrArg _ hb)
      obtain ⟨he, hc, b', hb', hw⟩ := ih hput
      rw [List.foldl_cons, h]
      exact ⟨he.trans (State.writePa_eng _ _ _), hc.trans (State.writePa_clock _ _ _), b', hb', (b.woken_wake _).trans hw⟩

/-- A thread's part of the image, as the restored block takes it over. -/
def Block.imageTh (b : Block) (m : Memory) (t kind : Nat) : Thread :=
  if (b.th t).st = .exited then { b.threadOf m t kind with st := .exited } else b.threadOf m t kind

/-- The block with its image read, before its threads go on. -/
def Block.imageRead (b : Block) (m : Memory) (kind : Nat) : Block :=
  { (b.stateOf m).mapTh (fun t th =>
      if th.st = .exited then { b.threadOf m t kind with st := .exited } else b.threadOf m t kind) with
    saved := none, out := [], acks := [], due := none }

theorem Block.th_imageRead {b : Block} (hl : b.threads.length = b.cfg.bsize) (m : Memory) (kind : Nat)
    {n : Nat} (hn : n < b.cfg.bsize) :
    (b.imageRead m kind).th n = b.imageTh m n kind := by
  have hn' : n < b.threads.length := hl ▸ hn
  simp [Block.th, Block.imageRead, Block.imageTh, Block.mapTh, Block.stateOf, hn.ne, List.getD_eq_getElem?_getD, hn']

/-- The threads of a block gone on one after the other, with what they are charged. -/
def Block.goneOn (b : Block) (lens : Nat → Nat) (late : Nat → Bool) : Block × Nat :=
  (List.range b.cfg.bsize).foldl (fun a t => ((a.1.wakeRestored lens late t).1, a.2 + (a.1.wakeRestored lens late t).2)) (b, 0)

/-- The target of a sleep has passed, and no promise comes first (R361). -/
def State.late (s : State) (blk target : Nat) : Bool := decide (target ≤ s.clock.time) && !s.promiseFirst blk target

theorem State.late_of_lt (s : State) (blk : Nat) {target : Nat} (h : s.clock.time < target) : s.late blk target = false := by
  rw [State.late, decide_eq_false h.not_ge, Bool.false_and]

/-- A thread read from an image goes on as its wait has it. -/
theorem Block.restored_imageTh {b : Block} (m : Memory) (n kind len : Nat) {time : Nat} {late : Nat → Bool}
    (hlate : ∀ {target}, time < target → late target = false) (now : Nat) :
    let th := b.threadOf m n kind
    let t := (b.imageTh m n kind).restored len late now
    t.v = th.v ∧ t.seed = th.seed ∧ t.armed = th.armed ∧ t.flags = List.replicate 12 0 ∧ t.outst = [] ∧
    ((b.th n).wait = none → t.pc = th.pc ∧ t.p = th.p ∧ t.st = if (b.th n).st = .exited then .exited else th.st) ∧
    ((b.th n).st ≠ .exited →
      (∀ r j, (b.th n).wait = some (.landed r j) → t.st = .ready ∧ t.wait = none ∧ t.pc = th.pc ∧ t.p = th.p) ∧
      (∀ j, (b.th n).wait = some (.sleep j) → time < j → t.wait = some (.sleep j) ∧ t.st = th.st ∧ t.pc = th.pc) ∧
      (∀ q, (b.th n).wait = some (.parked q) → q.kind = .waitaddr ∨ q.kind = .park → t.st = .ready ∧ t.wait = none) ∧
      (∀ q, (b.th n).wait = some (.parked q) → q.kind ≠ .waitaddr → q.kind ≠ .park →
        t.wait = some (.parked { q with woken := true, polled := false, away := true }) ∧ t.st = th.st)) := by
  intro th t
  have hx : b.imageTh m n kind = { th with st := if (b.th n).st = .exited then .exited else th.st } := by
    unfold Block.imageTh
    split <;> rfl
  have hwait : (b.imageTh m n kind).wait = (b.th n).wait := by rw [hx]; rfl
  obtain ⟨h1, h2, h3, h4, h5⟩ := Thread.restored_frame (th := b.imageTh m n kind) (by rw [hx]; rfl) len late now
  refine ⟨h1.trans (by rw [hx]), h2.trans (by rw [hx]), h3.trans (by rw [hx]), h4.trans (by rw [hx]; rfl),
      h5.trans (by rw [hx]; rfl), fun hw => ?_, fun hst => ⟨fun r j hw => ?_, fun j hw hj => ?_,
    fun q hw hk => ?_, fun q hw h6 h7 => ?_⟩⟩
  all_goals rw [← hwait] at hw
  · have ht : t = b.imageTh m n kind := by simp only [t, Thread.restored, hw]
    rw [ht, hx]
    exact ⟨rfl, rfl, rfl⟩
  · have ht : t = { b.imageTh m n kind with st := .ready, wait := none, wlen := 0, age := now, order := 0 } := by
      simp only [t, Thread.restored, hw]
    rw [ht, hx]
    exact ⟨rfl, rfl, rfl, rfl⟩
  · have ht : t = b.imageTh m n kind := by simp only [t, Thread.restored, hw, hlate hj, Bool.false_eq_true, if_false]
    rw [ht]
    refine ⟨hw, ?_, ?_⟩
    · rw [hx, if_neg hst]
    · rw [hx]
  · simp only [t, Thread.restored, hw, if_pos hk]
    exact ⟨rfl, trivial⟩
  · have ht : t = { b.imageTh m n kind with wait := some (.parked { q with woken := true, polled := false, away := true }) } := by
      simp only [t, Thread.restored, hw, h6, h7, or_self, if_false]
    rw [ht]
    refine ⟨rfl, ?_⟩
    rw [hx, if_neg hst]

section
variable {s : State} {blk : Nat} {b : Block} (hb : s.block? blk = some b) {k : Saved} (m : Memory) (hk : b.saved = some k)
variable (hstops : k.stops = []) (hspawn : k.spawn = none) (hpart : b.cfg.partial? = false) (hout : b.out = [])
include hb hk hstops hspawn hpart hout

theorem fillRestored_eq :
    let b1 := b.imageRead m k.kind
    let r := b1.goneOn (s.waitLen b1) (s.late blk)
    let u := ((List.range b.cfg.bsize).map b1.th).foldl State.unwait ((s.modBlock blk fun _ => r.1).charge blk r.2 0)
    s.fillRestored b m =
      (u.eng.copies.filter fun c => c.blk == blk && c.promise.any (· ≤ u.clock.time)).foldl State.missPromise u := by
  have hid : b.id = blk := State.block?_id hb
  unfold State.fillRestored
  simp only [hk, hout, hpart, hid, hstops, hspawn, Option.getD_some, List.any_nil, Bool.false_eq_true, if_false, List.foldl_nil,
    State.afterInline]
  rfl

/-- A restored block is the one read from its image, its threads gone on, and charged for those that wake. -/
theorem fillRestored_block? (hl : b.threads.length = b.cfg.bsize) (hprom : ∀ c ∈ s.eng.copies, c.blk = blk → c.promise = none) :
    ∃ ts due ci, (s.fillRestored b m).block? blk = some { b.imageRead m k.kind with
        threads := ts, due := due, regs := (b.imageRead m k.kind).regs.charged ci 0 } ∧
      ∀ n < b.cfg.bsize, ({ b.imageRead m k.kind with threads := ts } : Block).th n =
        (b.imageTh m n k.kind).restored (s.waitLen (b.imageRead m k.kind) n) (s.late blk) b.cycles := by
  have heq := fillRestored_eq hb m hk hstops hspawn hpart hout
  dsimp only at heq
  set b1 := b.imageRead m k.kind with hb1
  have hl1 : b1.threads.length = b1.cfg.bsize := by simpa [hb1, Block.imageRead, Block.mapTh, Block.stateOf] using hl
  obtain ⟨ts, hts, hlen, hth⟩ := wakeRestored_fold b1 (s.waitLen b1) (s.late blk) le_rfl hl1 0
  set r := b1.goneOn (s.waitLen b1) (s.late blk) with hr
  have hr1 : r.1 = { b1 with threads := ts } := hts
  have hmod : (s.modBlock blk fun _ => r.1).block? blk = some r.1 := by
    have hid : r.1.id = blk := by rw [hr1]; exact (State.block?_id hb : b.id = blk)
    rw [State.block?_modBlock fun _ _ => hid, hb, Option.map_some]
  obtain ⟨b3, hb3, hundue⟩ := State.block?_charge hmod r.2 0
  have heng := congrArg State.eng (State.charge_block _ blk r.2 0 r.1 hmod).2
  obtain ⟨huEng, -, b4, hb4, hwoken⟩ := State.woken_unwait ((List.range b.cfg.bsize).map b1.th) hb3
  set u := ((List.range b.cfg.bsize).map b1.th).foldl State.unwait ((s.modBlock blk fun _ => r.1).charge blk r.2 0) with hu
  have hnone : (u.eng.copies.filter fun c => c.blk == blk && c.promise.any (· ≤ u.clock.time)) = [] := by
    refine List.filter_eq_nil_iff.mpr fun c hc => ?_
    have hc' : c ∈ s.eng.copies := by
      rw [huEng] at hc
      exact heng ▸ hc
    rw [Bool.and_eq_true, beq_iff_eq]
    rintro ⟨h1, h2⟩
    rw [hprom c hc' h1] at h2
    cases h2
  have h3 : b3 = { b1 with threads := ts, due := b3.due, regs := b1.regs.charged r.2 0 } := by
    have h : b3 = { b3.undue with due := b3.due } := rfl
    rw [hundue, hr1] at h
    exact h
  have hthread {n : Nat} (hn : n < b.cfg.bsize) : b3.th n = (b1.th n).restored (s.waitLen b1 n) (s.late blk) b1.cycles := by
    rw [h3]
    exact (hth n).trans (if_pos hn)
  have hawake {n : Nat} (hn : n < b.cfg.bsize) : b4.th n = b3.th n :=
    (hwoken.th_frame n).2 (by rw [hthread hn]; exact Thread.restored_awake _ _ _ _)
  obtain ⟨f, -, rfl⟩ := hwoken
  rw [heq, hnone, List.foldl_nil, hb4]
  refine ⟨b3.threads.map f, b3.due, r.2, ?_, fun n hn => ?_⟩
  · rw [h3]
  · rw [← Block.th_imageRead hl m k.kind hn]
    refine Eq.trans ?_ ((hawake hn).trans (hthread hn))
    rw [h3]
    rfl

/-- R361: a restored block has its image's state, and each of its threads goes on as its wait has it. -/
theorem fillRestored_restores (hl : b.threads.length = b.cfg.bsize) (hprom : ∀ c ∈ s.eng.copies, c.blk = blk → c.promise = none) :
    let img := b.stateOf m
    ∃ b', (s.fillRestored b m).block? blk = some b' ∧ b'.saved = none ∧ b'.acks = [] ∧ b'.uregs = img.uregs ∧ b'.xs = img.xs ∧
      b'.tiles = img.tiles ∧ b'.rows = img.rows ∧ b'.scratch = img.scratch ∧ b'.rowprog = img.rowprog ∧ b'.epoch = b.epoch + 1 ∧
      b'.wdrun = img.wdrun ∧ b'.regs.ustat = img.regs.ustat ∧ b'.regs.fmode = img.regs.fmode ∧ b'.regs.wdog = img.regs.wdog ∧
      b'.regs.inlmax = img.regs.inlmax ∧ b'.regs.wtovf = img.regs.wtovf ∧
      ∀ n < b.cfg.bsize,
        let th := b.threadOf m n k.kind
        let t := b'.th n
        t.v = th.v ∧ t.seed = th.seed ∧ t.armed = th.armed ∧ t.flags = List.replicate 12 0 ∧ t.outst = [] ∧
        ((b.th n).wait = none → t.pc = th.pc ∧ t.p = th.p ∧ t.st = if (b.th n).st = .exited then .exited else th.st) ∧
        ((b.th n).st ≠ .exited →
          (∀ r j, (b.th n).wait = some (.landed r j) → t.st = .ready ∧ t.wait = none ∧ t.pc = th.pc ∧ t.p = th.p) ∧
          (∀ j, (b.th n).wait = some (.sleep j) → s.clock.time < j → t.wait = some (.sleep j) ∧ t.st = th.st ∧ t.pc = th.pc) ∧
          (∀ q, (b.th n).wait = some (.parked q) → q.kind = .waitaddr ∨ q.kind = .park →
            t.st = .ready ∧ t.wait = none) ∧
          (∀ q, (b.th n).wait = some (.parked q) → q.kind ≠ .waitaddr → q.kind ≠ .park →
            t.wait = some (.parked { q with woken := true, polled := false, away := true }) ∧ t.st = th.st)) := by
  intro img
  obtain ⟨ts, due, ci, hblk, hth⟩ := fillRestored_block? hb m hk hstops hspawn hpart hout hl hprom
  refine ⟨_, hblk, rfl, rfl, rfl, rfl, rfl, rfl, rfl, rfl, rfl, rfl, rfl, rfl, rfl, rfl, rfl, fun n hn => ?_⟩
  have ht : ({ b.imageRead m k.kind with threads := ts, due := due, regs := (b.imageRead m k.kind).regs.charged ci 0 } :
      Block).th n =
    (b.imageTh m n k.kind).restored (s.waitLen (b.imageRead m k.kind) n) (s.late blk) b.cycles := hth n hn
  rw [ht]
  exact Block.restored_imageTh m n k.kind _ (s.late_of_lt blk) _

end
end Sys2Proof.Machine
end

section
/-! SUPPORT. The events of saves; O46. -/

namespace Sys2Proof.Machine

/-! ## The image of a save, read back (R353, R356 to R358) -/

theorem saveImage_reads_back {b : Block} (hT : b.tiles.wf = true) (hR : b.rows.wf = true) (hS : b.scratch.wf = true)
    (hrow : b.rowprog.row < 64) (hwd : b.wdrun ≤ b.wdPeriod) (hpark : b.place.parkn < 2 ^ 16) (kind : Nat) (live : Live)
      (stopped : Bool)
    (recs : Nat → Option (DWord × Live)) :
    let m := b.saveImage kind live stopped recs
    let c := b.stateOf m
    c.regs = b.regs ∧ c.rowprog = b.rowprog ∧ c.wdrun = b.wdrun ∧ c.place = b.place ∧ c.epoch = b.epoch + 1 ∧
    (∀ n < b.cfg.uAlloc, c.ureg n = if live.u.testBit n then b.ureg n else 0) ∧
    (∀ k < 8, (c.xs.getD k {}).st = (if live.x.testBit k then (b.xs.getD k {}).st else 0#4) ∧
      (k < b.cfg.xsums → (c.xs.getD k {}).n = if live.x.testBit k then (b.xs.getD k {}).n else 0#640)) ∧
    (∀ a < 4096 * b.cfg.tiles, c.tiles.get a = if live.t.testBit (a / 4096) then b.tiles.get a else 0#8) ∧
    (∀ a < 256 * b.cfg.rowAlloc, c.rows.get a = if live.acc then b.rows.get a else 0#8) ∧
    (∀ a < b.cfg.scratch, c.scratch.get a = b.scratch.get a) :=
  ⟨stateOf_image_regs hT hR hS kind live stopped recs, stateOf_image_rowprog hT hR hS kind live stopped recs hrow,
    stateOf_image_wdrun hT hR hS kind live stopped recs hwd, stateOf_image_place hT hR hS kind live stopped recs hpark, rfl,
    fun _ => stateOf_image_ureg hT hR hS kind live stopped recs,
    fun _ h8 => ⟨stateOf_image_xst hT hR hS kind live stopped recs h8, stateOf_image_xsum hT hR hS kind live stopped recs h8⟩,
    fun _ => stateOf_image_tiles hT hR hS kind live stopped recs, fun _ => stateOf_image_rows hT hR hS kind live stopped recs,
    fun _ => stateOf_image_scratch hT hR hS kind live stopped recs⟩

/-- Settles O46: the image of a save is laid out by parts that do not meet, so each field is read back from its own part;
a save and a restore change the block's threads alone by what their waits say; the other events follow their definitions. -/
theorem saveEvents : Obligations.SaveEvents := by
  unfold Obligations.SaveEvents
  intro s blk b hb
  refine ⟨landingSave_runs hb, ?_, ?_, ?_, ?_, ?_, debuggerResume_runs hb, debuggerResume_handler hb, ?_, ?_, ?_, ?_,
      refillReel_pays hb,
    directReelPayment_pays hb⟩
  · rintro hr hs hi he ⟨d, hd, h⟩
    exact forcedSave_runs hb hr hs hi he (State.mustForce_of hd h)
  · intro core b' t hb' ht hc
    show execRestore blk core s = _
    simp [execRestore, hb', ht, hc]
  · intro g next hr hp ho hg hi hn hs
    exact turnGroupRotation_runs hb hr hp ho hg hi hn hs
  · intro tid hs hl hr hu
    exact registerReturn_runs hb (State.canReturn_of hs hl hr hu)
  · intro tid hs hl hr ht hu
    exact registerReturn_poisoned hb (State.canReturn_of hs hl hr hu) ht
  · intro tid sel wide hd ho kind num ht hn
    refine ⟨fun value => ?_, debugger_read hb hd ho ht hn⟩
    intro x hst hf
    exact debugger_write hb hd ho ht hn value hst rfl hf
  · intro hT hR hS hrow hwd hpark kind live stopped recs
    obtain ⟨h1, h2, h3, h4, h5, h6, h7, h8, h9, h10⟩ := saveImage_reads_back hT hR hS hrow hwd hpark kind live stopped recs
    exact ⟨h1, h2, h3, h4, h5, h6, h7, h8, h9, h10, fun t ht => threadOf_image hT hR hS kind live stopped recs ht⟩
  · exact fun kind u hacks hsaved hout houtst hbad hcopy hmissed hheld =>
      saveBlock_makes hb kind u hacks hsaved hout houtst hbad hcopy hmissed hheld
  · exact fun k m hk hstops hspawn hpart hout hl hprom => fillRestored_restores hb m hk hstops hspawn hpart hout hl hprom

end Sys2Proof.Machine
end
